-- ==== Sys2Proof/Word.lean ====
section
/-!
DEFINITION. The words of the G960 (00_scope R2, 02_execution R27, R35): bytes, 64-bit scalars and 512-bit vectors.
-/

namespace Sys2Proof

/-- One byte of memory. -/
abbrev Byte := BitVec 8

/-- A scalar payload, a system register, a scalar or mask global (R27, R35). -/
abbrev W64 := BitVec 64

/-- A vector payload or vector global (R27, R35). Lane 0 is least significant (R2). -/
abbrev V512 := BitVec 512

end Sys2Proof
end

