-- ==== Sys2Proof/Config.lean ====
section
/-!
DEFINITION. What one part fixes and the spec leaves open. Every constant below has no body, so no proof can lean on a
value of it; a statement holds for every value it could have. notes/assumptions/ names each one.
-/

namespace Sys2Proof.Config

/-- Free 64-bit values, one per count of `State.fresh` (assumption 2). -/
opaque freeWord : Nat → W64

/-- Free bytes: what an implementation writes into a spill entry, whose layout no rule gives (R33; assumption 11). -/
opaque freeByte : Nat → Byte

/-- The platform key pair, that of key 0 until a KEYSET loads another (R350; assumption 6). -/
opaque platformKey : V512

/-- The XMSS signature of a report under the device signing key, by index (R423): the key never leaves the part. -/
opaque xmssSign : Nat → List Byte → List Byte

/-- The measurements of a report, bytes 40 to 167 (R423): those of the images the part has booted, and that of the PT_*
registers, partition by partition. -/
opaque measurements : List W64 → List Byte

/-- Whether a namespace of an NVMe controller has LBAs of 4096 bytes, rather than 512 (R164): controller, namespace. -/
opaque lba4096 : Nat → Nat → Bool

/-- The 224 payload bits of a flit sent on a link, by its number (R329; assumption 14): how a packet lies in them is not in
the spec. -/
opaque linkPayload : Nat → BitVec 224

/-- How far below its nominal setting, less one, an island stands at minimum power (R425; assumption 56). -/
opaque minPower : Nat

end Sys2Proof.Config
end

