-- ==== Sys2Proof/Machine/Aes.lean ====
section
/-!
DEFINITION. AES-XTS-256 over one 64-byte granule (R350), as IEEE 1619 and FIPS 197 define it (assumption 17): keys and data
are little-endian byte strings of their numbers, the data unit is the granule and its number the tweak.
-/

namespace Sys2Proof.Machine

/-! ### GF(2^8) and the S-box -/

/-- The product with `x` modulo the AES polynomial. -/
def aesX (b : Nat) : Nat := if b < 128 then 2 * b else (2 * b) ^^^ 0x11b

/-- The product in GF(2^8). -/
def aesMul (a b : Nat) : Nat :=
  ((List.range 8).foldl (fun (r : Nat × Nat) i => (if b.testBit i then r.1 ^^^ r.2 else r.1, aesX r.2)) (0, a)).1

/-- The inverse in GF(2^8), `b` to the power 254; 0 for 0. -/
def aesInv (b : Nat) : Nat :=
  ((List.range 7).foldl (fun (r : Nat × Nat) _ => let q := aesMul r.2 r.2; (aesMul r.1 q, q)) (1, b)).1

/-- A byte rotated left. -/
def rotByte (b k : Nat) : Nat := (b * 2 ^ k ||| b / 2 ^ (8 - k)) % 256

def aesSbox (b : Nat) : Nat :=
  let i := aesInv b
  i ^^^ rotByte i 1 ^^^ rotByte i 2 ^^^ rotByte i 3 ^^^ rotByte i 4 ^^^ 0x63

def aesInvSbox (b : Nat) : Nat := aesInv (rotByte b 1 ^^^ rotByte b 3 ^^^ rotByte b 6 ^^^ 5)

/-! ### The cipher -/

/-- Bytes combined place by place. -/
def xorBytes (a b : List Nat) : List Nat := List.zipWith (· ^^^ ·) a b

/-- The next word of the key schedule, from the words so far, newest first. -/
def aesNext (ws : List (List Nat)) : List Nat :=
  let i := ws.length
  let t := ws.headD []
  let t :=
    if i % 8 = 0 then
      let r := (t.drop 1 ++ t.take 1).map aesSbox
      xorBytes r [(List.range (i / 8 - 1)).foldl (fun c _ => aesX c) 1, 0, 0, 0]
    else if i % 8 = 4 then t.map aesSbox
    else t
  xorBytes (ws.getD 7 []) t

/-- The fifteen round keys of a 32-byte key. -/
def aesKeys (key : List Nat) : List (List Nat) :=
  let ws := (List.range 52).foldl (fun ws _ => aesNext ws :: ws) ((List.range 8).map fun k => (key.drop (4 * k)).take 4).reverse
  let ws := ws.reverse
  (List.range 15).map fun r => (List.range 4).flatMap fun j => ws.getD (4 * r + j) []

/-- Rows shifted, `inv` backwards. -/
def aesShift (inv : Bool) (b : List Nat) : List Nat :=
  (List.range 16).map fun i => b.getD (4 * ((i / 4 + (if inv then 4 - i % 4 else i % 4)) % 4) + i % 4) 0

/-- Columns multiplied by the circulant of `m`. -/
def aesMix (m : List Nat) (b : List Nat) : List Nat :=
  (List.range 16).map fun i =>
    (List.range 4).foldl (fun a j => a ^^^ aesMul (b.getD (4 * (i / 4) + j) 0) (m.getD ((j + 4 - i % 4) % 4) 0)) 0

/-- One block enciphered. -/
def aesEnc (ks : List (List Nat)) (b : List Nat) : List Nat :=
  let b := xorBytes b (ks.getD 0 [])
  let b := (List.range 13).foldl (fun b r =>
    xorBytes (aesMix [2, 3, 1, 1] (aesShift false (b.map aesSbox))) (ks.getD (r + 1) [])) b
  xorBytes (aesShift false (b.map aesSbox)) (ks.getD 14 [])

/-- One block deciphered. -/
def aesDec (ks : List (List Nat)) (b : List Nat) : List Nat :=
  let b := xorBytes b (ks.getD 14 [])
  let b := (List.range 13).foldl (fun b r =>
    aesMix [14, 11, 13, 9] (xorBytes ((aesShift true b).map aesInvSbox) (ks.getD (13 - r) []))) b
  xorBytes ((aesShift true b).map aesInvSbox) (ks.getD 0 [])

/-! ### XTS over a granule -/

/-- The `n` low bytes of a number. -/
def bytesNat (v n : Nat) : List Nat := (List.range n).map fun i => v / 256 ^ i % 256

/-- The number of a byte string. -/
def natBytes (l : List Nat) : Nat := l.foldr (fun b a => b + 256 * a) 0

/-- The tweak of the next block. -/
def xtsNext (t : Nat) : Nat := if t < 2 ^ 127 then 2 * t else (2 * t - 2 ^ 128) ^^^ 0x87

/-- The granule `v` enciphered, or deciphered, under a key pair: data key in bits 255:0, tweak key in bits 511:256
(R360). -/
def xtsGranule (dec : Bool) (key : V512) (unit v : Nat) : Nat :=
  let k1 := aesKeys (bytesNat key.toNat 32)
  let k2 := aesKeys (bytesNat (key.toNat / 2 ^ 256) 32)
  let t0 := natBytes (aesEnc k2 (bytesNat unit 16))
  let run (j : Nat) : Nat :=
    let t := bytesNat ((List.range j).foldl (fun t _ => xtsNext t) t0) 16
    let b := xorBytes (bytesNat (v / 2 ^ (128 * j)) 16) t
    natBytes (xorBytes (if dec then aesDec k1 b else aesEnc k1 b) t)
  run 0 + 2 ^ 128 * run 1 + 2 ^ 256 * run 2 + 2 ^ 384 * run 3

end Sys2Proof.Machine
end

