-- ==== Sys2Proof/Syntax.lean ====
section
/-!
DEFINITION. The syntax of the machine's steps: one constructor of `Instr` for each row of spec/opcode_table.json.
The 208 instruction rows carry the fields of their word (03_words R58 to R65). The 76 rows that are steps of the machine
itself (95_what_each_step_holds) carry the numbers that say which party the step concerns.
-/

namespace Sys2Proof

/-- PRD, bits 55:54 (R58). 0b11 is reserved. -/
inductive Prd where
  | always | onTrue | onFalse
deriving DecidableEq, Repr

/-- A destination port (R27, R59). -/
inductive Port where
  | l | r | p | q
deriving DecidableEq, Repr

/-- A global file (R59). -/
inductive GFile where
  | g | v | m
deriving DecidableEq, Repr

/-- A target field (R59). -/
inductive Target where
  | none
  | slot (ix : BitVec 7) (pt : Port)
  | glob (file : GFile) (num : BitVec 6)
  | queue (q : BitVec 4)
deriving DecidableEq, Repr

/-- Type codes 0 to 14 (R62). -/
inductive Ty where
  | i8 | i16 | i32 | i64 | n8 | n16 | n32 | n64 | f16 | b16 | f32 | f64 | e4m3 | e5m2 | mask
deriving DecidableEq, Repr

/-- Rounding codes (R62, R185). -/
inductive RM where
  | rne | rtz | rdn | rup | rna | dyn
deriving DecidableEq, Repr

/-- Null modes (R44). -/
inductive NM where
  | pass | absorb | identity
deriving DecidableEq, Repr

/-- LIT and the immediate (R60, R61): IMM16 when LIT is 0b00, else the literal that follows the word. -/
inductive Imm where
  | short (v : BitVec 16)
  | lit32 (v : BitVec 32)
  | lit64 (v : BitVec 64)
deriving DecidableEq, Repr

/-- The fields of a G-format word (R60). -/
structure GWord where
  prd : Prd
  ty : Ty
  imm : Imm
  t0 : Target
  t1 : Target
  rm : RM
  sat : Bool
  nm : NM
  ir : Bool
  mf : BitVec 3
deriving DecidableEq, Repr

/-- Address spaces (R63, R79). -/
inductive Asp where
  | sp | xp | sh | gv | kv | rm
deriving DecidableEq, Repr

/-- Memory element modes (R63, R91). -/
inductive Mode where
  | rnd | stm | ord
deriving DecidableEq, Repr

/-- Scopes (R63, R93). -/
inductive Scope where
  | nd | cl | di | pk | sy
deriving DecidableEq, Repr

/-- The fields of an M-format word (R63). `sbw` is the scoreboard token waited on when bit 3 of SBW is 1. -/
structure MWord where
  prd : Prd
  sz : BitVec 3
  asp : Asp
  mode : Mode
  scope : Scope
  t0 : Target
  dt : BitVec 7
  seq : BitVec 7
  prev : BitVec 7
  next : BitVec 7
  sbw : Option (BitVec 3)
deriving DecidableEq, Repr

/-- The fields of a C-format word (R64). KIND is fixed by the opcode (R75). -/
structure CWord where
  prd : Prd
  exn : BitVec 3
  off : BitVec 48
deriving DecidableEq, Repr

/-- The fields of an E-format word (R65). `sbs` is SBS when SBE is 1; `sub` is SUB[19:16];
SUB[23:20] selects the mnemonic (R66). -/
structure EWord where
  prd : Prd
  sbs : Option (BitVec 3)
  wm : BitVec 8
  pat : BitVec 4
  t0 : Target
  unit : BitVec 3
  sub : BitVec 4
  imm : BitVec 16
deriving DecidableEq, Repr

/-- The fields of an S-format word (R65). For opcode 0xFE `imm` is IMM16[13:0], zero-extended (R406). -/
structure SWord where
  prd : Prd
  t0 : Target
  srn : BitVec 11
  imm : BitVec 16
deriving DecidableEq, Repr

/-- The opcode map (R66): one name for each instruction row. -/
inductive Op where
  | nop | const | mov | read | write | steer | merge | pand | por | pxor | pnot | iterid | nullq | nfill | niter
  | bro | br | callo | call | ret | quit | binv | add | sub | mul | mulh | mulhn | div | divn | rem | remn | adds
  | subs | madd | and | or | xor | andn | shl | shr | sar | rot | min | max | abs | neg | clz | ctz | popc | sext
  | zext | lea | ceq | cne | clt | cle | cltn | clen | fadd | fsub | fmul | fma | fnma | fdiv | fsqrt | frsq | frcp
  | fexp2 | flog2 | fmin | fmax | fabs | fneg | fsgn | fclass | fscale | fceq | fclt | fcle | fcun | fcvt | icvtf
  | fcvti | qnt | dqnt | gscale | mxpack | mxunpk | pack | unpack | vbcast | vbcastLane | vext | vins | vperm | vshuf
  | vradd | vrmax | vrmin | vscan | vdot | vsel | vcmp | mand | mor | mxor | mnot | mpopc | mffs | mbit | mtst | radd
  | rmax | rmin | rjoin | kmerge | ld | st | ldv | stv | gath | scat | aadd | amin | amax | aand | aor | axor | axchg
  | acas | afadd | bred | bupd | mnop | ldrgn | acq | rel | fence | seminc | semwait | semrd | sbwait | tgive | ttake
  | bar | bara | barw | pset | copy | copyr | tsend | rread | wopen | wclose | flopen | flpush | flfree | flclose
  | kvtab | kvgath | kvapp | kvinv | nvrd | nvwr | cred | cbcast | cgath | wload | wswap | mma | mrecur | macc
  | mzero | mstat | kcfg | kbias | kmask | kbind | kunbind | klife | kqry | kstat | launch | garm | spawn | tret
  | hreg | hregUnreg | msend | msendTrig | mrecv | mprobe | nopen | nclose | nbind | nrebind | nunbind | nlook | rdsr
  | wrsr | tinv | tsync | tprobe | keyset | trap | brk | fret | frec
deriving DecidableEq, Repr

/-- The decoded fields of a word, by format (R58). -/
inductive Fields where
  | g (w : GWord)
  | m (w : MWord)
  | c (w : CWord)
  | e (w : EWord)
  | s (w : SWord)
deriving DecidableEq, Repr

/-- The steps of the machine: one constructor for each row of the opcode table. -/
inductive Instr where
  /-- NOP (R69). -/
  | nop (w : GWord)
  /-- CONST (R69). -/
  | const (w : GWord)
  /-- MOV (R69). -/
  | mov (w : GWord)
  /-- READ (R70). -/
  | read (w : GWord)
  /-- WRITE (R70). -/
  | write (w : GWord)
  /-- STEER (R71). -/
  | steer (w : GWord)
  /-- MERGE (R71). -/
  | merge (w : GWord)
  /-- PAND (R72). -/
  | pand (w : GWord)
  /-- POR (R72). -/
  | por (w : GWord)
  /-- PXOR (R72). -/
  | pxor (w : GWord)
  /-- PNOT (R72). -/
  | pnot (w : GWord)
  /-- ITERID (R73). -/
  | iterid (w : GWord)
  /-- NULLQ (R73). -/
  | nullq (w : GWord)
  /-- NFILL (R73). -/
  | nfill (w : GWord)
  /-- NITER (R74). -/
  | niter (w : GWord)
  /-- BRO (R75). -/
  | bro (w : CWord)
  /-- BR (R75). -/
  | br (w : CWord)
  /-- CALLO (R75). -/
  | callo (w : CWord)
  /-- CALL (R75). -/
  | call (w : CWord)
  /-- RET (R75). -/
  | ret (w : CWord)
  /-- QUIT (R76). -/
  | quit (w : CWord)
  /-- BINV (R77). -/
  | binv (w : GWord)
  /-- ADD (R205). -/
  | add (w : GWord)
  /-- SUB (R205). -/
  | sub (w : GWord)
  /-- MUL (R205). -/
  | mul (w : GWord)
  /-- MULH (R205). -/
  | mulh (w : GWord)
  /-- MULHN (R205). -/
  | mulhn (w : GWord)
  /-- DIV (R206). -/
  | div (w : GWord)
  /-- DIVN (R206). -/
  | divn (w : GWord)
  /-- REM (R206). -/
  | rem (w : GWord)
  /-- REMN (R206). -/
  | remn (w : GWord)
  /-- ADDS (R205). -/
  | adds (w : GWord)
  /-- SUBS (R205). -/
  | subs (w : GWord)
  /-- MADD (R205). -/
  | madd (w : GWord)
  /-- AND (R205). -/
  | and (w : GWord)
  /-- OR (R205). -/
  | or (w : GWord)
  /-- XOR (R205). -/
  | xor (w : GWord)
  /-- ANDN (R205). -/
  | andn (w : GWord)
  /-- SHL (R207). -/
  | shl (w : GWord)
  /-- SHR (R207). -/
  | shr (w : GWord)
  /-- SAR (R207). -/
  | sar (w : GWord)
  /-- ROT (R207). -/
  | rot (w : GWord)
  /-- MIN (R205). -/
  | min (w : GWord)
  /-- MAX (R205). -/
  | max (w : GWord)
  /-- ABS (R205). -/
  | abs (w : GWord)
  /-- NEG (R205). -/
  | neg (w : GWord)
  /-- CLZ (R208). -/
  | clz (w : GWord)
  /-- CTZ (R208). -/
  | ctz (w : GWord)
  /-- POPC (R208). -/
  | popc (w : GWord)
  /-- SEXT (R208). -/
  | sext (w : GWord)
  /-- ZEXT (R208). -/
  | zext (w : GWord)
  /-- LEA (R208). -/
  | lea (w : GWord)
  /-- CEQ (R209). -/
  | ceq (w : GWord)
  /-- CNE (R209). -/
  | cne (w : GWord)
  /-- CLT (R209). -/
  | clt (w : GWord)
  /-- CLE (R209). -/
  | cle (w : GWord)
  /-- CLTN (R209). -/
  | cltn (w : GWord)
  /-- CLEN (R209). -/
  | clen (w : GWord)
  /-- FADD (R211). -/
  | fadd (w : GWord)
  /-- FSUB (R211). -/
  | fsub (w : GWord)
  /-- FMUL (R211). -/
  | fmul (w : GWord)
  /-- FMA (R211). -/
  | fma (w : GWord)
  /-- FNMA (R211). -/
  | fnma (w : GWord)
  /-- FDIV (R211). -/
  | fdiv (w : GWord)
  /-- FSQRT (R211). -/
  | fsqrt (w : GWord)
  /-- FRSQ (R212). -/
  | frsq (w : GWord)
  /-- FRCP (R212). -/
  | frcp (w : GWord)
  /-- FEXP2 (R212). -/
  | fexp2 (w : GWord)
  /-- FLOG2 (R212). -/
  | flog2 (w : GWord)
  /-- FMIN (R213). -/
  | fmin (w : GWord)
  /-- FMAX (R213). -/
  | fmax (w : GWord)
  /-- FABS (R213). -/
  | fabs (w : GWord)
  /-- FNEG (R213). -/
  | fneg (w : GWord)
  /-- FSGN (R213). -/
  | fsgn (w : GWord)
  /-- FCLASS (R214). -/
  | fclass (w : GWord)
  /-- FSCALE (R211). -/
  | fscale (w : GWord)
  /-- FCEQ (R215). -/
  | fceq (w : GWord)
  /-- FCLT (R215). -/
  | fclt (w : GWord)
  /-- FCLE (R215). -/
  | fcle (w : GWord)
  /-- FCUN (R215). -/
  | fcun (w : GWord)
  /-- FCVT (R194). -/
  | fcvt (w : GWord)
  /-- ICVTF (R194). -/
  | icvtf (w : GWord)
  /-- FCVTI (R194). -/
  | fcvti (w : GWord)
  /-- QNT (R195). -/
  | qnt (w : GWord)
  /-- DQNT (R195). -/
  | dqnt (w : GWord)
  /-- GSCALE (R196). -/
  | gscale (w : GWord)
  /-- MXPACK (R197). -/
  | mxpack (w : GWord)
  /-- MXUNPK (R197). -/
  | mxunpk (w : GWord)
  /-- PACK (R198). -/
  | pack (w : GWord)
  /-- UNPACK (R198). -/
  | unpack (w : GWord)
  /-- VBCAST (R217). -/
  | vbcast (w : GWord)
  /-- VBCAST_LANE (R217). -/
  | vbcastLane (w : GWord)
  /-- VEXT (R217). -/
  | vext (w : GWord)
  /-- VINS (R217). -/
  | vins (w : GWord)
  /-- VPERM (R218). -/
  | vperm (w : GWord)
  /-- VSHUF (R218). -/
  | vshuf (w : GWord)
  /-- VRADD (R220). -/
  | vradd (w : GWord)
  /-- VRMAX (R220). -/
  | vrmax (w : GWord)
  /-- VRMIN (R220). -/
  | vrmin (w : GWord)
  /-- VSCAN (R221). -/
  | vscan (w : GWord)
  /-- VDOT (R222). -/
  | vdot (w : GWord)
  /-- VSEL (R223). -/
  | vsel (w : GWord)
  /-- VCMP (R223). -/
  | vcmp (w : GWord)
  /-- MAND (R225). -/
  | mand (w : GWord)
  /-- MOR (R225). -/
  | mor (w : GWord)
  /-- MXOR (R225). -/
  | mxor (w : GWord)
  /-- MNOT (R225). -/
  | mnot (w : GWord)
  /-- MPOPC (R225). -/
  | mpopc (w : GWord)
  /-- MFFS (R225). -/
  | mffs (w : GWord)
  /-- MBIT (R225). -/
  | mbit (w : GWord)
  /-- MTST (R225). -/
  | mtst (w : GWord)
  /-- RADD (R252). -/
  | radd (w : GWord)
  /-- RMAX (R252). -/
  | rmax (w : GWord)
  /-- RMIN (R252). -/
  | rmin (w : GWord)
  /-- RJOIN (R254). -/
  | rjoin (w : GWord)
  /-- KMERGE (R281). -/
  | kmerge (w : GWord)
  /-- LD (R99). -/
  | ld (w : MWord)
  /-- ST (R99). -/
  | st (w : MWord)
  /-- LDV (R99). -/
  | ldv (w : MWord)
  /-- STV (R99). -/
  | stv (w : MWord)
  /-- GATH (R100). -/
  | gath (w : MWord)
  /-- SCAT (R100). -/
  | scat (w : MWord)
  /-- AADD (R101). -/
  | aadd (w : MWord)
  /-- AMIN (R101). -/
  | amin (w : MWord)
  /-- AMAX (R101). -/
  | amax (w : MWord)
  /-- AAND (R101). -/
  | aand (w : MWord)
  /-- AOR (R101). -/
  | aor (w : MWord)
  /-- AXOR (R101). -/
  | axor (w : MWord)
  /-- AXCHG (R101). -/
  | axchg (w : MWord)
  /-- ACAS (R101). -/
  | acas (w : MWord)
  /-- AFADD (R102). -/
  | afadd (w : MWord)
  /-- BRED (R103). -/
  | bred (w : MWord)
  /-- BUPD (R103). -/
  | bupd (w : MWord)
  /-- MNOP (R105). -/
  | mnop (w : MWord)
  /-- LDRGN (R92). -/
  | ldrgn (w : MWord)
  /-- ACQ (R128). -/
  | acq (w : MWord)
  /-- REL (R129). -/
  | rel (w : MWord)
  /-- FENCE (R130). -/
  | fence (w : MWord)
  /-- SEMINC (R131). -/
  | seminc (w : MWord)
  /-- SEMWAIT (R132). -/
  | semwait (w : MWord)
  /-- SEMRD (R132). -/
  | semrd (w : MWord)
  /-- SBWAIT (R133). -/
  | sbwait (w : MWord)
  /-- TGIVE (R134). -/
  | tgive (w : MWord)
  /-- TTAKE (R135). -/
  | ttake (w : MWord)
  /-- BAR (R137). -/
  | bar (w : GWord)
  /-- BARA (R137). -/
  | bara (w : GWord)
  /-- BARW (R137). -/
  | barw (w : GWord)
  /-- PSET (R150). -/
  | pset (w : EWord)
  /-- COPY (R151). -/
  | copy (w : EWord)
  /-- COPYR (R172). -/
  | copyr (w : EWord)
  /-- TSEND (R168). -/
  | tsend (w : EWord)
  /-- RREAD (R173). -/
  | rread (w : EWord)
  /-- WOPEN (R169). -/
  | wopen (w : EWord)
  /-- WCLOSE (R171). -/
  | wclose (w : EWord)
  /-- FLOPEN (R152). -/
  | flopen (w : EWord)
  /-- FLPUSH (R153). -/
  | flpush (w : EWord)
  /-- FLFREE (R155). -/
  | flfree (w : EWord)
  /-- FLCLOSE (R156). -/
  | flclose (w : EWord)
  /-- KVTAB (R158). -/
  | kvtab (w : EWord)
  /-- KVGATH (R161). -/
  | kvgath (w : EWord)
  /-- KVAPP (R162). -/
  | kvapp (w : EWord)
  /-- KVINV (R163). -/
  | kvinv (w : EWord)
  /-- NVRD (R166). -/
  | nvrd (w : EWord)
  /-- NVWR (R166). -/
  | nvwr (w : EWord)
  /-- CRED (R180). -/
  | cred (w : EWord)
  /-- CBCAST (R180). -/
  | cbcast (w : EWord)
  /-- CGATH (R180). -/
  | cgath (w : EWord)
  /-- WLOAD (R244). -/
  | wload (w : EWord)
  /-- WSWAP (R245). -/
  | wswap (w : EWord)
  /-- MMA (R246). -/
  | mma (w : EWord)
  /-- MRECUR (R247). -/
  | mrecur (w : EWord)
  /-- MACC (R248). -/
  | macc (w : EWord)
  /-- MZERO (R249). -/
  | mzero (w : EWord)
  /-- MSTAT (R250). -/
  | mstat (w : EWord)
  /-- KCFG (R273). -/
  | kcfg (w : EWord)
  /-- KBIAS (R274). -/
  | kbias (w : EWord)
  /-- KMASK (R275). -/
  | kmask (w : EWord)
  /-- KBIND (R276). -/
  | kbind (w : EWord)
  /-- KUNBIND (R277). -/
  | kunbind (w : EWord)
  /-- KLIFE (R277). -/
  | klife (w : EWord)
  /-- KQRY (R278). -/
  | kqry (w : EWord)
  /-- KSTAT (R279). -/
  | kstat (w : EWord)
  /-- LAUNCH (R308). -/
  | launch (w : EWord)
  /-- GARM (R309). -/
  | garm (w : EWord)
  /-- SPAWN (R311). -/
  | spawn (w : EWord)
  /-- TRET (R312). -/
  | tret (w : EWord)
  /-- HREG (R313). -/
  | hreg (w : EWord)
  /-- HREG_UNREG (R313). -/
  | hregUnreg (w : EWord)
  /-- MSEND (R315). -/
  | msend (w : EWord)
  /-- MSEND_TRIG (R314). -/
  | msendTrig (w : EWord)
  /-- MRECV (R316). -/
  | mrecv (w : EWord)
  /-- MPROBE (R317). -/
  | mprobe (w : EWord)
  /-- NOPEN (R369). -/
  | nopen (w : EWord)
  /-- NCLOSE (R371). -/
  | nclose (w : EWord)
  /-- NBIND (R372). -/
  | nbind (w : EWord)
  /-- NREBIND (R373). -/
  | nrebind (w : EWord)
  /-- NUNBIND (R374). -/
  | nunbind (w : EWord)
  /-- NLOOK (R375). -/
  | nlook (w : EWord)
  /-- RDSR (R356). -/
  | rdsr (w : SWord)
  /-- WRSR (R356). -/
  | wrsr (w : SWord)
  /-- TINV (R357). -/
  | tinv (w : SWord)
  /-- TSYNC (R358). -/
  | tsync (w : SWord)
  /-- TPROBE (R359). -/
  | tprobe (w : SWord)
  /-- KEYSET (R360). -/
  | keyset (w : SWord)
  /-- TRAP (R407). -/
  | trap (w : SWord)
  /-- BRK (R408). -/
  | brk (w : SWord)
  /-- FRET (R409). -/
  | fret (w : SWord)
  /-- FREC (R410). -/
  | frec (w : SWord)
  /-- OPERAND_TOKEN_ARRIVAL (R30). -/
  | operandTokenArrival (c k : Nat)
  /-- DONE_TOKEN_ARRIVAL (R94). -/
  | doneTokenArrival (k : Nat)
  /-- INVOCATION_START (R37). -/
  | invocationStart (c p : Nat)
  /-- INVOCATION_COMMIT (R39). -/
  | invocationCommit (c p k : Nat)
  /-- ENGINE_QUEUE_ROOM (R141). -/
  | engineQueueRoom (c p : Nat)
  /-- WM_TOKENS_SET (R143). -/
  | wmTokensSet (c p : Nat)
  /-- INVOCATION_DISCARD (R40). -/
  | invocationDiscard (c p : Nat)
  /-- DRAIN_LIMIT_EXPIRY (R391). -/
  | drainLimitExpiry (c p : Nat)
  /-- WATCHDOG_EXPIRY (R42). -/
  | watchdogExpiry (c p k : Nat)
  /-- TAG_POOL_DEADLOCK (R49). -/
  | tagPoolDeadlock (c p : Nat)
  /-- BLOCK_MAP (R55). -/
  | blockMap (c p : Nat)
  /-- BLOCK_CACHE_FILL (R54). -/
  | blockCacheFill (c p : Nat)
  /-- MEMORY_REQUEST_ARRIVAL (R79). -/
  | memoryRequestArrival (k : Nat)
  /-- STREAM_READ_AHEAD (R91). -/
  | streamReadAhead (c p ix it a : Nat)
  /-- ENGINE_COMPLETION (R146). -/
  | engineCompletion (c u : Nat)
  /-- ENGINE_FAULT (R144). -/
  | engineFault (c p : Nat)
  /-- FREED_SLOT_NOTICE (R153). -/
  | freedSlotNotice (k : Nat)
  /-- FLUME_SLOT_LANDING (R154). -/
  | flumeSlotLanding (k : Nat)
  /-- LANDING_RING_RECHECK (R160). -/
  | landingRingRecheck (k : Nat)
  /-- KV_BLOCK_LOAD_COMPLETION (R160). -/
  | kvBlockLoadCompletion (k : Nat)
  /-- KBTB_INVALIDATE_ACK (R163). -/
  | kbtbInvalidateAck (k : Nat)
  /-- NVME_COMPLETION (R167). -/
  | nvmeCompletion (k : Nat)
  /-- NVME_TIMEOUT (R167). -/
  | nvmeTimeout (k : Nat)
  /-- ROUTE_TAG_DELIVERY (R168). -/
  | routeTagDelivery (k : Nat)
  /-- WINDOW_DELIVERY (R169). -/
  | windowDelivery (k : Nat)
  /-- RREAD_OWNER_READ (R174). -/
  | rreadOwnerRead (k : Nat)
  /-- RREAD_ACK (R176). -/
  | rreadAck (k : Nat)
  /-- COLLECTIVE_EPISODE (R179). -/
  | collectiveEpisode (k : Nat)
  /-- MATRIX_TILE_COMMIT (R239). -/
  | matrixTileCommit (c : Nat)
  /-- KMS_COMMAND_ARRIVAL (R267). -/
  | kmsCommandArrival (k : Nat)
  /-- SEMAPHORE_UPDATE (R132). -/
  | semaphoreUpdate (k : Nat)
  /-- SYNC_OBJECT_INCREMENT (R129). -/
  | syncObjectIncrement (k : Nat)
  /-- BARRIER_ARRIVAL (R137). -/
  | barrierArrival (k : Nat)
  /-- ADMISSION_INTERVAL (R300). -/
  | admissionInterval (d : Nat)
  /-- CONTEXT_IMAGE_WRITE (R403). -/
  | contextImageWrite (n : Nat)
  /-- STATUS_WORD_WRITE (R418). -/
  | statusWordWrite (k : Nat)
  /-- STATUS_WRITE_RETRY (R294). -/
  | statusWriteRetry (k : Nat)
  /-- TRIGGER_DISPATCH (R314). -/
  | triggerDispatch (k : Nat)
  /-- MESSAGE_ARRIVAL (R316). -/
  | messageArrival (k : Nat)
  /-- MESSAGE_RETRY (R318). -/
  | messageRetry (k : Nat)
  /-- OBJECT_RECLAMATION (R367). -/
  | objectReclamation (k : Nat)
  /-- FREE_LIST_HEAD_RECHECK (R370). -/
  | freeListHeadRecheck (k : Nat)
  /-- TINV_HOLDER_ACK (R348). -/
  | tinvHolderAck (k : Nat)
  /-- KEY_SLOT_REPLACE (R360). -/
  | keySlotReplace (k : Nat)
  /-- FAULT_RECORD_DELIVERY (R395). -/
  | faultRecordDelivery (k : Nat)
  /-- MONITOR_RESOLVE (R421). -/
  | monitorResolve (i mode : Nat)
  /-- EGRESS_ARBITRATION (R327). -/
  | egressArbitration (r port : Nat)
  /-- AGEING_STEP (R326). -/
  | ageingStep (r k : Nat)
  /-- HEADGATE_CHARGE (R351). -/
  | headgateCharge (c part : Nat)
  /-- HEADGATE_REFILL (R352). -/
  | headgateRefill (d : Nat)
  /-- SLUICE_LEAK (R333). -/
  | sluiceLeak (c : Nat)
  /-- LINK_FLIT_RECEIVE (R330). -/
  | linkFlitReceive (port : Nat)
  /-- LINK_ACK_RECEIVE (R330). -/
  | linkAckReceive (port : Nat)
  /-- LANE_FAILURE (R332). -/
  | laneFailure (port lane : Nat)
  /-- PLANNED_WIDTH_CHANGE (R332). -/
  | plannedWidthChange (port width : Nat)
  /-- ISLAND_DVFS_CHANGE (R19). -/
  | islandDvfsChange (i setting : Nat)
  /-- THERMAL_THROTTLE (R425). -/
  | thermalThrottle (tj : Nat)
  /-- THERMAL_TRIP (R425). -/
  | thermalTrip (tj : Nat)
  /-- COLD_RESET (R420). -/
  | coldReset
  /-- WARM_RESET (R420). -/
  | warmReset (src : Nat)
  /-- PARTITION_RESET (R420). -/
  | partitionReset (p src : Nat)
  /-- SECTION_ABORT (R420). -/
  | sectionAbort (q rec : Nat)
  /-- BOOT_STAGE (R422). -/
  | bootStage (fail : Nat)
  /-- ATTESTATION_SIGN (R424). -/
  | attestationSign (nonce : Nat)
  /-- LQ_CFG_WRITE (R291). -/
  | lqCfgWrite (agent q v : Nat)
  /-- LQ_TAIL_WRITE (R291). -/
  | lqTailWrite (agent q v : Nat)
  /-- CGRP_TABLE_WRITE (R48). -/
  | cgrpTableWrite (agent p v : Nat)
  /-- SL_SLOT_BASE_WRITE (R329). -/
  | slSlotBaseWrite (agent v : Nat)
  /-- PT_CFG_WRITE (R339). -/
  | ptCfgWrite (agent p v : Nat)
  /-- SAFE_SEL_WRITE (R354). -/
  | safeSelWrite (agent n v : Nat)
  /-- HOST_BAR2_READ (R416). -/
  | hostBar2Read (off n : Nat)
  /-- HOST_BAR2_WRITE (R416). -/
  | hostBar2Write (off n v : Nat)
  /-- REGISTER_WRITE (R431). -/
  | registerWrite (agent n v : Nat)
  /-- LINK_RETRAIN_COMPLETE (R332). -/
  | linkRetrainComplete (port : Nat)
  /-- POWER_FAILURE (R424). -/
  | powerFailure
  /-- MANAGEMENT_CORE_PREEMPTION (R400). -/
  | managementCorePreemption (n : Nat)
deriving DecidableEq, Repr

/-- The opcode and the fields of an instruction; `none` for a step of the machine itself, which has no word. -/
def Instr.view : Instr → Option (Op × Fields)
  | .nop w => some (.nop, .g w)
  | .const w => some (.const, .g w)
  | .mov w => some (.mov, .g w)
  | .read w => some (.read, .g w)
  | .write w => some (.write, .g w)
  | .steer w => some (.steer, .g w)
  | .merge w => some (.merge, .g w)
  | .pand w => some (.pand, .g w)
  | .por w => some (.por, .g w)
  | .pxor w => some (.pxor, .g w)
  | .pnot w => some (.pnot, .g w)
  | .iterid w => some (.iterid, .g w)
  | .nullq w => some (.nullq, .g w)
  | .nfill w => some (.nfill, .g w)
  | .niter w => some (.niter, .g w)
  | .bro w => some (.bro, .c w)
  | .br w => some (.br, .c w)
  | .callo w => some (.callo, .c w)
  | .call w => some (.call, .c w)
  | .ret w => some (.ret, .c w)
  | .quit w => some (.quit, .c w)
  | .binv w => some (.binv, .g w)
  | .add w => some (.add, .g w)
  | .sub w => some (.sub, .g w)
  | .mul w => some (.mul, .g w)
  | .mulh w => some (.mulh, .g w)
  | .mulhn w => some (.mulhn, .g w)
  | .div w => some (.div, .g w)
  | .divn w => some (.divn, .g w)
  | .rem w => some (.rem, .g w)
  | .remn w => some (.remn, .g w)
  | .adds w => some (.adds, .g w)
  | .subs w => some (.subs, .g w)
  | .madd w => some (.madd, .g w)
  | .and w => some (.and, .g w)
  | .or w => some (.or, .g w)
  | .xor w => some (.xor, .g w)
  | .andn w => some (.andn, .g w)
  | .shl w => some (.shl, .g w)
  | .shr w => some (.shr, .g w)
  | .sar w => some (.sar, .g w)
  | .rot w => some (.rot, .g w)
  | .min w => some (.min, .g w)
  | .max w => some (.max, .g w)
  | .abs w => some (.abs, .g w)
  | .neg w => some (.neg, .g w)
  | .clz w => some (.clz, .g w)
  | .ctz w => some (.ctz, .g w)
  | .popc w => some (.popc, .g w)
  | .sext w => some (.sext, .g w)
  | .zext w => some (.zext, .g w)
  | .lea w => some (.lea, .g w)
  | .ceq w => some (.ceq, .g w)
  | .cne w => some (.cne, .g w)
  | .clt w => some (.clt, .g w)
  | .cle w => some (.cle, .g w)
  | .cltn w => some (.cltn, .g w)
  | .clen w => some (.clen, .g w)
  | .fadd w => some (.fadd, .g w)
  | .fsub w => some (.fsub, .g w)
  | .fmul w => some (.fmul, .g w)
  | .fma w => some (.fma, .g w)
  | .fnma w => some (.fnma, .g w)
  | .fdiv w => some (.fdiv, .g w)
  | .fsqrt w => some (.fsqrt, .g w)
  | .frsq w => some (.frsq, .g w)
  | .frcp w => some (.frcp, .g w)
  | .fexp2 w => some (.fexp2, .g w)
  | .flog2 w => some (.flog2, .g w)
  | .fmin w => some (.fmin, .g w)
  | .fmax w => some (.fmax, .g w)
  | .fabs w => some (.fabs, .g w)
  | .fneg w => some (.fneg, .g w)
  | .fsgn w => some (.fsgn, .g w)
  | .fclass w => some (.fclass, .g w)
  | .fscale w => some (.fscale, .g w)
  | .fceq w => some (.fceq, .g w)
  | .fclt w => some (.fclt, .g w)
  | .fcle w => some (.fcle, .g w)
  | .fcun w => some (.fcun, .g w)
  | .fcvt w => some (.fcvt, .g w)
  | .icvtf w => some (.icvtf, .g w)
  | .fcvti w => some (.fcvti, .g w)
  | .qnt w => some (.qnt, .g w)
  | .dqnt w => some (.dqnt, .g w)
  | .gscale w => some (.gscale, .g w)
  | .mxpack w => some (.mxpack, .g w)
  | .mxunpk w => some (.mxunpk, .g w)
  | .pack w => some (.pack, .g w)
  | .unpack w => some (.unpack, .g w)
  | .vbcast w => some (.vbcast, .g w)
  | .vbcastLane w => some (.vbcastLane, .g w)
  | .vext w => some (.vext, .g w)
  | .vins w => some (.vins, .g w)
  | .vperm w => some (.vperm, .g w)
  | .vshuf w => some (.vshuf, .g w)
  | .vradd w => some (.vradd, .g w)
  | .vrmax w => some (.vrmax, .g w)
  | .vrmin w => some (.vrmin, .g w)
  | .vscan w => some (.vscan, .g w)
  | .vdot w => some (.vdot, .g w)
  | .vsel w => some (.vsel, .g w)
  | .vcmp w => some (.vcmp, .g w)
  | .mand w => some (.mand, .g w)
  | .mor w => some (.mor, .g w)
  | .mxor w => some (.mxor, .g w)
  | .mnot w => some (.mnot, .g w)
  | .mpopc w => some (.mpopc, .g w)
  | .mffs w => some (.mffs, .g w)
  | .mbit w => some (.mbit, .g w)
  | .mtst w => some (.mtst, .g w)
  | .radd w => some (.radd, .g w)
  | .rmax w => some (.rmax, .g w)
  | .rmin w => some (.rmin, .g w)
  | .rjoin w => some (.rjoin, .g w)
  | .kmerge w => some (.kmerge, .g w)
  | .ld w => some (.ld, .m w)
  | .st w => some (.st, .m w)
  | .ldv w => some (.ldv, .m w)
  | .stv w => some (.stv, .m w)
  | .gath w => some (.gath, .m w)
  | .scat w => some (.scat, .m w)
  | .aadd w => some (.aadd, .m w)
  | .amin w => some (.amin, .m w)
  | .amax w => some (.amax, .m w)
  | .aand w => some (.aand, .m w)
  | .aor w => some (.aor, .m w)
  | .axor w => some (.axor, .m w)
  | .axchg w => some (.axchg, .m w)
  | .acas w => some (.acas, .m w)
  | .afadd w => some (.afadd, .m w)
  | .bred w => some (.bred, .m w)
  | .bupd w => some (.bupd, .m w)
  | .mnop w => some (.mnop, .m w)
  | .ldrgn w => some (.ldrgn, .m w)
  | .acq w => some (.acq, .m w)
  | .rel w => some (.rel, .m w)
  | .fence w => some (.fence, .m w)
  | .seminc w => some (.seminc, .m w)
  | .semwait w => some (.semwait, .m w)
  | .semrd w => some (.semrd, .m w)
  | .sbwait w => some (.sbwait, .m w)
  | .tgive w => some (.tgive, .m w)
  | .ttake w => some (.ttake, .m w)
  | .bar w => some (.bar, .g w)
  | .bara w => some (.bara, .g w)
  | .barw w => some (.barw, .g w)
  | .pset w => some (.pset, .e w)
  | .copy w => some (.copy, .e w)
  | .copyr w => some (.copyr, .e w)
  | .tsend w => some (.tsend, .e w)
  | .rread w => some (.rread, .e w)
  | .wopen w => some (.wopen, .e w)
  | .wclose w => some (.wclose, .e w)
  | .flopen w => some (.flopen, .e w)
  | .flpush w => some (.flpush, .e w)
  | .flfree w => some (.flfree, .e w)
  | .flclose w => some (.flclose, .e w)
  | .kvtab w => some (.kvtab, .e w)
  | .kvgath w => some (.kvgath, .e w)
  | .kvapp w => some (.kvapp, .e w)
  | .kvinv w => some (.kvinv, .e w)
  | .nvrd w => some (.nvrd, .e w)
  | .nvwr w => some (.nvwr, .e w)
  | .cred w => some (.cred, .e w)
  | .cbcast w => some (.cbcast, .e w)
  | .cgath w => some (.cgath, .e w)
  | .wload w => some (.wload, .e w)
  | .wswap w => some (.wswap, .e w)
  | .mma w => some (.mma, .e w)
  | .mrecur w => some (.mrecur, .e w)
  | .macc w => some (.macc, .e w)
  | .mzero w => some (.mzero, .e w)
  | .mstat w => some (.mstat, .e w)
  | .kcfg w => some (.kcfg, .e w)
  | .kbias w => some (.kbias, .e w)
  | .kmask w => some (.kmask, .e w)
  | .kbind w => some (.kbind, .e w)
  | .kunbind w => some (.kunbind, .e w)
  | .klife w => some (.klife, .e w)
  | .kqry w => some (.kqry, .e w)
  | .kstat w => some (.kstat, .e w)
  | .launch w => some (.launch, .e w)
  | .garm w => some (.garm, .e w)
  | .spawn w => some (.spawn, .e w)
  | .tret w => some (.tret, .e w)
  | .hreg w => some (.hreg, .e w)
  | .hregUnreg w => some (.hregUnreg, .e w)
  | .msend w => some (.msend, .e w)
  | .msendTrig w => some (.msendTrig, .e w)
  | .mrecv w => some (.mrecv, .e w)
  | .mprobe w => some (.mprobe, .e w)
  | .nopen w => some (.nopen, .e w)
  | .nclose w => some (.nclose, .e w)
  | .nbind w => some (.nbind, .e w)
  | .nrebind w => some (.nrebind, .e w)
  | .nunbind w => some (.nunbind, .e w)
  | .nlook w => some (.nlook, .e w)
  | .rdsr w => some (.rdsr, .s w)
  | .wrsr w => some (.wrsr, .s w)
  | .tinv w => some (.tinv, .s w)
  | .tsync w => some (.tsync, .s w)
  | .tprobe w => some (.tprobe, .s w)
  | .keyset w => some (.keyset, .s w)
  | .trap w => some (.trap, .s w)
  | .brk w => some (.brk, .s w)
  | .fret w => some (.fret, .s w)
  | .frec w => some (.frec, .s w)
  | .operandTokenArrival _ _ => none
  | .doneTokenArrival _ => none
  | .invocationStart _ _ => none
  | .invocationCommit _ _ _ => none
  | .engineQueueRoom _ _ => none
  | .wmTokensSet _ _ => none
  | .invocationDiscard _ _ => none
  | .drainLimitExpiry _ _ => none
  | .watchdogExpiry _ _ _ => none
  | .tagPoolDeadlock _ _ => none
  | .blockMap _ _ => none
  | .blockCacheFill _ _ => none
  | .memoryRequestArrival _ => none
  | .streamReadAhead _ _ _ _ _ => none
  | .engineCompletion _ _ => none
  | .engineFault _ _ => none
  | .freedSlotNotice _ => none
  | .flumeSlotLanding _ => none
  | .landingRingRecheck _ => none
  | .kvBlockLoadCompletion _ => none
  | .kbtbInvalidateAck _ => none
  | .nvmeCompletion _ => none
  | .nvmeTimeout _ => none
  | .routeTagDelivery _ => none
  | .windowDelivery _ => none
  | .rreadOwnerRead _ => none
  | .rreadAck _ => none
  | .collectiveEpisode _ => none
  | .matrixTileCommit _ => none
  | .kmsCommandArrival _ => none
  | .semaphoreUpdate _ => none
  | .syncObjectIncrement _ => none
  | .barrierArrival _ => none
  | .admissionInterval _ => none
  | .contextImageWrite _ => none
  | .statusWordWrite _ => none
  | .statusWriteRetry _ => none
  | .triggerDispatch _ => none
  | .messageArrival _ => none
  | .messageRetry _ => none
  | .objectReclamation _ => none
  | .freeListHeadRecheck _ => none
  | .tinvHolderAck _ => none
  | .keySlotReplace _ => none
  | .faultRecordDelivery _ => none
  | .monitorResolve _ _ => none
  | .egressArbitration _ _ => none
  | .ageingStep _ _ => none
  | .headgateCharge _ _ => none
  | .headgateRefill _ => none
  | .sluiceLeak _ => none
  | .linkFlitReceive _ => none
  | .linkAckReceive _ => none
  | .laneFailure _ _ => none
  | .plannedWidthChange _ _ => none
  | .islandDvfsChange _ _ => none
  | .thermalThrottle _ => none
  | .thermalTrip _ => none
  | .coldReset => none
  | .warmReset _ => none
  | .partitionReset _ _ => none
  | .sectionAbort _ _ => none
  | .bootStage _ => none
  | .attestationSign _ => none
  | .lqCfgWrite _ _ _ => none
  | .lqTailWrite _ _ _ => none
  | .cgrpTableWrite _ _ _ => none
  | .slSlotBaseWrite _ _ => none
  | .ptCfgWrite _ _ _ => none
  | .safeSelWrite _ _ _ => none
  | .hostBar2Read _ _ => none
  | .hostBar2Write _ _ _ => none
  | .registerWrite _ _ _ => none
  | .linkRetrainComplete _ => none
  | .powerFailure => none
  | .managementCorePreemption _ => none

/-- The instruction an opcode and its fields make; `none` when the fields are of another format. -/
def Instr.build : Op → Fields → Option Instr
  | .nop, .g w => some (.nop w)
  | .const, .g w => some (.const w)
  | .mov, .g w => some (.mov w)
  | .read, .g w => some (.read w)
  | .write, .g w => some (.write w)
  | .steer, .g w => some (.steer w)
  | .merge, .g w => some (.merge w)
  | .pand, .g w => some (.pand w)
  | .por, .g w => some (.por w)
  | .pxor, .g w => some (.pxor w)
  | .pnot, .g w => some (.pnot w)
  | .iterid, .g w => some (.iterid w)
  | .nullq, .g w => some (.nullq w)
  | .nfill, .g w => some (.nfill w)
  | .niter, .g w => some (.niter w)
  | .bro, .c w => some (.bro w)
  | .br, .c w => some (.br w)
  | .callo, .c w => some (.callo w)
  | .call, .c w => some (.call w)
  | .ret, .c w => some (.ret w)
  | .quit, .c w => some (.quit w)
  | .binv, .g w => some (.binv w)
  | .add, .g w => some (.add w)
  | .sub, .g w => some (.sub w)
  | .mul, .g w => some (.mul w)
  | .mulh, .g w => some (.mulh w)
  | .mulhn, .g w => some (.mulhn w)
  | .div, .g w => some (.div w)
  | .divn, .g w => some (.divn w)
  | .rem, .g w => some (.rem w)
  | .remn, .g w => some (.remn w)
  | .adds, .g w => some (.adds w)
  | .subs, .g w => some (.subs w)
  | .madd, .g w => some (.madd w)
  | .and, .g w => some (.and w)
  | .or, .g w => some (.or w)
  | .xor, .g w => some (.xor w)
  | .andn, .g w => some (.andn w)
  | .shl, .g w => some (.shl w)
  | .shr, .g w => some (.shr w)
  | .sar, .g w => some (.sar w)
  | .rot, .g w => some (.rot w)
  | .min, .g w => some (.min w)
  | .max, .g w => some (.max w)
  | .abs, .g w => some (.abs w)
  | .neg, .g w => some (.neg w)
  | .clz, .g w => some (.clz w)
  | .ctz, .g w => some (.ctz w)
  | .popc, .g w => some (.popc w)
  | .sext, .g w => some (.sext w)
  | .zext, .g w => some (.zext w)
  | .lea, .g w => some (.lea w)
  | .ceq, .g w => some (.ceq w)
  | .cne, .g w => some (.cne w)
  | .clt, .g w => some (.clt w)
  | .cle, .g w => some (.cle w)
  | .cltn, .g w => some (.cltn w)
  | .clen, .g w => some (.clen w)
  | .fadd, .g w => some (.fadd w)
  | .fsub, .g w => some (.fsub w)
  | .fmul, .g w => some (.fmul w)
  | .fma, .g w => some (.fma w)
  | .fnma, .g w => some (.fnma w)
  | .fdiv, .g w => some (.fdiv w)
  | .fsqrt, .g w => some (.fsqrt w)
  | .frsq, .g w => some (.frsq w)
  | .frcp, .g w => some (.frcp w)
  | .fexp2, .g w => some (.fexp2 w)
  | .flog2, .g w => some (.flog2 w)
  | .fmin, .g w => some (.fmin w)
  | .fmax, .g w => some (.fmax w)
  | .fabs, .g w => some (.fabs w)
  | .fneg, .g w => some (.fneg w)
  | .fsgn, .g w => some (.fsgn w)
  | .fclass, .g w => some (.fclass w)
  | .fscale, .g w => some (.fscale w)
  | .fceq, .g w => some (.fceq w)
  | .fclt, .g w => some (.fclt w)
  | .fcle, .g w => some (.fcle w)
  | .fcun, .g w => some (.fcun w)
  | .fcvt, .g w => some (.fcvt w)
  | .icvtf, .g w => some (.icvtf w)
  | .fcvti, .g w => some (.fcvti w)
  | .qnt, .g w => some (.qnt w)
  | .dqnt, .g w => some (.dqnt w)
  | .gscale, .g w => some (.gscale w)
  | .mxpack, .g w => some (.mxpack w)
  | .mxunpk, .g w => some (.mxunpk w)
  | .pack, .g w => some (.pack w)
  | .unpack, .g w => some (.unpack w)
  | .vbcast, .g w => some (.vbcast w)
  | .vbcastLane, .g w => some (.vbcastLane w)
  | .vext, .g w => some (.vext w)
  | .vins, .g w => some (.vins w)
  | .vperm, .g w => some (.vperm w)
  | .vshuf, .g w => some (.vshuf w)
  | .vradd, .g w => some (.vradd w)
  | .vrmax, .g w => some (.vrmax w)
  | .vrmin, .g w => some (.vrmin w)
  | .vscan, .g w => some (.vscan w)
  | .vdot, .g w => some (.vdot w)
  | .vsel, .g w => some (.vsel w)
  | .vcmp, .g w => some (.vcmp w)
  | .mand, .g w => some (.mand w)
  | .mor, .g w => some (.mor w)
  | .mxor, .g w => some (.mxor w)
  | .mnot, .g w => some (.mnot w)
  | .mpopc, .g w => some (.mpopc w)
  | .mffs, .g w => some (.mffs w)
  | .mbit, .g w => some (.mbit w)
  | .mtst, .g w => some (.mtst w)
  | .radd, .g w => some (.radd w)
  | .rmax, .g w => some (.rmax w)
  | .rmin, .g w => some (.rmin w)
  | .rjoin, .g w => some (.rjoin w)
  | .kmerge, .g w => some (.kmerge w)
  | .ld, .m w => some (.ld w)
  | .st, .m w => some (.st w)
  | .ldv, .m w => some (.ldv w)
  | .stv, .m w => some (.stv w)
  | .gath, .m w => some (.gath w)
  | .scat, .m w => some (.scat w)
  | .aadd, .m w => some (.aadd w)
  | .amin, .m w => some (.amin w)
  | .amax, .m w => some (.amax w)
  | .aand, .m w => some (.aand w)
  | .aor, .m w => some (.aor w)
  | .axor, .m w => some (.axor w)
  | .axchg, .m w => some (.axchg w)
  | .acas, .m w => some (.acas w)
  | .afadd, .m w => some (.afadd w)
  | .bred, .m w => some (.bred w)
  | .bupd, .m w => some (.bupd w)
  | .mnop, .m w => some (.mnop w)
  | .ldrgn, .m w => some (.ldrgn w)
  | .acq, .m w => some (.acq w)
  | .rel, .m w => some (.rel w)
  | .fence, .m w => some (.fence w)
  | .seminc, .m w => some (.seminc w)
  | .semwait, .m w => some (.semwait w)
  | .semrd, .m w => some (.semrd w)
  | .sbwait, .m w => some (.sbwait w)
  | .tgive, .m w => some (.tgive w)
  | .ttake, .m w => some (.ttake w)
  | .bar, .g w => some (.bar w)
  | .bara, .g w => some (.bara w)
  | .barw, .g w => some (.barw w)
  | .pset, .e w => some (.pset w)
  | .copy, .e w => some (.copy w)
  | .copyr, .e w => some (.copyr w)
  | .tsend, .e w => some (.tsend w)
  | .rread, .e w => some (.rread w)
  | .wopen, .e w => some (.wopen w)
  | .wclose, .e w => some (.wclose w)
  | .flopen, .e w => some (.flopen w)
  | .flpush, .e w => some (.flpush w)
  | .flfree, .e w => some (.flfree w)
  | .flclose, .e w => some (.flclose w)
  | .kvtab, .e w => some (.kvtab w)
  | .kvgath, .e w => some (.kvgath w)
  | .kvapp, .e w => some (.kvapp w)
  | .kvinv, .e w => some (.kvinv w)
  | .nvrd, .e w => some (.nvrd w)
  | .nvwr, .e w => some (.nvwr w)
  | .cred, .e w => some (.cred w)
  | .cbcast, .e w => some (.cbcast w)
  | .cgath, .e w => some (.cgath w)
  | .wload, .e w => some (.wload w)
  | .wswap, .e w => some (.wswap w)
  | .mma, .e w => some (.mma w)
  | .mrecur, .e w => some (.mrecur w)
  | .macc, .e w => some (.macc w)
  | .mzero, .e w => some (.mzero w)
  | .mstat, .e w => some (.mstat w)
  | .kcfg, .e w => some (.kcfg w)
  | .kbias, .e w => some (.kbias w)
  | .kmask, .e w => some (.kmask w)
  | .kbind, .e w => some (.kbind w)
  | .kunbind, .e w => some (.kunbind w)
  | .klife, .e w => some (.klife w)
  | .kqry, .e w => some (.kqry w)
  | .kstat, .e w => some (.kstat w)
  | .launch, .e w => some (.launch w)
  | .garm, .e w => some (.garm w)
  | .spawn, .e w => some (.spawn w)
  | .tret, .e w => some (.tret w)
  | .hreg, .e w => some (.hreg w)
  | .hregUnreg, .e w => some (.hregUnreg w)
  | .msend, .e w => some (.msend w)
  | .msendTrig, .e w => some (.msendTrig w)
  | .mrecv, .e w => some (.mrecv w)
  | .mprobe, .e w => some (.mprobe w)
  | .nopen, .e w => some (.nopen w)
  | .nclose, .e w => some (.nclose w)
  | .nbind, .e w => some (.nbind w)
  | .nrebind, .e w => some (.nrebind w)
  | .nunbind, .e w => some (.nunbind w)
  | .nlook, .e w => some (.nlook w)
  | .rdsr, .s w => some (.rdsr w)
  | .wrsr, .s w => some (.wrsr w)
  | .tinv, .s w => some (.tinv w)
  | .tsync, .s w => some (.tsync w)
  | .tprobe, .s w => some (.tprobe w)
  | .keyset, .s w => some (.keyset w)
  | .trap, .s w => some (.trap w)
  | .brk, .s w => some (.brk w)
  | .fret, .s w => some (.fret w)
  | .frec, .s w => some (.frec w)
  | _, _ => none

/-- The cause codes (R389). -/
inductive Cause where
  | badBlockHeader | unassignedOpcode | wrongElementKind | reservedFieldNonzero | reservedCode | tokenToEmptyElement
  | duplicateTarget | unwiredQueue | literalPastBlock | countMismatch | fetchTranslation | fetchPermission
  | fetchUncorrectable | badBlockAddress | tokenToIdlePlane | portMismatch | duplicateOperand | errorOperand
  | widthMismatch | badDestination | doubleExit | noExit | watchdog | spillTableExhausted | tagPoolDeadlock
  | doubleReturn | floatException | trap | breakpoint | noFaultRecord | misaligned | addressOutOfRange | translation
  | permission | key | privilege | weightStoreAccess | ownerViolation | uncorrectableError | kvBlockInvalid
  | forwardLimit | badSyncObject | syncScope | barrierMismatch | patternMismatch | badPattern | flumeState
  | handleBound | nvmeError | nvmeTimeout | routeTag | routeRefused | windowState | windowRefused
  | collectiveMismatch | arrayFormat | storeState | badMask | nanScore | linkDown | badSection | messageOverflow
  | badHandle | handleLimit | nameBound | directoryFull | nameRecord | nameUnbound | nameKind | nameWaitLimit
  | groupOverflow | handlerEnded | contextSaveError | contextRestoreError | metadataUncorrectable | thermalTrip
deriving DecidableEq, Repr


end Sys2Proof
end

