-- ==== Sys2Proof/Machine/Rows.lean ====
section
/-!
DEFINITION. The encoding tables of the spec as data (R58 to R66, R68, R98, R126, R136, R147, R192, R204, R209, R210,
R215, R216, R224, R243, R251, R272, R281, R307, R355, R368, R406): for each opcode its code, its element kinds and what
each field of its word may hold; the fields of a word as numbers; and checks 4 and 5 of R56.
-/

namespace Sys2Proof

/-- `n` bits of the word `w` from bit `lo` upward. -/
def bits (w lo n : Nat) : Nat := w / 2 ^ lo % 2 ^ n

/-- Element kinds (R21). -/
inductive Kind where
  | g | m | c | x | e
deriving DecidableEq, Repr

/-- The kind of the element with index `i` (R21). -/
def kindOf (i : Nat) : Kind :=
  if i < 64 then .g else if i < 96 then .m else if i < 104 then .c else if i < 112 then .x else .e

/-- The instruction formats (R58, R66). -/
inductive Format where
  | g | m | c | e | s
deriving DecidableEq, Repr

/-- OPC of each instruction (R66). -/
def Op.code : Op → Nat
  | .nop => 0x1
  | .const => 0x2
  | .mov => 0x3
  | .read => 0x4
  | .write => 0x5
  | .steer => 0x6
  | .merge => 0x7
  | .pand => 0x8
  | .por => 0x9
  | .pxor => 0xa
  | .pnot => 0xb
  | .iterid => 0xc
  | .nullq => 0xd
  | .nfill => 0xe
  | .niter => 0xf
  | .bro => 0x10
  | .br => 0x11
  | .callo => 0x12
  | .call => 0x13
  | .ret => 0x14
  | .quit => 0x15
  | .binv => 0x16
  | .add => 0x20
  | .sub => 0x21
  | .mul => 0x22
  | .mulh => 0x23
  | .mulhn => 0x24
  | .div => 0x25
  | .divn => 0x26
  | .rem => 0x27
  | .remn => 0x28
  | .adds => 0x29
  | .subs => 0x2a
  | .madd => 0x2b
  | .and => 0x2c
  | .or => 0x2d
  | .xor => 0x2e
  | .andn => 0x2f
  | .shl => 0x30
  | .shr => 0x31
  | .sar => 0x32
  | .rot => 0x33
  | .min => 0x34
  | .max => 0x35
  | .abs => 0x36
  | .neg => 0x37
  | .clz => 0x38
  | .ctz => 0x39
  | .popc => 0x3a
  | .sext => 0x3b
  | .zext => 0x3c
  | .lea => 0x3d
  | .ceq => 0x40
  | .cne => 0x41
  | .clt => 0x42
  | .cle => 0x43
  | .cltn => 0x44
  | .clen => 0x45
  | .fadd => 0x60
  | .fsub => 0x61
  | .fmul => 0x62
  | .fma => 0x63
  | .fnma => 0x64
  | .fdiv => 0x65
  | .fsqrt => 0x66
  | .frsq => 0x67
  | .frcp => 0x68
  | .fexp2 => 0x69
  | .flog2 => 0x6a
  | .fmin => 0x6b
  | .fmax => 0x6c
  | .fabs => 0x6d
  | .fneg => 0x6e
  | .fsgn => 0x6f
  | .fclass => 0x70
  | .fscale => 0x71
  | .fceq => 0x74
  | .fclt => 0x75
  | .fcle => 0x76
  | .fcun => 0x77
  | .fcvt => 0x78
  | .icvtf => 0x79
  | .fcvti => 0x7a
  | .qnt => 0x7b
  | .dqnt => 0x7c
  | .gscale => 0x7d
  | .mxpack => 0x7e
  | .mxunpk => 0x7f
  | .pack => 0x80
  | .unpack => 0x81
  | .vbcast => 0x90
  | .vbcastLane => 0x90
  | .vext => 0x91
  | .vins => 0x92
  | .vperm => 0x93
  | .vshuf => 0x94
  | .vradd => 0x95
  | .vrmax => 0x96
  | .vrmin => 0x97
  | .vscan => 0x98
  | .vdot => 0x99
  | .vsel => 0x9a
  | .vcmp => 0x9b
  | .mand => 0xa0
  | .mor => 0xa1
  | .mxor => 0xa2
  | .mnot => 0xa3
  | .mpopc => 0xa4
  | .mffs => 0xa5
  | .mbit => 0xa6
  | .mtst => 0xa7
  | .radd => 0xa8
  | .rmax => 0xa9
  | .rmin => 0xaa
  | .rjoin => 0xab
  | .kmerge => 0xac
  | .ld => 0xb0
  | .st => 0xb1
  | .ldv => 0xb2
  | .stv => 0xb3
  | .gath => 0xb4
  | .scat => 0xb5
  | .aadd => 0xb6
  | .amin => 0xb7
  | .amax => 0xb8
  | .aand => 0xb9
  | .aor => 0xba
  | .axor => 0xbb
  | .axchg => 0xbc
  | .acas => 0xbd
  | .afadd => 0xbe
  | .bred => 0xbf
  | .bupd => 0xc0
  | .mnop => 0xc1
  | .ldrgn => 0xc2
  | .acq => 0xd0
  | .rel => 0xd1
  | .fence => 0xd2
  | .seminc => 0xd3
  | .semwait => 0xd4
  | .semrd => 0xd5
  | .sbwait => 0xd6
  | .tgive => 0xd7
  | .ttake => 0xd8
  | .bar => 0xd9
  | .bara => 0xda
  | .barw => 0xdb
  | .pset => 0xe0
  | .copy => 0xe1
  | .copyr => 0xe2
  | .tsend => 0xe3
  | .rread => 0xe4
  | .wopen => 0xe5
  | .wclose => 0xe5
  | .flopen => 0xe6
  | .flpush => 0xe6
  | .flfree => 0xe6
  | .flclose => 0xe6
  | .kvtab => 0xe7
  | .kvgath => 0xe7
  | .kvapp => 0xe7
  | .kvinv => 0xe7
  | .nvrd => 0xe8
  | .nvwr => 0xe8
  | .cred => 0xe9
  | .cbcast => 0xe9
  | .cgath => 0xe9
  | .wload => 0xea
  | .wswap => 0xea
  | .mma => 0xea
  | .mrecur => 0xea
  | .macc => 0xea
  | .mzero => 0xea
  | .mstat => 0xea
  | .kcfg => 0xeb
  | .kbias => 0xeb
  | .kmask => 0xeb
  | .kbind => 0xeb
  | .kunbind => 0xeb
  | .klife => 0xeb
  | .kqry => 0xeb
  | .kstat => 0xeb
  | .launch => 0xec
  | .garm => 0xec
  | .spawn => 0xec
  | .tret => 0xec
  | .hreg => 0xec
  | .hregUnreg => 0xec
  | .msend => 0xed
  | .msendTrig => 0xed
  | .mrecv => 0xed
  | .mprobe => 0xed
  | .nopen => 0xee
  | .nclose => 0xee
  | .nbind => 0xee
  | .nrebind => 0xee
  | .nunbind => 0xee
  | .nlook => 0xee
  | .rdsr => 0xf8
  | .wrsr => 0xf9
  | .tinv => 0xfa
  | .tsync => 0xfb
  | .tprobe => 0xfc
  | .keyset => 0xfd
  | .trap => 0xfe
  | .brk => 0xfe
  | .fret => 0xfe
  | .frec => 0xfe

/-- SUB[23:20], or IMM16[15:14] of opcode 0xFE, where the opcode is shared (R65, R66). -/
def Op.sel : Op → Option Nat
  | .wopen => some 0
  | .wclose => some 1
  | .flopen => some 0
  | .flpush => some 1
  | .flfree => some 2
  | .flclose => some 3
  | .kvtab => some 0
  | .kvgath => some 1
  | .kvapp => some 2
  | .kvinv => some 3
  | .nvrd => some 0
  | .nvwr => some 1
  | .cred => some 0
  | .cbcast => some 1
  | .cgath => some 2
  | .wload => some 0
  | .wswap => some 1
  | .mma => some 2
  | .mrecur => some 3
  | .macc => some 4
  | .mzero => some 5
  | .mstat => some 6
  | .kcfg => some 0
  | .kbias => some 1
  | .kmask => some 2
  | .kbind => some 3
  | .kunbind => some 4
  | .klife => some 5
  | .kqry => some 6
  | .kstat => some 7
  | .launch => some 0
  | .garm => some 1
  | .spawn => some 2
  | .tret => some 3
  | .hreg => some 4
  | .hregUnreg => some 4
  | .msend => some 0
  | .msendTrig => some 0
  | .mrecv => some 1
  | .mprobe => some 2
  | .nopen => some 0
  | .nclose => some 1
  | .nbind => some 2
  | .nrebind => some 3
  | .nunbind => some 4
  | .nlook => some 5
  | .trap => some 0
  | .brk => some 1
  | .fret => some 2
  | .frec => some 3
  | _ => none

/-- The element kinds that may hold the instruction (R66). -/
def Op.kinds : Op → List Kind
  | .nop | .const | .mov | .iterid | .nullq | .nfill | .add | .sub | .mul | .mulh | .mulhn | .div | .divn
    | .rem | .remn | .adds | .subs | .madd | .and | .or | .xor | .andn | .shl | .shr | .sar | .rot | .min
    | .max | .abs | .neg | .clz | .ctz | .popc | .sext | .zext | .lea | .ceq | .cne | .clt | .cle | .cltn
    | .clen | .fadd | .fsub | .fmul | .fma | .fnma | .fdiv | .fsqrt | .frsq | .frcp | .fexp2 | .flog2 | .fmin
    | .fmax | .fabs | .fneg | .fsgn | .fclass | .fscale | .fceq | .fclt | .fcle | .fcun | .fcvt | .icvtf
    | .fcvti | .qnt | .dqnt | .gscale | .mxpack | .mxunpk | .pack | .unpack | .vbcast | .vbcastLane | .vext
    | .vins | .vperm | .vshuf | .vradd | .vrmax | .vrmin | .vscan | .vdot | .vsel | .vcmp | .mand | .mor
    | .mxor | .mnot | .mpopc | .mffs | .mbit | .mtst => [.g]
  | .read | .write => [.g, .c, .x]
  | .steer | .merge | .pand | .por | .pxor | .pnot | .niter | .bro | .br | .callo | .call | .ret | .quit
    | .binv | .bar | .bara | .barw => [.c, .x]
  | .radd | .rmax | .rmin | .rjoin | .kmerge => [.x]
  | .ld | .st | .ldv | .stv | .gath | .scat | .aadd | .amin | .amax | .aand | .aor | .axor | .axchg | .acas
    | .afadd | .bred | .bupd | .mnop | .ldrgn | .acq | .rel | .fence | .seminc | .semwait | .semrd | .sbwait
    | .tgive | .ttake => [.m]
  | .pset | .copy | .copyr | .tsend | .rread | .wopen | .wclose | .flopen | .flpush | .flfree | .flclose
    | .kvtab | .kvgath | .kvapp | .kvinv | .nvrd | .nvwr | .cred | .cbcast | .cgath | .wload | .wswap | .mma
    | .mrecur | .macc | .mzero | .mstat | .kcfg | .kbias | .kmask | .kbind | .kunbind | .klife | .kqry
    | .kstat | .launch | .garm | .spawn | .tret | .hreg | .hregUnreg | .msend | .msendTrig | .mrecv | .mprobe
    | .nopen | .nclose | .nbind | .nrebind | .nunbind | .nlook | .rdsr | .wrsr | .tinv | .tsync | .tprobe
    | .keyset | .trap | .brk | .fret | .frec => [.e]

/-- The format of the instruction (R66). -/
def Op.format : Op → Format
  | .nop | .const | .mov | .read | .write | .steer | .merge | .pand | .por | .pxor | .pnot | .iterid | .nullq
    | .nfill | .niter | .binv | .add | .sub | .mul | .mulh | .mulhn | .div | .divn | .rem | .remn | .adds
    | .subs | .madd | .and | .or | .xor | .andn | .shl | .shr | .sar | .rot | .min | .max | .abs | .neg | .clz
    | .ctz | .popc | .sext | .zext | .lea | .ceq | .cne | .clt | .cle | .cltn | .clen | .fadd | .fsub | .fmul
    | .fma | .fnma | .fdiv | .fsqrt | .frsq | .frcp | .fexp2 | .flog2 | .fmin | .fmax | .fabs | .fneg | .fsgn
    | .fclass | .fscale | .fceq | .fclt | .fcle | .fcun | .fcvt | .icvtf | .fcvti | .qnt | .dqnt | .gscale
    | .mxpack | .mxunpk | .pack | .unpack | .vbcast | .vbcastLane | .vext | .vins | .vperm | .vshuf | .vradd
    | .vrmax | .vrmin | .vscan | .vdot | .vsel | .vcmp | .mand | .mor | .mxor | .mnot | .mpopc | .mffs | .mbit
    | .mtst | .radd | .rmax | .rmin | .rjoin | .kmerge | .bar | .bara | .barw => .g
  | .bro | .br | .callo | .call | .ret | .quit => .c
  | .ld | .st | .ldv | .stv | .gath | .scat | .aadd | .amin | .amax | .aand | .aor | .axor | .axchg | .acas
    | .afadd | .bred | .bupd | .mnop | .ldrgn | .acq | .rel | .fence | .seminc | .semwait | .semrd | .sbwait
    | .tgive | .ttake => .m
  | .pset | .copy | .copyr | .tsend | .rread | .wopen | .wclose | .flopen | .flpush | .flfree | .flclose
    | .kvtab | .kvgath | .kvapp | .kvinv | .nvrd | .nvwr | .cred | .cbcast | .cgath | .wload | .wswap | .mma
    | .mrecur | .macc | .mzero | .mstat | .kcfg | .kbias | .kmask | .kbind | .kunbind | .klife | .kqry
    | .kstat | .launch | .garm | .spawn | .tret | .hreg | .hregUnreg | .msend | .msendTrig | .mrecv | .mprobe
    | .nopen | .nclose | .nbind | .nrebind | .nunbind | .nlook => .e
  | .rdsr | .wrsr | .tinv | .tsync | .tprobe | .keyset | .trap | .brk | .fret | .frec => .s

/-- What an opcode selects: one instruction, or one of several by a field of the word (R65, R66). -/
inductive Lookup where
  | unassigned
  | one (op : Op)
  | sub (sel : Nat) (ops : List Op)
deriving DecidableEq, Repr

/-- The opcode map (R66), read on a whole word. VBCAST, HREG and MSEND have two rows of the opcode table each. -/
def lookupWord (w : Nat) : Lookup :=
  match bits w 56 8 with
  | 0x1 => .one .nop
  | 0x2 => .one .const
  | 0x3 => .one .mov
  | 0x4 => .one .read
  | 0x5 => .one .write
  | 0x6 => .one .steer
  | 0x7 => .one .merge
  | 0x8 => .one .pand
  | 0x9 => .one .por
  | 0xa => .one .pxor
  | 0xb => .one .pnot
  | 0xc => .one .iterid
  | 0xd => .one .nullq
  | 0xe => .one .nfill
  | 0xf => .one .niter
  | 0x10 => .one .bro
  | 0x11 => .one .br
  | 0x12 => .one .callo
  | 0x13 => .one .call
  | 0x14 => .one .ret
  | 0x15 => .one .quit
  | 0x16 => .one .binv
  | 0x20 => .one .add
  | 0x21 => .one .sub
  | 0x22 => .one .mul
  | 0x23 => .one .mulh
  | 0x24 => .one .mulhn
  | 0x25 => .one .div
  | 0x26 => .one .divn
  | 0x27 => .one .rem
  | 0x28 => .one .remn
  | 0x29 => .one .adds
  | 0x2a => .one .subs
  | 0x2b => .one .madd
  | 0x2c => .one .and
  | 0x2d => .one .or
  | 0x2e => .one .xor
  | 0x2f => .one .andn
  | 0x30 => .one .shl
  | 0x31 => .one .shr
  | 0x32 => .one .sar
  | 0x33 => .one .rot
  | 0x34 => .one .min
  | 0x35 => .one .max
  | 0x36 => .one .abs
  | 0x37 => .one .neg
  | 0x38 => .one .clz
  | 0x39 => .one .ctz
  | 0x3a => .one .popc
  | 0x3b => .one .sext
  | 0x3c => .one .zext
  | 0x3d => .one .lea
  | 0x40 => .one .ceq
  | 0x41 => .one .cne
  | 0x42 => .one .clt
  | 0x43 => .one .cle
  | 0x44 => .one .cltn
  | 0x45 => .one .clen
  | 0x60 => .one .fadd
  | 0x61 => .one .fsub
  | 0x62 => .one .fmul
  | 0x63 => .one .fma
  | 0x64 => .one .fnma
  | 0x65 => .one .fdiv
  | 0x66 => .one .fsqrt
  | 0x67 => .one .frsq
  | 0x68 => .one .frcp
  | 0x69 => .one .fexp2
  | 0x6a => .one .flog2
  | 0x6b => .one .fmin
  | 0x6c => .one .fmax
  | 0x6d => .one .fabs
  | 0x6e => .one .fneg
  | 0x6f => .one .fsgn
  | 0x70 => .one .fclass
  | 0x71 => .one .fscale
  | 0x74 => .one .fceq
  | 0x75 => .one .fclt
  | 0x76 => .one .fcle
  | 0x77 => .one .fcun
  | 0x78 => .one .fcvt
  | 0x79 => .one .icvtf
  | 0x7a => .one .fcvti
  | 0x7b => .one .qnt
  | 0x7c => .one .dqnt
  | 0x7d => .one .gscale
  | 0x7e => .one .mxpack
  | 0x7f => .one .mxunpk
  | 0x80 => .one .pack
  | 0x81 => .one .unpack
  | 0x90 => if bits w 16 3 = 1 then .one .vbcastLane else .one .vbcast
  | 0x91 => .one .vext
  | 0x92 => .one .vins
  | 0x93 => .one .vperm
  | 0x94 => .one .vshuf
  | 0x95 => .one .vradd
  | 0x96 => .one .vrmax
  | 0x97 => .one .vrmin
  | 0x98 => .one .vscan
  | 0x99 => .one .vdot
  | 0x9a => .one .vsel
  | 0x9b => .one .vcmp
  | 0xa0 => .one .mand
  | 0xa1 => .one .mor
  | 0xa2 => .one .mxor
  | 0xa3 => .one .mnot
  | 0xa4 => .one .mpopc
  | 0xa5 => .one .mffs
  | 0xa6 => .one .mbit
  | 0xa7 => .one .mtst
  | 0xa8 => .one .radd
  | 0xa9 => .one .rmax
  | 0xaa => .one .rmin
  | 0xab => .one .rjoin
  | 0xac => .one .kmerge
  | 0xb0 => .one .ld
  | 0xb1 => .one .st
  | 0xb2 => .one .ldv
  | 0xb3 => .one .stv
  | 0xb4 => .one .gath
  | 0xb5 => .one .scat
  | 0xb6 => .one .aadd
  | 0xb7 => .one .amin
  | 0xb8 => .one .amax
  | 0xb9 => .one .aand
  | 0xba => .one .aor
  | 0xbb => .one .axor
  | 0xbc => .one .axchg
  | 0xbd => .one .acas
  | 0xbe => .one .afadd
  | 0xbf => .one .bred
  | 0xc0 => .one .bupd
  | 0xc1 => .one .mnop
  | 0xc2 => .one .ldrgn
  | 0xd0 => .one .acq
  | 0xd1 => .one .rel
  | 0xd2 => .one .fence
  | 0xd3 => .one .seminc
  | 0xd4 => .one .semwait
  | 0xd5 => .one .semrd
  | 0xd6 => .one .sbwait
  | 0xd7 => .one .tgive
  | 0xd8 => .one .ttake
  | 0xd9 => .one .bar
  | 0xda => .one .bara
  | 0xdb => .one .barw
  | 0xe0 => .one .pset
  | 0xe1 => .one .copy
  | 0xe2 => .one .copyr
  | 0xe3 => .one .tsend
  | 0xe4 => .one .rread
  | 0xe5 => .sub (bits w 20 4) [.wopen, .wclose]
  | 0xe6 => .sub (bits w 20 4) [.flopen, .flpush, .flfree, .flclose]
  | 0xe7 => .sub (bits w 20 4) [.kvtab, .kvgath, .kvapp, .kvinv]
  | 0xe8 => .sub (bits w 20 4) [.nvrd, .nvwr]
  | 0xe9 => .sub (bits w 20 4) [.cred, .cbcast, .cgath]
  | 0xea => .sub (bits w 20 4) [.wload, .wswap, .mma, .mrecur, .macc, .mzero, .mstat]
  | 0xeb => .sub (bits w 20 4) [.kcfg, .kbias, .kmask, .kbind, .kunbind, .klife, .kqry, .kstat]
  | 0xec => .sub (bits w 20 4) [.launch, .garm, .spawn, .tret, if bits w 16 1 = 1 then .hregUnreg else .hreg]
  | 0xed => .sub (bits w 20 4) [if bits w 16 1 = 1 then .msendTrig else .msend, .mrecv, .mprobe]
  | 0xee => .sub (bits w 20 4) [.nopen, .nclose, .nbind, .nrebind, .nunbind, .nlook]
  | 0xf8 => .one .rdsr
  | 0xf9 => .one .wrsr
  | 0xfa => .one .tinv
  | 0xfb => .one .tsync
  | 0xfc => .one .tprobe
  | 0xfd => .one .keyset
  | 0xfe => .sub (bits w 30 2) [.trap, .brk, .fret, .frec]
  | _ => .unassigned

/-! ### Fields as numbers -/

def Prd.code : Prd → Nat
  | .always => 0 | .onTrue => 1 | .onFalse => 2
def Prd.ofCode : Nat → Prd
  | 1 => .onTrue | 2 => .onFalse | _ => .always

def Port.code : Port → Nat
  | .l => 0 | .r => 1 | .p => 2 | .q => 3
def Port.ofCode : Nat → Port
  | 0 => .l | 1 => .r | 2 => .p | _ => .q

def GFile.code : GFile → Nat
  | .g => 0 | .v => 1 | .m => 2
def GFile.ofCode : Nat → GFile
  | 0 => .g | 1 => .v | _ => .m

/-- The 11 bits of a target field (R59). -/
def Target.code : Target → Nat
  | .none => 0
  | .slot ix pt => 2 ^ 9 + ix.toNat * 4 + pt.code
  | .glob f n => 2 * 2 ^ 9 + f.code * 2 ^ 7 + n.toNat * 2
  | .queue q => 3 * 2 ^ 9 + q.toNat * 2 ^ 4
def Target.ofCode (t : Nat) : Target :=
  match bits t 9 2 with
  | 0 => .none
  | 1 => .slot (BitVec.ofNat 7 (bits t 2 7)) (Port.ofCode (bits t 0 2))
  | 2 => .glob (GFile.ofCode (bits t 7 2)) (BitVec.ofNat 6 (bits t 1 6))
  | _ => .queue (BitVec.ofNat 4 (bits t 4 4))

def Ty.code : Ty → Nat
  | .i8 => 0 | .i16 => 1 | .i32 => 2 | .i64 => 3 | .n8 => 4 | .n16 => 5 | .n32 => 6 | .n64 => 7
  | .f16 => 8 | .b16 => 9 | .f32 => 10 | .f64 => 11 | .e4m3 => 12 | .e5m2 => 13 | .mask => 14
def Ty.ofCode : Nat → Ty
  | 0 => .i8 | 1 => .i16 | 2 => .i32 | 3 => .i64 | 4 => .n8 | 5 => .n16 | 6 => .n32 | 7 => .n64
  | 8 => .f16 | 9 => .b16 | 10 => .f32 | 11 => .f64 | 12 => .e4m3 | 13 => .e5m2 | _ => .mask
/-- The width of a type in bits (R62). -/
def Ty.width : Ty → Nat
  | .i8 => 8 | .i16 => 16 | .i32 => 32 | .i64 => 64 | .n8 => 8 | .n16 => 16 | .n32 => 32 | .n64 => 64
  | .f16 => 16 | .b16 => 16 | .f32 => 32 | .f64 => 64 | .e4m3 => 8 | .e5m2 => 8 | .mask => 64

def RM.code : RM → Nat
  | .rne => 0 | .rtz => 1 | .rdn => 2 | .rup => 3 | .rna => 4 | .dyn => 7
def RM.ofCode : Nat → RM
  | 0 => .rne | 1 => .rtz | 2 => .rdn | 3 => .rup | 4 => .rna | _ => .dyn

def NM.code : NM → Nat
  | .pass => 0 | .absorb => 1 | .identity => 2
def NM.ofCode : Nat → NM
  | 0 => .pass | 1 => .absorb | _ => .identity

def Asp.code : Asp → Nat
  | .sp => 0 | .xp => 1 | .sh => 2 | .gv => 3 | .kv => 4 | .rm => 5
def Asp.ofCode : Nat → Asp
  | 0 => .sp | 1 => .xp | 2 => .sh | 3 => .gv | 4 => .kv | _ => .rm

def Mode.code : Mode → Nat
  | .rnd => 0 | .stm => 1 | .ord => 2
def Mode.ofCode : Nat → Mode
  | 0 => .rnd | 1 => .stm | _ => .ord

def Scope.code : Scope → Nat
  | .nd => 0 | .cl => 1 | .di => 2 | .pk => 3 | .sy => 4
def Scope.ofCode : Nat → Scope
  | 0 => .nd | 1 => .cl | 2 => .di | 3 => .pk | _ => .sy

/-- LIT, IMM16 and the literal (R60, R61). -/
def Imm.lit : Imm → Nat
  | .short _ => 0 | .lit32 _ => 1 | .lit64 _ => 2
def Imm.imm16 : Imm → Nat
  | .short v => v.toNat | .lit32 _ => 0 | .lit64 _ => 0
def Imm.litVal : Imm → Nat
  | .short _ => 0 | .lit32 v => v.toNat | .lit64 v => v.toNat
def Imm.ofRaw (lit imm v : Nat) : Imm :=
  match lit with
  | 0 => .short (BitVec.ofNat 16 imm)
  | 1 => .lit32 (BitVec.ofNat 32 v)
  | _ => .lit64 (BitVec.ofNat 64 v)

/-- The fields of a G word as numbers (R60); `litv` is the literal that follows it. -/
structure GRaw where
  prd : Nat
  ty : Nat
  lit : Nat
  t0 : Nat
  t1 : Nat
  rm : Nat
  sat : Nat
  nm : Nat
  ir : Nat
  mf : Nat
  imm : Nat
  litv : Nat
deriving DecidableEq, Repr

/-- The fields of an M word as numbers (R63). -/
structure MRaw where
  prd : Nat
  sz : Nat
  asp : Nat
  mode : Nat
  scope : Nat
  t0 : Nat
  dt : Nat
  seq : Nat
  prev : Nat
  next : Nat
  sbw : Nat
deriving DecidableEq, Repr

/-- The fields of a C word as numbers (R64). -/
structure CRaw where
  prd : Nat
  exn : Nat
  kind : Nat
  off : Nat
deriving DecidableEq, Repr

/-- The fields of an E word as numbers (R65); `sub` is SUB[19:16], `subHi` SUB[23:20]. -/
structure ERaw where
  prd : Nat
  sbs : Nat
  sbe : Nat
  wm : Nat
  pat : Nat
  t0 : Nat
  inst : Nat
  subHi : Nat
  sub : Nat
  imm : Nat
deriving DecidableEq, Repr

/-- The fields of an S word as numbers (R65); `imm` is the whole of IMM16, `low` bits 15:0. -/
structure SRaw where
  prd : Nat
  t0 : Nat
  srn : Nat
  imm : Nat
  low : Nat
deriving DecidableEq, Repr

def GWord.raw (w : GWord) : GRaw :=
  { prd := w.prd.code, ty := w.ty.code, lit := w.imm.lit, t0 := w.t0.code, t1 := w.t1.code, rm := w.rm.code
    sat := w.sat.toNat, nm := w.nm.code, ir := w.ir.toNat, mf := w.mf.toNat, imm := w.imm.imm16
    litv := w.imm.litVal }
def GRaw.word (r : GRaw) : GWord :=
  { prd := .ofCode r.prd, ty := .ofCode r.ty, imm := .ofRaw r.lit r.imm r.litv, t0 := .ofCode r.t0
    t1 := .ofCode r.t1, rm := .ofCode r.rm, sat := r.sat == 1, nm := .ofCode r.nm, ir := r.ir == 1
    mf := BitVec.ofNat 3 r.mf }

def sbwCode : Option (BitVec 3) → Nat
  | none => 0
  | some t => 8 + t.toNat
def sbwOf (n : Nat) : Option (BitVec 3) := if n < 8 then none else some (BitVec.ofNat 3 n)

def MWord.raw (w : MWord) : MRaw :=
  { prd := w.prd.code, sz := w.sz.toNat, asp := w.asp.code, mode := w.mode.code, scope := w.scope.code
    t0 := w.t0.code, dt := w.dt.toNat, seq := w.seq.toNat, prev := w.prev.toNat, next := w.next.toNat
    sbw := sbwCode w.sbw }
def MRaw.word (r : MRaw) : MWord :=
  { prd := .ofCode r.prd, sz := BitVec.ofNat 3 r.sz, asp := .ofCode r.asp, mode := .ofCode r.mode
    scope := .ofCode r.scope, t0 := .ofCode r.t0, dt := BitVec.ofNat 7 r.dt, seq := BitVec.ofNat 7 r.seq
    prev := BitVec.ofNat 7 r.prev, next := BitVec.ofNat 7 r.next, sbw := sbwOf r.sbw }

/-- KIND of each exit (R75). -/
def Op.exitKind : Op → Nat
  | .br | .call | .ret => 1
  | _ => 0

def CWord.raw (op : Op) (w : CWord) : CRaw :=
  { prd := w.prd.code, exn := w.exn.toNat, kind := op.exitKind, off := w.off.toNat }
def CRaw.word (r : CRaw) : CWord :=
  { prd := .ofCode r.prd, exn := BitVec.ofNat 3 r.exn, off := BitVec.ofNat 48 r.off }

def EWord.raw (op : Op) (w : EWord) : ERaw :=
  { prd := w.prd.code, sbs := (w.sbs.map BitVec.toNat).getD 0, sbe := w.sbs.isSome.toNat, wm := w.wm.toNat
    pat := w.pat.toNat, t0 := w.t0.code, inst := w.unit.toNat, subHi := op.sel.getD 0, sub := w.sub.toNat
    imm := w.imm.toNat }
def ERaw.word (r : ERaw) : EWord :=
  { prd := .ofCode r.prd, sbs := if r.sbe = 1 then some (BitVec.ofNat 3 r.sbs) else none, wm := BitVec.ofNat 8 r.wm
    pat := BitVec.ofNat 4 r.pat, t0 := .ofCode r.t0, unit := BitVec.ofNat 3 r.inst, sub := BitVec.ofNat 4 r.sub
    imm := BitVec.ofNat 16 r.imm }

/-- IMM16 of an S word: for opcode 0xFE its top two bits select the mnemonic (R406). -/
def SWord.raw (op : Op) (w : SWord) : SRaw :=
  { prd := w.prd.code, t0 := w.t0.code, srn := w.srn.toNat
    imm := match op.sel with
      | some k => k * 2 ^ 14 + w.imm.toNat % 2 ^ 14
      | none => w.imm.toNat
    low := 0 }
def SRaw.word (op : Op) (r : SRaw) : SWord :=
  { prd := .ofCode r.prd, t0 := .ofCode r.t0, srn := BitVec.ofNat 11 r.srn
    imm := BitVec.ofNat 16 (if op.sel.isSome then r.imm % 2 ^ 14 else r.imm) }

/-! ### What each field may hold -/

/-- What a target field may hold. `no` and `no5` hold none: a breach is check 4, or check 5 where the rule of the
instruction says "reserved code". `rows` is a queue exactly when OUT is `.ROWS` (R243). -/
inductive TUse where
  | any | slot | slotNP | glob | no | no5 | req | opt | queue | rows
deriving DecidableEq, Repr

/-- What LIT and IMM16 of a G word may hold: nothing; an immediate of R61 always, or when IR is 1; IMM16 alone when IR
is 1 (PAND); or a code in the bits of a mask. -/
inductive LitUse where
  | no | always | withIR | short | code (mask : Nat)
deriving DecidableEq, Repr

/-- A row of the G-format tables. `tys`, `nms` and `mfs` are sets of codes as bit sets; `mf` the bits of MF in use;
`satNot`: SAT = 1 is a reserved code (R216). -/
structure GRow where
  tys : Nat := 1
  lit : LitUse := .no
  ir : Bool := false
  rm : Bool := false
  sat : Bool := false
  satNot : Bool := false
  mf : Nat := 0
  mfs : Nat := 1
  nms : Nat := 1
  prd0 : Bool := false
  t0 : TUse := .any
  t1 : TUse := .any
deriving DecidableEq, Repr

/-- What SBW may hold. -/
inductive SbwUse where
  | any | no | req
deriving DecidableEq, Repr

/-- A row of R98 or R126: sets of codes as bit sets. -/
structure MRow where
  szs : Nat := 1
  asps : Nat := 1
  modes : Nat := 1
  scopes : Nat := 1
  t0 : TUse := .no5
  sbw : SbwUse := .any
  wave : Bool := true
deriving DecidableEq, Repr

/-- A row of the E-format tables: the set of INST codes, whether PAT is used, the used bits of SUB[19:16] and IMM16. -/
structure ERow where
  insts : Nat := 1
  pat : Bool := false
  sub : Nat := 0
  subs : Nat := 0xffff
  imm : Nat := 0
  t0 : TUse := .no
deriving DecidableEq, Repr

/-- A row of R355 or R406. -/
structure SRow where
  t0 : TUse := .no5
  srn : Bool := false
  imm : Nat := 0
deriving DecidableEq, Repr

def Op.gRow : Op → GRow
  | .nop => { t0 := .no, t1 := .no }
  | .const => { tys := 0x7fff, lit := .always }
  | .mov | .pnot => { nms := 3 }
  | .read => { lit := .code 0x1FE }
  | .write => { nms := 2, t0 := .glob, t1 := .no }
  | .steer | .merge => { nms := 3, prd0 := true }
  | .pand | .por | .pxor => { nms := 7, ir := true, lit := .short }
  | .iterid => { mf := 7, mfs := 3 }
  | .nullq => {}
  | .nfill => { tys := 0x7fff, lit := .always, mf := 7, mfs := 3 }
  | .niter => { nms := 3, t0 := .slot, t1 := .slot }
  | .binv => { nms := 2, mf := 7, mfs := 0xf, t0 := .slotNP, t1 := .slotNP }
  | .add | .sub | .mul | .adds | .subs | .and | .or | .xor | .min | .max => { tys := 0xff, nms := 7, ir := true, lit := .withIR }
  | .mulh | .div | .rem | .ceq | .cne | .clt | .cle | .cltn | .clen => { tys := 0xf, nms := 3, ir := true, lit := .withIR }
  | .mulhn | .divn | .remn => { tys := 0xf0, nms := 3, ir := true, lit := .withIR }
  | .madd | .andn | .shl | .shr | .sar | .rot => { tys := 0xff, nms := 3, ir := true, lit := .withIR }
  | .abs => { tys := 0xf, nms := 3, sat := true }
  | .neg => { tys := 0xff, nms := 3, sat := true }
  | .clz | .ctz | .popc => { tys := 0xff, nms := 3 }
  | .sext | .zext => { tys := 0xff, nms := 3, lit := .code 0xFFFF }
  | .lea => { tys := 0x88, nms := 3, mf := 7, mfs := 0xff, ir := true, lit := .withIR }
  | .fadd | .fsub | .fmul => { tys := 0xf00, nms := 7, rm := true, sat := true, ir := true, lit := .withIR }
  | .fma | .fnma | .fdiv | .fscale => { tys := 0xf00, nms := 3, rm := true, sat := true, ir := true, lit := .withIR }
  | .fsqrt | .frsq | .flog2 => { tys := 0xf00, nms := 3, rm := true }
  | .frcp | .fexp2 => { tys := 0xf00, nms := 3, rm := true, sat := true }
  | .fmin | .fmax => { tys := 0xf00, nms := 7, ir := true, lit := .withIR }
  | .fabs | .fneg | .fclass => { tys := 0xf00, nms := 3 }
  | .fsgn => { tys := 0xf00, nms := 3, mf := 7, mfs := 7, ir := true, lit := .withIR }
  | .fceq | .fclt | .fcle | .fcun => { tys := 0xf00, nms := 3, ir := true, lit := .withIR }
  | .fcvt | .icvtf => { tys := 0x3f00, nms := 3, rm := true, sat := true, mf := 7, mfs := 0xff, lit := .code 0xF }
  | .fcvti => { tys := 0xff, nms := 3, rm := true, mf := 7, mfs := 0xff, lit := .code 0xF }
  | .qnt => { tys := 0x700, nms := 3, rm := true, mf := 1, mfs := 3, lit := .code 7 }
  | .dqnt => { tys := 0x700, nms := 3, rm := true, sat := true, mf := 1, mfs := 3, lit := .code 7 }
  | .gscale => { tys := 0x700, nms := 3, mf := 3, mfs := 0xf }
  | .mxpack => { tys := 0x700, nms := 3, rm := true, mf := 3, mfs := 0xf }
  | .mxunpk => { tys := 0x700, nms := 3, rm := true, sat := true, mf := 3, mfs := 0xf, lit := .code 1 }
  | .pack => { tys := 0x77, nms := 3, sat := true, mf := 3, mfs := 0xf }
  | .unpack => { tys := 0xff, nms := 3, mf := 3, mfs := 0xf }
  | .vbcast => { tys := 0x3fff, nms := 3, mf := 7, mfs := 1, sat := true, satNot := true }
  | .vbcastLane => { tys := 0x3fff, nms := 3, mf := 7, mfs := 2, ir := true, lit := .withIR, sat := true, satNot := true }
  | .vext | .vins | .vsel => { tys := 0x3fff, nms := 3, ir := true, lit := .withIR, sat := true, satNot := true }
  | .vperm => { tys := 0x3fff, nms := 3, sat := true, satNot := true }
  | .vshuf => { tys := 0x3fff, nms := 3, mf := 7, mfs := 0x3f, lit := .code 0xFFFF, sat := true, satNot := true }
  | .vradd => { tys := 0xfff, nms := 3, mf := 7, mfs := 3, rm := true, sat := true }
  | .vrmax | .vrmin => { tys := 0xfff, nms := 3, sat := true, satNot := true }
  | .vscan => { tys := 0xfff, nms := 3, mf := 7, mfs := 7, rm := true, sat := true, satNot := true }
  | .vdot => { tys := 0x3f77, nms := 3, rm := true, sat := true }
  | .vcmp => { tys := 0xfff, nms := 3, mf := 7, mfs := 0x1f, ir := true, lit := .withIR, sat := true, satNot := true }
  | .mand | .mor | .mxor => { tys := 0x4000, nms := 7, ir := true, lit := .withIR }
  | .mnot | .mpopc | .mffs => { tys := 0x4000, nms := 3 }
  | .mbit => { tys := 0x4000, nms := 3, mf := 7, mfs := 0xf, ir := true, lit := .withIR }
  | .mtst => { tys := 0x4000, nms := 3, ir := true, lit := .withIR }
  | .radd => { tys := 0xfff, nms := 7, rm := true, sat := true, lit := .code 0xFFFF, t0 := .slot, t1 := .slot }
  | .rmax | .rmin => { tys := 0xfff, nms := 7, lit := .code 0xFFFF, t0 := .slot, t1 := .slot }
  | .rjoin => { tys := 0x7fff, nms := 3, lit := .code 0xFFFF, t0 := .slot, t1 := .slot }
  | .kmerge => { tys := 0x400, nms := 3, mf := 7, mfs := 3, lit := .code 0xFFFF, t0 := .slot, t1 := .slot }
  | .bar => { nms := 2, mf := 7, mfs := 0x1e, lit := .code 0xFFFF, t0 := .slot, t1 := .slot }
  | .bara => { nms := 2, mf := 7, mfs := 0x1e, lit := .code 0xFFFF, t0 := .no, t1 := .no }
  | .barw => { nms := 2, mf := 7, mfs := 0x1e, lit := .code 0x00FF, t0 := .slot, t1 := .slot }
  | _ => {}

def Op.mRow : Op → MRow
  | .ld => { szs := 0xf, asps := 0x3f, modes := 7, scopes := 0x1f, t0 := .req }
  | .st => { szs := 0xf, asps := 0x3f, modes := 5, scopes := 0x1f }
  | .ldv => { szs := 0x30, asps := 0x3f, modes := 7, scopes := 0x1f, t0 := .req }
  | .stv => { szs := 0x30, asps := 0x3f, modes := 5, scopes := 0x1f }
  | .gath => { szs := 0xc, asps := 0xf, modes := 7, scopes := 0x1f, t0 := .req }
  | .scat => { szs := 0xc, asps := 0xf, modes := 5, scopes := 0x1f }
  | .aadd | .amin | .amax | .aand | .aor | .axor | .axchg | .acas => { szs := 0xc, asps := 0xf, modes := 5, scopes := 0x1f, t0 := .opt }
  | .afadd => { szs := 0xe, asps := 0xf, modes := 5, scopes := 0x1f, t0 := .opt }
  | .bred | .bupd => { szs := 0x30, asps := 4, modes := 5, scopes := 0x1f }
  | .mnop => { szs := 1, asps := 1, modes := 1, scopes := 1, sbw := .no }
  | .ldrgn => { szs := 0xf, asps := 0xf, modes := 2, scopes := 1, t0 := .req, sbw := .no, wave := false }
  | .acq => { szs := 1, asps := 4, modes := 5, scopes := 1, t0 := .opt }
  | .rel => { szs := 1, asps := 4, modes := 5, scopes := 1 }
  | .fence => { szs := 1, asps := 1, modes := 1, scopes := 0x1e }
  | .seminc => { szs := 3, asps := 3, modes := 5, scopes := 0x1e }
  | .semwait => { szs := 1, asps := 3, modes := 5, scopes := 1, t0 := .opt }
  | .semrd => { szs := 1, asps := 3, modes := 1, scopes := 1, t0 := .req }
  | .sbwait => { szs := 1, asps := 1, modes := 1, scopes := 1, t0 := .opt, sbw := .req }
  | .tgive | .ttake => { szs := 1, asps := 1, modes := 5, scopes := 1 }
  | _ => {}

def Op.eRow : Op → ERow
  | .pset | .kvapp => { pat := true, t0 := .no5 }
  | .copy => { insts := 3, pat := true, sub := 3, imm := 0xfff, t0 := .no5 }
  | .copyr => { pat := true, sub := 1, t0 := .no5 }
  | .tsend => { imm := 0xff, t0 := .no5 }
  | .rread => { sub := 7, t0 := .no5 }
  | .wopen | .wclose | .flopen | .flfree | .flclose => { imm := 0xf, t0 := .no5 }
  | .flpush => { insts := 3, pat := true, t0 := .no5 }
  | .kvtab => { imm := 0xffff, t0 := .no5 }
  | .kvgath => { pat := true, imm := 0xf, t0 := .no5 }
  | .kvinv => { sub := 1, t0 := .no5 }
  | .nvrd => { sub := 1, imm := 0x1fff, t0 := .no5 }
  | .nvwr => { sub := 3, imm := 0x1fff, t0 := .no5 }
  | .cred => { pat := true, sub := 0xf, imm := 0xfff, t0 := .no5 }
  | .cbcast | .cgath => { pat := true, sub := 8, imm := 0xfff, t0 := .no5 }
  | .wload => { insts := 2, sub := 1, imm := 0x3f, t0 := .no5 }
  | .wswap => { t0 := .no5 }
  | .mma => { pat := true, sub := 0xf, imm := 0xffff, t0 := .rows }
  | .mrecur => { pat := true, sub := 7, imm := 0xdf0f, t0 := .rows }
  | .macc => { sub := 7, imm := 0xd30f, t0 := .rows }
  | .mzero => { imm := 0x3000, t0 := .no5 }
  | .mstat | .nlook => { sub := 1, t0 := .queue }
  | .kcfg | .kmask => { insts := 0xff }
  | .kbias => { imm := 0x1f, insts := 0xff }
  | .kbind => { sub := 1, imm := 0xff, insts := 0xff }
  | .kunbind => { sub := 3, imm := 0xff, insts := 0xff }
  | .klife => { imm := 3, insts := 0xff }
  | .kqry => { sub := 3, imm := 0xff, t0 := .queue, insts := 0xff }
  | .kstat => { sub := 1, t0 := .queue, insts := 0xff }
  | .launch => { sub := 1, imm := 0x3f, t0 := .no5 }
  | .garm | .tret | .nclose | .nbind | .nrebind | .nunbind => { t0 := .no5 }
  | .spawn => { sub := 1, imm := 0x3fff, t0 := .queue }
  | .hreg | .msend => { sub := 1, subs := 1, t0 := .no5 }
  | .hregUnreg | .msendTrig => { sub := 1, subs := 2, t0 := .no5 }
  | .mrecv | .mprobe | .nopen => { sub := 3, t0 := .queue }
  | _ => {}

def Op.sRow : Op → SRow
  | .rdsr => { t0 := .req, srn := true }
  | .wrsr => { srn := true }
  | .tinv => { imm := 0xf }
  | .tsync | .keyset => { t0 := .queue }
  | .tprobe => { t0 := .req, imm := 1 }
  | .trap | .brk => { imm := 0x3fff }
  | .fret => { imm := 7 }
  | .frec => { t0 := .req, imm := 7 }
  | _ => {}

/-- `n` is in the bit set `s`. -/
def inSet (s n : Nat) : Bool := s.testBit n

/-- Bits of `v` outside the mask `m`. -/
def outside (m v : Nat) : Bool := v != (v &&& m)

/-- The width of a type code (R62). -/
def tyWidth (c : Nat) : Nat := (Ty.ofCode c).width

/-- The number of lanes at the width of a type code (R200); a MASK has 64 lanes (R182). -/
def tyLanes (c : Nat) : Nat := if c = 14 then 64 else 512 / tyWidth c

/-- The number of parts of a conversion between two widths (R193). -/
def partCount (a b : Nat) : Nat := max a b / min a b

/-- Reserved bits inside a target field (R59). -/
def targetReserved (t : Nat) : Bool :=
  match bits t 9 2 with
  | 0 => t != 0
  | 1 => false
  | 2 => bits t 0 1 != 0
  | _ => bits t 8 1 != 0 || bits t 0 4 != 0

/-- Check 4 on a target field. -/
def targetCheck4 (u : TUse) (t : Nat) : Bool :=
  targetReserved t || (u = .no && t != 0)

/-- Check 5 on a target field. -/
def targetCheck5 (u : TUse) (rows : Bool) (t : Nat) : Bool :=
  let k := bits t 9 2
  let badGlob := k = 2 && (bits t 7 2 = 3 || (bits t 7 2 != 0 && bits t 1 6 > 15))
  match u with
  | .no => false
  | .no5 => t != 0
  | .any => k = 2
  | .slot | .opt => !(k = 0 || k = 1)
  | .slotNP => !(k = 0 || (k = 1 && bits t 0 2 != 2))
  | .req => k != 1
  | .glob => k != 2 || badGlob
  | .queue => k != 3
  | .rows => if rows then k != 3 else t != 0

/-- The type under which the immediate of R is read (R201). -/
def Op.immTy (op : Op) (ty : Nat) : Nat :=
  match op with
  | .fscale => if ty = 11 then 3 else 2
  | .vbcastLane | .vext | .vins | .mbit => 7
  | _ => ty

/-- A literal or IMM16 whose upper bits break R61. -/
def immCheck4 (ty : Nat) (r : GRaw) : Bool :=
  let small := ty = 8 || ty = 9 || ty = 12 || ty = 13
  match r.lit with
  | 0 => small && r.imm ≥ 2 ^ tyWidth ty
  | 1 => r.imm != 0 || (small && r.litv ≥ 2 ^ tyWidth ty)
  | 2 => r.imm != 0 || r.litv ≥ 2 ^ tyWidth ty
  | _ => false

/-- Check 4 of R56 on a G word: a reserved or unused field is nonzero. -/
def gCheck4 (op : Op) (r : GRaw) : Bool :=
  let w := op.gRow
  (w.tys = 1 && r.ty != 0)
  || (match w.lit with
      | .no => r.lit != 0 || r.imm != 0
      | .code m => r.lit != 0 || outside m r.imm
      | .short => r.lit != 0 || (r.ir = 0 && r.imm != 0)
      | .withIR => if r.ir = 0 then r.lit != 0 || r.imm != 0 else immCheck4 (op.immTy r.ty) r
      | .always => immCheck4 r.ty r)
  || targetCheck4 w.t0 r.t0 || targetCheck4 w.t1 r.t1
  || (!w.rm && r.rm != 0) || (!w.sat && r.sat != 0) || (!w.ir && r.ir != 0)
  || (w.nms = 1 && r.nm != 0) || outside w.mf r.mf
  || (match op with
      | .vshuf => r.mf != 4 && r.imm != 0
      | .vscan => r.mf != 0 && r.rm != 0
      | .radd => r.ty < 8 && (r.rm != 0 || r.sat != 0)
      | _ => false)

/-- Check 5 of R56 on a G word: a used field holds a reserved code or a value outside its range. -/
def gCheck5 (op : Op) (r : GRaw) : Bool :=
  let w := op.gRow
  r.prd = 3 || (w.prd0 && r.prd != 0) || !inSet w.tys r.ty || r.lit = 3 || r.rm = 5 || r.rm = 6
  || (w.satNot && r.sat != 0) || !inSet w.nms r.nm || !inSet w.mfs r.mf
  || targetCheck5 w.t0 false r.t0 || targetCheck5 w.t1 false r.t1
  || (match op with
      | .read => bits r.imm 7 2 = 3 || (bits r.imm 7 2 != 0 && bits r.imm 1 6 > 15)
      | .nfill => r.ty = 14 && r.mf = 1
      | .sext | .zext => r.imm = 0 || r.imm > tyWidth r.ty
      | .fcvt | .fcvti => !(8 ≤ r.imm && r.imm ≤ 13) || r.mf ≥ partCount (tyWidth r.imm) (tyWidth r.ty)
      | .icvtf => !(r.imm ≤ 7) || r.mf ≥ partCount (tyWidth r.imm) (tyWidth r.ty)
      | .qnt | .dqnt => r.imm ≥ partCount (tyWidth r.ty) (if r.mf = 1 then 4 else 8)
      | .gscale => bits r.mf 1 1 = 1 && r.ty != 10
      | .mxunpk => r.ty != 10 && r.imm != 0
      | .pack => bits r.mf 1 1 = 1 && !(r.ty = 0 || r.ty = 4)
      | .unpack => (bits r.mf 1 1 = 1) != (r.ty = 0 || r.ty = 4)
      | .vshuf => r.mf = 4 && r.imm ≥ tyLanes r.ty
      | .vradd => (r.mf = 1 && tyWidth r.ty = 64) || (r.ty < 8 && r.sat != 0)
      | .vdot => r.ty < 8 && r.sat != 0
      | .vcmp => r.ty < 8 && r.mf = 4
      | .radd | .rmax | .rmin => r.imm = 0
      | .rjoin => r.imm = 0 || r.imm > tyLanes r.ty
      | .kmerge => bits r.imm 0 8 = 0 || bits r.imm 8 8 = 0 || bits r.imm 8 8 > (if r.mf = 0 then 10 else 8)
      | .bar | .bara => bits r.imm 8 8 = 0
      | _ => false)

/-- Check 4 of R56 on an M word (R95, R105, R92). -/
def mCheck4 (op : Op) (r : MRaw) : Bool :=
  let w := op.mRow
  targetReserved r.t0 || (r.sbw < 8 && r.sbw != 0)
  || (w.sbw = .no && (r.sbw != 0 || r.scope != 0))

/-- Check 5 of R56 on an M word, but for the links between the instructions of a block (R87, R92, R94). -/
def mCheck5 (op : Op) (r : MRaw) : Bool :=
  let w := op.mRow
  r.prd = 3 || !inSet w.szs r.sz || !inSet w.asps r.asp || !inSet w.modes r.mode || !inSet w.scopes r.scope
  || targetCheck5 w.t0 false r.t0
  || (r.asp = 5 && r.scope != 4) || (w.wave && (r.seq = 0 || r.seq = 127))
  || (!w.wave && (r.seq != 0 || r.prev != 0 || r.next != 0))
  || (w.sbw = .req && r.sbw < 8)

/-- Check 4 of R56 on a C word (R64, R75). -/
def cCheck4 (op : Op) (r : CRaw) : Bool := (op.exitKind = 1 || op = .quit) && r.off != 0

/-- Check 5 of R56 on a C word (R75). -/
def cCheck5 (op : Op) (r : CRaw) : Bool := r.prd = 3 || r.kind != op.exitKind

/-- Check 4 of R56 on an E word. SBS without SBE is a field not used (R65). -/
def eCheck4 (op : Op) (r : ERaw) : Bool :=
  let w := op.eRow
  (r.sbe = 0 && r.sbs != 0) || (!w.pat && r.pat != 0)
  || (op.sel.isNone && r.subHi != 0) || outside w.sub r.sub || outside w.imm r.imm
  || targetCheck4 w.t0 r.t0
  || (match op with
      | .kbind | .kqry => bits r.sub 0 1 = 0 && r.imm != 0
      | .kunbind => bits r.sub 1 1 = 0 && r.imm != 0
      | .spawn => bits r.sub 0 1 = 0 && bits r.imm 7 7 != 0
      | _ => false)

/-- Check 5 of R56 on an E word. -/
def eCheck5 (op : Op) (r : ERaw) : Bool :=
  let w := op.eRow
  r.prd = 3 || !inSet w.insts r.inst || !inSet w.subs r.sub || targetCheck5 w.t0 (bits r.imm 14 2 = 2) r.t0
  || (match op with
      | .tsend => r.imm = 0
      | .cred => bits r.sub 0 3 ≥ 6
      | .wload => bits r.imm 0 4 > 10 || bits r.imm 4 2 = 3
      | .mma => bits r.imm 8 4 > 8 || bits r.imm 14 2 = 3 || bits r.sub 0 2 = 3
      | .mrecur => bits r.imm 8 4 > 8 || bits r.imm 14 2 = 3 || bits r.sub 0 2 = 3
      | .macc => !(bits r.imm 14 2 = 1 || bits r.imm 14 2 = 2) || bits r.imm 8 2 = 3 || bits r.sub 0 2 = 3
      | .klife => r.imm = 3
      | _ => false)

/-- The assigned system register numbers (R429). -/
def srAssigned (n : Nat) : Bool :=
  n = 0x10 || n = 0x11 || (0x40 ≤ n && n ≤ 0x44) || (0x48 ≤ n && n ≤ 0x52) || (0x60 ≤ n && n ≤ 0x63) || n = 0x68
  || n = 0x70 || n = 0x71 || (0x80 ≤ n && n ≤ 0x97) || (0xa0 ≤ n && n ≤ 0xa7) || n = 0xc0
  || (0xc8 ≤ n && n ≤ 0xca) || (0xd0 ≤ n && n ≤ 0xd7) || (0xf8 ≤ n && n ≤ 0xfc) || (0x100 ≤ n && n ≤ 0x2ff)
  || (0x300 ≤ n && n ≤ 0x4ff && n % 8 < 5) || (0x500 ≤ n && n ≤ 0x5df) || (0x600 ≤ n && n ≤ 0x6bf)

/-- Check 4 of R56 on an S word (R65, R355, R406). -/
def sCheck4 (op : Op) (r : SRaw) : Bool :=
  let w := op.sRow
  r.low != 0 || targetReserved r.t0 || (!w.srn && r.srn != 0)
  || outside w.imm (if op.sel.isSome then r.imm % 2 ^ 14 else r.imm)

/-- Check 5 of R56 on an S word, but for the block's CAL (R406). -/
def sCheck5 (op : Op) (r : SRaw) : Bool :=
  let w := op.sRow
  r.prd = 3 || targetCheck5 w.t0 false r.t0 || (w.srn && !srAssigned r.srn)
  || (match op with
      | .tinv => bits r.imm 0 3 = 0 || bits r.imm 0 3 > 3
      | .fret => bits r.imm 0 2 = 3 || (bits r.imm 2 1 = 1 && bits r.imm 0 2 != 0)
      | _ => false)

/-- Checks 4 and 5 of R56 on the fields of an instruction: the cause of the first that fails. An instruction of opcode 0xFE
has 14 bits of immediate (R406). -/
def fieldsViolation (op : Op) : Fields → Option Cause
  | .g w => if gCheck4 op w.raw then some .reservedFieldNonzero else if gCheck5 op w.raw then some .reservedCode else none
  | .m w => if mCheck4 op w.raw then some .reservedFieldNonzero else if mCheck5 op w.raw then some .reservedCode else none
  | .c w => if cCheck4 op (w.raw op) then some .reservedFieldNonzero
      else if cCheck5 op (w.raw op) then some .reservedCode else none
  | .e w => if eCheck4 op (w.raw op) then some .reservedFieldNonzero
      else if eCheck5 op (w.raw op) then some .reservedCode else none
  | .s w => if sCheck4 op (w.raw op) then some .reservedFieldNonzero
      else if sCheck5 op (w.raw op) || (op.sel.isSome && w.imm.toNat ≥ 2 ^ 14) then some .reservedCode else none

end Sys2Proof
end

