-- ==== Sys2Proof/WellFormed.lean ====
section
/-!
DEFINITION. Well-formed instructions: those whose fields pass checks 4 and 5 of R56, read from the tables of Rows. The
checks that look at the rest of a block (kinds, targets, wave links, counts) are made where a block is mapped.
-/

namespace Sys2Proof

/-- The cause of the first of checks 4 and 5 of R56 that the instruction's own fields fail. -/
def Instr.violation (i : Instr) : Option Cause :=
  match i.view with
  | none => none
  | some (op, f) => fieldsViolation op f

/-- The instruction's fields hold what its row allows. A step of the machine itself has no fields. -/
def Instr.WellFormed (i : Instr) : Bool := i.violation.isNone

end Sys2Proof
end

