-- ==== Sys2Proof/Decode.lean ====
section
/-!
DEFINITION. From bytes to instructions and back (R53, R58 to R66). Decoding is total: it answers an instruction or the
cause under which mapping would refuse the word (checks 2, 4 and 5 of R56). Each field is cut out here, once.
-/

namespace Sys2Proof

/-- A little-endian number (R2). -/
def leNat : List Byte → Nat
  | [] => 0
  | b :: bs => b.toNat + 256 * leNat bs

/-- The `k` low bytes of `n`, low byte first (R2). -/
def natLE (n : Nat) : Nat → List Byte
  | 0 => []
  | k + 1 => BitVec.ofNat 8 n :: natLE (n / 256) k

/-! ### Cutting a word into fields -/

/-- R60. -/
def gFields (w litv : Nat) : GRaw :=
  { prd := bits w 54 2, ty := bits w 50 4, lit := bits w 48 2, t0 := bits w 37 11, t1 := bits w 26 11
    rm := bits w 23 3, sat := bits w 22 1, nm := bits w 20 2, ir := bits w 19 1, mf := bits w 16 3
    imm := bits w 0 16, litv := litv }

/-- R63. -/
def mFields (w : Nat) : MRaw :=
  { prd := bits w 54 2, sz := bits w 51 3, asp := bits w 48 3, mode := bits w 46 2, scope := bits w 43 3
    t0 := bits w 32 11, dt := bits w 25 7, seq := bits w 18 7, prev := bits w 11 7, next := bits w 4 7
    sbw := bits w 0 4 }

/-- R64. -/
def cFields (w : Nat) : CRaw :=
  { prd := bits w 54 2, exn := bits w 51 3, kind := bits w 48 3, off := bits w 0 48 }

/-- R65, E format. -/
def eFields (w : Nat) : ERaw :=
  { prd := bits w 54 2, sbs := bits w 51 3, sbe := bits w 50 1, wm := bits w 42 8, pat := bits w 38 4
    t0 := bits w 27 11, inst := bits w 24 3, subHi := bits w 20 4, sub := bits w 16 4, imm := bits w 0 16 }

/-- R65, S format. -/
def sFields (w : Nat) : SRaw :=
  { prd := bits w 54 2, t0 := bits w 43 11, srn := bits w 32 11, imm := bits w 16 16, low := bits w 0 16 }

/-! ### Decoding -/

/-- How many 32-bit literal words follow the word (R53, R60). -/
def litWords (w : Nat) : Nat :=
  match lookupWord w with
  | .one op => if op.format = .g then (match bits w 48 2 with | 1 => 1 | 2 => 2 | _ => 0) else 0
  | _ => 0

/-- Checks 4 and 5 of R56 on a word whose instruction is known. -/
def rawViolation (op : Op) (w litv : Nat) : Option Cause :=
  let pick (a b : Bool) : Option Cause :=
    if a then some .reservedFieldNonzero else if b then some .reservedCode else none
  match op.format with
  | .g => pick (gCheck4 op (gFields w litv)) (gCheck5 op (gFields w litv))
  | .m => pick (mCheck4 op (mFields w)) (mCheck5 op (mFields w))
  | .c => pick (cCheck4 op (cFields w)) (cCheck5 op (cFields w))
  | .e => pick (eCheck4 op (eFields w)) (eCheck5 op (eFields w))
  | .s => pick (sCheck4 op (sFields w)) (sCheck5 op (sFields w))

/-- The typed fields of a word whose instruction is known. -/
def fieldsOf (op : Op) (w litv : Nat) : Fields :=
  match op.format with
  | .g => .g (gFields w litv).word
  | .m => .m (mFields w).word
  | .c => .c (cFields w).word
  | .e => .e (eFields w).word
  | .s => .s ((sFields w).word op)

/-- The instruction of a word and its literal, or the cause under which R56 refuses it. -/
def decodeWord (w litv : Nat) : Except Cause Instr :=
  let go (op : Op) : Except Cause Instr :=
    match rawViolation op w litv with
    | some c => .error c
    | none =>
      match Instr.build op (fieldsOf op w litv) with
      | some i => .ok i
      | none => .error .reservedCode
  match lookupWord w with
  | .unassigned => .error .unassignedOpcode
  | .one op => go op
  | .sub k ops =>
    match ops[k]? with
    | none =>
      -- No row defines the word, so only what R59 and R65 say of every E word is check 4.
      let r := eFields w
      .error (if targetReserved r.t0 || (r.sbe = 0 && r.sbs != 0) then .reservedFieldNonzero else .reservedCode)
    | some op => go op

/-- Why bytes give no instruction. -/
inductive DecodeError where
  /-- The bytes end before the word or its literal does. -/
  | truncated
  /-- R56 refuses the word under this cause. -/
  | refused (c : Cause)
deriving DecidableEq, Repr

/-- The first instruction of a stream of bytes and the bytes that follow it (R53). -/
def decode (bs : List Byte) : Except DecodeError (Instr × List Byte) :=
  if bs.length < 8 then .error .truncated
  else
    let w := leNat (bs.take 8)
    let n := 4 * litWords w
    let rest := bs.drop 8
    if rest.length < n then .error .truncated
    else
      match decodeWord w (leNat (rest.take n)) with
      | .error c => .error (.refused c)
      | .ok i => .ok (i, rest.drop n)

/-- The host's view of the decoder: an instruction whose bits are `w`, the bits above `nbits` zero. The longest
instruction is a word and a 64-bit literal. -/
def decodeTableWord (nbits w : Nat) : Option Instr :=
  match decode (natLE (w % 2 ^ nbits) 16) with
  | .ok (i, _) => some i
  | .error _ => none

/-! ### Encoding -/

/-- R60. -/
def gPack (op : Op) (r : GRaw) : Nat :=
  op.code * 2 ^ 56 + r.prd * 2 ^ 54 + r.ty * 2 ^ 50 + r.lit * 2 ^ 48 + r.t0 * 2 ^ 37 + r.t1 * 2 ^ 26 + r.rm * 2 ^ 23
    + r.sat * 2 ^ 22 + r.nm * 2 ^ 20 + r.ir * 2 ^ 19 + r.mf * 2 ^ 16 + r.imm

/-- R63. -/
def mPack (op : Op) (r : MRaw) : Nat :=
  op.code * 2 ^ 56 + r.prd * 2 ^ 54 + r.sz * 2 ^ 51 + r.asp * 2 ^ 48 + r.mode * 2 ^ 46 + r.scope * 2 ^ 43
    + r.t0 * 2 ^ 32 + r.dt * 2 ^ 25 + r.seq * 2 ^ 18 + r.prev * 2 ^ 11 + r.next * 2 ^ 4 + r.sbw

/-- R64. -/
def cPack (op : Op) (r : CRaw) : Nat :=
  op.code * 2 ^ 56 + r.prd * 2 ^ 54 + r.exn * 2 ^ 51 + r.kind * 2 ^ 48 + r.off

/-- R65, E format. -/
def ePack (op : Op) (r : ERaw) : Nat :=
  op.code * 2 ^ 56 + r.prd * 2 ^ 54 + r.sbs * 2 ^ 51 + r.sbe * 2 ^ 50 + r.wm * 2 ^ 42 + r.pat * 2 ^ 38
    + r.t0 * 2 ^ 27 + r.inst * 2 ^ 24 + r.subHi * 2 ^ 20 + r.sub * 2 ^ 16 + r.imm

/-- R65, S format. -/
def sPack (op : Op) (r : SRaw) : Nat :=
  op.code * 2 ^ 56 + r.prd * 2 ^ 54 + r.t0 * 2 ^ 43 + r.srn * 2 ^ 32 + r.imm * 2 ^ 16 + r.low

/-- The word of an instruction, the number of its literal words and its literal. -/
def encodeFields (op : Op) : Fields → Nat × Nat × Nat
  | .g w => (gPack op w.raw, w.imm.lit, w.imm.litVal)
  | .m w => (mPack op w.raw, 0, 0)
  | .c w => (cPack op (w.raw op), 0, 0)
  | .e w => (ePack op (w.raw op), 0, 0)
  | .s w => (sPack op (w.raw op), 0, 0)

/-- The bytes of an instruction: its word, then its literal (R53). A step of the machine itself has none. -/
def encode (i : Instr) : List Byte :=
  match i.view with
  | none => []
  | some (op, f) =>
    let e := encodeFields op f
    natLE e.1 8 ++ natLE e.2.2 (4 * e.2.1)

end Sys2Proof
end

