-- ==== Sys2Proof/Machine/Tab.lean ====
section
/-!
DEFINITION. Sparse data by key: a list of (key, value) pairs in rising key order. Reading an unlisted key gives a
default. `putD` keeps the canonical form, in which no listed value is the default; memory and the system registers use it.
-/

namespace Sys2Proof

/-- A sparse table. -/
abbrev Tab (α : Type) := List (Nat × α)

variable {α : Type}

/-- The value at key `k`, if listed. -/
def Tab.find : Tab α → Nat → Option α
  | [], _ => none
  | (j, v) :: t, k => if j = k then some v else Tab.find t k

/-- The value at key `k`, or the default. -/
def Tab.get (d : α) (t : Tab α) (k : Nat) : α := (Tab.find t k).getD d

/-- Sets the value at key `k`, keeping the keys in rising order. -/
def Tab.put : Tab α → Nat → α → Tab α
  | [], k, v => [(k, v)]
  | (j, u) :: t, k, v =>
    if k < j then (k, v) :: (j, u) :: t
    else if j = k then (k, v) :: t
    else (j, u) :: Tab.put t k v

/-- Unlists key `k`. -/
def Tab.del : Tab α → Nat → Tab α
  | [], _ => []
  | (j, u) :: t, k => if j = k then Tab.del t k else (j, u) :: Tab.del t k

/-- Sets the value at key `k`; a default value unlists it. -/
def Tab.putD [DecidableEq α] (d : α) (t : Tab α) (k : Nat) (v : α) : Tab α :=
  if v = d then Tab.del t k else Tab.put t k v

/-- A key above every listed one. -/
def Tab.nextKey (t : Tab α) : Nat := t.foldl (fun n e => max n (e.1 + 1)) 0

/-- Changes the value at key `k`. -/
def Tab.mod (d : α) (t : Tab α) (k : Nat) (f : α → α) : Tab α := Tab.put t k (f (Tab.get d t k))

/-- The keys rise strictly. -/
def Tab.sorted : Tab α → Bool
  | [] => true
  | (j, _) :: t => t.all (fun e => j < e.1) && Tab.sorted t

/-- The canonical form: the keys rise strictly and no listed value is the default. -/
def Tab.wf [DecidableEq α] (d : α) (t : Tab α) : Bool := Tab.sorted t && t.all (fun e => e.2 != d)

/-- Replaces the first element that satisfies `p`. -/
def modFirst (p : α → Bool) (f : α → α) : List α → List α
  | [] => []
  | a :: as => if p a then f a :: as else a :: modFirst p f as

/-- Drops the element at index `k`. -/
def dropAt : Nat → List α → List α
  | _, [] => []
  | 0, _ :: as => as
  | k + 1, a :: as => a :: dropAt k as

/-- Replaces the element at index `k`. -/
def modAt (f : α → α) : Nat → List α → List α
  | _, [] => []
  | 0, a :: as => f a :: as
  | k + 1, a :: as => a :: modAt f k as

/-- Inserts a number into a rising list without repeats. -/
def setIns (n : Nat) : List Nat → List Nat
  | [] => [n]
  | m :: ms => if n < m then n :: m :: ms else if n = m then m :: ms else m :: setIns n ms

end Sys2Proof
end

