-- ==== Sys2Proof/Machine/State.lean ====
section
/-!
DEFINITION. The state of the machine as plain data: everything INVENTORY.md lists under State, and the state after reset.
-/

namespace Sys2Proof.Machine

/-! ### Tokens -/

/-- A payload (R27). -/
inductive Val where
  | sc (v : W64)
  | vec (v : V512)
deriving DecidableEq, Repr

/-- What an operand or a result carries (R27, R28): null or a payload, and the status bits. -/
structure Opnd where
  null : Bool := false
  val : Val := .sc 0
  ns : Bool := false
  em : Bool := false
  er : Bool := false
deriving DecidableEq, Repr

/-- Token kinds (R27). -/
inductive Kd where
  | data | predicate | done | null | reply | query | fire | reserved
deriving DecidableEq, Repr

/-- A token on its way to an element of one cluster (R27). `gnAny`: a token delivered by place takes the plane's
generation at delivery (R46). -/
structure Tok where
  pl : Nat
  ix : Nat
  pt : Port
  ws : Nat
  it : Nat
  kd : Kd
  gn : Nat
  rt : Nat := 0
  o : Opnd
  /-- Its entry holds an uncorrectable error, in the matching store or the spill table (R397). -/
  bad : Bool := false
deriving DecidableEq, Repr

/-- A complete operand set in the ready queue of its element (R50); `n` is the iteration. -/
structure Ready where
  pl : Nat
  ix : Nat
  ws : Nat
  it : Nat
  l : Option Opnd := none
  r : Option Opnd := none
  q : Option Opnd := none
  p : Option Opnd := none
deriving DecidableEq, Repr

/-- The operand set, or the engine command, whose instruction the step runs. `perform` tells an element's firing from a
unit's work on the command at the head of unit `u`, of which `k` is the piece to do. `wait`: the operand set stays in
its ready queue, because what the instruction waits for has not come. -/
structure Issue where
  c : Nat
  p : Nat
  ix : Nat
  ws : Nat
  it : Nat
  l : Option Opnd := none
  r : Option Opnd := none
  q : Option Opnd := none
  pr : Option Opnd := none
  perform : Bool := false
  u : Nat := 0
  k : Nat := 0
  piece : Nat := 0
  wait : Bool := false
deriving DecidableEq, Repr

/-- A context word: an instruction word and its literal (R23). -/
structure Ctx where
  word : W64
  lit : W64 := 0
deriving DecidableEq, Repr

/-! ### Invocations -/

/-- An effect held until commit (R39), by the element that holds it. -/
inductive Held where
  | glob (ix : Nat) (file : GFile) (num : Nat) (v : Val)
  | qtok (ix q : Nat) (o : Opnd)
  | cmd (ix : Nat) (i : Instr) (l r q : Option Opnd)
  | exit (ix : Nat) (call : Bool) (dest : Option Nat)
deriving DecidableEq, Repr

/-- A detected fault, before its record is formed (R390, R391). -/
structure Pending where
  cause : Cause
  n : Nat
  ws : Nat
  age : Nat
  ix : Option Nat := none
  eng : Bool := false
  map : Bool := false
  trp : Bool := false
  drn : Bool := false
  spc : Nat := 7
  va : Nat := 0
  aux : Nat := 0
  x : Nat := 0
  opc : Nat := 0
  sub : Nat := 0
  chip : Option Nat := none
  at_ : Nat := 0
  /-- The kernel of the command that failed. -/
  k : Option Nat := none
deriving DecidableEq, Repr

/-- How a callable invocation was started and where its result goes (R310 to R314). -/
structure Spawn where
  /-- False while the SPAWN that took the tag has not acted (R311). -/
  ready : Bool := true
  arg : Opnd
  arg2 : Option Opnd := none
  ix1 : Nat := 0
  ix2 : Nat := 0
  /-- The spawner's node key, queue and place; none for a trigger. -/
  ret : Option (Nat × Nat × Nat) := none
  /-- The spawner's command, whose scoreboard token is set at the commit. -/
  cmd : Option (Nat × Nat) := none
  /-- The fault record served, when the tag was taken by one (R395). -/
  record : Option Nat := none
  /-- Tags of the same pool that its discarded invocation had taken for SPAWNs (R49). -/
  kept : List Nat := []
  /-- Order in which tags were taken. -/
  ord : Nat := 0
  /-- The sender of a trigger (node key), and its command as a fault names it (R310). -/
  sender : Option (Nat × Pending) := none
deriving DecidableEq, Repr

/-- An invocation in flight (R37). `mp` numbers the mapping, `fctl` is FCTL as committed at its start, `takes` lists
the wired ports it takes on with their delivery numbers, `wd` is its watchdog count. -/
structure Inv where
  n : Nat
  ws : Nat
  mp : Nat := 0
  age : Nat := 0
  start : Nat := 0
  fctl : Nat := 0
  reports : List (Nat × Bool) := []
  held : List Held := []
  flags : Nat := 0
  takes : List (Nat × Nat) := []
  wd : Nat := 0
  spawn : Option Spawn := none
  /-- Tags that the SPAWNs of its waiting commit have taken: the pool's node key and the tag (R311). -/
  tags : List (Nat × Nat) := []
deriving DecidableEq, Repr

/-- IT of an invocation (R37). -/
def Inv.it (i : Inv) : Nat := i.n % 65536

/-- Where one piece of an access lies: the memory key of R79's place, its bytes, and the byte of the payload it starts
at. A piece at another chip has the key `2^60 + chip × 2^52 + address`. -/
structure Piece where
  key : Nat
  size : Nat
  lane : Nat
  /-- The address as R79 gives it, for a fault record. -/
  va : Nat := 0
  /-- The key slot of the page, in memory that is encrypted (R350). -/
  slot : Option Nat := none
  /-- For a piece at another chip: what a first forward entry granted, and how many forward entries were met (R346). -/
  perm : Option Nat := none
  fwd : Nat := 0
deriving DecidableEq, Repr

/-- The state of an access at the memory interface (R88 to R97). -/
inductive AccSt where
  /-- fired; waiting for its chain place, gates, commit or condition. -/
  | waiting
  /-- on its way to, or at, its place of atomicity. -/
  | sent
  /-- an atomic with a result that holds its reservation (R97). -/
  | reserved
  /-- a committed atomic with a result whose new value is on its way to another chip. -/
  | ending
  /-- performed, or passed on without an access. -/
  | performed
deriving DecidableEq, Repr

/-- Where a check at an owner chip stands (R85). -/
inductive ChkSt where
  | no | asked | passed
deriving DecidableEq, Repr

/-- An entry of the memory interface's chain (R88). `off`: predicated off or absorbed; `held`: an effect whose commit
has not released it; `gated`: it waits for a done token; `loc` where it goes, as last translated; `left` the numbers of the pieces not yet performed, `got` what was read and `fwdb` bytes bound from
earlier stores of the node (R90), both by payload byte; `newv` the reserved new value; `cov` what a REL waits for. -/
structure Acc where
  id : Nat
  n : Nat
  ws : Nat
  gn : Nat
  age : Nat
  ix : Nat
  seq : Nat
  prev : Nat
  next : Nat
  instr : Instr
  l : Option Opnd := none
  r : Option Opnd := none
  q : Option Opnd := none
  er : Bool := false
  ns : Bool := false
  em : Bool := false
  off : Bool := false
  held : Bool := false
  gated : Bool := false
  st : AccSt := .waiting
  loc : List Piece := []
  /-- The KV block it waits for: sequence and block (R84). -/
  kvw : Option (Nat × Nat) := none
  chk : ChkSt := .no
  left : List Nat := []
  got : List (Nat × Nat) := []
  fwdb : List (Nat × Byte) := []
  newv : Option Nat := none
  /-- A committed atomic whose reservation ends once the node's earlier writes of its bytes are performed (R90, R97). -/
  rel : Bool := false
  cov : List Nat := []
  /-- The regions that a waiting ACQ has read at its object's bank (R110, R128). -/
  bound : Option (List Nat) := none
deriving DecidableEq, Repr

/-- A token of an output queue, or a reserved place (R46): `o` is none until the filler's token arrives; `dlv` marks
that it was delivered to its taking invocation. -/
structure QTok where
  q : Nat
  place : Nat
  o : Option Opnd
  kd : Kd := .data
  dlv : Bool := false
deriving DecidableEq, Repr

/-- The block header's fields (R52) and the occupied elements. -/
structure Header where
  icnt : Nat := 0
  lcnt : Nat := 0
  exc : Nat := 0
  efc : Nat := 0
  stm : Bool := false
  cal : Bool := false
  win : Nat := 0
  occ : Nat := 0
  /-- The block holds an M-format instruction other than LDRGN. -/
  waves : Bool := false
deriving DecidableEq, Repr

/-- W of R52. -/
def Header.w (h : Header) : Nat := h.win + 1

/-- Where a node stands (R37, R40, R305, R393, R400). -/
inductive NodeSt where
  | unassigned | idle | mapping | running | draining | faulted | ended | suspended
deriving DecidableEq, Repr

/-- A wiring entry of an output queue (R46, R297): consumer node key, element and port. -/
structure Wire where
  q : Nat
  nk : Nat
  ix : Nat
  pt : Port
deriving DecidableEq, Repr

/-- What a node is (R297, R303, R337). -/
structure Assign where
  kernel : Nat
  sec : Nat
  num : Nat
  part : Nat
  asid : Nat
  entry : Nat
  cal : Bool := false
deriving DecidableEq, Repr

/-- The running value of a reduction element after one iteration (R252, R281): whether anything was contributed and
whether all of it was identities, whether a null makes the result null, the value, the status bits, the flags of the
chunks skipped, and KMERGE's list (score, position). -/
structure Red where
  any : Bool := false
  idn : Bool := true
  nul : Bool := false
  v : Val := .sc 0
  ns : Bool := false
  em : Bool := false
  er : Bool := false
  list : List (Nat × Nat) := []
deriving DecidableEq, Repr

/-- What a commit has still to do, in order (R39, R134, R141). -/
inductive Act where
  /-- flip the tile to ENGINE once the node's earlier accesses to it are performed. -/
  | flip (tile : Nat)
  /-- issue the command held on element `ix` of invocation (age). -/
  | issue (ix : Nat) (i : Instr) (l r q : Option Opnd) (age n fctl : Nat) (place : Option (Nat × Nat × Nat)) (tag : Option Nat)
  /-- act on the exit, or on having none. -/
  | exit (ex : Option (Bool × Option Nat)) (n age : Nat) (tag : Option Spawn) (ret : Option Opnd)
deriving DecidableEq, Repr

/-- A BAR or BARW that waits for an episode of a group (R137): its element and invocation, its targets, its status bits, the
arrival whose episode it waits for, and the episode once known. -/
structure BarWait where
  grp : Nat
  ix : Nat
  n : Nat
  ws : Nat
  age : Nat
  t0 : Target
  t1 : Target
  o : Opnd
  arr : Nat × Nat := (0, 0)
  ep : Option Nat := none
deriving DecidableEq, Repr

/-- A node: the owner of one plane of one cluster (R24). -/
structure Node where
  asg : Option Assign := none
  st : NodeSt := .unassigned
  pc : Nat := 0
  hdr : Option Header := none
  mp : Nat := 0
  gn : Nat := 0
  first : Bool := true
  g : Tab W64 := []
  v : Tab V512 := []
  m : Tab W64 := []
  gErr : List Nat := []
  next : Nat := 0
  stop : Bool := false
  tcount : Nat := 0
  rst : Nat := 0
  ageNext : Nat := 0
  accNext : Nat := 0
  invs : List Inv := []
  acts : List Act := []
  /-- What other commits of a callable node, which wait in the same way, have still to do (R310). -/
  parked : List (List Act) := []
  mif : List Acc := []
  /-- Done tokens ahead of their consumer's access: window slot, IT, element. -/
  dones : List (Nat × Nat × Nat) := []
  /-- Streaming regions declared (R92): consumer element, iteration, space, base, length. -/
  regs : List (Nat × Nat × Asp × Nat × Nat) := []
  sb : List (Nat × Nat × Nat) := []
  wires : List Wire := []
  outq : List QTok := []
  places : Tab Nat := []
  taken : Tab Nat := []
  /-- Tokens that came on a route tag since the node was armed (R168), by sender's chip, cluster and tag. -/
  rtCount : Tab Nat := []
  spill : List Tok := []
  spillCount : Option Nat := none
  outst : Tab Nat := []
  red : Tab (List (Nat × Red)) := []
  okNext : Bool := false
  moveTo : Option Nat := none
  /-- Restored from an image and not yet mapped (R404). -/
  resumed : Bool := false
  /-- The block mapped, or to be mapped, is the entry block of an arming, which no exit has left (R76, R304). -/
  atEntry : Bool := true
  /-- Its invocations were discarded by the pre-emption in progress, and the generation stepped (R400). -/
  stepped : Bool := false
  /-- The node's latest arrival on a group (age and element), and the episode that it joined: none while it is on its way
  (R137). -/
  barLast : Tab ((Nat × Nat) × Option Nat) := []
  barWait : List BarWait := []
  pend : Option Pending := none
  engFaults : List Pending := []
  skip : Option Nat := none
  tags : Tab Spawn := []
  /-- Triggers and fault records that wait for a tag (R314, R395). -/
  waitSpawn : List Spawn := []
  /-- Abandoned while its section stays armed (R310). -/
  aband : Bool := false
  /-- Bytes read ahead (R91): element, iteration, key, byte. -/
  stmBuf : List (Nat × Nat × Nat × Byte) := []
deriving DecidableEq, Repr

/-- An entry of a translation cache (R347): its ASID, its level, its virtual page at that level and the PTE. -/
structure TEnt where
  asid : Nat
  level : Nat
  vpn : Nat
  pte : Nat
deriving DecidableEq, Repr

/-- An NVMe command still to submit or outstanding (R160, R166): first LBA, count, where its bytes lie (physical
address, key slot, length), and Force Unit Access. A page behind a forward entry (R178) has its key at the other chip, and in place
of a slot the entry's R, W and X plus 8 for each forward entry met. -/
structure NvJob where
  read : Bool
  ns : Nat
  lba : Nat
  nlb : Nat
  pages : List (Nat × Nat × Nat)
  fua : Bool := false
deriving DecidableEq, Repr

/-- An access of an engine command on its way (R149): its number, its address and space code as a fault record gives them, its
pieces, those in the own cluster still to perform, the lanes asked of other places and not answered, and the bytes read. -/
structure EngAcc where
  j : Nat
  addr : Nat
  spc : Nat
  ps : List Piece
  todo : List Piece
  out : List Nat := []
  v : Nat := 0
deriving DecidableEq, Repr

/-- A command in, or being run by, an engine unit (R141, R142). `place` is its first reserved queue place; `pats` its copies of
the patterns (R150), `tiles` the own tiles it holds and `far` those of other clusters (R145), `hnds` the handles it resolved,
each with its object and the write right (R363), `trs` the translations it holds (R411), `chips` the members of its chip group
(R48), `no` its number in the storage unit (R140). `aux`, `acc` and `buf` are its progress, as its own definition names them;
`accs` its accesses, `got` the acknowledgments of its messages; `setAside` marks a FLPUSH that waits for a notice (R142). -/
structure Cmd where
  id : Nat
  instr : Instr
  nk : Nat
  kernel : Nat := 0
  part : Nat
  asid : Nat
  ix : Nat
  n : Nat
  ws : Nat := 0
  age : Nat
  l : Option Opnd := none
  r : Option Opnd := none
  q : Option Opnd := none
  place : Option (Nat × Nat) := none
  /-- How many places it reserved, from `place` on. -/
  places : Nat := 1
  /-- FCTL as committed when its invocation started (R262). -/
  fctl : Nat := 0
  started : Bool := false
  finished : Bool := false
  setAside : Bool := false
  aux : List Nat := []
  acc : List Nat := []
  buf : List Byte := []
  accs : List EngAcc := []
  got : List (Nat × Nat) := []
  pats : List V512 := []
  tiles : List Nat := []
  far : List (Nat × Nat) := []
  chips : List Nat := []
  no : Nat := 0
  hnds : List (Nat × Nat × Bool) := []
  trs : List TEnt := []
  jobs : List NvJob := []
  kvw : Option (Nat × Nat) := none
  fail : Option Pending := none
  /-- A failure met while the rest of a transfer still completes (R167). -/
  fail0 : Option Pending := none
deriving DecidableEq, Repr

/-- A flume opened at this cluster (R152 to R156): the fields of its record, the partition that opened it, and the slots
landed and freed since. -/
structure Flume where
  part : Nat := 0
  ring : Nat := 0
  nsl : Nat := 0
  tps : Nat := 0
  srcChip : Nat := 0
  srcCl : Nat := 0
  rtn : Bool := false
  sem : Nat := 0
  landed : Nat := 0
  freed : Nat := 0
deriving DecidableEq, Repr

/-- A receive window (R169 to R171): its record and the partition and ASID of its owner. -/
structure Window where
  desc : V512 := 0
  part : Nat := 0
  asid : Nat := 0
deriving DecidableEq, Repr

/-- A delivery into a window of this cluster (R169, R177): who asked for it (chip, cluster, command, recipient), the
window, the granules still to come, the writes asked of other chips and not answered (R178), and whether a null delivery
came; a refused delivery stays as such. `n` tells deliveries of a cluster apart. -/
structure Dlv where
  n : Nat
  chip : Nat
  c : Nat
  id : Nat
  j : Nat
  w : Nat
  left : Nat
  away : Nat := 0
  err : Bool := false
  refused : Bool := false
deriving DecidableEq, Repr

/-- The sync unit's state of the open episode of a group (R137, R138): its number, the count of its first arrival, and
the arrivals by node key and iteration. -/
structure Episode where
  num : Nat := 0
  cnt : Nat := 0
  arrived : List (Nat × Nat) := []
deriving DecidableEq, Repr

/-- One set of matrix array weights (R227). -/
structure WSet where
  valid : Bool := false
  fmt : Nat := 0
  grp : Nat := 0
  w : List Byte := []
  side : List Byte := []
  /-- Where the set came from in the weight store: its offset and that of its side data (R242). -/
  e : Nat := 0
  so : Nat := 0
  /-- A latch of the set holds an uncorrectable error (R239, R397). -/
  err : Bool := false
deriving DecidableEq, Repr

/-- The matrix array of a cluster (R227, R236). -/
structure Array where
  act : WSet := {}
  shad : WSet := {}
  acc0 : Tab (BitVec 32) := []
  acc1 : Tab (BitVec 32) := []
  flags : Nat := 0
  count : Nat := 0
deriving DecidableEq, Repr

/-- A binding of a key-match store (R256, R266, R276): `life` 0 PERSIST, 1 COUNT, 2 CONSUME; `tiles` those of its value
rows (R268). -/
structure Bind where
  head : Nat := 0
  nk : Nat := 0
  e : Nat := 0
  p0 : Nat := 0
  vbase : Nat := 0
  life : Nat := 0
  count : Nat := 0
  tiles : List Nat := []
deriving DecidableEq, Repr

/-- What a query or a KSTAT sends out, while it waits to enter the queue (R264, R265, R270, R279): the issuing cluster's
command, the member's rank, the tokens with their kind still to go and their number within the member's, the tiles held
until they are gone (R268), and the failure. -/
structure KOut where
  c : Nat
  id : Nat
  j : Nat
  k : Nat := 0
  toks : List (Kd × Opnd) := []
  tiles : List Nat := []
  bad : Option Pending := none
deriving DecidableEq, Repr

/-- A key-match store (R256). -/
structure Kms where
  cfg : V512 := 0
  slots : Tab Bind := []
  bias : Tab (BitVec 32) := []
  mask : Option (List Byte) := none
  flags : Nat := 0
  nan : Bool := false
  qcnt : Nat := 0
  outs : List KOut := []
deriving DecidableEq, Repr

/-- A posted receive (R316): node key, command, source and tag matched (none: any). -/
structure Recv where
  cmd : Nat
  nk : Nat
  src : Option Nat
  tag : Option Nat
deriving DecidableEq, Repr

/-- A message in an overflow queue (R316): its plane, its source as bits 63:41 of a selector name it, its tag and
payload. -/
structure Mesg where
  pl : Nat
  src : Nat
  tag : Nat
  o : Opnd
deriving DecidableEq, Repr

/-- A token sent on a route tag (R168): the element, port and number of its taking invocation, the token, whether it was
delivered, and the sender (chip, cluster, command) while it is not told. -/
structure Routed where
  pl : Nat
  ix : Nat
  pt : Port
  k : Nat
  o : Opnd
  /-- The path it came on, NS and its lane. -/
  path : Nat := 0
  ns : Nat := 1
  lane : Nat := 0
  dlv : Bool := false
  tell : Option (Nat × Nat × Nat) := none
deriving DecidableEq, Repr

/-- A cluster (R11, R21 to R30 and the chapters of its units). -/
structure Cluster where
  ctx : Tab Ctx := []
  /-- Context words that hold an uncorrectable error (R397). -/
  ctxErr : List Nat := []
  input : List Tok := []
  store : List Tok := []
  ready : List Ready := []
  engTiles : List Nat := []
  sems : Tab (BitVec 32) := []
  semErr : List Nat := []
  pats : Tab V512 := []
  units : Tab (List Cmd) := []
  cmdNext : Nat := 0
  flumes : Tab Flume := []
  /-- Freed-slot notices kept at the source (R153), by the flume's address: slot number and TPS. -/
  notices : Tab (List (Nat × Nat)) := []
  windows : Tab Window := []
  dlvs : List Dlv := []
  /-- Commands with `.DISP` that signalled and whose recipients have not all answered (R172, R176). -/
  disp : List Cmd := []
  kbtb : List (Nat × Nat × Nat × Nat) := []
  bcache : List (Nat × Nat × List Byte) := []
  routed : List Routed := []
  /-- Episodes of collectives this cluster has issued, by group (R179). -/
  collCount : Tab Nat := []
  array : Array := {}
  kms : Tab Kms := []
  recvs : List Recv := []
  overflow : List Mesg := []
  overEp : Bool := false
  holder : Option (Nat × Nat) := none
  prevPart : Option Nat := none
  episodes : Tab Episode := []
deriving DecidableEq, Repr

/-! ### Kernels and queues -/

/-- A node descriptor as admission reads it (R297). -/
structure NodeDesc where
  num : Nat
  sec : Nat
  cl : Nat
  pl : Nat
  entry : Nat
  cal : Bool
deriving DecidableEq, Repr

/-- The states of a section (R304). -/
inductive SecSt where
  | idle | armed | expired
deriving DecidableEq, Repr

/-- A pending arming (R305, R309): its count and the GARM that asked for it (cluster, command). -/
structure Arming where
  t : Nat
  cmd : Option (Nat × Nat) := none
deriving DecidableEq, Repr

/-- A section of an admitted kernel (R296, R304). -/
structure Section where
  st : SecSt := .idle
  npred : Nat := 0
  count : Nat := 0
  succ : Nat := 0
  t : Nat := 1
  arming : List Arming := []
deriving DecidableEq, Repr

/-- Where a kernel stands (R303, R306, R400, R403). -/
inductive KSt where
  | running | preempting | saved | ended | stuck
deriving DecidableEq, Repr

/-- A kernel (R291 to R306, R394, R400 to R404). `x`, `y`, `w`, `h` place it on its die; `fe` is its latched fault edge;
`saved` its image by cluster and node key, `slots` the context slots it holds; `frets` the FRETs held for it. -/
structure Kernel where
  queue : Nat
  recno : Nat
  rank : Nat
  age : Nat
  part : Nat
  asid : Nat
  die : Nat
  x : Nat
  y : Nat
  w : Nat
  h : Nat
  secs : List Section := []
  nodes : List NodeDesc := []
  groups : List (List Nat) := []
  /-- Its status word is not written: its queue was enabled again since (R294). -/
  noStatus : Bool := false
  feV : Bool := false
  feName : W64 := 0
  feRank : Nat := 0
  st : KSt := .running
  since : Nat := 0
  bypass : Nat := 0
  cause : Nat := 0
  code : Nat := 0
  savedCl : Tab Cluster := []
  savedNd : Tab Node := []
  savedSp : List Host.Cell := []
  savedSr : Tab W64 := []
  /-- What the memory of its context slots held when the image was written (R403). -/
  ctxCells : List Host.Cell := []
  slots : List Nat := []
  frets : List (Nat × Nat × Bool) := []
  /-- Held stopped by a machine fault (R399). -/
  halted : Bool := false
  stTables : List (Nat × W64) := []
deriving DecidableEq, Repr

/-- A launch queue beside its registers (R291, R293, R294, R302): expected SEQ, head age and bypass count, resume
entries oldest first, and records answered or ended whose status word is not yet written: record, status word, next
try. `done` marks records after DONE whose status is written. -/
structure LQueue where
  expect : Option W64 := none
  headAt : Option Nat := none
  bypass : Nat := 0
  resume : List Nat := []
  status : List (Nat × Nat × Nat) := []
  done : List Nat := []
deriving DecidableEq, Repr

/-- A fault record on its way or being served (R386, R395): the faulted node and its kernel. `due` is when a wait for
room at the monitor's queue or for a name ends. -/
structure Rec where
  val : V512
  nk : Nat
  kernel : Nat
  /-- The fault edge along which it goes, as its kernel latched it (R394 to R396): V, NAME, and the partition. -/
  feV : Bool := false
  feName : W64 := 0
  part : Nat := 0
  served : Bool := false
  monitor : Bool := false
  mach : Bool := false
deriving DecidableEq, Repr

/-- A trigger (R314): its sender's cluster, command and node key, its payload, and its command as a fault names it. -/
structure Trig where
  c : Nat
  id : Nat
  nk : Nat
  o : Opnd
  f : Pending
deriving DecidableEq, Repr

/-- What a request of one chip asks of another (R85, R97, R178). -/
inductive Ask where
  | load | store | rmw | check
  /-- read the old value and reserve the granule; then end the reservation, writing the new value or not. -/
  | reserve | endWrite | endDrop
deriving DecidableEq, Repr

/-- A memory request of a node of another chip, or of an engine or a window: who asks, for which chain entry and piece, under which partition, where,
what, the operation and its operands, and what an earlier forward entry granted. -/
structure Rreq where
  chip : Nat
  nk : Nat
  id : Nat
  j : Nat
  gn : Nat := 0
  part : Nat
  va : Nat
  size : Nat
  ask : Ask
  op : Op
  b : Nat := 0
  b2 : Nat := 0
  perm : Option Nat := none
  fwd : Nat := 0
  /-- It precedes, in its invocation's chain, an atomic of its node that holds a reservation (R90). -/
  past : Bool := false
  /-- The place and key slot that an engine of this package found for its request. -/
  key : Option Nat := none
  slot : Option Nat := none
deriving DecidableEq, Repr

/-- A translation that the owner holds for a checked write or a reservation of a node (R85, R348): chip, node, chain entry
and piece, the ASID and address translated, and where it led. -/
structure FarHold where
  chip : Nat
  nk : Nat
  id : Nat
  j : Nat
  asid : Nat
  va : Nat
  pa : Nat
  slot : Nat
deriving DecidableEq, Repr

/-- An RREAD at its owner (R173 to R177): the requester (chip, cluster, command), its partition, the address at the owner,
or the handle and offset, the length, the granules done, the recipients still served (number, chip, cluster, window,
offset), the failure found, and what an earlier forward entry granted. -/
structure Rread where
  chip : Nat
  c : Nat
  id : Nat
  part : Nat
  addr : Nat
  hnd : Option Nat
  /-- The object that the handle was resolved to, with the write right (R363). -/
  obj : Option (Nat × Bool) := none
  len : Nat
  g : Nat := 0
  to_ : List (Nat × Nat × Nat × Nat × Nat) := []
  disp : Bool := false
  bad : Bool := false
  /-- Only granule `g` is asked for: a redirected request (R178). -/
  one : Bool := false
  perm : Option Nat := none
  fwd : Nat := 0
deriving DecidableEq, Repr

/-- A query that is being scored at its store (R267): the 32-byte pieces read, by key, and, once every key tile is read, the
store indexes of the keys selected, whose value rows it reads. -/
structure KScore where
  rd : Tab Nat := []
  sel : Option (List Nat) := none
deriving DecidableEq, Repr

/-- A message between the parts (R323). -/
inductive Msg where
  /-- A freed-slot notice: flume address, slot number, TPS; and the cancelling of the notices at the source (R153, R156). Both
  name the node, and the fault it takes where they are refused (R331). -/
  | notice (fl j tps nk : Nat) (f : Pending)
  | flCancel (fl nk : Nat) (f : Pending)
  | refused (nk : Nat) (f : Pending)
  /-- Slot `j` of a flume: sender's chip, cluster and command, the bytes written already, and those still to write (R153). -/
  | slot (fl j chip c id at_ : Nat) (bs : List Byte)
  /-- A token on a route tag (R168): destination plane, element and port, senders and lane, sender, tag, token. -/
  | tok (pl ix : Nat) (pt : Port) (ns lane chip c id tag : Nat) (o : Opnd)
  /-- A granule of a delivery (R169): window, window offset of the delivery, its length, byte offset of the granule, the
  bytes or none for a null delivery, and who asked. -/
  | win (w off len at_ : Nat) (bs : Option (List Byte)) (chip c id j : Nat)
  /-- An RREAD at its owner; a recipient that refused tells the owner to stop serving it. -/
  | rread (r : Rread)
  | rstop (chip c id j : Nat)
  /-- A member's part of a collective (R179): whose group, its number, episode, the member and its cluster and command, opcode
  and sizes, and its stream once every member has issued. -/
  | coll (key grp e me c id op esz n : Nat) (bs : Option (List Byte))
  /-- A command at a key-match store (R267): the store, the member's rank, the command, of a group query the row and the
  issuing store's configuration (R271), and what a query that is being scored has read. -/
  | kms (st j c : Nat) (m : Cmd) (row : Option (List Byte)) (cfg : V512) (rd : Option KScore)
  /-- A KVINV at a KBTB (R163): sequence, first block, count, who asked, and, once the entries are dropped, the accesses
  (node, chain entry) and commands (4096 + cluster, command) that it waits for. -/
  | kvinv (seq b n c id : Nat) (users : Option (List (Nat × Nat)))
  /-- A recipient's or an owner's answer to the command of an RREAD or COPYR. -/
  | rack (c id j : Nat) (bad : Option (Cause × Nat × Nat)) (chip : Nat)
  /-- Piece `j` of a memory access of node `nk`, chain entry `id`, under generation `gn` (R79). -/
  | acc (nk id gn j : Nat)
  /-- A request of another chip, and the answer to one of this chip: value, or cause with AUX and address. -/
  | rreq (r : Rreq)
  | rrep (nk id j gn v : Nat) (bad : Option (Cause × Nat × Nat)) (chip : Nat)
  /-- A done token (R94). -/
  | done (nk ws it gn ix : Nat)
  /-- A token of an output queue for a node of another cluster (R46, R323). -/
  | qtok (t : Tok)
  /-- A trigger on its way to the shard of a name (R314). -/
  | trig (key : Nat) (t : Trig)
  /-- A message to a plane (R315): its tag, its source (chip, cluster, plane), the sender's command, its payload. -/
  | mesg (pl tag chip c spl id : Nat) (o : Opnd)
  /-- A fault record (R395). -/
  | record (id : Nat)
  /-- A semaphore's increment or setting (R131, R146), with the chain entry of the SEMINC that made it; `flag` sets the
  error flag (R170). -/
  | sem (c sem amt : Nat) (set : Bool) (acc : Option (Nat × Nat)) (flag : Bool)
  /-- A REL on its way to its object's bank (R129). -/
  | rel (nk id : Nat)
  /-- A barrier arrival (R137): cluster of the sync unit, group, count, node, iteration, and the element and age for a
  fault. -/
  | arrive (c grp cnt nk n ix age : Nat)
deriving DecidableEq, Repr

/-- A message on its way, or a packet of one. Places: clusters 0 to 191, slices 192 to 223, the I-die 224, the management core
225; place p of chip k is 512 + 256 k + p. `n` is the number of bytes read or carried (R351); `rd` says that they are read. -/
structure Parcel where
  src : Nat
  dst : Nat
  cls : Nat
  part : Nat := 0
  n : Nat := 0
  rd : Bool := false
  /-- Bytes that earlier packets of the message carry, and whether a later packet follows (R320). -/
  paid : Nat := 0
  more : Bool := false
  /-- The further destinations of a multicast, each with what it gets (R328). -/
  to_ : List (Nat × Msg) := []
  body : Msg
deriving DecidableEq, Repr

/-- What comes from outside the part: the external events that carry data the state does not hold. -/
inductive Input where
  /-- An NVMe completion entry of queue pair `qp` (R167). -/
  | nvme (qp cid status : Nat) (data : List Byte)
  /-- A flit received at a link port (R329), and, with the last flit of a packet, the packet that its payloads carry. -/
  | flit (port : Nat) (w : BitVec 256) (pkt : Option Parcel)
  /-- A soft error corrupts the granule at a memory key (R397). -/
  | softError (key : Nat)
  /-- A soft error corrupts a global register (R397): node key and 0 to 95 for g, v, m. -/
  | globalError (nk r : Nat)
  /-- A soft error corrupts the `k`-th entry of a cluster's matching store, or of a node's spill table, a context word,
  a block cache line (dropped), or the part's own structures that a kernel uses (R397, R399). -/
  | storeError (c k : Nat)
  | spillError (nk k : Nat)
  | ctxError (c k : Nat)
  | lineError (c k : Nat)
  /-- A soft error corrupts a latch of the active set of a cluster's array (R239, R397). -/
  | latchError (c : Nat)
  | metaError (kernel : Nat)
deriving DecidableEq, Repr

/-- What the machine does next. `event` is a step of the machine itself; `issue` lets an element issue a ready set;
`unit` lets an engine unit work on one of its commands; `release` lets a memory interface perform or send an access;
`advance` lets time pass; `evict` lets a cache drop an entry; `input` takes an input from outside. -/
inductive Sched where
  | event (i : Instr)
  | issue (c k : Nat)
  | unit (c u k piece : Nat)
  | release (c p k : Nat)
  | advance (n : Nat)
  | evict (what c k : Nat)
  | input (x : Input)
deriving DecidableEq, Repr, Inhabited

/-- A packet in an input buffer of a router (R324 to R327): when its header can be sent, its ageing counter, its flits, those
that have come in and when the last of them can be sent, those sent, the channels it comes and goes on, and whether it goes in
reserved slots. -/
structure RPkt where
  m : Parcel
  at_ : Nat
  cnt : Nat := 0
  len : Nat
  inn : Nat
  last : Nat
  out : Nat := 0
  ich : Nat := 0
  och : Nat := 0
  circ : Bool := false
deriving DecidableEq, Repr

/-- A router (R320 to R327): input buffers by port, oldest first, and the branch copies of multicasts, by 64 × (egress port + 1)
+ input port; per egress port the buffers whose packets are open, the innermost first, and the cycle after its last flit. The I-die
and the ingress of each cluster, slice and controller have the same form. -/
structure Router where
  bufs : Tab (List RPkt) := []
  opens : Tab (List Nat) := []
  last : Tab Nat := []
deriving DecidableEq, Repr

/-- A flit in a retry buffer (R330): its SEQ, channel tag and payload, and the packet that it ends. -/
structure LFlit where
  seq : Nat
  ch : Nat
  pay : BitVec 224
  m : Option Parcel := none
deriving DecidableEq, Repr

/-- A Steush Link port (R329 to R332): the next SEQ to send, the flits not acknowledged, how many of them are to be replayed, the
next SEQ expected, the channels on which packets come in, the acknowledgments owed (negative or not, SEQ), the flit sent last, and
the slot table in force with the one to come and its first cycle. -/
structure Link where
  tx : Nat := 0
  retry : List LFlit := []
  replay : Nat := 0
  rx : Nat := 0
  rxOpen : List Nat := []
  acks : List (Bool × Nat) := []
  wire : Option (BitVec 256) := none
  tab : List W64 := []
  tabNew : Option (Nat × List W64) := none
deriving DecidableEq, Repr

/-- A headgate's bucket of a partition on a die (R351, R352). -/
structure Headgate where
  level : Int := 0
  charged : Bool := false
deriving DecidableEq, Repr

/-- For whom an NVMe command runs: a KV block load, or an engine command (cluster and command). -/
inductive NvOwner where
  | load (id : Nat)
  | cmd (c id : Nat)
deriving DecidableEq, Repr

/-- How an NVMe command fails: the cause, AUX, and the chip and address of a failure at another chip. -/
structure NvBad where
  cause : Cause
  aux : Nat := 0
  far : Option (Nat × Nat) := none
deriving DecidableEq, Repr

/-- A submitted NVMe command (R167); `late` once it timed out. -/
structure NvCmd where
  qp : Nat
  cid : Nat
  owner : NvOwner
  job : NvJob
  start : Nat
  late : Bool := false
  /-- Pieces at another chip that it reads or writes and that are not answered, the first failure among them, and, once its
  completion entry has come, what that says (R178). -/
  far : Nat := 0
  farBad : Option NvBad := none
  ended : Option (Option NvBad) := none
deriving DecidableEq, Repr

/-- Where a KV block load stands (R160): waiting for a frame, reading the LBAs, or, where the block table or the landing ring lies
behind a forward entry (R178), asking the holder: for the entry (`look`), for step 1's swap (`claim`), for HEAD and TAIL, for HEAD's
increment (`take`), for the frame's word (`slot`), and for the last swap (`back`). -/
inductive KvSt where
  | ring | reading | look | claim | head | tail | take | slot | back
deriving DecidableEq, Repr

/-- A KV block load (R160): the cluster, the sequence's partition, sequence and block, the old entry's LOC, the frame, or HEAD while
TAIL is asked for, the jobs not yet submitted and how many are outstanding, and the first failure (cause, AUX). -/
structure KvLoad where
  c : Nat
  part : Nat
  seq : Nat
  b : Nat
  old : Nat
  st : KvSt := .ring
  since : Nat := 0
  frame : Nat := 0
  todo : List NvJob := []
  out : Nat := 0
  fail : Option (Cause × Nat) := none
deriving DecidableEq, Repr

/-! ### The directory (R361 to R375) -/

/-- What a name is bound to (R361): an object, or a callable node with a payload element (R313). -/
inductive NameB where
  | obj (id : Nat)
  | handler (kernel nk ix : Nat)
deriving DecidableEq, Repr

/-- An object (R362): its range, layout, format, rights and reclamation fields, the binder's partition and ASID, the open
count, and whether a name is bound to it. -/
structure Obj where
  /-- The name that its descriptor gave (R362); its shard is that of slice `name % 32` (R361). -/
  name : Nat := 0
  ws : Bool
  cl : Nat
  base : Nat
  size : Nat
  layout : W64
  wr : Bool
  fmt : Nat
  sv : Bool
  scl : Nat
  sem : Nat
  flva : Nat
  part : Nat
  asid : Nat
  opens : Nat := 0
  bound : Bool := true
  /-- Reclamation in progress: waiting for room in the ring since a time (R370). -/
  ring : Option Nat := none
deriving DecidableEq, Repr

/-- Who waits for a name (R369, R314, R395): a NOPEN (cluster and command), a trigger (its sender's cluster, command and
payload), or a fault record. -/
inductive WaitFor where
  | nopen (c id : Nat)
  | trigger (t : Trig)
  | record (id : Nat)
deriving DecidableEq, Repr

/-- The directory: names by `partition × 2^64 + name`, objects, handles by `ASID × 4096 + handle` with the write right,
and waiters in order of arrival. -/
structure Directory where
  names : Tab NameB := []
  objs : Tab Obj := []
  handles : Tab (Nat × Bool) := []
  waits : List (Nat × WaitFor) := []
deriving DecidableEq, Repr

/-- A TINV not acknowledged by all its holders (R348, R357): its number, its node, partition and ASID, its first page and
count (none: every page), and the holders left. -/
structure Tinv where
  id : Nat
  nk : Nat
  part : Nat
  asid : Nat
  pages : Option (Nat × Nat)
  left : List Nat
deriving DecidableEq, Repr

/-- A TSYNC or a KEYSET whose place is not filled (R358, R360): its node, its place and what will fill it; the TINVs it waits
for are those numbered below `upto`; the slot and what it takes. -/
structure Tsync where
  nk : Nat
  age : Nat
  place : Option (Nat × Nat)
  o : Opnd
  upto : Nat
deriving DecidableEq, Repr
structure Kset where
  nk : Nat
  age : Nat
  place : Option (Nat × Nat)
  o : Opnd
  slot : Nat
  val : Option V512
deriving DecidableEq, Repr

/-- What happens next, what is being run, and the count of free values taken (assumptions 1 and 2). -/
structure SchedSt where
  agenda : List Sched := []
  cur : Option Issue := none
  fresh : Nat := 0
deriving DecidableEq, Repr

/-- What memory holds beside its bytes: granules with an uncorrectable error (R86, R397), the key material each HBM or
CXL granule was last written under (R350; unlisted or none: the platform key), and granules reserved by a returning
atomic (R97): granule key, node key, chain entry. -/
structure MemSt where
  bad : List Nat := []
  gkey : Tab (Option V512) := []
  resv : List (Nat × Nat × Nat) := []
  /-- Capacity in bytes of each CXL port (R16). -/
  cxl : Tab Nat := []
deriving DecidableEq, Repr

/-- The machine's state. -/
structure State where
  now : Nat := 0
  sched : SchedSt := {}
  mem : List Host.Cell := []
  memx : MemSt := {}
  sr : Tab W64 := []
  keys : Tab (Option V512) := []
  tlb : Tab (List TEnt) := []
  clusters : Tab Cluster := []
  nodes : Tab Node := []
  /-- Packets at their source ports, and messages that have crossed the network and wait to take effect. -/
  ports : Tab (List Parcel) := []
  inbox : List Parcel := []
  routers : Tab Router := []
  links : Tab Link := []
  /-- By copy × 2048 + number of a register that software wrote: the cycle of the last write, and its writer's place among the
  writers of one cycle, or one past them all once it was read after the write (R431). -/
  srSeen : Tab (Nat × Nat) := []
  /-- Headgates by die × 64 + partition; per die the budget of its last refill and the number of the next window. -/
  gates : Tab Headgate := []
  gateB : Tab Nat := []
  gateWin : Tab Nat := []
  /-- RATE and DEPTH that the power controller has set and the next leak applies, and that leak's window (R333). -/
  sluice : Tab (Nat × Nat) := []
  sluiceWin : Tab Nat := []
  /-- How far each of the 32 islands stands below its nominal setting (R17 to R19; assumption 56). -/
  islands : Tab Nat := []
  kernels : Tab Kernel := []
  queues : Tab LQueue := []
  recs : Tab Rec := []
  /-- What came from outside and was not yet acted on. -/
  inputs : List Input := []
  nv : List NvCmd := []
  kvl : Tab KvLoad := []
  dir : Directory := {}
  faultSeq : Tab Nat := []
  /-- TINVs, TSYNCs and KEYSETs in progress, and the number of the next TINV. -/
  tinvs : List Tinv := []
  /-- Translations held for other chips' checked writes (R85). -/
  farHolds : List FarHold := []
  tinvNext : Nat := 0
  tsyncs : List Tsync := []
  ksets : List Kset := []
  /-- The thermal trip is latched (R425). -/
  tripped : Bool := false
  /-- A warm reset runs: its boot is not done (R419, R422). -/
  warm : Bool := false
  /-- The last report signed, with its signature (R423). -/
  signed : List Byte := []
  /-- What the host's last BAR2 read returned: none for Completer Abort (R416). -/
  bar2 : Option (List Byte) := none
  /-- The cycle of each die's next admission interval (R300), and the head for which its Weir admits nothing else (R302): its
  queue, and its kernel or its record's number. -/
  weirNext : Tab Nat := []
  weirHold : Tab (Nat × Option Nat × Nat) := []
  /-- The number of the next kernel. -/
  kernNext : Nat := 0
  /-- Records at the management core, in order of arrival (R421): the first 256 are its queue. -/
  monQ : List Nat := []
  /-- The chip-group tables as last loaded (R48): partition, entry, chips ascending. -/
  cgrp : Tab (Tab (List Nat)) := []
  /-- Episodes of chip-group collectives issued by this chip (R179), by partition × 256 + group. -/
  collChip : Tab Nat := []
  /-- Episodes of collectives one of whose members failed: kernel, group, episode. -/
  collBad : List (Nat × Nat × Nat) := []
  /-- The number of the next command of the storage unit (R140). -/
  storNext : Nat := 0
deriving DecidableEq, Repr

/-- Why the model stops where the machine would go on or nothing is known. -/
inductive Fault where
  /-- Raised by `step`: the agenda names an element whose context word decodes to no instruction. No run reaches it,
  because mapping refuses such a word (R56). Safe. -/
  | badContextWord
deriving DecidableEq, Repr

/-- Why the model gives a step no meaning. -/
inductive Refusal where
  /-- Raised by `exec`: the instruction has no meaning in this model yet. Safe. -/
  | notModelled (mnemonic : String)
deriving DecidableEq, Repr

/-- The machine right after reset: nothing is listed, so every register holds its reset value (`srReset`), memory its
reset contents, every node is unassigned and every queue empty. -/
def State.reset : State := {}

end Sys2Proof.Machine
end

