-- ==== Sys2Proof/Machine/Ops.lean ====
section
/-!
DEFINITION. The named operations over the state that every meaning uses: system registers, memory bytes, nodes and
invocations, sending a token, reporting an effect, and taking a fault and returning from one (R386 to R393, R409).
-/

namespace Sys2Proof.Machine

/-- The answer of a meaning. -/
abbrev Out := Host.Outcome State Fault Refusal

/-! ### Lists in order -/

/-- Inserts by an order. -/
def insertBy {α : Type} (lt : α → α → Bool) (x : α) : List α → List α
  | [] => [x]
  | e :: es => if lt x e then x :: e :: es else e :: insertBy lt x es

/-- Sorts by an order; equal entries keep theirs. -/
def sortBy {α : Type} (lt : α → α → Bool) (l : List α) : List α := l.foldl (fun a x => insertBy lt x a) []

/-! ### Places of the network (R321, R331) -/

/-- Place `p` of chip `chip`, as seen from another chip: its I-die (224) and the clusters and slices behind it. -/
def farPlace (chip p : Nat) : Nat := 512 + 256 * chip + p

/-- The place a location key's granule is atomic at (R80 to R83): cluster number, 192 + slice, 224 for the I-die, or the
I-die of another chip. -/
def placeOf (k : Nat) : Nat :=
  if k ≥ 2 ^ 60 then farPlace ((k - 2 ^ 60) / 2 ^ 52) 224
  else if k ≥ 2 ^ 53 then (k - 2 ^ 53) / 2 ^ 21
  else if k ≥ 2 ^ 52 then 192 + bits (k - 2 ^ 52) 12 5
  else if k ≥ 0xffff000000000 then (k - 0xffff000000000) / 0x400000
  else if k < 0x8000000000 then 192 + 4 * (k / 0x1000000000) + bits k 12 2
  else 224

/-- Puts a message into the network, or, at its own place, straight where it takes effect. -/
def State.post (s : State) (m : Parcel) : State :=
  if m.src = m.dst then { s with inbox := s.inbox ++ [m] }
  else { s with ports := Tab.mod [] s.ports m.src (· ++ [m]) }

/-- Who asks another place for memory: a node by its key below 4096, then, by numbers whose remainder by 4096 is their place, an
engine's command, a window's delivery, a gather engine's block load and the storage unit (R178). -/
def dlvParty : Nat := 8192
def kvParty : Nat := 12288
def nvParty : Nat := 16384 + 224

/-! ### System registers (R429) -/

/-- The reset value of register `n` (R429). SELF is computed where it is read. -/
def srReset (n : Nat) : W64 :=
  match n with
  | 0x044 => 0x100000
  | 0x060 => 8
  | 0x061 => 0x10000
  | 0x068 => 0x1000100
  | 0x0a4 => 0x5f6e
  | 0x0a5 => 2500
  | 0x0fc => 0x17d784
  | 0x300 => 0xc000000000000000
  | _ => 0

/-- Which copies of a register there are (R429). -/
inductive HeldPer where
  | node | cluster | die | partition | package
deriving DecidableEq, Repr

/-- "Held per" of register `n` (R429). -/
def heldPer (n : Nat) : HeldPer :=
  if n ≤ 0x4f || (0xd0 ≤ n && n ≤ 0xd7) || n = 0xc9 then .node
  else if 0x50 ≤ n && n ≤ 0x52 then .partition
  else if n = 0x62 || n = 0x63 then .partition
  else if n = 0x68 || (0x500 ≤ n && n ≤ 0x51f) then .cluster
  else if 0x520 ≤ n && n ≤ 0x59f then .die
  else .package

/-- The copy a party of cluster `c`, plane `p` and partition `part` reaches. -/
def srCopy (n c p part : Nat) : Nat :=
  match heldPer n with
  | .package => 0
  | .die => 1 + c / 96
  | .cluster => 8 + c
  | .node => 256 + (c * 8 + p)
  | .partition => 4096 + part

/-- Register `n` of a copy. -/
def srGet (s : State) (copy n : Nat) : W64 := Tab.get (srReset n) s.sr (copy * 2048 + n)

/-- Sets register `n` of a copy. -/
def srSet (s : State) (copy n : Nat) (v : W64) : State :=
  { s with sr := Tab.putD (srReset n) s.sr (copy * 2048 + n) v }

/-- A package register. -/
def pkg (s : State) (n : Nat) : W64 := srGet s 0 n

/-- A node register. -/
def nodeReg (s : State) (nk n : Nat) : W64 := srGet s (256 + nk) n

/-- Sets a node register. -/
def setNodeReg (s : State) (nk n : Nat) (v : W64) : State := srSet s (256 + nk) n v

/-- A partition register. -/
def partReg (s : State) (p n : Nat) : W64 := srGet s (4096 + p) n

/-- `n` bits of a register from bit `lo`. -/
def rbits (v : W64) (lo n : Nat) : Nat := bits v.toNat lo n

/-- PT_CFG.V and PRIV of a partition (R339). -/
def partValid (s : State) (p : Nat) : Bool := rbits (pkg s (0x300 + 8 * p)) 63 1 = 1
def partPriv (s : State) (p : Nat) : Nat := rbits (pkg s (0x300 + 8 * p)) 61 2

/-- CHIP_ID (R425). -/
def chipId (s : State) : Nat := rbits (pkg s 0xa0) 0 12

/-- Adds to the counters, in the given copies, that count event `ev` for a partition (R354). -/
def countAt (s : State) (part : Nat) (copies : List Nat) (ev amt : Nat) : State :=
  s.sr.foldl (fun s e =>
    let copy := e.1 / 2048
    let n := e.1 % 2048
    if copies.contains copy && 0x500 ≤ n && n ≤ 0x5df && n % 2 = 0 && rbits e.2 63 1 = 1 && rbits e.2 0 8 = ev
        && rbits e.2 50 6 = part then
      srSet s copy (n + 1) (srGet s copy (n + 1) + BitVec.ofNat 64 amt)
    else s) s

/-- Counts an event of a partition in cluster `c`, its die and the package. -/
def countEvent (s : State) (part c ev amt : Nat) : State := countAt s part [8 + c, 1 + c / 96, 0] ev amt

/-! ### Memory bytes -/

/-- What a byte that nothing has written reads as (assumption 4). -/
def memDefault : Byte := 0

/-- Keys of memory: a physical address (R14) for HBM, CXL and the weight store; CSM and scratchpads have ranges of
their own above the 52-bit space. -/
def csmKey (off : Nat) : Nat := 2 ^ 52 + off
def spKey (c off : Nat) : Nat := 2 ^ 53 + c * 2 ^ 21 + off
def wsKey (c off : Nat) : Nat := 0xffff000000000 + c * 0x400000 + off

/-- One byte of memory. -/
def memGet (s : State) (k : Nat) : Byte := Tab.get memDefault s.mem k

/-- Writes one byte, keeping the canonical form. -/
def memPut (s : State) (k : Nat) (b : Byte) : State := { s with mem := Tab.putD memDefault s.mem k b }

/-- The canonical form of memory. -/
def Memory.wf (m : List Host.Cell) : Bool := Tab.wf memDefault m

/-- The number held in `n` bytes from key `k`, little-endian (R2). -/
def memRead (s : State) (k : Nat) : Nat → Nat
  | 0 => 0
  | n + 1 => (memGet s k).toNat + 256 * memRead s (k + 1) n

/-- Writes the `n` low bytes of `v` from key `k`, little-endian (R2). -/
def memWrite (s : State) (k v : Nat) : Nat → State
  | 0 => s
  | n + 1 => memWrite (memPut s k (BitVec.ofNat 8 v)) (k + 1) (v / 256) n

/-- The bytes from key `k`. -/
def memBytes (s : State) (k n : Nat) : List Byte := (List.range n).map fun i => memGet s (k + i)

/-- Writes a list of bytes from key `k`. -/
def memWriteBytes (s : State) (k : Nat) : List Byte → State
  | [] => s
  | b :: bs => memWriteBytes (memPut s k b) (k + 1) bs

/-- The granule of a key (R124): 32 bytes in a scratchpad or the weight store, 64 elsewhere. -/
def granule (k : Nat) : Nat :=
  if (2 ^ 53 ≤ k && k < 2 ^ 60) || (0xffff000000000 ≤ k && k < 2 ^ 52) then k / 32 * 32 else k / 64 * 64

/-! ### Clusters, nodes and invocations -/

def nkOf (c p : Nat) : Nat := c * 8 + p

def State.cl (s : State) (c : Nat) : Cluster := Tab.get {} s.clusters c
def State.setCl (s : State) (c : Nat) (x : Cluster) : State := { s with clusters := Tab.put s.clusters c x }
def State.modCl (s : State) (c : Nat) (f : Cluster → Cluster) : State := s.setCl c (f (s.cl c))

def State.nd (s : State) (nk : Nat) : Node := Tab.get {} s.nodes nk
def State.setNd (s : State) (nk : Nat) (x : Node) : State := { s with nodes := Tab.put s.nodes nk x }
def State.modNd (s : State) (nk : Nat) (f : Node → Node) : State := s.setNd nk (f (s.nd nk))

/-- The node of an issue. -/
def Issue.nk (i : Issue) : Nat := nkOf i.c i.p

/-- The invocation in window slot `ws` with IT `it`. -/
def Node.inv (n : Node) (ws it : Nat) : Option Inv := n.invs.find? fun i => i.ws = ws && i.it = it

/-- Changes the invocation in window slot `ws` with IT `it`. -/
def State.modInv (s : State) (nk ws it : Nat) (f : Inv → Inv) : State :=
  s.modNd nk fun n => { n with invs := modFirst (fun i => i.ws = ws && i.it = it) f n.invs }

/-- The invocation that an issue belongs to. -/
def State.invOf (s : State) (i : Issue) : Option Inv := (s.nd i.nk).inv i.ws i.it

/-- The partition, ASID and kernel of a node. -/
def Node.part (n : Node) : Nat := (n.asg.map (·.part)).getD 0
def Node.asid (n : Node) : Nat := (n.asg.map (·.asid)).getD 0
def Node.kernel (n : Node) : Option Nat := n.asg.map (·.kernel)

/-- The node is callable (R304). -/
def Node.callable (n : Node) : Bool := (n.asg.map (·.cal)).getD false

/-- No commit of the node has anything left to do. -/
def Node.actsDone (n : Node) : Bool := n.acts.isEmpty && n.parked.isEmpty

/-- No older invocation of the node is in flight or committing (R36, R38, R310). -/
def Node.oldest (n : Node) (age : Nat) : Bool :=
  n.callable || (n.invs.all (fun i => age ≤ i.age) && n.acts.isEmpty)

def State.kern (s : State) (k : Nat) : Option Kernel := Tab.find s.kernels k
def State.setKern (s : State) (k : Nat) (x : Kernel) : State := { s with kernels := Tab.put s.kernels k x }
def State.modKern (s : State) (k : Nat) (f : Kernel → Kernel) : State :=
  match s.kern k with
  | none => s
  | some x => s.setKern k (f x)

/-- Takes the next free value's index (assumption 2). -/
def State.takeFresh (s : State) : State := { s with sched := { s.sched with fresh := s.sched.fresh + 1 } }

/-! ### Tokens -/

/-- The 64-bit header of a token to cluster `cl` (R27). -/
def Kd.code : Kd → Nat
  | .data => 0 | .predicate => 1 | .done => 2 | .null => 3 | .reply => 4 | .query => 5 | .fire => 6 | .reserved => 7

def Val.isVec : Val → Bool
  | .sc _ => false
  | .vec _ => true

/-- The header of R27. -/
def Tok.header (cl : Nat) (t : Tok) : W64 :=
  BitVec.ofNat 64 (cl * 2 ^ 56 + t.pl * 2 ^ 53 + t.ix * 2 ^ 46 + t.pt.code * 2 ^ 44 + t.ws * 2 ^ 39 + t.it * 2 ^ 23
    + t.kd.code * 2 ^ 20 + t.gn * 2 ^ 16 + t.rt * 2 ^ 8 + t.o.val.isVec.toNat * 2 ^ 7 + t.o.ns.toNat * 2 ^ 6
    + t.o.em.toNat * 2 ^ 5 + t.o.er.toNat * 2 ^ 4)

/-- Bit 0 of a payload, or of its lane 0 (R59). -/
def Val.bit0 : Val → Bool
  | .sc v => v.getLsbD 0
  | .vec v => v.getLsbD 0

/-- A scalar operand with no status. -/
def Opnd.ofNat (n : Nat) : Opnd := { val := .sc (BitVec.ofNat 64 n) }

/-- A null operand with the error status. -/
def Opnd.nullEr : Opnd := { null := true, er := true }

/-- The kind and payload with which a result enters port `pt` (R59): a predicate on port P, else kind `kd`. -/
def arriveAs (pt : Port) (kd : Kd) (o : Opnd) : Kd × Opnd :=
  if o.null then (.null, o)
  else if pt = .p then (.predicate, { o with val := .sc (if o.val.bit0 then 1 else 0) })
  else (kd, o)

/-- Puts a token into a cluster's input stage (R22). -/
def State.pushTok (s : State) (c : Nat) (t : Tok) : State := s.modCl c fun x => { x with input := x.input ++ [t] }

/-- Sends a value to an element of the issuing plane, under a window slot and an IT (R59). -/
def State.sendSlot (s : State) (c p ix ws it : Nat) (pt : Port) (kd : Kd) (o : Opnd) : State :=
  let a := arriveAs pt kd o
  s.pushTok c { pl := p, ix := ix, pt := pt, ws := ws, it := it, kd := a.1, gn := (s.nd (nkOf c p)).gn, o := a.2 }

/-- `Send(t, v)` of R68 and R59. A queue target holds the token until commit (R39). -/
def State.send (s : State) (i : Issue) (t : Target) (kd : Kd) (o : Opnd) : State :=
  match t with
  | .none => s
  | .glob _ _ => s
  | .slot ix pt => s.sendSlot i.c i.p ix.toNat i.ws i.it pt kd o
  | .queue q => s.modInv i.nk i.ws i.it fun v => { v with held := v.held ++ [.qtok i.ix q.toNat o] }

/-- An effect instruction reports: performed or absorbed (R39). -/
def State.report (s : State) (i : Issue) (performed : Bool) : State :=
  s.modInv i.nk i.ws i.it fun v => { v with reports := v.reports ++ [(i.ix, performed)] }

/-- Holds an effect until commit (R39). -/
def State.hold (s : State) (i : Issue) (h : Held) : State :=
  s.modInv i.nk i.ws i.it fun v => { v with held := v.held ++ [h] }

/-! ### Cause codes (R389) -/

def causeCode : Cause → Nat
  | .badBlockHeader => 0x01 | .unassignedOpcode => 0x02 | .wrongElementKind => 0x03 | .reservedFieldNonzero => 0x04
  | .reservedCode => 0x05 | .tokenToEmptyElement => 0x06 | .duplicateTarget => 0x07 | .unwiredQueue => 0x08
  | .literalPastBlock => 0x09 | .countMismatch => 0x0a | .fetchTranslation => 0x0b | .fetchPermission => 0x0c
  | .fetchUncorrectable => 0x0d | .badBlockAddress => 0x0e | .tokenToIdlePlane => 0x10 | .portMismatch => 0x11
  | .duplicateOperand => 0x12 | .errorOperand => 0x13 | .widthMismatch => 0x14 | .badDestination => 0x15
  | .doubleExit => 0x16 | .noExit => 0x17 | .watchdog => 0x18 | .spillTableExhausted => 0x19
  | .tagPoolDeadlock => 0x1a | .doubleReturn => 0x1b | .floatException => 0x1c | .trap => 0x1d | .breakpoint => 0x1e
  | .noFaultRecord => 0x1f | .misaligned => 0x20 | .addressOutOfRange => 0x21 | .translation => 0x22
  | .permission => 0x23 | .key => 0x24 | .privilege => 0x25 | .weightStoreAccess => 0x26 | .ownerViolation => 0x27
  | .uncorrectableError => 0x28 | .kvBlockInvalid => 0x29 | .forwardLimit => 0x2a | .badSyncObject => 0x2b
  | .syncScope => 0x2c | .barrierMismatch => 0x2d | .patternMismatch => 0x30 | .badPattern => 0x31
  | .flumeState => 0x32 | .handleBound => 0x33 | .nvmeError => 0x34 | .nvmeTimeout => 0x35 | .routeTag => 0x36
  | .routeRefused => 0x37 | .windowState => 0x38 | .windowRefused => 0x39 | .collectiveMismatch => 0x3a
  | .arrayFormat => 0x3b | .storeState => 0x3c | .badMask => 0x3d | .nanScore => 0x3e | .linkDown => 0x3f
  | .badSection => 0x40 | .messageOverflow => 0x41 | .badHandle => 0x42 | .handleLimit => 0x43 | .nameBound => 0x44
  | .directoryFull => 0x45 | .nameRecord => 0x46 | .nameUnbound => 0x47 | .nameKind => 0x48 | .nameWaitLimit => 0x49
  | .groupOverflow => 0x4a | .handlerEnded => 0x4b | .contextSaveError => 0x50 | .contextRestoreError => 0x51
  | .metadataUncorrectable => 0x52 | .thermalTrip => 0x53

/-! ### Taking a fault -/

/-- Of two faults of one invocation in one cycle, that of the lower element is reported (R390). -/
def Pending.lowerIx (f g : Pending) : Bool :=
  f.age = g.age && f.at_ = g.at_ && match f.ix, g.ix with | some i, some j => decide (i < j) | _, _ => false

/-- The node detects a fault (R40, R390): it stops starting invocations. The older of two faults is the one reported; of two of one
age, the one detected first, and of those the one of the lowest element. -/
def State.raise (s : State) (nk : Nat) (f : Pending) : State :=
  s.modNd nk fun n =>
    let st := if n.st = .running || n.st = .mapping then .draining else n.st
    let f := { f with at_ := s.now }
    match n.pend with
    | none => { n with pend := some f, stop := true, st := st }
    | some g => if (f.age < g.age && !n.callable) || f.lowerIx g then { n with pend := some f } else n

/-- An invocation faults on the element that issues. -/
def State.faultOp (s : State) (i : Issue) (op : Option Op) (c : Cause) (f : Pending → Pending := id) : State :=
  match s.invOf i with
  | none => s
  | some v =>
    let p : Pending :=
      { cause := c, n := v.n, ws := v.ws, age := v.age, ix := some i.ix
        opc := (op.map Op.code).getD 0, sub := (op.bind Op.sel).getD 0 }
    s.raise i.nk (f p)

/-- The fault of an instruction's own issue. -/
def State.fault (s : State) (i : Issue) (op : Op) (c : Cause) (f : Pending → Pending := id) : State :=
  s.faultOp i (some op) c f

/-- A command fails after issue: the node takes the engine fault between two commits (R144). -/
def State.engFault (s : State) (nk : Nat) (f : Pending) : State :=
  s.modNd nk fun n => { n with engFaults := n.engFaults ++ [{ f with eng := true, at_ := s.now }] }

/-- The same for a command whose kernel may have gone from the node since: in its image, or not at all (R144, R401). -/
def State.engFaultOf (s : State) (nk : Nat) (f : Pending) : State :=
  match f.k with
  | none => s.engFault nk f
  | some k =>
    if (s.nd nk).kernel = some k then s.engFault nk f
    else
      let add (n : Node) : Node := { n with engFaults := n.engFaults ++ [{ f with eng := true, at_ := s.now }] }
      { s with kernels := s.kernels.map fun (e : Nat × Kernel) =>
        if e.1 = k then (e.1, { e.2 with savedNd := e.2.savedNd.map fun (d : Nat × Node) => if d.1 = nk then (nk, add d.2) else d })
        else e }

/-- The latched handler rank of a node's kernel (R394). -/
def State.rankOf (s : State) (nk : Nat) : Nat :=
  match (s.nd nk).kernel.bind s.kern with
  | none => 0
  | some k => k.feRank

/-- The words of a fault record (R386). `rst` and `blk` say where a resume continues. -/
def recordWords (s : State) (nk : Nat) (f : Pending) (rst blk seq : Nat) : List Nat :=
  let n := s.nd nk
  let w0 := (f.chip.getD (chipId s)) * 2 ^ 52 + (nk / 8) * 2 ^ 44 + (nk % 8) * 2 ^ 41 + n.part * 2 ^ 35
    + ((n.asg.map (·.num)).getD 0x7ff) * 2 ^ 24 + n.gn * 2 ^ 20 + s.rankOf nk * 2 ^ 17 + f.eng.toNat * 2 ^ 16
    + f.map.toNat * 2 ^ 15 + f.trp.toNat * 2 ^ 14 + f.drn.toNat * 2 ^ 13 + f.spc * 2 ^ 9 + causeCode f.cause
  let w1 := (match f.ix with | none => 2 ^ 63 | some i => i * 2 ^ 56) + f.ws * 2 ^ 51 + blk / 64
  let w5 := if f.ix.isNone then f.x else f.opc * 2 ^ 56 + f.sub * 2 ^ 52 + f.x
  [w0, w1, rst * 2 ^ 32 + f.n, f.va, f.aux, w5, seq, f.at_]

/-- Eight words as a vector payload. -/
def packWords (ws : List Nat) : V512 :=
  BitVec.ofNat 512 ((List.range 8).foldl (fun a i => a + (ws.getD i 0) % 2 ^ 64 * 2 ^ (64 * i)) 0)

/-- Word `k` of a vector payload. -/
def wordOf (v : V512) (k : Nat) : W64 := v.extractLsb' (64 * k) 64

/-- Forms the record (R386, R388, R390): the node's fault registers hold it, the partition's sequence steps, and it is
sent on its way (R395). -/
def State.formRecord (s : State) (nk : Nat) (f : Pending) (rst blk : Nat) : State :=
  let part := (s.nd nk).part
  let seq := Tab.get 0 s.faultSeq part
  let ws := recordWords s nk f rst blk seq
  let id := Tab.nextKey s.recs
  let s := (List.range 8).foldl (fun s k => setNodeReg s nk (0xd0 + k) (BitVec.ofNat 64 (ws.getD k 0))) s
  let k := ((s.nd nk).kernel).getD 0
  let e := s.kern k
  let r : Rec :=
    { val := packWords ws, nk := nk, kernel := k, feV := (e.map (·.feV)).getD false, feName := (e.map (·.feName)).getD 0
      part := part }
  { s with
    faultSeq := Tab.put s.faultSeq part ((seq + 1) % 2 ^ 64)
    recs := Tab.put s.recs id r
    inbox := s.inbox ++ [{ src := nk / 8, dst := 225, cls := 3, part := part, body := .record id }] }

/-- The plane's generation may step: nothing outstanding carries the next value (R25). -/
def Node.genFree (n : Node) : Bool := Tab.get 0 n.outst ((n.gn + 1) % 16) = 0

/-- Steps the generation (R25). -/
def Node.stepGen (n : Node) : Node := { n with gn := (n.gn + 1) % 16 }

/-- Takes back the deliveries by place made to dropped invocations (R392). -/
def Node.untake (n : Node) (dropped : List Inv) : Node :=
  let takes := dropped.flatMap (·.takes)
  { n with taken := takes.foldl (fun t e => Tab.mod 0 t e.1 (fun k => min k e.2)) n.taken }

/-- A producer's queue tokens that were delivered to dropped invocations of node `nk` wait again (R392). -/
def Node.undeliver (n : Node) (nk : Nat) (dropped : List Inv) : Node :=
  let back (q : QTok) : QTok :=
    match n.wires.find? (fun w => w.q = q.q) with
    | some w =>
      if w.nk = nk && dropped.any (fun i => i.takes.any (fun t => t.1 = w.ix * 4 + w.pt.code && t.2 = q.place)) then
        { q with dlv := false }
      else q
    | none => q
  { n with outq := n.outq.map back }

/-! ### Tag pools (R49, R310) -/

/-- The lowest free tag. -/
def Node.freeTag (n : Node) : Option Nat := (List.range 32).find? fun t => (Tab.find n.tags t).isNone

/-- The number of the next tag taken, in order. -/
def Node.tagOrd (n : Node) : Nat := n.tags.foldl (fun m (e : Nat × Spawn) => max m (e.2.ord + 1)) 0

/-- A spawn takes the lowest free tag; a node with none is unchanged. -/
def Node.takeTag (n : Node) (sp : Spawn) : Node :=
  match n.freeTag with
  | none => n
  | some t => { n with tags := Tab.put n.tags t { sp with ord := n.tagOrd } }

/-- A tag returns, and the oldest waiter takes it (R49). -/
def State.poolReturn (s : State) (nk t : Nat) : State :=
  s.modNd nk fun n =>
    let n : Node := { n with tags := Tab.del n.tags t }
    match n.waitSpawn with
    | [] => n
    | sp :: rest => ({ n with waitSpawn := rest } : Node).takeTag sp

/-- The tags that a discarded invocation of node `nk` had taken for its SPAWNs (R49, R311): those of its own pool stay with
its tag, the others return. -/
def State.untag (s : State) (nk : Nat) (v : Inv) : State :=
  let own := (v.tags.filter fun t => t.1 = nk).map (·.2)
  let s := if own.isEmpty then s else s.modNd nk fun n =>
    match Tab.find n.tags v.n with
    | none => n
    | some sp => { n with tags := Tab.put n.tags v.n { sp with kept := own } }
  (v.tags.filter fun t => t.1 != nk).foldl (fun s t => s.poolReturn t.1 t.2) s

/-- One more request outstanding under a generation, or one less (R25): each message of an access counts until its answer,
and each reply token until it arrives. -/
def State.outAdd (s : State) (nk gn : Nat) : State := s.modNd nk fun n => { n with outst := Tab.mod 0 n.outst gn (· + 1) }
def State.outSub (s : State) (nk gn : Nat) : State := s.modNd nk fun n => { n with outst := Tab.mod 0 n.outst gn (· - 1) }

/-- Reply tokens that go before they arrive no longer count (R25). -/
def State.dropReplies (s : State) (c : Nat) (ts : List Tok) : State :=
  (ts.filter fun t => t.kd = .reply).foldl (fun s t => s.outSub (nkOf c t.pl) t.gn) s

/-- A memory word with no fields. -/
def MWord.blank : MWord :=
  { prd := .always, sz := 0, asp := .sp, mode := .rnd, scope := .nd, t0 := .none, dt := 0, seq := 0, prev := 0, next := 0
    sbw := none }

/-- The opcode and the fields of an access. -/
def Acc.op (a : Acc) : Op := (a.instr.view.map (·.1)).getD .mnop
def Acc.w (a : Acc) : MWord :=
  match a.instr.view with
  | some (_, .m w) => w
  | _ => MWord.blank

/-- Bytes of a size code (R63). -/
def szBytes (sz : Nat) : Nat :=
  match sz with
  | 0 => 1 | 1 => 2 | 2 => 4 | 3 => 8 | 4 => 32 | _ => 64

def opLoad (o : Op) : Bool := o = .ld || o = .ldv || o = .gath
def opStore (o : Op) : Bool := o = .st || o = .stv || o = .scat
def opAtomic (o : Op) : Bool :=
  o = .aadd || o = .amin || o = .amax || o = .aand || o = .aor || o = .axor || o = .axchg || o = .acas || o = .afadd
def opRmw (o : Op) : Bool := opAtomic o || o = .bred || o = .bupd
/-- Loads, stores and read-modify-writes: the accesses that R127 holds back. -/
def opAccess (o : Op) : Bool := opLoad o || opStore o || opRmw o

/-- An atomic with a result (R97). -/
def Acc.returns (a : Acc) : Bool := opAtomic a.op && a.w.t0 != .none

/-- The piece number of a request that has no answer: the end of a reservation (R97). -/
def noAnswer : Nat := 2 ^ 20

/-- Drops the node's invocations of age `a` or more (all of them for a callable node) and everything of theirs:
operands, ready sets, chain entries, reservations, pending commands, running values (R40, R97, R143, R252, R392). -/
def State.discardFrom (s : State) (nk a : Nat) : State :=
  let n := s.nd nk
  let c := nk / 8
  let p := nk % 8
  let gone (g : Nat) : Bool := n.callable || a ≤ g
  let dropped := n.invs.filter fun i => gone i.age
  let mine (ws it : Nat) : Bool := dropped.any fun i => i.ws = ws && i.it = it
  let first := dropped.foldl (fun m i => min m i.n) (2 ^ 32)
  let accGone (e : Acc) : Bool := gone e.age && dropped.any (fun i => i.age = e.age)
  let ids := (n.mif.filter accGone).map (·.id)
  let stale (pl ws it : Nat) : Bool := pl = p && !dropped.isEmpty && (mine ws it || !n.invs.any (fun i => i.ws = ws && i.it = it))
  let redlv (r : Routed) : Routed :=
    if r.pl = p && dropped.any (fun i => i.takes.any (fun e => e.1 = r.ix * 4 + r.pt.code && e.2 = r.k)) then
      { r with dlv := false }
    else r
  let s := s.modCl c fun x => { x with
    store := x.store.filter fun t => !stale t.pl t.ws t.it
    ready := x.ready.filter fun r => !(r.pl = p && mine r.ws r.it)
    routed := x.routed.map redlv }
  let s := { s with memx := { s.memx with resv := s.memx.resv.filter fun r => !(r.2.1 = nk && ids.contains r.2.2) } }
  let ends := (n.mif.filter fun e => accGone e && (e.st = .reserved || (e.st = .sent && e.returns) || e.chk != .no)).flatMap fun e =>
    (e.loc.filter fun p => 2 ^ 60 ≤ p.key).map fun p =>
      let r : Rreq :=
        { chip := chipId s, nk := nk, id := e.id, j := noAnswer, gn := e.gn, part := n.part, va := p.key % 2 ^ 52
          size := p.size, ask := .endDrop, op := .aadd, perm := p.perm, fwd := p.fwd }
      let m : Parcel :=
        { src := c, dst := placeOf p.key, cls := 1, part := n.part, n := p.size, body := .rreq r }
      m
  let s := if ends.isEmpty then s else { s with ports := Tab.mod [] s.ports c (· ++ ends) }
  let s := { s with nodes := s.nodes.map fun (e : Nat × Node) => (e.1, e.2.undeliver nk dropped) }
  let s := dropped.foldl (fun s v => s.untag nk v) s
  s.modNd nk fun n =>
    let n := n.untake dropped
    { n with
      invs := n.invs.filter fun i => !gone i.age
      mif := n.mif.filter fun e => !accGone e
      sb := n.sb.filter fun e => !(gone e.2.1 && dropped.any (fun i => i.age = e.2.1))
      spill := n.spill.filter fun t => !stale t.pl t.ws t.it
      regs := n.regs.filter fun r => decide (r.2.1 < first)
      stmBuf := n.stmBuf.filter fun r => decide (r.2.1 < first)
      barWait := n.barWait.filter fun b => !gone b.age
      dones := n.dones.filter fun d => !mine d.1 d.2.1
      red := n.red.map fun (e : Nat × List (Nat × Red)) => (e.1, e.2.filter fun r => decide (r.1 < first)) }

/-- Operands for iterations that will not start under this generation are freed (R34, R74), and counted where the rule says
so. -/
def State.dropEarly (s : State) (nk : Nat) (count : Bool) : State :=
  let n := s.nd nk
  let c := nk / 8
  let early (t : Tok) : Bool := t.pl = nk % 8 && !n.invs.any fun i => i.ws = t.ws && i.it = t.it
  let k := ((s.cl c).store.filter early).length + (n.spill.filter early).length
  if k = 0 then s
  else
    let s := if count then countEvent s n.part c 3 k else s
    (s.modCl c fun x => { x with store := x.store.filter fun t => !early t }).modNd nk fun n =>
      { n with spill := n.spill.filter fun t => !early t }

/-- Takes a detected fault whose older invocations are done (R40, R391): discards, steps the generation, forms the
record and waits for a handler (R393). An invocation already committed is never discarded. -/
def State.takeFault (s : State) (nk : Nat) : State :=
  let n := s.nd nk
  match n.pend with
  | none => s
  | some f =>
    let rest := n.invs.filter fun i => n.callable || f.age ≤ i.age
    let drn := f.drn || (!n.callable && n.invs.any (fun i => i.age < f.age))
    let a := if f.drn then 0 else f.age
    let oldest := n.invs.foldl (fun m i => min m i.n) f.n
    let rst := if f.map || f.eng || f.trp then (if rest.isEmpty then n.next else oldest) else if drn then oldest else f.n
    let s := s.discardFrom nk a
    let s := if rest.isEmpty && !(f.map || f.eng || f.trp) then s.dropEarly nk false else s
    let s := s.formRecord nk { f with drn := drn } (if n.st = .ended then 0 else rst) ((n.moveTo).getD n.pc)
    s.modNd nk fun n =>
      let n := n.stepGen
      { n with pend := none, stop := true, next := rst, rst := rst, okNext := true
               moveTo := if f.cause = .fetchUncorrectable then some ((n.moveTo).getD n.pc) else n.moveTo
               st := if n.st = .ended then .ended else .faulted }

/-- A faulted node continues (R409 RES, R57, R393): it maps BLK again after a mapping fault or when BLK is another
block, and starts iteration RST. `skip` absorbs every BRK of iteration RST (R408). -/
def State.resumeNode (s : State) (nk : Nat) (skip : Bool) : State :=
  s.modNd nk fun n =>
    if n.st = .faulted then
      let remap := n.hdr.isNone || n.moveTo.isSome
      { n with st := if remap then .mapping else .running, stop := false, spillCount := none
               skip := if skip then some n.rst else none, next := n.rst
               okNext := true }
    else n

end Sys2Proof.Machine
end

