-- ==== Sys2Proof/Machine/Flags.lean ====
section
/-!
DEFINITION. The float flags (R186, R188, R189) and rounding with them (R183 to R187): a value is decoded to an exact
number, computed exactly, and rounded once. Flags are the bits of FSTAT: NV, DZ, OF, UF, NX from bit 0 up.
-/

namespace Sys2Proof.Machine

def fNV : Nat := 1
def fDZ : Nat := 2
def fOF : Nat := 4
def fUF : Nat := 8
def fNX : Nat := 16

/-- Flags of two operations together. -/
def fOr (a b : Nat) : Nat := a ||| b

/-- The floating-point formats (R183). -/
inductive FF where
  | f64 | f32 | f16 | b16 | e4m3 | e5m2 | e2m1
deriving DecidableEq, Repr

/-- Exponent bits, fraction bits and bias (R183). -/
def FF.eb : FF → Nat
  | .f64 => 11 | .f32 => 8 | .f16 => 5 | .b16 => 8 | .e4m3 => 4 | .e5m2 => 5 | .e2m1 => 2
def FF.mb : FF → Nat
  | .f64 => 52 | .f32 => 23 | .f16 => 10 | .b16 => 7 | .e4m3 => 3 | .e5m2 => 2 | .e2m1 => 1
def FF.bias (f : FF) : Nat := 2 ^ (f.eb - 1) - 1
def FF.width (f : FF) : Nat := 1 + f.eb + f.mb

/-- The largest finite value as a pattern (R183). -/
def FF.maxPat : FF → Nat
  | .e4m3 => 0x7e
  | .e2m1 => 7
  | f => (2 ^ f.eb - 1) * 2 ^ f.mb - 1

/-- The format has infinities (R183). -/
def FF.hasInf : FF → Bool
  | .e4m3 => false | .e2m1 => false | _ => true

/-- The canonical NaN (R183); E2M1 has none. -/
def FF.nan : FF → Nat
  | .f64 => 0x7ff8000000000000 | .f32 => 0x7fc00000 | .f16 => 0x7e00 | .b16 => 0x7fc0 | .e4m3 => 0x7f
  | .e5m2 => 0x7e | .e2m1 => 0

def FF.infPat (f : FF) (neg : Bool) : Nat := neg.toNat * 2 ^ (f.width - 1) + (2 ^ f.eb - 1) * 2 ^ f.mb
def FF.max (f : FF) (neg : Bool) : Nat := neg.toNat * 2 ^ (f.width - 1) + f.maxPat
def FF.zero (f : FF) (neg : Bool) : Nat := neg.toNat * 2 ^ (f.width - 1)

/-- The format of a float type. -/
def Ty.ff : Ty → Option FF
  | .f16 => some .f16 | .b16 => some .b16 | .f32 => some .f32 | .f64 => some .f64 | .e4m3 => some .e4m3
  | .e5m2 => some .e5m2 | _ => none

/-- A decoded value: a NaN, an infinity, or `±m · 2^e` exactly. -/
inductive FV where
  | nan (sig : Bool)
  | inf (neg : Bool)
  | fin (neg : Bool) (m : Nat) (e : Int)
deriving DecidableEq, Repr

/-- The value of a pattern (R183, R184). -/
def FF.dec (f : FF) (b : Nat) : FV :=
  let neg := bits b (f.width - 1) 1 = 1
  let e := bits b f.mb f.eb
  let m := bits b 0 f.mb
  let top := e = 2 ^ f.eb - 1
  if f = .e4m3 && top && m = 7 then .nan false
  else if f.hasInf && top then
    if m = 0 then .inf neg else .nan (bits m (f.mb - 1) 1 = 0)
  else if e = 0 then .fin neg m (1 - (f.bias : Int) - f.mb)
  else .fin neg (m + 2 ^ f.mb) ((e : Int) - f.bias - f.mb)

def FV.isNan : FV → Bool
  | .nan _ => true
  | _ => false
def FV.isSig : FV → Bool
  | .nan s => s
  | _ => false
def FV.isInf : FV → Bool
  | .inf _ => true
  | _ => false
def FV.isZero : FV → Bool
  | .fin _ m _ => m = 0
  | _ => false
def FV.neg : FV → Bool
  | .nan _ => false
  | .inf n => n
  | .fin n _ _ => n

/-- NV when any of the operands is a signalling NaN (R184). -/
def sigNV (vs : List FV) : Nat := if vs.any FV.isSig then fNV else 0

/-- `m / 2^sh0` rounded to an integer in a mode, and whether it is inexact (R185). A shift that leaves nothing of `m`
is cut to one that still does. -/
def roundShift (mode : RM) (neg : Bool) (m sh0 : Nat) : Nat × Bool :=
  let sh := min sh0 (Nat.log2 m + 2)
  let q := m / 2 ^ sh
  let r := m % 2 ^ sh
  let half := 2 ^ sh / 2
  let up := match mode with
    | .rne | .dyn => decide (r > half) || (decide (r = half) && decide (sh > 0) && decide (q % 2 = 1))
    | .rtz => false
    | .rdn => neg && decide (r > 0)
    | .rup => !neg && decide (r > 0)
    | .rna => decide (sh > 0) && decide (r ≥ half)
  (if up then q + 1 else q, decide (r > 0))

/-- `m · 2^e` at the quantum `2^q`: the integer count of quanta, rounded, and whether it is inexact. -/
def roundAt (mode : RM) (neg : Bool) (m : Nat) (e q : Int) : Nat × Bool :=
  if q ≤ e then (m * 2 ^ (e - q).toNat, false) else roundShift mode neg m (q - e).toNat

/-- `Round(v, INT, mode)` of `±m · 2^e` (R185). -/
def roundInt (mode : RM) (neg : Bool) (m : Nat) (e : Int) : Int × Bool :=
  let r := roundAt mode neg m e 0
  (if neg then -(r.1 : Int) else r.1, r.2)

/-- The result of an overflow in three steps (R187). -/
def FF.overflow (f : FF) (mode : RM) (sat neg : Bool) : Nat :=
  let toInf := match mode with
    | .rne | .rna | .dyn => true
    | .rtz => false
    | .rdn => neg
    | .rup => !neg
  if !toInf || sat then f.max neg
  else if f = .e4m3 then f.nan + neg.toNat * 0x80
  else f.infPat neg

/-- `Round(±m · 2^e, f, mode)` and its flags (R185 to R187); `m` is exact. No number above twice the largest exponent is
built up: it overflows. -/
def FF.round (f : FF) (mode : RM) (sat neg : Bool) (m : Nat) (e : Int) : Nat × Nat :=
  if m = 0 then (f.zero neg, 0)
  else
    let top : Int := (Nat.log2 m : Int) + e
    let emin : Int := 1 - f.bias
    if (f.bias : Int) + 1 < top then (f.overflow mode sat neg, fOF + fNX)
    else
      let q : Int := (if top < emin then emin else top) - f.mb
      let r := roundAt mode neg m e q
      let tiny := decide (top < emin) && decide ((roundAt mode neg m e (top - f.mb)).1 < 2 ^ (min (emin - top) 2 + f.mb).toNat)
      let fl := if r.2 then fNX + (if tiny then fUF else 0) else 0
      let expo : Nat := (q - (emin - f.mb)).toNat
      let pat := if r.1 < 2 ^ f.mb then r.1 else expo * 2 ^ f.mb + r.1
      if pat > f.maxPat then (f.overflow mode sat neg, fOF + fNX)
      else (neg.toNat * 2 ^ (f.width - 1) + pat, fl)

/-- An exact value rounded into a format; an infinity or a NaN goes where R187 and R184 send it. -/
def FF.ofFV (f : FF) (mode : RM) (sat : Bool) : FV → Nat × Nat
  | .nan s => (f.nan, if s then fNV else 0)
  | .inf n =>
    match f with
    | .e4m3 => if sat then (f.max n, fNX) else (f.nan, fNV)
    | .e5m2 => if sat then (f.max n, fNX) else (f.infPat n, 0)
    | .e2m1 => (f.max n, fNX)
    | _ => (f.infPat n, 0)
  | .fin n m e => f.round mode sat n m e

/-- The exact sum of two finite values. -/
def finAdd (n1 : Bool) (m1 : Nat) (e1 : Int) (n2 : Bool) (m2 : Nat) (e2 : Int) (mode : RM) : FV :=
  let e := min e1 e2
  let a : Int := (m1 * 2 ^ (e1 - e).toNat : Nat)
  let b : Int := (m2 * 2 ^ (e2 - e).toNat : Nat)
  let t := (if n1 then -a else a) + (if n2 then -b else b)
  if t = 0 then .fin (if n1 = n2 then n1 else decide (mode = .rdn)) 0 0
  else .fin (decide (t < 0)) t.natAbs e

/-- `a + b` exactly, with the special values of IEEE 754-2019; NV for ∞ − ∞ (R186). -/
def fvAdd (a b : FV) (mode : RM) : FV × Nat :=
  match a, b with
  | .nan _, _ => (.nan false, sigNV [a, b])
  | _, .nan _ => (.nan false, sigNV [a, b])
  | .inf x, .inf y => if x = y then (.inf x, 0) else (.nan false, fNV)
  | .inf x, _ => (.inf x, 0)
  | _, .inf y => (.inf y, 0)
  | .fin n1 m1 e1, .fin n2 m2 e2 => (finAdd n1 m1 e1 n2 m2 e2 mode, 0)

def fvNeg : FV → FV
  | .nan s => .nan s
  | .inf n => .inf !n
  | .fin n m e => .fin (!n) m e

/-- `a × b` exactly; NV for 0 × ∞ (R186). -/
def fvMul (a b : FV) : FV × Nat :=
  match a, b with
  | .nan _, _ => (.nan false, sigNV [a, b])
  | _, .nan _ => (.nan false, sigNV [a, b])
  | .inf x, .inf y => (.inf (x != y), 0)
  | .inf x, .fin n m _ => if m = 0 then (.nan false, fNV) else (.inf (x != n), 0)
  | .fin n m _, .inf y => if m = 0 then (.nan false, fNV) else (.inf (n != y), 0)
  | .fin n1 m1 e1, .fin n2 m2 e2 => (.fin (n1 != n2) (m1 * m2) (e1 + e2), 0)

/-- `num / den` with enough bits that rounding the result, its last bit made sticky, rounds the quotient (R185). -/
def divSticky (num den : Nat) (prec : Nat) : Nat × Int :=
  let k := prec + 4 + Nat.log2 den
  let q := num * 2 ^ k / den
  let r := num * 2 ^ k % den
  (2 * q + (if r = 0 then 0 else 1), -(k : Int) - 1)

/-- `a / b` ready for rounding; NV for 0 / 0 and ∞ / ∞, DZ for a finite nonzero value over zero (R186). -/
def fvDiv (a b : FV) : FV × Nat :=
  match a, b with
  | .nan _, _ => (.nan false, sigNV [a, b])
  | _, .nan _ => (.nan false, sigNV [a, b])
  | .inf _, .inf _ => (.nan false, fNV)
  | .inf x, .fin n _ _ => (.inf (x != n), 0)
  | .fin n _ _, .inf y => (.fin (n != y) 0 0, 0)
  | .fin n1 m1 e1, .fin n2 m2 e2 =>
    if m2 = 0 then (if m1 = 0 then (.nan false, fNV) else (.inf (n1 != n2), fDZ))
    else if m1 = 0 then (.fin (n1 != n2) 0 0, 0)
    else
      let d := divSticky m1 m2 60
      (.fin (n1 != n2) d.1 (d.2 + e1 - e2), 0)

/-- The integer square root, one bit at a time from bit `k` down. -/
def isqrtAux (n : Nat) : Nat → Nat → Nat
  | 0, r => r
  | k + 1, r => let t := r + 2 ^ k; isqrtAux n k (if t * t ≤ n then t else r)
def isqrt (n : Nat) : Nat := isqrtAux n (Nat.log2 n / 2 + 1) 0

/-- `√a` ready for rounding (R211). -/
def fvSqrt (a : FV) : FV × Nat :=
  match a with
  | .nan s => (.nan false, if s then fNV else 0)
  | .inf n => if n then (.nan false, fNV) else (.inf false, 0)
  | .fin n m e =>
    if m = 0 then (.fin n 0 0, 0)
    else if n then (.nan false, fNV)
    else
      let odd := e % 2 != 0
      let m' := (if odd then 2 * m else m) * 2 ^ 140
      let e' : Int := (if odd then e - 1 else e) / 2 - 70
      let r := isqrt m'
      (.fin false (2 * r + (if r * r = m' then 0 else 1)) (e' - 1), 0)

/-- `1 / √a` ready for rounding (R212). -/
def fvRsqrt (a : FV) : FV × Nat :=
  match a with
  | .nan s => (.nan false, if s then fNV else 0)
  | .inf n => if n then (.nan false, fNV) else (.fin false 0 0, 0)
  | .fin n m e =>
    if m = 0 then (.inf n, fDZ)
    else if n then (.nan false, fNV)
    else
      let odd := e % 2 != 0
      let m' := if odd then 2 * m else m
      let e' : Int := (if odd then e - 1 else e) / 2
      let r := isqrt (2 ^ 260 / m')
      (.fin false (2 * r + (if r * r * m' = 2 ^ 260 then 0 else 1)) (-130 - e' - 1), 0)

/-- ln 2 in `p` fraction bits, rounded down: the sum of `1 / (k · 2^k)`; it lacks less than `p + 2` units. -/
def ln2Aux (p : Nat) : Nat → Nat
  | 0 => 0
  | k + 1 => ln2Aux p k + 2 ^ p / ((k + 1) * 2 ^ (k + 1))

/-- exp(x) for `x < 1` in `p` fraction bits: the terms `x^k / k!`, each rounded down. -/
def expAux (p x : Nat) : Nat → Nat → Nat → Nat → Nat
  | 0, _, _, a => a
  | t + 1, k, u, a => let u' := u * x / 2 ^ p / k; expAux p x t (k + 1) u' (a + u')

/-- Bounds of `2^(f / 2^k)`, `f < 2^k`, in `p` fraction bits (`p ≤ 400`). -/
def exp2Bounds (f k p : Nat) : Nat × Nat :=
  let l := ln2Aux p p
  let lo := expAux p (f * l / 2 ^ k) (p / 2) 1 (2 ^ p) (2 ^ p)
  (lo, lo + 8 * p + 64)

/-- The first precision of a list at which both bounds have the same `b` leading fraction bits: the value's first
`b` fraction bits. -/
def exp2Bits (f k b : Nat) : List Nat → Nat
  | [] => 0
  | p :: ps =>
    let x := exp2Bounds f k p
    let lo := x.1 / 2 ^ (p - b)
    let hi := x.2 / 2 ^ (p - b)
    if lo = hi then lo else exp2Bits f k b ps

/-- `2^a` ready for rounding (R212). A value within 2^−70 of 1 is given as 1 with a sticky bit on the right side. -/
def fvExp2 (a : FV) : FV × Nat :=
  match a with
  | .nan s => (.nan false, if s then fNV else 0)
  | .inf n => if n then (.fin false 0 0, 0) else (.inf false, 0)
  | .fin n m e =>
    if m = 0 then (.fin false 1 0, 0)
    else
      let top : Int := (Nat.log2 m : Int) + e
      if top > 20 then (.fin false 1 (if n then -(2 ^ 20 : Int) else 2 ^ 20), 0)
      else if top < -70 then
        if n then (.fin false (2 ^ 71 - 1) (-71), 0) else (.fin false (2 ^ 71 + 1) (-71), 0)
      else if e ≥ 0 then
        let i : Int := (m * 2 ^ e.toNat : Nat)
        (.fin false 1 (if n then -i else i), 0)
      else
        let k := (-e).toNat
        let fl := m / 2 ^ k
        let fr := m % 2 ^ k
        if fr = 0 then (.fin false 1 (if n then -(fl : Int) else fl), 0)
        else
          let i : Int := if n then -(fl : Int) - 1 else fl
          let f := if n then 2 ^ k - fr else fr
          let x := exp2Bits f k 75 [110, 160, 240, 400]
          (.fin false (2 * x + 1) (i - 76), 0)

/-- One more bit of a binary logarithm by squaring: `y` lies in `[lo, hi]` with `p` fraction bits, in [1, 2). -/
def log2Aux (p : Nat) : Nat → Nat → Nat → Nat → Nat
  | 0, _, _, a => a
  | b + 1, lo, hi, a =>
    let l := lo * lo / 2 ^ p
    let h := hi * hi / 2 ^ p + 1
    if l ≥ 2 ^ (p + 1) then log2Aux p b (l / 2) (h / 2 + 1) (2 * a + 1) else log2Aux p b l h (2 * a)

/-- `log2 a` ready for rounding (R212): 130 fraction bits and a sticky bit. -/
def fvLog2 (a : FV) : FV × Nat :=
  match a with
  | .nan s => (.nan false, if s then fNV else 0)
  | .inf n => if n then (.nan false, fNV) else (.inf false, 0)
  | .fin n m e =>
    if m = 0 then (.inf true, fDZ)
    else if n then (.nan false, fNV)
    else
      let l := Nat.log2 m
      let t : Int := (l : Int) + e
      if m = 2 ^ l then (.fin (decide (t < 0)) t.natAbs 0, 0)
      else
        let y := m * 2 ^ (400 - l)
        let fr := log2Aux 400 130 y y 0
        -- log2 a lies strictly between (t·2^130 + fr) and (t·2^130 + fr + 1), over 2^130
        let v : Int := t * 2 ^ 130 + fr
        if t ≥ 0 then (.fin false (2 * v.toNat + 1) (-131), 0)
        else (.fin true (2 * (-v - 1).toNat + 1) (-131), 0)

/-- `a < b` of two values that are not NaN; −0 equals +0. -/
def fvLt (a b : FV) : Bool :=
  match a, b with
  | .nan _, _ => false
  | _, .nan _ => false
  | .inf x, .inf y => x && !y
  | .inf x, _ => x
  | _, .inf y => !y
  | .fin n1 m1 e1, .fin n2 m2 e2 =>
    let e := min e1 e2
    let x : Int := (m1 * 2 ^ (e1 - e).toNat : Nat)
    let y : Int := (m2 * 2 ^ (e2 - e).toNat : Nat)
    decide ((if n1 then -x else x) < (if n2 then -y else y))

/-- `a = b` of two values that are not NaN. -/
def fvEq (a b : FV) : Bool :=
  !a.isNan && !b.isNan && !fvLt a b && !fvLt b a

/-- minimumNumber and maximumNumber of two patterns (R213). -/
def FF.minMax (f : FF) (isMax : Bool) (x y : Nat) : Nat × Nat :=
  let a := f.dec x
  let b := f.dec y
  let fl := sigNV [a, b]
  if a.isNan then (if b.isNan then f.nan else y, fl)
  else if b.isNan then (x, fl)
  else
    let less := fvLt a b || (fvEq a b && a.neg && !b.neg)
    (if less != isMax then x else y, fl)

/-- Two patterns combined exactly and rounded once. -/
def FF.add (f : FF) (mode : RM) (sat : Bool) (x y : Nat) : Nat × Nat :=
  let r := fvAdd (f.dec x) (f.dec y) mode
  let z := f.ofFV mode sat r.1
  (z.1, fOr r.2 z.2)
def FF.mul (f : FF) (mode : RM) (sat : Bool) (x y : Nat) : Nat × Nat :=
  let r := fvMul (f.dec x) (f.dec y)
  let z := f.ofFV mode sat r.1
  (z.1, fOr r.2 z.2)

/-- `fl(x + y)` and `fl(x × y)` of R7 on F32 patterns. -/
def flAdd (x y : Nat) : Nat := (FF.f32.add .rne false x y).1
def flMul (x y : Nat) : Nat := (FF.f32.mul .rne false x y).1

/-- `Round(±a × b + c)` (R211): 0 × ∞ raises NV and gives the canonical NaN, whatever c is. -/
def fvFma (neg : Bool) (a b c : FV) (mode : RM) : FV × Nat :=
  let p := fvMul a b
  let q := if neg then fvNeg p.1 else p.1
  let r := fvAdd q c mode
  let inv := p.2
  if (a.isNan || b.isNan) then (.nan false, sigNV [a, b, c])
  else if inv != 0 then (.nan false, fOr fNV (sigNV [c]))
  else (r.1, fOr r.2 (sigNV [c]))

/-- Raises flags in the issuing invocation (R189): a flag whose enable bit was set in FCTL when the invocation started
faults it with "float exception"; otherwise they are collected until commit. `none` is the fault. -/
def trapsOn (fctl fl : Nat) : Bool := (fl &&& (fctl / 16)) != 0

/-- The mode of a rounding code for an invocation (R189). -/
def modeOf (fctl : Nat) : RM → RM
  | .dyn => RM.ofCode (fctl % 8)
  | m => m

end Sys2Proof.Machine
end

