-- ==== Sys2Proof/Machine/Operands.lean ====
section
/-!
DEFINITION. Operands and results of the instructions that fire on an element: immediates (R61, R201), lanes (R182, R200),
predicates (R43), null modes (R44, R202), status bits (R29), and the one way every G-format instruction fires.
-/

namespace Sys2Proof.Machine

/-! ### Values and lanes -/

/-- `n` read as a `w`-bit two's complement number. -/
def sInt (w n : Nat) : Int := if n % 2 ^ w < 2 ^ (w - 1) then (n % 2 ^ w : Nat) else ((n % 2 ^ w : Nat) : Int) - 2 ^ w

/-- An integer modulo `2^w`. -/
def wrapN (w : Nat) (z : Int) : Nat := (z % (2 ^ w : Nat)).toNat

/-- The type is one of I8 to I64. -/
def Ty.signed : Ty → Bool
  | .i8 | .i16 | .i32 | .i64 => true
  | _ => false

/-- An element read under a type's signedness (R204). -/
def tyInt (t : Ty) (n : Nat) : Int := if Ty.signed t then sInt t.width n else (n % 2 ^ t.width : Nat)

/-- Lane `i` of width `w`; a scalar gives its low `w` bits to every lane (R182, R200). -/
def Val.lane (v : Val) (w i : Nat) : Nat :=
  match v with
  | .sc x => x.toNat % 2 ^ w
  | .vec x => x.toNat / 2 ^ (w * i) % 2 ^ w

/-- Lanes joined into a vector, lane 0 least significant (R182). -/
def joinLanes (w : Nat) (ls : List Nat) : Val :=
  .vec (BitVec.ofNat 512 (ls.foldr (fun x a => x % 2 ^ w + 2 ^ w * a) 0))

/-- A scalar result of a type: sign copies above an I value, zeros above any other (R182). -/
def scalarOf (t : Ty) (n : Nat) : Val :=
  .sc (BitVec.ofNat 64 (if Ty.signed t then wrapN 64 (sInt t.width n) else n % 2 ^ t.width))

/-- A 64-bit scalar. -/
def sc64 (n : Nat) : Val := .sc (BitVec.ofNat 64 n)

/-- The number of lanes of a type in a vector (R200). -/
def Ty.lanes (t : Ty) : Nat := 512 / t.width

/-- The payload as a number. -/
def Val.nat : Val → Nat
  | .sc v => v.toNat
  | .vec v => v.toNat

/-- The immediate of R61 under a type. -/
def immVal (t : Ty) : Imm → Nat
  | .short v =>
    if Ty.signed t then wrapN 64 (sInt 16 v.toNat)
    else match t with
      | .f32 => v.toNat * 2 ^ 16
      | .f64 => v.toNat * 2 ^ 48
      | _ => v.toNat
  | .lit32 v =>
    if Ty.signed t then wrapN 64 (sInt 32 v.toNat)
    else match t with
      | .f64 =>
        -- an F32 value widened exactly; a NaN keeps its sign and its fraction bits
        match FF.f32.dec v.toNat with
        | .nan _ => bits v.toNat 31 1 * 2 ^ 63 + 0x7ff * 2 ^ 52 + bits v.toNat 0 23 * 2 ^ 29
        | x => (FF.f64.ofFV .rne false x).1
      | _ => v.toNat
  | .lit64 v => v.toNat

/-! ### Predicates, nulls and status -/

/-- NS, EM and ER of the operands ORed together (R29). -/
structure Status where
  ns : Bool := false
  em : Bool := false
  er : Bool := false
deriving DecidableEq, Repr

def Opnd.status (o : Opnd) : Status := { ns := o.ns, em := o.em, er := o.er }
def Status.or (a b : Status) : Status := { ns := a.ns || b.ns, em := a.em || b.em, er := a.er || b.er }

/-- The status bits of a list of ports (R29). -/
def statusOf (os : List (Option Opnd)) : Status :=
  os.foldl (fun a o => match o with | none => a | some x => a.or x.status) {}

/-- The status bits of an issue's operands, the predicate included (R29). -/
def Issue.status (i : Issue) : Status := statusOf [i.l, i.r, i.q, i.pr]

/-- Adds status bits to a result. -/
def Opnd.plus (o : Opnd) (t : Status) : Opnd := { o with ns := o.ns || t.ns, em := o.em || t.em, er := o.er || t.er }

/-- A null result with status bits. -/
def Opnd.nullWith (t : Status) : Opnd := { null := true, ns := t.ns, em := t.em, er := t.er }

/-- The predicate matches (R43); a null predicate does not. -/
def predHolds (p : Prd) (i : Issue) : Bool :=
  match p, i.pr with
  | .always, _ => true
  | _, none => false
  | .onTrue, some o => !o.null && o.val.bit0
  | .onFalse, some o => !o.null && !o.val.bit0

/-- A port has a null token. -/
def isNull : Option Opnd → Bool
  | none => false
  | some o => o.null

def Target.isQueue : Target → Bool
  | .queue _ => true
  | _ => false

/-- A G instruction with a queue target is an effect instruction (R39). -/
def gEffect (w : GWord) : Bool := Target.isQueue w.t0 || Target.isQueue w.t1

/-- What a G instruction computes from its operands: a fault, or the operands for T0 and T1 and the flags raised. -/
inductive GRes where
  | fault (c : Cause)
  | res (o0 o1 : Opnd) (fl : Nat)
deriving DecidableEq, Repr

/-- One result for both targets. -/
def GRes.one (v : Val) : GRes := .res { val := v } { val := v } 0

/-- The element absorbs its operands; an effect instruction reports absorbed (R43, R44). -/
def State.absorb (s : State) (i : Issue) (eff : Bool) : State := if eff then s.report i false else s

/-- Sends both results under the status bits; an effect instruction reports performed (R29, R39, R59). -/
def State.sendBoth (s : State) (i : Issue) (w : GWord) (eff : Bool) (st : Status) (o0 o1 : Opnd) : State :=
  let s := (s.send i w.t0 .data (o0.plus st)).send i w.t1 .data (o1.plus st)
  if eff then s.report i true else s

/-- Collects flags for the commit (R189). -/
def State.addFlags (s : State) (i : Issue) (fl : Nat) : State :=
  if fl = 0 then s else s.modInv i.nk i.ws i.it fun v => { v with flags := v.flags ||| fl }

/-- Acts on what an instruction computed: a fault, a trap on a raised flag (R189), or its results. -/
def State.finish (s : State) (i : Issue) (v : Inv) (op : Op) (w : GWord) (st : Status) : GRes → State
  | .fault c => s.fault i op c
  | .res o0 o1 fl =>
    if trapsOn v.fctl fl then s.fault i op .floatException fun p => { p with aux := fl }
    else (s.addFlags i fl).sendBoth i w (gEffect w) st o0 o1

/-- The R operand: the immediate when IR is 1 (R60), else the token. `t` is the type it is read under (R201). -/
def rOperand (w : GWord) (t : Ty) (i : Issue) : Option Opnd :=
  if w.ir then some { val := .sc (BitVec.ofNat 64 (immVal t w.imm)) } else i.r

/-- A null operand replaced by the identity (R44). -/
def subst (idn : Option Val) (o : Option Opnd) : Opnd :=
  match o with
  | none => {}
  | some x => if x.null then (match idn with | none => x | some v => { x with null := false, val := v }) else x

/-- How a G instruction with data operands fires (R43, R44, R29). `t` is the type of an immediate on R, `ids` the
identities of L and R where the row names them, `f` what it computes: from FCTL at the invocation's start and L, R, Q. -/
def gFire (op : Op) (w : GWord) (t : Ty) (ids : Option (Val × Val)) (f : Nat → Opnd → Opnd → Opnd → GRes) (s : State) : Out :=
  match s.sched.cur with
  | none => .next s
  | some i =>
    match s.invOf i with
    | none => .next s
    | some v =>
      let eff := gEffect w
      if !predHolds w.prd i then .next (s.absorb i eff)
      else
        let r := rOperand w t i
        let ops := [i.l, r, i.q].filter Option.isSome
        let st := i.status
        if ops.any isNull && w.nm = .absorb then .next (s.absorb i eff)
        else if eff && st.er then .next (s.fault i op .errorOperand)
        else if ops.any isNull && (w.nm = .pass || ops.all isNull) then
          .next (s.sendBoth i w eff {} (Opnd.nullWith st) (Opnd.nullWith st))
        else
          .next (s.finish i v op w st
            (f v.fctl (subst (ids.map (·.1)) i.l) (subst (ids.map (·.2)) r) (subst none i.q)))

/-- The operand set waits in its ready queue (R50). -/
def State.waits (s : State) : State :=
  { s with sched := { s.sched with cur := s.sched.cur.map fun i => { i with wait := true } } }

/-- How an instruction with a null rule of its own fires (R68): the predicate, the nulls that it absorbs and an error operand
are handled here. -/
def gOwn (op : Op) (w : GWord) (eff : Bool) (f : Issue → Inv → Status → State → State) (s : State)
    (absorbs : Issue → Bool := fun _ => false) : Out :=
  match s.sched.cur with
  | none => .next s
  | some i =>
    match s.invOf i with
    | none => .next s
    | some v =>
      if !predHolds w.prd i || absorbs i then .next (s.absorb i eff)
      else if eff && i.status.er then .next (s.fault i op .errorOperand)
      else .next (f i v i.status s)

/-- The oldest place of a queue whose token has not freed. -/
def Node.oldestPlace (n : Node) (q : Nat) : Option Nat :=
  (n.outq.filter fun t => t.q = q).foldl (fun a t => some (match a with | none => t.place | some x => min x t.place)) none

/-- A filler's place is within 64 of the oldest (R46). -/
def Node.placeRoom (n : Node) (q place : Nat) : Bool :=
  match n.oldestPlace q with
  | none => true
  | some o => place < o + 64

/-- Room in an output queue of a node: fewer than 64 tokens, those held to commit included (R46, R50). A token 64 or more
places beyond the oldest is still at its sender. -/
def Node.queueRoom (n : Node) (q : Nat) : Bool :=
  let mine (h : Held) : Bool := match h with | .qtok _ k _ => k = q | _ => false
  (n.outq.filter fun t => t.q = q && t.o.isSome && n.placeRoom q t.place).length
    + ((n.invs.map fun v => (v.held.filter mine).length).foldl (· + ·) 0) < 64

/-- The element-wise rule "as operands" (R200): once on scalars, else once per lane. `f` gives the element and its flags
from the elements of L, R and Q; `t` is the result's type, `w` the lane width. -/
def asOperands (t : Ty) (a b c : Opnd) (useB useC : Bool) (f : Nat → Nat → Nat → Nat × Nat) : Val × Nat :=
  let w := t.width
  let vec := a.val.isVec || (useB && b.val.isVec) || (useC && c.val.isVec)
  if vec then
    let rs := (List.range (Ty.lanes t)).map fun k => f (a.val.lane w k) (b.val.lane w k) (c.val.lane w k)
    (joinLanes w (rs.map (·.1)), rs.foldl (fun x r => x ||| r.2) 0)
  else
    let r := f (a.val.lane w 0) (b.val.lane w 0) (c.val.lane w 0)
    (scalarOf t r.1, r.2)

/-- The value as a result of a float operation: every NaN is the canonical one; and NV when one was signalling (R184). -/
def FF.canon (f : FF) (x : Nat) : Nat := if (f.dec x).isNan then f.nan else x
def canonVal (f : FF) (v : Val) : Val × Nat :=
  match v with
  | .sc x => let y := x.toNat % 2 ^ f.width; (sc64 (f.canon y), sigNV [f.dec y])
  | .vec _ =>
    let xs := (List.range (512 / f.width)).map (v.lane f.width)
    (joinLanes f.width (xs.map f.canon), sigNV (xs.map f.dec))

/-- Any lane of a result in a float format is a NaN (R184). -/
def hasNan (ff : FF) (v : Val) : Bool :=
  match v with
  | .sc x => (ff.dec (x.toNat % 2 ^ ff.width)).isNan
  | .vec _ => (List.range (512 / ff.width)).any fun k => (ff.dec (v.lane ff.width k)).isNan

end Sys2Proof.Machine
end

