-- ==== Sys2Proof/Machine/Xlate.lean ====
section
/-!
DEFINITION. Where an address leads: which memory a key lies in (R14), reads and writes under encryption keys (R350),
page-table walks and translation caches (R342 to R347), the KV block table (R157 to R159), and the checks of R79 to R86.
-/

namespace Sys2Proof.Machine

/-! ### Memories -/

/-- The memories of R387's location field. -/
inductive MemKind where
  | scratchpad | weightStore | csm | hbm | cxl
deriving DecidableEq, Repr

/-- The memory that a key lies in (R14); `none` where there is no memory. A CXL port's capacity counts in the 64-byte lines
that its devices see (R16). -/
def memKind (s : State) (k : Nat) : Option MemKind :=
  if k ≥ 2 ^ 60 then none
  else if k ≥ 2 ^ 53 then some .scratchpad
  else if k ≥ 2 ^ 52 then some .csm
  else if 0xffff000000000 ≤ k && k < 0xffff030000000 then some .weightStore
  else if k < 0x8000000000 then (if k % 0x1000000000 < 64000000000 then some .hbm else none)
  else if 0x100000000000 ≤ k && k < 0x280000000000 then
    let o := k - 0x100000000000
    if o % 0x40000000000 < Tab.get 0 s.memx.cxl (o / 0x40000000000) / 64 * 64 then some .cxl else none
  else none

/-- R387's number of a memory. -/
def MemKind.code : MemKind → Nat
  | .scratchpad => 0 | .weightStore => 1 | .csm => 2 | .hbm => 3 | .cxl => 4

/-- AUX of an uncorrectable error at a key (R387). -/
def memAux (s : State) (k : Nat) : Nat := ((memKind s k).map MemKind.code).getD 0

/-- A place at another chip, as a key above every memory of the package. -/
def remoteKey (chip va : Nat) : Nat := 2 ^ 60 + chip * 2 ^ 52 + va
def isRemote (k : Nat) : Bool := 2 ^ 60 ≤ k
def remoteChip (k : Nat) : Nat := (k - 2 ^ 60) / 2 ^ 52
def remoteVa (k : Nat) : Nat := k % 2 ^ 52

/-- The granule holds an uncorrectable error (R397). -/
def badAt (s : State) (k : Nat) : Bool := s.memx.bad.contains (granule k)

/-- The key material in a slot; a granule's key in the same form. The platform key is `none` in both (assumption 6). -/
def slotMaterial (s : State) (slot : Nat) : Option V512 := (Tab.find s.keys slot).getD none

/-- The slot holds a key (R350): KEYSET loaded it, or it is the platform key's slot and was never emptied. -/
def slotLoaded (s : State) (slot : Nat) : Bool :=
  match Tab.find s.keys slot with
  | some m => m.isSome
  | none => slot = 0

/-- A KEYSET of the slot waits to be done: no new access uses the slot (R360). -/
def keyHeld (s : State) (slot : Option Nat) : Bool := s.ksets.any fun x => slot = some x.slot

/-- A granule written under one key and read under another: the decryption of the stored ciphertext (R350). -/
def recode (a b : Option V512) (g v : Nat) : Nat :=
  if a = b then v
  else xtsGranule true (b.getD Config.platformKey) (g / 64) (xtsGranule false (a.getD Config.platformKey) (g / 64) v)

/-- The granule at `g` as a key slot reads it. -/
def granuleUnder (s : State) (g : Nat) (m : Option V512) : Nat :=
  recode (Tab.get none s.memx.gkey g) m g (memRead s g 64)

/-- Reads `n` bytes of one granule under a key slot (R350); `none`: memory that is not encrypted, or a read of the
part's own, which takes the granule's own key. -/
def readUnder (s : State) (k n : Nat) (slot : Option Nat) : State × Nat :=
  match slot with
  | none => (s, memRead s k n)
  | some sl =>
    let g := granule k
    if Tab.get none s.memx.gkey g = slotMaterial s sl then (s, memRead s k n)
    else (s, granuleUnder s g (slotMaterial s sl) / 256 ^ (k - g) % 256 ^ n)

/-- Writes the `n` low bytes of `v` into one granule under a key slot (R350); the granule's other bytes are read and
written under that key. A write of the whole granule ends an uncorrectable error (R398). -/
def writeUnder (s : State) (k n v : Nat) (slot : Option Nat) : State :=
  let g := granule k
  let sz := if k ≥ 2 ^ 53 || (0xffff000000000 ≤ k && k < 2 ^ 52) then 32 else 64
  let s := if n = sz then { s with memx := { s.memx with bad := s.memx.bad.filter fun b => b != g } } else s
  match slot with
  | none => memWrite s k v n
  | some sl =>
    let m := slotMaterial s sl
    if Tab.get none s.memx.gkey g = m then memWrite s k v n
    else
      let s1 := if n = sz then s else memWrite s g (granuleUnder s g m) 64
      memWrite { s1 with memx := { s1.memx with gkey := Tab.putD none s1.memx.gkey g m } } k v n

/-! ### Page tables (R342 to R346) -/

/-- How a walk ends: at a leaf or forward entry, in failure (with TPROBE's outcome), or at a word with an uncorrectable
error. -/
inductive Walk where
  | found (level pte : Nat)
  | fail (outcome level : Nat)
  | unc (level key : Nat)
deriving DecidableEq, Repr

/-- One read of a table word. -/
inductive TableWord where
  | ok (v : Nat)
  | none
  | unc
deriving DecidableEq, Repr

/-- Reads a table word; a physical address that holds no memory gives none (R14). DESIGN CHOICE: so does one in the weight
store, of which the spec does not say what a walk meets there (assumption 99). -/
def tableWord (s : State) (k : Nat) : TableWord :=
  match memKind s k with
  | some .hbm | some .cxl => if badAt s k then .unc else .ok (memRead s k 8)
  | _ => .none

/-- The entry breaks a rule of R344 other than V and KIND. -/
def pteBad (level pte : Nat) : Bool :=
  let kind := bits pte 61 2
  let sz := if level = 2 then 18 else if level = 3 then 9 else 0
  bits pte 52 5 != 0
    || (kind = 0 && (bits pte 57 4 != 0 || bits pte 0 12 != 0 || level = 4))
    || (kind = 1 && (bits pte 11 1 != 0 || (bits pte 60 1 = 1 && level != 4) || bits pte 12 sz != 0 || level < 2))
    || (kind = 2 && (bits pte 60 1 = 1 || bits pte 12 sz != 0 || level < 2))

/-- The index of a virtual address at a level (R343). -/
def vaIndex (level va : Nat) : Nat := if level = 0 then bits va 48 4 else bits va (48 - 9 * level) 9

/-- The walk from a level's table (R343). -/
def walkFrom (s : State) (va : Nat) : Nat → Nat → Nat → Walk
  | 0, level, _ => .fail 1 level
  | fuel + 1, level, table =>
    let k := table + 8 * vaIndex level va
    match tableWord s k with
    | .none => .fail 1 level
    | .unc => .unc level k
    | .ok pte =>
      if bits pte 63 1 = 0 then .fail 1 level
      else if bits pte 61 2 = 3 || pteBad level pte then .fail 2 level
      else if bits pte 61 2 = 0 then walkFrom s va fuel (level + 1) (bits pte 12 40 * 4096)
      else .found level pte

/-- The ASID lies in the partition's range (R339). -/
def asidIn (s : State) (part asid : Nat) : Bool :=
  let r := pkg s (0x301 + 8 * part)
  rbits r 0 16 ≤ asid && asid ≤ rbits r 16 16

/-- The walk of R343 for a partition. -/
def walk (s : State) (part asid va : Nat) : Walk :=
  let k := rbits (pkg s 0x0c8) 20 32 * 2 ^ 20 + 16 * asid
  match tableWord s k with
  | .none => .fail 3 0
  | .unc => .unc 0 k
  | .ok e =>
    if bits e 63 1 = 0 || bits e 52 6 != part || !asidIn s part asid then .fail 3 0
    else walkFrom s va 5 0 (bits e 7 45 * 128)

/-- The page size shift of a level (R343). -/
def pageShift (level : Nat) : Nat := if level = 2 then 30 else if level = 3 then 21 else 12

/-- The holders of translations (R347): a cluster's cache, copy engines A and B, the gather engine, and a die's cache. -/
def tlbCl (c : Nat) : Nat := c
def tlbEng (u c : Nat) : Nat := 256 * u + c
def tlbDie (d : Nat) : Nat := 2048 + d

/-- The capacity of a holder (R347). The gather and copy engines' sizes are not given; they take the cluster's. -/
def tlbSize (h : Nat) : Nat := if h ≥ 2048 then 16384 else 512

/-- A cached entry for an address. -/
def tlbFind (s : State) (h asid va : Nat) : Option TEnt :=
  (Tab.get [] s.tlb h).find? fun e => e.asid = asid && e.vpn = va / 2 ^ pageShift e.level

/-- The translation of an address through a list of caches, then by a walk. The caches are tagged by ASID alone (R347), so
they serve a partition under its own ASIDs only (R336, R339). -/
def lookup (s : State) (hs : List Nat) (part asid va : Nat) : Walk :=
  match if asidIn s part asid then hs.findSome? fun h => tlbFind s h asid va else none with
  | some e => .found e.level e.pte
  | none => walk s part asid va

/-- Caches what a lookup found (R347): a failed walk is never cached; the oldest entry leaves a full cache. -/
def State.fillTlb (s : State) (hs : List Nat) (part asid va : Nat) : State :=
  match lookup s hs part asid va with
  | .found level pte =>
    let e : TEnt := { asid := asid, level := level, vpn := va / 2 ^ pageShift level, pte := pte }
    hs.foldl (fun s h =>
      if (tlbFind s h asid va).isSome then s
      else
        let s := if 2048 ≤ h then countAt s part [1 + (h - 2048), 0] 15 1 else countEvent s part (h % 256) 15 1
        { s with tlb := Tab.mod [] s.tlb h fun l => (if l.length ≥ tlbSize h then l.drop 1 else l) ++ [e] }) s
  | _ => s

/-- Where a virtual address leads. -/
inductive XRes where
  | here (pa slot : Nat)
  | away (chip va : Nat) (perm : Option Nat) (fwd : Nat)
  | bad (c : Cause) (aux : Nat)
deriving DecidableEq, Repr

/-- The permissions an access needs, as the bits R, W and X of R344. -/
def permR : Nat := 1
def permW : Nat := 2
def permX : Nat := 4

/-- R, W and X of an entry as a mask. -/
def ptePerm (pte : Nat) : Nat := bits pte 57 3

/-- The partition may use the page's key (R344). -/
def keyIn (s : State) (part key : Nat) : Bool :=
  let r := pkg s (0x302 + 8 * part)
  key = 0 || (rbits r 0 11 ≤ key && key < rbits r 0 11 + rbits r 16 11)

/-- The physical place behind a leaf, with the checks of R83, R344 and R350. `ws`: engines reach the weight store. -/
def leafRes (s : State) (part va level pte : Nat) (ws : Bool) : XRes :=
  let sh := pageShift level
  let pa := bits pte 12 40 * 4096 / 2 ^ sh * 2 ^ sh + va % 2 ^ sh
  let key := bits pte 0 11
  if !keyIn s part key then .bad .key 0
  else
    match memKind s pa with
    | none => .bad .addressOutOfRange 0
    | some .weightStore => if ws then .here pa key else .bad .weightStoreAccess 0
    | some _ => if slotLoaded s key then .here pa key else .bad .key 0

/-- Translation with forwarding (R346, R178): the third forward entry met ends the access. `perm` is what an earlier
forward entry granted, `first` the entry (level, PTE) that the party holds already (R411). -/
def xlateFrom (s : State) (hs : List Nat) (part need : Nat) (ws : Bool) (fuel asid va : Nat) (perm : Option Nat) (met : Nat)
    (first : Option (Nat × Nat) := none) : XRes :=
  match fuel with
  | 0 => .bad .forwardLimit 0
  | fuel + 1 =>
    match (match first with | some e => Walk.found e.1 e.2 | none => lookup s hs part asid va) with
    | .fail _ _ => .bad .translation 0
    | .unc _ k => .bad .uncorrectableError (memAux s k)
    | .found level pte =>
      let p := perm.getD (ptePerm pte)
      if p &&& need != need then .bad .permission 0
      else if bits pte 61 2 = 1 then leafRes s part va level pte ws
      else if met ≥ 2 then .bad .forwardLimit 0
      else
        let chip := bits pte 0 12
        let sh := pageShift level
        let va' := bits pte 12 40 * 4096 / 2 ^ sh * 2 ^ sh + va % 2 ^ sh
        if chip = chipId s then xlateFrom s hs part need ws fuel (rbits (pkg s (0x301 + 8 * part)) 32 16) va' (some p) (met + 1)
        else .away chip va' (some p) (met + 1)

/-- The translation of a virtual address under an ASID (R83, R343 to R346). -/
def xlate (s : State) (hs : List Nat) (part asid va need : Nat) (ws : Bool := false) : XRes :=
  xlateFrom s hs part need ws 3 asid va none 0

/-! ### The KV block table (R157 to R159) -/

/-- The sequence record of a partition (R158): its granule in CSM. -/
def kvRecord (s : State) (part seq : Nat) : Nat := csmKey (rbits (partReg s part 0x051) 0 28 + 64 * seq)

/-- Word `j` of a sequence record. -/
def kvWord (s : State) (part seq j : Nat) : Nat := memRead s (kvRecord s part seq + 8 * j) 8

/-- Fields of a sequence record (R158). -/
def kvStride (s : State) (part seq : Nat) : Nat := bits (kvWord s part seq 2) 0 10 * 64
def kvAsid (s : State) (part seq : Nat) : Nat := bits (kvWord s part seq 5) 0 16

/-- A block table entry as read (R157, R159). -/
inductive KvEnt where
  | resident (loc : Nat)
  | nvme (loc : Nat)
  | loading (loc : Nat)
  | invalid
  /-- The entry lies behind a forward entry (R178): chip, address there, R, W and X, and forward entries met. -/
  | far (chip va : Nat) (perm : Option Nat) (fwd : Nat)
  | bad (c : Cause) (aux : Nat)
deriving DecidableEq, Repr

/-- The meaning of an entry word (R157). -/
def kvEntOf (w : Nat) : KvEnt :=
  if bits w 48 13 != 0 then .invalid
  else
    match bits w 61 3 with
    | 1 | 2 => .resident (bits w 0 48)
    | 3 => .nvme (bits w 0 48)
    | 4 => .loading (bits w 0 48)
    | _ => .invalid

/-- The entry of a block through the KBTB of a cluster (R159). -/
def kvEntry (s : State) (c part seq b : Nat) : KvEnt :=
  match (s.cl c).kbtb.find? fun e => e.1 = part && e.2.1 = seq && e.2.2.1 = b with
  | some e => kvEntOf e.2.2.2
  | none =>
    if b ≥ bits (kvWord s part seq 1) 0 28 then .invalid
    else
      match xlate s [tlbEng 3 c, tlbDie (c / 96)] part (kvAsid s part seq) ((bits (kvWord s part seq 0) 0 52 + 8 * b) % 2 ^ 52) permR with
      | .here pa slot => if badAt s pa then .bad .uncorrectableError (memAux s pa) else kvEntOf (readUnder s pa 8 (some slot)).2
      | .away chip va perm fwd => .far chip va perm fwd
      | .bad c a => .bad c a

/-- Caches a resident entry in the KBTB; the oldest of 256 leaves (R159). -/
def State.putKbtb (s : State) (c part seq b loc : Nat) : State :=
  let x := s.cl c
  if x.kbtb.any fun e => e.1 = part && e.2.1 = seq && e.2.2.1 = b then s
  else s.setCl c { x with kbtb := (if x.kbtb.length ≥ 256 then x.kbtb.drop 1 else x.kbtb) ++ [(part, seq, b, 2 ^ 61 + loc)] }
def State.fillKbtb (s : State) (c part seq b : Nat) : State :=
  match kvEntry s c part seq b with
  | .resident loc => s.putKbtb c part seq b loc
  | _ => s

/-! ### One address (R79 to R86) -/

/-- Where one address of an access leads. -/
inductive LocRes where
  | piece (p : List Piece)
  /-- A KV block that is not resident, or whose entry has to be asked for (R84, R178): its sequence and block. -/
  | kv (seq b : Nat)
  | bad (c : Cause) (aux : Nat)
deriving DecidableEq, Repr

/-- The party whose access it is: cluster, partition, ASID, kernel, the caches it uses, and whether it is an engine. -/
structure Party where
  c : Nat
  part : Nat
  asid : Nat
  kernel : Option Nat
  tlbs : List Nat
  engine : Bool := false
  /-- Copy engines, WLOAD and key-match stores reach the weight store (R83). -/
  ws : Bool := false
  /-- Translations held, looked up before any cache (R411). -/
  held : List TEnt := []
deriving DecidableEq, Repr

/-- A node as the party of its own accesses. -/
def State.party (s : State) (nk : Nat) : Party :=
  let n := s.nd nk
  { c := nk / 8, part := n.part, asid := n.asid, kernel := n.kernel, tlbs := [tlbCl (nk / 8), tlbDie (nk / 8 / 96)] }

/-- A scratchpad address: its range (R86) and its tile's owner (R80). -/
def spLoc (s : State) (p : Party) (cl off size lane va : Nat) : LocRes :=
  if off ≥ 0x180000 then .bad .addressOutOfRange 0
  else if ((s.cl cl).engTiles.contains (off / 4096)) != p.engine then .bad .ownerViolation 0
  else
    let one (o n : Nat) : Piece := { key := spKey cl (off + o), size := n, lane := lane + o, va := va + o }
    .piece (if size = 64 then [one 0 32, one 32 32] else [one 0 size])

/-- A translated address as a location. -/
def xLoc (r : XRes) (size lane va : Nat) : LocRes :=
  match r with
  | .here pa slot => .piece [{ key := pa, size := size, lane := lane, va := va, slot := some slot }]
  | .away chip w perm fwd =>
    .piece [{ key := remoteKey chip w, size := size, lane := lane, va := va, perm := perm, fwd := fwd }]
  | .bad c a => .bad c a

/-- Where `size` bytes at an address of a space lead (R79 to R86, R93 of ASP). `need` is the permission of R83. DESIGN
CHOICE: of several conditions of R86 that hold at once the first of these is reported: misaligned, the space's range, the
block's state (R84), the record's end, translation (assumption 100). -/
def locate (s : State) (p : Party) (asp : Asp) (addr size lane need : Nat) : LocRes :=
  if addr % size != 0 then .bad .misaligned 0
  else
    match asp with
    | .sp => if addr ≥ 2 ^ 21 then .bad .addressOutOfRange 0 else spLoc s p p.c addr size lane addr
    | .xp =>
      let cl := bits addr 21 8
      if addr ≥ 2 ^ 29 then .bad .addressOutOfRange 0
      else if cl ≥ 192 || (s.cl cl).holder.map (·.1) != p.kernel || p.kernel.isNone then .bad .permission 0
      else spLoc s p cl (addr % 2 ^ 21) size lane addr
    | .sh =>
      let w := pkg s (0x303 + 8 * p.part)
      if addr ≥ 2 ^ 28 then .bad .addressOutOfRange 0
      else if addr < rbits w 0 28 || addr + size > rbits w 0 28 + rbits w 32 29 then .bad .permission 0
      else .piece [{ key := csmKey addr, size := size, lane := lane, va := addr }]
    | .gv =>
      if addr ≥ 2 ^ 52 then .bad .addressOutOfRange 0
      else
        match p.held.find? fun e => e.asid = p.asid && e.vpn = addr / 2 ^ pageShift e.level with
        | some e => xLoc (xlateFrom s p.tlbs p.part need p.ws 3 p.asid addr none 0 (some (e.level, e.pte))) size lane addr
        | none => xLoc (xlate s p.tlbs p.part p.asid addr need p.ws) size lane addr
    | .kv =>
      let seq := bits addr 48 16
      let pos := bits addr 16 32
      let f := bits addr 0 16
      let stride := kvStride s p.part seq
      match kvEntry s p.c p.part seq (pos / 16) with
      | .invalid => .bad .kvBlockInvalid 0
      | .bad c a => .bad c a
      | .nvme _ | .loading _ | .far _ _ _ _ => .kv seq (pos / 16)
      | .resident loc =>
        if f + size > stride then .bad .addressOutOfRange 0
        else xLoc (xlate s [tlbEng 3 p.c, tlbDie (p.c / 96)] p.part (kvAsid s p.part seq)
          ((loc + pos % 16 * stride + f) % 2 ^ 52) need p.ws) size lane addr
    | .rm =>
      let chip := bits addr 52 12
      let va := addr % 2 ^ 52
      if chip = chipId s then
        xLoc (xlate s [tlbDie (p.c / 96)] p.part (rbits (pkg s (0x301 + 8 * p.part)) 32 16) va need p.ws) size lane addr
      else .piece [{ key := remoteKey chip va, size := size, lane := lane, va := addr }]

/-- Fills the caches that an access through `locate` went through (R347, R159). -/
def State.touch (s : State) (p : Party) (asp : Asp) (addr : Nat) : State :=
  match asp with
  | .gv => s.fillTlb p.tlbs p.part p.asid addr
  | .kv =>
    let seq := bits addr 48 16
    let pos := bits addr 16 32
    let s := s.fillKbtb p.c p.part seq (pos / 16)
    match kvEntry s p.c p.part seq (pos / 16) with
    | .resident loc =>
      s.fillTlb [tlbEng 3 p.c, tlbDie (p.c / 96)] p.part (kvAsid s p.part seq)
        ((loc + pos % 16 * kvStride s p.part seq + bits addr 0 16) % 2 ^ 52)
    | _ => s
  | _ => s

end Sys2Proof.Machine
end

