-- ==== Sys2Proof/Machine/KvLoad.lean ====
section
/-!
DEFINITION. Device-owned NVMe queues (R164 to R167) and the loading of KV blocks (R160).
-/

namespace Sys2Proof.Machine

/-! ### NVMe queue pairs -/

/-- The checks of R165 for a partition and a namespace. -/
def nvCheck (s : State) (q part ns : Nat) : Option Cause :=
  let cfg := pkg s (0x102 + 4 * q)
  if rbits cfg 34 1 = 0 then some .nvmeError
  else if rbits cfg 42 6 != part || ns < rbits (pkg s (0x100 + 4 * q)) 56 8 || ns > rbits (pkg s (0x101 + 4 * q)) 56 8 then
    some .permission
  else none

/-- The 4 KiB pages behind `n` bytes of a virtual range (R166): physical address, key slot and length of each piece; behind a
forward entry, the place at the other chip and what the entries met grant (R178). -/
def vaPages (s : State) (hs : List Nat) (part asid need : Nat) : Nat → Nat → Nat → Except (Cause × Nat) (List (Nat × Nat × Nat))
  | 0, _, _ => .ok []
  | fuel + 1, va, n =>
    if n = 0 then .ok []
    else
      let len := min n (4096 - va % 4096)
      let rest (pa slot : Nat) : Except (Cause × Nat) (List (Nat × Nat × Nat)) :=
        match vaPages s hs part asid need fuel (va + len) (n - len) with
        | .error e => .error e
        | .ok ps => .ok ((pa, slot, len) :: ps)
      match xlate s hs part asid (va % 2 ^ 52) need with
      | .bad c a => .error (c, a)
      | .away chip w perm fwd => rest (remoteKey chip w) (perm.getD 7 + 8 * fwd)
      | .here pa slot => rest pa slot

/-- The first `n` bytes of a list of pages, and the rest. -/
def takeBytes : Nat → List (Nat × Nat × Nat) → List (Nat × Nat × Nat) × List (Nat × Nat × Nat)
  | _, [] => ([], [])
  | n, (pa, sl, len) :: ps =>
    if n = 0 then ([], (pa, sl, len) :: ps)
    else if len ≤ n then
      let r := takeBytes (n - len) ps
      ((pa, sl, len) :: r.1, r.2)
    else ([(pa, sl, n)], (pa + n, sl, len - n) :: ps)

/-- Splits a transfer into jobs of at most 128 KiB, in order (R166). `per` is the LBAs of one job. -/
def nvJobs (read fua : Bool) (ns lbs per : Nat) : Nat → Nat → Nat → List (Nat × Nat × Nat) → List NvJob
  | 0, _, _, _ => []
  | fuel + 1, lba, cnt, pages =>
    if cnt = 0 then []
    else
      let k := min cnt per
      let t := takeBytes (k * lbs) pages
      { read := read, ns := ns, lba := lba, nlb := k, pages := t.1, fua := fua } :: nvJobs read fua ns lbs per fuel (lba + k) (cnt - k) t.2

/-- The submission queue of pair `q` has room for another command. -/
def nvRoom (s : State) (q : Nat) : Bool := (s.nv.filter fun x => x.qp = q).length < rbits (pkg s (0x102 + 4 * q)) 0 16

/-- The lowest command identifier of a queue pair that no command holds, searched through `fuel` identifiers. -/
def freeCid (s : State) (q : Nat) : Nat → Nat → Nat
  | 0, c => c
  | fuel + 1, c => if s.nv.any fun x => x.qp = q && x.cid = c then freeCid s q fuel (c + 1) else c

/-- `n` free bytes, as one number. -/
def freeBytes (s : State) (n : Nat) : Nat :=
  (List.range n).foldr (fun i a => (Config.freeByte (s.sched.fresh * 64 + i)).toNat + 256 * a) 0

/-- The pieces of a command's bytes at other chips, within granules: place, permission word, and where in the bytes they begin. -/
def farPieces : Nat → List (Nat × Nat × Nat) → List (Nat × Nat × Nat × Nat)
  | _, [] => []
  | off, (pa, sl, len) :: ps =>
    (if isRemote pa then
      (List.range (len / 64 + 2)).filterMap fun i =>
        let a := if i = 0 then 0 else 64 * i - pa % 64
        let n := min (64 - (pa + a) % 64) (len - a)
        if a < len then some (pa + a, sl, off + a, n) else none
    else []) ++ farPieces (off + len) ps

/-- The storage unit's requests for the pieces at other chips of the command with queue pair `q` and identifier `cid`: it reads
them, or writes the bytes of `w` (R178). -/
def State.nvAsk (s : State) (q cid part : Nat) (ps : List (Nat × Nat × Nat × Nat)) (w : Option (List Byte)) : State :=
  ps.foldl (fun s p =>
    let r : Rreq :=
      { chip := chipId s, nk := nvParty, id := q * 2 ^ 16 + cid, j := 0, part := part, va := remoteVa p.1, size := p.2.2.2
        ask := if w.isSome then .store else .load, op := .nvrd, b := leNat (((w.getD []).drop p.2.2.1).take p.2.2.2)
        perm := some (p.2.1 % 8), fwd := p.2.1 / 8 }
    s.post { src := 224, dst := placeOf p.1, cls := 0, part := part, n := p.2.2.2, rd := w.isNone, body := .rreq r }) s

/-- Submits one command: the 64-byte entry goes to the tail of the submission queue, and the tail steps (R164, R165).
The entry's layout is the NVM Command Set's (assumption 12). What a write finds at other chips is read now (R178). -/
def State.nvSubmit (s : State) (q : Nat) (owner : NvOwner) (j : NvJob) : State :=
  let stat := pkg s (0x103 + 4 * q)
  let sqt := rbits stat 0 16
  let cid := freeCid s q (s.nv.length + 1) 0
  let a := rbits (pkg s (0x100 + 4 * q)) 0 52 + 64 * sqt
  let bus (pa : Nat) : Nat := if isRemote pa then freeBytes s 8 else pa
  let prp1 := bus ((j.pages.map (·.1)).headD 0)
  let prp2 := if j.pages.length ≤ 1 then 0 else if j.pages.length = 2 then bus ((j.pages.map (·.1)).getD 1 0) else freeBytes s 8
  let s := if j.pages.length > 2 || j.pages.any (fun p => isRemote p.1) then s.takeFresh else s
  let s := memWrite s a 0 64
  let s := memWrite s a ((if j.read then 2 else 1) + cid * 2 ^ 16) 4
  let s := memWrite s (a + 4) j.ns 4
  let s := memWrite s (a + 24) prp1 8
  let s := memWrite s (a + 32) prp2 8
  let s := memWrite s (a + 40) j.lba 8
  let s := memWrite s (a + 48) ((j.nlb - 1) + j.fua.toNat * 2 ^ 30) 4
  let n := rbits (pkg s (0x102 + 4 * q)) 0 16 + 1
  let s := srSet s 0 (0x103 + 4 * q) (BitVec.ofNat 64 (rbits stat 16 16 * 2 ^ 16 + (sqt + 1) % n))
  let far := if j.read then [] else farPieces 0 j.pages
  let v : NvCmd := { qp := q, cid := cid, owner := owner, job := j, start := s.now, far := far.length }
  State.nvAsk { s with nv := s.nv ++ [v] } q cid (rbits (pkg s (0x102 + 4 * q)) 42 6) far none

/-! ### KV block loads -/

/-- The byte address of the table entry of a block, for a change of it (R160). -/
def kvEntAddr (s : State) (l : KvLoad) : XRes :=
  xlate s [tlbEng 3 l.c, tlbDie (l.c / 96)] l.part (kvAsid s l.part l.seq)
    ((bits (kvWord s l.part l.seq 0) 0 52 + 8 * l.b) % 2 ^ 52) (permR ||| permW)

/-- Changes the entry from one word to another by a compare-and-swap; says whether the swap was made (R160). -/
def State.kvSwap (s : State) (l : KvLoad) (old new : Nat) : State × Bool :=
  match kvEntAddr s l with
  | .here pa slot =>
    let r := readUnder s pa 8 (some slot)
    if r.2 = old then (writeUnder r.1 pa 8 new (some slot), true) else (r.1, false)
  | _ => (s, false)

/-- The gather engine's request for a word at another chip (R178): a read, or the operation `op` on it. -/
def State.kvSend (s : State) (id : Nat) (l : KvLoad) (chip va : Nat) (perm : Option Nat) (fwd : Nat) (ask : Ask) (op : Op)
    (b b2 : Nat) : State :=
  let r : Rreq :=
    { chip := chipId s, nk := kvParty + l.c, id := id, j := 0, part := l.part, va := va, size := 8, ask := ask, op := op, b := b
      b2 := b2, perm := perm, fwd := fwd }
  s.post { src := l.c, dst := farPlace chip 224, cls := 0, part := l.part, n := 8, rd := decide (ask = .load), body := .rreq r }

/-- The table entry of a block lies in a granule that an atomic has reserved: the swap waits (R97, R116). -/
def State.kvBarred (s : State) (l : KvLoad) : Bool :=
  match kvEntAddr s l with
  | .here pa _ => s.memx.resv.any fun r => r.1 = granule pa
  | _ => false

/-- The entry words of a block's states NVMe and loading, with a LOC (R157). -/
def kvNvme (loc : Nat) : Nat := 3 * 2 ^ 61 + loc
def kvLoading (loc : Nat) : Nat := 4 * 2 ^ 61 + loc

/-- A failed load: every access and command that waits on the block ends with the cause (R84, R160). -/
def State.kvFail (s : State) (part seq b : Nat) (c : Cause) (aux x : Nat) : State :=
  let waits (a : Acc) : Bool := a.kvw = some (seq, b) && a.st = .waiting
  let s := s.nodes.foldl (fun s (e : Nat × Node) =>
    if e.2.part = part then
      (e.2.mif.filter waits).foldl (fun s a =>
        let p : Pending :=
          { cause := c, n := a.n, ws := a.ws, age := a.age, ix := some a.ix, spc := 4, va := ((a.l.map (·.val.nat)).getD 0)
            aux := aux, x := x, opc := ((a.instr.view.map fun v => v.1.code)).getD 0 }
        s.raise e.1 p) s
    else s) s
  let p : Pending := { cause := c, n := 0, ws := 0, age := 0, aux := aux, x := x }
  let fix (m : Cmd) : Cmd := if m.part = part && m.kvw = some (seq, b) then { m with fail := some p } else m
  { s with clusters := s.clusters.map fun (e : Nat × Cluster) =>
      (e.1, { e.2 with units := e.2.units.map fun (u : Nat × List Cmd) => (u.1, u.2.map fix) }) }

/-- Submits what fits of a load's jobs. -/
def State.kvPump (s : State) (id : Nat) : State :=
  match Tab.find s.kvl id with
  | none => s
  | some l =>
    let q := bits (kvWord s l.part l.seq 4) 16 6
    l.todo.foldl (fun s j =>
      match Tab.find s.kvl id with
      | none => s
      | some l =>
        if nvRoom s q && l.todo.headD j = j then
          let s := s.nvSubmit q (.load id) j
          { s with kvl := Tab.put s.kvl id { l with todo := l.todo.drop 1, out := l.out + 1 } }
        else s) s

/-- Step 3 of R160: the frame's pages, the checks of R165, and the read. -/
def State.kvRead (s : State) (id frame : Nat) : State :=
  match Tab.find s.kvl id with
  | none => s
  | some l =>
    let lbs := if bits (kvWord s l.part l.seq 4) 24 1 = 1 then 4096 else 512
    let q := bits (kvWord s l.part l.seq 4) 16 6
    let cnt := (16 * kvStride s l.part l.seq + lbs - 1) / lbs
    let ns := bits l.old 40 8
    let set (s : State) (l : KvLoad) : State := { s with kvl := Tab.put s.kvl id l }
    match nvCheck s q l.part ns with
    | some c => set s { l with st := .reading, frame := frame, fail := some (c, 0) }
    | none =>
      match vaPages s [tlbEng 3 l.c, tlbDie (l.c / 96)] l.part (kvAsid s l.part l.seq) permW (cnt * lbs / 4096 + 2) frame (cnt * lbs) with
      | .error e => set s { l with st := .reading, frame := frame, fail := some e }
      | .ok ps =>
        (set s { l with st := .reading, frame := frame
                        todo := nvJobs true false ns lbs (131072 / lbs) (cnt + 1) (bits l.old 0 40) cnt ps }).kvPump id

/-- A load goes to another stage, or ends with a failure of its own, as step 5 does. -/
def State.kvSet (s : State) (id : Nat) (l : KvLoad) : State := { s with kvl := Tab.put s.kvl id l }
def State.kvStop (s : State) (id : Nat) (l : KvLoad) (c : Cause) (a : Nat) : State :=
  s.kvSet id { l with st := .reading, fail := some (c, a) }

/-- A word of the landing ring, under the sequence's ASID. -/
def State.kvRingAt (s : State) (l : KvLoad) (off need : Nat) : XRes :=
  xlate s [tlbEng 3 l.c, tlbDie (l.c / 96)] l.part (kvAsid s l.part l.seq) ((bits (kvWord s l.part l.seq 3) 0 52 + off) % 2 ^ 52) need

/-- The frame that the ring's word for an old HEAD names (R160). -/
def State.kvSlot (s : State) (id : Nat) (l : KvLoad) (head : Nat) : State :=
  let j := head % max 1 (bits (kvWord s l.part l.seq 4) 0 16)
  match s.kvRingAt l (64 + 8 * j) permR with
  | .bad c a => s.kvStop id l c a
  | .away chip va perm fwd => (s.kvSet id { l with st := .slot }).kvSend id l chip va perm fwd .load .ld 0 0
  | .here fa fs =>
    if badAt s fa then s.kvStop id l .uncorrectableError (memAux s fa)
    else
      let f := readUnder s fa 8 (some fs)
      f.1.kvRead id (f.2 % 2 ^ 48)

/-- Step 2 of R160: a frame from the landing ring, or a wait while HEAD equals TAIL, or while an atomic has reserved the ring's
granule (R116). DESIGN CHOICE: a translation or a read of the ring that fails ends the load as step 5 does (assumption 101). -/
def State.kvRing (s : State) (id : Nat) : State :=
  match Tab.find s.kvl id with
  | none => s
  | some l =>
    match s.kvRingAt l 0 (permR ||| permW) with
    | .bad c a => s.kvStop id l c a
    | .away chip va perm fwd => (s.kvSet id { l with st := .head }).kvSend id l chip va perm fwd .load .ld 0 0
    | .here pa slot =>
      if badAt s pa then s.kvStop id l .uncorrectableError (memAux s pa)
      else if s.memx.resv.any fun r => r.1 = granule pa then s.kvSet id { l with st := .ring, since := s.now - 1024 }
      else
        let h := readUnder s pa 8 (some slot)
        let t := readUnder h.1 (pa + 8) 8 (some slot)
        let s := t.1
        if h.2 = t.2 then s.kvSet id { l with st := .ring, since := s.now }
        else (writeUnder s pa 8 (h.2 + 1) (some slot)).kvSlot id l h.2

/-- Step 1 of R160 on an entry that was read as NVMe. DESIGN CHOICE: where the entry cannot be written, the accesses that wait
fault (assumption 101). -/
def State.kvClaim (s : State) (id : Nat) (l : KvLoad) : State :=
  match kvEntAddr s l with
  | .bad cz a => ({ s with kvl := Tab.del s.kvl id }).kvFail l.part l.seq l.b cz a 0
  | .away chip va perm fwd =>
    (s.kvSet id { l with st := .claim }).kvSend id l chip va perm fwd .rmw .acas (kvNvme l.old) (kvLoading l.old)
  | .here _ _ =>
    let r := s.kvSwap l (kvNvme l.old) (kvLoading l.old)
    if r.2 then (r.1.kvSet id { l with st := .ring }).kvRing id else { r.1 with kvl := Tab.del r.1.kvl id }

/-- The gather engine of a cluster is asked for a block whose entry is not in its KBTB, or in state NVMe (R84, R159, R160). -/
def State.kvAsk (s : State) (c part seq b : Nat) : State :=
  if s.kvl.any fun e => e.2.part = part && e.2.seq = seq && e.2.b = b then s
  else
    let id := Tab.nextKey s.kvl
    match kvEntry s c part seq b with
    | .nvme loc =>
      let l : KvLoad := { c := c, part := part, seq := seq, b := b, old := loc }
      if s.kvBarred l then s else s.kvClaim id l
    | .far chip va perm fwd =>
      let l : KvLoad := { c := c, part := part, seq := seq, b := b, old := 0, st := .look }
      (s.kvSet id l).kvSend id l chip va perm fwd .load .ld 0 0
    | _ => s

/-- What waits on a block reads its entry again (R160). -/
def State.kvWake (s : State) (part seq b : Nat) : State :=
  let wake (a : Acc) : Acc := if a.kvw = some (seq, b) then { a with kvw := none } else a
  let go (m : Cmd) : Cmd := if m.part = part && m.kvw = some (seq, b) then { m with kvw := none } else m
  { s with
    nodes := s.nodes.map fun (e : Nat × Node) => (e.1, if e.2.part = part then { e.2 with mif := e.2.mif.map wake } else e.2)
    clusters := s.clusters.map fun (e : Nat × Cluster) =>
      (e.1, { e.2 with units := e.2.units.map fun (u : Nat × List Cmd) => (u.1, u.2.map go) }) }

/-- What the entry of a block becomes when its load ends (R160): NVMe again, or the memory that the frame reaches. DESIGN CHOICE: a
frame at another chip counts as HBM (assumption 108). -/
def State.kvNew (s : State) (l : KvLoad) : Nat :=
  match l.fail with
  | some _ => kvNvme l.old
  | none =>
    let st := match xlate s [tlbEng 3 l.c, tlbDie (l.c / 96)] l.part (kvAsid s l.part l.seq) l.frame permW with
      | .here pa _ => if memKind s pa = some .cxl then 2 else 1
      | _ => 1
    st * 2 ^ 61 + l.frame

/-- The last swap has been tried: step 4's or step 5's end. -/
def State.kvDone (s : State) (id : Nat) (l : KvLoad) (swapped : Bool) : State :=
  let s := { s with kvl := Tab.del s.kvl id }
  match l.fail with
  | some (c, a) => s.kvFail l.part l.seq l.b c a l.frame
  | none => (if swapped then s else countEvent s l.part l.c 6 1).kvWake l.part l.seq l.b

/-- The load of R160 ends: step 4 or step 5, once no atomic has reserved the entry's granule (R116). -/
def State.kvEnd (s : State) (id : Nat) : State :=
  match Tab.find s.kvl id with
  | none => s
  | some l =>
    if s.kvBarred l then s
    else
      match kvEntAddr s l with
      | .away chip va perm fwd =>
        (s.kvSet id { l with st := .back }).kvSend id l chip va perm fwd .rmw .acas (kvLoading l.old) (s.kvNew l)
      | _ =>
        let r := s.kvSwap l (kvLoading l.old) (s.kvNew l)
        r.1.kvDone id l r.2

/-- An entry word that the holder gave (R157, R159, R160). -/
def State.kvFound (s : State) (id : Nat) (l : KvLoad) (w : Nat) : State :=
  let gone := { s with kvl := Tab.del s.kvl id }
  match kvEntOf w with
  | .resident loc => (gone.putKbtb l.c l.part l.seq l.b loc).kvWake l.part l.seq l.b
  | .nvme loc => s.kvClaim id { l with old := loc }
  | .loading _ => gone
  | _ => gone.kvFail l.part l.seq l.b .kvBlockInvalid 0 0

/-- The answer of another chip to a load's request (R178): the load goes on. -/
def State.kvAnswer (s : State) (id v : Nat) (bad : Option (Cause × Nat × Nat)) : State :=
  match Tab.find s.kvl id with
  | none => s
  | some l =>
    match bad with
    | some (c, a, _) =>
      match l.st with
      | .look | .claim => ({ s with kvl := Tab.del s.kvl id }).kvFail l.part l.seq l.b c a 0
      | .back => s.kvDone id { l with fail := some (l.fail.getD (c, a)) } false
      | _ => s.kvStop id l c a
    | none =>
      match l.st with
      | .look => s.kvFound id l v
      | .claim => if v = kvNvme l.old then (s.kvSet id { l with st := .ring }).kvRing id else s.kvFound id l v
      | .head =>
        match s.kvRingAt l 8 permR with
        | .away chip va perm fwd => (s.kvSet id { l with st := .tail, frame := v }).kvSend id l chip va perm fwd .load .ld 0 0
        | .bad c a => s.kvStop id l c a
        | .here _ _ => s.kvSet id { l with st := .ring, since := s.now }
      | .tail =>
        if v = l.frame then s.kvSet id { l with st := .ring, since := s.now }
        else
          match s.kvRingAt l 0 (permR ||| permW) with
          | .away chip va perm fwd => (s.kvSet id { l with st := .take }).kvSend id l chip va perm fwd .rmw .aadd 1 0
          | .bad c a => s.kvStop id l c a
          | .here _ _ => s.kvSet id { l with st := .ring, since := s.now }
      | .take => s.kvSlot id l v
      | .slot => s.kvRead id (v % 2 ^ 48)
      | .back => s.kvDone id l (v = kvLoading l.old)
      | .ring | .reading => s

/-- Block loads stop, and their entries go back to NVMe (R160). -/
def State.stopLoads (s : State) : State :=
  let s := s.kvl.foldl (fun s (e : Nat × KvLoad) =>
    match kvEntAddr s e.2 with
    | .away chip va perm fwd => s.kvSend e.1 e.2 chip va perm fwd .rmw .acas (kvLoading e.2.old) (kvNvme e.2.old)
    | _ => (s.kvSwap e.2 (kvLoading e.2.old) (kvNvme e.2.old)).1) s
  { s with kvl := [], nv := [] }

end Sys2Proof.Machine
end

