-- ==== Sys2Proof/Machine/Mem.lean ====
section
/-!
DEFINITION. The memory interface: how M-format instructions fire (R106), the wave chain (R87 to R90), when an access may
be performed (R91, R94, R95, R127), how it is performed at its place of atomicity (R81, R97 to R103), and the memory
instructions LD to LDRGN.
-/

namespace Sys2Proof.Machine

/-! ### What an access is -/

def Acc.writes (a : Acc) : Bool := opStore a.op || opRmw a.op
/-- Performed, or passed on without an access. -/
def Acc.done (a : Acc) : Bool := a.st = .performed
/-- Performed, or holding its reservation. -/
def Acc.settled (a : Acc) : Bool := a.st = .performed || a.st = .reserved || a.st = .ending

/-- The effect instructions of the M format (R39, R126). -/
def opEffect (o : Op) : Bool := opStore o || opRmw o || o = .rel || o = .seminc || o = .tgive

/-- The permission of R83 that an access needs. -/
def opNeed (o : Op) : Nat := if opLoad o then permR else if opStore o then permW else permR ||| permW

/-- What a port takes. -/
inductive PortUse where
  | no | sc | vec | any
deriving DecidableEq, Repr

/-- Ports R and Q of an instruction (R98, R126); a start token is not a data port. -/
def opPorts (o : Op) : PortUse × PortUse :=
  match o with
  | .st | .aadd | .amin | .amax | .aand | .aor | .axor | .axchg | .afadd | .acq | .seminc | .semwait => (.sc, .no)
  | .acas => (.sc, .sc)
  | .stv | .gath | .bred => (.vec, .no)
  | .scat | .bupd => (.vec, .vec)
  | _ => (.no, .no)

/-- An operand has the width its port takes (R86). -/
def portOk (u : PortUse) (o : Option Opnd) : Bool :=
  match u, o with
  | .no, _ | .any, _ => true
  | .sc, some x => !x.val.isVec
  | .vec, some x => x.val.isVec
  | _, none => true

/-- A null arrived on a data port that the instruction uses (R44). -/
def nullIn (o : Op) (l r q : Option Opnd) : Bool :=
  isNull l || ((opPorts o).1 != .no && isNull r) || ((opPorts o).2 != .no && isNull q)

/-- A data port has a token of the wrong width; FENCE, SBWAIT and MNOP take any L (R105, R126). -/
def widthBad (o : Op) (l r q : Option Opnd) : Bool :=
  let any := o = .mnop || o = .fence || o = .sbwait
  !(any || portOk .sc l) || !portOk (opPorts o).1 r || !portOk (opPorts o).2 q

/-- Payload byte and address of each part of an access (R98 to R100): skipped lanes have none. -/
def accAddrs (a : Acc) : List (Nat × Nat) :=
  let base := (a.l.map (·.val.nat)).getD 0
  if a.op = .gath || a.op = .scat then
    let w := szBytes a.w.sz.toNat
    (List.range (64 / w)).filterMap fun i =>
      let off := ((a.r.map (·.val.lane (8 * w) i)).getD 0)
      if off = 2 ^ (8 * w) - 1 then none else some (i * w, base + off)
  else [(0, base)]

/-- All parts located; the first failure ends it (R86, R100). -/
def locAll (s : State) (p : Party) (asp : Asp) (size need : Nat) : List (Nat × Nat) → LocRes
  | [] => .piece []
  | (b, addr) :: r =>
    match locate s p asp addr size b need with
    | .piece ps =>
      match locAll s p asp size need r with
      | .piece qs => .piece (ps ++ qs)
      | o => o
    | o => o

/-- Where an access of a node leads now. -/
def State.accLoc (s : State) (nk : Nat) (a : Acc) : LocRes :=
  locAll s (s.party nk) a.w.asp (szBytes a.w.sz.toNat) (opNeed a.op) (accAddrs a)

/-- The caches an access went through are filled (R347). -/
def State.accTouch (s : State) (nk : Nat) (a : Acc) : State :=
  (accAddrs a).foldl (fun s t => s.touch (s.party nk) a.w.asp t.2) s

/-- The pieces an access is known to cover: as translated, or as it would be translated now. -/
def State.accPieces (s : State) (nk : Nat) (a : Acc) : List Piece :=
  if !a.loc.isEmpty then a.loc
  else if !opAccess a.op then []
  else match s.accLoc nk a with | .piece ps => ps | _ => []

/-- Two lists of pieces share a byte. -/
def overlap (ps qs : List Piece) : Bool :=
  ps.any fun p => qs.any fun q => p.key < q.key + q.size && q.key < p.key + p.size

/-- The data of an access as one number in payload byte order. -/
def Acc.payload (a : Acc) : Nat := (((if a.op = .scat then a.q else a.r).map (·.val.nat)).getD 0)

/-! ### The wave chain (R87 to R90) -/

/-- The chain from access `a` on (R88). -/
def chainFrom (l : List Acc) : Nat → Acc → List Acc
  | 0, _ => []
  | k + 1, a =>
    a :: (if a.next = 0 then []
      else match l.find? fun b => b.id != a.id && (b.prev = a.seq || a.next = b.seq) with
        | none => []
        | some b => chainFrom l k b)

/-- The linked chain of the accesses of one invocation (R88). -/
def chain (l : List Acc) : List Acc :=
  match l.find? fun a => a.prev = 0 with
  | none => []
  | some a => chainFrom l l.length a

/-- The chain has reached its end. -/
def chainEnded (l : List Acc) : Bool := ((chain l).getLast?.map fun a => decide (a.next = 0)).getD false

/-- The accesses of an invocation, by its age. -/
def Node.accsOf (n : Node) (age : Nat) : List Acc := n.mif.filter fun a => a.age = age

/-- The chain of an invocation is linked (R39): every access reported lies on one chain with an end, or none reported. -/
def Node.chainLinked (n : Node) (age : Nat) : Bool :=
  let l := n.accsOf age
  l.isEmpty || (chainEnded l && (chain l).length = l.length)

/-- The ages of a chain's invocations older than one, oldest first. -/
def Node.olderAges (n : Node) (age : Nat) : List Nat :=
  ((n.mif.filter fun a => decide (a.age < age)).map (·.age)).foldl (fun l g => setIns g l) []

/-- The accesses before `a` in the node's chain, in chain order; none while some earlier place is not linked. -/
def Node.before (n : Node) (a : Acc) : Option (List Acc) :=
  let own := chain (n.accsOf a.age)
  if own.any fun b => b.id = a.id then
    let pre := own.takeWhile fun b => b.id != a.id
    if n.callable then some pre
    else if n.invs.all fun v => a.age ≤ v.age || chainEnded (n.accsOf v.age)
        || ((n.accsOf v.age).isEmpty && !((n.hdr.map (·.waves)).getD true)) then
      some ((n.olderAges a.age).flatMap (fun g => chain (n.accsOf g)) ++ pre)
    else none
  else none

/-! ### Done tokens and scoreboard gates (R94, R95) -/

/-- Some other M instruction of the mapped block names this element as its done target (R94). -/
def State.gatedBy (s : State) (c p ix : Nat) : Bool :=
  (s.cl c).ctx.any fun e =>
    let j := e.1 % 128
    e.1 / 128 = p && 64 ≤ j && j < 96 && j != ix && bits e.2.word.toNat 25 7 = ix && bits e.2.word.toNat 56 8 != 0xc2

/-- Sends the done token of an access (R94). -/
def State.sendDone (s : State) (nk : Nat) (a : Acc) : State :=
  if a.w.dt.toNat = a.ix then s
  else
    { s with inbox := s.inbox ++
        [{ src := nk / 8, dst := nk / 8, cls := 3, part := (s.nd nk).part
           body := .done nk a.ws (a.n % 65536) a.gn a.w.dt.toNat }] }

/-- No command of the invocation or an older one is pending on a scoreboard token (R143); for a callable node, of the
invocation itself (R310). -/
def Node.sbClear (n : Node) (k age : Nat) : Bool :=
  !n.sb.any fun e => e.1 = k && (e.2.1 = age || (!n.callable && e.2.1 < age))

/-- The gates of R94 and R95 are open. -/
def Node.gatesOpen (n : Node) (a : Acc) : Bool :=
  !a.gated && (match a.w.sbw with | none => true | some k => n.sbClear k.toNat a.age)

/-! ### Sync objects (R108, R109) -/

/-- A sync object as read: its words. -/
def objWord (s : State) (off k : Nat) : Nat := memRead s (csmKey off + 8 * k) 8

/-- A valid region is malformed (R109). -/
def regionBad (w : Nat) : Bool :=
  let rsp := bits w 61 3
  let lg := bits w 55 6
  5 ≤ rsp || bits w 52 3 != 0 || (if rsp = 4 then lg != 0 else decide (lg < 12 ∨ 40 < lg))

/-- The regions of an object that are valid: words 2 to 5. -/
def objRegions (s : State) (off : Nat) : List Nat :=
  (List.range 4).filterMap fun k => if bits (objWord s off 1) (4 + k) 1 = 1 then some (objWord s off (2 + k)) else none

/-- A region's reserved bits, whether it is valid or not; of a region that is not valid only bits 54:52. -/
def objReserved (s : State) (off : Nat) : Bool :=
  let w1 := objWord s off 1
  bits w1 8 56 != 0 || bits w1 3 1 != 0 || objWord s off 6 != 0 || objWord s off 7 != 0
    || (List.range 4).any (fun k => bits (objWord s off (2 + k)) 52 3 != 0)

/-- The checks of R109 for a node in cluster `c`. -/
def objCheck (s : State) (c off : Nat) : Option Cause :=
  let osc := bits (objWord s off 1) 0 3
  if osc < 2 || 4 < osc || objReserved s off || (objRegions s off).any regionBad then some .badSyncObject
  else if osc = 2 && c / 96 != bits off 16 1 then some .syncScope
  else none

/-- The address of an access lies in a region (R109): same space, every byte inside. -/
def inRegion (reg : Nat) (a : Acc) : Bool :=
  let rsp := bits reg 61 3
  a.w.asp.code = rsp && (accAddrs a).any fun t =>
    if rsp = 4 then decide (bits t.2 48 16 = bits reg 0 16)
    else decide (bits reg 0 52 ≤ t.2 ∧ t.2 + szBytes a.w.sz.toNat ≤ bits reg 0 52 + 2 ^ bits reg 55 6)

/-! ### When an access may be performed -/

/-- The tile of a TGIVE or TTAKE (R126). -/
def Acc.tile (a : Acc) : Nat := ((a.l.map (·.val.nat)).getD 0) / 4096

/-- The access touches tile `t` of cluster `c`, by its addresses: whoever owns the tile. -/
def Acc.onTile (a : Acc) (c t : Nat) : Bool :=
  opAccess a.op && (accAddrs a).any fun x =>
    match a.w.asp with
    | .sp => x.2 / 4096 = t
    | .xp => x.2 / 2 ^ 21 = c && x.2 % 2 ^ 21 / 4096 = t
    | _ => false

/-- A TGIVE earlier in the chain has given away a tile that the access touches (R134). -/
def givenTile (nk : Nat) (bs : List Acc) (a : Acc) : Bool :=
  bs.any fun b => b.op = .tgive && !b.off && !b.done && a.onTile (nk / 8) b.tile

/-- An unfinished ACQ, SEMWAIT, SBWAIT or TTAKE earlier in the chain holds the access back (R127). An ACQ binds the regions
that it reads at its object's bank (R110); until it has read them it holds every access. -/
def heldBy (nk : Nat) (b a : Acc) : Bool :=
  !b.done && !b.off && opAccess a.op &&
    match b.op with
    | .semwait | .sbwait => true
    | .acq => (match b.bound with | none => true | some rs => rs.any fun r => inRegion r a)
    | .ttake => a.onTile (nk / 8) b.tile
    | _ => false

/-- The access need not wait for an earlier access of its node to a common byte (R90): that is performed, or a load, or an
atomic with a result of the same invocation, takes what the earlier write gives. -/
def passes (a b : Acc) : Bool :=
  b.done || !opAccess a.op || !opAccess b.op || (b.writes && (opLoad a.op || (a.returns && b.age = a.age)))

/-- The chain lets the access be performed under its MODE, and R90 and R127 allow it. -/
def State.chainAllows (s : State) (nk : Nat) (a : Acc) (bs : List Acc) : Bool :=
  let mine := s.accPieces nk a
  bs.all fun b =>
    (b.w.mode != .ord || b.settled) && (a.w.mode != .ord || b.settled) && !heldBy nk b a
      && (passes a b || !overlap mine (s.accPieces nk b))

/-- What an earlier write of the node gives for one byte (R90): nothing, a byte, or a wait. -/
inductive Fwd where
  | no | byte (b : Byte) | wait
deriving DecidableEq, Repr

/-- The latest write before a load that covers key `k` and is not yet performed. -/
def fwdAt (bs : List Acc) (k : Nat) : Fwd :=
  match bs.reverse.find? fun b => b.writes && !b.off && !b.done && b.loc.any fun p => p.key ≤ k && k < p.key + p.size with
  | none => .no
  | some b =>
    match (b.loc.reverse.find? fun p => p.key ≤ k && k < p.key + p.size) with
    | none => .no
    | some p =>
      if opStore b.op then .byte (BitVec.ofNat 8 (b.payload / 2 ^ (8 * (p.lane + (k - p.key)))))
      else match b.newv with
        | some v => .byte (BitVec.ofNat 8 (v / 2 ^ (8 * (p.lane + (k - p.key)))))
        | none => .wait

/-- The earlier accesses of a node with the places they are known to cover: a write held since its block was not resident
has its place as it is translated now. -/
def State.placed (s : State) (nk : Nat) (bs : List Acc) : List Acc :=
  bs.map fun b => if b.writes && !b.off && !b.done then { b with loc := s.accPieces nk b } else b

/-- The bytes an access takes from earlier writes of its node, by payload byte; none when it must wait for one. -/
def forwards (bs : List Acc) (ps : List Piece) : Option (List (Nat × Byte)) :=
  (ps.flatMap fun p => (List.range p.size).map fun i => (p.lane + i, p.key + i)).foldl (fun acc t =>
    match acc with
    | none => none
    | some l =>
      match fwdAt bs t.2 with
      | .no => some l
      | .byte b => some (l ++ [(t.1, b)])
      | .wait => none) (some [])

/-! ### Entries of the interface -/

/-- Changes the chain entry `id` of a node. -/
def State.modAcc (s : State) (nk id : Nat) (f : Acc → Acc) : State :=
  s.modNd nk fun n => { n with mif := modFirst (fun a => a.id = id) f n.mif }

/-- The chain entry `id` of a node. -/
def State.accOf (s : State) (nk id : Nat) : Option Acc := (s.nd nk).mif.find? fun a => a.id = id

/-- A fault of an access (R86); the record names the address. -/
def State.accFault (s : State) (nk : Nat) (a : Acc) (c : Cause) (aux : Nat) (va : Nat) (chip : Option Nat := none) : State :=
  s.raise nk { cause := c, n := a.n, ws := a.ws, age := a.age, ix := some a.ix, spc := a.w.asp.code, va := va, aux := aux
               opc := a.op.code, chip := chip }

/-- An engine fault of a committed access (R85, R398). -/
def State.accEngFault (s : State) (nk : Nat) (a : Acc) (c : Cause) (aux va : Nat) (chip : Option Nat := none) : State :=
  s.engFault nk { cause := c, n := a.n, ws := a.ws, age := a.age, ix := some a.ix, spc := a.w.asp.code, va := va, aux := aux
                  opc := a.op.code, chip := chip }

/-- The address of an access for a record. -/
def Acc.va (a : Acc) : Nat := (a.l.map (·.val.nat)).getD 0

/-- Every message on its way: at its port, in the routers, or waiting to take effect. -/
def State.flying (s : State) : List Parcel :=
  s.ports.flatMap (fun (e : Nat × List Parcel) => e.2)
    ++ s.routers.flatMap (fun (e : Nat × Router) => e.2.bufs.flatMap fun (b : Nat × List RPkt) => b.2.map (·.m)) ++ s.inbox

/-- Puts a multicast into the network (R328): each destination with what it gets; one at the own place gets it at once. -/
def State.postAll (s : State) (m : Parcel) (to_ : List (Nat × Msg)) : State :=
  let s := (to_.filter fun t => t.1 = m.src).foldl (fun s t => s.post { m with dst := t.1, body := t.2 }) s
  match to_.filter fun t => t.1 != m.src with
  | [] => s
  | t :: ts => s.post { m with dst := t.1, body := t.2, to_ := ts }

/-- Sends the result of an access to T0 (R98), under the generation the request carried: a reply token, which is counted
against the outstanding requests until it arrives (R25, R28), or on port P a predicate (R59). -/
def State.accReply (s : State) (nk : Nat) (a : Acc) (v : Val) : State :=
  match a.w.t0 with
  | .slot ix pt =>
    let x := arriveAs pt .reply { val := v, ns := a.ns, em := a.em, er := a.er }
    let s := if x.1 = .reply then s.outAdd nk a.gn else s
    s.pushTok (nk / 8)
      { pl := nk % 8, ix := ix.toNat, pt := pt, ws := a.ws, it := a.n % 65536, kd := x.1, gn := a.gn, o := x.2 }
  | _ => s

/-- A write of scope .ND sends its done token when it is released at commit (R94). -/
def Acc.doneAtRelease (a : Acc) : Bool := a.writes && a.w.scope = .nd && !a.off

/-- An access of the interface is performed: the entry's new state, and its done token. -/
def State.accDone (s : State) (nk : Nat) (a : Acc) : State :=
  let s := s.modAcc nk a.id fun e => { e with st := .performed }
  if a.doneAtRelease then s else s.sendDone nk a

/-- The interface forgets a committed invocation whose accesses are all performed. -/
def State.pruneAccs (s : State) (nk : Nat) : State :=
  s.modNd nk fun n =>
    let keep (a : Acc) : Bool := n.invs.any (fun v => v.age = a.age) || (n.accsOf a.age).any (fun b => !b.done)
    { n with mif := n.mif.filter keep }

/-! ### Firing (R106) -/

/-- The entry an M instruction makes when it fires. -/
def newAcc (s : State) (i : Issue) (v : Inv) (ins : Instr) (w : MWord) (off : Bool) : Acc :=
  let n := s.nd i.nk
  let st := i.status
  { id := n.accNext, n := v.n, ws := v.ws, gn := n.gn, age := v.age, ix := i.ix
    seq := w.seq.toNat, prev := w.prev.toNat, next := w.next.toNat, instr := ins, l := i.l, r := i.r, q := i.q
    er := st.er, ns := st.ns, em := st.em, off := off
    gated := !off && s.gatedBy i.c i.p i.ix && !n.dones.contains (v.ws, v.it, i.ix)
    st := if off then .performed else .waiting }

/-- The entry joins the interface; a done token that came ahead of it is taken. -/
def State.addAcc (s : State) (nk : Nat) (a : Acc) : State :=
  s.modNd nk fun n => { n with
    mif := n.mif ++ [a]
    accNext := n.accNext + 1
    dones := n.dones.filter fun d => d != (a.ws, a.n % 65536, a.ix) }

/-- A store covers part, and not all, of a granule known to hold an uncorrectable error (R398). -/
def partialBad (s : State) (ps : List Piece) : Bool :=
  ps.any fun p => badAt s p.key && p.size < (if 2 ^ 53 ≤ p.key then 32 else 64)

/-- A held access meets a location known to hold an uncorrectable error (R86, R96, R397, R398): its key. -/
def knownBad (s : State) (op : Op) (ps : List Piece) : Option Nat :=
  if opStore op && !partialBad s ps then none else (ps.find? fun p => badAt s p.key).map (·.key)

/-- The checks that an effect instruction passes when it fires (R86, R96, R126): a fault, or the access located. -/
def State.firstPass (s : State) (nk : Nat) (a : Acc) : Option (Cause × Nat) × Acc :=
  if opAccess a.op then
    match s.accLoc nk a with
    | .bad c x => (some (c, x), a)
    | .piece ps =>
      match knownBad s a.op ps with
      | some k => (some (.uncorrectableError, memAux s k), a)
      | none => (none, { a with loc := ps })
    | .kv q b => (none, { a with kvw := some (q, b) })
  else (none, a)

/-- The address form of a synchronisation instruction (R126). -/
def syncAddrBad (s : State) (nk : Nat) (a : Acc) : Option Cause :=
  let l := a.va
  match a.op with
  | .acq | .rel =>
    if l ≥ 2 ^ 28 then some .addressOutOfRange
    else if l % 64 != 0 then some .misaligned
    else match locate s (s.party nk) .sh l 64 0 permR with | .bad c _ => some c | _ => none
  | .seminc | .semwait | .semrd =>
    if a.w.asp = .sp then (if l ≥ 64 then some .addressOutOfRange else none)
    else if l ≥ 2 ^ 29 || bits l 6 15 != 0 then some .addressOutOfRange
    else if bits l 21 8 ≥ 192 || ((s.cl (bits l 21 8)).holder.map (·.1) != (s.nd nk).kernel) || (s.nd nk).kernel.isNone then
      some .permission
    else none
  | .tgive | .ttake => if l ≥ 0x180000 || l % 4096 != 0 then some .addressOutOfRange else none
  | _ => none

/-- How an M instruction fires (R96, R106): predicated off or null it keeps its place only; otherwise it is checked and
joins the chain, and an effect instruction reports. DESIGN CHOICE: of several failing checks the error operand is reported
first, then the width, then the address (assumption 100). -/
def memFire (op : Op) (ins : Instr) (w : MWord) (i : Issue) (v : Inv) (s : State) : State :=
  let eff := opEffect op
  if !predHolds w.prd i || nullIn op i.l i.r i.q then
    let a := newAcc s i v ins w true
    ((if eff then s.report i false else s).addAcc i.nk a).sendDone i.nk a
  else if eff && i.status.er then s.fault i op .errorOperand
  else if widthBad op i.l i.r i.q then s.fault i op .widthMismatch
  else
    let a1 := newAcc s i v ins w false
    let a0 : Acc := { a1 with held := eff && !a1.returns }
    match syncAddrBad s i.nk a0 with
    | some c => s.accFault i.nk a0 c 0 a0.va
    | none =>
      if op = .mnop then
        let a : Acc := { a0 with st := .performed }
        (s.addAcc i.nk a).sendDone i.nk a
      else
        let f := if eff && !a0.returns then s.firstPass i.nk a0 else (none, a0)
        match f.1 with
        | some (c, x) => s.accFault i.nk a0 c x a0.va
        | none =>
          let s := (s.accTouch i.nk f.2).addAcc i.nk f.2
          let s := match f.2.kvw with | some (q, b) => s.kvAsk i.c (s.nd i.nk).part q b | none => s
          if eff then s.report i true else s

/-! ### Performing at the interface -/

/-- The access lies in the region that its LDRGN declared (R91, R92). -/
def Node.inStream (n : Node) (a : Acc) : Bool :=
  match n.regs.find? fun r => r.1 = a.ix && r.2.1 = a.n with
  | none => true
  | some (_, _, asp, base, len) =>
    len = 0 || (a.w.asp = asp && (accAddrs a).all fun t => base ≤ t.2 && t.2 + szBytes a.w.sz.toNat ≤ base + len)

/-- The bytes that read-ahead has bound (R91): a streaming load inside its region takes the bytes it has. -/
def Node.ahead (n : Node) (a : Acc) (ps : List Piece) : List (Nat × Byte) :=
  if a.w.mode != .stm || !n.inStream a then []
  else (ps.flatMap fun p => (List.range p.size).map fun i => (p.lane + i, p.key + i)).filterMap fun t =>
    (n.stmBuf.find? fun e => e.1 = a.ix && e.2.1 = a.n && e.2.2.1 = t.2).map fun e => (t.1, e.2.2.2)

/-- The access precedes, in its own invocation's chain, an atomic of its node that holds a reservation (R90, R97). -/
def Node.pastReserved (n : Node) (a : Acc) : Bool :=
  n.mif.any fun e => e.st = .reserved && e.age = a.age && ((n.before e).getD []).any fun b => b.id = a.id

/-- One message for each piece goes to the piece's place of atomicity (R79). -/
def State.sendPieces (s : State) (nk : Nat) (a : Acc) (ps : List Piece) : State :=
  let part := (s.nd nk).part
  (List.range ps.length).foldl (fun s j =>
    match ps[j]? with
    | none => s
    | some p =>
      let m : Parcel := { src := nk / 8, dst := placeOf p.key, cls := 1, part := part, n := p.size, rd := opLoad a.op
                          body := .acc nk a.id a.gn j }
      let s := s.outAdd nk a.gn
      if isRemote p.key then
        let ask : Ask := if opLoad a.op then .load else if opStore a.op then .store else if a.returns then .reserve else .rmw
        let r : Rreq :=
          { chip := chipId s, nk := nk, id := a.id, j := j, gn := a.gn, part := part, va := remoteVa p.key, size := p.size
            ask := ask, op := a.op
            b := if opStore a.op then a.payload / 2 ^ (8 * p.lane) % 2 ^ (8 * p.size) else a.payload
            b2 := (a.q.map (·.val.nat)).getD 0, perm := p.perm, fwd := p.fwd, past := (s.nd nk).pastReserved a }
        s.post { m with body := .rreq r }
      else s.post m) s

/-- A load, or an atomic with a result, leaves the interface (R90, R97). -/
def State.goRead (s : State) (nk : Nat) (a : Acc) (bs : List Acc) : State :=
  match s.accLoc nk a with
  | .bad c x => s.accFault nk a c x a.va
  | .kv q b => (s.modAcc nk a.id fun e => { e with kvw := some (q, b) }).kvAsk (nk / 8) (s.nd nk).part q b
  | .piece ps =>
    if givenTile nk bs a then s.accFault nk a .ownerViolation 0 a.va
    else
    match forwards (s.placed nk bs) ps with
    | none => s
    | some f =>
      let n := s.nd nk
      let s := if a.w.mode = .stm && !n.inStream a then countEvent s n.part (nk / 8) 4 1 else s
      let ah := (n.ahead a ps).filter fun t => !f.any fun u => u.1 = t.1
      let s := s.accTouch nk a
      let s := (s.modAcc nk a.id fun e => { e with
        st := .sent, kvw := none, loc := ps, left := List.range ps.length, fwdb := f ++ ah })
      if ps.isEmpty then
        (s.outAdd nk a.gn).post { src := nk / 8, dst := nk / 8, cls := 1, part := n.part, body := .acc nk a.id a.gn 0 }
      else s.sendPieces nk a ps

/-- A write released at commit leaves the interface. -/
def State.goWrite (s : State) (nk : Nat) (a : Acc) : State :=
  let s := s.modAcc nk a.id fun e => { e with st := .sent, left := List.range a.loc.length }
  if a.loc.isEmpty then (s.accDone nk a).pruneAccs nk else s.sendPieces nk a a.loc

/-- The current number and error flag of a semaphore (R131, R170). -/
def State.sem (s : State) (c k : Nat) : Nat := (Tab.get 0 (s.cl c).sems k).toNat
def State.semFlag (s : State) (c k : Nat) : Bool := (s.cl c).semErr.contains k

/-- The cluster and number of the semaphore that an access names (R126). -/
def Acc.semAt (a : Acc) (c : Nat) : Nat × Nat := (if a.w.asp = .xp then bits a.va 21 8 else c, a.va % 64)

/-- R[31:0] of a threshold or an amount (R126). -/
def Acc.amount (a : Acc) : Nat := ((a.r.map (·.val.nat)).getD 0) % 2 ^ 32

/-- The threshold and mark of a waiting SEMWAIT is met: it completes with the observed value (R132, R170). -/
def State.semMet (s : State) (nk : Nat) (a : Acc) : State :=
  let t := a.semAt (nk / 8)
  let a' := { a with er := a.er || s.semFlag t.1 t.2 }
  ((s.accReply nk a' (sc64 (s.sem t.1 t.2))).accDone nk a).modNd nk fun n => { n with stmBuf := [] }

/-- The access may be performed now, and these are the accesses before it. -/
def State.accOpen (s : State) (nk : Nat) (a : Acc) : Option (List Acc) :=
  let n := s.nd nk
  if a.st != .waiting || a.off || a.held || !n.gatesOpen a then none
  else
    match n.before a with
    | none => none
    | some bs => if s.chainAllows nk a bs then some bs else none

/-- What a FENCE waits for (R130): every write of an older invocation, and every read and atomic of its own invocation before
it, is performed. -/
def fenceMet (a : Acc) (bs : List Acc) : Bool :=
  bs.all fun b => b.done || (if b.age = a.age then !(opLoad b.op || opAtomic b.op) else !b.writes)

/-- Every write before a SEMINC, barrier or REL is performed. -/
def writesMet (bs : List Acc) : Bool := bs.all fun b => !b.writes || b.done

/-- Every SEMINC before one at semaphore `t` has left, and those at `t` have acted (R131). -/
def semTurn (nk : Nat) (t : Nat × Nat) (bs : List Acc) : Bool :=
  bs.all fun b => b.op != .seminc || b.off || b.done || (b.st = .sent && b.semAt (nk / 8) != t)

/-- No engine command, binding, flume or window of the cluster holds the tile (R135, R145, R268). -/
def Cluster.tileFree (x : Cluster) (t : Nat) : Bool :=
  !(x.units.any fun (u : Nat × List Cmd) => u.2.any fun m => m.tiles.contains t)
    && !(x.kms.any fun (k : Nat × Kms) =>
      k.2.slots.any (fun (b : Nat × Bind) => b.2.tiles.contains t) || k.2.outs.any fun o => o.tiles.contains t)
    && !(x.flumes.any fun (f : Nat × Flume) => f.2.ring ≤ t && t < f.2.ring + (f.2.nsl + 1) * (f.2.tps + 1))
    && !(x.windows.any fun (w : Nat × Window) =>
      bits (wordOf w.2.desc 0).toNat 61 3 = 0 &&
        bits (wordOf w.2.desc 0).toNat 0 52 / 4096 ≤ t &&
        t ≤ (bits (wordOf w.2.desc 0).toNat 0 52 + bits (wordOf w.2.desc 1).toNat 0 25 - 1) / 4096)

/-- Nothing holds the tile: nor does a command of another cluster (R135, R145). -/
def State.tileFree (s : State) (c t : Nat) : Bool :=
  (s.cl c).tileFree t
    && !(s.clusters.any fun (e : Nat × Cluster) => e.2.units.any fun (u : Nat × List Cmd) => u.2.any fun m => m.far.contains (c, t))

/-- The interface performs, or sends on its way, the access of an issue (`k` is its chain entry). An access that may not
be performed yet stays as it is. -/
def memPerform (i : Issue) (s : State) : State :=
  let nk := i.nk
  match s.accOf nk i.k with
  | none => s
  | some a =>
    match s.accOpen nk a with
    | none => s
    | some bs =>
      let n := s.nd nk
      match a.op with
      | .ld | .ldv | .gath => s.goRead nk a bs
      | .st | .stv | .scat | .bred | .bupd => s.goWrite nk a
      | .aadd | .amin | .amax | .aand | .aor | .axor | .axchg | .acas | .afadd =>
        if a.returns then (if n.oldest a.age then s.goRead nk a bs else s) else s.goWrite nk a
      | .acq =>
        let off := a.va
        if badAt s (csmKey off) then s.accFault nk a .uncorrectableError 2 a.va
        else
          match (if a.bound.isSome then none else objCheck s (nk / 8) off) with
          | some c => s.accFault nk a c 0 a.va
          | none =>
            if a.amount ≤ objWord s off 0 then
              ((s.accReply nk a (sc64 (objWord s off 0))).accDone nk a).modNd nk fun n => { n with stmBuf := [] }
            else if a.bound.isSome then s
            else s.modAcc nk a.id fun e => { e with bound := some (objRegions s off) }
      | .rel =>
        let ok := !badAt s (csmKey a.va) && (objCheck s (nk / 8) a.va).isNone
        let regs := if ok then objRegions s a.va else []
        let cov := (bs.filter fun b => b.writes && !b.done && regs.any fun r => inRegion r b).map (·.id)
        (s.modAcc nk a.id fun e => { e with st := .sent, cov := cov }).post
          { src := nk / 8, dst := placeOf (csmKey a.va), cls := 1, part := n.part, n := 64, body := .rel nk a.id }
      | .fence => if n.oldest a.age && fenceMet a bs then s.accDone nk a else s
      | .seminc =>
        let t := a.semAt (nk / 8)
        if writesMet bs && semTurn nk t bs then
          (s.modAcc nk a.id fun e => { e with st := .sent }).post
            { src := nk / 8, dst := t.1, cls := 3, part := n.part
              body := .sem t.1 t.2 a.amount (a.w.sz = 1) (some (nk, a.id)) false }
        else s
      | .semwait => if a.amount ≤ s.sem (a.semAt (nk / 8)).1 (a.semAt (nk / 8)).2 then s.semMet nk a else s
      | .semrd =>
        let t := a.semAt (nk / 8)
        (s.accReply nk { a with er := a.er || s.semFlag t.1 t.2 } (sc64 (s.sem t.1 t.2))).accDone nk a
      | .sbwait => ((s.accReply nk a (sc64 1)).accDone nk a).modNd nk fun n => { n with stmBuf := [] }
      | .ttake =>
        if s.tileFree (nk / 8) a.tile then
          ((s.modCl (nk / 8) fun x => { x with engTiles := x.engTiles.filter (· != a.tile) }).accDone nk a).modNd nk
            fun n => { n with stmBuf := [] }
        else s
      | .tgive => s
      | _ => s.accDone nk a

/-- An M instruction: its firing on an element, or the interface's work on an access of it. -/
def memExec (op : Op) (ins : Instr) (w : MWord) (s : State) : Out :=
  match s.sched.cur with
  | none => .next s
  | some i =>
    if i.perform then .next (memPerform i s)
    else
      match s.invOf i with
      | none => .next s
      | some v => .next (memFire op ins w i v s)

/-! ### The instructions -/

/-- R99. -/
def execLd (w : MWord) (s : State) : Out := memExec .ld (.ld w) w s
def execSt (w : MWord) (s : State) : Out := memExec .st (.st w) w s
def execLdv (w : MWord) (s : State) : Out := memExec .ldv (.ldv w) w s
def execStv (w : MWord) (s : State) : Out := memExec .stv (.stv w) w s
/-- R100. -/
def execGath (w : MWord) (s : State) : Out := memExec .gath (.gath w) w s
def execScat (w : MWord) (s : State) : Out := memExec .scat (.scat w) w s
/-- R101. -/
def execAadd (w : MWord) (s : State) : Out := memExec .aadd (.aadd w) w s
def execAmin (w : MWord) (s : State) : Out := memExec .amin (.amin w) w s
def execAmax (w : MWord) (s : State) : Out := memExec .amax (.amax w) w s
def execAand (w : MWord) (s : State) : Out := memExec .aand (.aand w) w s
def execAor (w : MWord) (s : State) : Out := memExec .aor (.aor w) w s
def execAxor (w : MWord) (s : State) : Out := memExec .axor (.axor w) w s
def execAxchg (w : MWord) (s : State) : Out := memExec .axchg (.axchg w) w s
def execAcas (w : MWord) (s : State) : Out := memExec .acas (.acas w) w s
/-- R102. -/
def execAfadd (w : MWord) (s : State) : Out := memExec .afadd (.afadd w) w s
/-- R103. -/
def execBred (w : MWord) (s : State) : Out := memExec .bred (.bred w) w s
def execBupd (w : MWord) (s : State) : Out := memExec .bupd (.bupd w) w s
/-- R105. -/
def execMnop (w : MWord) (s : State) : Out := memExec .mnop (.mnop w) w s

/-- R92: declares the region of descriptor SZ for the streaming element of T0 in this invocation, and sends it the
start token. -/
def execLdrgn (w : MWord) (s : State) : Out :=
  match s.sched.cur with
  | none => .next s
  | some i =>
    match s.invOf i with
    | none => .next s
    | some v =>
      if !predHolds w.prd i then .next s
      else
        match w.t0 with
        | .slot ix pt =>
          let d := w.sz.toNat % 4
          let base := (nodeReg s i.nk (0x48 + d)).toNat
          let len := rbits (nodeReg s i.nk (0x4c + d)) 0 32
          let s := s.modNd i.nk fun n => { n with regs := n.regs ++ [(ix.toNat, v.n, w.asp, base, len)] }
          .next (s.sendSlot i.c i.p ix.toNat i.ws i.it pt .data ({ : Opnd }.plus i.status))
        | _ => .next s

end Sys2Proof.Machine
end

