-- ==== Sys2Proof/Machine/Sync.lean ====
section
/-!
DEFINITION. The synchronisation instructions of the M format (R126 to R135). They fire as every M instruction does; what
each does at the memory interface is in `memPerform`, and what REL, SEMINC and TGIVE do at commit in `secondPass` and
in the events that follow.
-/

namespace Sys2Proof.Machine

/-- R128. -/
def execAcq (w : MWord) (s : State) : Out := memExec .acq (.acq w) w s
/-- R129. -/
def execRel (w : MWord) (s : State) : Out := memExec .rel (.rel w) w s
/-- R130. -/
def execFence (w : MWord) (s : State) : Out := memExec .fence (.fence w) w s
/-- R131. -/
def execSeminc (w : MWord) (s : State) : Out := memExec .seminc (.seminc w) w s
/-- R132. -/
def execSemwait (w : MWord) (s : State) : Out := memExec .semwait (.semwait w) w s
def execSemrd (w : MWord) (s : State) : Out := memExec .semrd (.semrd w) w s
/-- R133. -/
def execSbwait (w : MWord) (s : State) : Out := memExec .sbwait (.sbwait w) w s
/-- R134. -/
def execTgive (w : MWord) (s : State) : Out := memExec .tgive (.tgive w) w s
/-- R135. -/
def execTtake (w : MWord) (s : State) : Out := memExec .ttake (.ttake w) w s

end Sys2Proof.Machine
end

