-- ==== Sys2Proof/Machine/MemAt.lean ====
section
/-!
DEFINITION. Accesses at their place of atomicity (R81, R86, R97 to R103, R397, R398), requests of other chips (R85, R178),
and what a commit does with held accesses (R94, R96, R97).
-/

namespace Sys2Proof.Machine

/-! ### Values -/

/-- The float format of AFADD by size (R102). -/
def afaddFmt (size : Nat) : FF := if size = 2 then .b16 else if size = 4 then .f32 else .f64

/-- The new value of a read-modify-write on `size` bytes (R101 to R103). -/
def rmwNew (op : Op) (size old b b2 : Nat) : Nat :=
  let m := 2 ^ (8 * size)
  let x := b % m
  let lanes (f : Nat → Nat) : Nat := (List.range (size / 4)).foldl (fun a i => a + f i * 2 ^ (32 * i)) 0
  let ln (v i : Nat) : Nat := v / 2 ^ (32 * i) % 2 ^ 32
  match op with
  | .aadd => (old + x) % m
  | .amin => if sInt (8 * size) old ≤ sInt (8 * size) x then old else x
  | .amax => if sInt (8 * size) old ≥ sInt (8 * size) x then old else x
  | .aand => old &&& x
  | .aor => old ||| x
  | .axor => old ^^^ x
  | .axchg => x
  | .acas => if old = x then b2 % m else old
  | .afadd => ((afaddFmt size).add .rne false old x).1
  | .bred => lanes fun i => flAdd (ln old i) (ln b i)
  | .bupd => lanes fun i =>
      (FF.f32.ofFV .rne false (fvFma false (FF.f32.dec (ln b i)) (FF.f32.dec (ln old i)) (FF.f32.dec (ln b2 i)) .rne).1).1
  | _ => old

/-- Bytes laid over a number. -/
def overlay (v : Nat) (bs : List (Nat × Byte)) : Nat :=
  bs.foldl (fun v t => v - v / 2 ^ (8 * t.1) % 256 * 2 ^ (8 * t.1) + t.2.toNat * 2 ^ (8 * t.1)) v

/-- What a load's pieces and forwarded bytes make (R90, R99, R100). -/
def Acc.value (a : Acc) : Val :=
  let v := overlay (a.got.foldl (fun v t => v + t.2 * 2 ^ (8 * t.1)) 0) a.fwdb
  if a.op = .ldv || a.op = .gath then .vec (BitVec.ofNat 512 v) else sc64 v

/-! ### Reservations (R97) -/

/-- A reservation of the granule by someone else than chain entry `id` of `nk`. -/
def reservedBy (s : State) (k nk id : Nat) : Bool := s.memx.resv.any fun r => r.1 = granule k && (r.2.1 != nk || r.2.2 != id)

/-- Ends the reservations of a chain entry. -/
def State.unreserve (s : State) (nk id : Nat) : State :=
  { s with memx := { s.memx with resv := s.memx.resv.filter fun r => !(r.2.1 = nk && r.2.2 = id) } }

/-- Another access than chain entry `id` of `nk` holds a reservation of the granule, and is no later one of that entry's own
invocation: the writes before an atomic go first (R90). -/
def State.barred (s : State) (nk id k : Nat) : Bool :=
  s.memx.resv.any fun r => r.1 = granule k && (r.2.1 != nk || r.2.2 != id) &&
    !(r.2.1 = nk && match s.accOf nk id, s.accOf nk r.2.2 with
      | some a, some h => h.age = a.age && (((s.nd nk).before h).getD []).any fun b => b.id = id
      | _, _ => false)

/-- The read-ahead bytes of a granule that a write of the node has changed are read again, all of them (R91). -/
def State.dropAhead (s : State) (nk k : Nat) : State :=
  s.modNd nk fun nd => { nd with stmBuf := nd.stmBuf.filter fun e => granule e.2.2.1 != granule k }

/-- The end of a reservation at its commit: the new value is written (R97). What lies at another chip is performed when that
answers. -/
def State.endReserve (s : State) (nk : Nat) (a : Acc) : State :=
  let far := (List.range a.loc.length).filter fun j => ((a.loc[j]?).map fun p => isRemote p.key).getD false
  let nw := a.newv.getD 0
  let s := (a.loc.filter fun p => !isRemote p.key).foldl
    (fun s p => (writeUnder s p.key p.size nw p.slot).dropAhead nk p.key) s
  let s := s.unreserve nk a.id
  if far.isEmpty then s.accDone nk a
  else
    let s := s.modAcc nk a.id fun e => { e with st := .ending, left := far }
    far.foldl (fun s j =>
      match a.loc[j]? with
      | none => s
      | some p =>
        let r : Rreq :=
          { chip := chipId s, nk := nk, id := a.id, j := j, gn := a.gn, part := (s.nd nk).part, va := remoteVa p.key
            size := p.size, ask := .endWrite, op := a.op, b := nw, perm := p.perm, fwd := p.fwd }
        (s.outAdd nk a.gn).post
          { src := nk / 8, dst := placeOf p.key, cls := 1, part := (s.nd nk).part, n := p.size, body := .rreq r }) s

/-- An earlier write of the node's to a common byte is still to be performed (R90). -/
def State.writeBefore (s : State) (nk : Nat) (a : Acc) : Bool :=
  (((s.nd nk).before a).getD []).any fun b => b.writes && !b.done && overlap (s.accPieces nk a) (s.accPieces nk b)

/-- The reservations of committed atomics end as soon as the writes before them are performed (R90, R97). -/
def State.endBlocked (s : State) (nk : Nat) : State :=
  ((s.nd nk).mif.filter fun e => e.rel && e.st = .reserved).foldl
    (fun s e => if s.writeBefore nk e then s else s.endReserve nk e) s

/-! ### Arrival of a piece (R79 to R86) -/

/-- A load, or an atomic that now holds its reservation, has all its pieces: its value goes to T0. -/
def State.readDone (s : State) (nk : Nat) (a : Acc) : State :=
  if a.returns then
    let old := overlay (a.got.foldl (fun v t => v + t.2 * 2 ^ (8 * t.1)) 0) a.fwdb
    let nw := rmwNew a.op (szBytes a.w.sz.toNat) old a.payload ((a.q.map (·.val.nat)).getD 0)
    (s.modAcc nk a.id fun e => { e with st := .reserved, newv := some nw }).accReply nk a (sc64 old)
  else (s.accReply nk a a.value).accDone nk a

/-- A write of the node has all its pieces performed. -/
def State.writeDone (s : State) (nk : Nat) (a : Acc) : State := ((s.accDone nk a).endBlocked nk).pruneAccs nk

/-- A piece of an access is done: the value read joins it, and with the last piece the access is complete. -/
def State.pieceDone (s : State) (nk : Nat) (a : Acc) (j : Nat) (v : Option (Nat × Nat)) : State :=
  let a' : Acc := { a with left := a.left.filter (· != j), got := a.got ++ v.toList }
  let s := s.modAcc nk a.id fun e => { e with left := a'.left, got := a'.got }
  if !a'.left.isEmpty then s
  else if opLoad a.op || a.returns then s.readDone nk a'
  else s.writeDone nk a'

/-- The answer to a request of an invocation since discarded arrives under its old generation and is dropped (R25). -/
def State.staleReply (s : State) (nk : Nat) : State :=
  countEvent s (s.nd nk).part (nk / 8) 2 1

/-- A piece lies in a tile that the engines own (R80). -/
def engOwned (s : State) (k : Nat) : Bool :=
  2 ^ 53 ≤ k && k < 2 ^ 60 && (s.cl ((k - 2 ^ 53) / 2 ^ 21)).engTiles.contains (k % 2 ^ 21 / 4096)

/-- An access that was checked and cannot be performed at its place faults its invocation, or, once that has committed, its
node (R80, R85, R398). -/
def State.accLost (s : State) (nk : Nat) (a : Acc) (c : Cause) (aux va : Nat) (chip : Option Nat := none) : State :=
  if a.held || opLoad a.op || (a.returns && a.st != .ending) then s.accFault nk a c aux va chip
  else ((s.accEngFault nk a c aux va chip).modAcc nk a.id fun e => { e with st := .performed }).pruneAccs nk

/-- What a piece of an access does at its place of atomicity; none while it must wait there (R81, R97). The owner bit of a tile
is checked there (R80, R120). DESIGN CHOICE: a committed write that finds its tile given to the engines meanwhile is not
performed, and its node takes an engine fault (assumption 103). -/
def State.accPlace (s : State) (nk id j : Nat) : Option State :=
  match s.accOf nk id with
  | none => some (if j = 0 then s.staleReply nk else s)
  | some a =>
    if a.st != .sent then some s
    else
      match a.loc[j]? with
      | none => some (s.readDone nk a)
      | some p =>
        if keyHeld s p.slot then none
        else if engOwned s p.key then some (s.accLost nk a .ownerViolation 0 p.va)
        else if opLoad a.op then
          if badAt s p.key then some (s.accFault nk a .uncorrectableError (memAux s p.key) p.va)
          else
            let r := readUnder s p.key p.size p.slot
            some (r.1.pieceDone nk a j (some (p.lane, r.2)))
        else if s.barred nk id p.key then none
        else if a.returns then
          if badAt s p.key then some (s.accFault nk a .uncorrectableError (memAux s p.key) p.va)
          else
            let r := readUnder s p.key p.size p.slot
            let s := { r.1 with memx := { r.1.memx with resv := r.1.memx.resv ++ [(granule p.key, nk, id)] } }
            some (s.pieceDone nk a j (some (p.lane, r.2)))
        else if opStore a.op then
          let s := writeUnder s p.key p.size (a.payload / 2 ^ (8 * p.lane)) p.slot
          some ((s.dropAhead nk p.key).pieceDone nk a j none)
        else if badAt s p.key then some (s.accLost nk a .uncorrectableError (memAux s p.key) p.va)
        else
          let r := readUnder s p.key p.size p.slot
          let nw := rmwNew a.op p.size r.2 (a.payload) ((a.q.map (·.val.nat)).getD 0)
          some (((writeUnder r.1 p.key p.size nw p.slot).dropAhead nk p.key).pieceDone nk a j none)

/-- A piece of an access reaches its place of atomicity, and no longer counts as outstanding once it is answered (R25). -/
def State.accArrive (s : State) (nk id gn j : Nat) : Option State := (s.accPlace nk id j).map fun t => t.outSub nk gn

/-! ### Requests of other chips (R85, R178) -/

/-- The translation held for a request (R85, R348). -/
def State.farHeld (s : State) (r : Rreq) : Option FarHold :=
  s.farHolds.find? fun h => h.chip = r.chip && h.nk = r.nk && h.id = r.id && h.j = r.j

/-- The owner holds the translation of a request, or gives it up: one request's, or all of a chain entry's. -/
def State.farHold (s : State) (r : Rreq) (pa slot : Nat) : State :=
  if (s.farHeld r).isSome then s
  else
    let asid := rbits (pkg s (0x301 + 8 * r.part)) 32 16
    { s with farHolds := s.farHolds ++
        [{ chip := r.chip, nk := r.nk, id := r.id, j := r.j, asid := asid, va := r.va, pa := pa, slot := slot }] }
def State.farFree (s : State) (r : Rreq) : State :=
  { s with farHolds := s.farHolds.filter fun h =>
      !(h.chip = r.chip && h.nk = r.nk && h.id = r.id && (h.j = r.j || r.j = noAnswer)) }

/-- Where a request leads at its owner: as held since its check, else as translated now (R85, R178). -/
def State.rreqLoc (s : State) (r : Rreq) (need : Nat) : XRes :=
  match s.farHeld r with
  | some h => .here h.pa h.slot
  | none => xlateFrom s [tlbDie 0] r.part need false (3 - r.fwd) (rbits (pkg s (0x301 + 8 * r.part)) 32 16) r.va r.perm r.fwd

/-- A reservation of the granule bars a request: somebody else's, or the node's own unless the request precedes it. -/
def rreqBarred (s : State) (r : Rreq) (who pa : Nat) : Bool :=
  s.memx.resv.any fun x => x.1 = granule pa && (x.2.1 != who || (x.2.2 != r.id && !r.past))

/-- The answer to a request, from the place that performed it; engine data is of class 0 (R323). -/
def State.rreqTell (s : State) (at_ : Nat) (r : Rreq) (v : Nat) (bad : Option (Cause × Nat × Nat)) : State :=
  let home := if r.nk ≥ 4096 then r.nk % 4096 else r.nk / 8
  s.post { src := at_, dst := if r.chip = chipId s then home else farPlace r.chip home, cls := if r.nk ≥ 4096 then 0 else 2, part := r.part
           n := if r.ask = .store || r.ask = .endWrite || r.ask = .check then 0 else r.size
           body := .rrep r.nk r.id r.j r.gn v bad (chipId s) }

/-- What a request does at the place of its bytes; none while the granule is reserved. -/
def State.rreqDo (s : State) (at_ : Nat) (r : Rreq) (pa : Nat) (slot : Option Nat) : Option State :=
  let who := 2 ^ 20 * (r.chip + 1) + r.nk
  let lost (s : State) : State := s.rreqTell at_ r 0 (some (.uncorrectableError, memAux s pa, r.va))
  let bad := badAt s pa
  if keyHeld s slot then none
  else
    match r.ask with
    | .check => some (if !opStore r.op && bad then lost s else (s.farHold r pa (slot.getD 0)).rreqTell at_ r 0 none)
    | .load =>
      if bad then some (lost s)
      else
        let x := readUnder s pa r.size slot
        some (x.1.rreqTell at_ r x.2 none)
    | .endWrite => some ((((writeUnder s pa r.size r.b slot).unreserve who r.id).farFree r).rreqTell at_ r 0 none)
    | .endDrop => some ((s.unreserve who r.id).farFree r)
    | .store =>
      if rreqBarred s r who pa then none
      else some (((writeUnder s pa r.size r.b slot).farFree r).rreqTell at_ r 0 none)
    | .rmw =>
      if rreqBarred s r who pa then none
      else if bad then some (lost (s.farFree r))
      else
        let x := readUnder s pa r.size slot
        some (((writeUnder x.1 pa r.size (rmwNew r.op r.size x.2 r.b r.b2) slot).farFree r).rreqTell at_ r x.2 none)
    | .reserve =>
      if rreqBarred s r who pa then none
      else if bad then some (lost s)
      else
        let x := readUnder s pa r.size slot
        let s := { x.1 with memx := { x.1.memx with resv := x.1.memx.resv ++ [(granule pa, who, r.id)] } }
        some ((s.farHold r pa (slot.getD 0)).rreqTell at_ r x.2 none)

/-- A request reaches the place of its bytes, in this package where an engine found it, or the owner, which translates or sends it
on (R85, R178). -/
def State.rreqArrive (s : State) (at_ : Nat) (r : Rreq) : Option State :=
  match r.key with
  | some k => s.rreqDo at_ r k r.slot
  | none =>
    let need := match r.ask with
      | .load => permR | .store => permW
      | .check => opNeed r.op
      | _ => permR ||| permW
    match s.rreqLoc r need with
    | .bad c a => some (s.rreqTell 224 r 0 (some (c, a, r.va)))
    | .away chip va perm fwd =>
      some (s.post { src := 224, dst := farPlace chip 224, cls := if r.nk ≥ 4096 then 0 else 1, part := r.part, n := r.size
                     rd := r.ask = .load, body := .rreq { r with va := va, perm := perm, fwd := fwd } })
    | .here pa slot => s.rreqDo 224 r pa (some slot)

/-- The answer to a request of an engine command: the bytes join its access, or the command fails. -/
def State.cmdAnswer (s : State) (c id j v : Nat) (bad : Option (Cause × Nat × Nat)) (chip : Nat) : State :=
  let here (m : Cmd) : Option EngAcc := m.accs.find? fun a => a.j = j / 64
  let fix (m : Cmd) : Cmd :=
    if m.id != id then m
    else match bad with
      | none =>
        let got (a : EngAcc) : EngAcc := { a with out := a.out.erase (j % 64), v := a.v + v * 2 ^ (8 * (j % 64)) }
        { m with accs := m.accs.map fun a => if a.j = j / 64 then got a else a }
      | some (c, aux, va) =>
        let f : Pending := { cause := c, n := m.n, ws := m.ws, age := m.age, aux := aux }
        { m with fail := match here m with
            | some a => if chip = chipId s then some { f with va := a.addr, spc := a.spc } else some { f with va := chip * 2 ^ 52 + va, spc := 5, chip := some chip }
            | none => m.fail }
  s.modCl c fun x => { x with units := x.units.map fun (u : Nat × List Cmd) => (u.1, u.2.map fix) }

/-- The requester's side of an answer (R85): a failure faults the invocation, or, after the commit, the node. -/
def State.rrepArrive (s : State) (nk id j gn v : Nat) (bad : Option (Cause × Nat × Nat)) (chip : Nat) : State :=
  if nk ≥ kvParty then s.kvAnswer id v bad
  else if nk ≥ 4096 then s.cmdAnswer (nk - 4096) id j v bad chip else
  let s := if j = noAnswer then s else s.outSub nk gn
  match s.accOf nk id with
  | none => if j = 0 then s.staleReply nk else s
  | some a =>
    let rec_ (va : Nat) : Nat := chip * 2 ^ 52 + va
    match bad with
    | some (c, aux, va) => s.accLost nk a c aux (rec_ va) (some chip)
    | none =>
      if a.st = .ending then
        let left := a.left.filter (· != j)
        let s := s.modAcc nk id fun e => { e with left := left }
        if left.isEmpty then s.writeDone nk a else s
      else if a.chk = .asked then
        let left := a.left.filter (· != j)
        s.modAcc nk id fun e => { e with left := left, chk := if left.isEmpty then .passed else .asked }
      else if opLoad a.op || a.returns then
        s.pieceDone nk a j (some (((a.loc[j]?).map (·.lane)).getD 0, v))
      else s.pieceDone nk a j none

/-! ### What a commit does with held accesses -/

/-- A scope holds two clusters (R93). -/
def scopeHas (sc : Scope) (c d : Nat) : Bool :=
  match sc with
  | .nd => false
  | .cl => c = d
  | .di => c / 96 = d / 96
  | .pk | .sy => true

/-- The outcome of the second pass (R96). -/
inductive Pass where
  | ok (s : State)
  | wait (s : State)
  | fault (s : State)
deriving DecidableEq, Repr

/-- The second pass of one held access (R96, R129, R131, R134, R398, R85). -/
def State.passOne (s : State) (nk : Nat) (a : Acc) : Pass :=
  let n := s.nd nk
  let bs := (n.before a).getD []
  if opAccess a.op then
    match s.accLoc nk a with
    | .bad c x => .fault (s.accFault nk a c x a.va)
    | .kv q b => .wait ((s.modAcc nk a.id fun e => { e with kvw := some (q, b) }).kvAsk (nk / 8) n.part q b)
    | .piece ps =>
      if givenTile nk bs a then .fault (s.accFault nk a .ownerViolation 0 a.va)
      else if let some k := knownBad s a.op ps then .fault (s.accFault nk a .uncorrectableError (memAux s k) a.va)
      else
        let s := (s.accTouch nk a).modAcc nk a.id fun e => { e with loc := ps, kvw := none }
        let far := (List.range ps.length).filter fun j => ((ps[j]?).map (fun p => isRemote p.key)).getD false
        if far.isEmpty || a.chk = .passed then .ok s
        else if a.chk = .asked then .wait s
        else
          let s := s.modAcc nk a.id fun e => { e with chk := .asked, left := far }
          .wait (far.foldl (fun s j =>
            match ps[j]? with
            | none => s
            | some p =>
              let r : Rreq :=
                { chip := chipId s, nk := nk, id := a.id, j := j, gn := a.gn, part := n.part, va := remoteVa p.key
                  size := p.size, ask := .check, op := a.op, perm := p.perm, fwd := p.fwd }
              (s.outAdd nk a.gn).post
                { src := nk / 8, dst := placeOf p.key, cls := 1, part := n.part, n := p.size, rd := true, body := .rreq r }) s)
  else
    match a.op with
    | .rel =>
      if badAt s (csmKey a.va) then .fault (s.accFault nk a .uncorrectableError 2 a.va)
      else
        match objCheck s (nk / 8) a.va with
        | some c => .fault (s.accFault nk a c 0 a.va)
        | none => .ok s
    | .seminc =>
      if scopeHas a.w.scope (nk / 8) (a.semAt (nk / 8)).1 then .ok s else .fault (s.accFault nk a .syncScope 0 a.va)
    | .tgive =>
      if (s.cl (nk / 8)).engTiles.contains a.tile then .fault (s.accFault nk a .ownerViolation 0 a.va) else .ok s
    | _ => .ok s

/-- The second pass of an invocation, lowest element index first (R390): a fault ends it, a wait is remembered. -/
def State.secondPass (s : State) (nk age : Nat) : Pass :=
  (List.range 32).foldl (fun r k =>
    match r with
    | .fault s => .fault s
    | .ok s | .wait s =>
      let waited := match r with | .wait _ => true | _ => false
      match ((s.nd nk).accsOf age).find? fun a => a.ix = 64 + k && a.held && !a.off && !a.returns with
      | none => r
      | some a =>
        match s.passOne nk a with
        | .ok s => if waited then .wait s else .ok s
        | x => x) (.ok s)

/-- Releases the held accesses of an invocation, in chain order (R39, R94, R97). -/
def State.releaseAccs (s : State) (nk age : Nat) : State :=
  (chain ((s.nd nk).accsOf age)).foldl (fun s a =>
    if a.off then s
    else
      let s := s.modAcc nk a.id fun e => { e with held := false }
      let s := if a.doneAtRelease then s.sendDone nk a else s
      if a.st != .reserved then s
      else if s.writeBefore nk a then s.modAcc nk a.id fun e => { e with rel := true }
      else s.endReserve nk a) s

end Sys2Proof.Machine
end

