-- ==== Sys2Proof/Machine/Barrier.lean ====
section
/-!
DEFINITION. The barrier instructions BAR, BARA and BARW (R136 to R138).
-/

namespace Sys2Proof.Machine

/-- The clusters of a group of a node's kernel (R47). -/
def State.group (s : State) (nk g : Nat) : List Nat :=
  match (s.nd nk).kernel.bind s.kern with
  | none => []
  | some k => k.groups.getD g []

/-- The scope that MF holds (R136). -/
def mfScope (mf : Nat) : Scope :=
  match mf with
  | 1 => .cl | 2 => .di | 3 => .pk | _ => .sy

/-- The cluster whose sync unit holds a group's episodes: the lowest (R138). -/
def syncUnit (g : List Nat) : Nat := g.foldl min 255

/-- The faults of R138 that the issuing side sees. -/
def barCheck (s : State) (i : Issue) (w : GWord) : Option Cause :=
  let g := s.group i.nk (bits w.imm.imm16 0 8)
  if !g.contains i.c then some .barrierMismatch
  else if g.any fun d => !scopeHas (mfScope w.mf.toNat) i.c d then some .syncScope
  else none

/-- Every older invocation has committed and every committed write is performed (R137). -/
def State.mayArrive (s : State) (i : Issue) (age : Nat) : Bool :=
  let n := s.nd i.nk
  n.oldest age && n.mif.all fun a => !a.writes || a.held || a.done || a.age = age

/-- The arrival goes to the sync unit (R137). -/
def State.arrive (s : State) (i : Issue) (v : Inv) (w : GWord) : State :=
  let grp := bits w.imm.imm16 0 8
  let u := syncUnit (s.group i.nk grp)
  let s := s.modNd i.nk fun n => { n with barLast := Tab.put n.barLast grp ((v.age, i.ix), none) }
  s.post { src := i.c, dst := u, cls := 3, part := (s.nd i.nk).part
           body := .arrive u grp (bits w.imm.imm16 8 8) i.nk v.n i.ix v.age }

/-- Sends the number of a completed episode to a waiter's targets (R137). -/
def State.barSend (s : State) (nk : Nat) (b : BarWait) (num : Nat) : State :=
  let o : Opnd := { b.o with val := sc64 (num % 2 ^ 64) }
  let put (s : State) (t : Target) : State :=
    match t with
    | .slot ix pt => s.sendSlot (nk / 8) (nk % 8) ix.toNat b.ws (b.n % 65536) pt .data o
    | _ => s
  put (put s b.t0) b.t1

/-- The node waits for the episode of an arrival on the group, or for one that is known; one already complete is answered at
once (R137). -/
def State.barWaitFor (s : State) (i : Issue) (v : Inv) (w : GWord) (arr : Nat × Nat) (ep : Option Nat) : State :=
  let grp := bits w.imm.imm16 0 8
  let st := i.status
  let b : BarWait :=
    { grp := grp, ix := i.ix, n := v.n, ws := v.ws, age := v.age, t0 := w.t0, t1 := w.t1
      o := { ns := st.ns, em := st.em, er := st.er }, arr := arr, ep := ep }
  let num := (Tab.get ({} : Episode) (s.cl (syncUnit (s.group i.nk grp))).episodes grp).num
  match ep with
  | some e => if e < num then s.barSend i.nk b e else s.modNd i.nk fun n => { n with barWait := n.barWait ++ [b] }
  | none => s.modNd i.nk fun n => { n with barWait := n.barWait ++ [b] }

/-- How a barrier instruction fires: a null L is absorbed (R136), then the checks of R138. -/
def barFire (op : Op) (w : GWord) (arrives : Bool) (f : Issue → Inv → State → State) (s : State) : Out :=
  match s.sched.cur with
  | none => .next s
  | some i =>
    match s.invOf i with
    | none => .next s
    | some v =>
      if !predHolds w.prd i || isNull i.l then .next s
      else
        match barCheck s i w with
        | some c => .next (s.fault i op c)
        | none => if arrives && !s.mayArrive i v.age then .next s.waits else .next (f i v s)

/-- R137: arrives, and waits for the episode that the arrival joins. -/
def execBar (w : GWord) (s : State) : Out :=
  barFire .bar w true (fun i v s => (s.arrive i v w).barWaitFor i v w (v.age, i.ix) none) s

/-- R137: arrives. -/
def execBara (w : GWord) (s : State) : Out := barFire .bara w true (fun i v s => s.arrive i v w) s

/-- R137: waits for the episode of the node's latest arrival on the group, or, with none, for the open one. -/
def execBarw (w : GWord) (s : State) : Out :=
  barFire .barw w false (fun i v s =>
    let grp := bits w.imm.imm16 0 8
    match Tab.find (s.nd i.nk).barLast grp with
    | some (arr, e) => s.barWaitFor i v w arr e
    | none =>
      s.barWaitFor i v w (0, 0) (some (Tab.get ({} : Episode) (s.cl (syncUnit (s.group i.nk grp))).episodes grp).num)) s

end Sys2Proof.Machine
end

