-- ==== Sys2Proof/Machine/Engine.lean ====
section
/-!
DEFINITION. Engine commands: how they fire (R144, R147), how they are issued, held, signalled and failed (R141 to R146),
patterns (R148, R149), semaphores (R131, R132), queue places (R46, R271), and PSET and COPY (R150, R151).
-/

namespace Sys2Proof.Machine

/-! ### Firing (R144, R147) -/

/-- Ports of an engine or system instruction: L, R, Q. -/
structure Ports where
  l : PortUse := .no
  r : PortUse := .no
  q : PortUse := .no
deriving DecidableEq, Repr

/-- A null came on a port in use. -/
def Ports.null (p : Ports) (i : Issue) : Bool :=
  (p.l != .no && isNull i.l) || (p.r != .no && isNull i.r) || (p.q != .no && isNull i.q)

/-- Every port in use has its width. -/
def Ports.ok (p : Ports) (i : Issue) : Bool := portOk p.l i.l && portOk p.r i.r && portOk p.q i.q

/-- The numbers on the ports. -/
def Issue.lv (i : Issue) : Nat := (i.l.map (·.val.nat)).getD 0
def Issue.rv (i : Issue) : Nat := (i.r.map (·.val.nat)).getD 0
def Issue.qv (i : Issue) : Nat := (i.q.map (·.val.nat)).getD 0
def Cmd.lv (m : Cmd) : Nat := (m.l.map (·.val.nat)).getD 0
def Cmd.rv (m : Cmd) : Nat := (m.r.map (·.val.nat)).getD 0
def Cmd.qv (m : Cmd) : Nat := (m.q.map (·.val.nat)).getD 0

/-- How an instruction held to commit fires (R39, R43, R44, R29, R144): absorbed, a fault of its checks, or held; a
command with a scoreboard token joins its count (R143). -/
def heldFire (op : Op) (ins : Instr) (prd : Prd) (sbs : Option (BitVec 3)) (p : Ports)
    (chk : Issue → Inv → State → Option Cause) (i : Issue) (s : State) : State :=
  match s.invOf i with
  | none => s
  | some v =>
    if !predHolds prd i || p.null i then s.report i false
    else if i.status.er then s.fault i op .errorOperand
    else if !p.ok i then s.fault i op .widthMismatch
    else
      match chk i v s with
      | some c => s.fault i op c
      | none =>
        let s := (s.hold i (.cmd i.ix ins i.l i.r i.q)).report i true
        match sbs with
        | none => s
        | some k => s.modNd i.nk fun n => { n with sb := n.sb ++ [(k.toNat, v.age, i.ix)] }

/-! ### Commands in their units -/

/-- The unit instance of a command (R140, R227, R256, R307): 0 pattern registers, 1 and 2 copy engines, 3 gather, 4
storage, 5 fabric, 6 collective, 7 array stream, 8 array load, 9 task and system, 10 to 17 key-match stores. -/
def unitOf (op : Op) (w : EWord) : Nat :=
  match op with
  | .pset => 0
  | .copy | .flpush => 1 + w.unit.toNat % 2
  | .kvtab | .kvgath | .kvapp | .kvinv => 3
  | .nvrd | .nvwr => 4
  | .copyr | .tsend | .rread | .wopen | .wclose | .flopen | .flfree | .flclose => 5
  | .cred | .cbcast | .cgath => 6
  | .wswap | .mma | .mrecur | .macc | .mzero | .mstat => 7
  | .wload => 8
  | .kcfg | .kbias | .kmask | .kbind | .kunbind | .klife | .kqry | .kstat => 10 + w.unit.toNat
  | _ => 9

/-- An E-format word with no fields. -/
def EWord.blank : EWord :=
  { prd := .always, sbs := none, wm := 0, pat := 0, t0 := .none, unit := 0, sub := 0, imm := 0 }

/-- The vector on port L of a command. -/
def Cmd.lvec (m : Cmd) : V512 := match m.l with | some { val := .vec v, .. } => v | _ => 0
/-- The vector on port L of an issue. -/
def Issue.lvec (i : Issue) : V512 := match i.l with | some { val := .vec v, .. } => v | _ => 0

def Cmd.op (m : Cmd) : Op := (m.instr.view.map (·.1)).getD .nop
def Cmd.w (m : Cmd) : EWord := match m.instr.view with | some (_, .e w) => w | _ => EWord.blank
def Cmd.imm (m : Cmd) : Nat := m.w.imm.toNat
def Cmd.sub (m : Cmd) : Nat := m.w.sub.toNat

/-- A cluster's commands of one unit, oldest first. -/
def State.unit (s : State) (c u : Nat) : List Cmd := Tab.get [] (s.cl c).units u

/-- The commands of the storage unit, which the clusters share (R140), in issue order. -/
def State.storCmds (s : State) : List Cmd :=
  let all := s.clusters.flatMap fun (e : Nat × Cluster) => Tab.get [] e.2.units 4
  all.foldl (fun l m => (l.filter fun x => x.no < m.no) ++ [m] ++ l.filter fun x => m.no ≤ x.no) []

/-- Changes a command. -/
def State.modCmd (s : State) (c u id : Nat) (f : Cmd → Cmd) : State :=
  s.modCl c fun x => { x with units := Tab.mod [] x.units u fun l => modFirst (fun m => m.id = id) f l }

/-- Takes a command from its unit. -/
def State.dropCmd (s : State) (c u id : Nat) : State :=
  s.modCl c fun x => { x with units := Tab.mod [] x.units u fun l => l.filter fun m => m.id != id }

/-- A command leaves its scoreboard count (R143). -/
def State.sbLeave (s : State) (m : Cmd) : State :=
  match m.w.sbs with
  | none => s
  | some k => s.modNd m.nk fun n => { n with sb := n.sb.filter fun e => e != (k.toNat, m.age, m.ix) }

/-! ### Semaphores (R131, R132, R170) -/

/-- A semaphore takes a value or an increment, saturating; every waiter whose threshold it reaches is satisfied. -/
def State.semApply (s : State) (c k amt : Nat) (set flag : Bool) : State :=
  let old := s.sem c k
  let v := if set then amt % 2 ^ 32 else min (old + amt) 0xffffffff
  let part := (((s.cl c).holder.map (·.2))).getD 0
  let s := if !set && old + amt > 0xffffffff then countEvent s part c 5 1 else s
  let s := s.modCl c fun x => { x with
    sems := Tab.putD 0 x.sems k (BitVec.ofNat 32 v)
    semErr := if set then x.semErr.filter (· != k) else if flag then setIns k x.semErr else x.semErr }
  s.nodes.foldl (fun s (e : Nat × Node) =>
    (e.2.mif.filter fun a => a.op = .semwait && !a.off && a.semAt (e.1 / 8) = (c, k)).foldl (fun s a =>
      match s.accOf e.1 a.id with
      | none => s
      | some b => if (s.accOpen e.1 b).isSome && b.amount ≤ v then s.semMet e.1 b else s) s) s

/-! ### Queue places (R46, R271, R307) -/

/-- Reserves `k` places in a queue; the first is returned (R271). -/
def State.reserve (s : State) (nk q k : Nat) : State × Nat :=
  let p := Tab.get 0 (s.nd nk).places q
  (s.modNd nk fun n => { n with
    places := Tab.put n.places q (p + k)
    outq := n.outq ++ (List.range k).map fun j => { q := q, place := p + j, o := none } }, p)

/-- A token of a node's output queue goes to a node: in the cluster, or through the network (R22, R323). -/
def State.carryTok (s : State) (nk to_ : Nat) (t : Tok) : State :=
  if nk / 8 = to_ / 8 then s.pushTok (to_ / 8) t
  else s.post { src := nk / 8, dst := to_ / 8, cls := 2, part := (s.nd nk).part, body := .qtok t }

/-- Delivers what a queue holds for invocations in flight at its consumer (R46). A token whose taking invocation has
committed without it is freed and counted (R39). -/
def State.deliverQ (s : State) (nk q : Nat) : State :=
  match (s.nd nk).wires.find? fun w => w.q = q with
  | none => s
  | some w =>
    let key := w.ix * 4 + w.pt.code
    ((s.nd nk).outq.filter fun t => t.q = q && !t.dlv && t.o.isSome).foldl (fun s t =>
      match (s.nd w.nk).invs.find? fun v => v.takes.contains (key, t.place), t.o with
      | some v, some o =>
        let s := s.modNd nk fun n => { n with
          outq := n.outq.map fun x => if x.q = q && x.place = t.place then { x with dlv := true } else x }
        let a := arriveAs w.pt t.kd o
        let s := if a.1 = .reply then s.outAdd w.nk (s.nd w.nk).gn else s
        s.carryTok nk w.nk
          { pl := w.nk % 8, ix := w.ix, pt := w.pt, ws := v.ws, it := v.it, kd := a.1, gn := (s.nd w.nk).gn, o := a.2 }
      | none, some o =>
        if (s.nd w.nk).asg.isNone then
          -- No node takes the token: it goes on to the plane, where it faults (R24).
          let s := s.modNd nk fun n => { n with outq := n.outq.filter fun x => !(x.q = q && x.place = t.place) }
          s.carryTok nk w.nk { pl := w.nk % 8, ix := w.ix, pt := w.pt, ws := 0, it := 0, kd := .data, gn := 0, o := o }
        else if t.place < Tab.get 0 (s.nd w.nk).taken key then
          (countEvent s (s.nd w.nk).part (w.nk / 8) 3 1).modNd nk fun n => { n with
            outq := n.outq.filter fun x => !(x.q = q && x.place = t.place) }
        else s
      | _, none => s) s

/-- Fills a reserved place (R271, R307). -/
def State.fillPlace (s : State) (nk q place : Nat) (kd : Kd) (o : Opnd) : State :=
  (s.modNd nk fun n => { n with
    outq := n.outq.map fun t => if t.q = q && t.place = place then { t with o := some o, kd := kd } else t }).deliverQ nk q

/-- A token that a command produces carries the status bits of its operands (R29). -/
def Cmd.mark (m : Cmd) (o : Opnd) : Opnd := o.plus (statusOf [m.l, m.r, m.q])

/-- Fills the command's own place with a reply (R307); a command with none is unchanged. -/
def State.fillOwn (s : State) (m : Cmd) (o : Opnd) : State :=
  match m.place with
  | none => s
  | some (q, p) => s.fillPlace m.nk q p .reply (m.mark o)

/-- Fills what is left of a failed command's places with null tokens with ER set. -/
def State.fillRest (s : State) (m : Cmd) : State :=
  match m.place with
  | none => s
  | some (q, p) =>
    (List.range m.places).foldl (fun s k =>
      if (s.nd m.nk).outq.any fun t => t.q = q && t.place = p + k && t.o.isNone then s.fillPlace m.nk q (p + k) .reply Opnd.nullEr
      else s) s

/-- The command's place may be filled now. -/
def State.ownRoom (s : State) (m : Cmd) : Bool :=
  match m.place with
  | none => true
  | some (q, p) => (s.nd m.nk).placeRoom q p

/-! ### Failure and completion (R144, R146) -/

/-- A fault of a command (R144). -/
def Cmd.pending (m : Cmd) (c : Cause) : Pending :=
  { cause := c, n := m.n, ws := m.ws, age := m.age, ix := some m.ix, opc := m.op.code, sub := (m.op.sel).getD 0
    k := some m.kernel }

/-- The command fails (R144): it leaves its unit and its count, signals nothing, a place it reserved is filled with a
null token with ER set, and its node takes an engine fault. -/
def State.failCmd (s : State) (c u : Nat) (m : Cmd) (f : Pending) : State :=
  let f : Pending :=
    { f with n := m.n, ws := m.ws, age := m.age, ix := some m.ix, opc := m.op.code, sub := (m.op.sel).getD 0 }
  (((s.dropCmd c u m.id).sbLeave m).fillRest m).engFault m.nk f

/-- The command fails for a cause. -/
def State.failWith (s : State) (c u : Nat) (m : Cmd) (cz : Cause) (aux : Nat := 0) (va : Nat := 0) (spc : Nat := 7) : State :=
  s.failCmd c u m { m.pending cz with aux := aux, va := va, spc := spc }

/-- A command of an engine unit: it fires on its element, or its unit works on it (`work` gets the command). `lost` is how it
ends when another place has answered with a failure. -/
def eExec (op : Op) (ins : Instr) (w : EWord) (p : Ports) (chk : Issue → Inv → State → Option Cause)
    (work : Issue → Cmd → State → State) (s : State)
    (lost : Issue → Cmd → Pending → State → State := fun i m f s => s.failCmd i.c i.u m f) : Out :=
  match s.sched.cur with
  | none => .next s
  | some i =>
    if i.perform then
      match (Tab.get [] (s.cl i.c).units i.u).find? fun m => m.id = i.k with
      | none => .next s
      | some m =>
        match m.fail with
        | some f => .next (lost i m f s)
        | none => .next (work i m s)
    else .next (heldFire op ins w.prd w.sbs p chk i s)

/-- The command has done all its work; its signals wait for their turn (R142). -/
def State.finishCmd (s : State) (c u : Nat) (m : Cmd) : State := s.modCmd c u m.id fun x => { x with finished := true }

/-- Whether a command returns its tiles, and the semaphore it increments (R146, R151, R166, R241). -/
def Cmd.returns (m : Cmd) : Bool :=
  match m.op with
  | .copy => bits m.imm 4 1 = 1
  | .mma | .mrecur | .macc => bits m.sub 2 1 = 1
  | _ => false
def Cmd.semOf (m : Cmd) : Option Nat :=
  match m.op with
  | .copy => if bits m.imm 5 1 = 1 then some (bits m.imm 6 6) else none
  | .nvrd | .nvwr => if bits m.imm 6 1 = 1 then some (bits m.imm 7 6) else none
  | _ => none

/-- The signals of a finished command, in the order of R146, and its end. -/
def State.signalCmd (s : State) (c u : Nat) (m : Cmd) : State :=
  let s := if m.returns then s.modCl c fun x => { x with engTiles := x.engTiles.filter fun t => !m.tiles.contains t } else s
  let s := match m.semOf with | none => s | some k => s.semApply c k 1 false false
  (s.sbLeave m).dropCmd c u m.id

/-! ### Patterns (R148, R149) -/

def patSpc (p : V512) : Nat := bits p.toNat 61 3
def patEsz (p : V512) : Nat := szBytes (bits p.toNat 58 3)
def patNd (p : V512) : Nat := bits p.toNat 56 2
def patBase (p : V512) : Nat := bits p.toNat 0 52
def patHnd (p : V512) : Nat := bits (wordOf p 1).toNat 0 12
def patSeq (p : V512) : Nat := bits (wordOf p 1).toNat 48 16
def patCount (p : V512) (d : Nat) : Nat := bits (wordOf p 2).toNat (16 * d) 16
def patStride (p : V512) (d : Nat) : Int := sInt 64 (wordOf p (3 + d)).toNat
def patBound (p : V512) (d : Nat) : Nat := bits (wordOf p 7).toNat (16 * d) 16

/-- N of R149. -/
def patN (p : V512) : Nat := patCount p 0 * patCount p 1 * patCount p 2 * patCount p 3

/-- Index `d` of element `e` (R149). -/
def patIdx (p : V512) (e d : Nat) : Nat :=
  match d with
  | 0 => e % patCount p 0
  | 1 => e / patCount p 0 % patCount p 1
  | 2 => e / (patCount p 0 * patCount p 1) % patCount p 2
  | _ => e / (patCount p 0 * patCount p 1 * patCount p 2) % patCount p 3

/-- The address of element `e`, with `add` added to BASE; none out of bounds (R149). -/
def patElem (p : V512) (add : Int) (e : Nat) : Option Nat :=
  if (List.range 4).any fun d => patIdx p e d ≥ patBound p d then none
  else
    let z := (patBase p : Int) + add + ((List.range 4).map fun d => (patIdx p e d : Int) * patStride p d).foldl (· + ·) 0
    if patSpc p = 4 then some (patSeq p * 2 ^ 48 + wrapN 48 z) else some (wrapN 52 z)

/-- A record that PSET refuses (R150). -/
def patBad (p : V512) : Bool :=
  let w0 := (wordOf p 0).toNat
  let w1 := (wordOf p 1).toNat
  let spc := patSpc p
  spc = 7 || 6 ≤ bits w0 58 3 || bits w0 52 4 != 0 || bits w1 12 36 != 0
    || (spc != 4 && patSeq p != 0) || (spc != 6 && patHnd p != 0)
    || (spc = 5 && 0x3fffff < patBase p) || (spc = 4 && bits w0 48 4 != 0)
    || (List.range 4).any fun d =>
        patCount p d = 0 || (patNd p < d && (patCount p d != 1 || wordOf p (3 + d) != 0))

/-- Pattern numbers of a command, in the order it keeps their copies. -/
def Cmd.patNums (m : Cmd) : List Nat :=
  let pat := m.w.pat.toNat
  let d := bits m.imm 0 4
  let out := if bits m.imm 14 2 = 1 then [d] else []
  match m.op with
  | .copy | .kvgath | .cred | .cbcast | .cgath => [pat, d]
  | .copyr | .flpush | .kvapp => [pat]
  | .mma => [pat] ++ (if 5 ≤ bits m.imm 8 4 then [bits m.imm 4 4] else []) ++ out
  | .mrecur => [pat] ++ out
  | .macc => out
  | _ => []

/-- What a command adds to the BASE of its pattern number `k` (R151). -/
def Cmd.baseAdd (m : Cmd) (k : Nat) : Int :=
  match m.op with
  | .copy =>
    if k = 0 then (if bits m.sub 0 1 = 1 then (m.lv : Int) else 0) else if bits m.sub 1 1 = 1 then (m.rv : Int) else 0
  | _ => 0

/-- The scratchpad tile that an address of a pattern's space lies in: its cluster and number. -/
def patTile (c : Nat) (p : V512) (addr : Nat) : Option (Nat × Nat) :=
  if patSpc p = 0 then some (c, bits addr 0 21 / 4096)
  else if patSpc p = 1 then some (bits addr 21 8, bits addr 0 21 / 4096)
  else none

/-- Adds pairs to a list without repeats. -/
def joinPairs (l r : List (Nat × Nat)) : List (Nat × Nat) := r.foldl (fun l t => if l.contains t then l else l ++ [t]) l

/-- The scratchpad tiles that a pattern's elements touch (R145). -/
def patTiles (c : Nat) (p : V512) (add : Int) : List (Nat × Nat) :=
  if patSpc p ≤ 1 then
    (List.range (patN p)).foldl (fun l e =>
      match (patElem p add e).bind (patTile c p) with
      | none => l
      | some t => joinPairs l [t]) []
  else []

/-- The tiles of `n` bytes from an own-scratchpad offset. -/
def rangeTiles (off n : Nat) : List Nat := (List.range (n / 4096 + 2)).filterMap fun j =>
  if (off / 4096 + j) * 4096 < off + n then some (off / 4096 + j) else none

/-- The record of a flume (R152), the tiles of slot `j`, and those of its ring. -/
def flOf (v : V512) (part : Nat) : Flume :=
  let w0 := (wordOf v 0).toNat
  let w1 := (wordOf v 1).toNat
  { part := part, ring := bits w0 0 9, nsl := bits w0 16 4, tps := bits w0 24 3, rtn := bits w0 32 1 = 1
    srcChip := bits w1 52 12, srcCl := bits w1 44 8, sem := bits w1 0 6 }
def Flume.slotTiles (f : Flume) (j : Nat) : List Nat :=
  (List.range (f.tps + 1)).map fun t => f.ring + j % (f.nsl + 1) * (f.tps + 1) + t
def Flume.tiles (f : Flume) : List Nat := (List.range ((f.nsl + 1) * (f.tps + 1))).map fun t => f.ring + t

/-- Fields of a window record (R169), and the tiles of a .SP window. -/
def winSpc (v : V512) : Nat := bits (wordOf v 0).toNat 61 3
def winBase (v : V512) : Nat := bits (wordOf v 0).toNat 0 52
def winLen (v : V512) : Nat := bits (wordOf v 1).toNat 0 25
def winTiles (v : V512) : List Nat := if winSpc v = 0 then rangeTiles (winBase v) (winLen v) else []

/-- Dimensions in a key-match store's configuration (R273), and the configuration that a store has once every command issued to
it before is done. -/
def cfgDim (v : V512) : Nat := bits v.toNat 32 8
def cfgAhead (s : State) (c st : Nat) : V512 :=
  let q := (s.unit c (10 + st)).filter fun m => m.op = .kcfg && !m.finished
  match q.getLast? with
  | some m => m.lvec
  | none => (Tab.get ({} : Kms) (s.cl c).kms st).cfg

/-- The scratchpad tiles that a command holds from its issue (R145, R152, R169, R268, R373). A query row or mask block whose
range breaks its rule is not read, so it touches none (R275, R278). -/
def State.touches (s : State) (c : Nat) (m : Cmd) : List (Nat × Nat) :=
  let own (ts : List Nat) : List (Nat × Nat) := ts.map fun t => (c, t)
  let off := bits m.lv 0 21
  let head (k : Nat) : Nat := bits (memRead s (spKey c (off + k)) 1) 0 8
  let inRange (n : Nat) : List Nat := if off + n > 0x180000 then [] else rangeTiles off n
  match m.op with
  | .kqry => own (inRange (2 * cfgDim (cfgAhead s c m.w.unit.toNat)))
  | .kmask => own (if bits m.lv 21 43 != 0 || off % 64 != 0 then [] else inRange (64 + 8 * min 16 (head 4)))
  | .nrebind => own (rangeTiles off (64 * (1 + bits (head 0) 0 5)))
  | .flopen => own (flOf m.lvec 0).tiles
  | .wopen => own (winTiles m.lvec)
  | .flpush =>
    let p := m.pats.headD 0
    (List.range m.qv).foldl (fun l (i : Nat) => joinPairs l (patTiles c p ((i : Int) * sInt 64 m.rv))) []
  | _ => (List.range m.pats.length).foldl (fun l k => joinPairs l (patTiles c (m.pats.getD k 0) (m.baseAdd k))) []

/-! ### An engine's accesses (R149) -/

/-- The party of a command's accesses. -/
def State.engParty (s : State) (c u : Nat) (m : Cmd) : Party :=
  { c := c, part := m.part, asid := m.asid, kernel := (s.nd m.nk).kernel
    tlbs := [if 1 ≤ u && u ≤ 3 then tlbEng u c else tlbCl c, tlbDie (c / 96)]
    engine := true, ws := u = 1 || u = 2, held := m.trs }

/-- Where `size` bytes of the own weight store lie; none past its end. -/
def wsPieces (c off size lane : Nat) : LocRes :=
  if off + size > 0x400000 then .bad .addressOutOfRange 0
  else if off % size != 0 then .bad .misaligned 0
  else
    let one (o n : Nat) : Piece := { key := wsKey c (off + o), size := n, lane := lane + o, va := off + o }
    .piece (if size = 64 then [one 0 32, one 32 32] else [one 0 size])

/-- An access through a resolved handle (R363). -/
def State.hndLoc (s : State) (p : Party) (m : Cmd) (h off size lane : Nat) (write : Bool) : LocRes :=
  match m.hnds.find? fun e => e.1 = h with
  | none => .bad .badHandle 0
  | some (_, ob, wr) =>
    match Tab.find s.dir.objs ob with
    | none => .bad .badHandle 0
    | some o =>
      if off + size > o.size then .bad .handleBound 0
      else if write && !wr then .bad .permission 0
      else if o.ws then
        (if o.cl != p.c || !p.ws then .bad .permission 0 else wsPieces p.c (o.base + off) size lane)
      else locate s { p with part := o.part, asid := o.asid, held := [] } .gv (o.base + off) size lane (if write then permW else permR)

/-- Where an element of a pattern lies (R149). -/
def State.patLoc (s : State) (p : Party) (m : Cmd) (pat : V512) (addr size lane : Nat) (write : Bool) : LocRes :=
  let need := if write then permW else permR
  match patSpc pat with
  | 0 => locate s p .sp addr size lane need
  | 1 => locate s p .xp addr size lane need
  | 2 => locate s p .sh addr size lane need
  | 3 => locate s p .gv addr size lane need
  | 4 => locate s p .kv addr size lane need
  | 5 => if p.ws then wsPieces p.c addr size lane else .bad .weightStoreAccess 0
  | _ => if addr % size != 0 then .bad .misaligned 0 else s.hndLoc p m (patHnd pat) addr size lane write

/-- What an engine's access does now. -/
inductive EngRes where
  | ok (s : State) (v : Nat)
  /-- It waits for a KV block, a reservation's end or an answer, or has more pieces to do. -/
  | wait (s : State)
  | bad (s : State) (f : Pending)
deriving DecidableEq, Repr

/-- The space code of a pattern for a record: those of R63, else none. -/
def patSpcCode (pat : V512) : Nat := if patSpc pat ≤ 4 then patSpc pat else 7

/-- The number that the agenda gives for a free choice of order, below `n`. -/
def State.choice (s : State) (n : Nat) : Nat := (s.sched.cur.map (·.piece)).getD 0 / 2 ^ 16 % max 1 n

/-- An engine reads, or writes the bytes of `v` to, a piece in its own cluster. -/
def State.engPiece (s : State) (p : Piece) (write : Option Nat) : EngRes :=
  match write with
  | none =>
    if badAt s p.key then .bad s { cause := .uncorrectableError, n := 0, ws := 0, age := 0, aux := memAux s p.key }
    else .ok s (readUnder s p.key p.size p.slot).2
  | some v =>
    if reservedBy s p.key (2 ^ 30) 0 then .wait s
    else .ok (writeUnder s p.key p.size (v / 2 ^ (8 * p.lane)) p.slot) 0

/-- The request that an engine sends for a piece at another place (R323). -/
def State.engAsk (s : State) (c : Nat) (m : Cmd) (addr j : Nat) (write : Option Nat) (p : Piece) : State :=
  let far := isRemote p.key
  let r : Rreq :=
    { chip := chipId s, nk := 4096 + c, id := m.id, j := j * 64 + p.lane, part := m.part
      va := if far then remoteVa p.key else addr, size := p.size, ask := if write.isSome then .store else .load, op := m.op
      b := write.getD 0 / 2 ^ (8 * p.lane), perm := p.perm, fwd := p.fwd
      key := if far then none else some p.key, slot := p.slot }
  s.post { src := c, dst := placeOf p.key, cls := 0, part := m.part, n := p.size, rd := write.isNone, body := .rreq r }

/-- An engine reads, or writes `v` to, what `loc` says, as access `j` of its command: the pieces at other places are asked for,
those in the own cluster done one in a step (R124). -/
def State.engAccess (s : State) (c u : Nat) (m : Cmd) (loc : LocRes) (addr spc j : Nat) (write : Option Nat) : EngRes :=
  let upd (f : List EngAcc → List EngAcc) (s : State) : State := s.modCmd c u m.id fun x => { x with accs := f x.accs }
  let own (s : State) (a : EngAcc) : EngRes :=
    match a.todo[s.choice a.todo.length]? with
    | none => if a.out.isEmpty then .ok s a.v else .wait s
    | some p =>
      match s.engPiece p write with
      | .ok s v =>
        let a := { a with todo := a.todo.erase p, v := a.v + v * 2 ^ (8 * p.lane) }
        let s := upd (fun l => l.filter (fun x => x.j != j) ++ [a]) s
        if a.todo.isEmpty && a.out.isEmpty then .ok s a.v else .wait s
      | .wait s => .wait s
      | .bad s f => .bad s { m.pending f.cause with aux := f.aux, va := addr, spc := spc }
  match m.accs.find? fun a => a.j = j with
  | some a => own s a
  | none =>
    match loc with
    | .bad cz x => .bad s { m.pending cz with aux := x, va := addr, spc := spc }
    | .kv q b => .wait ((s.modCmd c u m.id fun x => { x with kvw := some (q, b) }).kvAsk c m.part q b)
    | .piece ps =>
      if ps.any fun p => keyHeld s p.slot then .wait s
      else
        let far := ps.filter fun p => placeOf p.key != c
        let a : EngAcc :=
          { j := j, addr := addr, spc := spc, ps := ps, todo := ps.filter fun p => placeOf p.key = c, out := far.map (·.lane) }
        own (far.foldl (fun s p => s.engAsk c m addr j write p) (upd (· ++ [a]) s)) a

/-- The command is done with access `j`. -/
def Cmd.clear (m : Cmd) (j : Nat) : Cmd := { m with accs := m.accs.filter fun a => a.j != j }

/-- A copy engine holds every translation that it looks up until its command ends (R411). -/
def State.holdTr (s : State) (c u : Nat) (m : Cmd) (pat : V512) (a : Nat) : State :=
  if patSpc pat != 3 || (u != 1 && u != 2) || m.trs.any (fun t => t.vpn = a / 2 ^ pageShift t.level) then s
  else
    let p := s.engParty c u m
    match lookup s p.tlbs p.part p.asid a with
    | .found level pte =>
      s.modCmd c u m.id fun x => { x with
        trs := x.trs ++ [{ asid := p.asid, level := level, vpn := a / 2 ^ pageShift level, pte := pte }] }
    | _ => s

/-- An element read: 0 when it is out of bounds. -/
def State.readElem (s : State) (c u : Nat) (m : Cmd) (pat : V512) (add : Int) (e j : Nat) : EngRes :=
  match patElem pat add e with
  | none => .ok s 0
  | some a =>
    (s.holdTr c u m pat a).engAccess c u m (s.patLoc (s.engParty c u m) m pat a (patEsz pat) 0 false) a (patSpcCode pat) j none

/-- An element written; out of bounds nothing is written. -/
def State.writeElem (s : State) (c u : Nat) (m : Cmd) (pat : V512) (add : Int) (e j v : Nat) : EngRes :=
  match patElem pat add e with
  | none => .ok s 0
  | some a =>
    (s.holdTr c u m pat a).engAccess c u m (s.patLoc (s.engParty c u m) m pat a (patEsz pat) 0 true) a (patSpcCode pat) j (some v)

/-- Goes on from an access, or fails the command. -/
def EngRes.andThen (r : EngRes) (c u : Nat) (m : Cmd) (k : State → Nat → State) : State :=
  match r with
  | .ok s v => k s v
  | .wait s => s
  | .bad s f => s.failCmd c u m f

/-- Reads the stream of elements `e` to `e + cnt - 1` as bytes; stops at the first that waits or fails. Element `e` is access
`j + e` of the command. -/
def State.readStream (s : State) (c u : Nat) (m : Cmd) (pat : V512) (add : Int) (j : Nat) : Nat → Nat → EngRes × List Byte
  | _, 0 => (.ok s 0, [])
  | e, cnt + 1 =>
    match s.readElem c u m pat add e (j + e) with
    | .ok s v =>
      let r := s.readStream c u m pat add j (e + 1) cnt
      (r.1, natLE v (patEsz pat) ++ r.2)
    | x => (x, [])

/-- Writes bytes through a pattern's elements, from element `e` on. -/
def State.writeStream (s : State) (c u : Nat) (m : Cmd) (pat : V512) (add : Int) : Nat → Nat → List Byte → EngRes
  | _, 0, _ => .ok s 0
  | e, cnt + 1, bs =>
    match s.writeElem c u m pat add e (2 ^ 40 + e) (leNat (bs.take (patEsz pat))) with
    | .ok s _ => s.writeStream c u m pat add (e + 1) cnt (bs.drop (patEsz pat))
    | x => x

/-! ### Issue (R141, R145, R150, R411) -/

/-- The translation of the first in-bounds element of a .GV pattern, looked up at issue and held (R411). -/
def State.issueLookup (s : State) (p : Party) (pat : V512) (add : Int) (write : Bool) : Option Pending × List TEnt :=
  if patSpc pat != 3 then (none, [])
  else
    match (List.range (patN pat)).findSome? (patElem pat add) with
    | none => (none, [])
    | some a =>
      let fail (c : Cause) (x : Nat) : Option Pending × List TEnt :=
        (some { cause := c, n := 0, ws := 0, age := 0, va := a, spc := 3, aux := x }, [])
      match xlate s p.tlbs p.part p.asid a (if write then permW else permR) p.ws with
      | .bad c x => fail c x
      | _ =>
        match lookup s p.tlbs p.part p.asid a with
        | .found level pte => (none, [{ asid := p.asid, level := level, vpn := a / 2 ^ pageShift level, pte := pte }])
        | _ => (none, [])

/-- The handles that a command's patterns name, resolved at its issue (R363); none when one is not open. -/
def State.resolve (s : State) (asid : Nat) : List Nat → Option (List (Nat × Nat × Bool))
  | [] => some []
  | h :: hs =>
    match Tab.find s.dir.handles (asid * 4096 + h), s.resolve asid hs with
    | some (ob, wr), some r => some ((h, ob, wr) :: r)
    | _, _ => none

/-- The handles of a command: its patterns', and those its operands carry (R166, R244). -/
def Cmd.handleNums (m : Cmd) : List Nat :=
  let own := match m.op with
    | .wload => if bits m.sub 0 1 = 1 then [bits m.lv 40 12] else []
    | .nvrd | .nvwr => if bits m.sub 0 1 = 1 then [bits m.rv 40 12] else []
    | _ => []
  ((m.pats.filter fun p => patSpc p = 6).map patHnd) ++ own

/-- The chip of a whitelist record's bit (R340). -/
def whitelisted (s : State) (part chip : Nat) : Bool :=
  bits (memGet s (csmKey (rbits (pkg s (0x304 + 8 * part)) 0 28 + 32 + chip / 8))).toNat (chip % 8) 1 = 1

/-- The port of the forwarding table (R331) for a chip; the entry's bits 14:5 are ignored (R6). -/
def fwdPort (s : State) (chip : Nat) : Option Nat :=
  let e := memRead s (csmKey (rbits (pkg s 0x070) 0 28 + 2 * chip)) 2
  let p := bits e 0 5
  if bits e 15 1 = 0 || (24 ≤ p && p != 31) then none else some p

/-- The members of a chip group of a partition, ascending (R48). -/
def chipGroup (s : State) (part k : Nat) : List Nat := Tab.get [] (Tab.get [] s.cgrp part) k

/-- The partition's chip-group table passed its check (R48). -/
def cgrpOk (s : State) (part : Nat) : Bool := rbits (partReg s part 0x052) 63 1 = 1

/-- The chip group that a command names: its entry is read at the issue (R48, R173, R179). -/
def Cmd.chipGrp (m : Cmd) : Option Nat :=
  match m.op with
  | .rread => if bits m.sub 1 1 = 1 then some (bits m.rv 52 8) else none
  | .cred | .cbcast | .cgath => if bits m.sub 3 1 = 1 then some (bits m.imm 4 8) else none
  | _ => none

/-- The recipients of an RREAD (R173): chip, cluster, window, offset. -/
def Cmd.recips (m : Cmd) : List (Nat × Nat × Nat × Nat) :=
  let d := (bits m.rv 44 8, bits m.rv 40 4, bits m.rv 0 24)
  if m.chipGrp.isSome then m.chips.map fun c => (c, d) else [(bits m.rv 52 12, d)]

/-- The checks that a unit makes at issue without reading data (R151, R152, R153, R158, R166, R169, R175, R308). A .SP window past the
scratchpad's end is out of range (R86). -/
def State.issueCheck (s : State) (m : Cmd) : Option Cause :=
  if m.chipGrp.isSome && !cgrpOk s m.part then some .groupOverflow
  else
  match m.op with
  | .flpush =>
    let chip := bits m.lv 52 12
    if chip = chipId s then none
    else if !whitelisted s m.part chip then some .permission
    else if (fwdPort s chip).isNone then some .routeRefused
    else none
  | .flopen =>
    let f := flOf m.lvec m.part
    if f.ring + (f.nsl + 1) * (f.tps + 1) > 384 then some .addressOutOfRange else none
  | .wopen => if winSpc m.lvec = 0 && winBase m.lvec + winLen m.lvec > 0x180000 then some .addressOutOfRange else none
  | .rread =>
    if (bits m.lv 52 12 :: m.recips.map (·.1)).any fun c => !whitelisted s m.part c then some .permission else none
  | .kvtab =>
    let v := m.lvec
    let cfg := pkg s (0x102 + 4 * bits (wordOf v 4).toNat 16 6)
    if rbits cfg 34 1 = 0 || rbits cfg 42 6 != m.part then some .permission else none
  | .nvrd | .nvwr => nvCheck s (bits m.imm 0 6) m.part (bits m.lv 40 8)
  | .launch =>
    let cfg := pkg s (0x201 + 4 * bits m.imm 0 6)
    if rbits cfg 63 1 = 0 || rbits cfg 48 6 != m.part || bits (wordOf m.lvec 3).toNat 20 6 != m.part then some .permission else none
  | .copy =>
    let p := m.pats.getD 0 0
    let d := m.pats.getD 1 0
    if patEsz p != patEsz d || patN p != patN d then some .patternMismatch else none
  | _ => none

/-- AUX of a failure at the issue (R387). DEDUCED: it lies in tile 0 of an array command, and in no row (assumption 104). -/
def Cmd.issueAux (m : Cmd) : Nat := if m.op = .mma || m.op = .mrecur || m.op = .macc then 0xffffffff * 2 ^ 32 else 0

/-- A command enters its unit (R141): it keeps copies of its patterns and of its chip group, resolves its handles, holds its
tiles, and is checked; a failure is an engine fault at once. -/
def State.issueCmd (s : State) (c u : Nat) (m0 : Cmd) : State :=
  let x := s.cl c
  let m1 : Cmd := { m0 with
    id := x.cmdNext, no := s.storNext, pats := m0.patNums.map fun k => Tab.get 0 x.pats k
    chips := (m0.chipGrp.map (chipGroup s m0.part)).getD [] }
  let ts := (s.touches c m1).filter fun t => t.2 < 384
  let m2 : Cmd := { m1 with tiles := (ts.filter fun t => t.1 = c).map (·.2), far := ts.filter fun t => t.1 != c }
  let s := s.modCl c fun x => { x with cmdNext := x.cmdNext + 1 }
  let s := if u = 4 then { s with storNext := s.storNext + 1 } else s
  let enter (m : Cmd) (s : State) : State := s.modCl c fun x => { x with units := Tab.mod [] x.units u (· ++ [m]) }
  match s.resolve m2.asid m2.handleNums with
  | none => (enter m2 s).failWith c u m2 .badHandle m2.issueAux
  | some hs =>
    let m3 : Cmd := { m2 with hnds := hs }
    if let some cz := s.issueCheck m3 then (enter m3 s).failWith c u m3 cz m3.issueAux
    else if ts.any fun t => !(s.cl t.1).engTiles.contains t.2 then (enter m3 s).failWith c u m3 .ownerViolation m3.issueAux
    else if m3.op = .copy || m3.op = .flpush then
      let p := s.engParty c u m3
      let ls := (List.range m3.pats.length).map fun k => s.issueLookup p (m3.pats.getD k 0) (m3.baseAdd k) (k = 1)
      match ls.findSome? (·.1) with
      | some f => (enter m3 s).failCmd c u m3 f
      | none => enter { m3 with trs := ls.flatMap (·.2) } s
    else enter m3 s

/-! ### PSET and COPY -/

/-- R150: the record is checked when it fires; the register takes it at issue (`psetIssue`). -/
def execPset (w : EWord) (s : State) : Out :=
  eExec .pset (.pset w) w { l := .vec } (fun i _ _ =>
    match i.l with
    | some { val := .vec v, .. } => if patBad v then some .badPattern else none
    | _ => none) (fun i m s => s.signalCmd i.c i.u m) s

/-- PSET at its issue: the register of the cluster takes the record, and the command is complete (R150). -/
def State.psetIssue (s : State) (c : Nat) (m : Cmd) : State :=
  (s.modCl c fun x => { x with pats := Tab.put x.pats m.w.pat.toNat m.lvec }).sbLeave m

/-- Where destination element `e` of a COPY lies: none out of bounds. -/
def Cmd.copyTo (m : Cmd) (e : Nat) : Option Nat := patElem (m.pats.getD 1 0) (m.baseAdd 1) e

/-- The elements of a COPY that are passed over for now, and those read and not written, with their values. -/
def Cmd.later (m : Cmd) : List Nat := m.aux.drop 2
def Cmd.held (m : Cmd) : List (Nat × Nat) := m.got

/-- Element `e` of a COPY may be written: no lower element still to write has the same address (R151). -/
def Cmd.copyTurn (m : Cmd) (e : Nat) : Bool :=
  !((m.later ++ m.held.map (·.1)).any fun x => x < e && m.copyTo x = m.copyTo e)

/-- What a step of a COPY does, by the free choice `k` (R151 allows every order): it reads the next element, passes it over,
reads one passed over, or writes one read. -/
inductive CopyStep where
  | read (e : Nat)
  | pass
  | write (e v : Nat)
deriving DecidableEq, Repr

def Cmd.copyStep (m : Cmd) (n k : Nat) : Option CopyStep :=
  let rd := m.aux.getD 0 0
  let next := if rd < n then [CopyStep.read rd, CopyStep.pass] else []
  let old := m.later.map CopyStep.read
  let ws := (m.held.filter fun t => m.copyTurn t.1).map fun t => CopyStep.write t.1 t.2
  let all := next ++ ws ++ old
  match all[k]? with
  | some x => some x
  | none => (next.take 1 ++ old ++ ws).head?

/-- COPY's work (R151): `aux` holds the next element to read, the number written, and the elements passed over; `got` the
elements read with their values. -/
def copyWork (i : Issue) (m : Cmd) (s : State) : State :=
  let src := m.pats.getD 0 0
  let dst := m.pats.getD 1 0
  let n := patN src
  let rd := m.aux.getD 0 0
  let wr := m.aux.getD 1 0
  let upd (f : Cmd → Cmd) (s : State) : State := s.modCmd i.c i.u m.id fun x => f { x with started := true }
  if wr ≥ n then s.finishCmd i.c i.u m
  else
    match m.copyStep n (i.piece % 2 ^ 16) with
    | none => s
    | some .pass => upd (fun x => { x with aux := [rd + 1, wr] ++ m.later ++ [rd] }) s
    | some (.read e) =>
      (s.readElem i.c i.u m src (m.baseAdd 0) e (2 * e)).andThen i.c i.u m fun s v =>
        upd (fun x => { x.clear (2 * e) with
          aux := [if e = rd then rd + 1 else rd, wr] ++ m.later.filter (· != e), got := m.got ++ [(e, v)] }) s
    | some (.write e v) =>
      (s.writeElem i.c i.u m dst (m.baseAdd 1) e (2 * e + 1) v).andThen i.c i.u m fun s _ =>
        upd (fun x => { x.clear (2 * e + 1) with
          aux := [rd, wr + 1] ++ m.later, got := m.got.filter fun t => t.1 != e, finished := decide (wr + 1 ≥ n) }) s

/-- R151. -/
def execCopy (w : EWord) (s : State) : Out :=
  eExec .copy (.copy w) w
    { l := if bits w.sub.toNat 0 1 = 1 then .sc else .no, r := if bits w.sub.toNat 1 1 = 1 then .sc else .no }
    (fun _ _ _ => none) copyWork s

end Sys2Proof.Machine
end

