-- ==== Sys2Proof/Machine/Flume.lean ====
section
/-!
DEFINITION. Flumes (R152 to R156): FLOPEN, FLPUSH, FLFREE, FLCLOSE, and the landing of a slot and of a notice.
-/

namespace Sys2Proof.Machine

/-- The place of a cluster of a chip. -/
def State.placeAt (s : State) (chip c : Nat) : Nat := if chip = chipId s then c else farPlace chip c

/-- A flume's address as one number, and that of a command or record. -/
def flAddr (chip c f : Nat) : Nat := chip * 4096 + c * 16 + f
def Cmd.flKey (m : Cmd) : Nat := bits m.lv 40 24

/-- A reserved bit or value of a flume record (R152). -/
def flRecBad (v : V512) : Bool :=
  let w0 := (wordOf v 0).toNat
  let w1 := (wordOf v 1).toNat
  bits w0 33 31 != 0 || bits w0 27 5 != 0 || bits w0 20 4 != 0 || bits w0 16 4 = 0 || bits w0 9 7 != 0 || 383 < bits w0 0 9
    || bits w1 6 38 != 0 || 191 < bits w1 44 8 || (List.range 6).any fun k => wordOf v (2 + k) != 0

/-- A message of a cluster's fabric unit to a cluster of a chip. -/
def State.flPost (s : State) (c part chip dc cls n : Nat) (b : Msg) : State :=
  s.post { src := c, dst := s.placeAt chip dc, cls := cls, part := part, n := n, body := b }

/-- R152 at work: the flume opens, and a notice for each empty slot goes to the source. -/
def flopenWork (i : Issue) (m : Cmd) (s : State) : State :=
  let f := flOf m.lvec m.part
  let k := bits m.imm 0 4
  if (Tab.find (s.cl i.c).flumes k).isSome then s.failWith i.c i.u m .flumeState
  else
    let s := s.modCl i.c fun x => { x with flumes := Tab.put x.flumes k f }
    let s := (List.range (f.nsl + 1)).foldl (fun s j =>
      s.flPost i.c m.part f.srcChip f.srcCl 3 0 (.notice (flAddr (chipId s) i.c k) j f.tps m.nk (m.pending .routeRefused))) s
    s.finishCmd i.c i.u m

def execFlopen (w : EWord) (s : State) : Out :=
  eExec .flopen (.flopen w) w { l := .vec } (fun i _ _ => if flRecBad i.lvec then some .reservedCode else none) flopenWork s

/-- A FLPUSH issued before `m` in this cluster, to the same flume, still has slots to send (R153). -/
def State.pushAhead (s : State) (c : Nat) (m : Cmd) : Bool :=
  (s.unit c 1 ++ s.unit c 2).any fun x => x.op = .flpush && x.id < m.id && x.flKey = m.flKey && x.aux.getD 0 0 < x.qv

/-- R153 at work: `aux` holds the slots sent, and of the slot being copied the next element, its number and its size in
tiles; a step takes a notice, reads an element, or sends the slot. -/
def flpushWork (i : Issue) (m : Cmd) (s : State) : State :=
  let sent := m.aux.getD 0 0
  let upd (f : Cmd → Cmd) (s : State) : State := s.modCmd i.c i.u m.id f
  if sent ≥ m.qv then (if m.got.length ≥ m.qv then s.finishCmd i.c i.u m else s)
  else if m.aux.length ≤ 1 then
    if s.pushAhead i.c m then upd (fun x => { x with setAside := true }) s
    else
      match Tab.get [] (s.cl i.c).notices m.flKey with
      | [] => upd (fun x => { x with started := true, setAside := true }) s
      | (j, tps) :: r =>
        let p := m.pats.getD 0 0
        if patN p * patEsz p != (tps + 1) * 4096 then s.failWith i.c i.u m .patternMismatch
        else
          let s := s.modCl i.c fun x => { x with notices := Tab.putD [] x.notices m.flKey r }
          upd (fun x => { x with started := true, setAside := false, aux := [sent, 0, j, tps], buf := [] }) s
  else
    let e := m.aux.getD 1 0
    let p := m.pats.getD 0 0
    if e < patN p then
      (s.readElem i.c i.u m p ((sent : Int) * sInt 64 m.rv) e (sent * 2 ^ 32 + e)).andThen i.c i.u m fun s v =>
        s.modCmd i.c i.u m.id fun x => { x with accs := [], aux := x.aux.set 1 (e + 1), buf := x.buf ++ natLE v (patEsz p) }
    else
      let chip := bits m.lv 52 12
      let s := upd (fun x => { x with aux := [sent + 1], buf := [], setAside := true }) s
      s.flPost i.c m.part chip (bits m.lv 44 8) 0 m.buf.length
        (.slot m.flKey (m.aux.getD 2 0) (chipId s) i.c m.id 0 m.buf)

def execFlpush (w : EWord) (s : State) : Out :=
  eExec .flpush (.flpush w) w { l := .sc, r := .sc, q := .sc }
    (fun i _ _ =>
      if bits i.lv 0 40 != 0 || 191 < bits i.lv 44 8 || i.qv = 0 || 2 ^ 32 ≤ i.qv then some .reservedCode else none)
    flpushWork s

/-- A slot of the flume is on its way from this package. -/
def State.flBusy (s : State) (fl : Nat) : Bool :=
  let here (m : Parcel) : Bool := match m.body with | .slot g _ _ _ _ _ _ => g = fl | _ => false
  s.flying.any here || s.clusters.any fun (e : Nat × Cluster) => e.2.units.any fun (u : Nat × List Cmd) =>
      u.2.any fun m => m.op = .flpush && m.flKey = fl && decide (1 < m.aux.length)

/-- An access of the node, of the command's invocation or an older one, to one of the tiles is not performed. -/
def State.tileBusy (s : State) (c : Nat) (m : Cmd) (ts : List Nat) : Bool :=
  (s.nd m.nk).mif.any fun a => !a.done && !a.off && decide (a.age ≤ m.age) && ts.any fun t => a.onTile c t

/-- R155 at work. -/
def flfreeWork (i : Issue) (m : Cmd) (s : State) : State :=
  let k := bits m.imm 0 4
  match Tab.find (s.cl i.c).flumes k with
  | none => s.failWith i.c i.u m .flumeState
  | some f =>
    if f.landed ≤ f.freed then s.failWith i.c i.u m .flumeState
    else
      let ts := f.slotTiles f.freed
      if f.rtn && s.tileBusy i.c m ts then s
      else if f.rtn && ts.any fun t => (s.cl i.c).engTiles.contains t then s.failWith i.c i.u m .ownerViolation
      else
        let s := s.modCl i.c fun x => { x with
          engTiles := if f.rtn then ts.foldl (fun l t => setIns t l) x.engTiles else x.engTiles
          flumes := Tab.put x.flumes k { f with freed := f.freed + 1 } }
        (s.flPost i.c m.part f.srcChip f.srcCl 3 0
          (.notice (flAddr (chipId s) i.c k) (f.freed + f.nsl + 1) f.tps m.nk (m.pending .routeRefused))).finishCmd i.c i.u m

def execFlfree (w : EWord) (s : State) : Out :=
  eExec .flfree (.flfree w) w { l := .any } (fun _ _ _ => none) flfreeWork s

/-- R156 at work. -/
def flcloseWork (i : Issue) (m : Cmd) (s : State) : State :=
  let k := bits m.imm 0 4
  match Tab.find (s.cl i.c).flumes k with
  | none => s.failWith i.c i.u m .flumeState
  | some f =>
    let fl := flAddr (chipId s) i.c k
    if s.flBusy fl then s
    else
      let s := s.modCl i.c fun x => { x with flumes := Tab.del x.flumes k }
      (s.flPost i.c m.part f.srcChip f.srcCl 3 0 (.flCancel fl m.nk (m.pending .routeRefused))).finishCmd i.c i.u m

def execFlclose (w : EWord) (s : State) : Out :=
  eExec .flclose (.flclose w) w { l := .any } (fun _ _ _ => none) flcloseWork s

/-! ### Arrivals -/

/-- A freed-slot notice reaches the source (R153); a cancelling one drops those kept, and the FLPUSHes of the flume that
still have slots to send fail, begun or not (R156). -/
def State.noticeArrive (s : State) (c : Nat) (b : Msg) : State :=
  match b with
  | .notice fl j tps _ _ =>
    s.modCl c fun x =>
      let l := Tab.get [] x.notices fl
      { x with notices := if l.length < 16 then Tab.put x.notices fl (l ++ [(j, tps)]) else x.notices }
  | .flCancel fl _ _ =>
    let fix (m : Cmd) : Cmd :=
      if m.op = .flpush && m.flKey = fl && decide (m.aux.getD 0 0 < m.qv) then { m with fail := some (m.pending .flumeState) }
      else m
    s.modCl c fun x => { x with
      notices := Tab.putD [] x.notices fl []
      units := x.units.map fun (u : Nat × List Cmd) => (u.1, u.2.map fix) }
  | _ => s

/-- A slot at the consumer (R152, R154): refused, held back until its turn or while a granule is reserved (none), written
granule by granule (R124), or landed. The second part is what is still to write. -/
def State.slotArrive (s : State) (c part : Nat) (b : Msg) : Option (State × Option Msg) :=
  match b with
  | .slot fl j chip sc id at_ bs =>
    let answer (s : State) (bad : Option (Cause × Nat × Nat)) : State :=
      s.flPost c part chip sc 3 0 (.rack sc id j bad (chipId s))
    match Tab.find (s.cl c).flumes (fl % 16) with
    | none => some (answer s (some (.flumeState, 0, 0)), none)
    | some f =>
      let k := spKey c ((f.ring + j % (f.nsl + 1) * (f.tps + 1)) * 4096 + at_)
      if f.srcChip != chip || f.srcCl != sc || f.part != part then some (answer s (some (.permission, 0, 0)), none)
      else if j != f.landed then none
      else if bs.isEmpty then
        let s := s.modCl c fun x => { x with
          engTiles := if f.rtn then x.engTiles.filter (fun t => !(f.slotTiles j).contains t) else x.engTiles
          flumes := Tab.put x.flumes (fl % 16) { f with landed := f.landed + 1 } }
        some (answer (s.semApply c f.sem 1 false false) none, none)
      else if reservedBy s k (2 ^ 30) 0 then none
      else some (writeUnder s k 32 (leNat (bs.take 32)) none, some (.slot fl j chip sc id (at_ + 32) (bs.drop 32)))
  | _ => some (s, none)

end Sys2Proof.Machine
end

