-- ==== Sys2Proof/Machine/Fabric.lean ====
section
/-!
DEFINITION. Route tags, receive windows and three-party reads (R168 to R178): TSEND, WOPEN, WCLOSE, COPYR, RREAD, and what
their messages do where they arrive.
-/

namespace Sys2Proof.Machine

/-! ### Route tags (R168) -/

/-- A valid entry of a partition's route table: chip, cluster, plane, element, port code, NS and LANE. Its reserved bits are
ignored (R6). -/
def routeEntry (s : State) (part tag : Nat) : Option (Nat × Nat × Nat × Nat × Port × Nat × Nat) :=
  let e := memRead s (csmKey (rbits (partReg s part 0x050) 0 28 + 8 * tag)) 8
  let ns := max 1 (bits e 20 8)
  let pt : Option Port := match bits e 28 2 with | 0 => some .l | 1 => some .r | 3 => some .q | _ => none
  match pt with
  | none => none
  | some p =>
    if bits e 63 1 = 0 || bits e 40 8 ≥ 192 || bits e 12 8 ≥ ns then none
    else some (bits e 48 12, bits e 40 8, bits e 37 3, bits e 30 7, p, ns, bits e 12 8)

/-- Tag `t` of a partition is on its whitelist, and so is the chip of its entry (R340). -/
def tagListed (s : State) (part tag chip : Nat) : Bool :=
  bits (memGet s (csmKey (rbits (pkg s (0x304 + 8 * part)) 0 28 + tag / 8))).toNat (tag % 8) 1 = 1 && whitelisted s part chip

/-- The tokens of a path that are in flight: sent and not accepted. -/
def State.pathFlight (s : State) (c tag : Nat) : Nat :=
  ((s.unit c 5).filter fun x => x.op = .tsend && x.started && !x.finished && bits x.imm 0 8 = tag).length

/-- R168 at work: the token leaves while the path has room, and the command ends when it is accepted. -/
def tsendWork (i : Issue) (m : Cmd) (s : State) : State :=
  if m.started then (if m.got.isEmpty then s else s.finishCmd i.c i.u m)
  else
    let tag := bits m.imm 0 8
    match routeEntry s m.part tag with
    | none => s.failWith i.c i.u m .routeTag
    | some (chip, cl, pl, ix, pt, ns, lane) =>
      if !tagListed s m.part tag chip then s.failWith i.c i.u m .routeTag
      else if s.pathFlight i.c tag ≥ 64 then s
      else
        let s := s.modCmd i.c i.u m.id fun x => { x with started := true }
        s.flPost i.c m.part chip cl 2 0 (.tok pl ix pt ns lane (chipId s) i.c m.id tag (m.l.getD {}))

def execTsend (w : EWord) (s : State) : Out :=
  eExec .tsend (.tsend w) w { l := .any } (fun _ _ _ => none) tsendWork s

/-- The answer that a command's message was accepted or refused. -/
def State.tell (s : State) (c part chip dc id j : Nat) (bad : Option (Cause × Nat × Nat)) : State :=
  s.flPost c part chip dc 3 0 (.rack dc id j bad (chipId s))

/-- A route-tag token is accepted: its sender is told (R168). -/
def State.tellRouted (s : State) (c : Nat) (r : Routed) : State :=
  match r.tell with
  | none => s
  | some (chip, dc, id) => s.tell c (s.nd (nkOf c r.pl)).part chip dc id 0 none

/-- Delivers the route-tag tokens whose taking invocations are in flight, and tells their senders (R168, R46). A token whose
taking invocation has committed without it is freed and counted (R39). -/
def State.deliverRouted (s : State) (c : Nat) : State :=
  (s.cl c).routed.foldl (fun s r =>
    let nk := nkOf c r.pl
    let key := r.ix * 4 + r.pt.code
    let here (x : Routed) : Bool := x.pl = r.pl && x.ix = r.ix && x.pt = r.pt && x.k = r.k
    if r.dlv then s
    else
      match (s.nd nk).invs.find? fun v => v.takes.contains (key, r.k) with
      | none =>
        if r.k < Tab.get 0 (s.nd nk).taken key then
          ((countEvent s (s.nd nk).part c 3 1).modCl c fun x => { x with routed := x.routed.filter fun y => !here y }).tellRouted c r
        else s
      | some v =>
        let s := s.modCl c fun x => { x with
          routed := x.routed.map fun y => if here y then { y with dlv := true, tell := none } else y }
        let a := arriveAs r.pt .data r.o
        (s.pushTok c
          { pl := r.pl, ix := r.ix, pt := r.pt, ws := v.ws, it := v.it, kd := a.1, gn := (s.nd nk).gn, o := a.2 }).tellRouted c r) s

/-- A token of a route tag arrives at its cluster (R168): it waits for its taking invocation, or is refused where no
running node of the sender's partition is. -/
def State.tokArrive (s : State) (c part : Nat) (b : Msg) : State :=
  match b with
  | .tok pl ix pt ns lane chip sc id tag o =>
    let nk := nkOf c pl
    let n := s.nd nk
    if n.asg.isNone || n.part != part || n.callable || n.st = .ended || n.st = .unassigned then
      s.tell c part chip sc id 0 (some (.routeRefused, 0, 0))
    else
      let key := (chip * 256 + sc) * 256 + tag
      let cnt := Tab.get 0 n.rtCount key
      let s := s.modNd nk fun n => { n with rtCount := Tab.put n.rtCount key (cnt + 1) }
      let r : Routed := { pl := pl, ix := ix, pt := pt, k := cnt * ns + lane, o := o, path := key, ns := ns, lane := lane, tell := some (chip, sc, id) }
      (s.modCl c fun x => { x with routed := x.routed ++ [r] }).deliverRouted c
  | _ => s

/-! ### Windows (R169 to R171) -/

/-- A reserved bit or value of a window record (R169). -/
def winBad (v : V512) : Bool :=
  let spc := winSpc v
  let base := winBase v
  (spc != 0 && spc != 3) || bits (wordOf v 0).toNat 52 9 != 0
    || (if spc = 0 then base % 4096 != 0 || base ≥ 2 ^ 21 else base % 64 != 0)
    || bits (wordOf v 1).toNat 25 39 != 0 || winLen v < 64 || winLen v > 2 ^ 24 || winLen v % 64 != 0
    || bits (wordOf v 2).toNat 6 58 != 0 || (List.range 4).any fun k => wordOf v (4 + k) != 0

/-- R169 at work: the window opens. -/
def wopenWork (i : Issue) (m : Cmd) (s : State) : State :=
  let k := bits m.imm 0 4
  let v := m.lvec
  if (Tab.find (s.cl i.c).windows k).isSome then s.failWith i.c i.u m .windowState
  else
    (s.modCl i.c fun x => { x with
      windows := Tab.put x.windows k { desc := v, part := m.part, asid := m.asid } }).finishCmd i.c i.u m

def execWopen (w : EWord) (s : State) : Out :=
  eExec .wopen (.wopen w) w { l := .vec } (fun i _ _ => if winBad i.lvec then some .reservedCode else none) wopenWork s

/-- R171 at work. A window that is not open is "window state" (assumption 77). -/
def wcloseWork (i : Issue) (m : Cmd) (s : State) : State :=
  let k := bits m.imm 0 4
  let x := s.cl i.c
  if (Tab.find x.windows k).isNone then s.failWith i.c i.u m .windowState
  else if x.dlvs.any fun d => d.w = k && !d.refused then s
  else (s.modCl i.c fun x => { x with windows := Tab.del x.windows k }).finishCmd i.c i.u m

def execWclose (w : EWord) (s : State) : Out :=
  eExec .wclose (.wclose w) w { l := .any } (fun _ _ _ => none) wcloseWork s

/-- The party of a window's writes. -/
def winParty (c : Nat) (x : Window) : Party :=
  { c := c, part := x.part, asid := x.asid, kernel := none, tlbs := [tlbCl c, tlbDie (c / 96)], engine := true }

/-- The place of 64 bytes at a window offset. -/
def winLoc (s : State) (c : Nat) (x : Window) (off : Nat) : LocRes :=
  if winSpc x.desc = 0 then spLoc s (winParty c x) c (winBase x.desc + off) 64 0 (winBase x.desc + off)
  else locate s (winParty c x) .gv (winBase x.desc + off) 64 0 permW

/-- The checks of R169 for a whole delivery. -/
def winOpenFor (s : State) (c part w off len : Nat) : Option Window :=
  match Tab.find (s.cl c).windows w with
  | none => none
  | some x =>
    if bits (wordOf x.desc 3).toNat part 1 = 0 || off + len > winLen x.desc then none
    else if winSpc x.desc = 3 && (List.range (len / 64)).any fun g =>
      match winLoc s c x (off + 64 * g) with | .piece _ => false | _ => true
    then none
    else some x

/-- A delivery has all its granules visible: the semaphore, with its error flag when a null delivery came, and the answer
(R169, R176, R177). -/
def State.dlvEnd (s : State) (c part n : Nat) : State :=
  match (s.cl c).dlvs.find? fun d => d.n = n with
  | none => s
  | some d =>
    if d.left != 0 || d.away != 0 || d.refused then s
    else
      let sem := match Tab.find (s.cl c).windows d.w with | none => 0 | some x => bits (wordOf x.desc 2).toNat 0 6
      let s := s.modCl c fun x => { x with dlvs := x.dlvs.filter fun e => e.n != n }
      (s.semApply c sem 1 false d.err).tell c part d.chip d.c d.id d.j none

/-- A delivery is refused (R177): the requester is told, and the owner of an RREAD. -/
def State.dlvRefuse (s : State) (c part n : Nat) : State :=
  match (s.cl c).dlvs.find? fun d => d.n = n with
  | none => s
  | some d =>
    let s := s.modCl c fun x => { x with dlvs := x.dlvs.map fun e => if e.n = n then { e with refused := true } else e }
    s.tell c part d.chip d.c d.id d.j (some (.windowRefused, 0, 0))

/-- A granule of a delivery arrives (R169); none while its bytes wait for a reservation's end (R97). `src` is where it
came from. -/
def State.winArrive (s : State) (c part src : Nat) (b : Msg) : Option State :=
  match b with
  | .win w off len at_ bs chip dc id j =>
    let known := (s.cl c).dlvs.find? fun d => d.chip = chip && d.c = dc && d.id = id && d.j = j
    let ok := winOpenFor s c part w off len
    let s := match known with
      | some _ => s
      | none =>
        let n := (s.cl c).cmdNext
        let d : Dlv := { n := n, chip := chip, c := dc, id := id, j := j, w := w, left := len / 64 }
        let s := s.modCl c fun x => { x with cmdNext := n + 1, dlvs := x.dlvs ++ [d] }
        if ok.isSome then s
        else
          let s := s.dlvRefuse c part n
          s.post { src := c, dst := src, cls := 3, part := part, body := .rstop chip dc id j }
    match (s.cl c).dlvs.find? fun d => d.chip = chip && d.c = dc && d.id = id && d.j = j with
    | none => some s
    | some d =>
      if d.refused then some s
      else
        let upd (f : Dlv → Dlv) (s : State) : State :=
          s.modCl c fun x => { x with dlvs := x.dlvs.map fun e => if e.n = d.n then f e else e }
        match bs, Tab.find (s.cl c).windows w with
        | none, _ => some ((upd (fun e => { e with left := e.left - 1, err := true }) s).dlvEnd c part d.n)
        | some _, none => some (s.dlvRefuse c part d.n)
        | some bs, some x =>
          match winLoc s c x (off + at_) with
          | .piece ps =>
            if ps.any fun p => placeOf p.key = c && reservedBy s p.key (2 ^ 30) 0 then none
            else
              let far := ps.filter fun p => placeOf p.key != c
              let near := ps.filter fun p => placeOf p.key = c
              let v := leNat bs
              let s := near.foldl (fun s p => writeUnder s p.key p.size (v / 2 ^ (8 * p.lane)) p.slot) s
              let s := far.foldl (fun s p =>
                let r : Rreq :=
                  { chip := chipId s, nk := dlvParty + c, id := d.n, j := 0, part := x.part
                    va := if isRemote p.key then remoteVa p.key else p.va, size := p.size
                    ask := .store, op := .copyr, b := v / 2 ^ (8 * p.lane), perm := p.perm, fwd := p.fwd
                    key := if isRemote p.key then none else some p.key, slot := p.slot }
                s.post { src := c, dst := placeOf p.key, cls := 0, part := part, n := p.size, body := .rreq r }) s
              some ((upd (fun e => { e with left := e.left - 1, away := e.away + far.length }) s).dlvEnd c part d.n)
          | _ => some (s.dlvRefuse c part d.n)
  | _ => some s

/-- The answer of another place to a window's write (R178). -/
def State.dlvAnswer (s : State) (c n : Nat) (bad : Bool) : State :=
  let part := match (s.cl c).dlvs.find? fun d => d.n = n with
    | none => 0
    | some d => ((Tab.find (s.cl c).windows d.w).map (·.part)).getD 0
  if bad then s.dlvRefuse c part n
  else
    (s.modCl c fun x => { x with dlvs := x.dlvs.map fun e => if e.n = n then { e with away := e.away - 1 } else e }).dlvEnd c part n

/-! ### COPYR (R172) -/

/-- A command whose recipients have not all answered signals early with `.DISP`; it is kept until they have (R172, R176). -/
def State.finishDisp (s : State) (c u : Nat) (m : Cmd) : State :=
  if (m.got.filter fun e => e.1 < 2 ^ 20).length ≥ (if m.op = .rread then m.aux.getD 0 0 else 1) then s.finishCmd c u m
  else (s.modCl c fun x => { x with disp := x.disp ++ [{ m with started := true }] }).finishCmd c u m

/-- A recipient's cluster that R27 reserves: no message goes there. -/
def clReserved (cl : Nat) : Bool := 192 ≤ cl && cl != 255

/-- The operand check of COPYR (R27, R172). -/
def copyrBad (i : Issue) : Option Cause :=
  if clReserved (bits i.lv 44 8) then some .badDestination
  else if bits i.lv 24 16 != 0 || bits i.lv 44 8 = 255 || bits i.lv 0 24 % 64 != 0 then some .reservedCode
  else none

/-- R172 at work: the elements are read, then the bytes go out in granules. `aux` holds the next element. -/
def copyrWork (i : Issue) (m : Cmd) (s : State) : State :=
  let p := m.pats.getD 0 0
  let e := m.aux.getD 0 0
  let n := patN p * patEsz p
  if n % 64 != 0 then s.failWith i.c i.u m .patternMismatch
  else if e < patN p then
    (s.readElem i.c i.u m p 0 e e).andThen i.c i.u m fun s v =>
      s.modCmd i.c i.u m.id fun x => { x with accs := [], started := true, aux := [e + 1], buf := x.buf ++ natLE v (patEsz p) }
  else if e = patN p then
    let s := s.modCmd i.c i.u m.id fun x => { x with aux := [e + 1], buf := [] }
    let s := (List.range (n / 64)).foldl (fun s g =>
      s.flPost i.c m.part (bits m.lv 52 12) (bits m.lv 44 8) 0 64
        (.win (bits m.lv 40 4) (bits m.lv 0 24) n (64 * g) (some ((m.buf.drop (64 * g)).take 64)) (chipId s) i.c m.id 0)) s
    if bits m.sub 0 1 = 1 then s.finishDisp i.c i.u m else s
  else if m.got.isEmpty then s
  else s.finishCmd i.c i.u m

def execCopyr (w : EWord) (s : State) : Out :=
  eExec .copyr (.copyr w) w { l := .sc }
    (fun i _ _ => copyrBad i) copyrWork s

/-! ### RREAD (R173 to R177) -/

/-- The fields and ranges of R173, and the recipient's cluster (R27). -/
def rreadBad (w : EWord) (i : Issue) : Option Cause :=
  let sub := w.sub.toNat
  let addr := if bits sub 0 1 = 1 then bits i.lv 0 40 else bits i.lv 0 52
  if clReserved (bits i.rv 44 8) then some .badDestination
  else if addr % 64 != 0 || bits i.rv 24 16 != 0 || bits i.rv 44 8 = 255 || bits i.rv 0 24 % 64 != 0
    || (bits sub 1 1 = 1 && bits i.rv 60 4 != 0)
    || i.qv < 64 || 2 ^ 24 < i.qv || i.qv % 64 != 0 then some .reservedCode
  else none

/-- R173 at work: the request goes to the owner; the command ends when every recipient has acknowledged, or with `.DISP`
when the owner has sent the last granule (answer number `2^20`). `aux` holds the number of recipients. -/
def rreadWork (i : Issue) (m : Cmd) (s : State) : State :=
  let chip := bits m.lv 52 12
  if !m.started then
    let rs := m.recips
    let hnd := bits m.sub 0 1 = 1
    let r : Rread :=
      { chip := chipId s, c := i.c, id := m.id, part := m.part
        addr := if hnd then bits m.lv 0 40 else bits m.lv 0 52
        hnd := if hnd then some (bits m.lv 40 12) else none
        len := m.qv, disp := decide (bits m.sub 2 1 = 1)
        to_ := (List.range rs.length).map fun j => (j, rs.getD j (0, 0, 0, 0)) }
    let s := s.modCmd i.c i.u m.id fun x => { x with started := true, aux := [rs.length] }
    s.post { src := i.c, dst := s.placeAt chip 224, cls := 0, part := m.part, body := .rread r }
  else if bits m.sub 2 1 = 1 then
    (if m.got.any fun e => e.1 = 2 ^ 20 then s.finishDisp i.c i.u m else s)
  else if m.got.length ≥ m.aux.getD 0 0 then s.finishCmd i.c i.u m
  else s

def execRread (w : EWord) (s : State) : Out :=
  eExec .rread (.rread w) w { l := .sc, r := .sc, q := .sc }
    (fun i _ _ => rreadBad w i) rreadWork s

/-- Where the next granule of an RREAD lies at the owner (R175, R178, R363): under the RASID of the partition, or through
the object that its handle names. -/
def rreadLoc (s : State) (r : Rread) : XRes :=
  let rasid := rbits (pkg s (0x301 + 8 * r.part)) 32 16
  match r.hnd with
  | none => xlateFrom s [tlbDie 0] r.part permR false (3 - r.fwd) rasid ((r.addr + 64 * r.g) % 2 ^ 52) r.perm r.fwd
  | some _ =>
    match r.obj with
    | none => .bad .badHandle 0
    | some (ob, _) =>
      match Tab.find s.dir.objs ob with
      | none => .bad .badHandle 0
      | some o =>
        if r.addr + 64 * r.g + 64 > o.size then .bad .handleBound 0
        else if o.ws then .bad .permission 0
        else xlate s [tlbDie 0] o.part o.asid ((o.base + r.addr + 64 * r.g) % 2 ^ 52) permR

/-- The owner reads one granule of an RREAD and sends it on, or sends null deliveries after a failure (R174, R177). The
answer is the request with the rest still to do; none when it is done. -/
def State.rreadStep (s : State) (r0 : Rread) : State × Option Rread :=
  let r := match r0.hnd, r0.obj with
    | some h, none =>
      { r0 with obj := Tab.find s.dir.handles (rbits (pkg s (0x301 + 8 * r0.part)) 32 16 * 4096 + h) }
    | _, _ => r0
  let send (s : State) (bs : Option (List Byte)) : State :=
    s.postAll { src := 224, dst := 0, cls := 0, part := r.part, n := 64, body := .rread r }
      (r.to_.map fun (j, chip, c, w, off) => (s.placeAt chip c, .win w off r.len (64 * r.g) bs r.chip r.c r.id j))
  let report (s : State) (j : Nat) (bad : Option (Cause × Nat × Nat)) : State := s.tell 224 r.part r.chip r.c r.id j bad
  let next (s : State) (bad : Bool) : State × Option Rread :=
    if r.one || 64 * (r.g + 1) ≥ r.len then (if r.disp && !bad && !r.one then report s (2 ^ 20) none else s, none)
    else (s, some { r with g := r.g + 1, bad := bad })
  if r.to_.isEmpty then (s, none)
  else if r.bad then next (send s none) true
  else
    let va := (r.addr + 64 * r.g) % 2 ^ 52
    match rreadLoc s r with
    | .bad c a => next (send (report s (2 ^ 20 + 1) (some (c, a, va))) none) true
    | .away chip w perm fwd =>
      let one : Rread :=
        { r with addr := (w + 2 ^ 52 - 64 * r.g % 2 ^ 52) % 2 ^ 52, hnd := none, obj := none, one := true, perm := perm, fwd := fwd }
      next (s.post { src := 224, dst := farPlace chip 224, cls := 0, part := r.part, body := .rread one }) false
    | .here pa slot =>
      if badAt s pa then next (send (report s (2 ^ 20 + 1) (some (.uncorrectableError, memAux s pa, va))) none) true
      else
        let x := readUnder s pa 64 (some slot)
        next (send x.1 (some (natLE x.2 64))) false

/-- A recipient that refused is no longer served (R177). -/
def State.rreadStop (s : State) (chip c id j : Nat) : State :=
  let fix (m : Parcel) : Parcel :=
    match m.body with
    | .rread r =>
      if r.chip = chip && r.c = c && r.id = id then { m with body := .rread { r with to_ := r.to_.filter fun e => e.1 != j } } else m
    | _ => m
  { s with inbox := s.inbox.map fix }

/-- An answer to a COPYR, RREAD or TSEND (R168, R172, R176, R177): it joins the command's answers, or fails it. A command
with `.DISP` that has signalled fails its node all the same. -/
def State.rackArrive (s : State) (c id j : Nat) (bad : Option (Cause × Nat × Nat)) (chip : Nat) : State :=
  match (s.cl c).disp.find? fun m => m.id = id with
  | none =>
    let fix (m : Cmd) : Cmd :=
      if m.id != id then m
      else match bad with
        | none => { m with got := m.got ++ [(j, 0)] }
        | some (cz, aux, va) =>
          if m.fail.isSome then m
          else { m with fail := some { m.pending cz with aux := aux, va := if cz = .windowRefused then va else chip * 2 ^ 52 + va, spc := 5, chip := some chip } }
    s.modCl c fun x => { x with units := x.units.map fun (u : Nat × List Cmd) => (u.1, u.2.map fix) }
  | some m =>
    match bad with
    | some (cz, aux, va) =>
      let s := s.modCl c fun x => { x with disp := x.disp.filter fun y => y.id != id }
      s.engFault m.nk { m.pending cz with aux := aux, va := if cz = .windowRefused then va else chip * 2 ^ 52 + va, spc := 5, chip := some chip }
    | none =>
      let m' : Cmd := { m with got := m.got ++ [(j, 0)] }
      let need := if m.op = .rread then m.aux.getD 0 0 else 1
      let cnt := (m'.got.filter fun e => e.1 < 2 ^ 20).length
      s.modCl c fun x => { x with
        disp := if cnt ≥ need then x.disp.filter (fun y => y.id != id) else x.disp.map fun y => if y.id = id then m' else y }

end Sys2Proof.Machine
end

