-- ==== Sys2Proof/Machine/Kv.lean ====
section
/-!
DEFINITION. The KV commands (R157 to R163) and the storage commands (R164 to R167).
-/

namespace Sys2Proof.Machine

/-! ### KVTAB (R158) -/

/-- A reserved bit or value of a sequence record as L gives it. -/
def kvRecBad (v : V512) : Bool :=
  let w (k : Nat) : Nat := (wordOf v k).toNat
  let kvl := bits (w 2) 48 10
  let stride := bits (w 2) 0 10
  bits (w 0) 52 12 != 0 || w 0 % 8 != 0 || bits (w 1) 28 36 != 0 || bits (w 1) 0 28 = 0
    || bits (w 2) 58 6 != 0 || bits (w 2) 42 6 != 0 || bits (w 2) 26 6 != 0 || bits (w 2) 10 6 != 0
    || kvl = 0 || stride = 0 || bits (w 2) 16 10 + kvl > stride || bits (w 2) 32 10 + kvl > stride
    || bits (w 3) 52 12 != 0 || w 3 % 64 != 0
    || bits (w 4) 25 39 != 0 || bits (w 4) 22 2 != 0 || bits (w 4) 0 16 = 0
    || w 5 != 0 || w 6 != 0 || w 7 != 0

/-- R158 at work: the record, with the issuer's ASID, goes to its granule; a reservation there is waited for. -/
def kvtabWork (i : Issue) (m : Cmd) (s : State) : State :=
  let k := kvRecord s m.part m.imm
  if reservedBy s k (2 ^ 30) 0 then s
  else (writeUnder s k 64 (m.lvec.toNat + m.asid * 2 ^ 320) none).finishCmd i.c i.u m

def execKvtab (w : EWord) (s : State) : Out :=
  eExec .kvtab (.kvtab w) w { l := .vec } (fun i _ _ => if kvRecBad i.lvec then some .reservedCode else none) kvtabWork s

/-! ### KVGATH and KVAPP (R161, R162) -/

/-- 64 bytes of a record: position and offset. -/
def State.kvChunk (s : State) (c u : Nat) (m : Cmd) (seq pos off j : Nat) (write : Option Nat) : EngRes :=
  let addr := seq * 2 ^ 48 + pos * 2 ^ 16 + off
  let need := if write.isSome then permW else permR
  let p := s.engParty c u m
  s.touch p .kv addr |>.engAccess c u m (locate s p .kv addr 64 0 need) addr 4 j write

/-- 64 bytes of a pattern's stream, read and written as its elements. -/
def State.patChunk (s : State) (c u : Nat) (m : Cmd) (p : V512) (k : Nat) : EngRes × List Byte :=
  s.readStream c u m p 0 0 (k * (64 / patEsz p)) (64 / patEsz p)
def State.patPut (s : State) (c u : Nat) (m : Cmd) (p : V512) (k : Nat) (bs : List Byte) : EngRes :=
  s.writeStream c u m p 0 (k * (64 / patEsz p)) (64 / patEsz p) bs

/-- R161 at work: `aux` holds the next 64 bytes of the two streams together, keys first, counted in 64 bytes. -/
def kvgathWork (i : Issue) (m : Cmd) (s : State) : State :=
  let seq := bits m.lv 48 16
  let kvl := bits (kvWord s m.part seq 2) 48 10
  let len := 16 * m.rv * kvl
  let t := m.aux.getD 0 0
  let pk := m.pats.getD 0 0
  let pv := m.pats.getD 1 0
  if patN pk * patEsz pk != 64 * len || patN pv * patEsz pv != 64 * len then s.failWith i.c i.u m .patternMismatch
  else if t ≥ 2 * len then s.finishCmd i.c i.u m
  else
    let k := t % len
    let off := (if t < len then bits (kvWord s m.part seq 2) 16 10 else bits (kvWord s m.part seq 2) 32 10) + k % kvl
    (s.kvChunk i.c i.u m seq (bits m.lv 16 32 + k / kvl) (64 * off) (2 ^ 44 + t) none).andThen i.c i.u m fun s v =>
      (s.patPut i.c i.u m (if t < len then pk else pv) k (natLE v 64)).andThen i.c i.u m fun s _ =>
        s.modCmd i.c i.u m.id fun x => { x with accs := [], started := true, aux := [t + 1], kvw := none }

def execKvgath (w : EWord) (s : State) : Out :=
  eExec .kvgath (.kvgath w) w { l := .sc, r := .sc }
    (fun i _ _ =>
      if bits i.lv 0 16 != 0 || bits i.lv 16 4 != 0 || i.rv = 0 || 256 < i.rv then some .reservedCode else none)
    kvgathWork s

/-- R162 at work: `aux` holds the next 64 bytes. -/
def kvappWork (i : Issue) (m : Cmd) (s : State) : State :=
  let seq := bits m.lv 48 16
  let stride := bits (kvWord s m.part seq 2) 0 10
  let t := m.aux.getD 0 0
  let p := m.pats.getD 0 0
  if patN p * patEsz p != m.rv * stride * 64 then s.failWith i.c i.u m .patternMismatch
  else if t ≥ m.rv * stride then s.finishCmd i.c i.u m
  else
    let r := s.patChunk i.c i.u m p t
    r.1.andThen i.c i.u m fun s _ =>
      (s.kvChunk i.c i.u m seq (bits m.lv 16 32 + t / stride) (64 * (t % stride)) (2 ^ 44 + t) (some (leNat r.2))).andThen i.c i.u m
        fun s _ => s.modCmd i.c i.u m.id fun x => { x with accs := [], started := true, aux := [t + 1], kvw := none }

def execKvapp (w : EWord) (s : State) : Out :=
  eExec .kvapp (.kvapp w) w { l := .sc, r := .sc }
    (fun i _ _ =>
      if bits i.lv 0 16 != 0 || i.rv = 0 || 16 < bits i.lv 16 4 + i.rv then some .reservedCode else none)
    kvappWork s

/-! ### KVINV (R163) -/

/-- R163 at work: the own KBTB, or every KBTB of the package, is told; each acknowledges. -/
def kvinvWork (i : Issue) (m : Cmd) (s : State) : State :=
  let cs := if bits m.sub 0 1 = 1 then List.range 192 else [i.c]
  if m.started then (if m.got.length ≥ cs.length then s.finishCmd i.c i.u m else s)
  else
    let s := s.modCmd i.c i.u m.id fun x => { x with started := true }
    cs.foldl (fun s d =>
      s.post { src := i.c, dst := d, cls := 3, part := m.part
               body := .kvinv (bits m.lv 48 16) (bits m.lv 0 28) m.rv i.c m.id none }) s

def execKvinv (w : EWord) (s : State) : Out :=
  eExec .kvinv (.kvinv w) w { l := .sc, r := .sc }
    (fun i _ _ => if bits i.lv 28 20 != 0 || i.rv = 0 || 2 ^ 28 ≤ i.rv then some .reservedCode else none) kvinvWork s

/-- A block lies in a KVINV's range. -/
def kvInRange (seq b n : Nat) (q x : Nat) : Bool := q = seq && decide (b ≤ x) && decide (x < b + n)

/-- The accesses and gathers in flight in a cluster that used an entry of the range: node accesses in .KV, and KV
commands. -/
def kvUsers (s : State) (c part seq b n : Nat) : List (Nat × Nat) :=
  let nodes := (s.nodes.filter fun (e : Nat × Node) => decide (e.1 / 8 = c) && e.2.part = part).flatMap fun (e : Nat × Node) =>
    (e.2.mif.filter fun a => a.w.asp = .kv && (a.st = .sent || a.st = .reserved || (a.held && !a.loc.isEmpty))
      && (accAddrs a).any fun t => kvInRange seq b n (bits t.2 48 16) (bits t.2 20 28)).map fun a => (e.1, a.id)
  let cmds := ((s.cl c).units.flatMap fun (u : Nat × List Cmd) =>
    u.2.filter fun m => m.part = part && m.started && !m.finished
      && (if m.op = .kvgath || m.op = .kvapp then
            (List.range 257).any fun j => j ≤ (if m.op = .kvgath then m.rv else 0) && kvInRange seq b n (bits m.lv 48 16) (bits m.lv 20 28 + j)
          else m.pats.any fun p => patSpc p = 4 && patSeq p = seq)).map fun m => (4096 + c, m.id)
  nodes ++ cmds

/-- A user of `kvUsers` is still at work. -/
def kvUsing (s : State) (e : Nat × Nat) : Bool :=
  if e.1 ≥ 4096 then (s.cl (e.1 - 4096)).units.any fun (u : Nat × List Cmd) => u.2.any fun m => m.id = e.2 && !m.finished
  else match s.accOf e.1 e.2 with | none => false | some a => !a.done

/-- A KVINV at a KBTB (R163): it drops the matching entries; once their users are done it acknowledges. The answer says
what stays to do. -/
def State.kvinvStep (s : State) (c part : Nat) (b : Msg) : State × Option Msg :=
  match b with
  | .kvinv seq b n rc id none =>
    let us := kvUsers s c part seq b n
    let s := s.modCl c fun x => { x with
      kbtb := x.kbtb.filter fun e => !(e.1 = part && kvInRange seq b n e.2.1 e.2.2.1) }
    if us.isEmpty then (s.tell c part (chipId s) rc id c none, none)
    else (s, some (.kvinv seq b n rc id (some us)))
  | .kvinv _ _ _ rc id (some us) =>
    if us.any (kvUsing s) then (s, some b) else (s.tell c part (chipId s) rc id c none, none)
  | _ => (s, none)

/-! ### NVRD and NVWR (R166, R167) -/

/-- The pages of a transfer: of an address, or of an object through a handle (R363). -/
def nvPages (s : State) (c : Nat) (m : Cmd) (len : Nat) : Except (Cause × Nat) (List (Nat × Nat × Nat)) :=
  let need := if m.op = .nvrd then permW else permR
  let hs := [tlbCl c, tlbDie (c / 96)]
  if bits m.sub 0 1 = 1 then
    let off := bits m.rv 0 40
    match m.hnds.head? with
    | none => .error (.badHandle, 0)
    | some (_, ob, wr) =>
      match Tab.find s.dir.objs ob with
      | none => .error (.badHandle, 0)
      | some o =>
        if off + len > o.size then .error (.handleBound, 0)
        else if (m.op = .nvrd && !wr) || o.ws then .error (.permission, 0)
        else vaPages s hs o.part o.asid need (len / 4096 + 2) (o.base + off) len
  else vaPages s hs m.part m.asid need (len / 4096 + 2) (bits m.rv 0 52) len

/-- R166 at work: the pages are translated, the transfer is split, and its commands are submitted in order as room comes.
`aux` holds the number of commands and of those that have ended. -/
def nvWork (i : Issue) (m : Cmd) (s : State) : State :=
  let q := bits m.imm 0 6
  let ns := bits m.lv 40 8
  let lbs := if Config.lba4096 (rbits (pkg s (0x102 + 4 * q)) 32 2) ns then 4096 else 512
  if !m.started then
    match nvPages s i.c m (m.qv * lbs) with
    | .error (c, a) => s.failWith i.c i.u m c a (bits m.rv 0 52) 3
    | .ok ps =>
      let jobs := nvJobs (m.op = .nvrd) (m.op = .nvwr && bits m.sub 1 1 = 1) ns lbs (131072 / lbs) (m.qv + 1) (bits m.lv 0 40) m.qv ps
      s.modCmd i.c i.u m.id fun x => { x with started := true, jobs := jobs, aux := [jobs.length, 0] }
  else
    match m.jobs with
    | j :: js =>
      if nvRoom s q then
        (s.nvSubmit q (.cmd i.c m.id) j).modCmd i.c i.u m.id fun x => { x with jobs := js }
      else s
    | [] =>
      if m.aux.getD 1 0 < m.aux.getD 0 0 then s
      else match m.fail0 with
        | some f => s.failCmd i.c i.u m f
        | none => s.finishCmd i.c i.u m

/-- The operand ranges of R166. -/
def nvBad (w : EWord) (i : Issue) : Bool :=
  bits i.lv 48 16 != 0 || bits i.lv 40 8 = 0 || (bits w.sub.toNat 0 1 = 0 && bits i.rv 52 12 != 0) || i.qv = 0 || 65536 < i.qv

def execNvrd (w : EWord) (s : State) : Out :=
  eExec .nvrd (.nvrd w) w { l := .sc, r := .sc, q := .sc } (fun i _ _ => if nvBad w i then some .reservedCode else none) nvWork s
def execNvwr (w : EWord) (s : State) : Out :=
  eExec .nvwr (.nvwr w) w { l := .sc, r := .sc, q := .sc } (fun i _ _ => if nvBad w i then some .reservedCode else none) nvWork s

/-- One command of a transfer has ended (R167, R387); a failure at another chip names its address there (R386). -/
def State.nvEnded (s : State) (c id : Nat) (bad : Option NvBad) : State :=
  let fix (m : Cmd) : Cmd :=
    if m.id != id then m
    else
      { m with
        aux := [m.aux.getD 0 0, m.aux.getD 1 0 + 1]
        fail0 := match m.fail0, bad with
          | some f, _ => some f
          | none, none => none
          | none, some b =>
            let f : Pending := { m.pending b.cause with aux := b.aux }
            some (match b.far with | none => f | some (chip, va) => { f with va := chip * 2 ^ 52 + va, spc := 5, chip := some chip }) }
  s.modCl c fun x => { x with units := x.units.map fun (u : Nat × List Cmd) => (u.1, u.2.map fix) }

/-- The status field's AUX (R387). -/
def NvCmd.aux (v : NvCmd) (status : Nat) : Nat := status % 2 ^ 16 * 2 ^ 48 + v.job.ns % 256 * 2 ^ 40 + v.job.lba % 2 ^ 40

/-- Loads submit what they still have to, as room comes. -/
def State.pumpLoads (s : State) : State := (s.kvl.map (·.1)).foldl (fun s id => s.kvPump id) s

/-- A command has ended for whoever it ran for, with a failure or none. -/
def State.nvTell (s : State) (v : NvCmd) (bad : Option NvBad) : State :=
  match v.owner with
  | .cmd c id => s.nvEnded c id bad
  | .load id =>
    match Tab.find s.kvl id with
    | none => s
    | some l =>
      let f := bad.map fun b => (b.cause, b.aux)
      { s with kvl := Tab.put s.kvl id { l with out := l.out - 1, fail := match l.fail with | none => f | some f => some f } }

/-- A command whose completion entry has come ends, once nothing of its bytes is awaited from another chip. -/
def State.nvEnd (s : State) (v : NvCmd) : State :=
  match v.ended with
  | none => s
  | some bad =>
    if v.far != 0 then s
    else
      let s := { s with nv := s.nv.erase v }
      (if v.late then s else s.nvTell v (match bad with | some b => some b | none => v.farBad)).pumpLoads

/-- The answer of another chip to a piece of a command (R178). -/
def State.nvAnswer (s : State) (qc : Nat) (bad : Option NvBad) : State :=
  match s.nv.find? fun v => v.qp = qc / 2 ^ 16 && v.cid = qc % 2 ^ 16 with
  | none => s
  | some v =>
    let v' : NvCmd := { v with far := v.far - 1, farBad := match v.farBad with | some b => some b | none => bad }
    ({ s with nv := s.nv.map fun x => if x = v then v' else x }).nvEnd v'

/-- An answer reaches the storage unit, or another requester. -/
def State.repArrive (s : State) (nk id j gn v : Nat) (bad : Option (Cause × Nat × Nat)) (chip : Nat) : State :=
  if nk = nvParty then s.nvAnswer id (bad.map fun b => { cause := b.1, aux := b.2.1, far := some (chip, b.2.2) })
  else s.rrepArrive nk id j gn v bad chip

end Sys2Proof.Machine
end

