-- ==== Sys2Proof/Machine/Coll.lean ====
section
/-!
DEFINITION. The collectives CRED, CBCAST and CGATH (R179, R180). A command passes four stages: 0 issued, 1 its source is
being read, 2 read, 3 its destination is being written. `aux` holds the stage, the next element and the episode.
-/

namespace Sys2Proof.Machine

def Cmd.grp (m : Cmd) : Nat := bits m.imm 4 8
/-- The collective runs over a chip group (R179). -/
def Cmd.cg (m : Cmd) : Bool := m.op != .nop && bits m.sub 3 1 = 1
def Cmd.stage (m : Cmd) : Nat := m.aux.getD 0 0
def Cmd.episode (m : Cmd) : Nat := m.aux.getD 2 0

/-- The members of a collective, in rank order: clusters, or chips (R179). -/
def State.collMembers (s : State) (m : Cmd) : List Nat :=
  if m.cg then m.chips
  else ((s.group m.nk m.grp).foldl (fun l c => setIns c l) [])

/-- The command of a cluster that joins the same episode as `m`. -/
def State.collCmd (s : State) (c : Nat) (m : Cmd) : Option Cmd :=
  (s.unit c 6).find? fun x => x.started && x.kernel = m.kernel && x.cg = m.cg && x.grp = m.grp && x.episode = m.episode
    && !x.finished

/-- How a member names itself, and whose episodes its group counts: those of a partition's chip group, or of a kernel. -/
def State.collMe (s : State) (c : Nat) (m : Cmd) : Nat := if m.cg then chipId s else c
def Cmd.collKey (m : Cmd) : Nat := if m.cg then m.part else 2 ^ 32 + m.kernel

/-- A message for the episode of `m` at cluster `c`: its headers, or its streams. -/
def Cmd.collMsg (m : Cmd) (c : Nat) (data : Bool) (p : Parcel) : Bool :=
  match p.body with
  | .coll key g e _ _ _ _ _ _ bs => key = m.collKey && g = m.grp && e = m.episode && bs.isSome = data && (m.cg || p.dst = c)
  | _ => false

/-- What member `d` sent for the episode of `m`: its header, or its stream. -/
def State.collShare (s : State) (c d : Nat) (m : Cmd) (data : Bool) : Option Msg :=
  ((s.inbox.filter (m.collMsg c data)).map (·.body)).find? fun b => match b with
    | .coll _ _ _ me _ _ _ _ _ _ => me = d
    | _ => false

/-- Drops what the members sent to cluster `c` for the episode of `m`. -/
def State.collDrop (s : State) (c : Nat) (m : Cmd) (data : Bool) : State :=
  { s with inbox := s.inbox.filter fun p => !m.collMsg c data p }

/-- Sizes that every member presents alike: opcode, ESZ and N of the source (R179). -/
def Cmd.collShape (m : Cmd) : Nat × Nat × Nat := ((m.op.sel).getD 0, patEsz (m.pats.getD 0 0), patN (m.pats.getD 0 0))

/-- The destination's size for `k` members, and CRED's whole words (R180). -/
def Cmd.collSizeOk (m : Cmd) (k : Nat) : Bool :=
  let n := patN (m.pats.getD 0 0) * patEsz (m.pats.getD 0 0)
  let d := patN (m.pats.getD 1 0) * patEsz (m.pats.getD 1 0)
  d = (if m.op = .cgath then k * n else n) && (m.op != .cred || n % 4 = 0)

/-- Sends a member's part of a collective to the other members, as one multicast (R323, R328). -/
def State.collSend (s : State) (c : Nat) (m : Cmd) (bs : Option (List Byte)) : State :=
  let sh := m.collShape
  let b : Msg := .coll m.collKey m.grp m.episode (s.collMe c m) c m.id sh.1 sh.2.1 sh.2.2 bs
  s.postAll { src := c, dst := 0, cls := 0, part := m.part, n := (bs.getD []).length, body := b }
    (((s.collMembers m).filter (· != s.collMe c m)).map fun d => (if m.cg then farPlace d 224 else d, b))

/-- A member failed after it joined: the other members of the episode fault too (assumption 81). -/
def State.collFail (s : State) (m : Cmd) : State :=
  let fix (x : Cmd) : Cmd :=
    if x.started && x.kernel = m.kernel && x.cg = m.cg && x.grp = m.grp && x.episode = m.episode && x.fail.isNone && x.stage < 3 then
      { x with fail := some (x.pending .collectiveMismatch) }
    else x
  { s with
    clusters := s.clusters.map fun (e : Nat × Cluster) =>
      (e.1, { e.2 with units := e.2.units.map fun (u : Nat × List Cmd) => (u.1, if u.1 = 6 then u.2.map fix else u.2) })
    collBad := s.collBad ++ [(m.kernel, m.grp, m.episode)] }

/-- A member that fails ends, and the others of its episode with it. -/
def collLost (i : Issue) (m : Cmd) (f : Pending) (s : State) : State := (s.failCmd i.c i.u m f).collFail m

/-- One word of CRED's fold (R180). -/
def credOp (code a b : Nat) : Nat :=
  match code with
  | 0 => flAdd a b
  | 1 => (FF.f32.minMax true a b).1
  | 2 => (FF.f32.minMax false a b).1
  | 3 => (a + b) % 2 ^ 32
  | 4 => if sInt 32 a ≥ sInt 32 b then a else b
  | _ => if sInt 32 a ≤ sInt 32 b then a else b

/-- Little-endian words of a stream. -/
def words32 (n : Nat) (bs : List Byte) : List Nat := (List.range n).map fun j => leNat ((bs.drop (4 * j)).take 4)

/-- The destination of a member from the sources in rank order (R180). -/
def Cmd.collDest (m : Cmd) (xs : List (List Byte)) : List Byte :=
  match m.op with
  | .cbcast => xs.getD m.lv []
  | .cgath => xs.flatten
  | _ =>
    let n := (xs.headD []).length / 4
    let ws := xs.map (words32 n)
    (((ws.drop 1).foldl (fun r x => List.zipWith (credOp (bits m.sub 0 3)) r x) (ws.headD [])).map fun w => natLE w 4).flatten

/-- The stream of one member, once it is here. -/
def State.collStream (s : State) (c : Nat) (m : Cmd) (d : Nat) : Option (List Byte) :=
  if d = s.collMe c m then some m.buf
  else
    match s.collShare c d m true with
    | some (.coll _ _ _ _ _ _ _ _ _ bs) => bs
    | _ => none

/-- Every member's source is here: the destination is formed (R180). -/
def State.collCombine (s : State) (c : Nat) (m : Cmd) : State :=
  let xs := (s.collMembers m).map (s.collStream c m)
  if xs.any Option.isNone then s
  else
    (s.modCmd c 6 m.id fun y => { y with aux := [3, 0, y.episode], buf := m.collDest (xs.map fun x => x.getD []) }).collDrop c m true

/-- A collective command at work. -/
def collWork (i : Issue) (m : Cmd) (s : State) : State :=
  let e := m.aux.getD 1 0
  let upd (f : Cmd → Cmd) (s : State) : State := s.modCmd i.c i.u m.id f
  if !m.started then
    let ms := s.collMembers m
    let second := m.cg && s.clusters.any fun (x : Nat × Cluster) => x.1 != i.c && (Tab.get [] x.2.units 6).any fun y =>
      y.started && y.cg && y.part = m.part && y.grp = m.grp && !y.finished
    if !ms.contains (s.collMe i.c m) || second || (m.op = .cbcast && m.lv ≥ ms.length) then
      s.failWith i.c i.u m .collectiveMismatch
    else
      let ep := if m.cg then Tab.get 0 s.collChip (m.part * 256 + m.grp) else Tab.get 0 (s.cl i.c).collCount m.grp
      let s :=
        if m.cg then { s with collChip := Tab.put s.collChip (m.part * 256 + m.grp) (ep + 1) }
        else s.modCl i.c fun x => { x with collCount := Tab.put x.collCount m.grp (ep + 1) }
      let m' : Cmd := { m with started := true, aux := [0, 0, ep] }
      let s := upd (fun _ => m') s
      if s.collBad.contains (m.kernel, m.grp, ep) then s.failWith i.c i.u m' .collectiveMismatch
      else if m.cg then s.collSend i.c m' none
      else s
  else
    match m.stage with
    | 0 => s
    | 1 =>
      let p := m.pats.getD 0 0
      if e < patN p then
        match s.readElem i.c i.u m p 0 e e with
        | .ok s v => s.modCmd i.c i.u m.id fun x => { x with accs := [], aux := [1, e + 1, m.episode], buf := x.buf ++ natLE v (patEsz p) }
        | .wait s => s
        | .bad s f => collLost i m f s
      else
        let m' : Cmd := { m with aux := [2, 0, m.episode] }
        (upd (fun _ => m') s).collSend i.c m' (some m.buf)
    | 2 => s.collCombine i.c m
    | _ =>
      let p := m.pats.getD 1 0
      if e < patN p then
        (s.writeElem i.c i.u m p 0 e (2 ^ 40 + e) (leNat (m.buf.take (patEsz p)))).andThen i.c i.u m fun s _ =>
          s.modCmd i.c i.u m.id fun x => { x with accs := [], aux := [3, e + 1, m.episode], buf := x.buf.drop (patEsz p) }
      else s.finishCmd i.c i.u m

def execCred (w : EWord) (s : State) : Out := eExec .cred (.cred w) w { l := .any } (fun _ _ _ => none) collWork s collLost
def execCbcast (w : EWord) (s : State) : Out := eExec .cbcast (.cbcast w) w { l := .sc } (fun _ _ _ => none) collWork s collLost
def execCgath (w : EWord) (s : State) : Out := eExec .cgath (.cgath w) w { l := .any } (fun _ _ _ => none) collWork s collLost

/-- Every member has issued its command for the episode that cluster `c` waits for (R179): the collective runs, or, when
the members do not agree, every member faults. -/
def State.collRun (s : State) (c : Nat) : State :=
  match (s.unit c 6).find? fun m => m.started && m.stage = 0 && m.fail.isNone with
  | none => s
  | some m =>
    let ms := s.collMembers m
    let k := ms.length
    if m.cg then
      let hs := (ms.filter (· != chipId s)).map fun d => s.collShare c d m false
      if hs.any Option.isNone then s
      else
        let same (b : Option Msg) : Bool := match b with
          | some (.coll _ _ _ _ _ _ op esz n _) => decide ((op, esz, n) = m.collShape)
          | _ => false
        let s := s.collDrop c m false
        if hs.all same && m.collSizeOk k then s.modCmd c 6 m.id fun x => { x with aux := [1, 0, m.episode] }
        else s.modCmd c 6 m.id fun x => { x with fail := some (x.pending .collectiveMismatch) }
    else
      let xs := ms.map fun d => s.collCmd d m
      if xs.any Option.isNone then s
      else
        let good := xs.all fun x => match x with | some y => decide (y.collShape = m.collShape) && y.collSizeOk k | none => false
        (ms.zip xs).foldl (fun s e =>
          match e.2 with
          | none => s
          | some y =>
            s.modCmd e.1 6 y.id fun x =>
              if good then { x with aux := [1, 0, m.episode] } else { x with fail := some (x.pending .collectiveMismatch) }) s

end Sys2Proof.Machine
end

