-- ==== Sys2Proof/Machine/IntAlu.lean ====
section
/-!
DEFINITION. The integer instructions (R204 to R208) and the compares (R209).
-/

namespace Sys2Proof.Machine

/-- T and B of R204: a type's largest and smallest values. -/
def tyMax (t : Ty) : Int := if Ty.signed t then 2 ^ (t.width - 1) - 1 else 2 ^ t.width - 1
def tyMin (t : Ty) : Int := if Ty.signed t then -2 ^ (t.width - 1) else 0

/-- `clamp` of R205. -/
def clampT (t : Ty) (z : Int) : Int := max (tyMin t) (min (tyMax t) z)

/-- A bit pattern of width `w` as a scalar identity or operand. -/
def pat64 (t : Ty) (z : Int) : Val := sc64 (wrapN t.width z)

/-- An element-wise integer operation on a, b and c read under TY; the result is wrapped to `w` bits. -/
def intOp (op : Op) (w : GWord) (idn : Option Int) (useB useC : Bool) (f : Int → Int → Int → Int) (s : State) : Out :=
  gFire op w (op.immTy w.ty.code |> Ty.ofCode) (idn.map fun z => (pat64 w.ty z, pat64 w.ty z)) (fun _ l r q =>
    .one (asOperands w.ty l r q useB useC fun a b c =>
      (wrapN w.ty.width (f (tyInt w.ty a) (tyInt w.ty b) (tyInt w.ty c)), 0)).1) s

/-- An element-wise operation on bit patterns of width `w`. -/
def bitsOp (op : Op) (w : GWord) (idn : Option Int) (useB : Bool) (f : Nat → Nat → Nat → Nat) (s : State) : Out :=
  gFire op w (op.immTy w.ty.code |> Ty.ofCode) (idn.map fun z => (pat64 w.ty z, pat64 w.ty z)) (fun _ l r q =>
    .one (asOperands w.ty l r q useB false fun a b _ => (f w.ty.width a b % 2 ^ w.ty.width, 0)).1) s

def execAdd (w : GWord) (s : State) : Out := intOp .add w (some 0) true false (fun a b _ => a + b) s
def execSub (w : GWord) (s : State) : Out := intOp .sub w (some 0) true false (fun a b _ => a - b) s
def execMul (w : GWord) (s : State) : Out := intOp .mul w (some 1) true false (fun a b _ => a * b) s

/-- R205: the high half of a signed product. TY is I, so the elements are read signed. -/
def execMulh (w : GWord) (s : State) : Out :=
  intOp .mulh w none true false (fun a b _ => (a * b) / 2 ^ w.ty.width) s

/-- R205: the high half of an unsigned product. TY is N. -/
def execMulhn (w : GWord) (s : State) : Out :=
  intOp .mulhn w none true false (fun a b _ => (a * b) / 2 ^ w.ty.width) s

/-- Quotient and remainder of R206, signed: truncating, never faulting. -/
def divS (w : Nat) (a b : Int) : Int × Int :=
  if b = 0 then (-1, a)
  else if a = -2 ^ (w - 1) && b = -1 then (a, 0)
  else (a.tdiv b, a - a.tdiv b * b)

/-- Quotient and remainder of R206, unsigned. -/
def divU (w : Nat) (a b : Int) : Int × Int := if b = 0 then (2 ^ w - 1, a) else (a / b, a - a / b * b)

def execDiv (w : GWord) (s : State) : Out := intOp .div w none true false (fun a b _ => (divS w.ty.width a b).1) s
def execDivn (w : GWord) (s : State) : Out := intOp .divn w none true false (fun a b _ => (divU w.ty.width a b).1) s
def execRem (w : GWord) (s : State) : Out := intOp .rem w none true false (fun a b _ => (divS w.ty.width a b).2) s
def execRemn (w : GWord) (s : State) : Out := intOp .remn w none true false (fun a b _ => (divU w.ty.width a b).2) s

def execAdds (w : GWord) (s : State) : Out :=
  intOp .adds w (some 0) true false (fun a b _ => clampT w.ty (a + b)) s
def execSubs (w : GWord) (s : State) : Out :=
  intOp .subs w (some 0) true false (fun a b _ => clampT w.ty (a - b)) s
def execMadd (w : GWord) (s : State) : Out := intOp .madd w none true true (fun a b c => a * b + c) s

def execAnd (w : GWord) (s : State) : Out := bitsOp .and w (some (-1)) true (fun _ a b => a &&& b) s
def execOr (w : GWord) (s : State) : Out := bitsOp .or w (some 0) true (fun _ a b => a ||| b) s
def execXor (w : GWord) (s : State) : Out := bitsOp .xor w (some 0) true (fun _ a b => a ^^^ b) s
def execAndn (w : GWord) (s : State) : Out := bitsOp .andn w none true (fun n a b => a &&& (2 ^ n - 1 - b)) s

/-- R207: the count is the element of b read unsigned. -/
def execShl (w : GWord) (s : State) : Out :=
  bitsOp .shl w none true (fun n a k => if k ≥ n then 0 else a * 2 ^ k) s
def execShr (w : GWord) (s : State) : Out :=
  bitsOp .shr w none true (fun n a k => if k ≥ n then 0 else a / 2 ^ k) s
def execSar (w : GWord) (s : State) : Out :=
  bitsOp .sar w none true (fun n a k => wrapN n (sInt n a / 2 ^ min k (n - 1))) s
def execRot (w : GWord) (s : State) : Out :=
  bitsOp .rot w none true (fun n a k => a * 2 ^ (k % n) ||| a / 2 ^ (n - k % n)) s

def execMin (w : GWord) (s : State) : Out :=
  intOp .min w (some (tyMax w.ty)) true false (fun a b _ => if a ≤ b then a else b) s
def execMax (w : GWord) (s : State) : Out :=
  intOp .max w (some (tyMin w.ty)) true false (fun a b _ => if a ≥ b then a else b) s

/-- R205: with SAT the magnitude is clamped, else it wraps. -/
def execAbs (w : GWord) (s : State) : Out :=
  intOp .abs w none false false (fun a _ _ => let m : Int := a.natAbs; if w.sat then clampT w.ty m else m) s
def execNeg (w : GWord) (s : State) : Out :=
  intOp .neg w none false false (fun a _ _ => if w.sat then clampT w.ty (-a) else -a) s

/-- R208: the number of 0 bits below the lowest 1 bit among `n` bits. -/
def ctzN : Nat → Nat → Nat
  | 0, _ => 0
  | n + 1, a => if a % 2 = 1 then 0 else 1 + ctzN n (a / 2)

/-- The number of 1 bits among `n` bits (R208). -/
def popcN : Nat → Nat → Nat
  | 0, _ => 0
  | n + 1, a => a % 2 + popcN n (a / 2)

/-- The number of 0 bits above the highest 1 bit of `n` bits (R208). -/
def clzN (n a : Nat) : Nat := if a = 0 then n else n - 1 - Nat.log2 a

def execClz (w : GWord) (s : State) : Out := bitsOp .clz w none false (fun n a _ => clzN n a) s
def execCtz (w : GWord) (s : State) : Out := bitsOp .ctz w none false (fun n a _ => ctzN n a) s
def execPopc (w : GWord) (s : State) : Out := bitsOp .popc w none false (fun n a _ => popcN n a) s

/-- R208: every bit from k up copies bit k − 1; k is IMM16. -/
def execSext (w : GWord) (s : State) : Out :=
  bitsOp .sext w none false (fun n a _ => wrapN n (sInt w.imm.imm16 a)) s

/-- R208: every bit from k up is 0; k is IMM16. -/
def execZext (w : GWord) (s : State) : Out :=
  bitsOp .zext w none false (fun _ a _ => a % 2 ^ w.imm.imm16) s

/-- R208: a + b × 2^MF. -/
def execLea (w : GWord) (s : State) : Out :=
  intOp .lea w none true false (fun a b _ => a + b * 2 ^ w.mf.toNat) s

/-- R209: two scalars compared; the result is the 64-bit scalar 1 or 0, and a vector operand faults. TY is an I type;
`signed` says how the mnemonic reads the elements. -/
def cmpOp (op : Op) (w : GWord) (signed : Bool) (f : Int → Int → Bool) (s : State) : Out :=
  gFire op w w.ty none (fun _ l r _ =>
    if l.val.isVec || r.val.isVec then .fault .widthMismatch
    else
      let n := w.ty.width
      let rd (v : Val) : Int := if signed then sInt n (v.lane n 0) else (v.lane n 0 : Nat)
      .one (sc64 (f (rd l.val) (rd r.val)).toNat)) s

def execCeq (w : GWord) (s : State) : Out := cmpOp .ceq w false (fun a b => decide (a = b)) s
def execCne (w : GWord) (s : State) : Out := cmpOp .cne w false (fun a b => decide (a ≠ b)) s
def execClt (w : GWord) (s : State) : Out := cmpOp .clt w true (fun a b => decide (a < b)) s
def execCle (w : GWord) (s : State) : Out := cmpOp .cle w true (fun a b => decide (a ≤ b)) s
def execCltn (w : GWord) (s : State) : Out := cmpOp .cltn w false (fun a b => decide (a < b)) s
def execClen (w : GWord) (s : State) : Out := cmpOp .clen w false (fun a b => decide (a ≤ b)) s

end Sys2Proof.Machine
end

