-- ==== Sys2Proof/Machine/FloatAlu.lean ====
section
/-!
DEFINITION. The float instructions (R210 to R214) and the float compares (R215).
-/

namespace Sys2Proof.Machine

/-- The float format of TY; TY of these instructions is 8 to 11. -/
def tyFF (t : Ty) : FF := (Ty.ff t).getD .f32

/-- A result whose lanes are in format `ff`: a NaN in any lane sets NS (R184). -/
def floatRes (ff : FF) (r : Val × Nat) : GRes :=
  let o : Opnd := { val := r.1, ns := hasNan ff r.1 }
  .res o o r.2

/-- An element-wise float operation on patterns (R200, R203). -/
def fltOp (op : Op) (w : GWord) (ids : Option (Nat × Nat)) (useB useC : Bool) (f : RM → Nat → Nat → Nat → Nat × Nat)
    (s : State) : Out :=
  gFire op w (Ty.ofCode (op.immTy w.ty.code)) (ids.map fun p => (sc64 p.1, sc64 p.2)) (fun fctl l r q =>
    floatRes (tyFF w.ty) (asOperands w.ty l r q useB useC (f (modeOf fctl w.rm)))) s

/-- A value computed exactly and rounded once in TY, with the flags of both (R211). -/
def rounded (w : GWord) (m : RM) (r : FV × Nat) : Nat × Nat :=
  let z := (tyFF w.ty).ofFV m w.sat r.1
  (z.1, fOr r.2 z.2)

/-- A pattern's value in TY. -/
def rd (w : GWord) (x : Nat) : FV := (tyFF w.ty).dec x

/-- 1 in a format. -/
def FF.one (f : FF) : Nat := f.bias * 2 ^ f.mb

def execFadd (w : GWord) (s : State) : Out :=
  fltOp .fadd w (some ((tyFF w.ty).zero true, (tyFF w.ty).zero true)) true false
    (fun m a b _ => rounded w m (fvAdd (rd w a) (rd w b) m)) s
def execFsub (w : GWord) (s : State) : Out :=
  fltOp .fsub w (some ((tyFF w.ty).zero true, 0)) true false
    (fun m a b _ => rounded w m (fvAdd (rd w a) (fvNeg (rd w b)) m)) s
def execFmul (w : GWord) (s : State) : Out :=
  fltOp .fmul w (some (FF.one (tyFF w.ty), FF.one (tyFF w.ty))) true false
    (fun m a b _ => rounded w m (fvMul (rd w a) (rd w b))) s
def execFma (w : GWord) (s : State) : Out :=
  fltOp .fma w none true true (fun m a b c => rounded w m (fvFma false (rd w a) (rd w b) (rd w c) m)) s
def execFnma (w : GWord) (s : State) : Out :=
  fltOp .fnma w none true true (fun m a b c => rounded w m (fvFma true (rd w a) (rd w b) (rd w c) m)) s
def execFdiv (w : GWord) (s : State) : Out :=
  fltOp .fdiv w none true false (fun m a b _ => rounded w m (fvDiv (rd w a) (rd w b))) s
def execFsqrt (w : GWord) (s : State) : Out :=
  fltOp .fsqrt w none false false (fun m a _ _ => rounded w m (fvSqrt (rd w a))) s
def execFrsq (w : GWord) (s : State) : Out :=
  fltOp .frsq w none false false (fun m a _ _ => rounded w m (fvRsqrt (rd w a))) s

/-- R212: 1 / a. -/
def execFrcp (w : GWord) (s : State) : Out :=
  fltOp .frcp w none false false (fun m a _ _ => rounded w m (fvDiv (.fin false 1 0) (rd w a))) s
def execFexp2 (w : GWord) (s : State) : Out :=
  fltOp .fexp2 w none false false (fun m a _ _ => rounded w m (fvExp2 (rd w a))) s
def execFlog2 (w : GWord) (s : State) : Out :=
  fltOp .flog2 w none false false (fun m a _ _ => rounded w m (fvLog2 (rd w a))) s

/-- R213: minimumNumber and maximumNumber; the identities are the infinities (R210). -/
def execFmin (w : GWord) (s : State) : Out :=
  fltOp .fmin w (some ((tyFF w.ty).infPat false, (tyFF w.ty).infPat false)) true false
    (fun _ a b _ => (tyFF w.ty).minMax false a b) s
def execFmax (w : GWord) (s : State) : Out :=
  fltOp .fmax w (some ((tyFF w.ty).infPat true, (tyFF w.ty).infPat true)) true false
    (fun _ a b _ => (tyFF w.ty).minMax true a b) s

/-- The magnitude of `a` with a sign; a NaN gives the canonical NaN (R213). -/
def withSign (f : FF) (a : Nat) (neg : Bool) : Nat :=
  if (f.dec a).isNan then f.nan else neg.toNat * 2 ^ (f.width - 1) + a % 2 ^ (f.width - 1)

/-- The sign bit of a pattern. -/
def signBit (f : FF) (a : Nat) : Bool := bits a (f.width - 1) 1 = 1

def execFabs (w : GWord) (s : State) : Out :=
  fltOp .fabs w none false false (fun _ a _ _ => (withSign (tyFF w.ty) a false, 0)) s
def execFneg (w : GWord) (s : State) : Out :=
  fltOp .fneg w none false false (fun _ a _ _ => (withSign (tyFF w.ty) a (!signBit (tyFF w.ty) a), 0)) s

/-- R213: `.C` copies b's sign, `.N` its inverse, `.X` the exclusive or of both. -/
def execFsgn (w : GWord) (s : State) : Out :=
  fltOp .fsgn w none true false (fun _ a b _ =>
    let f := tyFF w.ty
    let sg := if w.mf = 0 then signBit f b else if w.mf = 1 then !signBit f b else signBit f a != signBit f b
    (withSign f a sg, 0)) s

/-- The class of a pattern as a bit number (R214). -/
def classOf (f : FF) (x : Nat) : Nat :=
  match f.dec x with
  | .nan sig => if sig then 8 else 9
  | .inf n => if n then 0 else 7
  | .fin n m _ =>
    if m = 0 then (if n then 3 else 4)
    else if m < 2 ^ f.mb then (if n then 2 else 5)
    else (if n then 1 else 6)

/-- R214: one bit per class, read as an N type; no flag, no NS. -/
def execFclass (w : GWord) (s : State) : Out :=
  gFire .fclass w w.ty none (fun _ l r q =>
    .one (asOperands w.ty l r q false false fun a _ _ => (2 ^ classOf (tyFF w.ty) a, 0)).1) s

/-- R211: a × 2^k, k the element of b as a signed integer of width w. -/
def execFscale (w : GWord) (s : State) : Out :=
  fltOp .fscale w none true false (fun m a b _ =>
    match rd w a with
    | .fin n x e => rounded w m (.fin n x (e + sInt w.ty.width b), 0)
    | v => rounded w m (v, 0)) s

/-- The relations of the float compares on two patterns, with the flag of a NaN (R215). -/
inductive FRel where
  | eq | lt | le | un
deriving DecidableEq, Repr

def FRel.test (k : FRel) (a b : FV) : Bool × Nat :=
  let anyNan := a.isNan || b.isNan
  let sig := sigNV [a, b]
  match k with
  | .eq => (fvEq a b, sig)
  | .lt => (!anyNan && fvLt a b, if anyNan then fNV else 0)
  | .le => (!anyNan && !fvLt b a, if anyNan then fNV else 0)
  | .un => (anyNan, sig)

/-- R215: two float scalars compared; a vector operand faults. -/
def fcmpOp (op : Op) (w : GWord) (k : FRel) (s : State) : Out :=
  gFire op w w.ty none (fun _ l r _ =>
    if l.val.isVec || r.val.isVec then .fault .widthMismatch
    else
      let n := w.ty.width
      let t := k.test (rd w (l.val.lane n 0)) (rd w (r.val.lane n 0))
      let o : Opnd := { val := sc64 t.1.toNat }
      .res o o t.2) s

def execFceq (w : GWord) (s : State) : Out := fcmpOp .fceq w .eq s
def execFclt (w : GWord) (s : State) : Out := fcmpOp .fclt w .lt s
def execFcle (w : GWord) (s : State) : Out := fcmpOp .fcle w .le s
def execFcun (w : GWord) (s : State) : Out := fcmpOp .fcun w .un s

end Sys2Proof.Machine
end

