-- ==== Sys2Proof/Machine/Conv.lean ====
section
/-!
DEFINITION. The conversion, quantisation and packing instructions (R192 to R198).
-/

namespace Sys2Proof.Machine

/-- A vector converted between lane widths: part `p` of the source when widening, of the destination when narrowing; every
other destination lane is zero (R193). -/
def convLanes (ws wd p : Nat) (v : Val) (f : Nat → Nat × Nat) : Val × Nat :=
  let n := 512 / max ws wd
  let rs := (List.range n).map fun j => f (v.lane ws (if ws < wd then p * n + j else j))
  let fl := rs.foldl (fun x r => x ||| r.2) 0
  let pad := if wd < ws then List.replicate (p * n) 0 else []
  (joinLanes wd (pad ++ rs.map (·.1)), fl)

/-- How a conversion of one operand acts: on a scalar once, with part 0 (R193). -/
def convOne (t : Ty) (ws wd p : Nat) (l : Opnd) (f : Nat → Nat × Nat) : Except Cause (Val × Nat) :=
  if l.val.isVec then .ok (convLanes ws wd p l.val f)
  else if p != 0 then .error .widthMismatch
  else
    let r := f (l.val.lane ws 0)
    .ok (scalarOf t r.1, r.2)

/-- A conversion's result as both targets' operand. -/
def convRes (ff : Option FF) : Except Cause (Val × Nat) → GRes
  | .error c => .fault c
  | .ok r =>
    match ff with
    | some f => floatRes f r
    | none => let o : Opnd := { val := r.1 }; .res o o r.2

/-- R194, FCVT: IMM16 names the source type. -/
def execFcvt (w : GWord) (s : State) : Out :=
  let src := Ty.ofCode (w.imm.imm16 % 16)
  gFire .fcvt w w.ty none (fun fctl l _ _ =>
    convRes (some (tyFF w.ty)) (convOne w.ty src.width w.ty.width w.mf.toNat l fun x =>
      (tyFF w.ty).ofFV (modeOf fctl w.rm) w.sat ((tyFF src).dec x))) s

/-- R194, ICVTF. -/
def execIcvtf (w : GWord) (s : State) : Out :=
  let src := Ty.ofCode (w.imm.imm16 % 16)
  gFire .icvtf w w.ty none (fun fctl l _ _ =>
    convRes (some (tyFF w.ty)) (convOne w.ty src.width w.ty.width w.mf.toNat l fun x =>
      let z := tyInt src x
      (tyFF w.ty).round (modeOf fctl w.rm) w.sat (decide (z < 0)) z.natAbs 0)) s

/-- A float value as an integer of type `t`: always saturating (R194). -/
def toIntTy (t : Ty) (mode : RM) (v : FV) : Nat × Nat :=
  match v with
  | .nan _ => (0, fNV)
  | .inf n => (wrapN t.width (if n then tyMin t else tyMax t), fNV)
  | .fin n m e =>
    let r := roundInt mode n m e
    if r.1 < tyMin t then (wrapN t.width (tyMin t), fNV)
    else if r.1 > tyMax t then (wrapN t.width (tyMax t), fNV)
    else (wrapN t.width r.1, if r.2 then fNX else 0)

/-- R194, FCVTI. -/
def execFcvti (w : GWord) (s : State) : Out :=
  let src := Ty.ofCode (w.imm.imm16 % 16)
  gFire .fcvti w w.ty none (fun fctl l _ _ =>
    convRes none (convOne w.ty src.width w.ty.width w.mf.toNat l fun x =>
      toIntTy w.ty (modeOf fctl w.rm) ((tyFF src).dec x))) s

/-! ### QNT and DQNT -/

/-- `±num / den` rounded to an integer, and whether it is inexact (R185). -/
def roundRat (mode : RM) (neg : Bool) (num den : Nat) : Int × Bool :=
  let q := num / den
  let r := num % den
  let up := match mode with
    | .rne | .dyn => decide (2 * r > den) || (decide (2 * r = den) && decide (q % 2 = 1))
    | .rtz => false
    | .rdn => neg && decide (r > 0)
    | .rup => !neg && decide (r > 0)
    | .rna => decide (2 * r ≥ den)
  let m := if up then q + 1 else q
  (if neg then -(m : Int) else m, decide (r > 0))

/-- The code of one element (R195): x / s + z, exact, rounded once to an integer and clamped. -/
def qntOne (mode : RM) (x sc : FV) (z qmax : Nat) : Nat × Nat :=
  if x.isNan || sc.isNan || (x.isZero && sc.isZero) || (x.isInf && sc.isInf) then (z, fNV)
  else
    match x, sc with
    | .fin nx mx ex, .fin ns ms es =>
      if ms = 0 then (if nx = ns then qmax else 0, fOr fDZ fNX)
      else
        let k := ex - es
        let num := if k ≥ 0 then mx * 2 ^ k.toNat else mx
        let den := if k ≥ 0 then ms else ms * 2 ^ (-k).toNat
        let t : Int := (if nx = ns then (num : Int) else -(num : Int)) + z * den
        let r := roundRat mode (decide (t < 0)) t.natAbs den
        if r.1 < 0 then (0, fNX)
        else if r.1 > qmax then (qmax, fNX)
        else (r.1.toNat, if r.2 then fNX else 0)
    | .inf nx, _ => (if nx = sc.neg then qmax else 0, fNX)
    | _, _ => (z, 0)

/-- The element width of Q8 and Q4. -/
def qWidth (w : GWord) : Nat := if w.mf.toNat % 2 = 1 then 4 else 8

/-- R195, QNT. -/
def execQnt (w : GWord) (s : State) : Out :=
  gFire .qnt w w.ty none (fun fctl l r _ =>
    let z := bits r.val.nat 16 8
    let qw := qWidth w
    if r.val.isVec then .fault .widthMismatch
    else if qw = 4 && z > 15 then .fault .reservedCode
    else
      convRes none (convOne .n64 w.ty.width qw (w.imm.imm16 % 8) l fun x =>
        qntOne (modeOf fctl w.rm) (rd w x) (FF.f16.dec (bits r.val.nat 0 16)) z (2 ^ qw - 1))) s

/-- R195, DQNT: s × (q − z) rounded once. -/
def execDqnt (w : GWord) (s : State) : Out :=
  gFire .dqnt w w.ty none (fun fctl l r _ =>
    let z := bits r.val.nat 16 8
    let qw := qWidth w
    let sv := FF.f16.dec (bits r.val.nat 0 16)
    if r.val.isVec then .fault .widthMismatch
    else if qw = 4 && z > 15 then .fault .reservedCode
    else
      convRes (some (tyFF w.ty)) (convOne w.ty qw w.ty.width (w.imm.imm16 % 8) l fun q =>
        let d : Int := (q : Int) - z
        rounded w (modeOf fctl w.rm) (fvMul sv (.fin (decide (d < 0)) d.natAbs 0)))) s

/-! ### GSCALE -/

/-- One lane widens a range pair of F32 patterns (R196): minimumNumber and maximumNumber ignore a NaN lane, and make a NaN bound
the lane or the canonical NaN (R213); a signalling NaN raises NV (R184). -/
def rangeStep (f : FF) (p : Nat × Nat × Nat) (x : Nat) : Nat × Nat × Nat :=
  let v := f.dec x
  let y := (FF.f32.ofFV .rne false v).1
  let lo := FF.f32.minMax false p.1 y
  let hi := FF.f32.minMax true p.2.1 y
  (lo.1, hi.1, fOr (fOr p.2.2 (sigNV [v])) (fOr lo.2 hi.2))

/-- The finish of GSCALE (R196): the scale, the zero point and the flags. -/
def gscaleFin (lo hi qmax : Nat) : Nat × Nat :=
  let l := FF.f32.minMax false lo 0
  let h := FF.f32.minMax true hi 0
  let d := (fvAdd (FF.f32.dec h.1) (fvNeg (FF.f32.dec l.1)) .rne).1
  let s0 : Nat × Nat :=
    match d with
    | .fin n m e =>
      if m = 0 then (0, 0)
      else let q := divSticky m qmax 60; FF.f16.round .rup false n q.1 (q.2 + e)
    | _ => (0x7c00, 0)
  let s1 : Nat × Nat :=
    if s0.1 = 0 then (0x3c00, s0.2)
    else if s0.1 = 0x7c00 then (0x7bff, fOr s0.2 (fOr fOF fNX))
    else s0
  let z : Nat × Nat :=
    match FF.f32.dec l.1, FF.f16.dec s1.1 with
    | .fin _ m e, .fin _ ms es =>
      let k := e - es
      let r := roundRat .rne false (if k ≥ 0 then m * 2 ^ k.toNat else m) (if k ≥ 0 then ms else ms * 2 ^ (-k).toNat)
      if r.1 > qmax then (qmax, fNX) else (r.1.toNat, if r.2 then fNX else 0)
    | _, _ => (qmax, fNX)
  (z.1 * 2 ^ 16 + s1.1, fOr (fOr l.2 h.2) (fOr s1.2 z.2))

/-- R196: the range step, or with `.FIN` the finish. -/
def execGscale (w : GWord) (s : State) : Out :=
  gFire .gscale w w.ty none (fun _ l r _ =>
    let fin := bits w.mf.toNat 1 1 = 1
    if fin then
      if l.val.isVec then .fault .widthMismatch
      else
        let g := gscaleFin (bits l.val.nat 0 32) (bits l.val.nat 32 32) (2 ^ qWidth w - 1)
        let o : Opnd := { val := sc64 g.1 }
        .res o o g.2
    else if !l.val.isVec || r.val.isVec then .fault .widthMismatch
    else
      let p := (List.range (Ty.lanes w.ty)).foldl (fun p k => rangeStep (tyFF w.ty) p (l.val.lane w.ty.width k))
        (bits r.val.nat 0 32, bits r.val.nat 32 32, 0)
      let nan := (FF.f32.dec p.1).isNan || (FF.f32.dec p.2.1).isNan
      let o : Opnd := { val := sc64 (p.2.1 * 2 ^ 32 + p.1), ns := nan }
      .res o o p.2.2) s

/-! ### MX blocks -/

/-- The element format of a block format (R190); none for MXI8. -/
def mxFF (code : Nat) : Option FF :=
  match code with
  | 0 => some .e4m3
  | 1 => some .e5m2
  | 2 => some .e2m1
  | _ => none

def mxEmax (code : Nat) : Int :=
  match code with
  | 0 => 8
  | 1 => 15
  | 2 => 2
  | _ => 0

def mxWidth (code : Nat) : Nat := if code = 2 then 4 else 8

/-- A value rounded into an element format whose exponent has no upper limit, then clamped; a clamp raises NX (R197). -/
def FF.roundClamp (f : FF) (mode : RM) (neg : Bool) (m : Nat) (e : Int) : Nat × Nat :=
  let r := f.round mode true neg m e
  if r.2 &&& fOF != 0 then (f.max neg, fNX) else r

/-- One code of MXPACK: x / 2^e rounded and clamped (R197). -/
def mxCode (code : Nat) (mode : RM) (e : Int) (x : FV) : Nat × Nat :=
  match x with
  | .fin n m ex =>
    match mxFF code with
    | some f => f.roundClamp mode n m (ex - e)
    | none =>
      let r := roundInt mode n m (ex - e + 6)
      if r.1 < -128 then (0x80, fNX)
      else if r.1 > 127 then (0x7f, fNX)
      else (wrapN 8 r.1, if r.2 then fNX else 0)
  | _ => (0, 0)

/-- floor(log2 |x|) of a nonzero finite value. -/
def fvLog (x : FV) : Int :=
  match x with
  | .fin _ m e => (Nat.log2 m : Int) + e
  | _ => 0

/-- A block packed (R197): the codes, the scale byte, the flags, and whether it stands for NaN. -/
def mxPack (code : Nat) (mode : RM) (xs : List FV) : List Nat × Nat × Nat × Bool :=
  if xs.any (fun x => x.isNan || x.isInf) then (xs.map fun _ => 0, 0xff, fNV, true)
  else
    match xs.filter (fun x => !x.isZero) with
    | [] => (xs.map fun _ => 0, 0, 0, false)
    | y :: ys =>
      let e0 := ys.foldl (fun a x => max a (fvLog x)) (fvLog y) - mxEmax code
      let e := max e0 (-127)
      let rs := xs.map (mxCode code mode e)
      (rs.map (·.1), (e + 127).toNat, rs.foldl (fun a r => a ||| r.2) 0, false)

/-- R197, MXPACK: T0 takes the codes, T1 the scale byte. -/
def execMxpack (w : GWord) (s : State) : Out :=
  gFire .mxpack w w.ty none (fun fctl l r _ =>
    let code := w.mf.toNat % 4
    let two := w.ty = .f32
    if !l.val.isVec || (two && !r.val.isVec) then .fault .widthMismatch
    else
      let xs := (List.range (Ty.lanes w.ty)).map (fun k => rd w (l.val.lane w.ty.width k))
        ++ (if two then (List.range 16).map (fun k => rd w (r.val.lane 32 k)) else [])
      let p := mxPack code (modeOf fctl w.rm) xs
      .res { val := joinLanes (mxWidth code) p.1, ns := p.2.2.2 } { val := sc64 p.2.1, ns := p.2.2.2 } p.2.2.1) s

/-- The value of a code of an MX block under its scale byte (R190). -/
def mxValue (code b x : Nat) : FV :=
  if b = 0xff then .nan false
  else
    let v := match mxFF code with
      | some f => f.dec x
      | none => let z := sInt 8 x; .fin (decide (z < 0)) z.natAbs (-6)
    match v with
    | .fin n m e => .fin n m (e + b - 127)
    | u => u

/-- R197, MXUNPK. -/
def execMxunpk (w : GWord) (s : State) : Out :=
  gFire .mxunpk w w.ty none (fun fctl l r _ =>
    let code := w.mf.toNat % 4
    if !l.val.isVec || r.val.isVec then .fault .widthMismatch
    else
      let n := Ty.lanes w.ty
      let p := w.imm.imm16 % 2
      let rs := (List.range n).map fun k => (tyFF w.ty).ofFV (modeOf fctl w.rm) w.sat
        (mxValue code (bits r.val.nat 0 8) (l.val.lane (mxWidth code) (p * n + k)))
      floatRes (tyFF w.ty) (joinLanes w.ty.width (rs.map (·.1)), rs.foldl (fun a r => a ||| r.2) 0)) s

/-! ### PACK and UNPACK -/

/-- One element of PACK: clamped under SAT, else its low bits; a clamp raises NX (R198). -/
def packOne (signedDst : Bool) (wd : Nat) (sat : Bool) (z : Int) : Nat × Nat :=
  let lo : Int := if signedDst then -2 ^ (wd - 1) else 0
  let hi : Int := if signedDst then 2 ^ (wd - 1) - 1 else 2 ^ wd - 1
  if sat && z < lo then (wrapN wd lo, fNX)
  else if sat && z > hi then (wrapN wd hi, fNX)
  else (wrapN wd z, 0)

/-- R198, PACK: the lanes of L, then those of R. -/
def execPack (w : GWord) (s : State) : Out :=
  gFire .pack w w.ty none (fun _ l r _ =>
    let us := w.mf.toNat % 2 = 1
    let nib := bits w.mf.toNat 1 1 = 1
    let wd := if nib then 4 else w.ty.width
    let ws := if nib then 8 else 2 * w.ty.width
    if !l.val.isVec || !r.val.isVec then .fault .widthMismatch
    else
      let src (v : Val) : List (Nat × Nat) := (List.range (512 / ws)).map fun k =>
        packOne (Ty.signed w.ty) wd w.sat (if us then (v.lane ws k : Nat) else sInt ws (v.lane ws k))
      let rs := src l.val ++ src r.val
      let o : Opnd := { val := joinLanes wd (rs.map (·.1)) }
      .res o o (rs.foldl (fun a r => a ||| r.2) 0)) s

/-- R198, UNPACK: half of the source lanes, sign- or zero-extended. -/
def execUnpack (w : GWord) (s : State) : Out :=
  gFire .unpack w w.ty none (fun _ l _ _ =>
    let hi := w.mf.toNat % 2 = 1
    let nib := bits w.mf.toNat 1 1 = 1
    let ws := if nib then 4 else w.ty.width / 2
    if !l.val.isVec then .fault .widthMismatch
    else
      let n := Ty.lanes w.ty
      .one (joinLanes w.ty.width ((List.range n).map fun k =>
        let x := l.val.lane ws (if hi then n + k else k)
        if Ty.signed w.ty then wrapN w.ty.width (sInt ws x) else x))) s

end Sys2Proof.Machine
end

