-- ==== Sys2Proof/Machine/Matrix.lean ====
section
/-!
DEFINITION. The matrix array (R227 to R250): WLOAD, WSWAP, MMA, MRECUR, MACC, MZERO and MSTAT.
-/

namespace Sys2Proof.Machine

/-! ### Formats (R229, R231, R232) -/

/-- How the array reads an element: a float, an MX element by its code of R190, a signed or an unsigned integer. -/
inductive ElKind where
  | flt (f : FF)
  | mx (code : Nat)
  | int
  | q (w : Nat)
deriving DecidableEq, Repr

def wKind (code : Nat) : ElKind :=
  match code with
  | 0 => .flt .f16 | 1 => .flt .b16 | 2 => .flt .e4m3 | 3 => .flt .e5m2 | 4 => .int | 5 => .q 8 | 6 => .q 4
  | 7 => .mx 0 | 8 => .mx 1 | 9 => .mx 2 | _ => .mx 3
def aKind (code : Nat) : ElKind :=
  match code with
  | 0 => .flt .f16 | 1 => .flt .b16 | 2 => .flt .e4m3 | 3 => .flt .e5m2 | 4 => .int
  | 5 => .mx 0 | 6 => .mx 1 | 7 => .mx 2 | _ => .mx 3

def ElKind.width : ElKind → Nat
  | .flt f => f.width
  | .mx c => mxWidth c
  | .int => 8
  | .q w => w

/-- Nw and Mt (R229, R237), RB (R231). -/
def nwOf (fmt : Nat) : Nat := 1024 / (wKind fmt).width
def mtOf (fmt : Nat) : Nat := 16384 / nwOf fmt
def rbOf (a : Nat) : Nat := 16 * (aKind a).width

/-- The path of an activation and a weight format (R232). -/
inductive Path where
  | plain | block | fgroup | int | igroup
deriving DecidableEq, Repr

def pathOf (a w : Nat) : Option Path :=
  match aKind a, wKind w with
  | .flt _, .flt _ => some .plain
  | .flt _, .q _ => some .fgroup
  | .flt _, .mx _ => some .block
  | .int, .int => some .int
  | .int, .q _ => some .igroup
  | .mx _, .flt _ => some .block
  | .mx _, .mx _ => some .block
  | _, _ => none

/-- An element's value without any scale (R234). -/
def elVal (k : ElKind) (x : Nat) : FV :=
  match k with
  | .flt f => f.dec x
  | .mx c => mxValue c 127 x
  | .int => let z := sInt 8 x; .fin (z < 0) z.natAbs 0
  | .q _ => .fin false x 0

/-- Element `i` of a row of bytes. -/
def elAt (w : Nat) (bs : List Byte) (i : Nat) : Nat :=
  if w = 16 then leNat ((bs.drop (2 * i)).take 2)
  else if w = 8 then (bs.getD i 0).toNat
  else bits (bs.getD (i / 2) 0).toNat (4 * (i % 2)) 4

/-! ### The arithmetic of one entry (R234, R235) -/

/-- Adds F32 patterns, collecting flags. -/
def accAdd (a b : Nat × Nat) : Nat × Nat :=
  let r := FF.f32.add .rne false a.1 b.1
  (r.1, a.2 ||| b.2 ||| r.2)

/-- The product of two elements in F32 (R234). -/
def prodF (a b : FV) : Nat × Nat :=
  let p := fvMul a b
  let r := FF.f32.ofFV .rne false p.1
  (r.1, p.2 ||| r.2)

/-- `Sum` of R234 over a list of products. -/
def sumF (ps : List (Nat × Nat)) : Nat × Nat := (ps.drop 1).foldl accAdd (ps.headD (0, 0))

/-- Group size code of WLOAD (R243). -/
def groupLen (g : Nat) : Nat := if g = 0 then 32 else if g = 1 then 64 else 128

/-- Scale and zero point of column `n`, group `g` (R230). -/
def qScale (s : WSet) (n g : Nat) : FV :=
  FF.f16.dec (leNat ((s.side.drop (2 * (n * (128 / groupLen s.grp) + g))).take 2))
def qZero (s : WSet) (n g : Nat) : Nat :=
  let ng := 128 / groupLen s.grp
  let z := (s.side.getD (2 * nwOf s.fmt * ng + n * ng + g) 0).toNat
  if s.fmt = 6 then z % 16 else z

/-- The scale byte of column `n`, block `b` of an MX weight format; 127 otherwise. -/
def wScale (s : WSet) (n b : Nat) : Nat := if 7 ≤ s.fmt then (s.side.getD (4 * n + b) 0).toNat else 127

/-- `B × 2^x` rounded once (R235). -/
def scaleF (b : Nat) (x : Int) : Nat × Nat :=
  match FF.f32.dec b with
  | .fin n m e => FF.f32.round .rne false n m (e + x)
  | v => FF.f32.ofFV .rne false v

/-- The entry of one row and column (R235). `as` are the row's 128 element codes, `asc` its four scale bytes (127 each when
the format has none), `w0` the working value. -/
def arrEntry (s : WSet) (a : Nat) (path : Path) (as asc : List Nat) (n w0 : Nat) : Nat × Nat :=
  let ak := aKind a
  let wk := wKind s.fmt
  let wc (k : Nat) : Nat := elAt wk.width ((s.w.drop (128 * k)).take 128) n
  let av (k : Nat) : FV := elVal ak (as.getD k 0)
  let wv (k : Nat) : FV := elVal wk (wc k)
  let ks (b len : Nat) : List Nat := (List.range len).map fun j => b * len + j
  match path with
  | .plain => accAdd (w0, 0) (sumF ((ks 0 128).map fun k => prodF (av k) (wv k)))
  | .block =>
    (List.range 4).foldl (fun w b =>
      let ea := asc.getD b 127
      let ew := wScale s n b
      let p := sumF ((ks b 32).map fun k => prodF (av k) (wv k))
      if ea = 255 || ew = 255 then accAdd w (FF.f32.nan, p.2)
      else
        let t := scaleF p.1 ((ea : Int) - 127 + ((ew : Int) - 127))
        accAdd w (t.1, p.2 ||| t.2)) (w0, 0)
  | .fgroup =>
    let len := groupLen s.grp
    (List.range (128 / len)).foldl (fun w g =>
      let p := sumF ((ks g len).map fun k => prodF (av k) (wv k))
      let sm := sumF ((ks g len).map fun k => FF.f32.ofFV .rne false (av k))
      let zs := prodF (.fin false (qZero s n g) 0) (FF.f32.dec sm.1)
      let c := accAdd p (zs.1 ^^^ 0x80000000, sm.2 ||| zs.2)
      let sc := prodF (qScale s n g) (FF.f32.dec c.1)
      accAdd w (sc.1, c.2 ||| sc.2)) (w0, 0)
  | .int =>
    let z := (ks 0 128).foldl (fun (t : Int) k => t + sInt 8 (as.getD k 0) * sInt 8 (wc k)) 0
    (wrapN 32 ((w0 : Int) + z), 0)
  | .igroup =>
    let len := groupLen s.grp
    (List.range (128 / len)).foldl (fun w g =>
      let p := (ks g len).foldl (fun (t : Int) k => t + sInt 8 (as.getD k 0) * (wc k : Int)) 0
      let sm := (ks g len).foldl (fun (t : Int) k => t + sInt 8 (as.getD k 0)) 0
      let c := p - (qZero s n g : Int) * sm
      accAdd w (prodF (qScale s n g) (.fin (c < 0) c.natAbs 0))) (w0, 0)

/-- A row of the array: Nw entries and the flags raised. -/
def arrRow (s : WSet) (a : Nat) (path : Path) (as asc : List Nat) (w0 : Nat → Nat) : List Nat × Nat :=
  let es := (List.range (nwOf s.fmt)).map fun n => arrEntry s a path as asc n (w0 n)
  (es.map (·.1), es.foldl (fun f e => f ||| e.2) 0)

/-! ### Fields of a command -/

def Cmd.sel (m : Cmd) : Bool := bits m.imm 12 1 = 1
def Cmd.outMode (m : Cmd) : Nat := bits m.imm 14 2
def Cmd.outFmt (m : Cmd) : Nat := bits m.sub 0 2
def Cmd.ob (m : Cmd) : Nat := if m.outFmt = 0 then 4 else 2
def Cmd.afmt (m : Cmd) : Nat := bits m.imm 8 4
/-- The accumulator of tile `t` (R239). -/
def Cmd.accOf (m : Cmd) (t : Nat) : Bool := if m.op = .mma && bits m.sub 3 1 = 1 then m.sel != (t % 2 = 1) else m.sel
/-- The output pattern is the last of the command's patterns. -/
def Cmd.outPat (m : Cmd) : V512 := m.pats.getLastD 0
/-- The progress of a stream command: phase (0 reading, 1 writing out, 2 to commit), tile or step, position, flags. -/
def Cmd.ph (m : Cmd) : Nat := m.aux.getD 0 0
def Cmd.tileNo (m : Cmd) : Nat := m.aux.getD 1 0
def Cmd.pos (m : Cmd) : Nat := m.aux.getD 2 0

def Array.acc (a : Array) (second : Bool) : Tab (BitVec 32) := if second then a.acc1 else a.acc0
def Array.setAcc (a : Array) (second : Bool) (t : Tab (BitVec 32)) : Array :=
  if second then { a with acc1 := t } else { a with acc0 := t }

/-- Sets entries 0 to `ws.length - 1` of an accumulator. -/
def accSet (t : Tab (BitVec 32)) (ws : List Nat) : Tab (BitVec 32) :=
  ((List.range ws.length).filterMap fun i =>
    let w : BitVec 32 := BitVec.ofNat 32 (ws.getD i 0)
    if w = 0 then none else some (i, w)) ++ t.filter fun (e : Nat × BitVec 32) => decide (ws.length ≤ e.1)

/-- Changes the array of a cluster. -/
def State.modArr (s : State) (c : Nat) (f : Array → Array) : State := s.modCl c fun x => { x with array := f x.array }

/-- A stream command fails in tile `t`, at a row or at none (R239, R387). -/
def State.arrFail (s : State) (c u : Nat) (m : Cmd) (f : Pending) (row : Option Nat) : State :=
  s.failCmd c u m { f with aux := m.tileNo + (row.getD 0xffffffff) * 2 ^ 32 }

/-- The row of the output that a stream command is writing; `nw` is the entries of a row. -/
def Cmd.outRow (m : Cmd) (nw : Nat) : Nat := m.pos * patEsz m.outPat / m.ob / nw

/-- The row that a stream command is reading or writing (R387). -/
def Cmd.rowNow (m : Cmd) (nw : Nat) : Option Nat :=
  if m.started then some (if m.ph = 0 then m.pos else m.outRow nw) else none

/-- An access of a stream command failed at another place (R239). -/
def arrLost (i : Issue) (m : Cmd) (f : Pending) (s : State) : State :=
  let nw :=
    if m.op = .macc then (if bits m.imm 8 2 = 0 then 64 else if bits m.imm 8 2 = 1 then 128 else 256)
    else if m.op = .mrecur then 128 else nwOf (s.cl i.c).array.act.fmt
  s.arrFail i.c i.u m f (m.rowNow nw)

/-- A token enters an output queue of a node (R46, R240, R250). -/
def State.enqueue (s : State) (nk q : Nat) (o : Opnd) (kd : Kd := .data) : State :=
  let r := s.reserve nk q 1
  r.1.fillPlace nk q r.2 kd o

/-- The queue of T0. -/
def Cmd.queue (m : Cmd) : Nat := match m.w.t0 with | .queue q => q.toNat | _ => 0

/-! ### Output (R240) -/

/-- One entry in the output format: its bytes, the flags raised and whether it is a NaN. -/
def outEntry (fmt w : Nat) : List Byte × Nat × Bool :=
  if fmt = 0 then (natLE w 4, 0, (FF.f32.dec w).isNan)
  else
    let f : FF := if fmt = 1 then .b16 else .f16
    let r := f.ofFV .rne false (FF.f32.dec w)
    (natLE r.1 2, r.2, (f.dec r.1).isNan)

/-- Entries `i` to `i + k - 1` in the output format. -/
def outRun (fmt : Nat) (ws : List Nat) (i k : Nat) : List Byte × Nat × Bool :=
  ((ws.drop i).take k).foldl (fun a w => let r := outEntry fmt w; (a.1 ++ r.1, a.2.1 ||| r.2.1, a.2.2 || r.2.2)) ([], 0, false)

/-- One piece of the output of `ws`: an element of the output pattern, or a vector token. `nw` is the row's entries, `base`
the stream byte of the tile; `isInt` says that the entries are integers; `out` that a row is an outside row. -/
def State.arrOut (s : State) (i : Issue) (m : Cmd) (ws : List Nat) (nw base : Nat) (isInt : Bool) (out : Nat → Bool)
    (done : State → State) : State :=
  let ob := m.ob
  let pos := m.pos
  let bump (s : State) (fl : Nat) : State :=
    s.modCmd i.c i.u m.id fun x => { x with accs := [], aux := ((x.aux.set 2 (pos + 1)).set 3 (m.aux.getD 3 0 ||| fl)) }
  match m.outMode with
  | 1 =>
    let p := m.outPat
    let esz := patEsz p
    if pos * esz ≥ ws.length * ob then done s
    else
      let first := base + pos * esz
      let r := outRun m.outFmt ws (pos * esz / ob) (max 1 (esz / ob))
      let bs := (r.1.drop (pos * esz % ob)).take esz
      match s.writeElem i.c i.u m p 0 (first / esz) (2 ^ 40 + first / esz) (leNat bs) with
      | .ok s _ => bump s r.2.1
      | .wait s => s
      | .bad s f => s.arrFail i.c i.u m f (some (m.outRow nw))
  | 2 =>
    let per := 64 / ob
    if pos * per ≥ ws.length then done s
    else if !(s.nd m.nk).queueRoom m.queue then s
    else
      let r := outRun m.outFmt ws (pos * per) per
      let o : Opnd :=
        if out (pos * per / nw) then { null := true }
        else { val := .vec (BitVec.ofNat 512 (leNat r.1)), ns := r.2.2 && !isInt }
      bump (s.enqueue m.nk m.queue (m.mark o)) (if out (pos * per / nw) then 0 else r.2.1)
  | _ => done s

/-! ### WLOAD and WSWAP (R244, R245, R228) -/

/-- Bytes of side data of a weight format (R230). -/
def sideLen (fmt g : Nat) : Nat :=
  match wKind fmt with
  | .q _ => 3 * nwOf fmt * (128 / groupLen g)
  | .mx _ => 4 * nwOf fmt
  | _ => 0

/-- Offsets in the weight store of a WLOAD's set and side data, or the fault (R244). -/
def wloadAt (s : State) (c : Nat) (m : Cmd) : Except Cause (Nat × Nat) :=
  let sl := sideLen (bits m.imm 0 4) (bits m.imm 4 2)
  let so := if sl = 0 then 0 else m.rv
  if bits m.sub 0 1 = 1 then
    match m.hnds.head? with
    | none => .error .badHandle
    | some (_, ob, _) =>
      match Tab.find s.dir.objs ob with
      | none => .error .badHandle
      | some o =>
        let e := bits m.lv 0 40
        if !o.ws || o.cl != c || e + 16384 > o.size then .error .handleBound
        else if so + sl > o.size then .error .addressOutOfRange
        else .ok (o.base + e, o.base + so)
  else if so + sl > 0x400000 then .error .addressOutOfRange
  else .ok (m.lv, so)

/-- WLOAD at its issue (R244): the shadow set becomes invalid once the bounds of its object and side data have passed. DEDUCED:
where a WSWAP issued before has still to take effect (R228), it becomes so after that (assumption 82). -/
def State.wloadIssue (s : State) (c : Nat) : State :=
  match (s.unit c 8).getLast? with
  | none => s
  | some m =>
    if m.started || (s.unit c 7).any (fun x => x.op = .wswap && x.id < m.id && !x.finished) then s
    else
      match wloadAt s c m with
      | .error _ => s
      | .ok _ => s.modArr c fun a => { a with shad := { a.shad with valid := false } }

/-- WLOAD at work: a step reads 32 bytes. `aux` holds the next piece and the two offsets. -/
def wloadWork (i : Issue) (m : Cmd) (s : State) : State :=
  let fmt := bits m.imm 0 4
  let sl := sideLen fmt (bits m.imm 4 2)
  if !m.started then
    if (s.unit i.c 7).any fun x => x.op = .wswap && x.id < m.id && !x.finished then s
    else
      match wloadAt s i.c m with
      | .error cz => s.failWith i.c i.u m cz
      | .ok (e, so) =>
        (s.modArr i.c fun a => { a with shad := { a.shad with valid := false } }).modCmd i.c i.u m.id fun x =>
          { x with started := true, aux := [0, e, so] }
  else
    let k := m.aux.getD 0 0
    let e := m.aux.getD 1 0
    let so := m.aux.getD 2 0
    if 32 * k < 16384 + sl then
      let off := if k < 512 then e + 32 * k else so + 32 * (k - 512)
      let n := if k < 512 then 32 else min 32 (sl - 32 * (k - 512))
      if badAt s (wsKey i.c off) || badAt s (wsKey i.c (off + n - 1)) then s.failWith i.c i.u m .uncorrectableError 1 off
      else
        s.modCmd i.c i.u m.id fun x => { x with aux := [k + 1, e, so], buf := x.buf ++ memBytes s (wsKey i.c off) n }
    else
      let w : WSet :=
        { valid := true, fmt := fmt, grp := bits m.imm 4 2, w := m.buf.take 16384, side := m.buf.drop 16384, e := e, so := so }
      (s.modArr i.c fun a => { a with shad := w }).finishCmd i.c i.u m

def execWload (w : EWord) (s : State) : Out :=
  let hnd := bits w.sub.toNat 0 1 = 1
  let side := sideLen (bits w.imm.toNat 0 4) (bits w.imm.toNat 4 2) != 0
  eExec .wload (.wload w) w { l := .sc, r := .sc }
    (fun i _ _ =>
      let e := if hnd then bits i.lv 0 40 else i.lv
      if e % 16384 != 0 || (!hnd && 0x3fc000 < i.lv) || (hnd && bits i.lv 52 12 != 0) || (side && i.rv % 64 != 0) then
        some .reservedCode
      else none) wloadWork s

/-- WSWAP at work: it waits for every WLOAD issued before it. -/
def wswapWork (i : Issue) (m : Cmd) (s : State) : State :=
  if (s.unit i.c 8).any fun x => x.id < m.id && !x.finished then s
  else if !(s.cl i.c).array.shad.valid then s.failWith i.c i.u m .arrayFormat
  else (s.modArr i.c fun a => { a with act := a.shad, shad := a.act }).finishCmd i.c i.u m

def execWswap (w : EWord) (s : State) : Out := eExec .wswap (.wswap w) w { l := .any } (fun _ _ _ => none) wswapWork s

/-! ### MMA and MRECUR (R238 to R241, R246, R247) -/

/-- The checks of a stream command when it starts. -/
def arrCheck (s : State) (c : Nat) (m : Cmd) : Option Cause :=
  let a := (s.cl c).array
  let p := m.pats.getD 0 0
  let out := m.outPat
  let rows := if m.op = .mma then mtOf a.act.fmt * nwOf a.act.fmt else 128
  let outOk := m.outMode != 1 || patN out * patEsz out = m.lv * rows * m.ob
  if !a.act.valid then some .arrayFormat
  else
    match pathOf m.afmt a.act.fmt with
    | none => some .arrayFormat
    | some path =>
      if (path = .int && m.outFmt != 0) then some .arrayFormat
      else if m.op = .mrecur then
        if nwOf a.act.fmt != 128 || 4 ≤ m.afmt then some .arrayFormat
        else if patN p * patEsz p != 512 * m.lv || !outOk then some .patternMismatch
        else none
      else if m.afmt < 5 && bits m.imm 4 4 != 0 then some .arrayFormat
      else
        let mt := mtOf a.act.fmt
        let sp := m.pats.getD 1 0
        if patSpc p != 0 || patN p * patEsz p != m.lv * mt * rbOf m.afmt
          || (5 ≤ m.afmt && patN sp * patEsz sp != m.lv * mt * 4) || !outOk then some .patternMismatch
        else none

/-- `n` bytes of a pattern's stream from byte `b`, as accesses from number `j` on; the second says that every element is out of
bounds. -/
def State.arrRead (s : State) (c u : Nat) (m : Cmd) (p : V512) (j b n : Nat) : EngRes × List Byte × Bool :=
  let esz := patEsz p
  let e := b / esz
  let cnt := max 1 (n / esz)
  let r := s.readStream c u m p 0 j e cnt
  (r.1, (r.2.drop (b % esz)).take n, (List.range cnt).all fun j => (patElem p 0 (e + j)).isNone)

/-- The codes of a row's elements. -/
def rowCodes (w : Nat) (bs : List Byte) : List Nat := (List.range 128).map (elAt w bs)

/-- The working values of a tile (R239): every row of MMA, or the step of MRECUR. -/
def arrCompute (s : State) (c : Nat) (m : Cmd) : List Nat × Nat :=
  let a := (s.cl c).array
  let acc := a.acc (m.accOf m.tileNo)
  let at_ (j : Nat) : Nat := (Tab.get 0 acc j).toNat
  match pathOf m.afmt a.act.fmt with
  | none => ([], 0)
  | some path =>
    if m.op = .mrecur then
      let f : FF := match aKind m.afmt with | .flt f => f | _ => .f16
      let us := (List.range 128).map fun k => f.ofFV .rne false (FF.f32.dec (at_ k))
      let xs := (List.range 128).map fun n => leNat ((m.buf.drop (4 * n)).take 4)
      let r := arrRow a.act m.afmt path (us.map (·.1)) [127, 127, 127, 127] (fun n => xs.getD n 0)
      (r.1, us.foldl (fun f u => f ||| u.2) r.2)
    else
      let nw := nwOf a.act.fmt
      let rb := rbOf m.afmt
      let step := rb + 4
      let rs := (List.range (mtOf a.act.fmt)).map fun r =>
        let bs := (m.buf.drop (r * step)).take step
        let asc := if 5 ≤ m.afmt then ((bs.drop rb).map (·.toNat)) else [127, 127, 127, 127]
        arrRow a.act m.afmt path (rowCodes (aKind m.afmt).width (bs.take rb)) asc
          (fun n => if bits m.imm 13 1 = 1 then at_ (r * nw + n) else 0)
      (rs.flatMap (·.1), rs.foldl (fun f r => f ||| r.2) 0)

/-- MMA and MRECUR at work up to a tile's commit: the rows are read one by one, the tile is computed, and it is written out. An uncorrectable error in a latch of the active set ends the tile (R239, R397). `buf` holds each row with its four scale bytes; the outside rows stand in `aux` after the flags. -/
def streamWork (i : Issue) (m : Cmd) (s : State) : State :=
  let a := (s.cl i.c).array
  if !m.started then
    match arrCheck s i.c m with
    | some cz => s.arrFail i.c i.u m (m.pending cz) none
    | none =>
      (s.modArr i.c fun a => { a with count := 0 }).modCmd i.c i.u m.id fun x => { x with started := true, aux := [0, 0, 0, 0] }
  else
    let nw := nwOf a.act.fmt
    let mt := if m.op = .mma then mtOf a.act.fmt else 1
    let rb := if m.op = .mma then rbOf m.afmt else 512
    match m.ph with
    | 0 =>
      if m.pos < mt then
        let r := s.arrRead i.c i.u m (m.pats.getD 0 0) 0 ((m.tileNo * mt + m.pos) * rb) rb
        match r.1 with
        | .wait s => s
        | .bad s f => s.arrFail i.c i.u m f (some m.pos)
        | .ok s _ =>
          let q :=
            if m.op = .mma && 5 ≤ m.afmt then s.arrRead i.c i.u m (m.pats.getD 1 0) (2 ^ 40) ((m.tileNo * mt + m.pos) * 4) 4
            else (.ok s 0, if m.op = .mma then [127, 127, 127, 127] else [], false)
          match q.1 with
          | .wait s => s
          | .bad s f => s.arrFail i.c i.u m f (some m.pos)
          | .ok s _ =>
            s.modCmd i.c i.u m.id fun x => { x with
              accs := []
              buf := x.buf ++ r.2.1 ++ q.2.1
              aux := (x.aux.set 2 (m.pos + 1)) ++ (if r.2.2 then [m.pos] else []) }
      else if a.act.err then s.arrFail i.c i.u m (m.pending .uncorrectableError) none
      else
        let r := arrCompute s i.c m
        s.modCmd i.c i.u m.id fun x => { x with aux := [1, m.tileNo, 0, r.2] ++ x.aux.drop 4, acc := r.1, buf := [] }
    | 1 =>
      let outs := if m.op = .mma then m.aux.drop 4 else []
      let len := if m.op = .mma then mt * nw else 128
      s.arrOut i m m.acc (if m.op = .mma then nw else 128) (m.tileNo * len * m.ob)
        (decide (pathOf m.afmt a.act.fmt = some .int)) outs.contains
        fun s => s.modCmd i.c i.u m.id fun x => { x with aux := x.aux.set 0 2 }
    | _ => s

/-- A tile or step commits (R239): its working values become the accumulator's, the count and the flags follow, and the next
one starts or the command ends. -/
def State.tileCommit (s : State) (c : Nat) : State :=
  match (s.unit c 7).find? fun m => m.started && !m.finished && (m.op = .mma || m.op = .mrecur) && m.ph = 2 with
  | none => s
  | some m =>
    let t := m.tileNo
    let s := s.modArr c fun a =>
      let b := m.accOf t
      { a.setAcc b (accSet (a.acc b) m.acc) with count := t + 1, flags := a.flags ||| m.aux.getD 3 0 }
    let last := decide (t + 1 ≥ m.lv)
    s.modCmd c 7 m.id fun x => { x with aux := [0, t + 1, 0, 0], acc := [], buf := [], finished := last }

def execMma (w : EWord) (s : State) : Out :=
  eExec .mma (.mma w) w { l := .sc } (fun i _ _ => if i.lv = 0 || 2 ^ 32 ≤ i.lv then some .reservedCode else none) streamWork s arrLost
def execMrecur (w : EWord) (s : State) : Out :=
  eExec .mrecur (.mrecur w) w { l := .sc } (fun i _ _ => if i.lv = 0 || 2 ^ 32 ≤ i.lv then some .reservedCode else none) streamWork s arrLost

/-! ### MACC, MZERO, MSTAT (R248 to R250) -/

/-- MACC at work: the accumulator's entries go out as one tile. -/
def maccWork (i : Issue) (m : Cmd) (s : State) : State :=
  let nw := if bits m.imm 8 2 = 0 then 64 else if bits m.imm 8 2 = 1 then 128 else 256
  let p := m.outPat
  if !m.started then
    if m.outMode = 1 && patN p * patEsz p != 16384 * m.ob then s.arrFail i.c i.u m (m.pending .patternMismatch) none
    else
      let acc := (s.cl i.c).array.acc m.sel
      s.modCmd i.c i.u m.id fun x => { x with
        started := true, aux := [1, 0, 0, 0], acc := (List.range 16384).map fun j => (Tab.get 0 acc j).toNat }
  else
    s.arrOut i m m.acc nw 0 false (fun _ => false) fun s =>
      ((s.modArr i.c fun a => { a with flags := a.flags ||| m.aux.getD 3 0 }).modCmd i.c i.u m.id fun x =>
        { x with acc := [] }).finishCmd i.c i.u m

def execMacc (w : EWord) (s : State) : Out := eExec .macc (.macc w) w { l := .any } (fun _ _ _ => none) maccWork s arrLost

/-- R249. -/
def mzeroWork (i : Issue) (m : Cmd) (s : State) : State :=
  let both := bits m.imm 13 1 = 1
  (s.modArr i.c fun a => { a with
    acc0 := if both || !m.sel then [] else a.acc0
    acc1 := if both || m.sel then [] else a.acc1 }).finishCmd i.c i.u m

def execMzero (w : EWord) (s : State) : Out := eExec .mzero (.mzero w) w { l := .any } (fun _ _ _ => none) mzeroWork s

/-- The scalar of MSTAT (R250). -/
def mstatWord (a : Array) (ldp : Bool) : Nat :=
  a.count % 2 ^ 32 * 2 ^ 32 + ldp.toNat * 2 ^ 16 + (a.flags % 32) * 2 ^ 10 + a.shad.valid.toNat * 2 ^ 9 + a.shad.fmt * 2 ^ 5
    + a.act.valid.toNat * 2 ^ 4 + a.act.fmt

def mstatWork (i : Issue) (m : Cmd) (s : State) : State :=
  if !(s.nd m.nk).queueRoom m.queue then s
  else
    let a := (s.cl i.c).array
    let ldp := (s.unit i.c 8).any fun x => !x.finished
    let s := s.enqueue m.nk m.queue (m.mark (Opnd.ofNat (mstatWord a ldp)))
    (if bits m.sub 0 1 = 1 then s.modArr i.c fun a => { a with flags := 0 } else s).finishCmd i.c i.u m

def execMstat (w : EWord) (s : State) : Out := eExec .mstat (.mstat w) w { l := .any } (fun _ _ _ => none) mstatWork s

end Sys2Proof.Machine
end

