-- ==== Sys2Proof/Machine/Vec.lean ====
section
/-!
DEFINITION. The vector instructions (R216 to R223) and the mask instructions (R224, R225).
-/

namespace Sys2Proof.Machine

/-- The lanes of a vector under TY. -/
def lanesOf (t : Ty) (v : Val) : List Nat := (List.range (Ty.lanes t)).map fun k => v.lane t.width k

/-- A vector instruction; `ok` says whether the operands have the widths the row requires (R216). -/
def vecOp (op : Op) (w : GWord) (ok : Opnd → Opnd → Opnd → Bool) (f : Nat → Val → Val → Val → GRes) (s : State) : Out :=
  gFire op w (Ty.ofCode (op.immTy w.ty.code)) none (fun fctl l r q =>
    if ok l r q then f fctl l.val r.val q.val else .fault .widthMismatch) s

/-- The low log2(n) bits of an index (R216). -/
def laneIndex (t : Ty) (v : Val) : Nat := v.nat % Ty.lanes t

def execVbcast (w : GWord) (s : State) : Out :=
  vecOp .vbcast w (fun l _ _ => !l.val.isVec) (fun _ l _ _ =>
    .one (joinLanes w.ty.width (List.replicate (Ty.lanes w.ty) (l.lane w.ty.width 0)))) s

def execVbcastLane (w : GWord) (s : State) : Out :=
  vecOp .vbcastLane w (fun l r _ => l.val.isVec && !r.val.isVec) (fun _ l r _ =>
    .one (joinLanes w.ty.width (List.replicate (Ty.lanes w.ty) (l.lane w.ty.width (laneIndex w.ty r))))) s

def execVext (w : GWord) (s : State) : Out :=
  vecOp .vext w (fun l r _ => l.val.isVec && !r.val.isVec) (fun _ l r _ =>
    .one (scalarOf w.ty (l.lane w.ty.width (laneIndex w.ty r)))) s

def execVins (w : GWord) (s : State) : Out :=
  vecOp .vins w (fun l r q => l.val.isVec && !r.val.isVec && !q.val.isVec) (fun _ l r q =>
    .one (joinLanes w.ty.width ((lanesOf w.ty l).set (laneIndex w.ty r) (q.lane w.ty.width 0)))) s

def execVperm (w : GWord) (s : State) : Out :=
  vecOp .vperm w (fun l r _ => l.val.isVec && r.val.isVec) (fun _ l r _ =>
    .one (joinLanes w.ty.width ((lanesOf w.ty r).map fun k => l.lane w.ty.width (k % Ty.lanes w.ty)))) s

/-- The patterns of VSHUF by MF (R218): lane i of the result from the lanes of L and R. -/
def shufLane (mf n k : Nat) (l r : Nat → Nat) (i : Nat) : Nat :=
  let h := n / 2
  match mf with
  | 0 => if i % 2 = 0 then l (i / 2) else r (i / 2)
  | 1 => if i % 2 = 0 then l (h + i / 2) else r (h + i / 2)
  | 2 => if i < h then l (2 * i) else r (2 * (i - h))
  | 3 => if i < h then l (2 * i + 1) else r (2 * (i - h) + 1)
  | 4 => if i + k < n then l (i + k) else r (i + k - n)
  | _ => l (n - 1 - i)

def execVshuf (w : GWord) (s : State) : Out :=
  vecOp .vshuf w (fun l r _ => l.val.isVec && (w.mf = 5 || r.val.isVec)) (fun _ l r _ =>
    let n := Ty.lanes w.ty
    .one (joinLanes w.ty.width ((List.range n).map
      (shufLane w.mf.toNat n w.imm.imm16 (l.lane w.ty.width) (r.lane w.ty.width))))) s

/-- One level of the tree: neighbours combined (R219). -/
def pairUp (op : Nat → Nat → Nat × Nat) : List Nat → List Nat × Nat
  | a :: b :: xs =>
    let r := op a b
    let t := pairUp op xs
    (r.1 :: t.1, r.2 ||| t.2)
  | xs => (xs, 0)

/-- The tree of R219 over `2^d` lanes. -/
def tree (op : Nat → Nat → Nat × Nat) : Nat → List Nat → Nat × Nat
  | 0, xs => (xs.headD 0, 0)
  | d + 1, xs =>
    let r := pairUp op xs
    let t := tree op d r.1
    (t.1, r.2 ||| t.2)

/-- The ladder of R219: step `d` combines lanes `2^d` apart. -/
def ladder (op : Nat → Nat → Nat × Nat) (d : Nat) : Nat → List Nat → List Nat × Nat
  | 0, xs => (xs, 0)
  | k + 1, xs =>
    let rs := (List.range xs.length).map fun i =>
      if i ≥ 2 ^ d then op (xs.getD (i - 2 ^ d) 0) (xs.getD i 0) else (xs.getD i 0, 0)
    let t := ladder op (d + 1) k (rs.map (·.1))
    (t.1, rs.foldl (fun a r => a ||| r.2) t.2)

/-- The operations of the in-token reductions on patterns of TY (R220). -/
inductive RedOp where
  | add | max | min
deriving DecidableEq, Repr

def redOp (k : RedOp) (t : Ty) (mode : RM) (sat : Bool) (a b : Nat) : Nat × Nat :=
  match Ty.ff t with
  | some f =>
    match k with
    | .add => f.add mode sat a b
    | .max => f.minMax true a b
    | .min => f.minMax false a b
  | none =>
    match k with
    | .add => ((a + b) % 2 ^ t.width, 0)
    | .max => (if tyInt t a ≥ tyInt t b then a else b, 0)
    | .min => (if tyInt t a ≤ tyInt t b then a else b, 0)

/-- A reduction of lanes of TY by the tree; of lanes that are all NaN, the canonical NaN (R220). -/
def reduceLanes (k : RedOp) (t : Ty) (mode : RM) (sat : Bool) (xs : List Nat) : Nat × Nat :=
  tree (redOp k t mode sat) (Nat.log2 xs.length) xs

/-- A scalar result of TY, with NS on a NaN (R184). -/
def redRes (t : Ty) (r : Nat × Nat) : GRes :=
  match Ty.ff t with
  | some f => floatRes f (scalarOf t r.1, r.2)
  | none => let o : Opnd := { val := scalarOf t r.1 }; .res o o r.2

/-- R220. With `.W`, integers are summed exactly into 64 bits and F16 and B16 lanes are widened to F32 first,
which raises NV for a signalling NaN (R184). -/
def execVradd (w : GWord) (s : State) : Out :=
  vecOp .vradd w (fun l _ _ => l.val.isVec) (fun fctl l _ _ =>
    let xs := lanesOf w.ty l
    let m := modeOf fctl w.rm
    if w.mf = 1 then
      match Ty.ff w.ty with
      | some f =>
        let r := reduceLanes .add .f32 m w.sat (xs.map fun x => (FF.f32.ofFV .rne false (f.dec x)).1)
        redRes .f32 (r.1, fOr (sigNV (xs.map f.dec)) r.2)
      | none => .one (sc64 (wrapN 64 ((xs.map (tyInt w.ty)).foldl (· + ·) 0)))
    else redRes w.ty (reduceLanes .add w.ty m w.sat xs)) s

def execVrmax (w : GWord) (s : State) : Out :=
  vecOp .vrmax w (fun l _ _ => l.val.isVec) (fun _ l _ _ =>
    redRes w.ty (reduceLanes .max w.ty .rne false (lanesOf w.ty l))) s
def execVrmin (w : GWord) (s : State) : Out :=
  vecOp .vrmin w (fun l _ _ => l.val.isVec) (fun _ l _ _ =>
    redRes w.ty (reduceLanes .min w.ty .rne false (lanesOf w.ty l))) s

/-- R221: inclusive prefixes by the ladder; lane 0, which no step changes, has its NaN made canonical (R184). -/
def execVscan (w : GWord) (s : State) : Out :=
  vecOp .vscan w (fun l _ _ => l.val.isVec) (fun fctl l _ _ =>
    let k : RedOp := if w.mf = 0 then .add else if w.mf = 1 then .max else .min
    let r := ladder (redOp k w.ty (modeOf fctl w.rm) false) 0 (Nat.log2 (Ty.lanes w.ty)) (lanesOf w.ty l)
    match Ty.ff w.ty with
    | some f => floatRes f (joinLanes w.ty.width (r.1.map f.canon), r.2)
    | none => let o : Opnd := { val := joinLanes w.ty.width r.1 }; .res o o r.2) s

/-- R222: products of lanes summed by the tree. A signalling NaN lane raises NV through the product. -/
def execVdot (w : GWord) (s : State) : Out :=
  vecOp .vdot w (fun l r _ => l.val.isVec && r.val.isVec) (fun fctl l r _ =>
    let m := modeOf fctl w.rm
    let ps := (lanesOf w.ty l).zip (lanesOf w.ty r)
    match Ty.ff w.ty with
    | none =>
      let t : Int := (ps.map fun p => tyInt w.ty p.1 * tyInt w.ty p.2).foldl (· + ·) 0
      .one (sc64 (wrapN 64 t))
    | some f =>
      let g : FF := if w.ty = .f64 then .f64 else .f32
      let gt : Ty := if w.ty = .f64 then .f64 else .f32
      let qs := ps.map fun p => let x := fvMul (f.dec p.1) (f.dec p.2); let z := g.ofFV m w.sat x.1; (z.1, fOr x.2 z.2)
      let r := reduceLanes .add gt m w.sat (qs.map (·.1))
      redRes gt (r.1, qs.foldl (fun a q => a ||| q.2) r.2)) s

/-- R223: lane i of L where bit i of the mask is 1, else of R. -/
def execVsel (w : GWord) (s : State) : Out :=
  vecOp .vsel w (fun l _ q => l.val.isVec && !q.val.isVec) (fun _ l r q =>
    .one (joinLanes w.ty.width ((List.range (Ty.lanes w.ty)).map fun k =>
      if bits q.nat k 1 = 1 then l.lane w.ty.width k else r.lane w.ty.width k))) s

/-- The condition of VCMP on one pair of lanes, with its flag (R223). -/
def vcmpLane (t : Ty) (mf a b : Nat) : Bool × Nat :=
  match Ty.ff t with
  | some f =>
    let x := f.dec a
    let y := f.dec b
    match mf with
    | 0 => FRel.eq.test x y
    | 1 => let r := FRel.eq.test x y; (!r.1, r.2)
    | 2 => FRel.lt.test x y
    | 3 => FRel.le.test x y
    | _ => FRel.un.test x y
  | none =>
    match mf with
    | 0 => (decide (a = b), 0)
    | 1 => (decide (a ≠ b), 0)
    | 2 => (decide (tyInt t a < tyInt t b), 0)
    | _ => (decide (tyInt t a ≤ tyInt t b), 0)

def execVcmp (w : GWord) (s : State) : Out :=
  vecOp .vcmp w (fun l _ _ => l.val.isVec) (fun _ l r _ =>
    let rs := (List.range (Ty.lanes w.ty)).map fun k =>
      vcmpLane w.ty w.mf.toNat (l.lane w.ty.width k) (r.lane w.ty.width k)
    let m := rs.foldr (fun r a => r.1.toNat + 2 * a) 0
    let o : Opnd := { val := sc64 m }
    .res o o (rs.foldl (fun a r => a ||| r.2) 0)) s

/-! ### Masks -/

/-- A mask instruction on scalars; a vector operand faults (R224). -/
def maskOp (op : Op) (w : GWord) (idn : Option Nat) (f : Nat → Nat → Nat) (s : State) : Out :=
  gFire op w (Ty.ofCode (op.immTy w.ty.code)) (idn.map fun z => (sc64 z, sc64 z)) (fun _ l r _ =>
    if l.val.isVec || r.val.isVec then .fault .widthMismatch else .one (sc64 (f l.val.nat r.val.nat))) s

def execMand (w : GWord) (s : State) : Out := maskOp .mand w (some (2 ^ 64 - 1)) (fun a b => a &&& b) s
def execMor (w : GWord) (s : State) : Out := maskOp .mor w (some 0) (fun a b => a ||| b) s
def execMxor (w : GWord) (s : State) : Out := maskOp .mxor w (some 0) (fun a b => a ^^^ b) s
def execMnot (w : GWord) (s : State) : Out := maskOp .mnot w none (fun a _ => 2 ^ 64 - 1 - a) s
def execMpopc (w : GWord) (s : State) : Out := maskOp .mpopc w none (fun a _ => popcN 64 a) s
def execMffs (w : GWord) (s : State) : Out := maskOp .mffs w none (fun a _ => ctzN 64 a) s

/-- R225: bit j of a got, set, cleared or flipped; j is the low 6 bits of the index. -/
def execMbit (w : GWord) (s : State) : Out :=
  maskOp .mbit w none (fun a x =>
    let j := x % 64
    if w.mf = 0 then bits a j 1
    else if w.mf = 1 then a ||| 2 ^ j
    else if w.mf = 2 then a - bits a j 1 * 2 ^ j
    else a ^^^ 2 ^ j) s

def execMtst (w : GWord) (s : State) : Out := maskOp .mtst w none (fun a b => if a &&& b = 0 then 0 else 1) s

end Sys2Proof.Machine
end

