-- ==== Sys2Proof/Machine/Reduce.lean ====
section
/-!
DEFINITION. The reduction elements: RADD, RMAX, RMIN and RJOIN (R251 to R255) and KMERGE (R281 to R283).
-/

namespace Sys2Proof.Machine

/-! ### Running values -/

/-- The running value of element `ix` after iteration `n`. -/
def Node.redAt (nd : Node) (ix n : Nat) : Option Red :=
  ((Tab.get [] nd.red ix).find? fun e => e.1 = n).map (·.2)

/-- Records the running value after iteration `n`, and drops those that no discard can restore (R252). -/
def State.setRed (s : State) (nk ix n : Nat) (r : Red) : State :=
  s.modNd nk fun nd =>
    let oldest := nd.invs.foldl (fun m i => min m i.n) n
    { nd with red := Tab.mod [] nd.red ix fun l => (l.filter fun e => e.1 != n && oldest ≤ e.1 + 16) ++ [(n, r)] }

/-- Status bits joined into a running value (R29). -/
def Red.join (r : Red) (t : Status) : Red := { r with ns := r.ns || t.ns, em := r.em || t.em, er := r.er || t.er }
def Red.status (r : Red) : Status := { ns := r.ns, em := r.em, er := r.er }

/-- What an iteration contributes (R255). -/
inductive Contrib where
  | skip
  | null
  | value (o : Opnd) (isIdentity : Bool)
deriving DecidableEq, Repr

/-- The contribution of an issue (R255); `idn` is the identity under mode identity. -/
def contrib (w : GWord) (idn : Option Val) (i : Issue) : Contrib :=
  if !predHolds w.prd i then .skip
  else
    match i.l with
    | none => .skip
    | some l =>
      if !l.null then .value l false
      else
        match w.nm with
        | .absorb => .skip
        | .pass => .null
        | .identity => match idn with | some v => .value { l with null := false, val := v } true | none => .null

/-- The group size C of RADD to RJOIN (R251). -/
def groupC (w : GWord) : Nat := w.imm.imm16

/-- The `k`-th iteration before `n`. -/
def iterBack (n k : Nat) : Nat := (n + 2 ^ 32 - k) % 2 ^ 32

/-- The iterations whose folds that of iteration `n` waits for: the one before in its group (R252), and the one before on its chunk
(R281). -/
def foldWaits (op : Op) (w : GWord) (n : Nat) : List Nat :=
  let c := bits w.imm.imm16 0 8
  let nc := bits w.imm.imm16 8 8
  match op with
  | .radd | .rmax | .rmin | .rjoin => if n % groupC w = 0 then [] else [iterBack n 1]
  | .kmerge =>
    if w.mf = 0 then (if n / nc % c = 0 then [] else [iterBack n 1, iterBack n nc])
    else if n % (c * nc) = 0 then [] else [iterBack n 1]
  | _ => []

/-- The folds that an iteration waits for are done. -/
def Node.foldReady (nd : Node) (op : Op) (w : GWord) (ix n : Nat) : Bool :=
  (foldWaits op w n).all fun m => (nd.redAt ix m).isSome

/-- Folds and sends (R252). `prev` names the iteration whose running value is continued (none: the group starts), `last` whether
this contribution ends the group; `f` folds a contribution into a running value, giving a fault or the value and its flags; `out`
is what a group sends. -/
def redFire (op : Op) (w : GWord) (idn : Option Val) (prev : Nat → Option Nat) (last : Nat → Bool)
    (f : Nat → Nat → Red → Opnd → Bool → Except Cause (Red × Nat)) (out : Nat → Red → Opnd × Nat) (s : State) : Out :=
  match s.sched.cur with
  | none => .next s
  | some i =>
    match s.invOf i with
    | none => .next s
    | some v =>
      let nd := s.nd i.nk
      let n := v.n
      if !nd.foldReady op w i.ix n then .next s.waits
      else
        let r0 : Red := ((prev n).bind fun m => nd.redAt i.ix m).getD {}
        let folded : Except Cause (Red × Nat) :=
          match contrib w idn i with
          | .skip => .ok (r0, 0)
          | .null => .ok ({ r0 with any := true, nul := true }.join i.status, 0)
          | .value o isId => (f v.fctl n r0 o isId).map fun x => (x.1.join i.status, x.2)
        match folded with
        | .error c => .next (s.fault i op c)
        | .ok (r, fl) =>
          let sent := if last n then some (if !r.any || r.nul then (Opnd.nullWith r.status, 0) else out n r) else none
          let fl := fl ||| (sent.map (·.2)).getD 0
          if trapsOn v.fctl fl then .next (s.fault i op .floatException fun p => { p with aux := fl })
          else
            let s := (s.setRed i.nk i.ix n r).addFlags i fl
            match sent with
            | none => .next s
            | some (o, _) => .next (s.sendBoth i w false r.status o o)

/-- RADD, RMAX and RMIN: the fold of R252 and R253. A contribution that nothing was folded with is sent with its NaNs made
canonical; DESIGN CHOICE: the invocation that sends it raises NV for a signalling one (R184; assumption 107). -/
def redArith (op : Op) (k : RedOp) (idn : Nat) (w : GWord) (s : State) : Out :=
  let c := groupC w
  redFire op w (some (sc64 idn)) (fun n => if n % c = 0 then none else some (iterBack n 1)) (fun n => n % c = c - 1)
    (fun fctl _ r o isId =>
      if !isId && !r.idn && r.v.isVec != o.val.isVec then .error .widthMismatch
      else if r.nul || !r.any then
        .ok ({ r with any := true, idn := r.idn && isId, v := if isId && r.any then r.v else o.val }, 0)
      else
        let x := asOperands w.ty { val := r.v } o o true false (fun a b _ => redOp k w.ty (modeOf fctl w.rm) w.sat a b)
        let nan := match Ty.ff w.ty with | some f => hasNan f x.1 | none => false
        .ok ({ r with idn := r.idn && isId, v := x.1, ns := r.ns || nan }, x.2))
    (fun _ r =>
      let v : Val × Nat := match Ty.ff w.ty with | some f => canonVal f r.v | none => (r.v, 0)
      let o : Opnd := { val := match v.1 with | .sc x => scalarOf w.ty x.toNat | .vec x => .vec x }
      let nan := match Ty.ff w.ty with | some f => hasNan f o.val | none => false
      ({ o with ns := nan }, v.2)) s

/-- R253: the identities 0 and −0. -/
def execRadd (w : GWord) (s : State) : Out :=
  redArith .radd .add (match Ty.ff w.ty with | some f => f.zero true | none => 0) w s
/-- R253: B of R204, or −∞. -/
def execRmax (w : GWord) (s : State) : Out :=
  redArith .rmax .max (match Ty.ff w.ty with
    | some f => f.infPat true
    | none => if Ty.signed w.ty then wrapN 64 (-(2 ^ (w.ty.width - 1) : Int)) else 0) w s
/-- R253: T of R204, or +∞. -/
def execRmin (w : GWord) (s : State) : Out :=
  redArith .rmin .min (match Ty.ff w.ty with
    | some f => f.infPat false
    | none => if Ty.signed w.ty then 2 ^ (w.ty.width - 1) - 1 else 2 ^ w.ty.width - 1) w s

/-- R254: contribution j in lane j; with TY MASK, its bit 0 in bit j. -/
def execRjoin (w : GWord) (s : State) : Out :=
  let c := groupC w
  let isMask := w.ty = .mask
  redFire .rjoin w none (fun n => if n % c = 0 then none else some (iterBack n 1)) (fun n => n % c = c - 1)
    (fun _ n r o _ =>
      if o.val.isVec then .error .widthMismatch
      else
        let j := n % c
        let wd := if isMask then 1 else w.ty.width
        let acc := r.v.nat + o.val.nat % 2 ^ wd * 2 ^ (wd * j)
        .ok ({ r with any := true, v := if isMask then sc64 acc else .vec (BitVec.ofNat 512 acc) }, 0))
    (fun _ r => ({ val := r.v }, 0)) s

/-! ### KMERGE -/

/-- The 16 F32 lanes of a chunk (R270). -/
def chunkLanes (v : Val) : List Nat := (List.range 16).map (v.lane 32)

/-- Round(2^x, F32, RNE) of a difference of two F32 patterns taken exactly, with its flags (R282). -/
def exp2Diff (a b : Nat) : Nat × Nat :=
  let d := fvAdd (FF.f32.dec a) (fvNeg (FF.f32.dec b)) .rne
  let e := fvExp2 d.1
  let r := FF.f32.ofFV .rne false e.1
  (r.1, d.2 ||| e.2 ||| r.2)

/-- fl(fl(x × a) + fl(y × b)) with its flags (R282). -/
def mulAdd2 (x a y b : Nat) : Nat × Nat :=
  let p := FF.f32.mul .rne false x a
  let q := FF.f32.mul .rne false y b
  let r := FF.f32.add .rne false p.1 q.1
  (r.1, p.2 ||| q.2 ||| r.2)

/-- One merge step of R282 on the lanes O_0 to O_13, m, l. -/
def mergeDense (run inc : List Nat) : List Nat × Nat :=
  let m := run.getD 14 0
  let m2 := inc.getD 14 0
  let mx := FF.f32.minMax true m m2
  let inf := FF.f32.infPat false
  let ninf := FF.f32.infPat true
  if mx.1 = ninf then (run, mx.2)
  else
    let one := 0x3f800000
    let a := if mx.1 = inf then (if m = inf then one else 0, 0) else exp2Diff m mx.1
    let b := if mx.1 = inf then (if m2 = inf then one else 0, 0) else exp2Diff m2 mx.1
    let l := mulAdd2 (run.getD 15 0) a.1 (inc.getD 15 0) b.1
    let os := (List.range 14).map fun k => mulAdd2 (run.getD k 0) a.1 (inc.getD k 0) b.1
    (os.map (·.1) ++ [mx.1, l.1], os.foldl (fun x o => x ||| o.2) (mx.2 ||| a.2 ||| b.2 ||| l.2))

/-- The score order of two F32 patterns. -/
def scoreLt (a b : Nat) : Bool := fvLt (FF.f32.dec a) (FF.f32.dec b)

/-- Entry `x` ranks before an entry already in the list (R283): a higher score, then the smaller position; the list's
own come from lower partials or earlier places. -/
def ranksBefore (x e : Nat × Nat) : Bool := scoreLt e.1 x.1 || (!scoreLt x.1 e.1 && x.2 < e.2)

/-- Inserts an entry by rank. -/
def insertRank (x : Nat × Nat) : List (Nat × Nat) → List (Nat × Nat)
  | [] => [x]
  | e :: es => if ranksBefore x e then x :: e :: es else e :: insertRank x es

/-- An entry that no chunk has filled (R281). -/
def emptyEntry : Nat × Nat := (0xff800000, 0xffffffff)

/-- R281 to R283. -/
def execKmerge (w : GWord) (s : State) : Out :=
  let c := bits w.imm.imm16 0 8
  let nc := bits w.imm.imm16 8 8
  let j (n : Nat) : Nat := n / nc % c
  if w.mf = 0 then
    redFire .kmerge w none (fun n => if j n = 0 then none else some (iterBack n nc)) (fun n => j n = c - 1)
      (fun _ _ r o _ =>
        if !o.val.isVec then .error .widthMismatch
        else if r.nul then .ok (r, 0)
        else
          let inc0 := chunkLanes o.val
          let nan := (FF.f32.dec (inc0.getD 14 0)).isNan
          let inc := if nan then inc0.set 14 (FF.f32.infPat true) else inc0
          let z := if r.any then mergeDense (chunkLanes r.v) inc else (inc, 0)
          .ok ({ r with any := true, v := joinLanes 32 z.1, ns := r.ns || nan }, z.2))
      (fun _ r =>
        let xs := chunkLanes r.v
        let l := xs.getD 15 0
        let zero := (FF.f32.dec l).isZero
        let os := (List.range 14).map fun k =>
          if zero then (0, 0)
          else
            let q := fvDiv (FF.f32.dec (xs.getD k 0)) (FF.f32.dec l)
            let z := FF.f32.ofFV .rne false q.1
            (z.1, q.2 ||| z.2)
        let v := joinLanes 32 (os.map (·.1) ++ [xs.getD 14 0, FF.f32.canon l])
        ({ val := v, em := zero, ns := hasNan .f32 v }, os.foldl (fun x o => x ||| o.2) 0)) s
  else
    let first (n : Nat) : Bool := n % (c * nc) = 0
    redFire .kmerge w none (fun n => if first n then none else some (iterBack n 1)) (fun n => j n = c - 1)
      (fun _ _ r o _ =>
        if !o.val.isVec then .error .widthMismatch
        else
          let es := (List.range 8).map fun e => (o.val.lane 64 e / 2 ^ 32, o.val.lane 64 e % 2 ^ 32)
          let start := if r.list.isEmpty then List.replicate (8 * nc) emptyEntry else r.list
          .ok ({ r with any := true, list := (es.foldl (fun l x => insertRank x l) start).take (8 * nc) }, 0))
      (fun n r =>
        let k := n % nc
        ({ val := joinLanes 64 ((List.range 8).map fun e =>
            let x := r.list.getD (8 * k + e) emptyEntry
            x.1 * 2 ^ 32 + x.2) }, 0)) s

end Sys2Proof.Machine
end

