-- ==== Sys2Proof/Machine/KeyMatch.lean ====
section
/-!
DEFINITION. The key-match stores (R256 to R280): KCFG, KBIAS, KMASK, KBIND, KUNBIND, KLIFE, KQRY and KSTAT. A command goes
from its unit to the store, or to the stores of a group, as a message; `kmsArrive` is what it does there.
-/

namespace Sys2Proof.Machine

/-! ### Configuration (R257, R273) -/

def cfgDv (v : V512) : Nat := bits v.toNat 24 8
def cfgK (v : V512) : Nat := bits v.toNat 16 8
def cfgKfmt (v : V512) : Nat := bits v.toNat 6 2
def cfgCausal (v : V512) : Bool := bits v.toNat 5 1 = 1
def cfgOfmt (v : V512) : Nat := bits v.toNat 4 1
def cfgOut (v : V512) : Nat := bits v.toNat 2 2
def cfgDense (v : V512) : Bool := bits v.toNat 1 1 = 1
def cfgEmpty (v : V512) : Nat := bits v.toNat 96 32
def cfgScale (v : V512) : Nat := bits v.toNat 64 32
def cfgVstride (v : V512) : Nat := bits v.toNat 128 10

/-- A reserved bit or value of a configuration record (R273). -/
def cfgBad (v : V512) : Bool :=
  let w (k : Nat) : Nat := (wordOf v k).toNat
  bits (w 0) 40 24 != 0 || bits (w 0) 8 8 != 0 || bits (w 0) 0 1 != 0
    || cfgDim v = 0 || 128 < cfgDim v || cfgDv v = 0 || 128 < cfgDv v
    || (if cfgDense v then cfgK v != 0 else cfgK v = 0 || 64 < cfgK v)
    || cfgKfmt v = 3 || 2 ≤ cfgOut v || (cfgOut v = 1 && cfgDense v)
    || bits (w 2) 10 54 != 0 || cfgVstride v % 2 != 0 || cfgVstride v < 2 * cfgDv v || 1022 < cfgVstride v
    || (List.range 5).any fun k => wordOf v (3 + k) != 0

/-- The key format and the keys of a tile (R257). -/
def keyFF (v : V512) : FF := match cfgKfmt v with | 0 => .b16 | 1 => .e4m3 | _ => .e5m2
def keysPerTile (v : V512) : Nat := if cfgKfmt v = 0 then 64 else 128

/-- Chunks of a partial (R270). -/
def cfgNc (v : V512) : Nat := if cfgDense v then (cfgDv v + 13) / 14 else (cfgK v + 7) / 8

def State.kms (s : State) (c st : Nat) : Kms := Tab.get {} (s.cl c).kms st
def State.modKms (s : State) (c st : Nat) (f : Kms → Kms) : State :=
  s.modCl c fun x => { x with kms := Tab.put x.kms st (f (Tab.get {} x.kms st)) }

/-! ### Bindings and mask (R261, R276) -/

/-- A reserved bit or value of a binding record (R276). -/
def bindBad (v : V512) : Bool :=
  let w (k : Nat) : Nat := (wordOf v k).toNat
  bits (w 0) 52 12 != 0 || bits (w 0) 46 2 != 0 || bits (w 0) 32 8 = 0 || 128 < bits (w 0) 32 8 || bits (w 0) 22 10 != 0
    || bits (w 0) 0 22 % 16384 != 0 || 0x3fc000 < bits (w 0) 0 22 || bits (w 1) 32 32 != 0 || bits (w 2) 21 43 != 0
    || w 2 % 2 != 0 || (List.range 5).any fun k => wordOf v (3 + k) != 0

def bindOf (v : V512) : Bind :=
  let w (k : Nat) : Nat := (wordOf v k).toNat
  { head := bits (w 0) 48 4, nk := bits (w 0) 32 8, e := bits (w 0) 0 22, p0 := bits (w 1) 0 32, vbase := bits (w 2) 0 21 }

/-- Bytes from the first value row to the end of the last. -/
def Bind.span (b : Bind) (cfg : V512) : Nat := (b.nk - 1) * cfgVstride cfg + 2 * cfgDv cfg
def Bind.tilesOf (b : Bind) (cfg : V512) : List Nat := rangeTiles b.vbase (b.span cfg)

/-- The tiles that a store's bindings hold (R268). -/
def Kms.tiles (k : Kms) : List Nat := k.slots.foldl (fun l (e : Nat × Bind) => e.2.tiles.foldl (fun l t => setIns t l) l) []

def maskN (m : List Byte) : Nat := bits (leNat (m.take 8)) 32 8
def maskBase (m : List Byte) : Nat := bits (leNat (m.take 8)) 0 13
def maskEntry (m : List Byte) (e : Nat) : Nat := leNat ((m.drop (64 + 8 * e)).take 8)

/-- A mask block fails the checks of R261. -/
def maskBad (m : List Byte) : Bool :=
  let w (k : Nat) : Nat := leNat ((m.drop (8 * k)).take 8)
  let n := maskN m
  bits (w 0) 40 24 != 0 || bits (w 0) 13 19 != 0 || 16 < n || 8192 < maskBase m + n || bits (w 1) 32 32 != 0
    || (List.range 6).any (fun k => w (2 + k) != 0)
    || (List.range n).any fun e =>
      let x := maskEntry m e
      bits x 32 32 != (bits (w 1) 0 32 + bits x 16 16) % 2 ^ 32 || bits x e 1 = 0 || bits x n (16 - n) != 0

/-! ### Scoring (R258 to R263) -/

/-- A key as the query sees it: store index, position, its binding's slot and its number there. -/
structure Key where
  x : Nat
  pos : Nat
  slot : Nat
  i : Nat
deriving DecidableEq, Repr

/-- A query: the row's elements, position, head and draft node. -/
structure Query where
  row : List Byte
  pos : Nat
  head : Nat
  a : Nat
deriving DecidableEq, Repr

/-- R260. -/
def bucketOf (d : Nat) : Nat :=
  if d ≤ 7 then d
  else if d ≤ 511 then
    let l := Nat.log2 d
    8 + 4 * (l - 3) + bits d (l - 2) 2
  else 31

/-- The candidates of a query (R258), in store order, and its position. -/
def candidates (k : Kms) (q : Query) : List Key × Nat :=
  let mask := k.mask.getD []
  let n := if k.mask.isSome then maskN mask else 0
  let qpos := if q.a = 31 then q.pos else bits (maskEntry mask q.a) 32 32
  let keys := k.slots.flatMap fun (e : Nat × Bind) =>
    if e.2.head != q.head then []
    else (List.range e.2.nk).filterMap fun i =>
      let x := e.1 * 128 + i
      let draft := maskBase mask ≤ x && x < maskBase mask + n
      let d := x - maskBase mask
      let pos := if draft then bits (maskEntry mask d) 32 32 else (e.2.p0 + i) % 2 ^ 32
      if draft && (q.a = 31 || bits (maskEntry mask q.a) d 1 = 0) then none
      else if cfgCausal k.cfg && pos > qpos then none
      else some { x := x, pos := pos, slot := e.1, i := i }
  (keys, qpos)

/-- Where element `d` of a key lies in the weight store of a cluster, and its bytes (R257). -/
def keyAt (c : Nat) (cfg : V512) (b : Bind) (d i : Nat) : Nat × Nat :=
  if cfgKfmt cfg = 0 then (wsKey c (b.e + 128 * d + 2 * i), 2) else (wsKey c (b.e + 128 * d + i), 1)

/-- Reads `n` bytes of the pieces that a query has read. -/
def KScore.at_ (t : KScore) (k n : Nat) : Nat := Tab.get 0 t.rd (k / 32 * 32) / 2 ^ (8 * (k % 32)) % 2 ^ (8 * n)

/-- The score of a candidate and its flags (R259). `rd` reads bytes at a key. -/
def scoreOf (rd : Nat → Nat → Nat) (c : Nat) (k : Kms) (q : Query) (qpos : Nat) (x : Key) : Nat × Nat :=
  let b := Tab.get ({} : Bind) k.slots x.slot
  let dot := sumF ((List.range (cfgDim k.cfg)).map fun d =>
    let a := keyAt c k.cfg b d x.i
    prodF (FF.b16.dec (elAt 16 q.row d)) ((keyFF k.cfg).dec (rd a.1 a.2)))
  let sc := FF.f32.mul .rne false dot.1 (cfgScale k.cfg)
  let dist := if cfgCausal k.cfg then qpos - x.pos else (qpos - x.pos) + (x.pos - qpos)
  let bias := (Tab.get (0 : BitVec 32) k.bias (q.head * 32 + bucketOf dist)).toNat
  let r := FF.f32.add .rne false sc.1 bias
  (r.1, dot.2 ||| sc.2 ||| r.2)

/-- A scored key ranks before another (R262). -/
def keyBefore (a b : Key × Nat) : Bool :=
  scoreLt b.2 a.2 || (!scoreLt a.2 b.2 && (a.1.pos < b.1.pos || (a.1.pos = b.1.pos && a.1.x < b.1.x)))

/-- The score can be selected (R262). -/
def selectable (sc : Nat) : Bool := !(FF.f32.dec sc).isNan && sc != FF.f32.infPat true

/-- What a query selects and sums (R262, R263): the selected keys by rank with score and weight, m, l, O, the flags, and
whether a score was NaN. -/
structure Scored where
  sel : List (Key × Nat × Nat)
  m : Nat
  l : Nat
  o : List Nat
  fl : Nat
  nan : Bool
deriving DecidableEq, Repr

/-- The value row of a key: its place in the scratchpad. -/
def valAt (c : Nat) (k : Kms) (x : Key) (n : Nat) : Nat :=
  spKey c ((Tab.get ({} : Bind) k.slots x.slot).vbase + x.i * cfgVstride k.cfg + 2 * n)

/-- R258 to R263. -/
def scoreQuery (rd : Nat → Nat → Nat) (c : Nat) (k : Kms) (q : Query) : Scored :=
  let cs := candidates k q
  let sc := cs.1.map fun x => (x, scoreOf rd c k q cs.2 x)
  let nan := sc.any fun e => (FF.f32.dec e.2.1).isNan
  let fl := sc.foldl (fun f e => f ||| e.2.2) 0
  let ranked := sortBy keyBefore ((sc.filter fun e => selectable e.2.1).map fun e => (e.1, e.2.1))
  let sel := if cfgDense k.cfg then ranked else ranked.take (cfgK k.cfg)
  let m := (sel.head?.map (·.2)).getD (FF.f32.infPat true)
  let one := 0x3f800000
  let ws := sel.map fun e =>
    let w := if m = FF.f32.infPat false then (if e.2 = m then (one, 0) else (0, 0)) else exp2Diff e.2 m
    (e.1, e.2, w.1, w.2)
  let fl := ws.foldl (fun f e => f ||| e.2.2.2) fl
  let order := sortBy (fun a b => a.1.pos < b.1.pos || (a.1.pos = b.1.pos && a.1.x < b.1.x)) (ws.map fun e => (e.1, e.2.2.1))
  let z := order.foldl (fun (a : Nat × List Nat × Nat) e =>
    let l := FF.f32.add .rne false a.1 e.2
    let os := (List.range (cfgDv k.cfg)).map fun n =>
      let v := FF.f32.ofFV .rne false (FF.b16.dec (rd (valAt c k e.1 n) 2))
      let p := FF.f32.mul .rne false e.2 v.1
      let r := FF.f32.add .rne false (a.2.1.getD n 0) p.1
      (r.1, v.2 ||| p.2 ||| r.2)
    (l.1, os.map (·.1), os.foldl (fun f o => f ||| o.2) (a.2.2 ||| l.2))) (0, List.replicate (cfgDv k.cfg) 0, fl)
  { sel := ws.map fun e => (e.1, e.2.1, e.2.2.1), m := m, l := z.1, o := z.2.1, fl := z.2.2, nan := nan }

/-! ### Output (R264, R265, R270) -/

/-- A vector token of lanes of width `w`, with its status. -/
def laneTok (w : Nat) (ls : List Nat) (ff : Option FF) (nan em : Bool) : Kd × Opnd :=
  let v := joinLanes w ls
  (.data, { val := v, ns := nan || (match ff with | none => false | some f => hasNan f v), em := em })

/-- R264: the elements of the result, and the flags of their rounding. -/
def weightedElems (cfg : V512) (z : Scored) : List Nat × Nat :=
  let b16 := cfgOfmt cfg = 1
  let narrow (x : Nat) : Nat × Nat := if b16 then FF.b16.ofFV .rne false (FF.f32.dec x) else (x, 0)
  let es := (List.range (cfgDv cfg)).map fun n =>
    if (FF.f32.dec z.l).isZero then narrow (cfgEmpty cfg)
    else
      let d := fvDiv (FF.f32.dec (z.o.getD n 0)) (FF.f32.dec z.l)
      let r := FF.f32.ofFV .rne false d.1
      let t := narrow r.1
      (t.1, d.2 ||| r.2 ||| t.2)
  (es.map (·.1), es.foldl (fun f e => f ||| e.2) 0)

/-- The tokens of a query that is not a partial, and their flags. -/
def fullToks (cfg : V512) (z : Scored) : List (Kd × Opnd) × Nat :=
  if cfgOut cfg = 1 then
    ((List.range (cfgK cfg)).map fun r =>
      match z.sel[r]? with
      | none => (.null, { null := true, ns := z.nan })
      | some (x, _, w) => (.fire, { val := sc64 (x.pos * 2 ^ 32 + w), ns := z.nan }), 0)
  else
    let es := weightedElems cfg z
    let w := if cfgOfmt cfg = 1 then 16 else 32
    let per := 512 / w
    ((List.range ((cfgDv cfg + per - 1) / per)).map fun t =>
      laneTok w ((es.1.drop (per * t)).take per) (some (if w = 16 then .b16 else .f32)) z.nan (FF.f32.dec z.l).isZero, es.2)

/-- The tokens of a partial (R270). -/
def partToks (cfg : V512) (z : Scored) : List (Kd × Opnd) :=
  (List.range (cfgNc cfg)).map fun c =>
    if cfgDense cfg then
      laneTok 32 (((List.range 14).map fun n => z.o.getD (14 * c + n) 0) ++ [z.m, z.l]) none z.nan false
    else
      laneTok 64 ((List.range 8).map fun e =>
        match z.sel[8 * c + e]? with
        | none => 0xff800000ffffffff
        | some (x, sc, _) => sc * 2 ^ 32 + x.pos) none z.nan false

/-! ### What a command does at its store (R267) -/

/-- The command is one of a group: it goes to several stores, and a query sends a partial. -/
def Cmd.kgrp (m : Cmd) : Bool :=
  match m.op with
  | .kbind | .kqry => bits m.sub 0 1 = 1
  | .kunbind => bits m.sub 1 1 = 1
  | _ => false
def Cmd.kpart (m : Cmd) : Bool := m.op = .kqry && (bits m.sub 0 1 = 1 || bits m.sub 1 1 = 1)

/-- The clusters whose stores a command goes to, by rank. -/
def State.kmsTo (s : State) (c : Nat) (m : Cmd) : List Nat :=
  if m.kgrp then (s.group m.nk (bits m.imm 0 8)).foldl (fun l d => setIns d l) [] else [c]

/-- The command has taken effect at a store: it counts for its unit, or fails it. -/
def State.kmsDone (s : State) (m : Cmd) (c0 st : Nat) (bad : Option Pending) : State :=
  s.modCmd c0 (10 + st) m.id fun x =>
    { x with got := x.got ++ [(x.got.length, 0)], tiles := []
             fail0 := match x.fail0 with | some f => some f | none => bad }

/-- A tile of the list is not ENGINE-owned. -/
def Cluster.notEng (x : Cluster) (ts : List Nat) : Bool := ts.any fun t => !x.engTiles.contains t

/-- A byte range of a scratchpad meets an uncorrectable error. -/
def spBad (s : State) (c off n : Nat) : Bool := (List.range (n / 32 + 2)).any fun j =>
  off / 32 * 32 + 32 * j < off + n && badAt s (spKey c (off / 32 * 32 + 32 * j))

/-- A failure of a query on its arrival: the draft node, and where its row lies (R258, R278). -/
def queryBad (s : State) (c : Nat) (k : Kms) (m : Cmd) (row : Option (List Byte)) : Option Pending :=
  let f (cz : Cause) (va spc : Nat) : Option Pending := some { m.pending cz with va := va, spc := spc }
  let off := bits m.lv 0 21
  let n := 2 * cfgDim k.cfg
  let a := bits m.rv 36 5
  let cnt := if k.mask.isSome then maskN (k.mask.getD []) else 0
  if a != 31 && a ≥ cnt then f .badMask 0 7
  else if row.isNone && off + n > 0x180000 then f .addressOutOfRange off 0
  else if row.isNone && (s.cl c).notEng (rangeTiles off n) then f .ownerViolation off 0
  else none

/-- The 32-byte pieces of `n` bytes from a key. -/
def pieces32 (k n : Nat) : List Nat := (List.range ((k % 32 + n + 31) / 32)).map fun j => k / 32 * 32 + 32 * j

/-- The pieces that a query reads before it can select: its row and the key tiles of its head, each with the failure that it may
meet (R267, R280): its location and address and space in a record, and the tile that has to be ENGINE-owned. -/
def keyPieces (c : Nat) (k : Kms) (m : Cmd) (row : Option (List Byte)) : List (Nat × Nat × Nat × Nat × Option Nat) :=
  let off := bits m.lv 0 21
  let ofRow := if row.isSome then [] else
    (pieces32 (spKey c off) (2 * cfgDim k.cfg)).map fun p => (p, 0, off, 0, some (p % 2 ^ 21 / 4096))
  ofRow ++ k.slots.flatMap fun (e : Nat × Bind) =>
    if e.2.head != bits m.rv 32 4 then []
    else (List.range (cfgDim k.cfg)).flatMap fun d =>
      (pieces32 (wsKey c (e.2.e + 128 * d)) ((keyAt c k.cfg e.2 0 e.2.nk).1 - wsKey c e.2.e)).map fun p => (p, 1, e.2.e, 7, none)

/-- The pieces of the value rows of the keys selected. -/
def valPieces (c : Nat) (k : Kms) (sel : List Nat) : List (Nat × Nat × Nat × Nat × Option Nat) :=
  sel.flatMap fun x =>
    (pieces32 (valAt c k { x := x, pos := 0, slot := x / 128, i := x % 128 } 0) (2 * cfgDv k.cfg)).map fun p =>
      (p, 0, p % 2 ^ 21, 0, some (p % 2 ^ 21 / 4096))

/-- The query of a command. -/
def queryOf (c : Nat) (k : Kms) (m : Cmd) (row : Option (List Byte)) (t : KScore) : Query :=
  let bs := (List.range (2 * cfgDim k.cfg)).map fun (i : Nat) => BitVec.ofNat 8 (t.at_ (spKey c (bits m.lv 0 21) + i) 1)
  { row := row.getD bs, pos := bits m.rv 0 32, head := bits m.rv 32 4, a := bits m.rv 36 5 }

/-- What a query sends out, and where it stands in its store (R262 to R266, R270, R278, R280). -/
def State.kmsOut (s : State) (c st : Nat) (o : KOut) : State := s.modKms c st fun k => { k with outs := k.outs ++ [o] }
def State.kmsFail (s : State) (c st : Nat) (m : Cmd) (j c0 : Nat) (cfg : V512) (f : Pending) (ns : Bool := false) : State :=
  let nulls : List (Kd × Opnd) := if m.kgrp then List.replicate (cfgNc cfg) (.null, { Opnd.nullEr with ns := ns }) else []
  s.kmsOut c st { c := c0, id := m.id, j := j, toks := nulls, bad := some f }

/-- A query has read all it needs: its effect on its store and its output (R262 to R266, R270). -/
def State.kmsQuery (s : State) (c st : Nat) (m : Cmd) (j c0 : Nat) (q : Query) (rd : Nat → Nat → Nat) : State :=
  let k := s.kms c st
  let z := scoreQuery rd c k q
  let full := fullToks k.cfg z
  let toks := if m.kpart then (partToks k.cfg z, 0) else full
  let fired (b : Nat) : Bool := z.sel.any fun e => e.1.slot = b
  let spend (e : Nat × Bind) : Option (Nat × Bind) :=
    if !fired e.1 || e.2.life = 0 then some e
    else if e.2.life = 2 || e.2.count ≤ 1 then none
    else some (e.1, { e.2 with count := e.2.count - 1 })
  let s := s.modKms c st fun k => { k with
    slots := k.slots.filterMap spend
    flags := k.flags ||| z.fl ||| toks.2
    nan := k.nan || z.nan
    qcnt := (k.qcnt + 1) % 2 ^ 32 }
  if z.nan && bits m.fctl 9 1 = 1 then s.kmsFail c st m j c0 k.cfg (m.pending .nanScore) true
  else s.kmsOut c st { c := c0, id := m.id, j := j, toks := toks.1, tiles := k.tiles }

/-- A query at its store goes on (R267): it arrives, reads a piece in any order, selects, or is scored. The second part is what it
has read, while it is not done. -/
def State.kmsScore (s : State) (c st : Nat) (m : Cmd) (j c0 : Nat) (row : Option (List Byte)) (t : Option KScore) :
    State × Option KScore :=
  let k := s.kms c st
  let fail (f : Pending) : State × Option KScore :=
    ((s.kmsFail c st m j c0 k.cfg f).modCmd c0 (10 + st) m.id fun x => { x with tiles := [] }, none)
  match t with
  | none => match queryBad s c k m row with | some f => fail f | none => (s, some {})
  | some t =>
    let todo := match t.sel with | none => keyPieces c k m row | some xs => valPieces c k xs
    let left := todo.filter fun p => (Tab.find t.rd p.1).isNone
    match left[s.choice left.length]? with
    | some (p, aux, va, spc, tile) =>
      if tile.any fun t => !(s.cl c).engTiles.contains t then fail { m.pending .ownerViolation with va := va, spc := spc }
      else if badAt s p then fail { m.pending .uncorrectableError with aux := aux, va := va, spc := spc }
      else (s, some { t with rd := Tab.put t.rd p (memRead s p 32) })
    | none =>
      let q := queryOf c k m row t
      match t.sel with
      | none =>
        (s.modCmd c0 (10 + st) m.id fun x => { x with tiles := [] },
          some { t with sel := some ((scoreQuery t.at_ c k q).sel.map fun e => e.1.x) })
      | some _ => (s.kmsQuery c st m j c0 q t.at_, none)

/-- Another query is being scored at the store (R267). -/
def State.kmsBusy (s : State) (c st : Nat) : Bool :=
  s.inbox.any fun p => p.dst = c && match p.body with | .kms st' _ _ _ _ _ (some _) => st' = st | _ => false

/-- The store is configured, and a member's store as the issuing cluster's is: a query may be scored (R256, R271). -/
def State.kmsAlike (s : State) (c st : Nat) (m : Cmd) (cfg : V512) : Bool :=
  let k := s.kms c st
  cfgDim k.cfg != 0 && (!m.kgrp
    || (cfgDim k.cfg = cfgDim cfg && cfgDense k.cfg = cfgDense cfg && cfgK k.cfg = cfgK cfg && cfgDv k.cfg = cfgDv cfg))

/-- A command that is no query, or a query that fails on its configuration, takes effect at store `st` of cluster `c` (R267). `c0`
is the issuing cluster, `j` the member's rank. -/
def State.kmsTake (s : State) (c st j c0 : Nat) (m : Cmd) (cfg : V512) : State :=
  let k := s.kms c st
  let bad (s : State) (cz : Cause) (va : Nat := 0) (spc : Nat := 7) (aux : Nat := 0) : State :=
    s.kmsDone m c0 st (some { m.pending cz with va := va, spc := spc, aux := aux })
  let ok (s : State) : State := s.kmsDone m c0 st none
  if cfgDim k.cfg = 0 && m.op != .kcfg && m.op != .kstat then
    if m.op = .kqry && m.kgrp then s.kmsFail c st m j c0 cfg (m.pending .storeState)
    else bad s .storeState
  else
    match m.op with
    | .kcfg => ok (s.modKms c st fun k => { k with cfg := m.lvec, slots := [], mask := none })
    | .kbias =>
      let base := bits m.imm 0 4 * 32 + bits m.imm 4 1 * 16
      ok (s.modKms c st fun k => { k with
        bias := (List.range 16).foldl (fun t i => Tab.putD 0 t (base + i) (m.lvec.extractLsb' (32 * i) 32)) k.bias })
    | .kmask =>
      let off := bits m.lv 0 21
      if bits m.lv 21 43 != 0 || off % 64 != 0 || off + 64 > 0x180000 then bad s .addressOutOfRange off 0
      else if (s.cl c).notEng (rangeTiles off 64) then bad s .ownerViolation off 0
      else if spBad s c off 64 then bad s .uncorrectableError off 0
      else
        let n := maskN (memBytes s (spKey c off) 64)
        let len := 64 + 8 * min n 16
        if off + len > 0x180000 then bad s .addressOutOfRange off 0
        else if (s.cl c).notEng (rangeTiles off len) then bad s .ownerViolation off 0
        else if spBad s c off len then bad s .uncorrectableError off 0
        else
          let b := memBytes s (spKey c off) len
          if maskBad b then bad s .badMask
          else ok (s.modKms c st fun k => { k with mask := if n = 0 then none else some b })
    | .kbind =>
      let b := bindOf m.lvec
      if b.nk > keysPerTile k.cfg || b.vbase + b.span k.cfg > 0x180000 then bad s .storeState
      else if (s.cl c).notEng (b.tilesOf k.cfg) then bad s .ownerViolation b.vbase 0
      else ok (s.modKms c st fun k => { k with slots := Tab.put k.slots (bits (wordOf m.lvec 0).toNat 40 6) { b with tiles := b.tilesOf k.cfg } })
    | .kunbind =>
      ok (s.modKms c st fun k => { k with slots := if bits m.sub 0 1 = 1 then [] else Tab.del k.slots (bits m.lv 0 6) })
    | .klife =>
      match Tab.find k.slots (bits m.lv 0 6) with
      | none => bad s .storeState
      | some b =>
        ok (s.modKms c st fun k => { k with
          slots := Tab.put k.slots (bits m.lv 0 6) { b with life := bits m.imm 0 2, count := m.rv % 2 ^ 32 } })
    | .kqry => s.kmsFail c st m j c0 cfg (m.pending .storeState)
    | _ =>
      let w := k.qcnt * 2 ^ 32 + k.slots.length * 2 ^ 16 + k.flags % 32 * 2 ^ 10 + k.nan.toNat * 2 ^ 9
        + (cfgDim k.cfg != 0).toNat
      s.modKms c st fun k => { k with
        outs := k.outs ++ [{ c := c0, id := m.id, j := j, toks := [(.data, Opnd.ofNat w)] }]
        flags := if bits m.sub 0 1 = 1 then 0 else k.flags
        nan := if bits m.sub 0 1 = 1 then false else k.nan }

/-- A command at its store: none while a query is being scored there (R267); else what is still to do of a query. -/
def State.kmsArrive (s : State) (c st j c0 : Nat) (m : Cmd) (row : Option (List Byte)) (cfg : V512) (t : Option KScore) :
    Option (State × Option KScore) :=
  if t.isNone && s.kmsBusy c st then none
  else if m.op = .kqry && (t.isSome || s.kmsAlike c st m cfg) then some (s.kmsScore c st m j c0 row t)
  else some (s.kmsTake c st j c0 m cfg, none)

/-! ### At the issuing cluster -/

/-- No output of an earlier command of the node for the same queue still stands at the store (R267, R278). -/
def State.outTurn (s : State) (c st : Nat) (m : Cmd) (d : Nat) : Bool :=
  match (s.kms d st).outs.find? fun o => o.c = c && (s.unit c (10 + st)).any fun x =>
      x.id = o.id && x.nk = m.nk && x.queue = m.queue && x.place.isNone with
  | some o => o.id = m.id
  | none => true

/-- One token of a member's output enters the queue, if there is room (R46, R271); a member that has sent all is done. -/
def State.kmsSend (s : State) (c st : Nat) (m : Cmd) (d : Nat) (o : KOut) : State :=
  let upd (f : KOut → KOut) (s : State) : State := s.modKms d st fun k => { k with
    outs := k.outs.map fun x => if x.c = c && x.id = m.id && x.j = o.j then f x else x }
  match o.toks with
  | [] =>
    (s.modKms d st fun k => { k with outs := k.outs.filter fun x => !(x.c = c && x.id = m.id && x.j = o.j) }).kmsDone m c st o.bad
  | (kd, t) :: ts =>
    match m.place with
    | some (q, p) =>
      let at_ := p + o.j * (m.places / max 1 (s.kmsTo c m).length) + o.k
      if (s.nd m.nk).placeRoom q at_ then
        upd (fun x => { x with toks := ts, k := x.k + 1 }) (s.fillPlace m.nk q at_ kd (m.mark t))
      else s
    | none =>
      if s.outTurn c st m d && (s.nd m.nk).queueRoom m.queue then upd (fun x => { x with toks := ts, k := x.k + 1 }) (s.enqueue m.nk m.queue (m.mark t) kd)
      else s

/-- A key-match command in its unit: it leaves for its stores; its tokens enter the queue, those of member `piece`; and it
ends when every store is done. -/
def kmsWork (i : Issue) (m : Cmd) (s : State) : State :=
  let st := i.u - 10
  let ds := s.kmsTo i.c m
  if !m.started then
    let cfg := cfgAhead s i.c st
    let off := bits m.lv 0 21
    let n := 2 * cfgDim (s.kms i.c st).cfg
    let grp := m.op = .kqry && m.kgrp
    let cfgNow := (s.kms i.c st).cfg
    if grp && (s.unit i.c i.u).any (fun x => x.op = .kcfg && x.id < m.id && !x.finished) then s
    else if grp && cfgDim cfg = 0 then s.failWith i.c i.u m .storeState
    else if grp && off + n > 0x180000 then s.failWith i.c i.u m .addressOutOfRange 0 off 0
    else if grp && (s.cl i.c).notEng (rangeTiles off n) then s.failWith i.c i.u m .ownerViolation 0 off 0
    else if grp && m.buf.length < n then
      if badAt s (spKey i.c (off + m.buf.length)) then s.failWith i.c i.u m .uncorrectableError 0 off 0
      else
        let k := min 32 (n - m.buf.length)
        s.modCmd i.c i.u m.id fun x => { x with buf := x.buf ++ memBytes s (spKey i.c (off + m.buf.length)) k }
    else
      let row := if grp then some m.buf else none
      let s := s.modCmd i.c i.u m.id fun x => { x with started := true, tiles := if grp then [] else x.tiles }
      let b (j : Nat) : Msg := .kms st j i.c m row cfgNow none
      s.postAll { src := i.c, dst := 0, cls := 0, part := m.part, n := (row.getD []).length, body := b 0 }
        ((List.range ds.length).map fun j => (ds.getD j 0, b j))
  else if m.got.length ≥ ds.length then
    match m.fail0 with
    | some f => s.failCmd i.c i.u m f
    | none => s.finishCmd i.c i.u m
  else
    let outs := (List.range ds.length).filterMap fun j =>
      ((s.kms (ds.getD j 0) st).outs.find? fun o => o.c = i.c && o.id = m.id && o.j = j).map fun o => (ds.getD j 0, o)
    match outs[i.piece % max 1 outs.length]? with
    | none => s
    | some (d, o) => s.kmsSend i.c st m d o

/-- The places a group query reserves (R271): its chunks are those of the configuration in force when it works, `cfgs` being
those that are issued before it and not yet in the unit. -/
def kqryPlaces (s : State) (c nk : Nat) (w : EWord) (cfgs : List (Nat × V512)) : Nat :=
  let cfg := ((cfgs.find? fun e => e.1 = w.unit.toNat).map (·.2)).getD (cfgAhead s c w.unit.toNat)
  if bits w.sub.toNat 0 1 = 1 then ((s.group nk (bits w.imm.toNat 0 8)).foldl (fun l d => setIns d l) []).length * cfgNc cfg
  else 0

def execKcfg (w : EWord) (s : State) : Out :=
  eExec .kcfg (.kcfg w) w { l := .vec } (fun i _ _ => if cfgBad i.lvec then some .reservedCode else none) kmsWork s
def execKbias (w : EWord) (s : State) : Out := eExec .kbias (.kbias w) w { l := .vec } (fun _ _ _ => none) kmsWork s
def execKmask (w : EWord) (s : State) : Out := eExec .kmask (.kmask w) w { l := .sc } (fun _ _ _ => none) kmsWork s
def execKbind (w : EWord) (s : State) : Out :=
  eExec .kbind (.kbind w) w { l := .vec } (fun i _ _ => if bindBad i.lvec then some .reservedCode else none) kmsWork s
def execKunbind (w : EWord) (s : State) : Out :=
  eExec .kunbind (.kunbind w) w { l := .sc } (fun i _ _ => if bits i.lv 6 58 != 0 then some .reservedCode else none) kmsWork s
def execKlife (w : EWord) (s : State) : Out :=
  let cnt := bits w.imm.toNat 0 2 = 1
  eExec .klife (.klife w) w { l := .sc, r := if cnt then .sc else .no }
    (fun i _ _ =>
      if bits i.lv 6 58 != 0 || (cnt && (i.rv = 0 || 2 ^ 32 ≤ i.rv)) then some .reservedCode else none) kmsWork s
def execKqry (w : EWord) (s : State) : Out :=
  eExec .kqry (.kqry w) w { l := .sc, r := .sc }
    (fun i _ _ =>
      if bits i.lv 21 43 != 0 || bits i.lv 0 6 != 0 || bits i.rv 41 23 != 0 then
        some .reservedCode
      else none) kmsWork s
def execKstat (w : EWord) (s : State) : Out := eExec .kstat (.kstat w) w { l := .any } (fun _ _ _ => none) kmsWork s

end Sys2Proof.Machine
end

