-- ==== Sys2Proof/Machine/Plumb.lean ====
section
/-!
DEFINITION. The plumbing instructions (R68 to R74), the exits (R75, R76) and BINV (R77).
-/

namespace Sys2Proof.Machine

/-- R69: consumes its L token, whatever its kind. -/
def execNop (w : GWord) (s : State) : Out := gOwn .nop w false (fun _ _ _ s => s) s

/-- R69: the immediate of R61 as a 64-bit scalar, to both targets. -/
def execConst (w : GWord) (s : State) : Out :=
  gOwn .const w (gEffect w) (fun i _ st s =>
    let o : Opnd := { val := sc64 (immVal w.ty w.imm) }
    s.sendBoth i w (gEffect w) st o o) s

/-- The operand goes to both targets as it is, its status bits unchanged (R69, R73). -/
def State.forward (s : State) (i : Issue) (w : GWord) (o : Opnd) : State := s.sendBoth i w (gEffect w) {} o o

/-- R69: forwards L, its status bits unchanged. -/
def execMov (w : GWord) (s : State) : Out :=
  gOwn .mov w (gEffect w) (fun i _ _ s =>
    match i.l with
    | none => s
    | some l => s.forward i w (if l.null then Opnd.nullWith l.status else l)) s
    (fun i => w.nm = .absorb && isNull i.l)

/-- The committed value of a global (R70). -/
def Node.global (n : Node) (file num : Nat) : Val :=
  match file with
  | 0 => .sc (Tab.get 0 n.g num)
  | 1 => .vec (Tab.get 0 n.v num)
  | _ => .sc (Tab.get 0 n.m num)

/-- The index of a global among the 96 of a node: g, v, m. -/
def globalIndex (file num : Nat) : Nat :=
  match file with
  | 0 => num
  | 1 => 64 + num
  | _ => 80 + num

/-- R70, R36: waits until every older invocation has committed, then sends the committed value. A global that holds an
uncorrectable error faults (R397). -/
def execRead (w : GWord) (s : State) : Out :=
  match s.sched.cur with
  | none => .next s
  | some i =>
    match s.invOf i with
    | none => .next s
    | some v =>
      let eff := gEffect w
      let n := s.nd i.nk
      let imm := w.imm.imm16
      if !predHolds w.prd i then .next (s.absorb i eff)
      else if eff && i.status.er then .next (s.fault i .read .errorOperand)
      else if !n.oldest v.age then .next s.waits
      else if n.gErr.contains (globalIndex (bits imm 7 2) (bits imm 1 6)) then
        .next (s.fault i .read .uncorrectableError fun p => { p with aux := 6 })
      else
        let o : Opnd := { val := n.global (bits imm 7 2) (bits imm 1 6) }
        .next (s.sendBoth i w eff i.status o o)

/-- R70, R36: holds L until commit; a null L is absorbed. -/
def execWrite (w : GWord) (s : State) : Out :=
  gOwn .write w true (fun i _ _ s =>
    match i.l, w.t0 with
    | some l, .glob file num =>
      if l.val.isVec != (file = .v) then s.fault i .write .widthMismatch
      else (s.hold i (.glob i.ix file num.toNat l.val)).report i true
    | _, _ => s) s (fun i => isNull i.l)

/-- The port that MERGE's predicate selects; none when the predicate is null (R71). -/
def mergeSel (i : Issue) : Option Opnd :=
  match i.pr with
  | some p => if p.null then none else if p.val.bit0 then i.l else i.r
  | none => none

/-- R71: L to T0 when the predicate is 1, to T1 otherwise. A null on P or L passes nulls to both targets or is absorbed. -/
def execSteer (w : GWord) (s : State) : Out :=
  let eff := gEffect w
  gOwn .steer w eff (fun i _ st s =>
    match i.pr, i.l with
    | some p, some l =>
      if p.null || l.null then s.sendBoth i w eff {} (Opnd.nullWith st) (Opnd.nullWith st)
      else
        let s := s.send i (if p.val.bit0 then w.t0 else w.t1) .data (l.plus st)
        if eff then s.report i true else s
    | _, _ => s) s (fun i => w.nm = .absorb && (isNull i.pr || isNull i.l))

/-- R71: L or R, as the predicate selects, to both targets. -/
def execMerge (w : GWord) (s : State) : Out :=
  let eff := gEffect w
  gOwn .merge w eff (fun i _ _ s =>
    let st := statusOf [i.pr, mergeSel i]
    match mergeSel i with
    | some o =>
      if o.null then s.sendBoth i w eff {} (Opnd.nullWith st) (Opnd.nullWith st) else s.sendBoth i w eff st o o
    | none => s.sendBoth i w eff {} (Opnd.nullWith st) (Opnd.nullWith st)) s
    (fun i => w.nm = .absorb && (isNull i.pr || isNull (mergeSel i)))

/-- R72: a bit operation on bit 0 of two scalars. -/
def bitOp (op : Op) (w : GWord) (idn : Nat) (f : Bool → Bool → Bool) (s : State) : Out :=
  gFire op w w.ty (some (sc64 idn, sc64 idn)) (fun _ l r _ =>
    if l.val.isVec || r.val.isVec then .fault .widthMismatch
    else .one (sc64 (f l.val.bit0 r.val.bit0).toNat)) s

def execPand (w : GWord) (s : State) : Out := bitOp .pand w 1 (fun a b => a && b) s
def execPor (w : GWord) (s : State) : Out := bitOp .por w 0 (fun a b => a || b) s
def execPxor (w : GWord) (s : State) : Out := bitOp .pxor w 0 (fun a b => a != b) s

/-- R72: the complement of bit 0. -/
def execPnot (w : GWord) (s : State) : Out :=
  gFire .pnot w w.ty none (fun _ l _ _ =>
    if l.val.isVec then .fault .widthMismatch else .one (sc64 (!l.val.bit0).toNat)) s

/-- R73: the iteration number, or with `.SLOT` the window slot. -/
def execIterid (w : GWord) (s : State) : Out :=
  gOwn .iterid w (gEffect w) (fun i v st s =>
    let o : Opnd := { val := sc64 (if w.mf = 1 then v.ws else v.n % 2 ^ 32) }
    s.sendBoth i w (gEffect w) st o o) s

/-- R73: 1 when L is null, else 0; a null L contributes no status. -/
def execNullq (w : GWord) (s : State) : Out :=
  gOwn .nullq w (gEffect w) (fun i _ _ s =>
    let st := if isNull i.l then statusOf [i.pr] else i.status
    let o : Opnd := { val := sc64 (isNull i.l).toNat }
    s.sendBoth i w (gEffect w) st o o) s

/-- R73: a non-null L unchanged; a null L becomes the immediate, as a scalar or in every lane. -/
def execNfill (w : GWord) (s : State) : Out :=
  gOwn .nfill w (gEffect w) (fun i _ st s =>
    match i.l with
    | none => s
    | some l =>
      let x := immVal w.ty w.imm
      let fill : Opnd :=
        { val := if w.mf = 1 then joinLanes w.ty.width (List.replicate (Ty.lanes w.ty) x) else sc64 x }
      if l.null then s.sendBoth i w (gEffect w) st fill fill else s.forward i w l) s

/-- R74: L, as MOV would send it, to slots of iteration n + 1, at once. -/
def execNiter (w : GWord) (s : State) : Out :=
  gOwn .niter w false (fun i v _ s =>
    match i.l with
    | none => s
    | some l =>
      let o := if l.null then Opnd.nullWith l.status else l
      let n1 := (v.n + 1) % 2 ^ 32
      let wd := ((s.nd i.nk).hdr.map Header.w).getD 1
      let put (s : State) (t : Target) : State :=
        match t with
        | .slot ix pt => s.sendSlot i.c i.p ix.toNat (n1 % wd) (n1 % 65536) pt .data o
        | _ => s
      put (put s w.t0) w.t1) s (fun i => w.nm = .absorb && isNull i.l)

/-! ### Exits -/

/-- The exit of an issue reports performed and is held to commit (R75, R76). A thread-style node may start the next
iteration once an exit naming the mapped block has fired (R37). -/
def State.exitTo (s : State) (i : Issue) (v : Inv) (op : Op) (call : Bool) (d : Option Nat) : State :=
  let bad := match d with
    | none => false
    | some a => a > 2 ^ 52 - 64 || a % 64 != 0
  let second := v.held.any fun h => match h with | .exit _ _ _ => true | _ => false
  if bad then s.fault i op .badBlockAddress
  else if second then s.fault i op .doubleExit
  else
    let s := (s.hold i (.exit i.ix call d)).report i true
    s.modNd i.nk fun n =>
      if d = some n.pc && (v.n + 1) % 2 ^ 32 = n.next && !((n.hdr.map (·.stm)).getD false) then { n with okNext := true } else n

/-- How an exit fires: a null L is absorbed (R44, R76). DESIGN CHOICE: a vector on L, for which no rule names a cause, faults
with "width mismatch" (assumption 32). -/
def exitFire (op : Op) (w : CWord) (needL call : Bool) (dest : Node → Nat → Option Nat) (s : State) : Out :=
  match s.sched.cur with
  | none => .next s
  | some i =>
    match s.invOf i with
    | none => .next s
    | some v =>
      if !predHolds w.prd i || (needL && isNull i.l) then .next (s.report i false)
      else if i.status.er then .next (s.fault i op .errorOperand)
      else
        match i.l with
        | some l =>
          if l.val.isVec then .next (s.fault i op .widthMismatch)
          else .next (s.exitTo i v op call (dest (s.nd i.nk) l.val.nat))
        | none => .next (s.exitTo i v op call (dest (s.nd i.nk) 0))

/-- PC + OFF × 64, OFF sign-extended to 64 bits (R75). -/
def offsetDest (w : CWord) (n : Node) : Nat := wrapN 64 ((n.pc : Int) + 64 * sInt 48 w.off.toNat)

def execBro (w : CWord) (s : State) : Out := exitFire .bro w false false (fun n _ => some (offsetDest w n)) s
def execBr (w : CWord) (s : State) : Out := exitFire .br w true false (fun _ l => some l) s
def execCallo (w : CWord) (s : State) : Out := exitFire .callo w false true (fun n _ => some (offsetDest w n)) s
def execCall (w : CWord) (s : State) : Out := exitFire .call w true true (fun _ l => some l) s
def execRet (w : CWord) (s : State) : Out := exitFire .ret w true false (fun _ l => some l) s
def execQuit (w : CWord) (s : State) : Out := exitFire .quit w false false (fun _ _ => none) s

/-! ### BINV -/

/-- Drops block-cache lines of a cluster: all, or those overlapping `a` to `a + 2079` (R77). -/
def Cluster.dropLines (x : Cluster) (a : Option Nat) : Cluster :=
  { x with bcache := x.bcache.filter fun e =>
      match a with
      | none => false
      | some b => !(e.2.1 < b + 2080 && b < e.2.1 + 64) }

/-- Drops lines in the own cluster, or in every cluster of the package (R77). -/
def State.binv (s : State) (c : Nat) (pk : Bool) (a : Option Nat) : State :=
  if pk then { s with clusters := s.clusters.map fun (e : Nat × Cluster) => (e.1, e.2.dropLines a) }
  else s.modCl c fun x => x.dropLines a

/-- R77: invalidates block-cache lines when it fires, then sends a scalar 0 to both targets. DESIGN CHOICE: a vector on L
faults with "width mismatch" (assumption 32). -/
def execBinv (w : GWord) (s : State) : Out :=
  gOwn .binv w false (fun i _ st s =>
    let all := w.mf = 1 || w.mf = 3
    let pk := w.mf = 2 || w.mf = 3
    let o : Opnd := { val := sc64 0 }
    if all then (s.binv i.c pk none).sendBoth i w false st o o
    else
      match i.l with
      | none => s
      | some l =>
        if l.null then s
        else if l.val.isVec then s.fault i .binv .widthMismatch
        else if l.val.nat % 64 != 0 || l.val.nat ≥ 2 ^ 52 then s.fault i .binv .badBlockAddress
        else (s.binv i.c pk (some l.val.nat)).sendBoth i w false st o o) s

end Sys2Proof.Machine
end

