-- ==== Sys2Proof/Machine/Dir.lean ====
section
/-!
DEFINITION. Tag pools (R49, R310), the delivery of fault records and triggers (R314, R395), and the tensor name directory
(R361 to R375): NOPEN, NCLOSE, NBIND, NREBIND, NUNBIND, NLOOK and the reclamation of objects.
-/

namespace Sys2Proof.Machine

/-! ### Tag pools (R49, R310) -/

/-- A trigger or a fault record takes a tag, or waits for one (R314, R395). -/
def State.poolTake (s : State) (nk : Nat) (sp : Spawn) : State :=
  s.modNd nk fun n =>
    if n.freeTag.isSome && n.waitSpawn.isEmpty then n.takeTag sp else { n with waitSpawn := n.waitSpawn ++ [sp] }

/-! ### Fault records (R395, R421) -/

/-- A record with ESC set, or with its rank replaced as well (R396). -/
def escVal (v : V512) (rank : Option Nat) : V512 :=
  let v := v ||| (1#512 <<< 12)
  match rank with
  | none => v
  | some r => (v &&& ~~~(7#512 <<< 17)) ||| (BitVec.ofNat 512 r <<< 17)

/-- The rank that a record carries. -/
def Rec.rank (r : Rec) : Nat := bits (wordOf r.val 0).toNat 17 3

/-- The record goes to the management core, with ESC set (R395, R421). -/
def State.toMonitor (s : State) (id : Nat) : State :=
  match Tab.find s.recs id with
  | none => s
  | some r =>
    { s with
      recs := Tab.put s.recs id { r with monitor := true, val := if r.mach then r.val else escVal r.val none }
      monQ := s.monQ ++ [id] }

/-- A record meets what its name is bound to (R395 steps 3 and 4). -/
def State.recMeets (s : State) (id : Nat) (b : NameB) : State :=
  match Tab.find s.recs id, b with
  | none, _ => s
  | some _, .obj _ => s.toMonitor id
  | some r, .handler k nk ix =>
    let rank := ((s.kern k).map (·.feRank)).getD 0
    if rank ≤ r.rank || (s.nd nk).aband then s.toMonitor id
    else
      let s := { s with recs := Tab.put s.recs id { r with served := true } }
      s.poolTake nk { arg := { val := .vec r.val }, ix1 := ix, record := some id }

/-! ### Names (R361, R364) -/

/-- A name in a partition's namespace. -/
def nameKey (part name : Nat) : Nat := part * 2 ^ 64 + name
def State.nameOf (s : State) (key : Nat) : Option NameB := Tab.find s.dir.names key

/-- Who waits for a name. -/
def State.waiters (s : State) (key : Nat) : Nat := (s.dir.waits.filter fun w => w.1 = key).length

/-- Joins the waiters of a name. -/
def State.addWait (s : State) (key : Nat) (w : WaitFor) : State :=
  { s with dir := { s.dir with waits := s.dir.waits ++ [(key, w)] } }

def State.modObj (s : State) (id : Nat) (f : Obj → Obj) : State :=
  match Tab.find s.dir.objs id with
  | none => s
  | some o => { s with dir := { s.dir with objs := Tab.put s.dir.objs id (f o) } }

/-- The image of a pre-empted kernel that holds a command of a cluster's task unit, and the command. -/
def State.imageOf (s : State) (c id : Nat) : Option (Nat × Cmd) :=
  s.kernels.findSome? fun (e : Nat × Kernel) =>
    if e.2.st = .saved then
      match Tab.find e.2.savedCl c with
      | some y => ((Tab.get [] y.units 9).find? fun m => m.id = id).map fun m => (e.1, m)
      | none => none
    else none

/-- What a shard does to a command that waits for it: in its unit, or in its kernel's image (R401). -/
def State.modNamed (s : State) (c id : Nat) (f : Cmd → Cmd) : State :=
  if (s.unit c 9).any fun m => m.id = id then s.modCmd c 9 id f
  else
    match s.imageOf c id with
    | none => s
    | some (k, _) => s.modKern k fun x => { x with
        savedCl := x.savedCl.map fun (e : Nat × Cluster) =>
          if e.1 = c then (c, { e.2 with units := Tab.mod [] e.2.units 9 fun l => modFirst (fun m => m.id = id) f l }) else e }
def State.failNamed (s : State) (c : Nat) (m : Cmd) (cz : Cause) : State :=
  if (s.unit c 9).any fun x => x.id = m.id then s.failWith c 9 m cz
  else s.modNamed c m.id fun x => { x with fail := some (m.pending cz) }

/-- The command that waits, wherever it is. -/
def State.namedCmd (s : State) (c id : Nat) : Option Cmd :=
  match (s.unit c 9).find? fun m => m.id = id with
  | some m => some m
  | none => (s.imageOf c id).map (·.2)

/-- A command's result is known; its unit puts it into the command's place (R307). -/
def State.dirAnswer (s : State) (c : Nat) (m : Cmd) (v : Nat) : State :=
  s.modNamed c m.id fun x => { x with started := true, acc := [v] }

/-- The unit fills the command's place once there is room, and the command ends. -/
def State.dirFill (s : State) (c : Nat) (m : Cmd) : State :=
  match m.acc with
  | v :: _ => if s.ownRoom m then (s.fillOwn m (Opnd.ofNat v)).finishCmd c 9 m else s
  | [] => s

/-- The layout of R369. -/
def openWord (st fmt sz h : Nat) : Nat := st * 2 ^ 60 + fmt * 2 ^ 56 + sz * 2 ^ 22 + h

/-- The lowest handle free under an ASID. -/
def State.freeHandle (s : State) (asid : Nat) : Option Nat :=
  (List.range 4096).find? fun h => (Tab.find s.dir.handles (asid * 4096 + h)).isNone

/-- A NOPEN meets an object (R369). -/
def State.openObj (s : State) (c : Nat) (m : Cmd) (ob : Nat) : State :=
  match Tab.find s.dir.objs ob with
  | none => s
  | some o =>
    let w := bits m.sub 1 1 = 1
    if w && !o.wr then s.failNamed c m .permission
    else
      match s.freeHandle m.asid with
      | none => s.failNamed c m .handleLimit
      | some h =>
        let s := { s with dir := { s.dir with handles := Tab.put s.dir.handles (m.asid * 4096 + h) (ob, w) } }
        (s.modObj ob fun o => { o with opens := o.opens + 1 }).dirAnswer c m (openWord 0 o.fmt (o.size / 64) h)

/-- A NOPEN meets what its name is bound to. -/
def State.openMeets (s : State) (c : Nat) (m : Cmd) : NameB → State
  | .obj ob => s.openObj c m ob
  | .handler _ _ _ => s.dirAnswer c m (openWord 2 0 0 0)

/-- A NOPEN takes effect (R369). -/
def State.openName (s : State) (c : Nat) (m : Cmd) : State :=
  let key := nameKey m.part m.lv
  match s.nameOf key with
  | some b => s.openMeets c m b
  | none =>
    if bits m.sub 0 1 = 1 then s.dirAnswer c m (openWord 1 0 0 0)
    else if s.waiters key ≥ 64 then s.failWith c 9 m .nameWaitLimit
    else (s.modCmd c 9 m.id fun x => { x with started := true }).addWait key (.nopen c m.id)

/-- A trigger fails at its sender (R314): with its command while that has not ended. -/
def State.trigFail (s : State) (t : Trig) (cz : Cause) : State :=
  match s.namedCmd t.c t.id with
  | some m => s.failNamed t.c m cz
  | none => s.engFaultOf t.nk { t.f with cause := cz }

/-- A trigger meets what its name is bound to: its dispatch (R314, R310). -/
def State.trigMeets (s : State) (t : Trig) : NameB → State
  | .obj _ => s.trigFail t .nameKind
  | .handler _ nk ix =>
    if (s.nd nk).aband then s.trigFail t .handlerEnded
    else
      let s := s.modNamed t.c t.id fun x => { x with finished := true }
      s.poolTake nk { arg := t.o, ix1 := ix, sender := some (t.nk, t.f) }

/-- A trigger reaches the shard of its name (R314). -/
def State.trigAt (s : State) (key : Nat) (t : Trig) : State :=
  match s.nameOf key with
  | some b => s.trigMeets t b
  | none => if s.waiters key ≥ 64 then s.trigFail t .nameWaitLimit else s.addWait key (.trigger t)

/-- The waiters of a newly bound name are dispatched in their order of arrival (R369). -/
def State.wake (s : State) (key : Nat) : State :=
  match s.nameOf key with
  | none => s
  | some b =>
    let ws := s.dir.waits.filter fun w => w.1 = key
    let s := { s with dir := { s.dir with waits := s.dir.waits.filter fun w => w.1 != key } }
    ws.foldl (fun s w =>
      match w.2 with
      | .nopen c id =>
        match s.namedCmd c id with
        | none => s
        | some m => s.openMeets c m b
      | .trigger t => s.trigMeets t b
      | .record id => s.recMeets id b) s

/-- A name loses its binding; an object that it was bound to becomes unbound. -/
def State.unbind (s : State) (key : Nat) : State :=
  let s := match s.nameOf key with
    | some (.obj ob) => s.modObj ob fun o => { o with bound := false }
    | _ => s
  { s with dir := { s.dir with names := Tab.del s.dir.names key } }

/-! ### Descriptors (R362, R372, R373) -/

def descDel (d : V512) : Bool := bits (wordOf d 4).toNat 9 1 = 1

/-- A reserved field that is nonzero, or a value outside its column (R362). -/
def descBad (d : V512) : Bool :=
  let w (k : Nat) : Nat := (wordOf d k).toNat
  if descDel d then w 4 != 512 || [1, 2, 3, 5, 6, 7].any fun k => w k != 0
  else
    let spc := bits (w 1) 61 3
    let cl := bits (w 1) 52 8
    let base := bits (w 1) 0 52
    let size := bits (w 2) 0 40
    let fmt := bits (w 4) 0 4
    (spc != 3 && spc != 5) || bits (w 1) 60 1 != 0 || base % 64 != 0
      || (if spc = 3 then cl != 0 else 191 < cl || 0x3fffc0 < base || 0x400000 < base + size)
      || bits (w 2) 40 24 != 0 || size = 0 || size % 64 != 0
      || bits (w 4) 10 54 != 0 || bits (w 4) 4 4 != 0 || (11 ≤ fmt && fmt ≤ 14)
      || bits (w 5) 52 11 != 0 || 191 < bits (w 5) 44 8 || bits (w 5) 6 38 != 0
      || bits (w 6) 52 12 != 0 || w 6 % 64 != 0 || w 7 != 0

/-- The object that a descriptor makes. -/
def descObj (d : V512) (part asid : Nat) : Obj :=
  let w (k : Nat) : Nat := (wordOf d k).toNat
  { name := w 0, ws := decide (bits (w 1) 61 3 = 5), cl := bits (w 1) 52 8, base := bits (w 1) 0 52, size := bits (w 2) 0 40
    layout := wordOf d 3, wr := decide (bits (w 4) 8 1 = 1), fmt := bits (w 4) 0 4
    sv := decide (bits (w 5) 63 1 = 1), scl := bits (w 5) 44 8, sem := bits (w 5) 0 6, flva := bits (w 6) 0 52
    part := part, asid := asid }

/-- The cluster holds a kernel of the partition. -/
def State.holds (s : State) (c part : Nat) : Bool := ((s.cl c).holder.map (·.2)) = some part

/-- SCL and CL lie in clusters of the partition (R372). -/
def State.descAllowed (s : State) (part : Nat) (d : V512) : Bool :=
  let o := descObj d part 0
  (!o.sv || s.holds o.scl part) && (!o.ws || s.holds o.cl part)

/-- Binds a name to a new object. -/
def State.bindObj (s : State) (part asid : Nat) (d : V512) : State :=
  let key := nameKey part (wordOf d 0).toNat
  let s := s.unbind key
  let id := Tab.nextKey s.dir.objs
  { s with dir := { s.dir with
      objs := Tab.put s.dir.objs id (descObj d part asid)
      names := Tab.put s.dir.names key (.obj id) } }

/-- The objects that count for the limit of R361. -/
def State.objCount (s : State) : Nat := (s.dir.objs.filter fun (e : Nat × Obj) => e.2.bound || e.2.opens != 0).length

/-- Every write of the node that precedes the command is visible (R366). -/
def State.wroteAll (s : State) (m : Cmd) : Bool :=
  let n := s.nd m.nk
  n.mif.all fun a => a.done || a.off || !a.writes || (if n.callable then a.age != m.age else m.age < a.age)

/-! ### The commands -/

/-- Another NOPEN of the same commit has still to be issued, and can be (R364). -/
def State.openMore (s : State) (c : Nat) (m : Cmd) : Bool :=
  let n := s.nd m.nk
  let isOpen (a : Act) : Bool := match a with | .issue _ (.nopen _) _ _ _ g _ _ _ _ => g = m.age | _ => false
  let blocked (l : List Act) : Bool := match l.head? with
    | some (.issue _ i _ _ _ g _ _ _ _) =>
      match i.view with
      | some (_, .e w) => (List.range 8).any fun k => w.wm.toNat.testBit k && !n.sbClear k g
      | _ => false
    | _ => false
  (n.acts :: n.parked).any (fun l => l.any isOpen && !blocked l) && ((s.unit c 9).filter fun x => !x.started).length < 32

/-- R369 at work: the NOPENs of one commit take effect together (R364). -/
def nopenWork (i : Issue) (m : Cmd) (s : State) : State :=
  if m.started then s.dirFill i.c m
  else if s.openMore i.c m then s
  else
    ((s.unit i.c 9).filter fun x => x.op = .nopen && x.nk = m.nk && x.age = m.age && !x.started && x.fail.isNone).foldl
      (fun s x => s.openName i.c x) s

def execNopen (w : EWord) (s : State) : Out := eExec .nopen (.nopen w) w { l := .sc } (fun _ _ _ => none) nopenWork s

/-- R371 at work. -/
def ncloseWork (i : Issue) (m : Cmd) (s : State) : State :=
  let k := m.asid * 4096 + m.lv % 4096
  match Tab.find s.dir.handles k with
  | none => s.failWith i.c 9 m .badHandle
  | some (ob, _) =>
    let s := { s with dir := { s.dir with handles := Tab.del s.dir.handles k } }
    (s.modObj ob fun o => { o with opens := o.opens - 1 }).finishCmd i.c 9 m

def execNclose (w : EWord) (s : State) : Out :=
  eExec .nclose (.nclose w) w { l := .sc } (fun i _ _ => if 4096 ≤ i.lv then some .reservedCode else none) ncloseWork s

/-- R372 at work. -/
def nbindWork (i : Issue) (m : Cmd) (s : State) : State :=
  let d := m.lvec
  let key := nameKey m.part (wordOf d 0).toNat
  if !s.wroteAll m then s
  else if !s.descAllowed m.part d then s.failWith i.c 9 m .permission
  else if (s.nameOf key).isSome then s.failWith i.c 9 m .nameBound
  else if s.dir.names.length ≥ 65536 || s.objCount ≥ 262144 then s.failWith i.c 9 m .directoryFull
  else ((s.bindObj m.part m.asid d).wake key).finishCmd i.c 9 m

def execNbind (w : EWord) (s : State) : Out :=
  eExec .nbind (.nbind w) w { l := .vec }
    (fun i _ _ => if descBad i.lvec || descDel i.lvec then some .reservedCode else none) nbindWork s

/-- Eight words of memory as a vector. -/
def memVec (s : State) (k : Nat) : V512 := BitVec.ofNat 512 (memRead s k 64)

/-- A name of the list breaks R373. -/
def State.nrebindBad (s : State) (part : Nat) (ds : List V512) : Bool :=
  let names := ds.map fun d => (wordOf d 0).toNat
  ds.any descBad || !decide names.Nodup
    || ds.any fun d =>
      match s.nameOf (nameKey part (wordOf d 0).toNat) with
      | some (.handler _ _ _) => true
      | some (.obj _) => false
      | none => descDel d

/-- The list takes effect at one point; the waiters of the names it newly binds are dispatched in entry order. -/
def State.nrebind (s : State) (part asid : Nat) (ds : List V512) : State :=
  let key (d : V512) : Nat := nameKey part (wordOf d 0).toNat
  let fresh := (ds.filter fun d => !descDel d && (s.nameOf (key d)).isNone).map key
  let s := ds.foldl (fun s d => if descDel d then s.unbind (key d) else s.bindObj part asid d) s
  fresh.foldl (fun s k => s.wake k) s

/-- R373 at work. -/
def nrebindWork (i : Issue) (m : Cmd) (s : State) : State :=
  let off := bits m.lv 0 21
  let h := memVec s (spKey i.c off)
  let cnt := bits h.toNat 0 5
  let at_ (k : Nat) : Nat := spKey i.c (off + 64 * k)
  let tiles := rangeTiles off (64 * (cnt + 1))
  if 0x180000 < off + 64 * (cnt + 1) then s.failWith i.c 9 m .addressOutOfRange 0 off 0
  else if tiles.any fun t => !(s.cl i.c).engTiles.contains t then s.failWith i.c 9 m .ownerViolation 0 off 0
  else if (List.range (cnt + 1)).any fun k => badAt s (at_ k) || badAt s (at_ k + 32) then
    s.failWith i.c 9 m .uncorrectableError 0 off 0
  else
    let ds := (List.range cnt).map fun k => memVec s (at_ (k + 1))
    let binds := ds.filter fun d => !descDel d
    if !binds.isEmpty && !s.wroteAll m then s
    else if cnt = 0 || 16 < cnt || h.toNat != cnt || s.nrebindBad m.part ds then s.failWith i.c 9 m .nameRecord
    else if binds.any fun d => !s.descAllowed m.part d then s.failWith i.c 9 m .permission
    else
      let s' := s.nrebind m.part m.asid ds
      if s'.dir.names.length > 65536 || s'.objCount > 262144 then s.failWith i.c 9 m .directoryFull
      else s'.finishCmd i.c 9 m

def execNrebind (w : EWord) (s : State) : Out :=
  eExec .nrebind (.nrebind w) w { l := .sc }
    (fun i _ _ => if 2 ^ 21 ≤ i.lv || i.lv % 64 != 0 then some .reservedCode else none) nrebindWork s

/-- R374 at work. -/
def nunbindWork (i : Issue) (m : Cmd) (s : State) : State :=
  let key := nameKey m.part m.lv
  match s.nameOf key with
  | some (.obj _) => (s.unbind key).finishCmd i.c 9 m
  | _ => s.failWith i.c 9 m .nameUnbound

def execNunbind (w : EWord) (s : State) : Out :=
  eExec .nunbind (.nunbind w) w { l := .sc } (fun _ _ _ => none) nunbindWork s

/-- The answer of NLOOK (R375). -/
def State.lookWord (s : State) (key : Nat) (lay : Bool) : Nat :=
  match s.nameOf key with
  | none => if lay then 0 else openWord 1 0 0 0
  | some (.handler _ _ _) => if lay then 0 else openWord 2 0 0 0
  | some (.obj ob) =>
    match Tab.find s.dir.objs ob with
    | none => 0
    | some o => if lay then o.layout.toNat else openWord 0 o.fmt (o.size / 64) (min o.opens 4095)

/-- R375 at work. -/
def nlookWork (i : Issue) (m : Cmd) (s : State) : State :=
  if m.started then s.dirFill i.c m
  else s.dirAnswer i.c m (s.lookWord (nameKey m.part m.lv) (bits m.sub 0 1 = 1))

def execNlook (w : EWord) (s : State) : Out := eExec .nlook (.nlook w) w { l := .sc } (fun _ _ _ => none) nlookWork s

/-! ### Reclamation (R367, R370) -/

/-- A cluster's command resolved a handle of the object (R363). -/
def Cluster.objHeld (x : Cluster) (ob : Nat) : Bool :=
  x.units.any (fun (u : Nat × List Cmd) => u.2.any fun m => m.hnds.any fun h => h.2.1 = ob)
    || x.disp.any (fun m => m.hnds.any fun h => h.2.1 = ob)

/-- Somebody still holds the object: a command, of a pre-empted kernel too, or a request of another chip that resolved a handle of
it (R363). -/
def State.objHeld (s : State) (ob : Nat) : Bool :=
  (s.clusters.any fun (e : Nat × Cluster) => e.2.objHeld ob)
    || (s.kernels.any fun (e : Nat × Kernel) => e.2.st = .saved && e.2.savedCl.any fun (y : Nat × Cluster) => y.2.objHeld ob)
    || s.flying.any fun p =>
      match p.body with
      | .rread r => (r.obj.map (·.1)) = some ob
      | _ => false

/-- The objects that may be reclaimed (R367); `ring` marks those that wait for room in a ring. -/
def State.dead (s : State) : List (Nat × Obj) :=
  s.dir.objs.filter fun (e : Nat × Obj) => !e.2.bound && e.2.opens = 0 && !s.objHeld e.1

/-- The memory slice whose shard keeps a name, as a place (R13, R361). -/
def shardOf (name : Nat) : Nat := 192 + name % 32

/-- The last step of R367, with the error flag when the entry could not be written: the increment comes from the shard. -/
def State.reclaimEnd (s : State) (ob : Nat) (o : Obj) (bad : Bool) : State :=
  let s := { s with dir := { s.dir with objs := Tab.del s.dir.objs ob } }
  if o.sv && s.holds o.scl o.part then
    s.post { src := shardOf o.name, dst := o.scl, cls := 0, part := o.part, body := .sem o.scl o.sem 1 false none bad }
  else s

/-- Reclaims an object (R367, R370): an object whose ring has no room waits, and HEAD is read again after 1024 cycles. A
granule that an atomic has reserved is waited for (R97). -/
def State.reclaim (s : State) (ob : Nat) (o : Obj) : State :=
  if o.flva = 0 then s.reclaimEnd ob o false
  else
    let go (va need : Nat) : Option (Nat × Nat) :=
      match xlate s [tlbDie 0] o.part o.asid (va % 2 ^ 52) need with
      | .here pa slot => if badAt s pa then none else some (pa, slot)
      | _ => none
    match go o.flva (permR ||| permW) with
    | none => s.reclaimEnd ob o true
    | some (pa, slot) =>
      let r := readUnder s pa 64 (some slot)
      let s := r.1
      let tail := bits r.2 0 64
      let head := bits r.2 64 64
      let n := bits r.2 128 64
      if n = 0 then s.reclaimEnd ob o true
      else if (tail + 2 ^ 64 - head) % 2 ^ 64 ≥ n then s.modObj ob fun o => { o with ring := some (s.now + 1024) }
      else
        match go (o.flva + 64 + 16 * (tail % n)) permW with
        | none => s.reclaimEnd ob o true
        | some (pe, se) =>
          let w1 := (if o.ws then 5 else 3) * 2 ^ 61 + o.cl * 2 ^ 52 + o.base
          if reservedBy s pe (2 ^ 30) 0 || reservedBy s pa (2 ^ 30) 0 then s else
          let s := writeUnder s pe 16 (w1 + 2 ^ 64 * o.size) (some se)
          (writeUnder s pa 8 ((tail + 1) % 2 ^ 64) (some slot)).reclaimEnd ob o false

end Sys2Proof.Machine
end

