-- ==== Sys2Proof/Machine/Seq.lean ====
section
/-!
DEFINITION. The graph sequencer (R304 to R306, R309): arming and expiring sections, the end of nodes, and how a kernel
completes or is ended.
-/

namespace Sys2Proof.Machine

/-- A page of the part's own structures, or of a launch ring, under an ASID. A page in the forwarding state counts as
failed translation (assumption 13). -/
def sysLoc (s : State) (part asid va need : Nat) : Except Cause (Nat × Nat) :=
  match xlate s [tlbDie 0] part asid (va % 2 ^ 52) need with
  | .here pa slot => if badAt s pa then .error .uncorrectableError else .ok (pa, slot)
  | .away _ _ _ _ => .error .translation
  | .bad c _ => .error c

/-- The clusters of a kernel's rectangle (R11, R301). -/
def Kernel.clusters (k : Kernel) : List Nat :=
  (List.range k.h).flatMap fun y => (List.range k.w).map fun x => k.die * 96 + (k.y + y) * 12 + (k.x + x)

/-- The nodes of a kernel, and of one of its sections. -/
def NodeDesc.nk (d : NodeDesc) : Nat := nkOf d.cl d.pl
def Kernel.secNodes (k : Kernel) (i : Nat) : List NodeDesc := k.nodes.filter fun d => d.sec = i
def Kernel.sec (k : Kernel) (i : Nat) : Section := k.secs.getD i {}

def State.modSec (s : State) (k i : Nat) (f : Section → Section) : State :=
  s.modKern k fun x => { x with secs := modAt f i x.secs }

/-! ### Arming (R304) -/

/-- The tokens of route tags that wait at a node are numbered from its new arming (R168). -/
def renumber (pl : Nat) : List Routed → Tab Nat → List Routed × Tab Nat
  | [], t => ([], t)
  | r :: rs, t =>
    if r.pl != pl || r.dlv then let x := renumber pl rs t; (r :: x.1, x.2)
    else
      let n := Tab.get 0 t r.path
      let x := renumber pl rs (Tab.put t r.path (n + 1))
      ({ r with k := n * r.ns + r.lane } :: x.1, x.2)

/-- The numbers of the next tokens that a node takes on its wired ports: those at the head of each queue (R46). -/
def State.takenFrom (s : State) (nk : Nat) : Tab Nat :=
  s.nodes.foldl (fun t (e : Nat × Node) =>
    (e.2.wires.filter fun w => w.nk = nk).foldl (fun t w =>
      Tab.put t (w.ix * 4 + w.pt.code) ((e.2.oldestPlace w.q).getD (Tab.get 0 e.2.places w.q))) t) []

/-- A node is armed: it maps its entry block, its iterations numbered from 0 (R304). -/
def State.armNode (s : State) (nk t : Nat) : State :=
  let c := nk / 8
  let taken := s.takenFrom nk
  let r := renumber (nk % 8) ((s.cl c).routed.filter fun x => !(x.pl = nk % 8 && x.dlv)) []
  let s := s.modCl c fun x => { x with routed := r.1 }
  s.modNd nk fun n =>
    match n.asg with
    | none => n
    | some a =>
      { n with
        st := .mapping, moveTo := some a.entry, resumed := false, next := 0, tcount := t, stop := false, okNext := true, aband := false
        atEntry := true, spillCount := none, rst := 0, taken := taken, rtCount := r.2 }

/-- Arms a section with a count (R304). -/
def State.armSection (s : State) (k i t : Nat) : State :=
  match s.kern k with
  | none => s
  | some x =>
    let s := s.modSec k i fun e => { e with st := .armed }
    (x.secNodes i).foldl (fun s d => s.armNode d.nk t) s

/-- A pending arming takes effect; the GARM that asked for it completes (R309). -/
def State.armPending (s : State) (k i : Nat) (a : Arming) : State :=
  let s := s.modSec k i fun e => { e with arming := e.arming.drop 1 }
  let s := s.armSection k i a.t
  match a.cmd with
  | none => s
  | some (c, id) => s.modCmd c 9 id fun m => { m with finished := true }

/-- A section's count of pending predecessors falls; at 0 it is reloaded and the section armed, or an arming is left
pending (R305). -/
def State.lowerCount (s : State) (k i : Nat) : State :=
  match s.kern k with
  | none => s
  | some x =>
    let e := x.sec i
    if e.count > 1 then s.modSec k i fun e => { e with count := e.count - 1 }
    else
      let s := s.modSec k i fun e => { e with count := e.npred }
      if e.st = .armed then s.modSec k i fun e => { e with arming := e.arming ++ [{ t := e.t }] }
      else s.armSection k i e.t

/-- A section expires (R305, R309). -/
def State.expire (s : State) (k i : Nat) : State :=
  match s.kern k with
  | none => s
  | some x =>
    match (x.sec i).arming with
    | a :: _ => s.armPending k i a
    | [] =>
      let s := s.modSec k i fun e => { e with st := .expired }
      let s := (x.secNodes i).foldl (fun s d => s.modNd d.nk fun n => { n with aband := false }) s
      ((List.range x.secs.length).filter fun j => (x.sec i).succ.testBit j).foldl (fun s j => s.lowerCount k j) s

/-! ### The end of nodes and sections (R305) -/

/-- The callable nodes of an armed section end once the others have and nothing is left for them. -/
def State.endCallables (s : State) (k i : Nat) : State :=
  match s.kern k with
  | none => s
  | some x =>
    let ds := x.secNodes i
    let others := ds.filter fun d => !d.cal
    if others.isEmpty || others.any fun d => (s.nd d.nk).st != .ended then s
    else
      ds.foldl (fun s d =>
        let n := s.nd d.nk
        if d.cal && n.tags.isEmpty && n.waitSpawn.isEmpty && n.pend.isNone && n.engFaults.isEmpty && n.st = .running then
          s.modNd d.nk fun n => { n with st := .ended }
        else s) s

/-- The sections of a kernel whose nodes have all ended expire. -/
def State.sectionCheck (s : State) (k : Nat) : State :=
  match s.kern k with
  | none => s
  | some x =>
    (List.range x.secs.length).foldl (fun s i =>
      if (x.sec i).st != .armed then s
      else
        let s := s.endCallables k i
        if (x.secNodes i).all fun d => (s.nd d.nk).st = .ended then s.expire k i else s) s

/-- A node ends (R305); what waits for iterations that never start is freed and counted (R74). -/
def State.endNode (s : State) (nk : Nat) : State :=
  let s := (s.dropEarly nk true).modNd nk fun n => { n with st := .ended, stop := true }
  match (s.nd nk).kernel with
  | none => s
  | some k => s.sectionCheck k

/-! ### The end of a kernel (R306, R420) -/

/-- A served record goes on along the edge of the kernel whose handler served it (R396). -/
def State.escalate (s : State) (id k : Nat) : State :=
  match Tab.find s.recs id, s.kern k with
  | some r, some x =>
    let r := { r with val := escVal r.val (some x.feRank), feV := x.feV, feName := x.feName, served := false }
    { s with
      recs := Tab.put s.recs id r
      inbox := s.inbox ++ [{ src := r.nk / 8, dst := 225, cls := 3, part := r.part, body := .record id }] }
  | _, _ => s

/-- What waits at the pool of a node that serves no more fails (R310): a record goes to the management core, a trigger's
sender takes an engine fault. -/
def State.dropWaits (s : State) (ws : List Spawn) : State :=
  ws.foldl (fun s sp =>
    match sp.record, sp.sender with
    | some id, _ => s.toMonitor id
    | none, some (sn, f) => s.engFaultOf sn { f with cause := .handlerEnded }
    | none, none => s) s

/-- A callable node gives up its tags (R310): places are filled, records go on, and what waits at its pool fails. -/
def State.dropTags (s : State) (nk : Nat) : State :=
  let n := s.nd nk
  let k := n.kernel.getD 0
  let s := s.modNd nk fun n => { n with tags := [], waitSpawn := [] }
  let s := { s with nodes := s.nodes.map fun (e : Nat × Node) =>
    (e.1, { e.2 with invs := e.2.invs.map fun (v : Inv) => { v with tags := v.tags.filter fun t => t.1 != nk } }) }
  let s := n.tags.foldl (fun s (e : Nat × Spawn) =>
    let s := match e.2.ret with
      | none => s
      | some (pn, q, p) => s.fillPlace pn q p .reply Opnd.nullEr
    let s := match e.2.cmd with
      | none => s
      | some (c, id) => s.modCmd c 9 id fun m => { m with finished := true }
    match e.2.record with
    | none => s
    | some id => s.escalate id k) s
  s.dropWaits n.waitSpawn

/-- Every access of the node is performed. -/
def Node.quiet (n : Node) : Bool := n.mif.all fun a => a.done || a.off

/-- R306 holds of a kernel; its committed accesses are performed as well. -/
def State.kernelDone (s : State) (k : Nat) (x : Kernel) : Bool :=
  x.st = .running
    && x.secs.all (fun e => e.st != .armed && e.arming.isEmpty)
    && x.clusters.all (fun c => (s.cl c).units.all fun (u : Nat × List Cmd) => u.2.isEmpty)
    && x.nodes.all (fun d =>
      let n := s.nd d.nk
      n.pend.isNone && n.engFaults.isEmpty && n.actsDone && n.quiet)
    && !(s.tsyncs.any fun t => x.nodes.any fun d => d.nk = t.nk)
    && !(s.ksets.any fun t => x.nodes.any fun d => d.nk = t.nk)
    && s.recs.all fun (r : Nat × Rec) => r.2.kernel != k

/-- A word of a kernel's end for its launch record (R294). -/
def statusWord (code cause : Nat) : Nat := cause * 256 + code

/-- LQ_CFG, LQ_TAIL and LQ_HEAD of a queue (R291). -/
def lqReg (q j : Nat) : Nat := 0x200 + 4 * q + j
def lqEn (s : State) (q : Nat) : Bool := rbits (pkg s (lqReg q 1)) 63 1 = 1
def lqPart (s : State) (q : Nat) : Nat := rbits (pkg s (lqReg q 1)) 48 6
def lqAsid (s : State) (q : Nat) : Nat := rbits (pkg s (lqReg q 1)) 32 16
def lqEnt (s : State) (q : Nat) : Nat := rbits (pkg s (lqReg q 1)) 0 16
def lqTail (s : State) (q : Nat) : Nat := rbits (pkg s (lqReg q 2)) 0 32
def lqTaken (s : State) (q : Nat) : Nat := rbits (pkg s (lqReg q 3)) 0 32

/-- Notes since when record TAKEN has been its queue's head; a resume entry stands before it (R291, R300). -/
def State.stampHead (s : State) (q : Nat) : State :=
  let l := Tab.get ({} : LQueue) s.queues q
  let is := lqEn s q && l.resume.isEmpty && lqTail s q != lqTaken s q
  let at_ := if is then some (l.headAt.getD s.now) else none
  if at_ = l.headAt then s else { s with queues := Tab.put s.queues q { l with headAt := at_ } }

/-- A record's status is to be written (R294). -/
def State.owe (s : State) (q recno code cause : Nat) : State :=
  let l := Tab.get {} s.queues q
  { s with queues := Tab.put s.queues q { l with status := l.status ++ [(recno, statusWord code cause, 0)] } }

/-- Takes the node registers of a node to their reset values (R420). -/
def State.clearNodeRegs (s : State) (nk : Nat) : State :=
  { s with sr := s.sr.filter fun (e : Nat × W64) => e.1 / 2048 != 256 + nk }

/-- A node without a kernel (R420). Its count of chain entries goes on, and its plane keeps its counts of requests (R25). -/
def Node.freed (n : Node) : Node := { accNext := n.accNext, ageNext := n.ageNext, outst := n.outst }

/-- A cluster without a kernel: what belongs to the kernel goes; semaphores, patterns, arrays and stores take their reset
values at the next admission (R303). Its count of commands goes on. -/
def Cluster.freed (x : Cluster) (part : Nat) : Cluster :=
  { x with
    ctx := [], input := [], store := [], ready := [], units := [], flumes := [], windows := [], dlvs := [], disp := []
    routed := [], recvs := [], overflow := [], overEp := false, episodes := [], collCount := []
    holder := none, prevPart := some part }

/-- A message that only a node or a sync unit of an ended kernel would take. -/
def Msg.gone (nks cls : List Nat) : Msg → Bool
  | .done nk _ _ _ _ => nks.contains nk
  | .arrive c _ _ _ _ _ _ => cls.contains c
  | _ => false

/-- The kernel's clusters are freed, its handler bindings removed, and its status is to be written (R306); that of a kernel
ended before is owed already. -/
def State.freeKernel (s : State) (k : Nat) (x : Kernel) : State :=
  let nks := x.nodes.map NodeDesc.nk
  let cls := x.clusters
  let s := nks.foldl (fun s nk => s.dropTags nk) s
  let s := cls.foldl (fun s c => s.dropReplies c (s.cl c).input) s
  let s := nks.foldl (fun s nk => (s.setNd nk (s.nd nk).freed).clearNodeRegs nk) s
  let s := cls.foldl (fun s c => if (s.cl c).holder.map (·.1) = some k then s.modCl c fun y => y.freed x.part else s) s
  let gone (p : Parcel) : Bool := p.body.gone nks cls
  let mine (e : Nat × NameB) : Bool := match e.2 with | .handler j _ _ => j = k | .obj _ => false
  let s := { s with
    inbox := s.inbox.filter fun p => !gone p
    ports := s.ports.map fun (e : Nat × List Parcel) => (e.1, e.2.filter fun p => !gone p)
    dir := { s.dir with names := s.dir.names.filter fun e => !mine e }
    kernels := Tab.del s.kernels k }
  if x.noStatus || x.st = .ended then s else s.owe x.queue x.recno x.code x.cause

/-- The sections of a kernel expire as their nodes have ended (R305), and an ended kernel's clusters are free once its
committed accesses are performed. -/
def State.kernelCheck (s : State) (k : Nat) : State :=
  match s.kern k with
  | none => s
  | some x =>
    if x.st = .ended then (if x.nodes.all (fun d => (s.nd d.nk).quiet) then s.freeKernel k x else s)
    else if x.st = .running || x.st = .preempting then s.sectionCheck k
    else s

/-- The same for every kernel. -/
def State.kernelsCheck (s : State) : State := (s.kernels.map (·.1)).foldl (fun s k => s.kernelCheck k) s

/-- The completed kernels among those named are freed, with CODE 1 (R306). -/
def State.completeKernels (s : State) (mine : Kernel → Bool) : State :=
  s.kernels.foldl (fun s (e : Nat × Kernel) =>
    match s.kern e.1 with
    | none => s
    | some x => if mine x && s.kernelDone e.1 x then s.freeKernel e.1 { x with code := 1, cause := 0 } else s) s

/-- Ends a kernel at once (R306, R409, R420): its invocations and commands are dropped, and its clusters are freed when
its committed accesses are performed. The image of a pre-empted kernel is discarded. -/
def State.endKernel (s : State) (k code cause : Nat) : State :=
  match s.kern k with
  | none => s
  | some x =>
    if x.st = .saved then
      let s := x.savedNd.foldl (fun s (e : Nat × Node) =>
        let s := e.2.tags.foldl (fun s (t : Nat × Spawn) =>
          match t.2.record with | some id => s.escalate id k | none => s) s
        s.dropWaits e.2.waitSpawn) s
      let mine (e : Nat × NameB) : Bool := match e.2 with | .handler j _ _ => j = k | .obj _ => false
      let s := { s with dir := { s.dir with names := s.dir.names.filter fun e => !mine e } }
      let l := Tab.get ({} : LQueue) s.queues x.queue
      let s := { s with
        kernels := Tab.del s.kernels k
        queues := Tab.put s.queues x.queue { l with resume := l.resume.filter fun j => j != k } }
      let s := s.stampHead x.queue
      if x.noStatus then s else s.owe x.queue x.recno code cause
    else
      let s := x.nodes.foldl (fun s d =>
        let s := (s.discardFrom d.nk 0).dropTags d.nk
        s.modNd d.nk fun n => { n.stepGen with
          st := .ended, stop := true, acts := [], parked := [], pend := none, engFaults := [], tags := [], waitSpawn := [] }) s
      let s := x.clusters.foldl (fun s c => s.modCl c fun y => { y with units := [], disp := [] }) s
      let s := if x.noStatus || x.st = .ended then s else s.owe x.queue x.recno code cause
      if x.st = .ended then s else (s.modKern k fun y => { y with st := .ended, code := code, cause := cause }).kernelCheck k

end Sys2Proof.Machine
end

