-- ==== Sys2Proof/Machine/Task.lean ====
section
/-!
DEFINITION. Commands of the task-and-system unit (R307 to R318): LAUNCH, GARM, SPAWN, TRET, HREG, HREG.UNREG, MSEND,
MSEND.TRIG, MRECV and MPROBE.
-/

namespace Sys2Proof.Machine

/-- The descriptor of a node of the issuer's kernel. -/
def State.nodeNum (s : State) (nk num : Nat) : Option NodeDesc :=
  ((s.nd nk).kernel.bind s.kern).bind fun k => k.nodes.find? fun d => d.num = num

/-- The callable node of the issuer's kernel with a number (R311, R313). -/
def State.callableNum (s : State) (nk num : Nat) : Option NodeDesc := (s.nodeNum nk num).filter (·.cal)

/-! ### LAUNCH (R308) -/

/-- A reserved field of a launch record is nonzero, or its word 7 is (R292, R308). -/
def launchReserved (v : V512) : Bool :=
  let w (k : Nat) : Nat := (wordOf v k).toNat
  bits (w 1) 52 12 != 0 || bits (w 2) 52 12 != 0 || bits (w 3) 26 38 != 0 || bits (w 3) 9 7 != 0 || bits (w 3) 7 1 != 0
    || bits (w 4) 52 12 != 0 || bits (w 5) 16 48 != 0 || w 6 != 0 || w 7 != 0

def lqDone (s : State) (q : Nat) : Nat := rbits (pkg s (lqReg q 3)) 32 32

/-- TAIL of a queue changes (R291). -/
def State.setTail (s : State) (q t : Nat) : State :=
  (srSet s 0 (lqReg q 2) (BitVec.ofNat 64 (t % 2 ^ 32))).stampHead q

/-- The address of record `j` of a queue (R291). -/
def lqRec (s : State) (q j : Nat) : Nat := rbits (pkg s (lqReg q 0)) 6 46 * 64 + 64 * (j % (lqEnt s q + 1))

/-- R308 at work: the queue and the partitions have been checked at the issue (`issueCheck`); the command waits for room, and for the
record's granule while an atomic holds it (R97). With `.CPL`, `aux` names the queue and record whose status word ends the
command. -/
def launchWork (i : Issue) (m : Cmd) (s : State) : State :=
  let q := bits m.imm 0 6
  if m.started || (lqTail s q + 2 ^ 32 - lqDone s q) % 2 ^ 32 ≥ lqEnt s q + 1 then s
  else
    let t := lqTail s q
    match sysLoc s m.part (lqAsid s q) (lqRec s q t) permW with
    | .error cz => s.failWith i.c 9 m cz
    | .ok (pa, slot) =>
      if reservedBy s pa (2 ^ 30) 0 then s
      else
      let s := writeUnder s pa 64 m.lvec.toNat (some slot)
      let s := s.setTail q (t + 1)
      if bits m.sub 0 1 = 1 then s.modCmd i.c 9 m.id fun x => { x with started := true, aux := [1, q, t] }
      else s.finishCmd i.c 9 m

def execLaunch (w : EWord) (s : State) : Out :=
  eExec .launch (.launch w) w { l := .vec } (fun i _ _ => if launchReserved i.lvec then some .reservedCode else none)
    launchWork s

/-! ### GARM (R309) -/

/-- R309 at work: an idle or expired section is armed; an armed one gets a pending arming. -/
def garmWork (i : Issue) (m : Cmd) (s : State) : State :=
  if m.started then s
  else
    match (s.nd m.nk).kernel with
    | none => s
    | some k =>
      match s.kern k with
      | none => s
      | some x =>
        let j := bits m.lv 0 6
        if x.secs.length ≤ j then s.failWith i.c 9 m .badSection
        else if (x.sec j).st = .armed then
          let s := s.modCmd i.c 9 m.id fun x => { x with started := true }
          s.modSec k j fun e => { e with arming := e.arming ++ [{ t := m.rv, cmd := some (i.c, m.id) }] }
        else (s.armSection k j m.rv).finishCmd i.c 9 m

def execGarm (w : EWord) (s : State) : Out :=
  eExec .garm (.garm w) w { l := .sc, r := .sc }
    (fun i _ _ => if 64 ≤ i.lv || i.rv = 0 || 2 ^ 32 ≤ i.rv then some .reservedCode else none) garmWork s

/-! ### SPAWN and TRET (R311, R312) -/

/-- The SPAWN's command waits in its unit for the commit of the invocation that it started (R311). -/
def execSpawn (w : EWord) (s : State) : Out :=
  eExec .spawn (.spawn w) w { l := .sc, r := .any, q := if bits w.sub.toNat 0 1 = 1 then .any else .no }
    (fun i _ s => if 2 ^ 11 ≤ i.lv || (s.callableNum i.nk (i.lv % 2 ^ 11)).isNone then some .reservedCode else none)
    (fun _ _ s => s) s

/-- The spawn that a SPAWN's tag holds, before the command acts (R311). -/
def spawnOf (w : EWord) (r q : Option Opnd) : Spawn :=
  { ready := false, arg := r.getD {}, arg2 := if bits w.sub.toNat 0 1 = 1 then q else none
    ix1 := bits w.imm.toNat 0 7, ix2 := bits w.imm.toNat 7 7 }

/-- SPAWN acts in its turn (R311): the invocation may start; with no tag, because its target was abandoned, its place is
filled with a null token with ER set and it completes (R310). -/
def State.spawnIssue (s : State) (c : Nat) (m : Cmd) (tag : Option (Nat × Nat)) : State :=
  let id := (s.cl c).cmdNext
  let tag := tag.filter fun t => (Tab.find (s.nd t.1).tags t.2).isSome
  let m1 : Cmd := { m with id := id, started := true, finished := tag.isNone }
  let s := s.modCl c fun x => { x with cmdNext := id + 1, units := Tab.mod [] x.units 9 fun l => l ++ [m1] }
  match tag with
  | none => s.fillOwn m Opnd.nullEr
  | some (nk, t) =>
    s.modNd nk fun n =>
      match Tab.find n.tags t with
      | none => n
      | some sp =>
        let sp1 : Spawn := { sp with ready := true, ret := m.place.map fun p => (m.nk, p.1, p.2), cmd := some (c, id) }
        { n with tags := Tab.put n.tags t sp1 }

/-- The invocation holds a TRET. -/
def Inv.retHeld (v : Inv) : Option Opnd :=
  v.held.findSome? fun h => match h with | .cmd _ (.tret _) l _ _ => some (l.getD {}) | _ => none

/-- R312: TRET takes effect at the commit of its invocation (`tagEnd`). -/
def execTret (w : EWord) (s : State) : Out :=
  eExec .tret (.tret w) w { l := .any } (fun _ v _ => if v.retHeld.isSome then some .doubleReturn else none)
    (fun i m s => s.finishCmd i.c 9 m) s

/-- The commit of a callable invocation (R312): the result goes to the spawner's place, the SPAWN completes, and the tag
returns. -/
def State.tagEnd (s : State) (nk t : Nat) (sp : Spawn) (ret : Option Opnd) : State :=
  let s := match sp.ret with
    | none => s
    | some (pn, q, p) => s.fillPlace pn q p .reply (ret.getD Opnd.nullEr)
  let s := match sp.cmd with
    | none => s
    | some (c, id) => s.modCmd c 9 id fun m => { m with finished := true }
  s.poolReturn nk t

/-! ### HREG (R313) -/

/-- R313 at work. -/
def hregWork (i : Issue) (m : Cmd) (s : State) : State :=
  let key := nameKey m.part m.lv
  match s.callableNum m.nk (bits m.rv 0 11), (s.nd m.nk).kernel with
  | some d, some k =>
    let bind (s : State) : State :=
      { s with dir := { s.dir with names := Tab.put s.dir.names key (.handler k d.nk (bits m.rv 11 7)) } }
    match s.nameOf key with
    | some (.obj _) => s.failWith i.c 9 m .nameBound
    | some (.handler _ _ _) => (bind s).finishCmd i.c 9 m
    | none =>
      if s.dir.names.length ≥ 65536 then s.failWith i.c 9 m .directoryFull
      else ((bind s).wake key).finishCmd i.c 9 m
  | _, _ => s.finishCmd i.c 9 m

def execHreg (w : EWord) (s : State) : Out :=
  eExec .hreg (.hreg w) w { l := .sc, r := .sc }
    (fun i _ s => if 2 ^ 18 ≤ i.rv || (s.callableNum i.nk (bits i.rv 0 11)).isNone then some .reservedCode else none)
    hregWork s

/-- R313 with `.UNREG` at work. -/
def hregUnregWork (i : Issue) (m : Cmd) (s : State) : State :=
  let key := nameKey m.part m.lv
  match s.nameOf key with
  | none => s.failWith i.c 9 m .nameUnbound
  | some (.obj _) => s.failWith i.c 9 m .nameKind
  | some (.handler _ _ _) => (s.unbind key).finishCmd i.c 9 m

def execHregUnreg (w : EWord) (s : State) : Out :=
  eExec .hregUnreg (.hregUnreg w) w { l := .sc, r := .sc } (fun i _ _ => if i.rv != 0 then some .reservedCode else none)
    hregUnregWork s

/-! ### Messages (R315 to R318) -/

/-- Bits 63:41 of a selector: chip, cluster and plane. -/
def selNode (v : Nat) : Nat := bits v 41 23
/-- What is wrong with MSEND's selector when it fires (R315): a reserved bit, or a cluster number that R27 reserves. -/
def selBad (v : Nat) : Option Cause :=
  if bits v 32 9 != 0 then some .reservedCode
  else if 192 ≤ bits v 44 8 && bits v 44 8 != 255 then some .badDestination
  else none

/-- A pre-empted kernel of the partition was in the cluster (R405). -/
def State.savedAt (s : State) (c part : Nat) : Bool :=
  s.kernels.any fun (e : Nat × Kernel) => e.2.st = .saved && e.2.part = part && e.2.clusters.contains c

/-- The message leaves (R315). -/
def State.msendGo (s : State) (c : Nat) (m : Cmd) : State :=
  let s := s.modCmd c 9 m.id fun x => { x with started := true, aux := [2], got := [] }
  s.flPost c m.part (bits m.lv 52 12) (bits m.lv 44 8) 2 64
    (.mesg (bits m.lv 41 3) (bits m.lv 0 32) (chipId s) c (m.nk % 8) m.id (m.r.getD {}))

/-- R315 at work: `aux` is [0] while an earlier message of the node to the same plane is not accepted, [2] on its way,
[1, t] refused at cycle t (R318). -/
def msendWork (i : Issue) (m : Cmd) (s : State) : State :=
  let chip := bits m.lv 52 12
  let dc := bits m.lv 44 8
  let ahead := (s.unit i.c 9).any fun x =>
    x.op = .msend && x.nk = m.nk && x.id < m.id && !x.finished && selNode x.lv = selNode m.lv
  if !m.started && (192 ≤ dc || if chip = chipId s then !s.holds dc m.part && !s.savedAt dc m.part else !whitelisted s m.part chip) then
    s.failWith i.c 9 m .permission
  else if !m.started && ahead then s.modCmd i.c 9 m.id fun x => { x with started := true, aux := [0] }
  else if !m.started then s.msendGo i.c m
  else
    match m.aux with
    | 0 :: _ => if ahead then s else s.msendGo i.c m
    | 2 :: _ =>
      if m.got.any fun e => e.1 = 2 ^ 21 then s.modCmd i.c 9 m.id fun x => { x with aux := [1, s.now], got := [] }
      else if m.got.isEmpty then s
      else s.finishCmd i.c 9 m
    | _ => s

def execMsend (w : EWord) (s : State) : Out :=
  eExec .msend (.msend w) w { l := .sc, r := .any } (fun i _ _ => selBad i.lv)
    msendWork s

/-- R314 at work: the trigger goes to the shard of its name; its dispatch ends the command. -/
def msendTrigWork (i : Issue) (m : Cmd) (s : State) : State :=
  if m.started then s
  else
    let s := s.modCmd i.c 9 m.id fun x => { x with started := true }
    let t : Trig := { c := i.c, id := m.id, nk := m.nk, o := m.r.getD {}, f := m.pending .nameKind }
    s.post { src := i.c, dst := 192 + m.lv % 32, cls := 0, part := m.part, n := 64, body := .trig (nameKey m.part m.lv) t }

def execMsendTrig (w : EWord) (s : State) : Out :=
  eExec .msendTrig (.msendTrig w) w { l := .sc, r := .any } (fun _ _ _ => none) msendTrigWork s

/-- A receive of selector `v` takes a message (R316). -/
def selTakes (sub v src tag : Nat) : Bool :=
  (bits sub 0 1 = 1 || selNode v = src) && (bits sub 1 1 = 1 || bits v 0 32 = tag)

/-- The first overflow entry for a plane that a selector matches (R316). -/
def Cluster.overMatch (x : Cluster) (pl sub v : Nat) : Option Mesg :=
  x.overflow.find? fun g => g.pl = pl && selTakes sub v g.src g.tag

/-- The payload waits with its receive until the place may be filled. -/
def recvGot (o : Opnd) (m : Cmd) : Cmd := { m with started := true, r := some o, acc := [1] }

/-- R316 at work. -/
def mrecvWork (i : Issue) (m : Cmd) (s : State) : State :=
  let x := s.cl i.c
  if m.started then
    (if m.acc.isEmpty || !s.ownRoom m then s else (s.fillOwn m (m.r.getD {})).finishCmd i.c 9 m)
  else
    match x.overMatch (m.nk % 8) m.sub m.lv with
    | some g =>
      let s := s.modCl i.c fun x => { x with
        overflow := x.overflow.erase g, overEp := false }
      s.modCmd i.c 9 m.id (recvGot g.o)
    | none =>
      if x.recvs.length ≥ 64 then s
      else
        let r : Recv :=
          { cmd := m.id, nk := m.nk, src := if bits m.sub 0 1 = 1 then none else some (selNode m.lv)
            tag := if bits m.sub 1 1 = 1 then none else some (bits m.lv 0 32) }
        (s.modCl i.c fun x => { x with recvs := x.recvs ++ [r] }).modCmd i.c 9 m.id fun x => { x with started := true }

def execMrecv (w : EWord) (s : State) : Out :=
  eExec .mrecv (.mrecv w) w { l := .sc }
    (fun i _ _ => if bits i.lv 32 9 != 0 then some .reservedCode else none) mrecvWork s

/-- The scalar of R317. -/
def probeWord (g : Option Mesg) : Nat :=
  match g with
  | none => 0
  | some g => 2 ^ 63 + g.src * 2 ^ 40 + g.tag

/-- R317 at work. -/
def mprobeWork (i : Issue) (m : Cmd) (s : State) : State :=
  if m.started then s.dirFill i.c m
  else s.dirAnswer i.c m (probeWord ((s.cl i.c).overMatch (m.nk % 8) m.sub m.lv))

def execMprobe (w : EWord) (s : State) : Out :=
  eExec .mprobe (.mprobe w) w { l := .sc }
    (fun i _ _ => if bits i.lv 32 9 != 0 then some .reservedCode else none) mprobeWork s

/-- A message arrives at its cluster (R315, R316, R318). -/
def State.mesgArrive (s : State) (c part : Nat) (b : Msg) : State :=
  match b with
  | .mesg pl tag chip sc spl id o =>
    let src := chip * 2048 + sc * 8 + spl
    let x := s.cl c
    let refuse (s : State) : State := s.flPost c part chip sc 3 0 (.rack sc id (2 ^ 21) none (chipId s))
    if !s.holds c part then
      (if s.savedAt c part then refuse s else s.tell c part chip sc id 0 (some (.permission, 0, 0)))
    else
      let takes (r : Recv) : Bool := r.nk = nkOf c pl && r.src.all (· = src) && r.tag.all (· = tag)
      match x.recvs.find? takes with
      | some r =>
        let s := s.modCl c fun x => { x with recvs := x.recvs.erase r }
        (s.modCmd c 9 r.cmd (recvGot o)).tell c part chip sc id 0 none
      | none =>
        if x.overflow.length < 128 then
          (s.modCl c fun x => { x with
            overflow := x.overflow ++ [{ pl := pl, src := src, tag := tag, o := o }], overEp := false }).tell c part chip sc id 0 none
        else
          let n := s.nd (nkOf c pl)
          let s := refuse s
          if x.overEp then s
          else
            let f : Pending := { cause := .messageOverflow, n := n.next, ws := 0, age := n.ageNext }
            let s := s.modCl c fun x => { x with overEp := true }
            if n.asg.isSome then s.engFault (nkOf c pl) f else s
  | _ => s

/-- The sender tries a refused message again (R318). -/
def State.mesgRetry (s : State) (c : Nat) : Option State :=
  match (s.unit c 9).find? fun m => m.op = .msend && m.aux.getD 0 0 = 1 && m.aux.getD 1 0 + 1024 ≤ s.now with
  | none => none
  | some m => some (s.msendGo c m)

end Sys2Proof.Machine
end

