-- ==== Sys2Proof/Machine/Net.lean ====
section
/-!
DEFINITION. The network (R320 to R333): routes, router egress, ageing, headgates and the Sluice at a cluster's port, and the
Steush Link ports.
-/

namespace Sys2Proof.Machine

/-! ### Routes (R11 to R13, R321, R322, R331) -/

/-- The router and the local port of a cluster or slice. -/
def routerOf (d : Nat) : Nat × Nat :=
  if d < 192 then
    let x := d % 96 % 12
    let y := d % 96 / 12
    (d / 96 * 32 + y / 2 * 8 + (x / 2 + 1), 12 + 2 * (y % 2) + x % 2)
  else
    let k := d - 192
    (k / 16 * 32 + k % 16 / 4 * 8 + 7 * (k % 4 / 2), 12 + k % 2)

/-- The router with the I-die port that a die's traffic uses. R322 names it for packets that leave the package; DESIGN CHOICE:
traffic with the I-die within the package uses the same one (assumption 102). -/
def exitRouter (die : Nat) : Nat := die * 32 + 3 * 8 + (if die = 0 then 7 else 0)

/-- The egress port of router `r` for a destination (R322): row, then column, then the local port; another die by the
bridge of the row. -/
def egressOf (r d : Nat) : Nat :=
  let die := r / 32
  let rc := r % 8
  let t := if d < 224 then routerOf d else (exitRouter die, 15)
  if t.1 / 32 != die then (let b := if die = 0 then 7 else 0; if rc = b then 14 else b)
  else if rc != t.1 % 8 then t.1 % 8
  else if r % 32 / 8 != t.1 % 32 / 8 then 8 + t.1 % 32 / 8
  else t.2

/-- Where a row or column link, or the bridge, leads: router and input port; none for a local port or the I-die. -/
def linkTo (r port : Nat) : Option (Nat × Nat) :=
  let die := r / 32
  if port < 8 then some (r / 8 * 8 + port, r % 8)
  else if port < 12 then some (die * 32 + (port - 8) * 8 + r % 8, 8 + r % 32 / 8)
  else if port = 14 && r % 8 = (if die = 0 then 7 else 0) then some ((1 - die) * 32 + r % 32 / 8 * 8 + (if die = 0 then 0 else 7), 14)
  else none

/-! ### Packets (R320, R328) -/

/-- The bytes that a packet carries: at most 1 KiB of its message, and none where they are read. -/
def Parcel.carried (m : Parcel) : Nat := if m.rd then 0 else min 1024 (m.n - m.paid)

/-- The flits of a packet on the die (R320): a header, and its data in flits of 128 bytes. -/
def pktFlits (m : Parcel) : Nat := 1 + (m.carried + 127) / 128

/-- The flits of a packet on a Steush Link (R329; assumption 14). -/
def linkFlits (m : Parcel) : Nat := 1 + (pktFlits m * 1024 + 223) / 224

/-- The destinations of a packet, each with what it gets, and a packet for some of them. -/
def Parcel.all (m : Parcel) : List (Nat × Msg) := (m.dst, m.body) :: m.to_
def Parcel.cast (m : Parcel) (l : List (Nat × Msg)) : Parcel :=
  match l with
  | [] => m
  | t :: ts => { m with dst := t.1, body := t.2, to_ := ts }

/-- A message has come whole to its place and waits to take effect; a token goes into the input stage. A packet that another of its
message follows has no effect of its own. -/
def State.deliver (s : State) (m : Parcel) : State :=
  if m.more then s
  else
    match m.body with
    | .qtok t => s.pushTok m.dst t
    | _ => { s with inbox := s.inbox ++ [{ m with paid := 0, to_ := [] }] }

def State.router (s : State) (r : Nat) : Router := Tab.get {} s.routers r
def State.modRouter (s : State) (r : Nat) (f : Router → Router) : State := { s with routers := Tab.mod {} s.routers r f }

/-- A packet enters a buffer whole. -/
def State.enterBuf (s : State) (r inp len : Nat) (m : Parcel) : State :=
  s.modRouter r fun x => { x with
    bufs := Tab.mod [] x.bufs inp fun l => l ++ [{ m := m, at_ := s.now, len := len, inn := len, last := s.now }] }

/-- A flit of packet `h` comes into an input buffer on a channel: its header, or a later one. It can be sent a cycle later
(R324). -/
def State.flitTo (s : State) (r inp ch : Nat) (h : RPkt) : State :=
  s.modRouter r fun x => { x with
    bufs := Tab.mod [] x.bufs inp fun l =>
      if h.out = 0 then l ++ [{ m := h.m, at_ := s.now + 1, len := h.len, inn := 1, last := s.now + 1, ich := ch }]
      else modFirst (fun y => y.ich = ch && decide (y.inn < y.len)) (fun y => { y with inn := y.inn + 1, last := s.now + 1 }) l }

/-- The next flit of the packet has come in and can be sent. -/
def RPkt.ready (x : RPkt) (now : Nat) : Bool := x.at_ ≤ now && x.out < x.inn && (x.out + 1 < x.inn || x.last ≤ now)

/-- The chip of a far place. -/
def farChip (d : Nat) : Nat := (d - 512) / 256

/-! ### Refusals (R331, R332) -/

/-- The issuer of a request takes a fault, or an engine fault (R331, R332); the record names the destination's chip. -/
def State.refuse (s : State) (m : Parcel) (d : Nat) (b : Msg) (cz : Cause) : State :=
  let at_ := if 512 ≤ d then farChip d else chipId s
  let answer (chip c cls : Nat) (b : Msg) : State :=
    s.post { src := 224, dst := if chip = chipId s then c else farPlace chip c, cls := cls, part := m.part, body := b }
  let ack (chip c id j : Nat) : State := answer chip c 3 (.rack c id j (some (cz, 0, 0)) at_)
  match b with
  | .slot _ _ chip c id _ _ => ack chip c id 0
  | .tok _ _ _ _ _ chip c id _ _ => ack chip c id 0
  | .win _ _ _ _ _ chip c id j => ack chip c id j
  | .rread r => ack r.chip r.c r.id (2 ^ 20 + 1)
  | .mesg _ _ chip c _ id _ => ack chip c id 0
  | .coll key _ _ me c id _ _ _ _ => ack (if key < 2 ^ 32 then me else chipId s) c id 0
  | .notice fl _ _ nk f | .flCancel fl nk f => answer (fl / 4096) (nk / 8) 3 (.refused nk { f with cause := cz, chip := some at_ })
  | .rreq r =>
    answer r.chip (if r.nk ≥ 4096 then r.nk % 4096 else r.nk / 8) (if r.nk ≥ 4096 then 0 else 2)
      (.rrep r.nk r.id r.j r.gn 0 (some (cz, 0, r.va)) at_)
  | _ => s

/-- Every request of a packet is refused. -/
def State.refuseAt (s : State) (m : Parcel) (cz : Cause) : State := m.all.foldl (fun s t => s.refuse m t.1 t.2 cz) s

/-! ### The I-die (R331) -/

/-- The I-die's buffer for a destination: by input, and by die or far place. -/
def iBuf (inp d : Nat) : Nat := inp * 2 ^ 24 + (if d < 224 then (routerOf d).1 / 32 else d)

/-- Where a packet goes from the I-die. -/
inductive IWay where
  | die (k : Nat)
  | port (p : Nat)
  | here
  | refused
deriving DecidableEq, Repr

/-- The way of a destination, and the place that it is in this package: the destination chip selects an entry of the forwarding
table, which may name a port or this package (R331). -/
def State.iWay (s : State) (d : Nat) : IWay × Nat :=
  let own (d : Nat) : IWay × Nat := (if d < 224 then .die ((routerOf d).1 / 32) else .here, d)
  if d < 512 then own d
  else
    match fwdPort s (farChip d) with
    | none => (.refused, d)
    | some p => if p = 31 then own ((d - 512) % 256) else (.port p, d)

/-- Puts the destinations of one way together (R328). -/
def wayGroups (l : List (IWay × Nat × Msg)) : List (IWay × List (Nat × Msg)) :=
  l.foldl (fun g e =>
    if g.any fun x => x.1 = e.1 then g.map fun x => if x.1 = e.1 then (x.1, x.2 ++ [e.2]) else x else g ++ [(e.1, [e.2])]) []

/-- A packet reaches the I-die (R331, R328): it is for the I-die, for a die, for other chips, or refused, in each part. `inp` is the
link port or 31. -/
def State.toIdie (s : State) (inp : Nat) (m : Parcel) : State :=
  (wayGroups (m.all.map fun t => let w := s.iWay t.1; (w.1, w.2, t.2))).foldl (fun s g =>
    let p := m.cast g.2
    match g.1 with
    | .refused => s.refuseAt p .routeRefused
    | .here => g.2.foldl (fun s t => s.deliver { m with dst := t.1, body := t.2 }) s
    | .die _ => s.enterBuf 64 (iBuf inp p.dst) (pktFlits p) p
    | .port _ => s.enterBuf 64 (iBuf inp p.dst) (linkFlits p) p) s

/-! ### Slot tables (R324, R325, R329) -/

/-- Every entry of the routers' slot tables for a router's port: slot and owner, from the tables of the kernels on the die. -/
def State.slotsOf (s : State) (r port : Nat) : List (Nat × Nat) :=
  s.kernels.flatMap fun (e : Nat × Kernel) =>
    if e.2.st = .saved then []
    else (e.2.stTables.filter fun t => t.1 = r && rbits t.2 40 4 = port).map fun t => (rbits t.2 56 8, rbits t.2 44 4)

/-- The slot owner of a router's port in the current slot. -/
def State.slotOwner (s : State) (r port : Nat) : Option Nat :=
  ((s.slotsOf r port).find? fun e => e.1 = s.now % 256).map (·.2)

def State.link (s : State) (p : Nat) : Link := Tab.get {} s.links p
def State.modLink (s : State) (p : Nat) (f : Link → Link) : State := { s with links := Tab.mod {} s.links p f }

/-- The slot table of a link port that is in force. -/
def State.linkTab (s : State) (p : Nat) : List W64 :=
  let l := s.link p
  match l.tabNew with
  | some (t, x) => if t ≤ s.now then x else l.tab
  | none => l.tab

/-- Every entry of the link ports' tables for an output, 0 to 23 or 31 for the package: slot and owner. DEDUCED: an entry acts at
the output that it names, whichever port's table holds it; the output's own table goes first (assumption 105). -/
def State.linkSlots (s : State) (q : Nat) : List (Nat × Nat) :=
  let of (p : Nat) : List (Nat × Nat) :=
    ((s.linkTab p).filter fun e => rbits e 46 5 = q).map fun e => (rbits e 56 8, rbits e 51 5)
  (if q < 24 then of q else []) ++ ((List.range 24).filter (· != q)).flatMap of

/-- The slot owner of a link port, or of the package, in the current slot. -/
def State.linkOwner (s : State) (q : Nat) : Option Nat := ((s.linkSlots q).find? fun e => e.1 = s.now % 256).map (·.2)

/-! ### Ageing and arbitration (R326, R327) -/

/-- The ageing counter that a packet has by now: a started one's is 0. -/
def RPkt.age (x : RPkt) (now : Nat) : Nat := if 0 < x.out then 0 else max x.cnt (min 255 ((now - x.at_) / 16))

/-- `a` (at input `i`) goes before `b` (at input `j`) by items 2 and 3 of R327. -/
def pktBefore (now : Nat) (i j : Nat) (a b : RPkt) : Bool :=
  let sa := a.age now = 255
  let sb := b.age now = 255
  if sa != sb then sa
  else if !sa && a.m.cls != b.m.cls then b.m.cls < a.m.cls
  else if a.at_ != b.at_ then a.at_ < b.at_
  else i < j

/-- The heads of the buffers that an egress port may send, by buffer. `goes` says which packets of which buffer it serves. -/
def Router.heads (x : Router) (goes : Nat → Parcel → Bool) : List (Nat × RPkt) :=
  x.bufs.filterMap fun (e : Nat × List RPkt) =>
    match Tab.get [] x.bufs e.1 with
    | h :: _ => if goes e.1 h.m then some (e.1, h) else none
    | [] => none

/-- The best of some packets. `key` gives the port number of a buffer. -/
def bestHead (now : Nat) (key : Nat → Nat) (l : List (Nat × RPkt)) : Option (Nat × RPkt) :=
  l.foldl (fun b e =>
    match b with
    | none => some e
    | some x => if pktBefore now (key e.1) (key x.1) e.2 x.2 then some e else b) none

/-- The buffer whose head sends a flit now, and whether in a reserved slot (R327): the slot owner's; else a contender that may
start or interrupt; else the innermost open packet's. A packet that has begun in reserved slots goes on in them, while there are
any (`kept`). -/
def Router.choose (x : Router) (now port : Nat) (key : Nat → Nat) (owner : Option Nat) (kept : Nat → Bool)
    (goes : Nat → Parcel → Bool) : Option (Nat × Bool) :=
  let hs := x.heads goes
  let ready : List (Nat × RPkt) := hs.filter fun h => h.2.ready now
  let opens := (Tab.get [] x.opens port).filter fun i => hs.any fun h => h.1 = i
  let mine : Option (Nat × RPkt) := match owner with
    | none => none
    | some o =>
      let l : List (Nat × RPkt) := ready.filter fun h => key h.1 = o
      match l.find? (fun (h : Nat × RPkt) => h.2.circ) with
      | some h => some h
      | none => l.head?
  match mine with
  | some h => some (h.1, true)
  | none =>
    let free : List (Nat × RPkt) := ready.filter fun h => !opens.contains h.1 && (h.2.out = 0 || (h.2.circ && !kept (key h.1)))
    match bestHead now key free, opens with
    | none, [] => none
    | some b, [] => some (b.1, false)
    | best, i :: _ =>
      match hs.find? (fun (h : Nat × RPkt) => h.1 = i) with
      | none => none
      | some o =>
        let goOn := if o.2.ready now then some (i, false) else none
        match best with
        | none => goOn
        | some b => if opens.length < 3 && pktBefore now (key b.1) (key i) b.2 o.2 then some (b.1, false) else goOn

/-- The head of buffer `i` as its next flit leaves by a port, with the channel it goes on: one for each packet in reserved slots
(channel tag 3), or its nesting level (R327). -/
def Router.going (x : Router) (port i : Nat) (circ : Bool) (h : RPkt) : RPkt :=
  let opens := Tab.get [] x.opens port
  if h.out = 0 then { h with cnt := 0, circ := circ, och := if circ then 4 + i else opens.length }
  else if !circ && !opens.contains i then { h with circ := false }
  else h

/-- A flit of the head of buffer `i` leaves by a port, in a reserved slot or not: the state, the packet as it was with its channel,
and whether this was its last flit. -/
def State.sendFlit (s : State) (r port i : Nat) (circ : Bool) : State × Option (RPkt × Bool) :=
  let x := s.router r
  match Tab.get [] x.bufs i with
  | [] => (s, none)
  | h0 :: rest =>
    let h := x.going port i circ h0
    let tail := decide (h.len ≤ h.out + 1)
    let opens (l : List Nat) : List Nat :=
      if tail then l.filter (· != i) else if h.circ || l.contains i then l else i :: l
    (s.modRouter r fun x => { x with
      bufs := Tab.put x.bufs i (if tail then rest else { h with out := h.out + 1 } :: rest)
      opens := Tab.mod [] x.opens port opens
      last := Tab.put x.last port (s.now + 1) }, some (h, tail))

/-- The port has not sent a flit in this cycle (R320). -/
def State.portFree (s : State) (r port : Nat) : Bool := Tab.get 0 (s.router r).last port ≤ s.now

/-- A flit of a packet leaves router `r` by a port: it goes on to the next router, or, with the last one, the packet is at its place
or at the I-die. -/
def State.leave (s : State) (r port : Nat) (h : RPkt) (tail : Bool) : State :=
  match linkTo r port with
  | some (r', inp) => s.flitTo r' inp h.och h
  | none =>
    if !tail then s
    else if port = 15 && r = exitRouter (r / 32) && 224 ≤ h.m.dst then s.toIdie 31 h.m
    else s.deliver h.m

/-! ### Multicast (R328) -/

/-- The egress ports of a packet at a router. -/
def Parcel.ways (m : Parcel) (r : Nat) : List Nat := (m.all.map fun t => egressOf r t.1).foldl (fun l p => setIns p l) []

/-- The buffer of the branch copies from an input port to an egress port. -/
def branchBuf (inp port : Nat) : Nat := 64 * (port + 1) + inp

/-- A multicast at the head of an input buffer, there whole, takes a buffer on every output branch that it needs, all at once, when
all are free (R328). -/
def State.replicate (s : State) (r : Nat) : State :=
  (List.range 16).foldl (fun s i =>
    let x := s.router r
    match Tab.get [] x.bufs i with
    | [] => s
    | h :: rest =>
      let ws := h.m.ways r
      if ws.length < 2 || h.out != 0 || h.inn < h.len || !h.ready s.now then s
      else if ws.any fun p => !(Tab.get [] x.bufs (branchBuf i p)).isEmpty then s
      else
        s.modRouter r fun x => { x with
          bufs := ws.foldl (fun b p =>
            Tab.put b (branchBuf i p) [{ h with m := h.m.cast (h.m.all.filter fun t => egressOf r t.1 = p) }])
            (Tab.put x.bufs i rest) }) s

/-- A packet of a buffer of router `r` goes by a port: it needs that one alone, and, of an input, no branch copy goes before it
(R323). -/
def State.goesBy (s : State) (r port i : Nat) (m : Parcel) : Bool :=
  m.ways r = [port] && (64 ≤ i || (Tab.get [] (s.router r).bufs (branchBuf i port)).isEmpty)

/-! ### A cluster's ingress: headgate and Sluice (R351 to R353, R333) -/

def gateKey (c part : Nat) : Nat := c / 96 * 64 + part
def State.gate (s : State) (k : Nat) : Headgate := Tab.get {} s.gates k
def State.modGate (s : State) (k : Nat) (f : Headgate → Headgate) : State := { s with gates := Tab.mod {} s.gates k f }

/-- The cost of the next packet of a message, of at most 1 KiB (R320, R351). -/
def Parcel.cost (m : Parcel) : Nat := max 1 ((min 1024 (m.n - m.paid) + 63) / 64)

/-- The next packet of a message, and what of the message stays at the port (R320). -/
def Parcel.packet (m : Parcel) : Parcel := { m with more := !m.rd && decide (m.paid + 1024 < m.n) }
def Parcel.left (m : Parcel) : Parcel := { m with paid := m.paid + 1024 }

/-- The next packet of a partition's first message at a cluster's port passes (R320); classes 0 and 1 are charged, and wait at a
level below 1 (R351, R353). -/
def State.passPort (s : State) (c part : Nat) : Option State :=
  let l := Tab.get [] s.ports c
  match l.find? fun m => m.part = part with
  | none => none
  | some m =>
    let p := m.packet
    let go (s : State) : State :=
      ({ s with ports := Tab.put s.ports c (if p.more then modFirst (· = m) Parcel.left l else l.erase m) }).enterBuf (128 + c) 0 (pktFlits p) p
    if 192 ≤ c || 2 ≤ m.cls then some (go s)
    else
      let k := gateKey c part
      let s := s.modGate k fun g => { g with charged := true }
      if Tab.get 0 s.gateB (c / 96) = 0 then some (go s)
      else if (s.gate k).level < 1 then none
      else some (go (countEvent (s.modGate k fun g => { g with level := g.level - m.cost }) part c 12 m.cost))

def sluiceReg (s : State) (c : Nat) : W64 := srGet s (8 + c) 0x068
def setSluice (s : State) (c level depth rate : Nat) : State :=
  srSet s (8 + c) 0x068 (BitVec.ofNat 64 (level * 2 ^ 32 + depth * 2 ^ 16 + rate))

/-- The flit at a cluster's ingress that the Sluice holds (R333): LEVEL is at DEPTH, the bucket is not disabled, and its slot is not
reserved for it. -/
def State.sluiceHolds (s : State) (c : Nat) : Option RPkt :=
  match Tab.get [] (s.router (128 + c)).bufs 0 with
  | [] => none
  | h :: _ =>
    let rp := routerOf c
    let v := sluiceReg s c
    let circuit := (h.m.ways rp.1).any fun p => s.slotOwner rp.1 p = some rp.2
    if c < 192 && rbits v 0 9 != 256 && rbits v 16 16 ≤ rbits v 32 16 && !circuit then some h else none

/-- The place of an ingress sends a flit to its router, or to the I-die's buffers; at a cluster the Sluice counts it (R333). -/
def State.ingress (s : State) (c : Nat) : State :=
  if !s.portFree (128 + c) 0 || (s.sluiceHolds c).isSome then s
  else
    match s.sendFlit (128 + c) 0 0 false with
    | (s, none) => s
    | (s, some (h, tail)) =>
      let rp := routerOf c
      let v := sluiceReg s c
      let s := if 192 ≤ c then s else setSluice s c (min 65535 (rbits v 32 16 + 1)) (rbits v 16 16) (rbits v 0 9)
      if c < 224 then s.flitTo rp.1 rp.2 0 h else if tail then s.toIdie 31 h.m else s

/-! ### Link ports (R329 to R332) -/

/-- SL_PORT of a port: STATE, WIDTH, TBLERR, LANES. -/
def slPort (s : State) (p : Nat) : W64 := pkg s (0x080 + p)
def setSlPort (s : State) (p st width err lanes : Nat) : State :=
  srSet s 0 (0x080 + p) (BitVec.ofNat 64 (st * 2 ^ 14 + width * 2 ^ 12 + err * 2 ^ 8 + lanes))

/-- CRC-18 with polynomial 0x2_3979 over the low `n` bits of a number, highest first. DESIGN CHOICE: it starts at 0, and the
remainder is not changed (assumption 106). -/
def crc18 (v : Nat) : Nat → Nat
  | 0 => 0
  | n + 1 =>
    let c := crc18 (v / 2) n
    let top := bits c 17 1
    let x := bits (c * 2) 0 18
    if (top + v % 2) % 2 = 1 then x ^^^ 0x23979 else x

/-- A flit of the link (R329), and its parts. -/
def linkWord (pay : BitVec 224) (ch typ seq : Nat) : BitVec 256 :=
  let top := pay.toNat * 2 ^ 14 + bits ch 0 2 * 2 ^ 12 + bits typ 0 2 * 2 ^ 10 + bits seq 0 10
  BitVec.ofNat 256 (top * 2 ^ 18 + crc18 top 238)
def flitCh (w : BitVec 256) : Nat := bits w.toNat 30 2
def flitTyp (w : BitVec 256) : Nat := bits w.toNat 28 2
def flitSeq (w : BitVec 256) : Nat := bits w.toNat 18 10
def flitGood (w : BitVec 256) : Bool := bits w.toNat 0 18 = crc18 (w.toNat / 2 ^ 18) 238

/-- The link is ready for a flit of its own: it goes out on the wire. -/
def State.onWire (s : State) (p : Nat) (w : BitVec 256) : State :=
  (s.modLink p fun l => { l with wire := some w }).modRouter 64 fun x => { x with last := Tab.put x.last p (s.now + 1) }

/-- A link port sends a flit (R330): an acknowledgment owed, else a replayed flit, else the next of its packets while the retry
buffer has room. The payload of a packet's flit is free. -/
def State.linkSend (s : State) (p : Nat) : State :=
  let l := s.link p
  if rbits (slPort s p) 14 2 != 2 then s
  else
    match l.acks with
    | a :: r => (s.modLink p fun l => { l with acks := r }).onWire p (linkWord 0 0 (if a.1 then 2 else 1) a.2)
    | [] =>
      if 0 < l.replay then
        let s := s.modLink p fun l => { l with replay := l.replay - 1 }
        match l.retry[l.retry.length - l.replay]? with
        | none => s
        | some f => s.onWire p (linkWord f.pay f.ch 0 f.seq)
      else if 512 ≤ l.retry.length then s
      else
        let goes (_ : Nat) (m : Parcel) : Bool := (s.iWay m.dst).1 = .port p
        let key (i : Nat) : Nat := i / 2 ^ 24
        match (s.router 64).choose s.now p key (s.linkOwner p) (fun o => (s.linkSlots p).any fun e => e.2 = o) goes with
        | none => s
        | some (i, circ) =>
          match s.sendFlit 64 p i circ with
          | (s, none) => s
          | (s, some (h, tail)) =>
            let f : LFlit :=
              { seq := l.tx, ch := min 3 h.och, pay := Config.linkPayload s.sched.fresh, m := if tail then some h.m else none }
            (s.takeFresh.modLink p fun l => { l with tx := (l.tx + 1) % 1024, retry := l.retry ++ [f] }).onWire p
              (linkWord f.pay f.ch 0 f.seq)

/-- Packets at the I-die whose way has changed are sent on anew, or refused (R331). -/
def State.refuseStale (s : State) : State :=
  (s.router 64).bufs.foldl (fun s (e : Nat × List RPkt) =>
    match e.2 with
    | h :: rest =>
      let w := (s.iWay h.m.dst).1
      if h.out = 0 && 512 ≤ h.m.dst && (w = .refused || w = .here || h.m.all.any fun t => (s.iWay t.1).1 != w) then
        (s.modRouter 64 fun x => { x with bufs := Tab.put x.bufs e.1 rest }).toIdie (e.1 / 2 ^ 24) h.m
      else s
    | [] => s) s

/-- EGRESS_ARBITRATION: routers 0 to 63; 64 the I-die, with its link ports, port 31 the refusals, and ports 32 and 33 the
two dies; 128 on the ingress of each place. -/
def State.arbitrate (s : State) (r port : Nat) : State :=
  if 128 ≤ r then s.ingress (r - 128)
  else if !s.portFree r port then s
  else if r = 64 && port < 24 then s.linkSend port
  else if r = 64 && port = 31 then s.refuseStale
  else if r = 64 then
    let goes (_ : Nat) (m : Parcel) : Bool := m.dst < 224 && (routerOf m.dst).1 / 32 + 32 = port
    match (s.router 64).choose s.now port (· / 2 ^ 24) (s.linkOwner 31) (fun o => (s.linkSlots 31).any fun e => e.2 = o) goes with
    | none => s
    | some (i, circ) =>
      match s.sendFlit 64 port i circ with
      | (s, some (h, _)) => s.flitTo (exitRouter (port - 32)) 15 h.och h
      | (s, none) => s
  else
    let s := s.replicate r
    match (s.router r).choose s.now port (· % 64) (s.slotOwner r port) (fun o => (s.slotsOf r port).any fun e => e.2 = o)
        (s.goesBy r port) with
    | none => s
    | some (i, circ) =>
      match s.sendFlit r port i circ with
      | (s, some (h, tail)) => s.leave r port h tail
      | (s, none) => s

/-- AGEING_STEP: the counter of the `k`-th waiting head of a router steps when 16 more cycles have passed (R326). -/
def State.ageStep (s : State) (r k : Nat) : State :=
  match ((s.router r).heads fun _ _ => true)[k]? with
  | none => s
  | some (i, h) =>
    if h.out != 0 || h.cnt ≥ 255 || s.now < h.at_ + 16 * (h.cnt + 1) then s
    else s.modRouter r fun x => { x with bufs := Tab.mod [] x.bufs i fun l => modAt (fun h => { h with cnt := h.cnt + 1 }) 0 l }

/-- A body that another chip may send. -/
def Msg.foreign : Msg → Bool
  | .notice _ _ _ _ _ | .flCancel _ _ _ | .refused _ _ | .slot _ _ _ _ _ _ _ | .tok _ _ _ _ _ _ _ _ _ _ | .win _ _ _ _ _ _ _ _ _
  | .rread _ | .rstop _ _ _ _ | .coll _ _ _ _ _ _ _ _ _ _ | .mesg _ _ _ _ _ _ _ | .rack _ _ _ _ _ | .rreq _
  | .rrep _ _ _ _ _ _ _ => true
  | _ => false

/-- An acknowledgment is owed: a positive one stands for the earlier ones (R330). -/
def Link.owe (l : Link) (neg : Bool) (seq : Nat) : Link :=
  { l with acks := (if neg then l.acks.filter (· != (true, seq)) else l.acks.filter (·.1)) ++ [(neg, seq)] }

/-- A flit arrives at a link port (R330): one whose CRC fails, or whose SEQ skips, is answered with the next SEQ expected. -/
def State.flitIn (s : State) (p : Nat) (w : BitVec 256) (pkt : Option Parcel) : State :=
  let rx := (s.link p).rx
  let seq := flitSeq w
  let ch := flitCh w
  if !flitGood w then s.modLink p fun l => l.owe true rx
  else if flitTyp w != 0 then s
  else if seq = rx then
    let s := s.modLink p fun l =>
      { l with rx := (rx + 1) % 1024, rxOpen := if pkt.isSome then l.rxOpen.filter (· != ch) else setIns ch l.rxOpen }.owe false rx
    match pkt with
    | none => s
    | some m => if m.all.all (fun t => t.2.foreign && 512 ≤ t.1) && 512 ≤ m.src then s.toIdie p m else s
  else if (rx + 1024 - seq) % 1024 ≤ 512 then s.modLink p fun l => l.owe false ((rx + 1023) % 1024)
  else s.modLink p fun l => l.owe true rx

/-- Frees the flits of a retry buffer through a SEQ, if it is there. -/
def freeThrough (seq : Nat) (l : List LFlit) : List LFlit :=
  if l.any fun e => e.seq = seq then (l.dropWhile fun e => e.seq != seq).drop 1 else l

/-- An acknowledgment, negative or not, arrives (R330). -/
def State.ackIn (s : State) (p seq : Nat) (nack : Bool) : State :=
  s.modLink p fun l =>
    if nack then
      let r := freeThrough ((seq + 1023) % 1024) l.retry
      { l with retry := r, replay := r.length }
    else
      let r := freeThrough seq l.retry
      { l with retry := r, replay := min l.replay r.length }

/-- The width code of a lane mask (R332): none when fewer than 2 lanes work. -/
def laneWidth (lanes : Nat) : Option Nat :=
  let k := ((List.range 8).filter fun j => lanes.testBit j).length
  if k = 8 then some 2 else if 4 ≤ k then some 1 else if 2 ≤ k then some 0 else none

/-- The packets that a port has begun to send and not ended: they leave the I-die's buffers. -/
def State.dropOpen (s : State) (p : Nat) : State × List Parcel :=
  (s.router 64).bufs.foldl (fun a (e : Nat × List RPkt) =>
    match e.2 with
    | h :: rest =>
      if h.out != 0 && (a.1.iWay h.m.dst).1 = .port p then
        (a.1.modRouter 64 fun x => { x with
          bufs := Tab.put x.bufs e.1 rest, opens := Tab.mod [] x.opens p fun l => l.filter (· != e.1) }, a.2 ++ [h.m])
      else a
    | [] => a) (s, [])

/-- A lane fails (R332): the port retrains, or goes down and ends the requests whose packets it held unacknowledged, in whole or in
part. -/
def State.laneFail (s : State) (p lane : Nat) : State :=
  let v := slPort s p
  let lanes := rbits v 0 8 &&& (255 - 2 ^ (lane % 8))
  match laneWidth lanes with
  | some w =>
    (setSlPort s p 1 w (rbits v 8 1) lanes).modLink p fun l => { l with replay := l.retry.length }
  | none =>
    let d := (setSlPort s p 0 0 (rbits v 8 1) lanes).dropOpen p
    let held := (s.link p).retry.filterMap (·.m) ++ d.2
    held.foldl (fun s m => if m.more then s else s.refuseAt m .linkDown)
      (d.1.modLink p fun l => { l with retry := [], replay := 0, acks := [] })

/-- No dynamic packet is open on a link in either direction (R332). -/
def State.linkIdle (s : State) (p : Nat) : Bool :=
  ((s.link p).rxOpen.filter (· < 3)).isEmpty && (Tab.get [] (s.router 64).opens p).isEmpty

/-! ### Refills and leaks (R352, R333) -/

/-- The refill of a die's buckets (R352), counted at the clusters that the partition holds as well (R377). -/
def State.refill (s : State) (d : Nat) : State :=
  let b := rbits (pkg s 0x0c0) 0 32
  let ps := (List.range 64).filter fun p => partValid s p
  let share (p : Nat) : Nat := rbits (pkg s (0x300 + 8 * p)) 0 8
  let z := max 256 ((ps.map share).foldl (· + ·) 0)
  let held (p : Nat) : Bool := (List.range 96).any fun c => (Tab.get [] s.ports (d * 96 + c)).any fun m => m.part = p && m.cls < 2
  let dem := ps.filter fun p => held p || (s.gate (d * 64 + p)).charged
  let g (p : Nat) : Nat := b * share p / z
  let u := b - (dem.map g).foldl (· + ·) 0
  let sd := (dem.map share).foldl (· + ·) 0
  let extra (p : Nat) : Nat := if sd = 0 then 0 else u * share p / sd
  let s := ps.foldl (fun s p =>
    let k := d * 64 + p
    if dem.contains p && b != 0 then
      let s := s.modGate k fun x => { level := (g p : Int) + extra p + min x.level 0, charged := false }
      let mine := (List.range 96).filter fun c => (s.cl (d * 96 + c)).holder.any fun h => h.2 = p
      countAt s p (mine.map (fun c => 8 + d * 96 + c) ++ [1 + d, 0]) 14 (extra p)
    else s.modGate k fun _ => { level := 0, charged := false }) s
  { s with gateB := Tab.put s.gateB d b, gateWin := Tab.put s.gateWin d (s.now / 1024 + 1) }

/-- The leak of a cluster's Sluice (R333), which also applies what the power controller has set. -/
def State.leak (s : State) (c : Nat) : State :=
  let v := sluiceReg s c
  let set := (Tab.find s.sluice c).getD (rbits v 0 9, rbits v 16 16)
  let s := setSluice s c (rbits v 32 16 - rbits v 0 9) set.2 set.1
  { s with sluice := Tab.del s.sluice c, sluiceWin := Tab.put s.sluiceWin c (s.now / 256 + 1) }

end Sys2Proof.Machine
end

