-- ==== Sys2Proof/Machine/Reset.lean ====
section
/-!
DEFINITION. Status words (R294, R418), machine faults (R399, R421), the reset levels (R419, R420), boot (R422), the signing
index (R424) and the thermal limits (R425).
-/

namespace Sys2Proof.Machine

/-! ### Status words (R294, R418) -/

/-- DONE passes the leading records whose status is written. -/
def passDone (ent : List Nat) : Nat → Nat → Nat
  | 0, d => d
  | fuel + 1, d => if ent.contains d then passDone ent fuel ((d + 1) % 2 ^ 32) else d

/-- A record's status is answered: DONE moves on, and a LAUNCH.CPL that waits for it completes (R291, R308). -/
def State.statusDone (s : State) (q recno : Nat) : State :=
  let l := Tab.get {} s.queues q
  let done := l.done ++ [recno]
  let d := passDone done (done.length + 1) (lqDone s q)
  let s := srSet s 0 (lqReg q 3) (BitVec.ofNat 64 (d * 2 ^ 32 + lqTaken s q))
  let fix (m : Cmd) : Cmd := if m.op = .launch && m.aux = [1, q, recno] then { m with finished := true } else m
  { s with
    queues := Tab.put s.queues q { l with done := done.filter fun j => (d + 2 ^ 32 - j) % 2 ^ 32 ≥ 2 ^ 31 || j = d }
    clusters := s.clusters.map fun (e : Nat × Cluster) =>
      (e.1, { e.2 with units := e.2.units.map fun (u : Nat × List Cmd) => (u.1, if u.1 = 9 then u.2.map fix else u.2) })
    kernels := s.kernels.map fun (k : Nat × Kernel) =>
      (k.1, { k.2 with savedCl := k.2.savedCl.map fun (e : Nat × Cluster) =>
        (e.1, { e.2 with units := e.2.units.map fun (u : Nat × List Cmd) => (u.1, if u.1 = 9 then u.2.map fix else u.2) }) }) }

/-- Tries to write the oldest owed status of a queue whose time has come: words 6 and 7 of the record in one access, and
DEV_SEQ_ISSUED (R418); a failure is tried again after 1024 cycles (R294), and a granule that an atomic holds is waited for (R97). `retry` says whether it failed before. -/
def State.statusWrite (s : State) (q : Nat) (retry : Bool) : State :=
  let l := Tab.get {} s.queues q
  match l.status.find? fun e => e.2.2 ≤ s.now && (e.2.2 != 0) = retry with
  | none => s
  | some e =>
    match sysLoc s (lqPart s q) (lqAsid s q) (lqRec s q e.1) permW with
    | .error _ =>
      let later (x : Nat × Nat × Nat) : Nat × Nat × Nat := if x = e then (x.1, x.2.1, s.now + 1024) else x
      { s with queues := Tab.put s.queues q { l with status := l.status.map later } }
    | .ok (pa, slot) =>
      if reservedBy s pa (2 ^ 30) 0 then s
      else
      let d := ((pkg s 0x0a2).toNat + 1) % 2 ^ 64
      let s := writeUnder s (pa + 48) 16 (d + 2 ^ 64 * e.2.1) (some slot)
      let s := srSet s 0 0x0a2 (BitVec.ofNat 64 d)
      ({ s with queues := Tab.put s.queues q { l with status := l.status.erase e } }).statusDone q e.1

/-- The statuses that a queue owes, in the order in which their records were taken. -/
def State.sortOwed (s : State) : State :=
  { s with queues := s.queues.map fun (e : Nat × LQueue) =>
    let at_ (x : Nat × Nat × Nat) : Nat := (x.1 + 2 ^ 32 - lqDone s e.1) % 2 ^ 32
    (e.1, { e.2 with status := sortBy (fun x y => at_ x < at_ y) e.2.status }) }

/-- Every status owed is tried, queue by queue in TAKEN order (R420). -/
def State.statusAll (s : State) : State :=
  let s := s.sortOwed
  (s.queues.flatMap fun (e : Nat × LQueue) => e.2.status.map fun _ => e.1).foldl (fun s q => s.statusWrite q false) s

/-! ### Machine faults (R389 kind X, R399, R421) -/

/-- A machine fault enters the management core's queue. -/
def State.machineFault (s : State) (cz : Cause) (part kernel : Nat) : State :=
  let id := Tab.nextKey s.recs
  let w0 := chipId s * 2 ^ 52 + part * 2 ^ 35 + 0x7ff * 2 ^ 24 + 7 * 2 ^ 9 + causeCode cz
  let v := packWords [w0, 2 ^ 63, 0, 0, 0, 0, 0, s.now]
  let r : Rec := { val := v, nk := 0, kernel := kernel, part := part, mach := true }
  ({ s with recs := Tab.put s.recs id r }).toMonitor id

/-! ### Reset levels (R419, R420) -/

/-- RESET_STATUS with its LAST, SRC, STAGE and BERR (R419). -/
def setResetStatus (s : State) (last src stage berr : Nat) : State :=
  srSet s 0 0x0a1 (BitVec.ofNat 64 (last * 2 ^ 12 + src * 2 ^ 8 + stage * 2 ^ 4 + berr))
def bootStageOf (s : State) : Nat := rbits (pkg s 0x0a1) 4 3
def bootErr (s : State) : Nat := rbits (pkg s 0x0a1) 0 4
/-- LAST and SRC of a reset that starts no boot. -/
def setLast (s : State) (last src : Nat) : State := setResetStatus s last src (bootStageOf s) (bootErr s)

/-- Clears EN of the queues that `p` picks. -/
def State.disableQueues (s : State) (p : Nat → Bool) : State :=
  (List.range 64).foldl (fun s q =>
    if p q then srSet s 0 (lqReg q 1) (BitVec.ofNat 64 ((pkg s (lqReg q 1)).toNat % 2 ^ 63)) else s) s

/-- A cold reset (R420): every state takes its reset value; the contents of memory are undefined (assumption 4) and the
reserved limit of the signing index stays (R424). SRC tells a thermal trip. -/
def State.coldReset (s : State) : State :=
  let stored := rbits (pkg s 0x0a6) 32 21
  let src := if s.tripped then 3 else 0
  let t : State := { State.reset with now := s.now, sched := s.sched, inputs := s.inputs }
  let t := srSet t 0 0x0a6 (BitVec.ofNat 64 (stored * 2 ^ 32 + stored))
  setResetStatus t 0 src 0 0

/-- A warm reset (R420, R422): every kernel ends, the status words are written, the directory is emptied, and the boot
starts again at stage 1; the reset runs until the boot is done (R419). After a thermal trip only a cold reset acts (R425). -/
def State.warmReset (s : State) (src : Nat) : State :=
  if s.tripped then s
  else
    let s := (s.kernels.map (·.1)).foldl (fun s k => s.endKernel k 7 0) s
    let s := s.statusAll
    let s := (s.disableQueues fun _ => true).stopLoads
    setResetStatus { s with dir := {}, warm := true } 1 src 1 0

/-- The names, handles and objects of a partition go (R420). -/
def State.clearNames (s : State) (p : Nat) : State :=
  let asid := pkg s (0x301 + 8 * p)
  let mine (a : Nat) : Bool := rbits asid 0 16 ≤ a && a ≤ rbits asid 16 16
  { s with dir := {
      names := s.dir.names.filter fun (e : Nat × NameB) => e.1 / 2 ^ 64 != p
      objs := s.dir.objs.filter fun (e : Nat × Obj) => e.2.part != p
      handles := s.dir.handles.filter fun (e : Nat × Nat × Bool) => !mine (e.1 / 4096)
      waits := s.dir.waits.filter fun e => e.1 / 2 ^ 64 != p } }

/-- A partition reset (R420). -/
def State.partReset (s : State) (p src : Nat) : State :=
  let s := (s.kernels.map (·.1)).foldl (fun s k => match s.kern k with
    | some x => if x.part = p then s.endKernel k 7 0 else s
    | none => s) s
  let s := s.disableQueues fun q => lqPart s q = p
  setLast (s.clearNames p) 2 src

/-- A section abort (R419, R420): the kernel admitted from a record ends; with none it is ignored. -/
def State.abort (s : State) (q recno src : Nat) : State :=
  match s.kernels.find? fun (e : Nat × Kernel) => e.2.queue = q && e.2.recno = recno && e.2.st != .ended with
  | none => s
  | some e => setLast (s.endKernel e.1 7 0) 3 src

/-! ### Boot (R422), the signing index (R424) -/

/-- The boot goes on to its next stage, or fails at it with a BERR code (R422). Stage 4 finds the CXL ports' capacities, free
values of whole 64-byte lines that fill no more than each window (R14) and 3072 GB together (R15, R16). After a warm reset CHIP_ID,
the capacities and the link ports stand as they were (R420; assumption 63). -/
def State.boot (s : State) (fail : Nat) : State :=
  let st := bootStageOf s
  let last := rbits (pkg s 0x0a1) 12 4
  let src := rbits (pkg s 0x0a1) 8 4
  if bootErr s != 0 || s.tripped then s
  else if (st = 1 && fail = 1) || (st = 2 && (fail = 2 || fail = 3)) then setResetStatus s last src st fail
  else if 6 ≤ st then s
  else
    let s := setResetStatus s last src (st + 1) 0
    match st + 1 with
    | 2 =>
      let stored := rbits (pkg s 0x0a6) 32 21
      srSet s 0 0x0a6 (BitVec.ofNat 64 (stored * 2 ^ 32 + stored))
    | 3 =>
      let id := Config.freeWord s.sched.fresh
      let s := if s.warm then s else srSet s.takeFresh 0 0x0a0 (BitVec.ofNat 64 (rbits id 0 12))
      srSet s 0 (0x300 + 8 * 63) (BitVec.ofNat 64 (2 ^ 63 + 2 ^ 61 + rbits (pkg s (0x300 + 8 * 63)) 0 8))
    | 4 =>
      if s.warm then s
      else
      (List.range 6).foldl (fun s p =>
        let left := 3072000000000 - (s.memx.cxl.filter fun (e : Nat × Nat) => e.1 < p).foldl (fun a e => a + e.2) 0
        let cap := (Config.freeWord s.sched.fresh).toNat % (min (2 ^ 42) left / 64 + 1) * 64
        { s.takeFresh with memx := { s.memx with cxl := Tab.put s.memx.cxl p cap } }) s
    | 5 => if s.warm then s else (List.range 24).foldl (fun s p => setSlPort s p 1 2 (rbits (slPort s p) 8 1) 255) s
    | 6 => { s with warm := false }
    | _ => s

/-- The `n` bytes of a number, lowest first. -/
def leBytes (n v : Nat) : List Byte := (List.range n).map fun i => BitVec.ofNat 8 (v / 2 ^ (8 * i))

/-- The PT_* registers of every partition (R339). -/
def ptConfig (s : State) : List W64 := (List.range 64).flatMap fun p => (List.range 5).map fun i => pkg s (0x300 + 8 * p + i)

/-- A report is signed with the next index (R423, R424). -/
def State.sign (s : State) (nonce : Nat) : State :=
  let v := pkg s 0x0a6
  let next := rbits v 0 21
  if bootStageOf s < 3 || bootErr s != 0 || 2 ^ 20 ≤ next then s
  else
    let stored := if next = rbits v 32 21 then rbits v 32 21 + 16 else rbits v 32 21
    let body := leBytes 32 nonce ++ leBytes 2 (chipId s) ++ leBytes 2 0 ++ leBytes 4 next
      ++ (List.range 128).map (fun i => (Config.measurements (ptConfig s)).getD i 0) ++ leBytes 344 0
    { srSet s 0 0x0a6 (BitVec.ofNat 64 (stored * 2 ^ 32 + (next + 1))) with signed := body ++ Config.xmssSign next body }

/-! ### Power and heat (R425, R17, R19) -/

/-- The island of a place of a C-die (R17): a cluster's own; with the routers, the bridge and the slices for a slice. -/
def placeIsland (p : Nat) : Nat :=
  if p < 192 then
    let x := p % 96 % 12
    let y := p % 96 / 12
    p / 96 * 12 + y / 2 * 3 + x / 4
  else 24 + (p - 192) / 16

/-- The island of a router (R17), of a W-die, and of the HBM PHYs of a slice; those of the I-die and of its link SerDes. -/
def routerIsland (r : Nat) : Nat := 24 + r / 32
def wdieIsland (die : Nat) : Nat := 26 + die
def hbmIsland (slice : Nat) : Nat := 28 + slice / 16
def idieIsland : Nat := 30
def serdesIsland : Nat := 31

/-- The power controller sets the Sluices to RATE and DEPTH of its own; while it throttles it raises no rate (R333, R425). -/
def State.setSluices (s : State) (throttling : Bool) : State :=
  (List.range 192).foldl (fun s c =>
    let v := (Config.freeWord s.sched.fresh).toNat
    let rate := if throttling then min (rbits (sluiceReg s c) 0 9) (v % 257) else v % 257
    { s.takeFresh with sluice := Tab.put s.sluice c (rate, 1 + v / 257 % 65535) }) s

/-- The controller sees a junction temperature: THERMAL takes it, and the Sluices are set anew; at or above THR it throttles
(R425). -/
def State.throttle (s : State) (tj : Nat) : State :=
  (srSet s 0 0x0a3 (BitVec.ofNat 64 (tj % 65536))).setSluices (64 * rbits (pkg s 0x0a4) 8 8 ≤ tj % 65536)

/-- The thermal trip (R425): a machine fault, every kernel ends with CODE 8, and only a cold reset leaves the state. -/
def State.trip (s : State) (tj : Nat) : State :=
  let s := srSet s 0 0x0a3 (BitVec.ofNat 64 (tj % 65536))
  if tj % 65536 < 64 * rbits (pkg s 0x0a4) 0 8 || s.tripped then s
  else
    let s := (s.kernels.map (·.1)).foldl (fun s k => s.endKernel k 8 0x53) s
    let s := s.statusAll.machineFault .thermalTrip 0 0
    { s with tripped := true, islands := (List.range 32).map fun i => (i, Config.minPower + 1) }

end Sys2Proof.Machine
end

