-- ==== Sys2Proof/Machine/Regs.lean ====
section
/-!
DEFINITION. System registers as software reaches them (R5, R6, R338, R354, R356, R416, R429 to R431): which writes are
allowed, which values, and what a write does.
-/

namespace Sys2Proof.Machine

/-- Who reads or writes a register: its privilege and partition, its node when it is one, its cluster, and whether it is
the host. -/
structure Party0 where
  priv : Nat
  part : Nat
  nk : Option Nat := none
  host : Bool := false
deriving DecidableEq, Repr

/-- The node as a party of register accesses. -/
def State.nodeParty (s : State) (nk : Nat) : Party0 :=
  { priv := partPriv s (s.nd nk).part, part := (s.nd nk).part, nk := some nk }

/-- The parties outside the nodes: 0 the host, 1 the management core, 2 the service core (R416, R421, R430). -/
def State.agent (s : State) (a : Nat) : Party0 :=
  { priv := if a = 1 then 2 else 1, part := rbits (pkg s 0x0ca) 0 6, host := decide (a = 0) }

/-- The copy of register `n` that a party reaches; none for a register of a node, cluster or die reached from outside. -/
def State.copyFor (s : State) (w : Party0) (n : Nat) : Option Nat :=
  match heldPer n, w.nk with
  | .package, _ => some 0
  | .partition, _ => some (4096 + w.part)
  | _, none => none
  | .node, some nk => some (256 + nk)
  | .cluster, some nk => some (8 + nk / 8)
  | .die, some nk => some (1 + nk / 8 / 96)

/-! ### Reading -/

/-- SELF (R341). -/
def selfReg (s : State) (nk : Nat) : Nat :=
  let n := s.nd nk
  n.asid * 2 ^ 48 + n.part * 2 ^ 42 + partPriv s n.part * 2 ^ 40 + nk / 8 * 2 ^ 32 + nk % 8 * 2 ^ 29

/-- The context slots of a partition that are in use (R403). -/
def State.slotsUsed (s : State) (part : Nat) : List Nat :=
  s.kernels.flatMap fun (e : Nat × Kernel) => if e.2.part = part then e.2.slots else []

/-- A register that counts events (R354). -/
def isCnt (n : Nat) : Bool := 0x500 ≤ n && n ≤ 0x5df && n % 2 = 1
def isSel (n : Nat) : Bool := 0x500 ≤ n && n ≤ 0x5df && n % 2 = 0

/-- A register as a party reads it (R356, R354). -/
def State.regRead (s : State) (w : Party0) (n : Nat) : W64 :=
  match s.copyFor w n with
  | none => 0
  | some copy =>
    let v := srGet s copy n
    if !srAssigned n || n = 0x0a7 then 0
    else if n = 0x0c9 then (match w.nk with | none => 0 | some nk => BitVec.ofNat 64 (selfReg s nk))
    else if n = 0x063 then
      let cnt := rbits v 0 16
      BitVec.ofNat 64 ((cnt - (s.slotsUsed w.part).length) * 2 ^ 32 + cnt)
    else if isCnt n then
      let sel := srGet s copy (n - 1)
      if w.priv = 2 || rbits sel 49 1 = 1 || rbits sel 50 6 = w.part then v else 0
    else v

/-! ### Writes of one cycle (R431) -/

/-- The place of a writer among those of one reference cycle: the host, the management core, the service core, then the nodes. -/
def regRank (w : Party0) : Nat :=
  match w.nk with
  | some nk => 3 + nk
  | none => if w.host then 0 else if w.priv = 2 then 1 else 2

/-- The place past every writer's: nothing more is written in this cycle. -/
def regClosed : Nat := 4096

def State.regKey (s : State) (w : Party0) (n : Nat) : Option Nat := (s.copyFor w n).map fun c => c * 2048 + n

/-- The writer's turn has not passed in this cycle. -/
def State.regTurn (s : State) (w : Party0) (n : Nat) : Bool :=
  match (s.regKey w n).bind (Tab.find s.srSeen) with
  | some (t, r) => t != s.now || decide (r ≤ regRank w)
  | none => true

/-- A write takes its turn; a read after a write of the cycle ends the turns. -/
def State.regTake (s : State) (w : Party0) (n : Nat) : State :=
  match s.regKey w n with
  | none => s
  | some k => { s with srSeen := Tab.put s.srSeen k (s.now, regRank w) }
def State.regClose (s : State) (w : Party0) (n : Nat) : State :=
  match s.regKey w n with
  | none => s
  | some k =>
    if (Tab.find s.srSeen k).any fun e => e.1 = s.now then { s with srSeen := Tab.put s.srSeen k (s.now, regClosed) } else s

/-! ### What may be written -/

/-- Registers that ignore every write (R5). -/
def regRO (n : Nat) : Bool :=
  n = 0x068 || (0x080 ≤ n && n ≤ 0x097) || n = 0x0a1 || n = 0x0a2 || n = 0x0a3 || n = 0x0a6 || n = 0x0c9
    || (0x0d0 ≤ n && n ≤ 0x0d7) || (0x100 ≤ n && n ≤ 0x1ff && n % 4 = 3) || (0x200 ≤ n && n ≤ 0x2ff && n % 4 = 3)
    || isCnt n || (0x680 ≤ n && n ≤ 0x6bf) || !srAssigned n

/-- The privilege that a write of value `v` needs (R338 and the registers' entries). -/
def regNeed (s : State) (n v : Nat) : Nat :=
  if n = 0x010 || n = 0x011 || (0x040 ≤ n && n ≤ 0x043) || (0x048 ≤ n && n ≤ 0x04f) || isSel n then 0
  else if n = 0x0a0 || n = 0x0a4 || n = 0x0c8 then 2
  else if n = 0x0a7 then
    (if bits v 62 2 = 1 || (bits v 62 2 = 2 && 1 ≤ partPriv s (bits v 56 6)) then 2 else 0)
  else if 0x300 ≤ n && n ≤ 0x4ff then (if n % 8 = 0 then 1 else 2)
  else if 0x200 ≤ n && n ≤ 0x2ff && n % 4 = 1 then
    (if bits v 63 1 = 1 && rbits (pkg s n) 63 1 = 0 && partPriv s (bits v 48 6) = 2 then 2 else 1)
  else 1

/-- A value outside its column, in a field with no other fate (R356). -/
def regValueBad (s : State) (w : Party0) (n v : Nat) : Bool :=
  if n = 0x040 then 383 < bits v 0 9
  else if n = 0x050 then bits v 0 28 % 2048 != 0
  else if n = 0x051 then bits v 0 28 % 0x400000 != 0
  else if n = 0x052 then bits v 0 28 % 0x20000 != 0
  else if n = 0x070 then bits v 0 28 % 8192 != 0
  else if n = 0x071 then bits v 0 28 % 4096 != 0
  else if n = 0x0a4 then !(60 ≤ bits v 8 8 && bits v 8 8 ≤ 105)
  else if n = 0x0a5 then !(300 ≤ bits v 0 16 && bits v 0 16 ≤ 2500)
  else if 0x100 ≤ n && n ≤ 0x1ff then
    (match n % 4 with
    | 0 => bits v 56 8 = 0 || bits v 0 12 != 0
    | 1 => bits v 56 8 < rbits (pkg s (n - 1)) 56 8 || bits v 56 8 = 0 || bits v 0 12 != 0
    | 2 => bits v 48 16 = 0 || bits v 16 16 = 0 || bits v 0 16 = 0
    | _ => false)
  else if 0x300 ≤ n && n ≤ 0x4ff then
    (match n % 8 with
    | 0 => w.priv = 2 && bits v 61 2 = 3
    | 1 => bits v 16 16 < bits v 0 16
    | 2 => bits v 0 11 = 0 || 2048 < bits v 0 11 + bits v 16 11
    | 3 => bits v 32 29 % 4096 != 0 || 2 ^ 28 < bits v 32 29 || bits v 0 12 != 0
    | 4 => bits v 0 6 != 0
    | _ => false)
  else if isSel n then 16 < bits v 0 8
  else if 0x600 ≤ n && n ≤ 0x67f && n % 2 = 1 then bits v 0 3 = 7
  else false

/-- Why a write faults when it comes from a node; from elsewhere it is then ignored (R338, R356, R416). -/
def State.writeFault (s : State) (w : Party0) (n v : Nat) : Option Cause :=
  if regRO n then none
  else if w.priv < regNeed s n v then some .privilege
  else if isSel n && w.priv < 2 &&
      (match s.copyFor w n with
      | none => false
      | some copy => rbits (srGet s copy n) 63 1 = 1 && rbits (srGet s copy n) 50 6 != w.part) then some .privilege
  else if regValueBad s w n v then some .reservedCode
  else none

/-- The bits of a register that exist and a write sets. -/
def regMask (n : Nat) : Nat :=
  let span (hi lo : Nat) : Nat := 2 ^ (hi + 1) - 2 ^ lo
  if n = 0x010 then span 9 4 + 7
  else if n = 0x011 then 31
  else if n = 0x040 || n = 0x041 then span 8 0
  else if n = 0x042 then span 51 7
  else if n = 0x043 || n = 0x044 || (0x04c ≤ n && n ≤ 0x04f) then span 31 0
  else if 0x050 ≤ n && n ≤ 0x052 then span 27 0
  else if n = 0x060 then 255
  else if n = 0x061 then span 31 0
  else if n = 0x062 then span 51 23
  else if n = 0x063 then span 15 0
  else if n = 0x070 || n = 0x071 then span 27 0
  else if n = 0x0a0 then span 11 0
  else if n = 0x0a4 || n = 0x0a5 then span 15 0
  else if n = 0x0c0 then span 31 0
  else if n = 0x0c8 then span 51 20
  else if n = 0x0ca then span 5 0
  else if 0x0f8 ≤ n && n ≤ 0x0fb then span 63 12 + 15
  else if n = 0x0fc then span 31 0
  else if 0x100 ≤ n && n ≤ 0x1ff then (if n % 4 < 2 then span 63 56 + span 51 0 else span 63 42 + span 34 0)
  else if 0x200 ≤ n && n ≤ 0x2ff then
    (match n % 4 with | 0 => span 51 6 | 1 => span 63 63 + span 53 32 + span 15 0 | _ => span 31 0)
  else if 0x300 ≤ n && n ≤ 0x4ff then
    (match n % 8 with
    | 0 => span 63 61 + 255 | 1 => span 47 0 | 2 => span 26 16 + span 10 0 | 3 => span 60 32 + span 27 0 | _ => span 27 0)
  else if isSel n then span 63 63 + span 55 49 + 255
  else if 0x600 ≤ n && n ≤ 0x67f && n % 2 = 1 then 15
  else span 63 0

/-! ### Special writes -/

/-- The chips of the 256 entries of a chip-group table in CSM at an offset (R48), ascending. -/
def cgrpRead (s : State) (off : Nat) : Tab (List Nat) :=
  (s.mem.filter fun (e : Host.Cell) => csmKey off ≤ e.1 && e.1 < csmKey off + 0x20000).foldl (fun t e =>
    let a := e.1 - csmKey off
    let chips := ((List.range 8).filter fun b => e.2.getLsbD b).map fun b => a % 512 * 8 + b
    Tab.mod [] t (a / 512) fun l => l ++ chips) []

/-- A table that the fabric unit takes (R48): no chip in more than four entries, and readable. -/
def cgrpGood (s : State) (off : Nat) (t : Tab (List Nat)) : Bool :=
  let all := t.flatMap fun (e : Nat × List Nat) => e.2
  all.all (fun c => (all.filter (· = c)).length ≤ 4)
    && !s.memx.bad.any fun g => csmKey off ≤ g && g < csmKey off + 0x20000

/-- CGRP_TABLE is written (R48). -/
def State.writeCgrp (s : State) (part v : Nat) : State :=
  let off := bits v 0 28
  let t := cgrpRead s off
  if cgrpGood s off t then
    { srSet s (4096 + part) 0x052 (BitVec.ofNat 64 (2 ^ 63 + off)) with cgrp := Tab.put s.cgrp part t }
  else srSet s (4096 + part) 0x052 (BitVec.ofNat 64 off)

/-- The entries of a port's slot table in CSM; none when the port refuses it (R329). -/
def slTable (s : State) (base p : Nat) : Option (List W64) :=
  let at_ (o : Nat) : Nat := memRead s (csmKey (base + 4096 * p + o)) 8
  let n := at_ 0
  let es := (List.range n).map fun e => BitVec.ofNat 64 (at_ (64 + 8 * e))
  let port (k : Nat) : Bool := k < 24 || k = 31
  if 256 < n || (List.range 7).any fun k => at_ (8 * (k + 1)) != 0 then none
  else if es.any fun e => rbits e 0 46 != 0 || !port (rbits e 51 5) || !port (rbits e 46 5) then none
  else if !decide (es.map fun e => (rbits e 56 8, rbits e 46 5)).Nodup then none
  else if es.any fun e => 192 < (es.filter fun x => rbits x 46 5 = rbits e 46 5).length then none
  else some es

/-- SL_SLOT_BASE is written (R329): every port reads its table and applies it from its next slot 0. -/
def State.writeSlots (s : State) (v : Nat) : State :=
  let s := srSet s 0 0x071 (BitVec.ofNat 64 (bits v 0 28))
  (List.range 24).foldl (fun s p =>
    let t := slTable s (bits v 0 28) p
    let w := slPort s p
    let s := setSlPort s p (rbits w 14 2) (rbits w 12 2) t.isNone.toNat (rbits w 0 8)
    s.modLink p fun l =>
      let old := match l.tabNew with | some (t, x) => if t ≤ s.now then x else l.tab | none => l.tab
      { l with tab := old, tabNew := some ((s.now / 256 + 1) * 256, t.getD []) }) s

/-- LQ_CFG is written (R291): enabling a queue starts it afresh at TAIL. -/
def State.writeLqCfg (s : State) (w : Party0) (q v : Nat) : State :=
  let old := pkg s (lqReg q 1)
  let en := bits v 63 1
  if rbits old 63 1 = 1 then srSet s 0 (lqReg q 1) (BitVec.ofNat 64 (old.toNat % 2 ^ 63 + en * 2 ^ 63))
  else if en = 0 then srSet s 0 (lqReg q 1) (BitVec.ofNat 64 (v &&& regMask 0x201))
  else if w.host && partPriv s (bits v 48 6) != 0 then s
  else
    let s := srSet s 0 (lqReg q 1) (BitVec.ofNat 64 (v &&& regMask 0x201))
    let t := lqTail s q
    let s := srSet s 0 (lqReg q 3) (BitVec.ofNat 64 (t * 2 ^ 32 + t))
    let s := srSet s 0 (0x680 + q) 0
    let mark (k : Kernel) : Kernel := if k.queue = q then { k with noStatus := true } else k
    let l := Tab.get {} s.queues q
    { s with
      queues := Tab.put s.queues q { l with expect := none, headAt := none, bypass := 0, status := [], done := [] }
      kernels := s.kernels.map fun (e : Nat × Kernel) => (e.1, mark e.2) }

/-- LQ_TAIL is written (R291). -/
def State.writeLqTail (s : State) (q v : Nat) : State :=
  let t := bits v 0 32
  if lqEnt s q + 1 < (t + 2 ^ 32 - lqDone s q) % 2 ^ 32 then countAt s (lqPart s q) [0] 9 1
  else if lqEn s q then s.setTail q t
  else srSet s 0 (lqReg q 2) (BitVec.ofNat 64 t)

/-- PT_CFG is written (R339): below privilege M, SHARE alone. -/
def State.writePtCfg (s : State) (w : Party0) (n v : Nat) : State :=
  let old := pkg s n
  if w.priv = 2 then srSet s 0 n (BitVec.ofNat 64 (v &&& regMask 0x300))
  else srSet s 0 n (BitVec.ofNat 64 (old.toNat / 256 * 256 + v % 256))

/-- SAFE_SEL, DSAFE_SEL or ISAFE_SEL is written (R354). -/
def State.writeSel (s : State) (w : Party0) (copy n v : Nat) : State :=
  let old := srGet s copy n
  let owner := if w.priv = 2 then bits v 50 6 else w.part
  let grant := if w.priv = 2 then bits v 49 1 else rbits old 49 1
  let s := if rbits old 63 1 = 0 && bits v 63 1 = 1 then srSet s copy (n + 1) 0 else s
  srSet s copy n (BitVec.ofNat 64 (bits v 63 1 * 2 ^ 63 + owner * 2 ^ 50 + grant * 2 ^ 49 + bits v 0 8))

/-- RESET_CTL is written: the reset is made (R419). One that a node asks for has the management core's source. -/
def State.writeReset (s : State) (w : Party0) (v : Nat) : State :=
  let src := if w.host then 1 else 2
  match bits v 62 2 with
  | 1 => s.warmReset src
  | 2 => s.partReset (bits v 56 6) src
  | 3 => s.abort (bits v 56 6) (bits v 0 32) src
  | _ => s

/-- A write that is allowed takes effect (R5, R6). -/
def State.regWrite (s : State) (w : Party0) (n v : Nat) : State :=
  match s.copyFor w n with
  | none => s
  | some copy =>
    let old := (srGet s copy n).toNat
    let set (x : Nat) : State := srSet s copy n (BitVec.ofNat 64 x)
    if regRO n then s
    else if n = 0x010 then set ((v &&& 0x3f0) + (if bits v 0 3 ≤ 4 then bits v 0 3 else old % 8))
    else if n = 0x011 then set (old - (old &&& v))
    else if n = 0x041 then set (min 384 (v &&& 511))
    else if n = 0x052 then s.writeCgrp w.part v
    else if n = 0x060 || n = 0x061 then (if v &&& regMask n = 0 then s else set (v &&& regMask n))
    else if n = 0x063 then (if (s.slotsUsed w.part).isEmpty then set (v &&& regMask n) else s)
    else if n = 0x071 then s.writeSlots v
    else if n = 0x0a4 then
      set (bits v 8 8 * 256 + (if bits v 8 8 + 5 ≤ bits v 0 8 && bits v 0 8 ≤ 115 then bits v 0 8 else old % 256))
    else if n = 0x0a7 then s.writeReset w v
    else if 0x200 ≤ n && n ≤ 0x2ff then
      (let q := (n - 0x200) / 4
       match n % 4 with
       | 0 => if rbits (pkg s (n + 1)) 63 1 = 1 then s else set (v &&& regMask n)
       | 1 => s.writeLqCfg w q v
       | _ => s.writeLqTail q v)
    else if 0x300 ≤ n && n ≤ 0x4ff && n % 8 = 0 then s.writePtCfg w n v
    else if isSel n then s.writeSel w copy n v
    else set (v &&& regMask n)

/-- A write by the host or a core: one that is not allowed, or whose value is outside its column, is ignored (R416,
assumption 15); one whose turn has passed does not come in this cycle (R431). -/
def State.agentWrite (s : State) (a n v : Nat) : State :=
  let w := s.agent a
  let v := v % 2 ^ 64
  if 2 < a || 2048 ≤ n then s
  else
    match s.writeFault w n v with
    | some _ => s
    | none => if s.regTurn w n then (s.regTake w n).regWrite w n v else s

end Sys2Proof.Machine
end

