-- ==== Sys2Proof/Machine/Isol.lean ====
section
/-!
DEFINITION. System-register, translation and key instructions (R355 to R360): RDSR, WRSR, TINV, TSYNC, TPROBE and KEYSET,
and what their holders and controllers do (R348, R349).
-/

namespace Sys2Proof.Machine

/-- The privilege of a node. -/
def State.privOf (s : State) (nk : Nat) : Nat := partPriv s (s.nd nk).part

/-- The privilege that acting on an ASID needs (R357, R359). -/
def State.asidNeed (s : State) (nk asid : Nat) : Nat :=
  let n := s.nd nk
  if asid = n.asid then 0 else if asidIn s n.part asid then 1 else 2

/-- An instruction that performs when it fires (R355): absorbed, waiting for older invocations, or `f`. -/
def atOnce (op : Op) (prd : Prd) (p : Ports) (wait : Bool) (f : Issue → Inv → State → State) (s : State) : Out :=
  match s.sched.cur with
  | none => .next s
  | some i =>
    match s.invOf i with
    | none => .next s
    | some v =>
      if !predHolds prd i || p.null i then .next (s.report i false)
      else if i.status.er then .next (s.fault i op .errorOperand)
      else if !p.ok i then .next (s.fault i op .widthMismatch)
      else if wait && !(s.nd i.nk).oldest v.age then .next s.waits
      else .next (f i v s)

/-- Sends a scalar result and reports (R355). -/
def State.answerSlot (s : State) (i : Issue) (t : Target) (n : Nat) : State :=
  let o : Opnd := { val := sc64 n }
  (s.send i t .data (o.plus i.status)).report i true

/-- R356. -/
def execRdsr (w : SWord) (s : State) : Out :=
  atOnce .rdsr w.prd { l := .any } true
    (fun i _ s =>
      let p := s.nodeParty i.nk
      (s.regClose p w.srn.toNat).answerSlot i w.t0 (s.regRead p w.srn.toNat).toNat) s

/-- An S-format instruction held to commit. -/
def sHeld (op : Op) (ins : Instr) (prd : Prd) (p : Ports) (chk : Issue → Inv → State → Option Cause) (s : State) : Out :=
  match s.sched.cur with
  | none => .next s
  | some i => .next (heldFire op ins prd none p chk i s)

/-- R356: the value is checked when it fires, and the register written at commit (`wrsrIssue`). -/
def execWrsr (w : SWord) (s : State) : Out :=
  sHeld .wrsr (.wrsr w) w.prd { l := .sc } (fun i _ s => s.writeFault (s.nodeParty i.nk) w.srn.toNat i.lv) s

def State.wrsrIssue (s : State) (nk : Nat) (w : SWord) (l : Option Opnd) : State :=
  (s.regTake (s.nodeParty nk) w.srn.toNat).regWrite (s.nodeParty nk) w.srn.toNat ((l.map (·.val.nat)).getD 0)

/-! ### TINV and TSYNC (R348, R349, R357, R358) -/

/-- A value that R357 does not allow. -/
def tinvBad (w : SWord) (i : Issue) : Bool :=
  if bits w.imm.toNat 3 1 = 1 then i.lv != 0 || bits i.rv 16 48 != 0
  else bits i.lv 0 12 != 0 || bits i.lv 52 12 != 0 || bits i.rv 16 32 = 0 || bits i.rv 48 16 != 0

def execTinv (w : SWord) (s : State) : Out :=
  sHeld .tinv (.tinv w) w.prd { l := .sc, r := .sc }
    (fun i _ s =>
      if s.privOf i.nk < s.asidNeed i.nk (bits i.rv 0 16) then some .privilege
      else if tinvBad w i then some .reservedCode else none) s

/-- The caches of a cluster, and its block cache (R347). -/
def clHolders (c : Nat) : List Nat := [tlbCl c, tlbEng 1 c, tlbEng 2 c, tlbEng 3 c]
def blockHolder (c : Nat) : Nat := 8192 + c

/-- The holders in a TINV's scope (R357). -/
def tinvHolders (c scope : Nat) : List Nat :=
  match scope with
  | 1 => clHolders c
  | 2 => ((List.range 96).flatMap fun x => clHolders (c / 96 * 96 + x)) ++ [tlbDie (c / 96)]
  | _ => ((List.range 192).flatMap fun x => clHolders x ++ [blockHolder x]) ++ [tlbDie 0, tlbDie 1]

/-- TINV at its issue: it is sent to its holders. -/
def State.tinvIssue (s : State) (nk : Nat) (w : SWord) (l r : Option Opnd) : State :=
  let lv := (l.map (·.val.nat)).getD 0
  let rv := (r.map (·.val.nat)).getD 0
  let t : Tinv :=
    { id := s.tinvNext, nk := nk, part := (s.nd nk).part, asid := bits rv 0 16
      pages := if bits w.imm.toNat 3 1 = 1 then none else some (lv / 4096, bits rv 16 32)
      left := tinvHolders (nk / 8) (bits w.imm.toNat 0 3) }
  { s with tinvs := s.tinvs ++ [t], tinvNext := s.tinvNext + 1 }

/-- The TINV covers a byte range. -/
def Tinv.covers (t : Tinv) (a n : Nat) : Bool :=
  match t.pages with
  | none => true
  | some (p, cnt) => a < (p + cnt) * 4096 && p * 4096 < a + n

/-- The TINV covers part of an entry (R348). -/
def Tinv.hits (t : Tinv) (e : TEnt) : Bool :=
  e.asid = t.asid && t.covers (e.vpn * 2 ^ pageShift e.level) (2 ^ pageShift e.level)

/-- The clusters that a holder serves. -/
def holderHas (h c : Nat) : Bool :=
  if 8192 ≤ h then h - 8192 = c else if 2048 ≤ h then c / 96 = h - 2048 else h % 256 = c

/-- Step 1 of R348. -/
def State.tinvDrop (s : State) (t : Tinv) (h : Nat) : State :=
  if 8192 ≤ h then
    s.modCl (h - 8192) fun x => { x with bcache := x.bcache.filter fun e => !(e.1 = t.asid && t.covers e.2.1 64) }
  else { s with tlb := Tab.mod [] s.tlb h fun l => l.filter fun e => !t.hits e }

/-- The ASID of a partition that other chips and forwarded pages use (R346). -/
def State.rasid (s : State) (part : Nat) : Nat := rbits (pkg s (0x301 + 8 * part)) 32 16

/-- Bytes reached through an address of a space, under `asid` or, past a forward entry to the own chip, under the RASID, may have
used a translation of the range (R346, R348). -/
def State.pageUsed (s : State) (t : Tinv) (part asid : Nat) (asp : Asp) (addr size : Nat) : Bool :=
  let r := s.rasid part
  match asp with
  | .gv => (asid = t.asid && t.covers addr size) || r = t.asid
  | .kv => kvAsid s part (bits addr 48 16) = t.asid || r = t.asid
  | .rm => r = t.asid && bits addr 52 12 = chipId s
  | _ => false

/-- An access of a node has used a translation of the range and is not performed (R348). -/
def State.accUses (s : State) (t : Tinv) (n : Node) (a : Acc) : Bool :=
  !a.done && !a.off && !a.held && !a.loc.isEmpty &&
    ((accAddrs a).any fun x => s.pageUsed t n.part n.asid a.w.asp x.2 64)

/-- A command of an engine has used a translation of the range, and is not done with it (R348, R411). -/
def State.cmdUses (s : State) (t : Tinv) (c : Nat) (m : Cmd) : Bool :=
  let open_ (a : EngAcc) : Bool := !(a.todo.isEmpty && a.out.isEmpty)
  m.trs.any t.hits
    || m.accs.any (fun a => open_ a && (if a.spc = 3 then s.pageUsed t m.part m.asid .gv a.addr 64
        else if a.spc = 4 then s.pageUsed t m.part m.asid .kv a.addr 64
        else a.ps.any fun p => p.slot.isSome))
    || ((m.asid = t.asid || !m.hnds.isEmpty || s.rasid m.part = t.asid)
      && (!m.jobs.isEmpty || s.nv.any fun v => v.owner = .cmd c m.id))

/-- Step 2 of R348: an access or an engine command still uses what a holder served. -/
def State.tinvUsed (s : State) (t : Tinv) (h : Nat) : Bool :=
  (s.nodes.any fun (e : Nat × Node) => e.2.asg.isSome && holderHas h (e.1 / 8) && e.2.mif.any (s.accUses t e.2))
    || (s.clusters.any fun (e : Nat × Cluster) =>
      holderHas h e.1
        && (e.2.units.any (fun (u : Nat × List Cmd) => u.2.any (s.cmdUses t e.1))
          || e.2.dlvs.any fun d => d.away != 0 && ((Tab.find e.2.windows d.w).any fun w => w.asid = t.asid || s.rasid w.part = t.asid)))
    || (s.kvl.any fun (e : Nat × KvLoad) =>
      holderHas h e.2.c && e.2.st != .ring && kvAsid s e.2.part e.2.seq = t.asid)
    || (h = tlbDie 0 && s.farHolds.any fun f => f.asid = t.asid && t.covers f.va 64)

/-- TSYNCs whose TINVs are all acknowledged complete (R349, R358). -/
def State.tsyncCheck (s : State) : State :=
  let ready (x : Tsync) : Bool := !s.tinvs.any fun t => t.nk = x.nk && t.id < x.upto
  let done := s.tsyncs.filter ready
  let s := { s with tsyncs := s.tsyncs.filter fun x => !ready x }
  done.foldl (fun s x =>
    match x.place with
    | none => s
    | some (q, p) => s.fillPlace x.nk q p .reply x.o) s

/-- The `k`-th pair of a TINV and a holder: it drops entries, and acknowledges once nothing uses them (R348, R354). -/
def State.tinvAck (s : State) (k : Nat) : State :=
  match (s.tinvs.flatMap fun t => t.left.map fun h => (t, h))[k]? with
  | none => s
  | some (t, h) =>
    let s := s.tinvDrop t h
    if s.tinvUsed t h then s
    else
      let s := countAt s t.part (if 2048 ≤ h && h < 8192 then [1 + (h - 2048), 0] else [8 + h % 256, 1 + h % 256 / 96, 0]) 16 1
      let upd (x : Tinv) : Tinv := if x.id = t.id then { x with left := x.left.erase h } else x
      ({ s with tinvs := (s.tinvs.map upd).filter fun x => !x.left.isEmpty }).tsyncCheck

def execTsync (w : SWord) (s : State) : Out := sHeld .tsync (.tsync w) w.prd { l := .any } (fun _ _ _ => none) s

/-- TSYNC at its issue (R358). -/
def State.tsyncIssue (s : State) (nk age : Nat) (l : Option Opnd) (place : Option (Nat × Nat)) : State :=
  let x : Tsync := { nk := nk, age := age, place := place, o := (Opnd.ofNat 1).plus (statusOf [l]), upto := s.tinvNext }
  ({ s with tsyncs := s.tsyncs ++ [x] }).tsyncCheck

/-! ### TPROBE (R359) -/

/-- The partition for which a probe walks: the node's for an ASID of its range, else that of the ASID's entry. -/
def State.probePart (s : State) (part asid : Nat) : Nat :=
  if asidIn s part asid then part
  else
    match tableWord s (rbits (pkg s 0x0c8) 20 32 * 2 ^ 20 + 16 * asid) with
    | .ok e => bits e 52 6
    | _ => part

/-- The scalar of R359. -/
def probeRes (info : Bool) : Walk → Nat
  | .found level pte => if info then level + (if bits pte 61 2 = 2 then 8 else 0) else pte
  | .fail o level => if info then level + 16 * o else 0
  | .unc level _ => if info then level + 64 else 0

def execTprobe (w : SWord) (s : State) : Out :=
  atOnce .tprobe w.prd { l := .sc, r := .sc } true
    (fun i _ s =>
      let asid := bits i.rv 0 16
      if s.privOf i.nk < s.asidNeed i.nk asid then s.fault i .tprobe .privilege
      else if bits i.lv 52 12 != 0 || bits i.rv 16 48 != 0 then s.fault i .tprobe .reservedCode
      else
        s.answerSlot i w.t0
          (probeRes (bits w.imm.toNat 0 1 = 1) (walk s (s.probePart (s.nd i.nk).part asid) asid i.lv))) s

/-! ### KEYSET (R360) -/

def execKeyset (w : SWord) (s : State) : Out :=
  sHeld .keyset (.keyset w) w.prd { l := .vec, r := .sc }
    (fun i _ s =>
      if s.privOf i.nk < 2 then some .privilege
      else if bits i.rv 17 47 != 0 || bits i.rv 11 5 != 0 then some .reservedCode else none) s

/-- KEYSET at its issue: no new access uses the slot until it is replaced. -/
def State.keysetIssue (s : State) (nk age : Nat) (l r : Option Opnd) (place : Option (Nat × Nat)) : State :=
  let rv := (r.map (·.val.nat)).getD 0
  let v := match l with | some { val := .vec v, .. } => v | _ => 0
  let x : Kset :=
    { nk := nk, age := age, place := place, o := (Opnd.ofNat 1).plus (statusOf [l, r]), slot := bits rv 0 11, val := if bits rv 16 1 = 1 then none else some v }
  { s with ksets := s.ksets ++ [x] }

/-- An access that used a slot is not performed. -/
def State.slotUsed (s : State) (slot : Nat) : Bool :=
  s.nodes.any fun (e : Nat × Node) => e.2.mif.any fun a => a.st = .reserved && a.loc.any fun p => p.slot = some slot

/-- The `k`-th KEYSET replaces its slot (R360). -/
def State.keyReplace (s : State) (k : Nat) : State :=
  match s.ksets[k]? with
  | none => s
  | some x =>
    if s.slotUsed x.slot || (s.ksets.take k).any fun y => y.slot = x.slot then s
    else
      let s := { s with keys := Tab.put s.keys x.slot x.val, ksets := dropAt k s.ksets }
      match x.place with
      | none => s
      | some (q, p) => s.fillPlace x.nk q p .reply x.o

end Sys2Proof.Machine
end

