-- ==== Sys2Proof/Machine/Trap.lean ====
section
/-!
DEFINITION. TRAP, BRK, FRET and FREC (R406 to R410), and how a record is resolved (R393, R396, R409, R421).
-/

namespace Sys2Proof.Machine

/-- R407: held; at the commit the node asks for a handler (`trapTake`). -/
def execTrap (w : SWord) (s : State) : Out := sHeld .trap (.trap w) w.prd { l := .sc } (fun _ _ _ => none) s

/-- R408. -/
def execBrk (w : SWord) (s : State) : Out :=
  atOnce .brk w.prd { l := .any } false
    (fun i v s =>
      if (s.nd i.nk).skip = some v.n then s.report i false
      else s.fault i .brk .breakpoint fun p => { p with x := bits w.imm.toNat 0 14 }) s

/-- The record that an invocation serves. -/
def State.served (s : State) (v : Inv) : Option Rec := (v.spawn.bind (·.record)).bind fun id => Tab.find s.recs id

/-- R410. -/
def execFrec (w : SWord) (s : State) : Out :=
  atOnce .frec w.prd { l := .any } false
    (fun i v s =>
      match s.served v with
      | none => s.fault i .frec .noFaultRecord
      | some r => s.answerSlot i w.t0 (wordOf r.val (bits w.imm.toNat 0 3)).toNat) s

/-- The invocation holds a FRET. -/
def Inv.fretHeld (v : Inv) : Bool := v.held.any fun h => match h with | .cmd _ (.fret _) _ _ _ => true | _ => false

/-- R409: held; it resolves the record at the commit (`resolveRec`). -/
def execFret (w : SWord) (s : State) : Out :=
  sHeld .fret (.fret w) w.prd { l := .any }
    (fun _ v s =>
      if (s.served v).isNone then some .noFaultRecord else if v.fretHeld then some .doubleReturn else none) s

/-- The effect of a resolution on the faulted node (R409): 0 RES, 1 ABN, 2 KRN. -/
def State.resolveRec (s : State) (id mode : Nat) (skip : Bool) : State :=
  match Tab.find s.recs id with
  | none => s
  | some r =>
    let gone (s : State) : State :=
      { s with recs := Tab.del s.recs id, monQ := s.monQ.filter (· != id) }
    match s.kern r.kernel with
    | none => gone s
    | some x =>
      if r.mach && mode < 2 then s
      else if x.st = .ended then gone s
      else if x.st = .saved then
        gone (s.modKern r.kernel fun y => { y with frets := y.frets ++ [(r.nk, mode + 4 * bits (wordOf r.val 0).toNat 0 7, skip)] })
      else
        let s := gone s
        match mode with
        | 0 => (s.resumeNode r.nk skip).kernelsCheck
        | 1 =>
          if (s.nd r.nk).st = .ended then s.kernelsCheck
          else
            let s := (s.dropTags r.nk).modNd r.nk fun n => { n with aband := n.callable }
            (s.endNode r.nk).kernelsCheck
        | _ => s.endKernel r.kernel 8 (bits (wordOf r.val 0).toNat 0 7)

/-- A FRET acts at its commit (R409): `tag` is the invocation's tag. -/
def State.fretIssue (s : State) (nk tag : Nat) (w : SWord) : State :=
  match (Tab.find (s.nd nk).tags tag).bind (·.record) with
  | none => s
  | some id => s.resolveRec id (bits w.imm.toNat 0 2) (bits w.imm.toNat 2 1 = 1)

/-- A TRAP asks for a handler at its commit (R407): the younger invocations are discarded and the record formed; the exit
of the commit has set where a resume continues (iteration 0 of its block), else it is iteration n + 1. -/
def State.trapTake (s : State) (nk ix n ws age aux x : Nat) : State :=
  let nd := s.nd nk
  let f : Pending :=
    { cause := .trap, n := n, ws := ws, age := age, ix := some ix, trp := true, aux := aux, x := x, opc := 0xfe, sub := 0, at_ := s.now }
  let ended := nd.st = .ended
  let rst := if nd.next = 0 then 0 else (n + 1) % 2 ^ 32
  let s := if ended then s else s.discardFrom nk (age + 1)
  let s := s.formRecord nk f (if ended then 0 else rst) ((nd.moveTo).getD nd.pc)
  if ended then s
  else s.modNd nk fun m => { m.stepGen with stop := true, next := rst, rst := rst, okNext := true, st := .faulted }

end Sys2Proof.Machine
end

