-- ==== Sys2Proof/Machine/Token.lean ====
section
/-!
DEFINITION. What an instruction's operand set is (R43, R67), the arrival of tokens at elements (R22 to R34), the matching
store and the spill table, and done tokens (R94).
-/

namespace Sys2Proof.Machine

/-! ### The ports of an instruction (R43) -/

/-- A G-format instruction takes a token on R, when IR is 0. -/
def gUsesR (op : Op) (w : GWord) : Bool :=
  !w.ir &&
    match op with
    | .merge | .pand | .por | .pxor | .add | .sub | .mul | .mulh | .mulhn | .div | .divn | .rem | .remn | .adds | .subs
      | .madd | .and | .or | .xor | .andn | .shl | .shr | .sar | .rot | .min | .max | .lea | .ceq | .cne | .clt | .cle
      | .cltn | .clen | .fadd | .fsub | .fmul | .fma | .fnma | .fdiv | .fmin | .fmax | .fsgn | .fscale | .fceq | .fclt
      | .fcle | .fcun | .qnt | .dqnt | .mxunpk | .pack | .vbcastLane | .vext | .vins | .vperm | .vdot | .vsel | .vcmp
      | .mand | .mor | .mxor | .mbit | .mtst => true
    | .gscale => bits w.mf.toNat 1 1 = 0
    | .mxpack => w.ty = .f32
    | .vshuf => w.mf != 5
    | _ => false

/-- The data ports of a G-format instruction. -/
def gPorts (op : Op) (w : GWord) : Bool × Bool × Bool :=
  (!(op = .const || op = .read || op = .iterid || (op = .binv && w.mf.toNat % 2 = 1)), gUsesR op w,
    op = .madd || op = .fma || op = .fnma || op = .vins || op = .vsel)

/-- The data ports of an M-format instruction; Q takes the start token of a streaming one (R91, R98, R126). -/
def mPorts (op : Op) (w : MWord) : Bool × Bool × Bool :=
  if op = .ldrgn then (false, false, false)
  else (true, (opPorts op).1 != .no, (opPorts op).2 != .no || w.mode = .stm)

/-- The data ports of an E-format instruction. -/
def ePorts (op : Op) (w : EWord) : Bool × Bool × Bool :=
  let sub (k : Nat) : Bool := bits w.sub.toNat k 1 = 1
  match op with
  | .copy => (sub 0, sub 1, false)
  | .flpush | .rread | .nvrd | .nvwr => (true, true, true)
  | .kvgath | .kvapp | .kvinv | .wload | .kqry | .garm | .hreg | .hregUnreg | .msend | .msendTrig => (true, true, false)
  | .spawn => (true, true, sub 0)
  | .klife => (true, bits w.imm.toNat 0 2 = 1, false)
  | _ => (true, false, false)

/-- The data ports of an instruction. -/
def dataPorts (op : Op) : Fields → Bool × Bool × Bool
  | .g w => gPorts op w
  | .m w => mPorts op w
  | .c _ => (op = .br || op = .call || op = .ret, false, false)
  | .e w => ePorts op w
  | .s _ => (true, op = .tinv || op = .tprobe || op = .keyset, false)

/-- The predicate field. -/
def fieldsPrd : Fields → Prd
  | .g w => w.prd
  | .m w => w.prd
  | .c w => w.prd
  | .e w => w.prd
  | .s w => w.prd

/-- The ports on which an instruction takes a token (R43). -/
def usedPorts (i : Instr) : List Port :=
  match i.view with
  | none => []
  | some (op, f) =>
    let d := dataPorts op f
    (if d.1 then [.l] else []) ++ (if d.2.1 then [.r] else []) ++ (if d.2.2 then [.q] else [])
      ++ (if fieldsPrd f != .always || op = .steer || op = .merge then [.p] else [])

/-- The instruction of a context word. -/
def ctxInstr (x : Cluster) (p ix : Nat) : Option Instr :=
  match Tab.find x.ctx (p * 128 + ix) with
  | none => none
  | some w =>
    match decodeWord w.word.toNat w.lit.toNat with
    | .ok i => some i
    | .error _ => none

/-! ### The invocation that a token goes to -/

/-- The node runs: its kernel is running, or draining for pre-emption, and is not held stopped (R399). -/
def State.live (s : State) (nk : Nat) : Bool :=
  match (s.nd nk).kernel.bind s.kern with
  | none => false
  | some k => !k.halted && (k.st = .running || k.st = .preempting)

/-- The iteration that a token names: one in flight, or the one to start next (R37); none when it is gone. -/
def Node.tokIter (n : Node) (t : Tok) : Option Nat :=
  match n.inv t.ws t.it with
  | some v => some v.n
  | none =>
    if !n.callable && t.it = n.next % 65536 && t.ws = n.next % ((n.hdr.map Header.w).getD 1) then some n.next else none

/-- The invocation that a token is for takes a fault. -/
def State.tokFault (s : State) (c : Nat) (t : Tok) (cz : Cause) (aux : Nat := 0) (va : Nat := 0) (spc : Nat := 7) : State :=
  let nk := nkOf c t.pl
  let n := s.nd nk
  let op := (ctxInstr (s.cl c) t.pl t.ix).bind fun i => i.view.map (·.1)
  let f : Pending :=
    { cause := cz, n := n.next, ws := t.ws, age := n.ageNext, ix := some t.ix, aux := aux, va := va, spc := spc
      opc := (op.map Op.code).getD 0, sub := (op.bind Op.sel).getD 0 }
  match n.inv t.ws t.it with
  | some v => s.raise nk { f with n := v.n, age := v.age }
  | none => s.raise nk f

/-! ### The matching store and the spill table (R30 to R34) -/

/-- The set of an entry (R30). -/
def Tok.set (t : Tok) : Nat := (t.ix ^^^ t.ws * 8 ^^^ t.pl * 32) % 256

/-- Two entries have one name (R30); two entries belong to one operand set. -/
def Tok.sameSet (a b : Tok) : Bool := a.pl = b.pl && a.ws = b.ws && a.ix = b.ix && a.it = b.it
def Tok.sameName (a b : Tok) : Bool := a.sameSet b && a.pt = b.pt

/-- Entries of a set in the matching store. -/
def Cluster.inSet (x : Cluster) (k : Nat) : List Tok := x.store.filter fun t => t.set = k

/-- The full iteration number by which entries are compared. -/
def State.tokN (s : State) (c : Nat) (t : Tok) : Nat :=
  let n := s.nd (nkOf c t.pl)
  (n.tokIter t).getD n.next

/-- `a` is younger than `b`; ties go to the higher element index (R32). -/
def State.younger (s : State) (c : Nat) (a b : Tok) : Bool :=
  let x := s.tokN c a
  let y := s.tokN c b
  y < x || (x = y && b.ix < a.ix)

/-- Why an entry may not lie in the spill table, or where it lies. -/
inductive SpillAt where
  | key (k : Nat)
  | bad (c : Cause) (aux va : Nat)
deriving DecidableEq, Repr

/-- Entries of the scratchpad part. -/
def State.spillSp (s : State) (nk : Nat) : Nat := 32 * min 384 (rbits (nodeReg s nk 0x041) 0 9)

/-- Where entry `e` of a node's spill table lies (R33). -/
def State.spillAt (s : State) (nk e need : Nat) : SpillAt :=
  let sp := s.spillSp nk
  if e < sp then
    let t := rbits (nodeReg s nk 0x040) 0 9 + e / 32
    let va := t * 4096 + e % 32 * 128
    if 384 ≤ t then .bad .addressOutOfRange 0 va
    else if (s.cl (nk / 8)).engTiles.contains t then .bad .ownerViolation 0 va
    else .key (spKey (nk / 8) va)
  else
    let va := ((nodeReg s nk 0x042).toNat / 128 * 128 + 128 + 128 * (e - sp)) % 2 ^ 52
    match locate s (s.party nk) .gv va 64 0 need with
    | .piece (p :: _) => if isRemote p.key then .bad .translation 0 va else .key p.key
    | .bad c a => .bad c a va
    | _ => .bad .translation 0 va

/-- Reads COUNT of the global part (R33). -/
def State.spillCountRead (s : State) (nk : Nat) : Except (Cause × Nat × Nat) Nat :=
  let va := (nodeReg s nk 0x042).toNat / 128 * 128 % 2 ^ 52
  match locate s (s.party nk) .gv va 8 0 permR with
  | .piece (p :: _) =>
    if isRemote p.key then .error (.translation, 0, va)
    else if badAt s p.key then .error (.uncorrectableError, memAux s p.key, va)
    else .ok (readUnder s p.key 8 p.slot).2
  | .bad c a => .error (c, a, va)
  | _ => .error (.translation, 0, va)

/-- An entry goes to the spill table of its node (R32 to R34). -/
def State.spillTok (s : State) (c : Nat) (t : Tok) : State :=
  let nk := nkOf c t.pl
  let n := s.nd nk
  let e := n.spill.length
  let put (s : State) : State :=
    match s.spillAt nk e permW with
    | .bad cz a va => s.tokFault c t cz a va (if e < s.spillSp nk then 0 else 3)
    | .key k =>
      let s := (List.range 128).foldl (fun s i => memPut s.takeFresh (k + i) (Config.freeByte s.sched.fresh)) s
      s.modNd nk fun n => { n with spill := n.spill ++ [t] }
  if e < s.spillSp nk then put s
  else
    let limit := rbits (nodeReg s nk 0x043) 0 32
    let room (cnt : Nat) : Bool := e - s.spillSp nk < min cnt limit
    let again (s : State) : State :=
      match s.spillCountRead nk with
      | .error x => s.tokFault c t x.1 x.2.1 x.2.2 3
      | .ok cnt =>
        let s := s.modNd nk fun n => { n with spillCount := some cnt }
        if room cnt then put s else s.tokFault c t .spillTableExhausted
    if limit = 0 then s.tokFault c t .spillTableExhausted
    else
      match n.spillCount with
      | none => again s
      | some cnt => if room cnt then put s else again s

/-- A token that must wait takes a way of its set, or the youngest entry of a full set is spilled (R32). DESIGN CHOICE: of
entries alike in iteration and element, on different ports, the arriving token spills, else the one stored first
(assumption 21). -/
def State.storeTok (s : State) (c : Nat) (t : Tok) : State :=
  let ts := (s.cl c).inSet t.set
  if ts.length < 16 then s.modCl c fun x => { x with store := x.store ++ [t] }
  else
    let y := ts.foldl (fun y e => if s.younger c e y then e else y) t
    if y = t then s.spillTok c t
    else (s.modCl c fun x => { x with store := x.store.erase y ++ [t] }).spillTok c y

/-- What stops a spilled entry from being read back: cause, AUX, address and SPC (R33, R397). -/
def State.spillBad (s : State) (nk : Nat) (t : Tok) : Option (Cause × Nat × Nat × Nat) :=
  let e := (s.nd nk).spill.findIdx (· == t)
  match s.spillAt nk e permR with
  | .bad cz a va => some (cz, a, va, if e < s.spillSp nk then 0 else 3)
  | .key k => if badAt s k || t.bad then some (.uncorrectableError, 7, 0, 7) else none

/-- A spilled entry returns to the store (R32); an error in its place faults its invocation (R33, R397). -/
def State.unspillOne (s : State) (c : Nat) (t : Tok) : State :=
  let nk := nkOf c t.pl
  if 16 ≤ ((s.cl c).inSet t.set).length then s
  else
    match s.spillBad nk t with
    | some (cz, a, va, spc) => if (s.nd nk).pend.isSome then s else s.tokFault c t cz a va spc
    | none => (s.modNd nk fun n => { n with spill := n.spill.erase t }).modCl c fun x => { x with store := x.store ++ [t] }

/-- Spilled entries of a cluster return as ways of their sets free, oldest iteration first (R32). -/
def State.unspill (s : State) (c : Nat) : State :=
  let ts := (List.range 8).flatMap fun p => (s.nd (nkOf c p)).spill
  if ts.isEmpty then s
  else (sortBy (fun a b => s.younger c b a) ts).foldl (fun s t => s.unspillOne c t) s

/-! ### Arrival (R22, R24, R25, R28, R31) -/

/-- The operand of a port among the tokens of a set. -/
def portOf (ts : List Tok) (pt : Port) : Option Opnd := (ts.find? fun t => t.pt = pt).map (·.o)

/-- A token of a kind may not enter a port (R28). -/
def kindBad (ports : List Port) (t : Tok) : Bool :=
  t.kd = .reserved || t.kd = .done || !ports.contains t.pt
    || (if t.pt = .p then t.kd != .predicate && t.kd != .null else t.kd = .predicate)

/-- The ports of a complete operand set among the tokens of an operand set, none while it is not complete (R43): all the
instruction's ports; for MERGE P and the port that it selects, or P alone when that is null (R71). -/
def completePorts (i : Instr) (ts : List Tok) : Option (List Port) :=
  let ports := usedPorts i
  let want : Option (List Port) :=
    if (i.view.map (·.1)) = some .merge then
      (portOf ts .p).map fun p =>
        if p.null then [.p] else if p.val.bit0 then [.l, .p] else if ports.contains .r then [.r, .p] else [.p]
    else some ports
  want.bind fun ps => if ps.all fun x => ts.any fun e => e.pt = x then some ps else none

/-- The folds that the iteration's set waits for are done: it is not complete before (R252, R281). -/
def Node.setReady (n : Node) (i : Instr) (t : Tok) : Bool :=
  match i.view, n.inv t.ws t.it with
  | some (op, .g w), some v => n.foldReady op w t.ix v.n
  | _, _ => true

/-- A token for an instruction of the mapped block: it waits, or completes its operand set (R30, R31, R43). A token on a
port that the complete set does not take stays in the store (R71). -/
def State.tokMatch (s : State) (c : Nat) (t : Tok) (i : Instr) : State :=
  let nk := nkOf c t.pl
  let n := s.nd nk
  let others := ((s.cl c).store ++ n.spill).filter fun e => e.sameSet t
  let ts := others ++ [t]
  if kindBad (usedPorts i) t then s.tokFault c t .portMismatch
  else if others.any fun e => e.pt = t.pt then s.tokFault c t .duplicateOperand
  else if (n.inv t.ws t.it).isNone then s.storeTok c t
  else
    match if n.setReady i t then completePorts i ts else none with
    | none => s.storeTok c t
    | some ps =>
      let used := ts.filter fun e => ps.contains e.pt
      let bad (e : Tok) : Option (Cause × Nat × Nat × Nat) :=
        if n.spill.contains e then s.spillBad nk e else if e.bad then some (.uncorrectableError, 5, 0, 7) else none
      match (used.erase t).findSome? bad with
      | some (cz, a, va, spc) => s.tokFault c t cz a va spc
      | none =>
        let r : Ready :=
          { pl := t.pl, ix := t.ix, ws := t.ws, it := t.it, l := portOf used .l, r := portOf used .r, q := portOf used .q
            p := portOf used .p }
        let s := s.modNd nk fun n => { n with spill := n.spill.filter fun e => !used.contains e }
        let s := (s.modCl c fun x => { x with
          store := x.store.filter (fun e => !used.contains e), ready := x.ready ++ [r] }).unspill c
        if used.contains t then s else s.storeTok c t

/-- A token that reaches a plane with no node faults (R24): the node whose output queue leads there, as of the invocation
that it starts next. DESIGN CHOICE: the rule does not say which invocation faults (assumption 20). -/
def State.idleFault (s : State) (nk : Nat) (t : Tok) : State :=
  match s.nodes.find? fun (e : Nat × Node) => e.2.wires.any fun w => w.nk = nk && w.ix = t.ix && w.pt = t.pt with
  | none => s
  | some e => s.raise e.1 { cause := .tokenToIdlePlane, n := e.2.next, ws := 0, age := e.2.ageNext, ix := none }

/-- A token reaches its element's input (R22, R24, R25, R28, R39). -/
def State.tokenArrive (s : State) (c : Nat) (t : Tok) : State :=
  let nk := nkOf c t.pl
  let n := s.nd nk
  let s := if t.kd = .reply then s.outSub nk t.gn else s
  if n.asg.isNone then s.idleFault nk t
  else if t.gn != n.gn then countEvent s n.part c 2 1
  else if (n.tokIter t).isNone || n.hdr.isNone || n.st = .ended then countEvent s n.part c 3 1
  else
    let s := s.modInv nk t.ws t.it fun v => { v with wd := 0 }
    match ctxInstr (s.cl c) t.pl t.ix with
    | none => s.tokFault c t .tokenToEmptyElement
    | some i => s.tokMatch c t i

/-- The token waits while its plane is under reload, or empty after a mapping fault (R26, R57). -/
def State.tokWaits (s : State) (c : Nat) (t : Tok) : Bool :=
  let n := s.nd (nkOf c t.pl)
  n.st = .mapping || (n.st = .faulted && n.hdr.isNone)

/-- The tokens of a cluster that may reach their elements now: the first of each element (R22); those of a plane under
reload do not hold up the others (R26). -/
def State.tokEligible (s : State) (c : Nat) : List Tok → List Tok → List Tok
  | _, [] => []
  | seen, t :: ts =>
    if s.tokWaits c t then s.tokEligible c seen ts
    else if seen.any fun e => e.ix = t.ix then s.tokEligible c seen ts
    else t :: s.tokEligible c (t :: seen) ts

/-- R22, R30: the `k`-th token of cluster `c` that may reach its element does. -/
def execOperandTokenArrival (c k : Nat) (s : State) : Out :=
  match (s.tokEligible c [] (s.cl c).input)[k]? with
  | none => .next s
  | some t => .next ((s.modCl c fun x => { x with input := x.input.erase t }).tokenArrive c t)

/-! ### Done tokens (R94) -/

/-- A done token is taken by the entry of its consumer, or waits for it; one of a discarded invocation is dropped by its
generation. -/
def State.doneArrive (s : State) (nk ws it gn ix : Nat) : State :=
  let n := s.nd nk
  let hit (a : Acc) : Bool := a.ix = ix && a.ws = ws && a.n % 65536 = it && a.gn = gn
  let s := if gn = n.gn then s.modInv nk ws it fun v => { v with wd := 0 } else s
  if n.mif.any hit then
    s.modNd nk fun n => { n with mif := n.mif.map fun a => if hit a then { a with gated := false } else a }
  else if gn != n.gn then countEvent s n.part (nk / 8) 2 1
  else if (n.inv ws it).isNone then s
  else s.modNd nk fun n => { n with dones := n.dones ++ [(ws, it, ix)] }

end Sys2Proof.Machine
end

