-- ==== Sys2Proof/Machine/Invoc.lean ====
section
/-!
DEFINITION. Invocations: their start (R37, R46), completion (R39), commit (R39, R96, R134, R141, R307, R311), and what a
commit does step by step.
-/

namespace Sys2Proof.Machine

/-! ### Start (R37, R46) -/

/-- The occupied elements of a plane with their instructions, in element order. -/
def planeInstrs (x : Cluster) (p : Nat) : List (Nat × Instr) :=
  (x.ctx.filter fun (e : Nat × Ctx) => e.1 / 128 = p).filterMap fun e =>
    match ctxInstr x p (e.1 % 128) with
    | some i => some (e.1 % 128, i)
    | none => none

/-- What an invocation takes by place: for every port in use, the number of this taking (R46). -/
def Node.takesOf (n : Node) (is : List (Nat × Instr)) : List (Nat × Nat) :=
  is.flatMap fun e => (usedPorts e.2).map fun pt => (e.1 * 4 + pt.code, Tab.get 0 n.taken (e.1 * 4 + pt.code))

/-- The queues of the cluster's package that are wired to a node deliver (R46). -/
def State.deliverTo (s : State) (nk : Nat) : State :=
  s.nodes.foldl (fun s (e : Nat × Node) =>
    (e.2.wires.filter fun w => w.nk = nk).foldl (fun s w => s.deliverQ e.1 w.q) s) s

/-- Tokens that waited for an invocation to start complete their operand sets (R37). -/
def State.matchWaiting (s : State) (c p ws it : Nat) (is : List (Nat × Instr)) : State :=
  is.foldl (fun s e =>
    let ts := ((s.cl c).store ++ (s.nd (nkOf c p)).spill).filter fun t => t.pl = p && t.ix = e.1 && t.ws = ws && t.it = it
    match ts.getLast? with
    | none => s
    | some t =>
      match if (s.nd (nkOf c p)).spill.contains t then s.spillBad (nkOf c p) t else none with
      | some (cz, a, va, spc) => s.tokFault c t cz a va spc
      | none =>
      let s := (s.modCl c fun x => { x with store := x.store.erase t }).modNd (nkOf c p) fun n =>
        { n with spill := n.spill.erase t }
      s.tokMatch c t e.2) s

/-- Element `ix` has folded in iteration `n`: the sets that waited for this are complete (R252, R281). -/
def State.foldWake (s : State) (c p ix n : Nat) (i : Instr) : State :=
  match i.view with
  | some (op, .g w) =>
    ((s.nd (nkOf c p)).invs.filter fun v => (foldWaits op w v.n).contains n).foldl (fun s v =>
      s.matchWaiting c p v.ws v.it [(ix, i)]) s
  | _ => s

/-- The argument tokens of a callable invocation (R311, R314). -/
def State.sendArgs (s : State) (c p t : Nat) (sp : Spawn) : State :=
  let s := s.sendSlot c p sp.ix1 t t .l .data sp.arg
  match sp.arg2 with
  | none => s
  | some o => s.sendSlot c p sp.ix2 t t .l .data o

/-- An invocation starts (R37): its operandless instructions fire, and what waits for it is delivered. -/
def State.startInv (s : State) (nk n ws : Nat) (sp : Option Spawn) : State :=
  let c := nk / 8
  let p := nk % 8
  let is := planeInstrs (s.cl c) p
  let nd := s.nd nk
  let v : Inv :=
    { n := n, ws := ws, mp := nd.mp, age := nd.ageNext, start := s.now, fctl := (nodeReg s nk 0x010).toNat
      takes := nd.takesOf is, spawn := sp, tags := (sp.map fun x => x.kept.map fun k => (nk, k)).getD [] }
  let s := s.modNd nk fun nd => { nd with
    invs := nd.invs ++ [v], ageNext := nd.ageNext + 1
    taken := v.takes.foldl (fun t e => Tab.put t e.1 (e.2 + 1)) nd.taken
    next := if nd.callable then nd.next else (n + 1) % 2 ^ 32
    okNext := false }
  let fire : List Ready := (is.filter fun e => (usedPorts e.2).isEmpty).map fun e =>
    { pl := p, ix := e.1, ws := ws, it := n % 65536 }
  let s := s.modCl c fun x => { x with ready := x.ready ++ fire }
  let s := s.matchWaiting c p ws (n % 65536) is
  let s := match sp with
    | none => s
    | some sp => s.sendArgs c p n sp
  (s.deliverTo nk).deliverRouted c

/-- The lowest tag whose invocation may start: its SPAWN has acted and it is not in flight (R311, R310). -/
def Node.tagToStart (n : Node) : Option (Nat × Spawn) :=
  n.tags.find? fun (e : Nat × Spawn) => e.2.ready && !n.invs.any fun v => v.n = e.1

/-- The node starts invocations: it runs, no fault is pending, and its kernel is not draining (R40, R144, R400). -/
def State.mayStart (s : State) (nk : Nat) : Bool :=
  let n := s.nd nk
  s.live nk && n.st = .running && !n.stop && n.pend.isNone && n.engFaults.isEmpty && n.hdr.isSome
    && ((n.kernel.bind s.kern).map (·.st)) = some .running

/-- R37: the node of plane `p` starts its next invocation, if it may. -/
def execInvocationStart (c p : Nat) (s : State) : Out :=
  let nk := nkOf c p
  let n := s.nd nk
  match n.hdr with
  | none => .next s
  | some h =>
    if !s.mayStart nk then .next s
    else if n.callable then
      match n.tagToStart with
      | none => .next s
      | some (t, sp) => .next (s.startInv nk t t (some sp))
    else
      let ws := n.next % h.w
      if n.invs.any fun v => v.ws = ws then .next s
      else if h.stm then (if n.next < n.tcount then .next (s.startInv nk n.next ws none) else .next s)
      else if n.okNext then .next (s.startInv nk n.next ws none)
      else .next s

/-! ### Completion (R39, R252) -/

/-- Reductions of X elements, which a commit waits for. -/
def opReduces (op : Op) : Bool := op = .radd || op = .rmax || op = .rmin || op = .rjoin || op = .kmerge

/-- Every reduction element has folded its contribution (R252). -/
def State.foldsDone (s : State) (nk n : Nat) : Bool :=
  (planeInstrs (s.cl (nk / 8)) (nk % 8)).all fun e =>
    match e.2.view with
    | some (op, _) => !opReduces op || (Tab.get [] (s.nd nk).red e.1).any fun r => r.1 = n
    | none => true

/-- The invocation is complete (R39): every effect instruction has reported and the wave chain is linked; an atomic with a
result holds its reservation (R97). -/
def State.complete (s : State) (nk : Nat) (v : Inv) : Bool :=
  let n := s.nd nk
  match n.hdr with
  | none => false
  | some h =>
    h.efc ≤ v.reports.length && n.chainLinked v.age
      && (n.accsOf v.age).all (fun a => !a.returns || a.off || a.settled)
      && (n.callable || s.foldsDone nk v.n)

/-- The exit that an invocation performed. -/
def Inv.exitHeld (v : Inv) : Option (Bool × Option Nat) :=
  v.held.findSome? fun h => match h with | .exit _ call d => some (call, d) | _ => none

/-! ### What a commit releases (R39) -/

/-- The element of a held effect. -/
def Held.at_ : Held → Nat
  | .glob ix _ _ _ | .qtok ix _ _ | .cmd ix _ _ _ _ | .exit ix _ _ => ix

/-- The held effects in element order. -/
def Inv.sorted (v : Inv) : List Held := sortBy (fun a b => a.at_ < b.at_) v.held

/-- A global register takes a committed value; an error in it ends (R36, R397). -/
def Node.putGlobal (n : Node) (file : GFile) (num : Nat) (v : Val) : Node :=
  let n : Node := { n with gErr := n.gErr.filter (· != globalIndex file.code num) }
  match file, v with
  | .g, .sc x => { n with g := Tab.putD 0 n.g num x }
  | .m, .sc x => { n with m := Tab.putD 0 n.m num x }
  | .v, .vec x => { n with v := Tab.putD 0 n.v num x }
  | _, _ => n

/-- The link of a CALL (R75). -/
def Node.linkAddr (n : Node) : Nat :=
  match n.hdr with
  | none => n.pc
  | some h => n.pc + 64 * ((32 + 8 * h.icnt + 4 * h.lcnt + 63) / 64)

/-- The pool that a SPAWN of a commit takes its tag from: none when its target was abandoned (R310, R311). -/
def State.spawnPool (s : State) (nk : Nat) (l : Option Opnd) : Option Nat :=
  (s.callableNum nk (((l.map (·.val.nat)).getD 0) % 2 ^ 11)).bind fun d => if (s.nd d.nk).aband then none else some d.nk

/-- What the SPAWNs of a commit have (R311): the machine, each one's element with its pool and tag, what is left of the tags
taken before, and the SPAWN that waits with its pool. -/
structure Tagged where
  s : State
  taken : List (Nat × Nat × Nat) := []
  rest : List (Nat × Nat) := []
  waits : Option (Nat × Nat) := none

/-- The SPAWNs of a commit take their tags in ascending element order, up to one whose pool is empty (R311); `old` are those
that its invocation took before. -/
def State.takeTags (s : State) (nk : Nat) (old : List (Nat × Nat)) : List Held → Tagged
  | [] => { s := s, rest := old }
  | .cmd ix (.spawn w) l r q :: hs =>
    match s.spawnPool nk l with
    | none => s.takeTags nk old hs
    | some d =>
      match old.find? fun t => t.1 = d with
      | some t =>
        let s := s.modNd d fun n =>
          { n with tags := Tab.put n.tags t.2 { spawnOf w r q with ord := ((Tab.find n.tags t.2).map (·.ord)).getD 0 } }
        let x := s.takeTags nk (old.erase t) hs
        { x with taken := (ix, t) :: x.taken }
      | none =>
        match (s.nd d).freeTag with
        | none => { s := s, rest := old, waits := some (ix, d) }
        | some tag =>
          let x := (s.modNd d fun n => n.takeTag (spawnOf w r q)).takeTags nk old hs
          { x with taken := (ix, d, tag) :: x.taken }
  | _ :: hs => s.takeTags nk old hs

/-- The store and the configuration of a KCFG. -/
def kcfgOf (i : Instr) (l : Option Opnd) : Option (Nat × V512) :=
  match i, l with
  | .kcfg w, some o => some (w.unit.toNat, BitVec.ofNat 512 o.val.nat)
  | _, _ => none

/-- The configurations that a node's commits have still to issue, the latest first. -/
def Node.cfgsLeft (n : Node) : List (Nat × V512) :=
  (n.acts.filterMap fun a => match a with | .issue _ i l _ _ _ _ _ _ _ => kcfgOf i l | _ => none).reverse

/-- The queue places that a command reserves at its commit (R271, R307): the queue and how many. `cfgs` are the configurations to
be issued before it. -/
def placesOf (s : State) (nk : Nat) (cfgs : List (Nat × V512)) (i : Instr) : Option (Nat × Nat) :=
  let one : Target → Option (Nat × Nat)
    | .queue q => some (q.toNat, 1)
    | _ => none
  match i.view with
  | some (op, .e w) =>
    match op with
    | .spawn | .mrecv | .mprobe | .nopen | .nlook => one w.t0
    | .kqry =>
      match w.t0, kqryPlaces s (nk / 8) nk w cfgs with
      | .queue q, k + 1 => some (q.toNat, k + 1)
      | _, _ => none
    | _ => none
  | some (op, .s w) => if op = .tsync || op = .keyset then one w.t0 else none
  | _ => none

/-- The commands of a commit as what it has still to do, their places reserved in element order. -/
def State.commitActs (s : State) (nk : Nat) (v : Inv) (tags : List (Nat × Nat × Nat)) (cfgs : List (Nat × V512)) :
    List Held → State × List Act
  | [] => (s, [])
  | .cmd ix i l r q :: hs =>
    let res : State × Option (Nat × Nat × Nat) := match placesOf s nk cfgs i with
      | none => (s, none)
      | some (k, cnt) => let x := s.reserve nk k cnt; (x.1, some (k, x.2, cnt))
    let tag := (tags.find? fun t => t.1 = ix).map fun t => t.2.1 * 32 + t.2.2
    let rest := res.1.commitActs nk v tags ((kcfgOf i l).toList ++ cfgs) hs
    (rest.1, .issue ix i l r q v.age v.n v.fctl res.2 tag :: rest.2)
  | _ :: hs => s.commitActs nk v tags cfgs hs

/-- The places that the invocation took are freed: their tokens have gone (R46). -/
def State.freeTakes (s : State) (nk : Nat) (v : Inv) : State :=
  let taken (ix : Nat) (pt : Port) (k : Nat) : Bool := v.takes.contains (ix * 4 + pt.code, k)
  let s := { s with nodes := s.nodes.map fun (e : Nat × Node) =>
    (e.1, { e.2 with outq := e.2.outq.filter fun t =>
      !(t.o.isSome && e.2.wires.any fun w => w.q = t.q && w.nk = nk && taken w.ix w.pt t.place) }) }
  s.modCl (nk / 8) fun x => { x with routed := x.routed.filter fun r => !(r.pl = nk % 8 && r.dlv && taken r.ix r.pt r.k) }

/-- Operands of a committed invocation that still wait are freed and counted (R39). Those on their way to a callable node, whose tag another invocation takes, are dropped and counted here. -/
def State.freeOperands (s : State) (nk : Nat) (v : Inv) : State :=
  let c := nk / 8
  let mine (t : Tok) : Bool := t.pl = nk % 8 && t.ws = v.ws && t.it = v.it
  let late (t : Tok) : Bool := (s.nd nk).callable && mine t
  let k := ((s.cl c).store.filter mine).length + ((s.nd nk).spill.filter mine).length + ((s.cl c).input.filter late).length
  let s := if k = 0 then s else countEvent s (s.nd nk).part c 3 k
  let s := s.dropReplies c ((s.cl c).input.filter late)
  let s := s.modCl c fun x => { x with
    input := x.input.filter (fun t => !late t)
    store := x.store.filter fun t => !mine t }
  (s.modNd nk fun n => { n with
    spill := n.spill.filter (fun t => !mine t)
    dones := n.dones.filter (fun d => !(d.1 = v.ws && d.2.1 = v.it))
    regs := n.regs.filter (fun r => r.2.1 != v.n)
    stmBuf := n.stmBuf.filter (fun r => r.2.1 != v.n)
    skip := if n.skip = some v.n then none else n.skip }).unspill c

/-- The tile flips of a commit (R134). -/
def State.flipsOf (s : State) (nk age : Nat) : List Act :=
  (((s.nd nk).accsOf age).filter fun a => a.op = .tgive && !a.off).map fun a => .flip a.tile

/-- The held effects of a complete invocation are released together (R39), in the order of R189 and R311; what has to
wait for its turn is left in `acts`. -/
def State.releaseInv (s : State) (nk : Nat) (v : Inv) (tags : List (Nat × Nat × Nat)) : State :=
  let hs := v.sorted
  let flips := s.flipsOf nk v.age
  let s := if v.flags = 0 then s else setNodeReg s nk 0x011 (BitVec.ofNat 64 ((nodeReg s nk 0x011).toNat ||| v.flags))
  let s := hs.foldl (fun s h => match h with | .glob _ f k x => s.modNd nk fun n => n.putGlobal f k x | _ => s) s
  let s := match v.exitHeld with
    | some (true, _) => s.modNd nk fun n => n.putGlobal .g 63 (sc64 n.linkAddr)
    | _ => s
  let s := hs.foldl (fun s h => match h with | .qtok _ q o => s.enqueue nk q o | _ => s) s
  let s := s.releaseAccs nk v.age
  let ca := s.commitActs nk v tags (s.nd nk).cfgsLeft hs
  let traps := ca.2.filter fun a => match a with | .issue _ (.trap _) _ _ _ _ _ _ _ _ => true | _ => false
  let others := ca.2.filter fun a => match a with | .issue _ (.trap _) _ _ _ _ _ _ _ _ => false | _ => true
  let tag := v.spawn.map fun sp => if v.fretHeld then { sp with record := none } else sp
  let s := ca.1.modNd nk fun n => { n with
    invs := n.invs.filter fun u => u.age != v.age
    acts := flips ++ others ++ [.exit v.exitHeld v.n v.age tag v.retHeld] ++ traps.take 1 }
  ((s.freeTakes nk v).freeOperands nk v).pruneAccs nk

/-! ### The rest of a commit, step by step (R134, R141, R143) -/

/-- The committed TGIVEs of a tile whose flip is still to be made. -/
def Node.giving (n : Node) (t : Nat) : List Acc :=
  n.mif.filter fun a => a.op = .tgive && !a.off && !a.done && a.tile = t && !n.invs.any fun v => v.age = a.age

/-- A flip waits for the node's committed accesses to the tile (R134), for the gates of its TGIVE (R94, R95), and for what its
MODE asks (R91). -/
def State.flipReady (s : State) (nk t : Nat) : Bool :=
  let n := s.nd nk
  (n.giving t).all (fun g => n.gatesOpen g && match n.before g with | some bs => s.chainAllows nk g bs | none => false)
    && !n.mif.any fun a => !a.done && !a.off && a.op != .tgive && !n.invs.any (fun v => v.age = a.age) && a.onTile (nk / 8) t

/-- The flip: the tile is ENGINE-owned, and the TGIVE done. -/
def State.flipDo (s : State) (nk t : Nat) : State :=
  let s := s.modCl (nk / 8) fun x => { x with engTiles := setIns t x.engTiles }
  (((s.nd nk).giving t).foldl (fun s a => s.accDone nk a) s).pruneAccs nk

/-- The tokens of WM are set (R141, R143). -/
def Node.wmSet (n : Node) (w : EWord) (age : Nat) : Bool :=
  (List.range 8).all fun k => !w.wm.toNat.testBit k || n.sbClear k age

/-- The unit has room for another command (R141); the package shares one storage unit (R140). -/
def State.unitRoom (s : State) (c u : Nat) : Bool :=
  ((if u = 4 then s.storCmds else s.unit c u).filter fun m => !m.started).length < 32

/-- A command as it is issued. -/
def State.cmdOf (s : State) (nk ix : Nat) (i : Instr) (l r q : Option Opnd) (age n fctl : Nat)
    (place : Option (Nat × Nat × Nat)) : Cmd :=
  let nd := s.nd nk
  { id := 0, instr := i, nk := nk, kernel := nd.kernel.getD 0, part := nd.part, asid := nd.asid, ix := ix, n := n
    ws := if nd.callable then n else n % ((nd.hdr.map Header.w).getD 1), age := age, l := l, r := r, q := q
    place := place.map fun p => (p.1, p.2.1), places := (place.map (·.2.2)).getD 1, fctl := fctl }

/-- One command of a commit is issued, or must still wait (none) (R141, R143, R311, R356 to R360, R407, R409). -/
def State.issueAct (s : State) (nk ix : Nat) (i : Instr) (l r q : Option Opnd) (age n fctl : Nat)
    (place : Option (Nat × Nat × Nat)) (tag : Option Nat) : Option State :=
  let c := nk / 8
  let m := s.cmdOf nk ix i l r q age n fctl place
  let pl := place.map fun p => (p.1, p.2.1)
  match i with
  | .wrsr w => if s.regTurn (s.nodeParty nk) w.srn.toNat then some (s.wrsrIssue nk w l) else none
  | .tinv w => some (s.tinvIssue nk w l r)
  | .tsync _ => some (s.tsyncIssue nk age l pl)
  | .keyset _ => some (s.keysetIssue nk age l r pl)
  | .fret w => some (s.fretIssue nk n w)
  | .trap w =>
    if (s.nd nk).st != .ended && !(s.nd nk).genFree then none
    else some ((s.trapTake nk ix n m.ws age m.lv (bits w.imm.toNat 0 14)).unspill c)
  | _ =>
    match i.view with
    | some (op, .e w) =>
      let u := unitOf op w
      if !(s.nd nk).wmSet w age then none
      else
        match op with
        | .pset => some (s.psetIssue c m)
        | .tret => some (s.sbLeave m)
        | .spawn => if s.unitRoom c 9 then some (s.spawnIssue c m (tag.map fun t => (t / 32, t % 32))) else none
        | .wload => if s.unitRoom c u then some ((s.issueCmd c u m).wloadIssue c) else none
        | _ => if s.unitRoom c u then some (s.issueCmd c u m) else none
    | _ => some s

/-- Groups of the node's reductions that the iteration `n` does not end are dropped and counted (R255). -/
def State.dropGroups (s : State) (nk n : Nat) : State :=
  let open_ (e : Nat × Instr) : Bool :=
    match e.2.view with
    | some (op, .g w) =>
      let imm := w.imm.imm16
      let size := if op = .kmerge then bits imm 0 8 * bits imm 8 8 else imm
      opReduces op && (n + 1) % max 1 size != 0 && !(Tab.get [] (s.nd nk).red e.1).isEmpty
    | _ => false
  let k := ((planeInstrs (s.cl (nk / 8)) (nk % 8)).filter open_).length
  (if k = 0 then s else countEvent s (s.nd nk).part (nk / 8) 8 k).modNd nk fun n => { n with red := [] }

/-- The node leaves its block for another: it starts nothing more there, and maps that one when every invocation in flight
has committed (R37, R75). -/
def Node.leaveFor (n : Node) (a : Nat) : Node :=
  { n with
    st := if n.st = .running then .mapping else n.st
    moveTo := some a, atEntry := false, next := 0, rst := 0, okNext := true }

/-- The exit of an ordinary node's commit (R37, R41, R75, R76); none while the generation may not step. -/
def State.exitNode (s : State) (nk : Nat) (ex : Option (Bool × Option Nat)) (n age : Nat) : Option State :=
  let nd := s.nd nk
  let stm := (nd.hdr.map (·.stm)).getD false
  match ex with
  | none => if stm && n + 1 = nd.tcount then some ((s.dropGroups nk n).endNode nk) else some s
  | some (_, d) =>
    if stm && !nd.genFree then none
    else
      let s := if stm then ((s.discardFrom nk (age + 1)).dropEarly nk true).modNd nk Node.stepGen else s
      match d with
      | none => some ((s.dropGroups nk n).endNode nk)
      | some a =>
        if a = nd.pc then
          if stm then
            some ((s.dropGroups nk n).modNd nk fun m => { m with next := 0, rst := 0, mp := m.mp + 1, okNext := true })
          else some s
        else some ((s.dropGroups nk n).modNd nk fun m => m.leaveFor a)

/-- The exit of a callable node's commit (R75, R76). A QUIT leaves the plane idle. DESIGN CHOICE: the invocations still in
flight are discarded and keep their tags, which are served when the section is armed again, as R304 holds later SPAWNs
(assumption 98). -/
def State.exitCallable (s : State) (nk : Nat) : Option (Bool × Option Nat) → State
  | none => s
  | some (_, none) => (s.discardFrom nk 0).endNode nk
  | some (_, some a) => if a = (s.nd nk).pc then s else s.modNd nk fun m => m.leaveFor a

/-- The exit of a commit is acted on (R37, R41, R75, R76, R305, R312). -/
def State.exitAct (s : State) (nk : Nat) (ex : Option (Bool × Option Nat)) (n age : Nat) (tag : Option Spawn)
    (ret : Option Opnd) : Option State :=
  match tag with
  | some sp =>
    let k := (s.nd nk).kernel.getD 0
    let s := (s.tagEnd nk n sp ret).exitCallable nk ex
    match sp.record with
    | none => some (s.unspill (nk / 8))
    | some id => some ((s.escalate id k).unspill (nk / 8))
  | none => (s.exitNode nk ex n age).map fun s => s.unspill (nk / 8)

/-- One thing that a commit has still to do; none while it must wait. -/
def State.doAct (s : State) (nk : Nat) : Act → Option State
  | .flip t => if s.flipReady nk t then some (s.flipDo nk t) else none
  | .issue ix i l r q age n fctl place tag => s.issueAct nk ix i l r q age n fctl place tag
  | .exit ex n age tag ret => s.exitAct nk ex n age tag ret

/-- The next of the commits that wait of a callable node comes to the front (R310). -/
def Node.unpark (n : Node) : Node :=
  match n.parked with
  | [] => n
  | l :: ls => { n with acts := l, parked := ls }

/-- A commit goes on as far as it can. -/
def State.runActs (s : State) (nk : Nat) : Nat → State
  | 0 => s
  | fuel + 1 =>
    match (s.nd nk).acts with
    | [] => (s.modNd nk Node.unpark).kernelsCheck
    | a :: _ =>
      match s.doAct nk a with
      | none => s
      | some s => (s.modNd nk fun n => { n with acts := n.acts.drop 1 }).runActs nk fuel

/-- The node's commit goes on. -/
def State.goOn (s : State) (nk : Nat) : State := s.runActs nk ((s.nd nk).acts.length + 1)

/-- The complete invocations whose turn it is (R38, R40, R310): the oldest, and none that a pending fault discards. -/
def State.completed (s : State) (nk : Nat) : List Inv :=
  let n := s.nd nk
  let ok (v : Inv) : Bool :=
    match n.pend with
    | none => true
    | some f => !n.callable && v.age < f.age && !f.drn
  if n.callable then n.invs.filter fun v => ok v && s.complete nk v
  else (n.invs.filter fun v => n.invs.all fun u => v.age ≤ u.age).filter fun v => ok v && s.complete nk v

/-- The invocation has complete operand sets that have not issued (R50), reductions apart, which `foldsDone` waits for. -/
def State.setsLeft (s : State) (nk : Nat) (v : Inv) : Bool :=
  let x := s.cl (nk / 8)
  x.ready.any fun r => r.pl = nk % 8 && r.ws = v.ws && r.it = v.it
    && !((((ctxInstr x r.pl r.ix).bind Instr.view).map fun o => opReduces o.1).getD false)

/-- A packet of a port belongs to a store of the node. -/
def State.isStoreOf (s : State) (nk : Nat) (m : Parcel) : Bool :=
  match m.body with
  | .acc k id _ _ => k = nk && (s.accOf nk id).any Acc.writes
  | .rreq r => r.nk = nk && (r.ask = .store || r.ask = .rmw || r.ask = .endWrite)
  | _ => false

/-- A released store of the node waits in the output stage, since its partition's 16 places at the port are taken (R353, R378). -/
def State.outputHeld (s : State) (nk : Nat) : Bool :=
  (((Tab.get [] s.ports (nk / 8)).filter fun m => m.part = (s.nd nk).part).drop 16).any (s.isStoreOf nk)

/-- The invocations that may commit now: none while a store of an earlier commit waits in the output stage (R378). Every complete operand set issues (R50, R51). DESIGN CHOICE: R39 does not say how soon
a complete invocation commits, and here it does when its complete sets have issued (assumption 22). -/
def State.commitable (s : State) (nk : Nat) : List Inv :=
  if s.outputHeld nk then [] else (s.completed nk).filter fun v => !s.setsLeft nk v

/-- A complete invocation commits, unless its second pass waits or faults, or a tag pool is empty (R39, R41, R96, R311). -/
def State.commitInv (s : State) (nk : Nat) (v : Inv) : State :=
  let n := s.nd nk
  let stm := (n.hdr.map (·.stm)).getD false
  if !n.callable && !stm && v.exitHeld.isNone then s.raise nk { cause := .noExit, n := v.n, ws := v.ws, age := v.age }
  else
    match s.secondPass nk v.age with
    | .fault s | .wait s => s
    | .ok s =>
      let x := s.takeTags nk v.tags v.sorted
      if x.waits.isSome then
        x.s.modNd nk fun n => { n with invs := n.invs.map fun u =>
          if u.age = v.age then { u with tags := x.taken.map (·.2) ++ x.rest } else u }
      else
        ((x.rest.foldl (fun s t => s.poolReturn t.1 t.2) x.s).releaseInv nk v x.taken).goOn nk

/-- The `k`-th of the invocations that may commit does. -/
def State.commitNext (s : State) (nk k : Nat) : State :=
  match (s.commitable nk)[k]? with
  | none => s
  | some v => s.commitInv nk v

/-- R39: the node commits its `k`-th invocation that may commit, or goes on with a commit begun. A commit of a callable node
that has to wait holds up no other (R310): it is set aside, for another invocation's or for the next that was. -/
def execInvocationCommit (c p k : Nat) (s : State) : Out :=
  let nk := nkOf c p
  if !s.live nk then .next s
  else if (s.nd nk).acts.isEmpty then
    if (s.commitable nk)[k]?.isSome then .next (s.commitNext nk k) else .next ((s.modNd nk Node.unpark).goOn nk)
  else
    let s := s.goOn nk
    let n := s.nd nk
    if n.acts.isEmpty || !n.callable then .next s
    else
      let s := s.modNd nk fun n => { n with acts := [], parked := n.parked ++ [n.acts] }
      if (s.commitable nk)[k]?.isSome then .next (s.commitNext nk k) else .next (s.modNd nk Node.unpark)

/-- The unit and the instruction of a commit's next command. -/
def Node.nextCmd (n : Node) : Option (Op × EWord × Nat) :=
  match n.acts.head? with
  | some (.issue _ i _ _ _ age _ _ _ _) =>
    match i.view with
    | some (op, .e w) => some (op, w, age)
    | _ => none
  | _ => none

/-- R141: a commit that waited for room in a unit's queue goes on. -/
def execEngineQueueRoom (c p : Nat) (s : State) : Out :=
  let nk := nkOf c p
  match (s.nd nk).nextCmd with
  | some (op, w, _) => if s.live nk && s.unitRoom c (unitOf op w) then .next (s.goOn nk) else .next s
  | none => .next s

/-- R141, R143: a commit that waited for the tokens of a WM goes on. -/
def execWmTokensSet (c p : Nat) (s : State) : Out :=
  let nk := nkOf c p
  match (s.nd nk).nextCmd with
  | some (_, w, age) => if s.live nk && (s.nd nk).wmSet w age then .next (s.goOn nk) else .next s
  | none => .next s

/-! ### Faults of invocations (R40 to R42, R49, R391) -/

/-- R40: a detected fault is taken once the older invocations have committed, or the drain limit has passed. -/
def execInvocationDiscard (c p : Nat) (s : State) : Out :=
  let nk := nkOf c p
  let n := s.nd nk
  match n.pend with
  | none => .next s
  | some f =>
    let older := !n.callable && !f.drn && n.invs.any fun v => v.age < f.age
    if older || !n.actsDone || !n.genFree || !s.live nk then .next s
    else .next ((s.takeFault nk).unspill c)

/-- The access has its place in the chain, and those before it let it be performed. -/
def State.inPlace (s : State) (nk : Nat) (a : Acc) : Bool :=
  match (s.nd nk).before a with
  | some bs => s.chainAllows nk a bs
  | none => false

/-- Something that the watchdog leaves the invocation time for (R42, R127, R137, R358, R369): a request of its own outstanding,
a command that the node has issued and that has not signalled (R358 counts a TSYNC that waits after its issue, and so after
its own invocation's commit: assumption 26), or an instruction of its own that waits on a semaphore, an object, a tile, a
barrier, or a scoreboard token that an issued command holds. -/
def State.invWaits (s : State) (nk : Nat) (v : Inv) : Bool :=
  let n := s.nd nk
  let sbHeld (k : Nat) : Bool := !n.callable && n.sb.any fun e => e.1 = k && e.2.1 < v.age && !n.invs.any fun u => u.age = e.2.1
  let x := s.cl (nk / 8)
  let issued : Bool := x.units.any (fun (u : Nat × List Cmd) => u.2.any fun m => m.nk = nk)
    || s.tsyncs.any (fun t => t.nk = nk) || s.ksets.any (fun t => t.nk = nk)
  let barSet (r : Ready) : Bool :=
    r.pl = nk % 8 && r.ws = v.ws && r.it = v.it
      && (match (ctxInstr x r.pl r.ix).bind Instr.view with | some (op, _) => op = Op.bar || op = Op.bara | none => false)
  (n.accsOf v.age).any (fun a =>
    a.st = .sent || a.kvw.isSome || a.chk = .asked
      || (a.st = .waiting && !a.off && s.inPlace nk a && (a.op = .semwait || a.op = .acq || a.op = .ttake
        || (match a.w.sbw with | some k => sbHeld k.toNat | none => false))))
    || n.barWait.any (fun b => b.age = v.age)
    || x.ready.any barSet || (!n.callable && issued)

/-- The invocations that the watchdog watches (R42): the oldest that is not complete, or each of a callable node. -/
def State.watched (s : State) (nk : Nat) : List Inv :=
  let n := s.nd nk
  let inc := n.invs.filter fun v => !s.complete nk v
  if n.callable then inc else inc.filter fun v => inc.all fun u => v.age ≤ u.age

/-- R42: the watchdog of an invocation expires. -/
def execWatchdogExpiry (c p k : Nat) (s : State) : Out :=
  let nk := nkOf c p
  let lim := rbits (nodeReg s nk 0x044) 0 32
  match (s.watched nk)[k]? with
  | none => .next s
  | some v =>
    if lim = 0 || v.wd < lim || ((s.nd nk).st != .running && (s.nd nk).st != .draining) then .next s
    else .next (s.raise nk { cause := .watchdog, n := v.n, ws := v.ws, age := v.age, aux := lim })

/-- The SPAWN for which the commit of a complete invocation waits, with its pool (R311). -/
def State.spawnWaits (s : State) (nk : Nat) (v : Inv) : Option (Nat × Nat) :=
  if s.complete nk v then (s.takeTags nk v.tags v.sorted).waits else none

/-- The invocations whose commits wait for a SPAWN to the pool of node `nk`: their node, and the element of the SPAWN. -/
def State.poolWaiters (s : State) (nk : Nat) : List (Nat × Inv × Nat) :=
  s.nodes.flatMap fun (e : Nat × Node) =>
    e.2.invs.filterMap fun v =>
      match s.spawnWaits e.1 v with
      | some (ix, d) => if d = nk then some (e.1, v, ix) else none
      | none => none

/-- R49: every tag is held by an invocation that waits on a SPAWN to the same pool, as its own or for a SPAWN of its
commit; the invocation that took its tag last faults: one of the pool's own node, where one of those waits. -/
def execTagPoolDeadlock (c p : Nat) (s : State) : Out :=
  let nk := nkOf c p
  let n := s.nd nk
  let ws := s.poolWaiters nk
  let stuck (t : Nat) : Bool := ws.any fun w => (w.1 = nk && w.2.1.n = t) || w.2.1.tags.contains (nk, t)
  if !n.callable || n.freeTag.isSome || !n.tags.all (fun (e : Nat × Spawn) => stuck e.1) then .next s
  else
    let ordOf (t : Nat) : Nat := ((Tab.find n.tags t).map (·.ord)).getD 0
    let ord (w : Nat × Inv × Nat) : Nat :=
      if w.1 = nk then ordOf w.2.1.n else (w.2.1.tags.filter fun t => t.1 = nk).foldl (fun m t => max m (ordOf t.2)) 0
    let own := ws.filter fun w => w.1 = nk
    let ws := if own.isEmpty then ws else own
    match ws.find? fun w => ws.all fun u => ord u ≤ ord w with
    | none => .next s
    | some (k, v, ix) =>
      if (s.nd k).pend.isSome then .next s
      else
        .next (s.raise k { cause := .tagPoolDeadlock, n := v.n, ws := v.ws, age := v.age, ix := some ix, opc := 0xec, sub := 2 })

/-! ### Engine faults (R144, R391) -/

/-- R144: between two commits, once the invocations that were complete have committed, the node takes an engine fault. -/
def execEngineFault (c p : Nat) (s : State) : Out :=
  let nk := nkOf c p
  let n := s.nd nk
  match n.engFaults with
  | [] => .next s
  | f :: rest =>
    if !n.actsDone || !(s.completed nk).isEmpty || n.pend.isSome || n.st = .faulted || !(n.genFree || n.st = .ended)
        || !s.live nk then .next s
    else
      let s := s.modNd nk fun n => { n with engFaults := rest }
      let blk := (n.moveTo).getD n.pc
      if n.st = .ended then .next (s.formRecord nk f 0 blk)
      else
        let rst := if n.invs.isEmpty then n.next else n.invs.foldl (fun m v => min m v.n) (2 ^ 32)
        let s := (s.discardFrom nk 0).formRecord nk f rst blk
        let s := s.modNd nk fun n =>
          { n.stepGen with stop := true, next := rst, rst := rst, okNext := true, st := .faulted }
        .next (s.unspill c)

end Sys2Proof.Machine
end

