-- ==== Sys2Proof/Machine/Map.lean ====
section
/-!
DEFINITION. Mapping a block into a plane: the block cache (R54), the checks of R55 and R56 with those that each
instruction's own rule adds, and mapping faults (R57).
-/

namespace Sys2Proof.Machine

/-! ### The block cache (R54) -/

/-- The bytes of a line, if the cache holds it. -/
def Cluster.line (x : Cluster) (asid va : Nat) : Option (List Byte) :=
  (x.bcache.find? fun e => e.1 = asid && e.2.1 = va).map (·.2.2)

/-- The block that a node is about to map: where its exit or arming leads, or the block it had. -/
def Node.blk (n : Node) : Nat := (n.moveTo).getD n.pc

/-- The bytes of a block from its start, as far as the cache has whole lines of them; at most `k` lines. -/
def Cluster.blockBytes (x : Cluster) (asid blk : Nat) : Nat → Nat → List Byte
  | _, 0 => []
  | j, k + 1 =>
    match x.line asid ((blk + 64 * j) % 2 ^ 52) with
    | none => []
    | some bs => bs ++ x.blockBytes asid blk (j + 1) k

/-- The header of a block from its bytes (R52). -/
def headerOf (bs : List Byte) : Header :=
  let w0 := leNat (bs.take 8)
  { icnt := bits w0 44 8, lcnt := bits w0 35 9, exc := bits w0 31 4, efc := bits w0 23 8
    stm := bits w0 22 1 = 1, cal := bits w0 21 1 = 1, win := bits w0 16 5
    occ := leNat ((bs.drop 8).take 16) }

/-- The length of a block (R53). -/
def Header.len (h : Header) : Nat := 32 + 8 * h.icnt + 4 * h.lcnt

/-- The occupied elements in ascending order. -/
def Header.elems (h : Header) : List Nat := (List.range 128).filter fun i => h.occ.testBit i

/-- A callable block is mapped only as the entry block of a callable node, when its section is armed (R76). -/
def Node.mayCal (n : Node) : Bool := n.callable && n.atEntry

/-- Check 1 of R56, with R76. -/
def headerBad (bs : List Byte) (mayCal : Bool) : Bool :=
  let w0 := leNat (bs.take 8)
  let h := headerOf bs
  bits w0 56 8 != 0xb1 || bits w0 52 4 != 1 || leNat ((bs.drop 24).take 8) != 0 || bits w0 0 16 != 0
    || h.icnt = 0 || h.icnt != h.elems.length || (h.stm && h.cal) || (h.cal && h.win != 31) || (h.cal && !mayCal)

/-- The lines of its block that the node's cluster lacks: the header's first, then the rest by the lengths it gives. DESIGN
CHOICE: a block that runs past address 2^52 goes on at address 0 (assumption 31). -/
def State.missing (s : State) (nk : Nat) : Option Nat :=
  let n := s.nd nk
  let x := s.cl (nk / 8)
  match x.line n.asid n.blk with
  | none => some n.blk
  | some bs =>
    if headerBad bs n.mayCal then none
    else
      ((List.range (((headerOf bs).len + 63) / 64)).map fun j => (n.blk + 64 * j) % 2 ^ 52).find? fun va => (x.line n.asid va).isNone

/-- No instruction of the plane is issued but unfinished (R26): no load or wait, and no barrier instruction. A store has
finished for its element once it is released to the interface. -/
def Node.unitsIdle (n : Node) : Bool := n.barWait.isEmpty && n.mif.all fun a => a.writes || a.done || a.off

/-- The node is about to map, its plane idle (R26), and the next generation is free (R25). -/
def State.mayMap (s : State) (nk : Nat) : Bool :=
  let n := s.nd nk
  s.live nk && n.st = .mapping && n.pend.isNone && n.invs.isEmpty && n.actsDone && n.unitsIdle && (n.first || n.genFree)

/-! ### Mapping faults (R57) -/

/-- The plane's context words are gone. -/
def State.clearCtx (s : State) (nk : Nat) : State :=
  (s.modCl (nk / 8) fun x => { x with
    ctx := x.ctx.filter (fun (e : Nat × Ctx) => e.1 / 128 != nk % 8)
    ctxErr := x.ctxErr.filter (fun k => k / 128 != nk % 8) }).modNd nk fun n => { n with hdr := none }

/-- What the plane held is gone: its context words, and the operands of no invocation are freed and counted (R39). -/
def State.clearPlane (s : State) (nk : Nat) : State :=
  let c := nk / 8
  let mine (t : Tok) : Bool := t.pl = nk % 8
  let k := ((s.cl c).store.filter mine).length + (s.nd nk).spill.length
  let s := if k = 0 then s else countEvent s (s.nd nk).part c 3 k
  let s := s.modCl c fun x => { x with
    ctx := x.ctx.filter (fun (e : Nat × Ctx) => e.1 / 128 != nk % 8)
    ctxErr := x.ctxErr.filter (fun k => k / 128 != nk % 8)
    store := x.store.filter (fun t => !mine t)
    ready := x.ready.filter fun r => r.pl != nk % 8 }
  (s.modNd nk fun n => { n with spill := [], hdr := none, dones := [], regs := [], stmBuf := [] }).unspill c

/-- The generation steps as a mapping begins, but for the first after admission (R25). -/
def Node.mapGen (n : Node) : Node := if n.first then { n with first := false } else n.stepGen

/-- A mapping faults (R57): the plane is empty, and the node waits for its handler. -/
def State.mapFault (s : State) (nk : Nat) (cz : Cause) (aux : Nat) (ix : Option Nat) (word : Nat) : State :=
  let s := s.clearPlane nk
  let n := s.nd nk
  let f : Pending :=
    { cause := cz, n := n.next, ws := 0, age := n.ageNext, ix := ix, map := true, aux := aux, va := n.blk
      opc := bits word 56 8, sub := match lookupWord word with | .one op => (op.sel).getD 0 | .sub k _ => k | .unassigned => 0 }
  let s := s.modNd nk fun n => { n.mapGen with pc := n.blk, moveTo := some n.blk }
  let s := s.formRecord nk { f with at_ := s.now } n.next n.blk
  s.modNd nk fun n => { n with stop := true, rst := n.next, okNext := true, st := .faulted }

/-- The cause of a failed fill (R54). -/
def fillCause : Cause → Cause
  | .translation | .forwardLimit => .fetchTranslation
  | .permission => .fetchPermission
  | .uncorrectableError => .fetchUncorrectable
  | c => c

/-- R54: the block cache fills the next line that a mapping lacks, or the mapping faults. A page that a forward entry puts on
another chip counts as failed translation; a forward entry that names the own chip is followed (assumption 13). -/
def execBlockCacheFill (c p : Nat) (s : State) : Out :=
  let nk := nkOf c p
  let n := s.nd nk
  if !s.mayMap nk then .next s
  else
    match s.missing nk with
    | none => .next s
    | some va =>
      let hs := [tlbCl c, tlbDie (c / 96)]
      match xlate s hs n.part n.asid va permX with
      | .away _ _ _ _ => .next (s.mapFault nk .fetchTranslation 0 none 0)
      | .bad cz a => .next (s.mapFault nk (fillCause cz) a none 0)
      | .here pa slot =>
        if keyHeld s (some slot) then .next s
        else if badAt s pa then .next (s.mapFault nk .fetchUncorrectable 0 none 0)
        else
          let r := readUnder (s.fillTlb hs n.part n.asid va) pa 64 (some slot)
          .next (r.1.modCl c fun x => { x with
            bcache := (if 1024 ≤ x.bcache.length then x.bcache.drop 1 else x.bcache) ++ [(n.asid, va, natLE r.2 64)] })

/-! ### The checks of the instructions (R56) -/

/-- An instruction in the stream of a block: its element, the offset at which it begins, its word and its literal. -/
structure Placed where
  ix : Nat
  off : Nat
  word : Nat
  lit : Nat := 0
  lits : Nat := 0
deriving DecidableEq, Repr

/-- The words of the stream in order (R53); a word or literal past the end of the block reads as zero. -/
def placeAll (bs : List Byte) (len : Nat) : Nat → List Nat → List Placed
  | _, [] => []
  | off, ix :: ixs =>
    let at_ (o n : Nat) : Nat := if o + n ≤ len then leNat ((bs.drop o).take n) else 0
    let w := at_ off 8
    let k := if off + 8 ≤ len then litWords w else 0
    { ix := ix, off := off, word := w, lit := at_ (off + 8) (4 * k), lits := k } :: placeAll bs len (off + 8 + 4 * k) ixs

/-- The instruction of a placed word. -/
def Placed.view (x : Placed) : Option (Op × Fields) :=
  match decodeWord x.word x.lit with
  | .ok i => i.view
  | .error _ => none

/-- An effect instruction (R39). -/
def isEffect (op : Op) : Fields → Bool
  | .g w => op = .write || gEffect w
  | .m _ => opEffect op
  | .c _ => true
  | .e _ => true
  | .s _ => true

/-- The target fields of an instruction. -/
def targetsOf : Fields → List Target
  | .g w => [w.t0, w.t1]
  | .m w => [w.t0]
  | .c _ => []
  | .e w => [w.t0]
  | .s w => [w.t0]

/-- The M-format words of the stream with their fields, whether or not they pass their own checks: each has its SEQ (R87). -/
def waves (ps : List Placed) : List (Nat × Op × MWord) :=
  ps.filterMap fun x =>
    match lookupWord x.word with
    | .one op => if op.format = .m then some (x.ix, op, (mFields x.word).word) else none
    | _ => none

/-- What check 5 asks of an M-format instruction and the rest of its block (R87, R92, R94, R130). `before` are the
instructions with lower indexes. -/
def mLinksBad (all before : List (Nat × Op × MWord)) (ix : Nat) (op : Op) (w : MWord) : Bool :=
  let dt := w.dt.toNat
  let seqs := (all.filter fun e => e.2.1 != .ldrgn).map fun e => e.2.2.seq.toNat
  let link (k : Nat) : Bool := k = 0 || k = 127 || seqs.contains k
  if op = .ldrgn then
    dt != ix || (match w.t0 with
      | .slot j .q => !all.any fun e => e.1 = j.toNat && e.2.1 != .ldrgn && e.2.2.mode = .stm
      | _ => true)
  else before.any (fun e => e.2.1 != .ldrgn && e.2.2.seq = w.seq) || !link w.prev.toNat || !link w.next.toNat
    || (op = .fence && dt = ix) || (dt != ix && kindOf dt != .m)

/-- A done target names an element that is not occupied (R94): check 6. -/
def dtEmpty (occ ix : Nat) : Fields → Bool
  | .m w => w.dt.toNat != ix && !occ.testBit w.dt.toNat
  | _ => false

/-- A done target that an instruction before names too (R94): check 7. -/
def dtTwice (before : List (Nat × Op × MWord)) (ix : Nat) : Fields → Bool
  | .m w => w.dt.toNat != ix && before.any fun e => e.2.2.dt = w.dt && e.1 != w.dt.toNat
  | _ => false

/-- Checks 2 to 8 of R56 on one instruction. -/
def instrCheck (h : Header) (wires : List Wire) (all before : List (Nat × Op × MWord)) (x : Placed) : Option Cause :=
  let kinds : Option (List Kind) := match lookupWord x.word with
    | .unassigned => none
    | .one op => some op.kinds
    | .sub _ ops => some ((ops.head?.map Op.kinds).getD [])
  match kinds with
  | none => some .unassignedOpcode
  | some ks =>
    if !ks.contains (kindOf x.ix) then some .wrongElementKind
    else
      match decodeWord x.word x.lit with
      | .error c => some c
      | .ok i =>
        match i.view with
        | none => some .reservedCode
        | some (op, f) =>
          let outOfBlock := match f with
            | .m w => mLinksBad all before x.ix op w
            | _ => (op = Op.tret || op = Op.fret || op = Op.frec) && !h.cal
          let ts := targetsOf f
          let empty (t : Target) : Bool := match t with | .slot j _ => !h.occ.testBit j.toNat | _ => false
          let noWire (t : Target) : Bool := match t with | .queue q => !wires.any fun w => w.q = q.toNat | _ => false
          if outOfBlock then some .reservedCode
          else if ts.any empty || dtEmpty h.occ x.ix f then some .tokenToEmptyElement
          else if (match ts with | [a, b] => a = b && a != Target.none | _ => false) || dtTwice before x.ix f then
            some .duplicateTarget
          else if ts.any noWire then some .unwiredQueue
          else none

/-- Checks 2 to 9, instruction by instruction: the first failure with its element and word. -/
def streamCheck (h : Header) (wires : List Wire) (all : List (Nat × Op × MWord)) : List Placed → Option (Cause × Nat × Nat)
  | [] => none
  | x :: xs =>
    let before := all.filter fun e => e.1 < x.ix
    let past := h.len < x.off + 8 + 4 * x.lits
    if h.len < x.off + 8 then some (.literalPastBlock, x.ix, x.word)
    else
      match instrCheck h wires all before x with
      | some c => some (c, x.ix, x.word)
      | none => if past then some (.literalPastBlock, x.ix, x.word) else streamCheck h wires all xs

/-- Check 10, with R92 and R97. -/
def countsBad (h : Header) (all : List (Nat × Op × MWord)) (ps : List Placed) : Bool :=
  let vs := ps.filterMap Placed.view
  let exits := vs.filterMap fun v => match v.2 with | .c w => some w.exn.toNat | _ => none
  let lits := (ps.map (·.lits)).foldl (· + ·) 0
  let returning := all.filter fun e => opAtomic e.2.1 && e.2.2.t0 != .none
  let fed (ix : Nat) : Nat := (all.filter fun e => e.2.1 = .ldrgn && e.2.2.t0 = .slot (BitVec.ofNat 7 ix) .q).length
  lits < h.lcnt || h.efc != (vs.filter fun v => isEffect v.1 v.2).length || h.exc != exits.length
    || !decide exits.Nodup || exits.any (fun k => h.exc ≤ k) || 1 < returning.length
    || all.any fun e => e.2.1 != .ldrgn && e.2.2.mode = .stm && fed e.1 != 1

/-- R55: the node's block is checked and loaded into its plane. The words of the header that fails are known from its
first line alone. A block that a resume maps again keeps the operands of its iterations to come (R37, R402). -/
def execBlockMap (c p : Nat) (s : State) : Out :=
  let nk := nkOf c p
  let n := s.nd nk
  let x := s.cl c
  if !s.mayMap nk then .next s
  else
    match x.line n.asid n.blk with
    | none => .next s
    | some line =>
      if headerBad line n.mayCal then .next (s.mapFault nk .badBlockHeader 0 none 0)
      else if (s.missing nk).isSome then .next s
      else
        let h := headerOf line
        let bs := x.blockBytes n.asid n.blk 0 ((h.len + 63) / 64)
        let ps := placeAll bs h.len 32 h.elems
        let all := waves ps
        match streamCheck h n.wires all ps with
        | some (cz, ix, w) => .next (s.mapFault nk cz 0 (some ix) w)
        | none =>
          if countsBad h all ps then .next (s.mapFault nk .countMismatch 0 none 0)
          else
            let s := if n.resumed && n.moveTo = some n.pc then s.clearCtx nk else s.clearPlane nk
            let s := s.modCl c fun x => { x with
              ctx := ps.foldl (fun t e => Tab.put t (p * 128 + e.ix)
                { word := BitVec.ofNat 64 e.word, lit := BitVec.ofNat 64 e.lit }) x.ctx }
            let hd : Header := { h with waves := all.any fun e => e.2.1 != .ldrgn }
            .next (s.modNd nk fun n => { n.mapGen with
              hdr := some hd, pc := n.blk, moveTo := none, resumed := false, mp := n.mp + 1, st := .running, stop := false }).kernelsCheck

end Sys2Proof.Machine
end

