-- ==== Sys2Proof/Machine/Weir.lean ====
section
/-!
DEFINITION. From launch record to kernel: the Weir (R291 to R303), pre-emption and resume (R400 to R404), and the status
words (R294, R418).
-/

namespace Sys2Proof.Machine

/-! ### Reading the structures -/

/-- `n` bytes, at most 64 and within a granule, read under a queue's ASID. -/
def sysRead (s : State) (part asid va n : Nat) : Except Cause Nat :=
  match sysLoc s part asid va permR with
  | .error c => .error c
  | .ok (pa, slot) => .ok (readUnder s pa n (some slot)).2

/-- `cnt` items of `n` bytes from an address. -/
def sysReadN (s : State) (part asid va n : Nat) : Nat → Nat → Except Cause (List Nat)
  | _, 0 => .ok []
  | j, cnt + 1 =>
    match sysRead s part asid (va + n * j) n with
    | .error c => .error c
    | .ok v =>
      match sysReadN s part asid va n (j + 1) cnt with
      | .error c => .error c
      | .ok vs => .ok (v :: vs)

/-- Word `k` of an item. -/
def wd (v k : Nat) : Nat := bits v (64 * k) 64

/-! ### Launch records (R292, R293) -/

/-- A record breaks R292. -/
def recordBad (v : V512) : Bool :=
  let w (k : Nat) : Nat := (wordOf v k).toNat
  launchReserved v || w 1 % 64 != 0 || w 2 % 64 != 0 || w 4 % 16 != 0 || 12 ≤ bits (w 3) 0 4

/-- What the head of a queue is. -/
structure Head where
  q : Nat
  rank : Nat
  at_ : Nat
  bypass : Nat
  w : Nat
  h : Nat
  /-- A resume entry: the kernel and its placement. -/
  resume : Option (Nat × Nat × Nat) := none
  v : V512 := 0
deriving DecidableEq, Repr

/-- Record TAKEN of a queue, as read; none when the queue has no record as its head. The ASID is of the partition's range, or the
record cannot be read (R337). -/
def State.headRec (s : State) (q : Nat) : Option (Except Cause V512) :=
  if !lqEn s q || !(Tab.get {} s.queues q).resume.isEmpty || lqTail s q = lqTaken s q then none
  else if !asidIn s (lqPart s q) (lqAsid s q) then some (.error .permission)
  else
    match sysRead s (lqPart s q) (lqAsid s q) (lqRec s q (lqTaken s q)) 64 with
    | .error c => some (.error c)
    | .ok v => some (.ok (BitVec.ofNat 512 v))

/-- TAKEN steps past the head (R291, R417); the next record's age begins. -/
def State.take (s : State) (q : Nat) (v : Option V512) (seq : Bool) : State :=
  let t := (lqTaken s q + 1) % 2 ^ 32
  let s := srSet s 0 (lqReg q 3) (BitVec.ofNat 64 (lqDone s q * 2 ^ 32 + t))
  let s := match v with | some x => srSet s 0 (0x680 + q) (wordOf x 0) | none => s
  let l := Tab.get ({} : LQueue) s.queues q
  { s with queues := Tab.put s.queues q { l with
      bypass := 0
      headAt := if t = lqTail s q then none else some s.now
      expect := match v with
        | some x => if seq then some (wordOf x 0 + 1) else l.expect
        | none => l.expect } }

/-- The head is answered (R293, R294). -/
def State.answer (s : State) (q code : Nat) (v : Option V512) (seq : Bool) : State :=
  let j := lqTaken s q
  (s.take q v seq).owe q j code 0

/-- The status with which a readable record is answered, if the checks of R293 refuse it: 2 for a record that breaks
R292, 6 for another partition's, 5 for one out of sequence. -/
def State.headCode (s : State) (q : Nat) (v : V512) : Option Nat :=
  let part := bits (wordOf v 3).toNat 20 6
  if recordBad v then some 2
  else if part != lqPart s q || !partValid s part then some 6
  else
    match (Tab.get {} s.queues q).expect with
    | none => none
    | some e => if wordOf v 0 = e then none else some 5

/-- The head fails a check of R293: it is answered by the Weir of the die that it names, or, where it cannot be read, by
either (assumption 46). -/
def State.answerHead (s : State) (d q : Nat) : State :=
  match s.headRec q with
  | none => s
  | some (.error c) => s.answer q (if c = .uncorrectableError then 2 else 6) none false
  | some (.ok v) =>
    if bits (wordOf v 3).toNat 8 1 != d then s
    else
      match s.headCode q v with
      | none => s
      | some c => s.answer q c (some v) (c != 5)

/-- The heads of a die, those that R293 answers left out. -/
def State.heads (s : State) (d : Nat) : List Head :=
  (List.range 64).filterMap fun q =>
    let l := Tab.get ({} : LQueue) s.queues q
    match l.resume with
    | k :: _ =>
      if !lqEn s q then none
      else
        match s.kern k with
        | none => none
        | some x =>
          if x.die = d then
            some { q := q, rank := x.rank, at_ := x.age, bypass := x.bypass, w := x.w, h := x.h, resume := some (k, x.x, x.y) }
          else none
    | [] =>
      match s.headRec q with
      | some (.ok v) =>
        let w3 := (wordOf v 3).toNat
        if bits w3 8 1 = d && (s.headCode q v).isNone then
          some { q := q, rank := bits w3 16 4, at_ := (l.headAt).getD s.now, bypass := l.bypass, w := bits w3 0 4 + 1
                 h := bits w3 4 3 + 1, v := v }
        else none
      | _ => none

/-- The order of R300. -/
def Head.before (a b : Head) : Bool :=
  b.rank < a.rank || (a.rank = b.rank && (a.at_ < b.at_ || (a.at_ = b.at_ && a.q < b.q)))

/-! ### Placements (R301, R302) -/

/-- The clusters of a rectangle. -/
def rect (d x y w h : Nat) : List Nat :=
  (List.range h).flatMap fun j => (List.range w).map fun i => d * 96 + (y + j) * 12 + (x + i)

/-- The placements of a head, in the order in which they are tried. -/
def Head.places (a : Head) : List (Nat × Nat) :=
  match a.resume with
  | some (_, x, y) => [(x, y)]
  | none => (List.range (9 - a.h)).flatMap fun y => (List.range (13 - a.w)).map fun x => (x, y)

/-- The first placement whose clusters are free. -/
def State.fits (s : State) (d : Nat) (a : Head) : Option (Nat × Nat) :=
  a.places.find? fun p => (rect d p.1 p.2 a.w a.h).all fun c => (s.cl c).holder.isNone

/-- The context slots of a partition that are free, lowest first (R403). -/
def State.slotsFree (s : State) (part : Nat) : List Nat :=
  let used := s.slotsUsed part
  (List.range (rbits (partReg s part 0x063) 0 16)).filter fun j => !used.contains j

/-- The rank by which R302 may take a kernel's clusters: 15 when it cannot be saved (R403). One that stops already needs no
slots more. -/
def State.holdRank (s : State) (k : Nat) : Nat :=
  match s.kern k with
  | none => 15
  | some x =>
    if x.st = .preempting || x.st = .ended then x.rank
    else if x.st != .running || (s.slotsFree x.part).length < x.w * x.h then 15
    else x.rank

/-- A kernel is pre-empted (R400): it starts no more invocations; it has its slots. -/
def State.preempt (s : State) (k : Nat) : State :=
  match s.kern k with
  | none => s
  | some x =>
    if x.st != .running || (s.slotsFree x.part).length < x.w * x.h then s
    else s.modKern k fun y => { y with st := .preempting, since := s.now, slots := (s.slotsFree x.part).take (x.w * x.h) }

/-- Pre-emption can free a placement (R302): each of its clusters is free, or held by a kernel of lower rank; and those that it
pre-empts have their slots together. -/
def State.takeOver (s : State) (d : Nat) (a : Head) (p : Nat × Nat) : Option State :=
  let holder (c : Nat) : Option Nat := (s.cl c).holder.map (·.1)
  let stops (s : State) (k : Nat) : Bool := (s.kern k).any fun x => x.st = .preempting || x.st = .ended
  let cs := rect d p.1 p.2 a.w a.h
  let t := cs.foldl (fun s c => match holder c with | some k => s.preempt k | none => s) s
  if cs.all fun c => match holder c with | none => true | some k => stops t k && s.holdRank k < a.rank then some t
  else none

/-- The holders of the first placement that pre-emption can free are pre-empted (R302). -/
def State.preemptFor (s : State) (d : Nat) (a : Head) : State := (a.places.findSome? fun p => s.takeOver d a p).getD s

/-! ### The kernel's structures (R295 to R299, R325) -/

/-- A section as read. -/
structure SecRec where
  x : Nat
  y : Nat
  w : Nat
  h : Nat
  npred : Nat
  succ : Nat
  first : Nat
  cnt : Nat
  t : Nat
  stva : Nat
deriving DecidableEq, Repr

/-- A node as read. -/
structure NodeRec where
  entry : Nat
  nreg : Nat
  pl : Nat
  x : Nat
  y : Nat
  qva : Nat
  regva : Nat
deriving DecidableEq, Repr

/-- The bits of `v` outside the ranges (low bit, width) listed are zero. -/
def onlyBits (v : Nat) (rs : List (Nat × Nat)) : Bool :=
  v = rs.foldl (fun a r => a + bits v r.1 r.2 * 2 ^ r.1) 0

/-- A section descriptor breaks its table (R296). -/
def secRecBad (v nsec nnode w h : Nat) : Bool :=
  !onlyBits (wd v 0) [(16, 6), (12, 3), (8, 4), (4, 3), (0, 4)] || 11 < bits (wd v 0) 8 4 || 11 < bits (wd v 0) 0 4
    || wd v 1 / 2 ^ nsec != 0 || !onlyBits (wd v 2) [(16, 11), (0, 11)] || bits (wd v 2) 16 11 = 0
    || 1536 < bits (wd v 2) 16 11 || 1535 < bits (wd v 2) 0 11 || nnode < bits (wd v 2) 0 11 + bits (wd v 2) 16 11
    || wd v 3 = 0 || 2 ^ 32 ≤ wd v 3 || 2 ^ 52 ≤ wd v 4 || wd v 4 % 64 != 0 || wd v 5 != 0 || wd v 6 != 0 || wd v 7 != 0
    || w < bits (wd v 0) 0 4 + bits (wd v 0) 8 4 + 1 || h < bits (wd v 0) 4 3 + bits (wd v 0) 12 3 + 1

def secOf (v : Nat) : SecRec :=
  { x := bits (wd v 0) 0 4, y := bits (wd v 0) 4 3, w := bits (wd v 0) 8 4 + 1, h := bits (wd v 0) 12 3 + 1
    npred := bits (wd v 0) 16 6, succ := wd v 1, first := bits (wd v 2) 0 11, cnt := bits (wd v 2) 16 11, t := wd v 3
    stva := wd v 4 }

/-- A node descriptor breaks its table (R297). -/
def nodeRecBad (v : Nat) : Bool :=
  2 ^ 52 ≤ wd v 0 || wd v 0 % 64 != 0 || !onlyBits (wd v 1) [(16, 16), (8, 3), (4, 3), (0, 4)] || 11 < bits (wd v 1) 0 4
    || 2 ^ 52 ≤ wd v 2 || wd v 2 % 4 != 0 || 2 ^ 52 ≤ wd v 3 || wd v 3 % 16 != 0

def nodeOf (v : Nat) : NodeRec :=
  { entry := wd v 0, nreg := bits (wd v 1) 16 16, pl := bits (wd v 1) 8 3, x := bits (wd v 1) 0 4, y := bits (wd v 1) 4 3
    qva := wd v 2, regva := wd v 3 }

/-- A wiring entry breaks its layout (R297). -/
def wireBad (e nnode : Nat) : Bool :=
  bits e 0 11 != 0 || (bits e 31 1 = 1 && (nnode ≤ bits e 20 11 || bits e 11 2 = 2))

/-- A register entry breaks its layout (R297). -/
def regEntBad (e nnode : Nat) (arg : Bool) : Bool :=
  let w0 := wd e 0
  let num := bits w0 13 11
  bits w0 24 40 != 0 || (arg && nnode ≤ bits w0 0 11)
    || (match bits w0 11 2 with
      | 0 => 63 < num
      | 1 => 15 < num
      | 2 => !(num = 0x10 || num = 0x11 || (0x40 ≤ num && num ≤ 0x44) || (0x48 ≤ num && num ≤ 0x4f))
      | _ => true)

/-- The successor graph has no cycle: sections are taken off as their predecessors are gone. -/
def acyclic (ss : List SecRec) : Nat → List Nat → Bool
  | 0, left => left.isEmpty
  | fuel + 1, left =>
    match left.find? fun i => !left.any fun j => (((ss[j]?).map fun (e : SecRec) => e.succ).getD 0).testBit i with
    | none => left.isEmpty
    | some i => acyclic ss fuel (left.filter (· != i))

/-- A section is placed router-aligned (R325). -/
def SecRec.aligned (e : SecRec) (x y : Nat) : Bool :=
  (x + e.x) % 2 = 0 && (y + e.y) % 2 = 0 && e.w % 2 = 0 && e.h % 2 = 0

/-- The router that an entry of a slot table addresses. -/
def SecRec.routerFor (e : SecRec) (d x y v : Nat) : Nat :=
  d * 32 + ((y + e.y) / 2 + bits v 50 2) * 8 + ((x + e.x) / 2 + 1 + bits v 52 4)

/-- The router and port of an entry's output. -/
def SecRec.outOf (e : SecRec) (d x y v : Nat) : Nat × Nat := (e.routerFor d x y v, bits v 40 4)

/-- A port number that router `r` lacks (R321). -/
def portLacks (r p : Nat) : Bool :=
  let edge := r % 8 = 0 || r % 8 = 7
  p = r % 8 || (8 ≤ p && p - 8 = r % 32 / 8) || (edge && p = 14 && r % 8 = 7 * (r / 32 % 2))
    || (edge && p = 15 && r % 32 / 8 != 3)

/-- An entry of a section's slot tables breaks R325 by itself. -/
def slotBad (e : SecRec) (d x y v : Nat) : Bool :=
  let inside (r : Nat) : Bool :=
    r / 32 = d && (y + e.y) / 2 ≤ r % 32 / 8 && r % 32 / 8 < (y + e.y) / 2 + e.h / 2
      && (x + e.x) / 2 + 1 ≤ r % 8 && r % 8 < (x + e.x) / 2 + 1 + e.w / 2
  let o := e.outOf d x y v
  e.w / 2 ≤ bits v 52 4 || e.h / 2 ≤ bits v 50 2 || portLacks o.1 o.2 || portLacks o.1 (bits v 44 4)
    || (match linkTo o.1 o.2 with | some (r, _) => !inside r | none => false)

/-- The slot tables of the aligned sections break R325: an entry, a slot of an output named twice, or more than 192 slots of one
output. -/
def slotsBad (d x y : Nat) (l : List (SecRec × List Nat)) : Bool :=
  let outs := l.flatMap fun e => e.2.map fun v => (e.1.outOf d x y v, bits v 56 8)
  l.any (fun e => e.2.any (slotBad e.1 d x y))
    || outs.any (fun o => 1 < (outs.filter (· = o)).length || 192 < (outs.filter fun u => u.1 = o.1).length)

/-- A kernel as read and checked. -/
structure KernRec where
  secs : List SecRec := []
  nodes : List NodeRec := []
  cals : List Bool := []
  wires : List (List Nat) := []
  regs : List (List Nat) := []
  args : List Nat := []
  groups : List (List Nat) := []
  tables : List (List Nat) := []
deriving DecidableEq, Repr

/-- Reads one thing after another, ending at the first that cannot be read. -/
def readAll {α : Type} (f : α → Except Cause (List Nat)) : List α → Except Cause (List (List Nat))
  | [] => .ok []
  | a :: as =>
    match f a with
    | .error c => .error c
    | .ok v =>
      match readAll f as with
      | .error c => .error c
      | .ok vs => .ok (v :: vs)

/-- The section of a node. -/
def secOfNode (ss : List SecRec) (n : Nat) : List Nat :=
  (List.range ss.length).filter fun i => match ss[i]? with | some e => e.first ≤ n && n < e.first + e.cnt | none => false

/-- The package cluster of a node. -/
def nodeCl (ss : List SecRec) (d x y n : Nat) (r : NodeRec) : Nat :=
  match (secOfNode ss n).head?.bind fun i => ss[i]? with
  | some e => d * 96 + (y + e.y + r.y) * 12 + (x + e.x + r.x)
  | none => 0

/-- The kernel of a record at a placement is read and checked (R295 to R299, R47, R325): the CODE of its answer, or what was
read. -/
def State.readKernel (s : State) (a : Head) (d x y : Nat) : Except Nat KernRec :=
  let part := lqPart s a.q
  let asid := lqAsid s a.q
  let v := a.v
  let w (k : Nat) : Nat := (wordOf v k).toNat
  let rd (va n cnt : Nat) : Except Cause (List Nat) := sysReadN s part asid va n 0 cnt
  let r : Except Cause (Except Nat KernRec) := do
    let h := (← rd (w 1) 64 1).headD 0
    let nsec := bits (wd h 0) 16 8
    let nnode := bits (wd h 0) 0 11
    if bits (wd h 0) 56 8 != 0xc6 || bits (wd h 0) 52 4 != 1 || bits (wd h 0) 24 28 != 0 || bits (wd h 0) 11 5 != 0
        || nsec = 0 || 64 < nsec || nnode = 0 || 1536 < nnode || 2 ^ 52 ≤ wd h 1 || 2 ^ 52 ≤ wd h 2 || wd h 1 % 64 != 0
        || wd h 2 % 32 != 0 || (List.range 5).any (fun k => wd h (3 + k) != 0) then
      return .error 3
    let secs ← rd (wd h 1) 64 nsec
    if secs.any fun e => secRecBad e nsec nnode a.w a.h then return .error 3
    let ss := secs.map secOf
    let npreds (i : Nat) : Nat := (ss.filter fun e => e.succ.testBit i).length
    if (List.range nsec).any (fun i => ((ss[i]?).map (·.npred)).getD 0 != npreds i) || !acyclic ss nsec (List.range nsec) then
      return .error 3
    let ns ← rd (wd h 2) 32 nnode
    if ns.any nodeRecBad then return .error 3
    let nodes := ns.map nodeOf
    let outside (n : Nat) (r : NodeRec) : Bool :=
      match secOfNode ss n with
      | [i] => match ss[i]? with | some e => e.w ≤ r.x || e.h ≤ r.y | none => true
      | _ => true
    let numbered := (List.range nnode).zip nodes
    if numbered.any (fun e => outside e.1 e.2) then return .error 3
    let planes := numbered.map fun e => nkOf (nodeCl ss d x y e.1 e.2) e.2.pl
    if !decide planes.Nodup then return .error 3
    let wires ← readAll (fun (r : NodeRec) => if r.qva = 0 then .ok [] else rd r.qva 4 16) nodes
    if wires.any fun l => l.any fun e => wireBad e nnode then return .error 3
    let regs ← readAll (fun (r : NodeRec) => if r.regva = 0 then .ok [] else rd r.regva 16 r.nreg) nodes
    if regs.any fun l => l.any fun e => regEntBad e nnode false then return .error 3
    let args ← if w 4 = 0 then .ok [] else rd (w 4) 16 (bits (w 5) 0 16)
    if args.any fun e => regEntBad e nnode true then return .error 3
    let heads ← readAll (fun (r : NodeRec) => rd r.entry 8 1) nodes
    let hs ← readAll (fun (e : SecRec) => if e.stva = 0 then .ok [] else rd e.stva 64 1) ss
    if hs.any fun l => l.any fun t => wd t 0 = 0 || 4096 < wd t 0 || t / 2 ^ 64 != 0 then return .error 3
    let tables ← readAll (fun (e : SecRec × List Nat) =>
      if e.2.isEmpty then .ok [] else rd (e.1.stva + 64) 8 (wd (e.2.headD 0) 0)) (ss.zip hs)
    if tables.any fun l => l.any fun t => bits t 48 2 != 0 || bits t 0 40 != 0 || 5 < bits t 52 4 then return .error 3
    if slotsBad d x y ((ss.zip tables).filter fun e => e.1.aligned x y) then return .error 3
    let gs ← if w 2 = 0 then .ok [] else rd (w 2) 16 256
    if gs.any fun g => g / 2 ^ (a.w * a.h) != 0 then return .error 3
    let groups := gs.map fun g => ((List.range (a.w * a.h)).filter fun b => g.testBit b).map fun b =>
      d * 96 + (y + b / a.w) * 12 + (x + b % a.w)
    if (rect d x y a.w a.h).any fun c => 4 < (groups.filter fun g => g.contains c).length then return .error 4
    return .ok { secs := ss, nodes := nodes, cals := heads.map (fun l => bits (l.headD 0) 21 1 = 1), wires := wires, regs := regs
                 args := args, groups := groups, tables := tables }
  match r with
  | .ok x => x
  | .error _ => .error 3

/-! ### Admission (R303) -/

/-- The memory of a cluster: its scratchpad and its weight store. -/
def clMem (c k : Nat) : Bool :=
  (spKey c 0 ≤ k && k < spKey c 0 + 0x180000) || (wsKey c 0 ≤ k && k < wsKey c 0 + 0x400000)

/-- A cluster is given to a kernel (R303 step 2). -/
def State.giveCluster (s : State) (c k part : Nat) : State :=
  let same := (s.cl c).prevPart = some part
  let s := if same then s
    else { s with
      mem := s.mem.filter fun e => !clMem c e.1
      sr := s.sr.filter fun (e : Nat × W64) => !(e.1 / 2048 = 8 + c && (isSel (e.1 % 2048) || isCnt (e.1 % 2048))) }
  s.modCl c fun x => { x with
    engTiles := [], sems := [], semErr := [], pats := [], array := {}, kms := [], episodes := [], holder := some (k, part) }

/-- One register entry is applied to a node, as a write of its register (R297, R303). -/
def State.applyReg (s : State) (nk e : Nat) : State :=
  let w0 := wd e 0
  let num := bits w0 13 11
  let v : W64 := BitVec.ofNat 64 (wd e 1)
  match bits w0 11 2 with
  | 0 => s.modNd nk fun n => { n with g := Tab.putD 0 n.g num v }
  | 1 => s.modNd nk fun n => { n with m := Tab.putD 0 n.m num v }
  | _ => s.regWrite (s.nodeParty nk) num v.toNat

/-- The queues of a node as wired (R46). -/
def wiresOf (ks : List Nat) (es : List Nat) : List Wire :=
  (List.range es.length).filterMap fun q =>
    let e := es.getD q 0
    if bits e 31 1 = 0 then none
    else some { q := q, nk := ks.getD (bits e 20 11) 0, ix := bits e 13 7, pt := Port.ofCode (bits e 11 2) }

/-- The sections of a kernel at its admission. -/
def SecRec.section (e : SecRec) : Section := { npred := e.npred, count := e.npred, succ := e.succ, t := e.t }

/-- A checked kernel is admitted (R303 steps 2 to 4). -/
def State.admitKernel (s : State) (a : Head) (d x y : Nat) (r : KernRec) : State :=
  let part := lqPart s a.q
  let asid := lqAsid s a.q
  let k := s.kernNext
  let nodes := (List.range r.nodes.length).zip r.nodes
  let ks := nodes.map fun e => nkOf (nodeCl r.secs d x y e.1 e.2) e.2.pl
  let desc (e : Nat × NodeRec) : NodeDesc :=
    { num := e.1, sec := (secOfNode r.secs e.1).headD 0, cl := nodeCl r.secs d x y e.1 e.2, pl := e.2.pl, entry := e.2.entry
      cal := r.cals.getD e.1 false }
  let cfg := pkg s (0x601 + 2 * a.q)
  let loaded := (r.secs.zip r.tables).flatMap fun e =>
    if e.1.aligned x y then e.2.map fun v => (e.1.routerFor d x y v, BitVec.ofNat 64 v) else []
  let kn : Kernel :=
    { queue := a.q, recno := lqTaken s a.q, rank := a.rank, age := a.at_, part := part, asid := asid, die := d, x := x, y := y
      w := a.w, h := a.h, secs := r.secs.map SecRec.section, nodes := nodes.map desc, groups := r.groups
      feV := rbits cfg 3 1 = 1, feName := pkg s (0x600 + 2 * a.q), feRank := rbits cfg 0 3, stTables := loaded }
  let s := (rect d x y a.w a.h).foldl (fun s c => s.giveCluster c k part) s
  let s := { s with kernNext := k + 1, kernels := Tab.put s.kernels k kn }
  let s := nodes.foldl (fun s e =>
    let nk := ks.getD e.1 0
    let g := desc e
    let old := s.nd nk
    let n : Node :=
      { asg := some { kernel := k, sec := g.sec, num := e.1, part := part, asid := asid, entry := g.entry, cal := g.cal }
        st := .idle, pc := g.entry, accNext := old.accNext, ageNext := old.ageNext, outst := old.outst
        wires := wiresOf ks (r.wires.getD e.1 []) }
    let s := (s.setNd nk n).clearNodeRegs nk
    let s := (r.regs.getD e.1 []).foldl (fun s v => s.applyReg nk v) s
    (r.args.filter fun v => bits (wd v 0) 0 11 = e.1).foldl (fun s v => s.applyReg nk v) s) s
  let s := (r.secs.zip r.tables).foldl (fun s e =>
    if e.2.isEmpty || e.1.aligned x y then s else countAt s part [1 + d, 0] 10 1) s
  let s := s.take a.q (some a.v) true
  (List.range r.secs.length).foldl (fun s i =>
    match r.secs[i]? with
    | some e => if e.npred = 0 then s.armSection k i e.t else s
    | none => s) s

/-! ### Resume (R404) -/

/-- The memory of a kernel's context slots: where they lie, and the key they are under (R403). -/
def State.slotPa (s : State) (part j : Nat) : Nat := rbits (partReg s part 0x062) 23 29 * 2 ^ 23 + j * 2 ^ 23
def State.ctxKey (s : State) (part : Nat) : Nat :=
  let r := pkg s (0x302 + 8 * part)
  if rbits r 16 11 = 0 then 0 else rbits r 0 11
def State.slotCells (s : State) (x : Kernel) : List Host.Cell :=
  s.mem.filter fun e => x.slots.any fun j => s.slotPa x.part j ≤ e.1 && e.1 < s.slotPa x.part j + 2 ^ 23

/-- The context slots cannot be written, or their check fails (R403). -/
def State.slotsFail (s : State) (x : Kernel) : Bool :=
  !slotLoaded s (s.ctxKey x.part) || x.slots.any fun j =>
    let pa := s.slotPa x.part j
    let k := memKind s pa
    (k != some .hbm && k != some .cxl) || memKind s (pa + 2 ^ 23 - 1) != k || s.memx.bad.any fun g => pa ≤ g && g < pa + 2 ^ 23

/-- A latch set takes the weight store's bytes again (R242). -/
def WSet.reload (s : State) (c : Nat) (w : WSet) : WSet :=
  if w.valid then { w with w := memBytes s (wsKey c w.e) w.w.length, side := memBytes s (wsKey c w.so) w.side.length } else w

/-- A cluster of the image takes its place; its caches are those of the cluster (R402). -/
def Cluster.restore (now saved : Cluster) : Cluster :=
  { saved with
    bcache := now.bcache, kbtb := now.kbtb, cmdNext := max now.cmdNext saved.cmdNext, prevPart := now.prevPart
    notices := now.notices.foldl (fun t (e : Nat × List (Nat × Nat)) => Tab.mod [] t e.1 fun l => (l ++ e.2).take 16)
      saved.notices }

/-- A node of the image: a running one maps its block again and starts at its RST (R404). -/
def Node.restore (n : Node) (old : Node) : Node :=
  { n with
    accNext := max n.accNext old.accNext, ageNext := max n.ageNext old.ageNext, outst := old.outst, resumed := true
    hdr := if n.actsDone then none else n.hdr
    moveTo := if n.st = .running || n.st = .mapping then some n.blk else n.moveTo
    st := if n.st = .running then .mapping else n.st }

/-- A FRET that was held for a saved kernel is applied (R404). -/
def State.applyFret (s : State) (k : Nat) (f : Nat × Nat × Bool) : State :=
  match f.2.1 % 4 with
  | 0 => s.resumeNode f.1 f.2.2
  | 1 => if (s.nd f.1).st = .ended then s else ((s.dropTags f.1).modNd f.1 fun n => { n with aband := n.callable }).endNode f.1
  | _ => s.endKernel k 8 (f.2.1 / 4)

/-- The Weir admits a resume entry (R404). -/
def State.resumeKernel (s : State) (k q : Nat) : State :=
  match s.kern k with
  | none => s
  | some x =>
    let l := Tab.get ({} : LQueue) s.queues q
    let s := ({ s with queues := Tab.put s.queues q { l with resume := l.resume.filter (· != k) } }).stampHead q
    if s.slotsFail x || s.slotCells x != x.ctxCells then
      (s.machineFault .contextRestoreError x.part k).endKernel k 8 0x51
    else
      let s := x.clusters.foldl (fun s c => s.giveCluster c k x.part) s
      let s := x.clusters.foldl (fun s c => match Tab.find x.savedCl c with
        | some z => s.modCl c fun y => { y.restore z with holder := some (k, x.part) }
        | none => s) s
      let s := x.nodes.foldl (fun s d => match Tab.find x.savedNd d.nk with
        | some n => s.setNd d.nk (n.restore (s.nd d.nk))
        | none => s) s
      let s := x.nodes.foldl (fun s d => s.clearNodeRegs d.nk) s
      let mine (e : Nat × W64) : Bool := x.nodes.any fun d => e.1 / 2048 = 256 + d.nk
      let s := (x.savedSr.filter mine).foldl (fun s (e : Nat × W64) => { s with sr := Tab.put s.sr e.1 e.2 }) s
      let s := { s with mem := s.mem.filter fun e => !x.clusters.any fun c => clMem c e.1 }
      let s := (x.savedSp.filter fun e => x.clusters.any fun c => clMem c e.1).foldr (fun e s => memPut s e.1 e.2) s
      let s := x.clusters.foldl (fun s c =>
        s.modArr c fun r => { r with act := r.act.reload s c, shad := r.shad.reload s c }) s
      let s := s.modKern k fun y => { y with
        st := .running, bypass := 0, slots := [], savedCl := [], savedNd := [], savedSp := [], savedSr := [], ctxCells := [], frets := [] }
      x.frets.foldl (fun s f => s.applyFret k f) s

/-! ### The interval (R300 to R303) -/

/-- A head that fits is admitted: resumed, or checked and admitted or answered. -/
def State.admitHead (s : State) (d : Nat) (a : Head) (p : Nat × Nat) : State :=
  match a.resume with
  | some (k, _, _) => s.resumeKernel k a.q
  | none =>
    match s.readKernel a d p.1 p.2 with
    | .error code => s.answer a.q code (some a.v) true
    | .ok r => s.admitKernel a d p.1 p.2 r

/-- A head is passed over (R301). -/
def State.passOver (s : State) (a : Head) : State :=
  match a.resume with
  | some (k, _, _) => s.modKern k fun x => { x with bypass := min 255 (x.bypass + 1) }
  | none =>
    let l := Tab.get {} s.queues a.q
    { s with queues := Tab.put s.queues a.q { l with bypass := min 255 (l.bypass + 1) } }

/-- A head by its queue and, where it is a record, its number there. -/
def State.headId (s : State) (a : Head) : Nat × Option Nat × Nat := (a.q, a.resume.map (·.1), lqTaken s a.q)

/-- The head for which the Weir of a die admits nothing else (R302): the one it has held for, while that still heads its queue,
or the first in order once its bypass count reaches the limit. -/
def State.heldHead (s : State) (d : Nat) (hs : List Head) : Option Head :=
  match (Tab.find s.weirHold d).bind fun id => hs.find? fun a => s.headId a = id with
  | some a => some a
  | none => hs.head?.filter fun a => decide (rbits (pkg s 0x060) 0 8 ≤ a.bypass)

/-- The Weir of a die at one interval (R300 to R302). -/
def State.weir (s : State) (d : Nat) : State :=
  let s := s.completeKernels fun x => x.die = d
  let s := (List.range 64).foldl (fun s q => s.answerHead d q) s
  let hs := sortBy Head.before (s.heads d)
  match s.heldHead d hs with
  | some a =>
    let s := { s with weirHold := Tab.put s.weirHold d (s.headId a) }
    match s.fits d a with
    | some p => { s with weirHold := Tab.del s.weirHold d }.admitHead d a p
    | none => s.preemptFor d a
  | none =>
    let s := { s with weirHold := Tab.del s.weirHold d }
    match hs.find? fun b => (s.fits d b).isSome with
    | none => s
    | some b =>
      match s.fits d b with
      | none => s
      | some p => ((hs.takeWhile fun c => c != b).foldl (fun s c => s.passOver c) s).admitHead d b p

/-- R300: the Weir of die `d` considers its heads, once in 64 cycles. -/
def execAdmissionInterval (d : Nat) (s : State) : Out :=
  if 2 ≤ d || bootErr s != 0 || s.tripped || s.now < Tab.get 0 s.weirNext d then .next s
  else .next (({ s with weirNext := Tab.put s.weirNext d ((s.now / 64 + 1) * 64) }).weir d)

/-! ### Pre-emption (R400 to R403, R391) -/

/-- What is left of a commit cannot go on (R141): it is saved as it stands. -/
def State.actsHeld (s : State) (nk : Nat) : Bool :=
  let n := s.nd nk
  (n.acts :: n.parked).all fun l =>
    match l with
    | [] => true
    | a :: _ => (s.doAct nk a).isNone

/-- The invocations of a node that have not committed in time are discarded at a pre-emption (R400). -/
def State.drainOut (s : State) (nk : Nat) : State :=
  let n := s.nd nk
  if n.invs.isEmpty || !s.actsHeld nk || !n.genFree then s
  else
    let rst := if n.callable then n.next else n.invs.foldl (fun m v => min m v.n) (2 ^ 32)
    ((s.discardFrom nk 0).modNd nk fun n =>
      { n.stepGen with next := rst, rst := rst, okNext := true, stepped := true }).unspill (nk / 8)

/-- R391, R400: the drain limit of a node has passed, since its fault or since its kernel's pre-emption. -/
def execDrainLimitExpiry (c p : Nat) (s : State) : Out :=
  let nk := nkOf c p
  let n := s.nd nk
  let lim := rbits (pkg s 0x061) 0 32
  let pre := match n.kernel.bind s.kern with | some k => k.st = .preempting && k.since + lim ≤ s.now | none => false
  match n.pend with
  | some f =>
    if pre || f.at_ + lim ≤ s.now then
      .next (s.modNd nk fun n => { n with pend := some { f with drn := f.drn || n.invs.any fun v => v.age < f.age } })
    else .next s
  | none => if pre then .next (s.drainOut nk) else .next s

/-- Work that is saved rather than finished (R401, R242): it stands at an element, slot or tile boundary. A receive, a
pending arming, a launch or a spawn that waits, and a name that is not bound, are saved as they stand. -/
def Cmd.savable (m : Cmd) : Bool :=
  m.accs.all (fun a => a.out.isEmpty) &&
  match m.op with
  | .mma | .mrecur => !m.started || m.ph = 0 || (m.ph = 1 && (m.outMode != 2 || m.pos = 0))
  | .copy => (m.later ++ m.held.map (·.1)).all fun e => m.aux.getD 1 0 ≤ e
  | .kvgath => m.accs.isEmpty
  | .wload | .mrecv | .spawn | .nopen | .msendTrig | .wswap | .macc | .mzero | .mstat => true
  | .flpush => decide (m.aux.length ≤ 1) || !m.started
  | .tsend => !m.started
  | .msend => !m.started || m.aux.getD 0 0 != 2
  | .cred | .cbcast | .cgath => !m.started
  | .garm | .launch => true
  | _ => false

/-- How a saved command stands in the image (R401): a WLOAD is repeated, an array command resumes at its tile, a COPY at the
first element not written. -/
def Cmd.owed (m : Cmd) : Cmd :=
  match m.op with
  | .wload => { m with started := false, aux := [], buf := [] }
  | .mma | .mrecur => if m.started then { m with aux := [0, m.tileNo, 0, 0], buf := [], acc := [], accs := [] } else m
  | .copy => { m with aux := [m.aux.getD 1 0, m.aux.getD 1 0], got := [], accs := [], trs := [] }
  | _ => { m with accs := [], trs := [] }

/-- A message that a kernel's clusters take before their image is written (R401). -/
def State.arriving (s : State) (x : Kernel) (m : Parcel) : Bool :=
  match m.body with
  | .arrive c _ _ _ _ _ _ => x.clusters.contains c
  | .sem c _ _ _ _ _ => x.clusters.contains c
  | .qtok t => x.nodes.any fun d => d.nk = nkOf m.dst t.pl
  | .kms _ _ _ _ _ _ _ => x.clusters.contains m.dst
  | .slot fl j _ _ _ _ _ => x.clusters.contains m.dst && (Tab.find (s.cl m.dst).flumes (fl % 16)).any fun f => f.landed = j
  | _ => false

/-- Everything of a pre-empted kernel has come to rest (R400, R401). -/
def State.atRest (s : State) (k : Nat) (x : Kernel) : Bool :=
  let late := x.since + rbits (pkg s 0x061) 0 32 ≤ s.now
  let slow (m : Cmd) : Bool := (m.op = .copy || m.op = .flpush || m.op = .kvgath) && m.started && !late
  let nks := x.nodes.map NodeDesc.nk
  x.nodes.all (fun d =>
    let n := s.nd d.nk
    n.invs.isEmpty && (n.actsDone || (late && s.actsHeld d.nk)) && n.pend.isNone && n.quiet && n.barWait.isEmpty
      && n.outst.all fun (e : Nat × Nat) => e.2 = 0)
    && x.clusters.all (fun c =>
      let y := s.cl c
      y.input.all (fun t => !nks.contains (nkOf c t.pl) || s.tokWaits c t) && y.dlvs.isEmpty && y.disp.isEmpty
        && y.units.all fun (u : Nat × List Cmd) => u.2.all fun m => m.savable && !m.finished && m.fail.isNone && !slow m)
    && !(s.tinvs.any fun t => nks.contains t.nk) && !(s.tsyncs.any fun t => nks.contains t.nk)
    && !(s.ksets.any fun t => nks.contains t.nk)
    && !s.flying.any (fun m => s.arriving x m)
    && (s.kern k).isSome

/-- The image of a kernel is written, and its clusters are free (R400, R402, R403). -/
def State.saveKernel (s : State) (k : Nat) (x : Kernel) : State :=
  if s.slotsFail x then (s.modKern k fun y => { y with st := .stuck }).machineFault .contextSaveError x.part k
  else
    let nks := x.nodes.map NodeDesc.nk
    let gen (n : Node) : Node := if n.st = .unassigned then n else if n.stepped then { n with stepped := false } else n.stepGen
    let own (u : Nat × List Cmd) : Nat × List Cmd := (u.1, u.2.map Cmd.owed)
    let saved : Kernel :=
      { x with
        st := .saved
        savedCl := x.clusters.map fun c => (c, { s.cl c with units := (s.cl c).units.map own, input := [] })
        savedNd := nks.map fun nk => (nk, gen (s.nd nk))
        savedSp := s.mem.filter fun e => x.clusters.any fun c => clMem c e.1
        savedSr := s.sr.filter fun (e : Nat × W64) => nks.contains (e.1 / 2048 - 256) && 256 ≤ e.1 / 2048 && e.1 / 2048 < 4096
        ctxCells := s.slotCells x }
    let l := Tab.get {} s.queues x.queue
    let later (j : Nat) : Bool := match s.kern j with | some y => y.age ≤ x.age | none => true
    let s := { s with
      kernels := Tab.put s.kernels k saved
      queues := Tab.put s.queues x.queue { l with resume := l.resume.takeWhile later ++ [k] ++ l.resume.dropWhile later } }
    let s := s.stampHead x.queue
    let s := nks.foldl (fun s nk => (s.setNd nk (s.nd nk).freed).clearNodeRegs nk) s
    x.clusters.foldl (fun s c => s.modCl c fun y => y.freed x.part) s

/-- R403: the image of kernel `n`, pre-empted and at rest, is written. -/
def execContextImageWrite (n : Nat) (s : State) : Out :=
  match s.kern n with
  | none => .next s
  | some x => if x.st = .preempting && s.atRest n x then .next (s.saveKernel n x) else .next s

/-- R400: the management core pre-empts kernel `n`. -/
def execManagementCorePreemption (n : Nat) (s : State) : Out :=
  if bootStageOf s < 2 || bootErr s != 0 || (s.kern n).any (fun x => s.kernelDone n x) then .next s
  else .next (s.preempt n)

/-! ### Status words (R294, R418) -/

/-- R294, R306, R418: the clusters of the queue's completed kernels are freed, and the status of the oldest answered or ended
record of queue `k` is written. -/
def execStatusWordWrite (k : Nat) (s : State) : Out :=
  .next ((s.completeKernels fun x => x.queue = k).statusWrite k false)

/-- R294: a status whose write failed is tried again. -/
def execStatusWriteRetry (k : Nat) (s : State) : Out := .next (s.statusWrite k true)

end Sys2Proof.Machine
end

