-- ==== Sys2Proof/Machine/Arrive.lean ====
section
/-!
DEFINITION. Messages that take effect where they arrive: memory requests (R79 to R86, R97), done tokens (R94), semaphores
and sync objects (R129, R131), barrier arrivals (R137, R138), flumes (R152 to R156), windows and three-party reads (R168 to
R178), key-match commands (R267), triggers, messages and fault records (R314 to R318, R395); and streaming read-ahead (R91).
-/

namespace Sys2Proof.Machine

/-! ### What a message does -/

/-- The kernel is pre-empted and saved (R405). -/
def State.savedKern (s : State) (k : Nat) : Bool := match s.kern k with | some x => x.st = .saved | none => false

/-- A write that a REL covers is not performed. -/
def State.covering (s : State) (nk : Nat) (a : Acc) : Bool := (s.nd nk).mif.any fun b => a.cov.contains b.id && !b.done

/-- The increment of a REL at its object's bank (R129): none while a covered write is not visible, or the object's granule
is reserved. -/
def State.relArrive (s : State) (nk id : Nat) : Option State :=
  match s.accOf nk id with
  | none => some s
  | some a =>
    if s.covering nk a || reservedBy s (csmKey a.va) nk id then none
    else if badAt s (csmKey a.va) then
      some (((s.accEngFault nk a .uncorrectableError 2 a.va).accDone nk a).pruneAccs nk)
    else
      let s := writeUnder s (csmKey a.va) 8 ((objWord s a.va 0 + 1) % 2 ^ 64) none
      some ((s.accDone nk a).pruneAccs nk)

/-- A semaphore is updated (R131, R146); one whose cluster the binder's partition has left is not (R367). -/
def State.semArrive (s : State) (m : Parcel) (c sem amt : Nat) (set : Bool) (acc : Option (Nat × Nat)) (flag : Bool) : State :=
  if 192 ≤ m.src && !s.holds c m.part then s
  else
    let s := s.semApply c sem amt set flag
    match acc with
    | none => s
    | some (nk, id) =>
      match s.accOf nk id with
      | none => s
      | some a => (s.accDone nk a).pruneAccs nk

/-- An episode of a group completes: its waiters get its number (R137). -/
def State.epEnd (s : State) (k grp num : Nat) : State :=
  s.nodes.foldl (fun s (e : Nat × Node) =>
    if e.2.kernel != some k then s
    else
      let hit (b : BarWait) : Bool := b.grp = grp && b.ep = some num
      let s := (e.2.barWait.filter hit).foldl (fun s b => s.barSend e.1 b num) s
      s.modNd e.1 fun n => { n with barWait := n.barWait.filter fun b => !hit b }) s

/-- An arrival reaches the sync unit (R137): it joins the open episode, once for each node and iteration, and completes it
as the last of `c × |G|`; one whose count differs from the first arrival's faults (R138). DESIGN CHOICE: where the arriving
invocation has committed meanwhile, the node takes an engine fault (assumption 91). -/
def State.barArrive (s : State) (c grp cnt nk n ix age : Nat) : State :=
  let e := Tab.get ({} : Episode) (s.cl c).episodes grp
  if !e.arrived.isEmpty && e.cnt != cnt then
    let ws := match (s.nd nk).invs.find? fun v => v.age = age with | some v => v.ws | none => 0
    let op : Op := match ctxInstr (s.cl (nk / 8)) (nk % 8) ix with
      | some (.bara _) => .bara
      | _ => .bar
    let f : Pending := { cause := .barrierMismatch, n := n, ws := ws, age := age, ix := some ix, opc := op.code, sub := (op.sel).getD 0 }
    if (s.nd nk).invs.any fun v => v.age = age then s.raise nk f else s.engFault nk f
  else
    let arrived := if e.arrived.contains (nk, n) then e.arrived else e.arrived ++ [(nk, n)]
    let s := s.modNd nk fun d => { d with
      barLast := match Tab.find d.barLast grp with
        | some (a, none) => if a = (age, ix) then Tab.put d.barLast grp (a, some e.num) else d.barLast
        | _ => d.barLast
      barWait := d.barWait.map fun b => if b.grp = grp && b.ep.isNone && b.arr = (age, ix) then { b with ep := some e.num } else b }
    if arrived.length = cnt * (s.group nk grp).length then
      let s := s.modCl c fun x => { x with episodes := Tab.put x.episodes grp { num := e.num + 1 } }
      match (s.nd nk).kernel with
      | none => s
      | some k => s.epEnd k grp e.num
    else s.modCl c fun x => { x with episodes := Tab.put x.episodes grp { num := e.num, cnt := cnt, arrived := arrived } }

/-- The name that a message is for is bound to a handler of a pre-empted kernel: it waits (R405). -/
def State.handlerSaved (s : State) (key : Nat) : Bool :=
  match s.nameOf key with
  | some (.handler k _ _) => s.savedKern k
  | _ => false

/-- A fault record goes along its edge (R395); none while its own kernel or the handler's is saved (R402, R405). -/
def State.recArrive (s : State) (id : Nat) : Option State :=
  match Tab.find s.recs id with
  | none => some s
  | some r =>
    if s.savedKern r.kernel then none
    else if !r.feV then some (s.toMonitor id)
    else
      let key := nameKey r.part r.feName.toNat
      if s.handlerSaved key then none
      else
        match s.nameOf key with
        | some b => some (s.recMeets id b)
        | none => if s.waiters key ≥ 64 then some (s.toMonitor id) else some (s.addWait key (.record id))

/-- A saved kernel has the flume open (R401): a slot for it waits until the resume. -/
def State.flumeSaved (s : State) (c fl : Nat) : Bool :=
  s.kernels.any fun (k : Nat × Kernel) =>
    k.2.st = .saved && k.2.savedCl.any fun (e : Nat × Cluster) => e.1 = c && (Tab.find e.2.flumes (fl % 16)).isSome

/-- The next granule of an RREAD lies under a key slot that is being replaced (R360). -/
def State.rreadHeld (s : State) (r : Rread) : Bool :=
  !r.bad && match rreadLoc s r with | .here _ slot => keyHeld s (some slot) | _ => false

/-- The parcel leaves the inbox. -/
def State.unbox (s : State) (m : Parcel) : State := { s with inbox := s.inbox.erase m }

/-- A parcel's place in the inbox takes another body. -/
def State.rebox (s : State) (m : Parcel) (b : Msg) : State :=
  { s with inbox := modFirst (· = m) (fun q => { q with body := b }) s.inbox }

/-- What a message does at its destination; none while it must wait there. -/
def State.msgDo (s : State) (m : Parcel) : Option State :=
  let u := s.unbox m
  let c := m.dst
  match m.body with
  | .acc nk id gn j => u.accArrive nk id gn j
  | .rreq r => u.rreqArrive m.dst r
  | .rrep nk id j gn v bad chip =>
    if dlvParty ≤ nk && nk < kvParty then some (u.dlvAnswer (nk - dlvParty) id bad.isSome)
    else some (u.repArrive nk id j gn v bad chip)
  | .done nk ws it gn ix => some (u.doneArrive nk ws it gn ix)
  | .rel nk id => u.relArrive nk id
  | .sem d k amt set acc flag => some (u.semArrive m d k amt set acc flag)
  | .arrive d grp cnt nk n ix age => some (u.barArrive d grp cnt nk n ix age)
  | .notice _ _ _ _ _ | .flCancel _ _ _ => some (u.noticeArrive c m.body)
  | .refused nk f => some (u.engFault nk f)
  | .qtok t => some (u.pushTok c t)
  | .slot fl _ _ _ _ _ _ =>
    if s.flumeSaved c fl then none
    else
      (s.slotArrive c m.part m.body).map fun x => match x.2 with
        | none => x.1.unbox m
        | some b => x.1.rebox m b
  | .tok _ _ _ _ _ _ _ _ _ _ => if s.savedAt c m.part then none else some (u.tokArrive c m.part m.body)
  | .win _ _ _ _ _ _ _ _ _ => u.winArrive c m.part m.src m.body
  | .rread r =>
    if s.rreadHeld r then none
    else
      let x := s.rreadStep r
      match x.2 with
      | none => some (x.1.unbox m)
      | some r => some (x.1.rebox m (.rread r))
  | .rstop chip d id j => some (u.rreadStop chip d id j)
  | .rack d id j bad chip => some (u.rackArrive d id j bad chip)
  | .kvinv _ _ _ _ _ us =>
    let x := s.kvinvStep c m.part m.body
    match x.2 with
    | none => some (x.1.unbox m)
    | some b => if us.isSome then none else some (x.1.rebox m b)
  | .kms st j c0 a row cfg t =>
    (s.kmsArrive c st j c0 a row cfg t).map fun x => match x.2 with
      | none => x.1.unbox m
      | some t => x.1.rebox m (.kms st j c0 a row cfg (some t))
  | .trig key t => if s.handlerSaved key then none else some (u.trigAt key t)
  | .mesg _ _ _ _ _ _ _ => some (u.mesgArrive c m.part m.body)
  | .record id => u.recArrive id
  | .coll _ _ _ _ _ _ _ _ _ _ => none

/-! ### Which message may take effect (R323, R97) -/

/-- The granule for which a write or read-modify-write waits in order of arrival (R97). -/
def State.waitsFor (s : State) (m : Parcel) : Option Nat :=
  match m.body with
  | .acc nk id _ j =>
    (s.accOf nk id).bind fun a => if opLoad a.op then none else (a.loc[j]?).map fun p => granule p.key
  | .rreq r =>
    if r.ask = .store || r.ask = .rmw || r.ask = .reserve then
      match r.key with
      | some k => some (granule k)
      | none =>
      match s.rreqLoc r (permR ||| permW) with
      | .here pa _ => some (granule pa)
      | _ => none
    else none
  | .rel nk id =>
    (s.accOf nk id).bind fun a => if s.covering nk a then none else some (granule (csmKey a.va))
  | _ => none

/-- The message is one that has taken effect in part. -/
def Msg.begun : Msg → Bool
  | .rread r => r.g != 0
  | .kvinv _ _ _ _ _ us => us.isSome
  | .slot _ _ _ _ _ at_ _ => at_ != 0
  | .kms _ _ _ _ _ _ rd => rd.isSome
  | _ => false

/-- The messages of a kind that may take effect now: an earlier one with the same source, destination and class goes first
(R323), unless it waits where it has arrived; of those that wait for a granule, the earlier goes first. -/
def State.mayArriveFrom (s : State) (kind : Msg → Bool) : List (Nat × Nat × Nat) → List Nat → List Parcel → List Parcel
  | _, _, [] => []
  | seen, held, m :: ms =>
    let path := (m.src, m.dst, m.cls)
    let g := s.waitsFor m
    let held' := g.toList ++ held
    if seen.contains path then s.mayArriveFrom kind seen held' ms
    else if g.any held.contains || (s.msgDo m).isNone then s.mayArriveFrom kind seen held' ms
    else
      let seen := if m.body.begun then seen else path :: seen
      if kind m.body then m :: s.mayArriveFrom kind seen held' ms else s.mayArriveFrom kind seen held' ms

/-- The choice of order `k` that a message's effect is made under. -/
def State.picking (s : State) (k : Nat) : State :=
  { s with sched := { s.sched with cur := some { c := 0, p := 0, ix := 0, ws := 0, it := 0, piece := k } } }

/-- The `k`-th message of a kind that may take effect does; `k` divided by 2^16 is a free choice of order within it. -/
def State.arriveAt (s : State) (k : Nat) (kind : Msg → Bool) : State :=
  let s := s.picking k
  match (s.mayArriveFrom kind [] [] s.inbox)[k % 2 ^ 16]? with
  | none => s
  | some m => ((s.msgDo m).getD s).kernelsCheck

/-! ### The events -/

/-- R79: a memory request, or the answer to one, arrives. -/
def execMemoryRequestArrival (k : Nat) (s : State) : Out :=
  .next (s.arriveAt k fun b => match b with
    | .acc _ _ _ _ | .rreq _ | .rrep _ _ _ _ _ _ _ => true
    | _ => false)
/-- R94. -/
def execDoneTokenArrival (k : Nat) (s : State) : Out :=
  .next (s.arriveAt k fun b => match b with | .done _ _ _ _ _ => true | _ => false)
/-- R153, R156. -/
def execFreedSlotNotice (k : Nat) (s : State) : Out :=
  .next (s.arriveAt k fun b => match b with | .notice _ _ _ _ _ | .flCancel _ _ _ => true | _ => false)
/-- R154. -/
def execFlumeSlotLanding (k : Nat) (s : State) : Out :=
  .next (s.arriveAt k fun b => match b with | .slot _ _ _ _ _ _ _ => true | _ => false)
/-- R163: a KBTB drops the entries of a KVINV, and acknowledges once nothing uses them. -/
def execKbtbInvalidateAck (k : Nat) (s : State) : Out :=
  .next (s.arriveAt k fun b => match b with | .kvinv _ _ _ _ _ _ => true | _ => false)
/-- R168. -/
def execRouteTagDelivery (k : Nat) (s : State) : Out :=
  .next (s.arriveAt k fun b => match b with | .tok _ _ _ _ _ _ _ _ _ _ => true | _ => false)
/-- R169. -/
def execWindowDelivery (k : Nat) (s : State) : Out :=
  .next (s.arriveAt k fun b => match b with | .win _ _ _ _ _ _ _ _ _ => true | _ => false)
/-- R174, R177: the owner reads and sends one granule, or learns that a recipient refused. -/
def execRreadOwnerRead (k : Nat) (s : State) : Out :=
  .next (s.arriveAt k fun b => match b with | .rread _ | .rstop _ _ _ _ => true | _ => false)
/-- R168, R172, R176, R177: the answer to a command of the fabric or the task unit. -/
def execRreadAck (k : Nat) (s : State) : Out :=
  .next (s.arriveAt k fun b => match b with | .rack _ _ _ _ _ | .refused _ _ => true | _ => false)
/-- R267. -/
def execKmsCommandArrival (k : Nat) (s : State) : Out :=
  .next (s.arriveAt k fun b => match b with | .kms _ _ _ _ _ _ _ => true | _ => false)
/-- R131, R132. -/
def execSemaphoreUpdate (k : Nat) (s : State) : Out :=
  .next (s.arriveAt k fun b => match b with | .sem _ _ _ _ _ _ => true | _ => false)
/-- R129. -/
def execSyncObjectIncrement (k : Nat) (s : State) : Out :=
  .next (s.arriveAt k fun b => match b with | .rel _ _ => true | _ => false)
/-- R137. -/
def execBarrierArrival (k : Nat) (s : State) : Out :=
  .next (s.arriveAt k fun b => match b with | .arrive _ _ _ _ _ _ _ => true | _ => false)
/-- R314. -/
def execTriggerDispatch (k : Nat) (s : State) : Out :=
  .next (s.arriveAt k fun b => match b with | .trig _ _ => true | _ => false)
/-- R316, R318. -/
def execMessageArrival (k : Nat) (s : State) : Out :=
  .next (s.arriveAt k fun b => match b with | .mesg _ _ _ _ _ _ _ => true | _ => false)
/-- R395. -/
def execFaultRecordDelivery (k : Nat) (s : State) : Out :=
  .next (s.arriveAt k fun b => match b with | .record _ => true | _ => false)

/-- R318: the task unit of cluster `k` sends a refused message again, 1024 cycles after its refusal. -/
def execMessageRetry (k : Nat) (s : State) : Out := .next ((s.mesgRetry k).getD s)

/-- R179: the episode that cluster `k` waits for has every member. -/
def execCollectiveEpisode (k : Nat) (s : State) : Out := .next (s.collRun k)

/-! ### Streaming read-ahead (R91) -/

/-- The start token of a streaming element has arrived, and its access has not been made. -/
def State.streamStarted (s : State) (nk ix n : Nat) : Bool :=
  let d := s.nd nk
  match d.invs.find? fun v => v.n = n with
  | none => false
  | some v =>
    ((s.cl (nk / 8)).store ++ d.spill).any (fun t => t.pl = nk % 8 && t.ix = ix && t.ws = v.ws && t.it = v.it && t.pt = .q)
      || (s.cl (nk / 8)).ready.any (fun r => r.pl = nk % 8 && r.ix = ix && r.ws = v.ws && r.it = v.it)
      || d.mif.any fun a => a.ix = ix && a.n = n && a.st = .waiting && !a.off

/-- Reads ahead the granule of address `a` for a streaming load of an iteration. -/
def State.readAhead (s : State) (nk ix n a : Nat) : State :=
  let loads := match ctxInstr (s.cl (nk / 8)) (nk % 8) ix with
    | some i => match i.view with | some (op, .m w) => opLoad op && w.mode = .stm | _ => false
    | none => false
  match (s.nd nk).regs.find? fun r => r.1 = ix && r.2.1 = n with
  | none => s
  | some (_, _, asp, base, len) =>
    let sz := if asp = .sp || asp = .xp then 32 else 64
    let g := a / sz * sz
    if !loads || !s.streamStarted nk ix n then s
    else
      match locate s (s.party nk) asp g sz 0 permR with
      | .piece [p] =>
        if isRemote p.key || badAt s p.key || keyHeld s p.slot then s
        else
          let r := readUnder s p.key sz p.slot
          let bs := natLE r.2 sz
          let mine (i : Nat) : Bool := base ≤ g + i && g + i < base + len
          (r.1.touch (s.party nk) asp g).modNd nk fun d => { d with
            stmBuf := d.stmBuf.filter (fun e => !(e.1 = ix && e.2.1 = n && p.key ≤ e.2.2.1 && e.2.2.1 < p.key + sz))
              ++ ((List.range sz).filter mine).map fun i => (ix, n, p.key + i, bs.getD i 0) }
      | _ => s

/-- R91. -/
def execStreamReadAhead (c p ix it a : Nat) (s : State) : Out :=
  if s.live (nkOf c p) then .next (s.readAhead (nkOf c p) ix it a) else .next s

end Sys2Proof.Machine
end

