-- ==== Sys2Proof/Machine/Units.lean ====
section
/-!
DEFINITION. Steps that units and holders take by themselves: completions of engine commands (R142, R146), KV block loads
(R160), NVMe completions and timeouts (R167), tile commits (R239), reclamation (R367, R370), TINV acknowledgments (R348),
key replacement (R360) and the monitor's decisions (R421).
-/

namespace Sys2Proof.Machine

/-! ### Room for what an element sends (R46, R50, R333) -/

/-- The packets of a partition that wait at a cluster's port (R353). -/
def State.portWaits (s : State) (c part : Nat) : Nat :=
  (((Tab.get [] s.ports c).filter fun m => m.part = part).map fun m => max 1 ((m.n - m.paid + 1023) / 1024)).foldl (· + ·) 0

/-- A queue of a node leads to another cluster, and what the own cluster sends is held by the Sluice (R333), or by a port whose
queue for the partition holds 16 packets (R353). -/
def State.dammed (s : State) (nk q : Nat) : Bool :=
  ((s.nd nk).wires.any fun w => w.q = q && w.nk / 8 != nk / 8)
    && ((s.sluiceHolds (nk / 8)).isSome || 16 ≤ s.portWaits (nk / 8) (s.nd nk).part)

/-- Every output queue among the targets has room and can send (R46, R50, R333, R353). -/
def State.roomFor (s : State) (nk : Nat) (i : Instr) : Bool :=
  match i.view with
  | none => true
  | some (_, f) =>
    (targetsOf f).all fun t =>
      match t with
      | .queue q => (s.nd nk).queueRoom q.toNat && !s.dammed nk q.toNat
      | _ => true

/-! ### Completion of commands (R142, R146) -/

/-- A FLPUSH that waits for a notice does not hold up the commands behind it (R142). -/
def Cmd.aside (m : Cmd) : Bool := m.op = .flpush && m.setAside && !m.finished && decide (m.aux.getD 0 0 < m.qv)

/-- R142, R146: unit `u` of cluster `c` gives the signals of its next command in issue order, once that has done its work.
The task and system unit gives those of its first command that has: a command that waits there holds up no other (R383;
assumption 16). -/
def execEngineCompletion (c u : Nat) (s : State) : Out :=
  match (if u = 4 then s.storCmds else s.unit c u).find? fun m => if u = 9 then m.finished else !m.aside with
  | none => .next s
  | some m => if m.finished then .next (s.signalCmd (m.nk / 8) u m).kernelsCheck else .next s

/-- R239: a tile or step of the array of cluster `c` commits. -/
def execMatrixTileCommit (c : Nat) (s : State) : Out := .next (s.tileCommit c)

/-! ### KV block loads (R160) -/

/-- R160: the `k`-th load that waits for a frame reads TAIL again, 1024 cycles after it last did. -/
def execLandingRingRecheck (k : Nat) (s : State) : Out :=
  match (s.kvl.filter fun (e : Nat × KvLoad) => e.2.st = .ring && e.2.since + 1024 ≤ s.now)[k]? with
  | none => .next s
  | some e => .next (s.kvRing e.1)

/-- R160: the `k`-th load whose commands have all ended, or that failed, changes its entry. -/
def execKvBlockLoadCompletion (k : Nat) (s : State) : Out :=
  match (s.kvl.filter fun (e : Nat × KvLoad) => e.2.st = .reading && e.2.todo.isEmpty && e.2.out = 0)[k]? with
  | none => .next s
  | some e => .next (s.kvEnd e.1)

/-! ### NVMe (R165, R167) -/

/-- Writes bytes under a key slot, granule by granule (R124). -/
def State.writeRunUnder (s : State) (k slot : Nat) : Nat → List Byte → State
  | 0, _ => s
  | fuel + 1, bs =>
    match bs with
    | [] => s
    | _ =>
      let n := min bs.length (64 - k % 64)
      (writeUnder s k n (leNat (bs.take n)) (some slot)).writeRunUnder (k + n) slot fuel (bs.drop n)

/-- A controller writes the data of a read into its pages of this package. -/
def State.nvData (s : State) : List (Nat × Nat × Nat) → List Byte → State
  | [], _ => s
  | (pa, slot, len) :: ps, bs =>
    let now := bs.take len
    (if isRemote pa then s else s.writeRunUnder pa slot (now.length + 1) now).nvData ps (bs.drop len)

/-- The controller puts a completion entry at the head of a completion queue, and the storage unit steps past it (R164,
R165; what the controller writes there is free, assumption 12). -/
def State.cqStep (s : State) (qp : Nat) : State :=
  let stat := pkg s (0x103 + 4 * qp)
  let h := rbits stat 16 16
  let at_ := rbits (pkg s (0x101 + 4 * qp)) 0 52 + 16 * h
  let s := (List.range 16).foldl (fun s i => memPut s.takeFresh (at_ + i) (Config.freeByte s.sched.fresh)) s
  srSet s 0 (0x103 + 4 * qp)
    (BitVec.ofNat 64 ((h + 1) % (rbits (pkg s (0x102 + 4 * qp)) 16 16 + 1) * 2 ^ 16 + rbits stat 0 16))

/-- R167: a completion entry comes from a controller; that of a command which has timed out is dropped and counted. The command
ends once its bytes at other chips are read or written (R166, R178). -/
def State.nvComplete (s : State) (qp cid status : Nat) (data : List Byte) : State :=
  match s.nv.find? fun v => v.qp = qp && v.cid = cid && v.ended.isNone with
  | none => s
  | some v =>
    let s := s.cqStep qp
    let s := if v.job.read then s.nvData v.job.pages data else s
    let s := if v.late then countAt s (rbits (pkg s (0x102 + 4 * qp)) 42 6) [0] 7 1 else s
    let far := if v.job.read then farPieces 0 v.job.pages else []
    let bad : Option NvBad := if status = 0 then none else some { cause := .nvmeError, aux := v.aux status }
    let v' : NvCmd := { v with ended := some bad, far := v.far + far.length }
    (({ s with nv := s.nv.map fun x => if x = v then v' else x }).nvAsk qp cid (rbits (pkg s (0x102 + 4 * qp)) 42 6) far
      (some data)).nvEnd v'

/-- An atomic holds a granule that a controller's data would be written to (R97). -/
def State.nvHeld (s : State) (qp cid : Nat) : Bool :=
  match s.nv.find? fun v => v.qp = qp && v.cid = cid && v.ended.isNone with
  | none => false
  | some v => v.job.read && v.job.pages.any fun p => s.memx.resv.any fun r => p.1 < r.1 + 64 && r.1 < p.1 + p.2.2

/-- R167: the `k`-th completion entry that has come from a controller; data for a granule that an atomic holds is waited for (R97). -/
def execNvmeCompletion (k : Nat) (s : State) : Out :=
  match (s.inputs.filter fun x => match x with | .nvme _ _ _ _ => true | _ => false)[k]? with
  | none => .next s
  | some x =>
    match x with
    | .nvme qp cid status data =>
      if s.nvHeld qp cid then .next s else .next (({ s with inputs := s.inputs.erase x }).nvComplete qp cid status data)
    | _ => .next s

/-- The cycles after which a command times out; none when it never does. A block load always does (R160). -/
def State.nvLimit (s : State) (v : NvCmd) : Option Nat :=
  let t := rbits (pkg s 0x0fc) 0 32
  match v.owner with
  | .load _ => some (1024 * if t = 0 then 0x17d784 else t)
  | .cmd _ _ => if t = 0 then none else some (1024 * t)

/-- R167: the `k`-th command that has had no completion in time. -/
def execNvmeTimeout (k : Nat) (s : State) : Out :=
  let late (v : NvCmd) : Bool := !v.late && v.ended.isNone && match s.nvLimit v with | none => false | some t => v.start + t ≤ s.now
  match (s.nv.filter late)[k]? with
  | none => .next s
  | some v =>
    let s := { s with nv := s.nv.map fun x => if x = v then { x with late := true } else x }
    .next (s.nvTell v (some { cause := .nvmeTimeout, aux := v.aux 0 })).pumpLoads

/-! ### Objects, translations, keys -/

/-- R367: the `k`-th object without binding and handle is reclaimed. -/
def execObjectReclamation (k : Nat) (s : State) : Out :=
  match (s.dead.filter fun e => e.2.ring.isNone)[k]? with
  | none => .next s
  | some e => .next (s.reclaim e.1 e.2)

/-- R370: the `k`-th object that waits for room in its free list has HEAD read again. -/
def execFreeListHeadRecheck (k : Nat) (s : State) : Out :=
  match (s.dead.filter fun e => match e.2.ring with | some t => decide (t ≤ s.now) | none => false)[k]? with
  | none => .next s
  | some e => .next (s.reclaim e.1 e.2)

/-- R348. -/
def execTinvHolderAck (k : Nat) (s : State) : Out := .next (s.tinvAck k).kernelsCheck
/-- R360. -/
def execKeySlotReplace (k : Nat) (s : State) : Out := .next (s.keyReplace k).kernelsCheck

/-! ### The monitor (R421) -/

/-- The management core runs (R422). -/
def mgmtRuns (s : State) : Bool := 2 ≤ bootStageOf s && bootErr s = 0

/-- R421: the monitor resolves the `i`-th record of its queue: mode 0 RES, 1 ABN, 2 KRN, 3 a reset of the record's
partition; 4 is RES with SKIP. -/
def execMonitorResolve (i mode : Nat) (s : State) : Out :=
  match (s.monQ.take 256)[i]? with
  | none => .next s
  | some id =>
    if !mgmtRuns s then .next s
    else if mode = 3 then
      match Tab.find s.recs id with
      | none => .next s
      | some r =>
        let s := s.partReset r.part 2
        .next { s with recs := Tab.del s.recs id, monQ := s.monQ.filter (· != id) }
    else .next (s.resolveRec id (mode % 4) (mode = 4))

end Sys2Proof.Machine
end

