-- ==== Sys2Proof/Machine/Outside.lean ====
section
/-!
DEFINITION. Steps of the network (R326 to R333, R351 to R353), of the power controller (R19, R425), the resets and the boot
(R419 to R424), and accesses by the host and the cores (R291, R329, R339, R354, R416, R430, R431).
-/

namespace Sys2Proof.Machine

/-! ### The network -/

/-- R327: an egress port sends a flit. -/
def execEgressArbitration (r port : Nat) (s : State) : Out := .next (s.arbitrate r port)
/-- R326. -/
def execAgeingStep (r k : Nat) (s : State) : Out := .next (s.ageStep r k)
/-- R351, R353: a partition's oldest packet at a port passes its headgate, if it may. -/
def execHeadgateCharge (c part : Nat) (s : State) : Out := .next ((s.passPort c part).getD s)
/-- R352: once in each window of 1024 cycles. -/
def execHeadgateRefill (d : Nat) (s : State) : Out :=
  if d < 2 && Tab.get 0 s.gateWin d ≤ s.now / 1024 then .next (s.refill d) else .next s
/-- R333: once in each window of 256 cycles. -/
def execSluiceLeak (c : Nat) (s : State) : Out :=
  if c < 192 && Tab.get 0 s.sluiceWin c ≤ s.now / 256 then .next (s.leak c) else .next s

/-- The word of a flit at a port, and whether it is an acknowledgment that has come through. -/
def flitAck (w : BitVec 256) : Bool := flitGood w && (flitTyp w = 1 || flitTyp w = 2)
def Input.isAck (port : Nat) : Input → Bool
  | .flit p w _ => p = port && flitAck w
  | _ => false
def Input.isFlit (port : Nat) : Input → Bool
  | .flit p w _ => p = port && !flitAck w
  | _ => false

/-- R330: the next flit at a link port that is no acknowledgment. A port that is not up takes none. -/
def execLinkFlitReceive (port : Nat) (s : State) : Out :=
  match s.inputs.find? (Input.isFlit port) with
  | none => .next s
  | some x =>
    let s := { s with inputs := s.inputs.erase x }
    match x with
    | .flit _ w pkt => if port < 24 && rbits (slPort s port) 14 2 = 2 then .next (s.flitIn port w pkt) else .next s
    | _ => .next s

/-- R330: the next acknowledgment at a link port. -/
def execLinkAckReceive (port : Nat) (s : State) : Out :=
  match s.inputs.find? (Input.isAck port) with
  | none => .next s
  | some x =>
    let s := { s with inputs := s.inputs.erase x }
    match x with
    | .flit _ w _ =>
      if port < 24 && rbits (slPort s port) 14 2 = 2 then .next (s.ackIn port (flitSeq w) (flitTyp w = 2)) else .next s
    | _ => .next s

/-- R332. -/
def execLaneFailure (port lane : Nat) (s : State) : Out :=
  if port < 24 && lane < 8 && (slPort s port).getLsbD lane then .next (s.laneFail port lane) else .next s

/-- R332: a width the working lanes allow, once no packet is open on the link. -/
def execPlannedWidthChange (port width : Nat) (s : State) : Out :=
  let v := slPort s port
  let allowed := match laneWidth (rbits v 0 8) with | some w => decide (width ≤ w) | none => false
  if port < 24 && rbits v 14 2 = 2 && allowed && s.linkIdle port then
    .next (setSlPort s port 2 width (rbits v 8 1) (rbits v 0 8))
  else .next s

/-- R332: a port that trains comes up and replays what is not acknowledged. -/
def execLinkRetrainComplete (port : Nat) (s : State) : Out :=
  let v := slPort s port
  if port < 24 && rbits v 14 2 = 1 then
    .next ((setSlPort s port 2 (rbits v 12 2) (rbits v 8 1) (rbits v 0 8)).modLink port fun l => { l with replay := l.retry.length })
  else .next s

/-! ### Power and heat -/

/-- R19: an island changes its setting; nothing else changes. Islands 24 and 25 never run below nominal (R320), and after a thermal
trip all stay at minimum power (R425). -/
def execIslandDvfsChange (i setting : Nat) (s : State) : Out :=
  if 32 ≤ i || i = routerIsland 0 || i = routerIsland 32 || s.tripped then .next s else .next { s with islands := Tab.putD 0 s.islands i setting }
/-- R425. -/
def execThermalThrottle (tj : Nat) (s : State) : Out := .next (s.throttle tj)
/-- R425. -/
def execThermalTrip (tj : Nat) (s : State) : Out := .next (s.trip tj)
/-- R424: the volatile state is lost, and the part starts anew when power returns. -/
def execPowerFailure (s : State) : Out := .next ({ s with tripped := false }).coldReset

/-! ### Resets and boot -/

/-- An agent outside the nodes can act: the host unless a warm reset runs (R419); a core once it runs (R422). -/
def agentRuns (s : State) (a : Nat) : Bool :=
  (a = 0 && !s.warm) || (bootErr s = 0 && ((a = 1 && 2 ≤ bootStageOf s) || (a = 2 && 3 ≤ bootStageOf s)))

/-- The host or a core writes a register. -/
def State.agentDoes (s : State) (a n v : Nat) : State := if agentRuns s a then s.agentWrite a n v else s

/-- R420: power-on or the reset pin. -/
def execColdReset (s : State) : Out := .next s.coldReset
/-- R419, R420: source 2 is the management core; source 1 the host, through RESET_CTL. -/
def execWarmReset (src : Nat) (s : State) : Out :=
  if src = 2 && mgmtRuns s then .next (s.warmReset 2)
  else if src = 1 then .next (s.agentDoes 0 0x0a7 (2 ^ 62))
  else .next s
/-- R419, R420. -/
def execPartitionReset (p src : Nat) (s : State) : Out :=
  if src = 2 && p < 64 && mgmtRuns s then .next (s.partReset p 2)
  else if src = 1 then .next (s.agentDoes 0 0x0a7 (2 ^ 63 + p % 64 * 2 ^ 56))
  else .next s
/-- R419, R420: the management core ends the kernel admitted from a record. -/
def execSectionAbort (q rec : Nat) (s : State) : Out := if mgmtRuns s then .next (s.abort q rec 2) else .next s
/-- R422. -/
def execBootStage (fail : Nat) (s : State) : Out := .next (s.boot fail)
/-- R423, R424. -/
def execAttestationSign (nonce : Nat) (s : State) : Out := .next (s.sign nonce)

/-! ### Registers from outside the nodes -/

/-- R431. -/
def execRegisterWrite (agent n v : Nat) (s : State) : Out := .next (s.agentDoes agent n v)
/-- R291. -/
def execLqCfgWrite (agent q v : Nat) (s : State) : Out :=
  if q < 64 then .next (s.agentDoes agent (lqReg q 1) v) else .next s
/-- R291. -/
def execLqTailWrite (agent q v : Nat) (s : State) : Out :=
  if q < 64 then .next (s.agentDoes agent (lqReg q 2) v) else .next s
/-- R48: the table of the partition that PART_SEL names. -/
def execCgrpTableWrite (agent p v : Nat) (s : State) : Out :=
  if rbits (pkg s 0x0ca) 0 6 = p then .next (s.agentDoes agent 0x052 v) else .next s
/-- R329. -/
def execSlSlotBaseWrite (agent v : Nat) (s : State) : Out := .next (s.agentDoes agent 0x071 v)
/-- R339. -/
def execPtCfgWrite (agent p v : Nat) (s : State) : Out :=
  if p < 64 then .next (s.agentDoes agent (0x300 + 8 * p) v) else .next s
/-- R354. -/
def execSafeSelWrite (agent n v : Nat) (s : State) : Out :=
  if isSel n then .next (s.agentDoes agent n v) else .next s

/-! ### BAR2 (R416) -/

/-- A BAR2 offset that holds memory: HBM or CXL. -/
def bar2Holds (s : State) (o : Nat) : Bool :=
  o < 2 ^ 46 && match memKind s o with | some .hbm | some .cxl => true | _ => false

/-- The bytes of a range under key slot 0, granule by granule. -/
def readRun0 (s : State) : Nat → Nat → Nat → State × List Byte
  | 0, _, _ => (s, [])
  | fuel + 1, k, n =>
    if n = 0 then (s, [])
    else
      let c := min n (64 - k % 64)
      let r := readUnder s k c (some 0)
      let t := readRun0 r.1 fuel (k + c) (n - c)
      (t.1, natLE r.2 c ++ t.2)

/-- R416: the host reads `n` bytes, at most 4096, at an offset of BAR2. -/
def execHostBar2Read (off n : Nat) (s : State) : Out :=
  if keyHeld s (some 0) || n = 0 || 4096 < n then .next s
  else if (List.range n).any fun i => !bar2Holds s (off + i) || badAt s (off + i) then .next { s with bar2 := none }
  else
    let r := readRun0 s (n + 1) off n
    .next { r.1 with bar2 := some r.2 }

/-- R416, R419: the host writes `n` bytes, at most 4096, at an offset of BAR2; a granule that is reserved is waited for (R97). -/
def execHostBar2Write (off n v : Nat) (s : State) : Out :=
  if s.warm || keyHeld s (some 0) || n = 0 || 4096 < n then .next s
  else if (List.range n).any fun i => reservedBy s (off + i) (2 ^ 30) 0 then .next s
  else if (List.range n).any fun i => !bar2Holds s (off + i) then .next s
  else .next (s.writeRunUnder off 0 (n + 1) (natLE v n))

end Sys2Proof.Machine
end

