-- ==== Sys2Proof/Machine/Dispatch.lean ====
section
/-!
DEFINITION. One arm per step of the opcode table: a direct call of its meaning, or a rejection by name.
-/

namespace Sys2Proof.Machine

/-- What a step of the opcode table does to the state. -/
def exec (i : Instr) (s : State) : Host.Outcome State Fault Refusal :=
  match i with
  | .nop w => Sys2Proof.Machine.execNop w s
  | .const w => Sys2Proof.Machine.execConst w s
  | .mov w => Sys2Proof.Machine.execMov w s
  | .read w => Sys2Proof.Machine.execRead w s
  | .write w => Sys2Proof.Machine.execWrite w s
  | .steer w => Sys2Proof.Machine.execSteer w s
  | .merge w => Sys2Proof.Machine.execMerge w s
  | .pand w => Sys2Proof.Machine.execPand w s
  | .por w => Sys2Proof.Machine.execPor w s
  | .pxor w => Sys2Proof.Machine.execPxor w s
  | .pnot w => Sys2Proof.Machine.execPnot w s
  | .iterid w => Sys2Proof.Machine.execIterid w s
  | .nullq w => Sys2Proof.Machine.execNullq w s
  | .nfill w => Sys2Proof.Machine.execNfill w s
  | .niter w => Sys2Proof.Machine.execNiter w s
  | .bro w => Sys2Proof.Machine.execBro w s
  | .br w => Sys2Proof.Machine.execBr w s
  | .callo w => Sys2Proof.Machine.execCallo w s
  | .call w => Sys2Proof.Machine.execCall w s
  | .ret w => Sys2Proof.Machine.execRet w s
  | .quit w => Sys2Proof.Machine.execQuit w s
  | .binv w => Sys2Proof.Machine.execBinv w s
  | .add w => Sys2Proof.Machine.execAdd w s
  | .sub w => Sys2Proof.Machine.execSub w s
  | .mul w => Sys2Proof.Machine.execMul w s
  | .mulh w => Sys2Proof.Machine.execMulh w s
  | .mulhn w => Sys2Proof.Machine.execMulhn w s
  | .div w => Sys2Proof.Machine.execDiv w s
  | .divn w => Sys2Proof.Machine.execDivn w s
  | .rem w => Sys2Proof.Machine.execRem w s
  | .remn w => Sys2Proof.Machine.execRemn w s
  | .adds w => Sys2Proof.Machine.execAdds w s
  | .subs w => Sys2Proof.Machine.execSubs w s
  | .madd w => Sys2Proof.Machine.execMadd w s
  | .and w => Sys2Proof.Machine.execAnd w s
  | .or w => Sys2Proof.Machine.execOr w s
  | .xor w => Sys2Proof.Machine.execXor w s
  | .andn w => Sys2Proof.Machine.execAndn w s
  | .shl w => Sys2Proof.Machine.execShl w s
  | .shr w => Sys2Proof.Machine.execShr w s
  | .sar w => Sys2Proof.Machine.execSar w s
  | .rot w => Sys2Proof.Machine.execRot w s
  | .min w => Sys2Proof.Machine.execMin w s
  | .max w => Sys2Proof.Machine.execMax w s
  | .abs w => Sys2Proof.Machine.execAbs w s
  | .neg w => Sys2Proof.Machine.execNeg w s
  | .clz w => Sys2Proof.Machine.execClz w s
  | .ctz w => Sys2Proof.Machine.execCtz w s
  | .popc w => Sys2Proof.Machine.execPopc w s
  | .sext w => Sys2Proof.Machine.execSext w s
  | .zext w => Sys2Proof.Machine.execZext w s
  | .lea w => Sys2Proof.Machine.execLea w s
  | .ceq w => Sys2Proof.Machine.execCeq w s
  | .cne w => Sys2Proof.Machine.execCne w s
  | .clt w => Sys2Proof.Machine.execClt w s
  | .cle w => Sys2Proof.Machine.execCle w s
  | .cltn w => Sys2Proof.Machine.execCltn w s
  | .clen w => Sys2Proof.Machine.execClen w s
  | .fadd w => Sys2Proof.Machine.execFadd w s
  | .fsub w => Sys2Proof.Machine.execFsub w s
  | .fmul w => Sys2Proof.Machine.execFmul w s
  | .fma w => Sys2Proof.Machine.execFma w s
  | .fnma w => Sys2Proof.Machine.execFnma w s
  | .fdiv w => Sys2Proof.Machine.execFdiv w s
  | .fsqrt w => Sys2Proof.Machine.execFsqrt w s
  | .frsq w => Sys2Proof.Machine.execFrsq w s
  | .frcp w => Sys2Proof.Machine.execFrcp w s
  | .fexp2 w => Sys2Proof.Machine.execFexp2 w s
  | .flog2 w => Sys2Proof.Machine.execFlog2 w s
  | .fmin w => Sys2Proof.Machine.execFmin w s
  | .fmax w => Sys2Proof.Machine.execFmax w s
  | .fabs w => Sys2Proof.Machine.execFabs w s
  | .fneg w => Sys2Proof.Machine.execFneg w s
  | .fsgn w => Sys2Proof.Machine.execFsgn w s
  | .fclass w => Sys2Proof.Machine.execFclass w s
  | .fscale w => Sys2Proof.Machine.execFscale w s
  | .fceq w => Sys2Proof.Machine.execFceq w s
  | .fclt w => Sys2Proof.Machine.execFclt w s
  | .fcle w => Sys2Proof.Machine.execFcle w s
  | .fcun w => Sys2Proof.Machine.execFcun w s
  | .fcvt w => Sys2Proof.Machine.execFcvt w s
  | .icvtf w => Sys2Proof.Machine.execIcvtf w s
  | .fcvti w => Sys2Proof.Machine.execFcvti w s
  | .qnt w => Sys2Proof.Machine.execQnt w s
  | .dqnt w => Sys2Proof.Machine.execDqnt w s
  | .gscale w => Sys2Proof.Machine.execGscale w s
  | .mxpack w => Sys2Proof.Machine.execMxpack w s
  | .mxunpk w => Sys2Proof.Machine.execMxunpk w s
  | .pack w => Sys2Proof.Machine.execPack w s
  | .unpack w => Sys2Proof.Machine.execUnpack w s
  | .vbcast w => Sys2Proof.Machine.execVbcast w s
  | .vbcastLane w => Sys2Proof.Machine.execVbcastLane w s
  | .vext w => Sys2Proof.Machine.execVext w s
  | .vins w => Sys2Proof.Machine.execVins w s
  | .vperm w => Sys2Proof.Machine.execVperm w s
  | .vshuf w => Sys2Proof.Machine.execVshuf w s
  | .vradd w => Sys2Proof.Machine.execVradd w s
  | .vrmax w => Sys2Proof.Machine.execVrmax w s
  | .vrmin w => Sys2Proof.Machine.execVrmin w s
  | .vscan w => Sys2Proof.Machine.execVscan w s
  | .vdot w => Sys2Proof.Machine.execVdot w s
  | .vsel w => Sys2Proof.Machine.execVsel w s
  | .vcmp w => Sys2Proof.Machine.execVcmp w s
  | .mand w => Sys2Proof.Machine.execMand w s
  | .mor w => Sys2Proof.Machine.execMor w s
  | .mxor w => Sys2Proof.Machine.execMxor w s
  | .mnot w => Sys2Proof.Machine.execMnot w s
  | .mpopc w => Sys2Proof.Machine.execMpopc w s
  | .mffs w => Sys2Proof.Machine.execMffs w s
  | .mbit w => Sys2Proof.Machine.execMbit w s
  | .mtst w => Sys2Proof.Machine.execMtst w s
  | .radd w => Sys2Proof.Machine.execRadd w s
  | .rmax w => Sys2Proof.Machine.execRmax w s
  | .rmin w => Sys2Proof.Machine.execRmin w s
  | .rjoin w => Sys2Proof.Machine.execRjoin w s
  | .kmerge w => Sys2Proof.Machine.execKmerge w s
  | .ld w => Sys2Proof.Machine.execLd w s
  | .st w => Sys2Proof.Machine.execSt w s
  | .ldv w => Sys2Proof.Machine.execLdv w s
  | .stv w => Sys2Proof.Machine.execStv w s
  | .gath w => Sys2Proof.Machine.execGath w s
  | .scat w => Sys2Proof.Machine.execScat w s
  | .aadd w => Sys2Proof.Machine.execAadd w s
  | .amin w => Sys2Proof.Machine.execAmin w s
  | .amax w => Sys2Proof.Machine.execAmax w s
  | .aand w => Sys2Proof.Machine.execAand w s
  | .aor w => Sys2Proof.Machine.execAor w s
  | .axor w => Sys2Proof.Machine.execAxor w s
  | .axchg w => Sys2Proof.Machine.execAxchg w s
  | .acas w => Sys2Proof.Machine.execAcas w s
  | .afadd w => Sys2Proof.Machine.execAfadd w s
  | .bred w => Sys2Proof.Machine.execBred w s
  | .bupd w => Sys2Proof.Machine.execBupd w s
  | .mnop w => Sys2Proof.Machine.execMnop w s
  | .ldrgn w => Sys2Proof.Machine.execLdrgn w s
  | .acq w => Sys2Proof.Machine.execAcq w s
  | .rel w => Sys2Proof.Machine.execRel w s
  | .fence w => Sys2Proof.Machine.execFence w s
  | .seminc w => Sys2Proof.Machine.execSeminc w s
  | .semwait w => Sys2Proof.Machine.execSemwait w s
  | .semrd w => Sys2Proof.Machine.execSemrd w s
  | .sbwait w => Sys2Proof.Machine.execSbwait w s
  | .tgive w => Sys2Proof.Machine.execTgive w s
  | .ttake w => Sys2Proof.Machine.execTtake w s
  | .bar w => Sys2Proof.Machine.execBar w s
  | .bara w => Sys2Proof.Machine.execBara w s
  | .barw w => Sys2Proof.Machine.execBarw w s
  | .pset w => Sys2Proof.Machine.execPset w s
  | .copy w => Sys2Proof.Machine.execCopy w s
  | .copyr w => Sys2Proof.Machine.execCopyr w s
  | .tsend w => Sys2Proof.Machine.execTsend w s
  | .rread w => Sys2Proof.Machine.execRread w s
  | .wopen w => Sys2Proof.Machine.execWopen w s
  | .wclose w => Sys2Proof.Machine.execWclose w s
  | .flopen w => Sys2Proof.Machine.execFlopen w s
  | .flpush w => Sys2Proof.Machine.execFlpush w s
  | .flfree w => Sys2Proof.Machine.execFlfree w s
  | .flclose w => Sys2Proof.Machine.execFlclose w s
  | .kvtab w => Sys2Proof.Machine.execKvtab w s
  | .kvgath w => Sys2Proof.Machine.execKvgath w s
  | .kvapp w => Sys2Proof.Machine.execKvapp w s
  | .kvinv w => Sys2Proof.Machine.execKvinv w s
  | .nvrd w => Sys2Proof.Machine.execNvrd w s
  | .nvwr w => Sys2Proof.Machine.execNvwr w s
  | .cred w => Sys2Proof.Machine.execCred w s
  | .cbcast w => Sys2Proof.Machine.execCbcast w s
  | .cgath w => Sys2Proof.Machine.execCgath w s
  | .wload w => Sys2Proof.Machine.execWload w s
  | .wswap w => Sys2Proof.Machine.execWswap w s
  | .mma w => Sys2Proof.Machine.execMma w s
  | .mrecur w => Sys2Proof.Machine.execMrecur w s
  | .macc w => Sys2Proof.Machine.execMacc w s
  | .mzero w => Sys2Proof.Machine.execMzero w s
  | .mstat w => Sys2Proof.Machine.execMstat w s
  | .kcfg w => Sys2Proof.Machine.execKcfg w s
  | .kbias w => Sys2Proof.Machine.execKbias w s
  | .kmask w => Sys2Proof.Machine.execKmask w s
  | .kbind w => Sys2Proof.Machine.execKbind w s
  | .kunbind w => Sys2Proof.Machine.execKunbind w s
  | .klife w => Sys2Proof.Machine.execKlife w s
  | .kqry w => Sys2Proof.Machine.execKqry w s
  | .kstat w => Sys2Proof.Machine.execKstat w s
  | .launch w => Sys2Proof.Machine.execLaunch w s
  | .garm w => Sys2Proof.Machine.execGarm w s
  | .spawn w => Sys2Proof.Machine.execSpawn w s
  | .tret w => Sys2Proof.Machine.execTret w s
  | .hreg w => Sys2Proof.Machine.execHreg w s
  | .hregUnreg w => Sys2Proof.Machine.execHregUnreg w s
  | .msend w => Sys2Proof.Machine.execMsend w s
  | .msendTrig w => Sys2Proof.Machine.execMsendTrig w s
  | .mrecv w => Sys2Proof.Machine.execMrecv w s
  | .mprobe w => Sys2Proof.Machine.execMprobe w s
  | .nopen w => Sys2Proof.Machine.execNopen w s
  | .nclose w => Sys2Proof.Machine.execNclose w s
  | .nbind w => Sys2Proof.Machine.execNbind w s
  | .nrebind w => Sys2Proof.Machine.execNrebind w s
  | .nunbind w => Sys2Proof.Machine.execNunbind w s
  | .nlook w => Sys2Proof.Machine.execNlook w s
  | .rdsr w => Sys2Proof.Machine.execRdsr w s
  | .wrsr w => Sys2Proof.Machine.execWrsr w s
  | .tinv w => Sys2Proof.Machine.execTinv w s
  | .tsync w => Sys2Proof.Machine.execTsync w s
  | .tprobe w => Sys2Proof.Machine.execTprobe w s
  | .keyset w => Sys2Proof.Machine.execKeyset w s
  | .trap w => Sys2Proof.Machine.execTrap w s
  | .brk w => Sys2Proof.Machine.execBrk w s
  | .fret w => Sys2Proof.Machine.execFret w s
  | .frec w => Sys2Proof.Machine.execFrec w s
  | .operandTokenArrival c k => Sys2Proof.Machine.execOperandTokenArrival c k s
  | .doneTokenArrival k => Sys2Proof.Machine.execDoneTokenArrival k s
  | .invocationStart c p => Sys2Proof.Machine.execInvocationStart c p s
  | .invocationCommit c p k => Sys2Proof.Machine.execInvocationCommit c p k s
  | .engineQueueRoom c p => Sys2Proof.Machine.execEngineQueueRoom c p s
  | .wmTokensSet c p => Sys2Proof.Machine.execWmTokensSet c p s
  | .invocationDiscard c p => Sys2Proof.Machine.execInvocationDiscard c p s
  | .drainLimitExpiry c p => Sys2Proof.Machine.execDrainLimitExpiry c p s
  | .watchdogExpiry c p k => Sys2Proof.Machine.execWatchdogExpiry c p k s
  | .tagPoolDeadlock c p => Sys2Proof.Machine.execTagPoolDeadlock c p s
  | .blockMap c p => Sys2Proof.Machine.execBlockMap c p s
  | .blockCacheFill c p => Sys2Proof.Machine.execBlockCacheFill c p s
  | .memoryRequestArrival k => Sys2Proof.Machine.execMemoryRequestArrival k s
  | .streamReadAhead c p ix it a => Sys2Proof.Machine.execStreamReadAhead c p ix it a s
  | .engineCompletion c u => Sys2Proof.Machine.execEngineCompletion c u s
  | .engineFault c p => Sys2Proof.Machine.execEngineFault c p s
  | .freedSlotNotice k => Sys2Proof.Machine.execFreedSlotNotice k s
  | .flumeSlotLanding k => Sys2Proof.Machine.execFlumeSlotLanding k s
  | .landingRingRecheck k => Sys2Proof.Machine.execLandingRingRecheck k s
  | .kvBlockLoadCompletion k => Sys2Proof.Machine.execKvBlockLoadCompletion k s
  | .kbtbInvalidateAck k => Sys2Proof.Machine.execKbtbInvalidateAck k s
  | .nvmeCompletion k => Sys2Proof.Machine.execNvmeCompletion k s
  | .nvmeTimeout k => Sys2Proof.Machine.execNvmeTimeout k s
  | .routeTagDelivery k => Sys2Proof.Machine.execRouteTagDelivery k s
  | .windowDelivery k => Sys2Proof.Machine.execWindowDelivery k s
  | .rreadOwnerRead k => Sys2Proof.Machine.execRreadOwnerRead k s
  | .rreadAck k => Sys2Proof.Machine.execRreadAck k s
  | .collectiveEpisode k => Sys2Proof.Machine.execCollectiveEpisode k s
  | .matrixTileCommit c => Sys2Proof.Machine.execMatrixTileCommit c s
  | .kmsCommandArrival k => Sys2Proof.Machine.execKmsCommandArrival k s
  | .semaphoreUpdate k => Sys2Proof.Machine.execSemaphoreUpdate k s
  | .syncObjectIncrement k => Sys2Proof.Machine.execSyncObjectIncrement k s
  | .barrierArrival k => Sys2Proof.Machine.execBarrierArrival k s
  | .admissionInterval d => Sys2Proof.Machine.execAdmissionInterval d s
  | .contextImageWrite n => Sys2Proof.Machine.execContextImageWrite n s
  | .statusWordWrite k => Sys2Proof.Machine.execStatusWordWrite k s
  | .statusWriteRetry k => Sys2Proof.Machine.execStatusWriteRetry k s
  | .triggerDispatch k => Sys2Proof.Machine.execTriggerDispatch k s
  | .messageArrival k => Sys2Proof.Machine.execMessageArrival k s
  | .messageRetry k => Sys2Proof.Machine.execMessageRetry k s
  | .objectReclamation k => Sys2Proof.Machine.execObjectReclamation k s
  | .freeListHeadRecheck k => Sys2Proof.Machine.execFreeListHeadRecheck k s
  | .tinvHolderAck k => Sys2Proof.Machine.execTinvHolderAck k s
  | .keySlotReplace k => Sys2Proof.Machine.execKeySlotReplace k s
  | .faultRecordDelivery k => Sys2Proof.Machine.execFaultRecordDelivery k s
  | .monitorResolve ik mode => Sys2Proof.Machine.execMonitorResolve ik mode s
  | .egressArbitration r port => Sys2Proof.Machine.execEgressArbitration r port s
  | .ageingStep r k => Sys2Proof.Machine.execAgeingStep r k s
  | .headgateCharge c part => Sys2Proof.Machine.execHeadgateCharge c part s
  | .headgateRefill d => Sys2Proof.Machine.execHeadgateRefill d s
  | .sluiceLeak c => Sys2Proof.Machine.execSluiceLeak c s
  | .linkFlitReceive port => Sys2Proof.Machine.execLinkFlitReceive port s
  | .linkAckReceive port => Sys2Proof.Machine.execLinkAckReceive port s
  | .laneFailure port lane => Sys2Proof.Machine.execLaneFailure port lane s
  | .plannedWidthChange port width => Sys2Proof.Machine.execPlannedWidthChange port width s
  | .islandDvfsChange ik setting => Sys2Proof.Machine.execIslandDvfsChange ik setting s
  | .thermalThrottle tj => Sys2Proof.Machine.execThermalThrottle tj s
  | .thermalTrip tj => Sys2Proof.Machine.execThermalTrip tj s
  | .coldReset => Sys2Proof.Machine.execColdReset s
  | .warmReset src => Sys2Proof.Machine.execWarmReset src s
  | .partitionReset p src => Sys2Proof.Machine.execPartitionReset p src s
  | .sectionAbort q rec => Sys2Proof.Machine.execSectionAbort q rec s
  | .bootStage fail => Sys2Proof.Machine.execBootStage fail s
  | .attestationSign nonce => Sys2Proof.Machine.execAttestationSign nonce s
  | .lqCfgWrite agent q v => Sys2Proof.Machine.execLqCfgWrite agent q v s
  | .lqTailWrite agent q v => Sys2Proof.Machine.execLqTailWrite agent q v s
  | .cgrpTableWrite agent p v => Sys2Proof.Machine.execCgrpTableWrite agent p v s
  | .slSlotBaseWrite agent v => Sys2Proof.Machine.execSlSlotBaseWrite agent v s
  | .ptCfgWrite agent p v => Sys2Proof.Machine.execPtCfgWrite agent p v s
  | .safeSelWrite agent n v => Sys2Proof.Machine.execSafeSelWrite agent n v s
  | .hostBar2Read off n => Sys2Proof.Machine.execHostBar2Read off n s
  | .hostBar2Write off n v => Sys2Proof.Machine.execHostBar2Write off n v s
  | .registerWrite agent n v => Sys2Proof.Machine.execRegisterWrite agent n v s
  | .linkRetrainComplete port => Sys2Proof.Machine.execLinkRetrainComplete port s
  | .powerFailure => Sys2Proof.Machine.execPowerFailure s
  | .managementCorePreemption n => Sys2Proof.Machine.execManagementCorePreemption n s

end Sys2Proof.Machine
end

