-- ==== Sys2Proof/Machine/Step.lean ====
section
/-!
DEFINITION. One step of the machine: what the agenda names next is done, or, where it names nothing, what this part happens
to do next (assumption 1). A step fetches an instruction from a context word of an element (R23, R50), lets a unit, a memory
interface or a step of the machine itself go on, lets time pass, or takes what comes from outside.
-/

namespace Sys2Proof.Config

/-- What happens next where the agenda names nothing: the spec fixes no order among what may happen (assumption 1). -/
opaque next : Nat → Sys2Proof.Machine.Sched

end Sys2Proof.Config

namespace Sys2Proof.Machine

/-- Nothing is being run. -/
def State.idle (s : State) : State := { s with sched := { s.sched with cur := none } }

/-- Clears what was being run. -/
def settle : Out → Out
  | .next s => .next s.idle
  | o => o

/-- Runs an instruction for an issue. -/
def runAs (i : Instr) (x : Issue) (s : State) : Out := exec i { s with sched := { s.sched with cur := some x } }

/-! ### Issue (R50) -/

/-- The operand set as it issues. -/
def Ready.issue (r : Ready) (c : Nat) : Issue :=
  { c := c, p := r.pl, ix := r.ix, ws := r.ws, it := r.it, l := r.l, r := r.r, q := r.q, pr := r.p }

/-- The set leaves its ready queue. -/
def State.dropReady (s : State) (c : Nat) (r : Ready) : State := s.modCl c fun x => { x with ready := x.ready.erase r }

/-- Issues one operand set: its instruction is fetched from the context word and run; none when the set cannot issue yet. A
context word with an uncorrectable error faults its invocation (R397). -/
def issueSet (s : State) (c : Nat) (r : Ready) : Option Out :=
  let x := s.cl c
  let t := s.dropReady c r
  if x.ctxErr.contains (r.pl * 128 + r.ix) then some (.next (t.faultOp (r.issue c) none .fetchUncorrectable))
  else
    match ctxInstr x r.pl r.ix with
    | none => some (.fault .badContextWord)
    | some i =>
      if !s.roomFor (nkOf c r.pl) i then none
      else
        match runAs i (r.issue c) t with
        | .next u =>
          if u.sched.cur.any (·.wait) then none
          else
            match s.invOf (r.issue c) with
            | none => some (.next u)
            | some v => some (.next (u.foldWake c r.pl r.ix v.n i))
        | o => some o

/-- The oldest of the sets that can issue does. -/
def issueFirst (s : State) (c : Nat) : List Ready → Out
  | [] => .next s
  | r :: rs =>
    if !s.live (nkOf c r.pl) then issueFirst s c rs
    else
      match issueSet s c r with
      | some o => o
      | none => issueFirst s c rs

/-- Element `ix` of cluster `c` issues. -/
def stepIssue (c ix : Nat) (s : State) : Out := issueFirst s c ((s.cl c).ready.filter fun r => r.ix = ix)

/-! ### Units (R142) -/

/-- Units that work on several commands at once: those whose commands wait for answers. -/
def unitOverlaps (u : Nat) : Bool := u = 4 || u = 5 || u = 9 || 10 ≤ u

/-- The commands of a unit that it may work on: those it has taken, and the next in issue order (R142). -/
def workable (u : Nat) (l : List Cmd) : List Cmd :=
  let left := l.filter fun m => !m.finished
  let begun (m : Cmd) : Bool := if unitOverlaps u then m.started else m.aside
  left.filter begun ++ (left.filter fun m => !begun m).take 1

/-- The kernel is held stopped by a machine fault (R399). -/
def State.heldKern (s : State) (k : Nat) : Bool := match s.kern k with | some x => x.halted | none => false

/-- Unit `u` of cluster `c` works on the `k`-th of its commands; the storage unit on those of every cluster (R140). -/
def stepUnit (c u k piece : Nat) (s : State) : Out :=
  match (workable u (if u = 4 then s.storCmds else s.unit c u))[k]? with
  | none => .next s
  | some m =>
    if s.heldKern m.kernel then .next s
    else
      runAs m.instr
        { c := m.nk / 8, p := m.nk % 8, ix := m.ix, ws := m.ws, it := m.n % 65536, perform := true, u := u, k := m.id, piece := piece } s

/-! ### Memory interfaces (R88 to R97) -/

/-- The memory interface of a node goes on with its `k`-th access. -/
def stepRelease (c p k : Nat) (s : State) : Out :=
  let n := s.nd (nkOf c p)
  match n.mif[k]? with
  | none => .next s
  | some a =>
    if (n.kernel.map s.heldKern).getD false then .next s
    else runAs a.instr { c := c, p := p, ix := a.ix, ws := a.ws, it := a.n % 65536, perform := true, k := a.id } s

/-! ### Time -/

/-- The counters of event 1 count reference cycles (R354). -/
def State.countCycles (s : State) (n : Nat) : State :=
  s.sr.foldl (fun s e =>
    let copy := e.1 / 2048
    let r := e.1 % 2048
    if copy < 256 && isSel r && rbits e.2 63 1 = 1 && rbits e.2 0 8 = 1 then
      srSet s copy (r + 1) (srGet s copy (r + 1) + BitVec.ofNat 64 n)
    else s) s

/-- The packets that a headgate holds back at the ports, by cluster and partition (R353). -/
def State.heldPorts (s : State) : List (Nat × Nat) :=
  (s.ports.filter fun (e : Nat × List Parcel) => decide (e.1 < 192)).flatMap fun (e : Nat × List Parcel) =>
    (List.range 64).filterMap fun p =>
      match e.2.find? fun m => m.part = p with
      | none => none
      | some m =>
        if m.cls < 2 && Tab.get 0 s.gateB (e.1 / 96) != 0 && (s.gate (gateKey e.1 p)).level < 1 then some (e.1, p) else none

/-- The clusters whose Sluice holds a flit, with the packet's partition (R333). -/
def State.heldFlits (s : State) : List (Nat × Nat) :=
  (List.range 192).filterMap fun c => (s.sluiceHolds c).map fun h => (c, h.m.part)

/-- The watchdogs of a node count (R42). -/
def State.watch (s : State) (nk n : Nat) : State :=
  if (s.nd nk).st != .running && (s.nd nk).st != .draining then s
  else
    ((s.watched nk).filter fun v => !s.invWaits nk v).foldl (fun s v =>
      s.modInv nk v.ws v.it fun v => { v with wd := v.wd + n }) s

/-- `n` reference cycles pass. -/
def stepAdvance (n : Nat) (s : State) : Out :=
  let held := s.heldFlits
  let s := s.heldPorts.foldl (fun s e => countEvent s e.2 e.1 13 n) (s.countCycles n)
  let s := held.foldl (fun s e => countEvent s e.2 e.1 11 n) s
  let s := (s.nodes.map (·.1)).foldl (fun s nk => s.watch nk n) s
  .next { s with now := s.now + n }

/-! ### Caches and the outside -/

/-- A cache drops its `k`-th entry: 0 a translation cache (R347), 1 a KBTB (R159), 2 a block cache (R54). -/
def stepEvict (what c k : Nat) (s : State) : Out :=
  match what with
  | 0 => .next { s with tlb := Tab.mod [] s.tlb c fun l => dropAt k l }
  | 1 => .next (s.modCl c fun x => { x with kbtb := dropAt k x.kbtb })
  | _ => .next (s.modCl c fun x => { x with bcache := dropAt k x.bcache })

/-- What comes from outside: completions and flits wait to be acted on; an uncorrectable error strikes (R397, R399). -/
def stepInput (x : Input) (s : State) : Out :=
  match x with
  | .nvme _ _ _ _ | .flit _ _ _ => .next { s with inputs := s.inputs ++ [x] }
  | .softError key =>
    if (memKind s key).isNone then .next s
    else .next { s with memx := { s.memx with bad := setIns (granule key) s.memx.bad } }
  | .globalError nk r => .next (s.modNd nk fun n => { n with gErr := setIns r n.gErr })
  | .storeError c k => .next (s.modCl c fun y => { y with store := modAt (fun t => { t with bad := true }) k y.store })
  | .spillError nk k => .next (s.modNd nk fun n => { n with spill := modAt (fun t => { t with bad := true }) k n.spill })
  | .ctxError c k =>
    .next (s.modCl c fun y => if (Tab.find y.ctx k).isSome then { y with ctxErr := setIns k y.ctxErr } else y)
  | .lineError c k => .next (s.modCl c fun y => { y with bcache := dropAt k y.bcache })
  | .latchError c => .next (s.modCl c fun y => { y with array := { y.array with act := { y.array.act with err := true } } })
  | .metaError k =>
    match s.kern k with
    | none => .next s
    | some y => .next ((s.modKern k fun y => { y with halted := true }).machineFault .metadataUncorrectable y.part k)

/-! ### The step -/

/-- What an item of the agenda does. -/
def doItem (a : Sched) (s : State) : Out :=
  match a with
  | .event i => exec i s.idle
  | .issue c ix => stepIssue c ix s
  | .unit c u k piece => stepUnit c u k piece s
  | .release c p k => stepRelease c p k s
  | .advance n => stepAdvance n s
  | .evict what c k => stepEvict what c k s
  | .input x => stepInput x s

/-- One step. -/
def step (s : State) : Host.Outcome State Fault Refusal :=
  match s.sched.agenda with
  | [] => settle (doItem (Config.next s.sched.fresh) s.takeFresh)
  | a :: rest => settle (doItem a { s with sched := { s.sched with agenda := rest } })

/-! ### The host's placing of an instruction -/

/-- The lowest element on which the instruction of a word may stand (R66). -/
def elementFor (w : Nat) : Nat :=
  let ks := match lookupWord w with
    | .unassigned => []
    | .one op => op.kinds
    | .sub _ ops => (ops.head?.map Op.kinds).getD []
  ((List.range 128).find? fun ix => ks.contains (kindOf ix)).getD 0

/-- The operand set of an instruction with a scalar 0 on each data port that it uses and a predicate that lets it fire. -/
def readySet (ix : Nat) (i : Instr) : Ready :=
  let ps := usedPorts i
  let on (pt : Port) : Option Opnd := if ps.contains pt then some {} else none
  let fires : Bool := match i.view with | some (_, f) => fieldsPrd f != .onFalse | none => true
  { pl := 0, ix := ix, ws := 0, it := 0, l := on .l, r := on .r, q := on .q
    p := if ps.contains .p then some (Opnd.ofNat fires.toNat) else none }

/-- The host's placing of one instruction where the next step fetches it (assumption 1): its word and literal are the
context word of an element of plane 0 of cluster 0, whose node runs an invocation with a complete operand set. -/
def State.withFetchWord (s : State) (nbits w : Nat) : State :=
  let v := w % 2 ^ nbits
  let word := v % 2 ^ 64
  let lit := v / 2 ^ 64 % 2 ^ (32 * litWords word)
  let ix := elementFor word
  let set : Ready := match decodeTableWord nbits w with
    | some i => readySet ix i
    | none => { pl := 0, ix := ix, ws := 0, it := 0 }
  let asg : Assign := { kernel := 0, sec := 0, num := 0, part := 0, asid := 0, entry := 0 }
  let kern : Kernel := { queue := 0, recno := 0, rank := 0, age := 0, part := 0, asid := 0, die := 0, x := 0, y := 0, w := 1, h := 1 }
  let s := { s with kernels := Tab.put s.kernels 0 kern }
  let s := s.modCl 0 fun x => { x with
    ctx := Tab.put x.ctx ix { word := BitVec.ofNat 64 word, lit := BitVec.ofNat 64 lit }
    ready := set :: x.ready }
  let s := s.modNd 0 fun n => { n with
    asg := some asg, st := .running, hdr := some {}, invs := [{ n := 0, ws := 0 }], ageNext := 1 }
  { s with sched := { s.sched with agenda := .issue 0 ix :: s.sched.agenda } }

end Sys2Proof.Machine
end

