-- ==== Sys2Proof/Safety.lean ====
section
/-!
DEFINITION. What a safe run is, and the terms in which the statements about the machine are written: an operand set that
issues, a G instruction that fires on operands that are present, the elements of a result, and the frame of an instruction.
-/

namespace Sys2Proof.Machine

/-- What every step keeps: memory is in its canonical form (keys rise strictly, and no listed byte is what an unlisted one
reads as). -/
def Canonical (s : State) : Prop := Memory.wf s.mem = true

/-! ### Instructions that fire -/

/-- An element issues the operand set `i` of the in-flight invocation `v` (R50). -/
def Issues (s : State) (i : Issue) (v : Inv) : Prop := s.sched.cur = some i ∧ i.perform = false ∧ s.invOf i = some v

/-- A G instruction fires: its predicate matches (R43), and no error operand stops an effect (R29). -/
def FiresG (s : State) (i : Issue) (v : Inv) (w : GWord) : Prop :=
  Issues s i v ∧ predHolds w.prd i = true ∧ (gEffect w = true → i.status.er = false)

/-- Both targets take the result `x` under the status bits of the operands (R29, R59), and nothing else happens. -/
def Sends (ins : Instr) (w : GWord) (s : State) (i : Issue) (x : Val) : Prop :=
  exec ins s = .next (s.sendBoth i w (gEffect w) i.status { val := x } { val := x })

/-- A unit works on the command `m` (R142). -/
def Works (s : State) (i : Issue) (m : Cmd) : Prop :=
  s.sched.cur = some i ∧ i.perform = true ∧ ((s.unit i.c i.u).find? fun x => x.id = i.k) = some m ∧ m.fail = none

/-! ### Operands -/

/-- One data operand, on L, not null. -/
def TakesL (i : Issue) (w : GWord) (l : Opnd) : Prop :=
  i.l = some l ∧ i.r = none ∧ w.ir = false ∧ i.q = none ∧ l.null = false

/-- Two data operands, a token on L and a token or the immediate on R (R60, R201), neither null. -/
def TakesLR (op : Op) (i : Issue) (w : GWord) (l r : Opnd) : Prop :=
  i.l = some l ∧ rOperand w (Ty.ofCode (op.immTy w.ty.code)) i = some r ∧ i.q = none ∧ l.null = false ∧ r.null = false

/-- Three data operands, none null. -/
def TakesLRQ (op : Op) (i : Issue) (w : GWord) (l r q : Opnd) : Prop :=
  i.l = some l ∧ rOperand w (Ty.ofCode (op.immTy w.ty.code)) i = some r ∧ i.q = some q
    ∧ l.null = false ∧ r.null = false ∧ q.null = false

/-! ### Elements -/

/-- Element `k`, of `w` bits, of a payload (R182): a scalar gives its low bits to every lane (R200). -/
def elem (w k : Nat) : Val → BitVec w
  | .sc x => x.setWidth w
  | .vec x => (x >>> (w * k)).setWidth w

/-- The elements of a result "as operands" (R200): one in each lane of a vector, or the one of a scalar, whose bits above
copy the sign of an I type and are zero of any other (R182). -/
def ElementsAre (t : Ty) (vec : Bool) (x : Val) (P : Nat → BitVec t.width → Prop) : Prop :=
  if vec then x.isVec = true ∧ ∀ k, k < 512 / t.width → P k (elem t.width k x)
  else ∃ y : BitVec t.width, P 0 y ∧ x = .sc (if Ty.signed t then y.signExtend 64 else y.setWidth 64)

/-- The type is one of I8 to N64. -/
def isInteger (t : Ty) : Bool :=
  match t with
  | .i8 | .i16 | .i32 | .i64 | .n8 | .n16 | .n32 | .n64 => true
  | _ => false

/-- The type is one of F16, B16, F32 and F64. -/
def isFloat (t : Ty) : Bool :=
  match t with
  | .f16 | .b16 | .f32 | .f64 => true
  | _ => false

/-! ### Frames -/

/-- Nothing outside the clusters, the nodes and what the step was running differs: memory, system registers, keys, caches,
queues, kernels, records, the directory, links and resets stand as they were. -/
structure SameOutside (s t : State) : Prop where
  mem : t.mem = s.mem
  memx : t.memx = s.memx
  sr : t.sr = s.sr
  keys : t.keys = s.keys
  tlb : t.tlb = s.tlb
  kernels : t.kernels = s.kernels
  queues : t.queues = s.queues
  recs : t.recs = s.recs
  dir : t.dir = s.dir
  faultSeq : t.faultSeq = s.faultSeq
  tinvs : t.tinvs = s.tinvs
  tsyncs : t.tsyncs = s.tsyncs
  ksets : t.ksets = s.ksets
  links : t.links = s.links
  routers : t.routers = s.routers
  nv : t.nv = s.nv
  kvl : t.kvl = s.kvl
  now : t.now = s.now
  agenda : t.sched.agenda = s.sched.agenda
  monQ : t.monQ = s.monQ
  cgrp : t.cgrp = s.cgrp

/-- What an instruction that fires on element `i` leaves of the nodes: every other node as it was, and of its own node the
committed globals, the PC, the generation, the mapping, the output queues, the tags and the scoreboard counts of other
commands (R23, R35). -/
structure SameNodes (s t : State) (nk : Nat) : Prop where
  other : ∀ nj, nj ≠ nk → t.nd nj = s.nd nj
  g : (t.nd nk).g = (s.nd nk).g
  v : (t.nd nk).v = (s.nd nk).v
  m : (t.nd nk).m = (s.nd nk).m
  pc : (t.nd nk).pc = (s.nd nk).pc
  gn : (t.nd nk).gn = (s.nd nk).gn
  asg : (t.nd nk).asg = (s.nd nk).asg
  hdr : (t.nd nk).hdr = (s.nd nk).hdr
  outq : (t.nd nk).outq = (s.nd nk).outq
  tags : (t.nd nk).tags = (s.nd nk).tags
  acts : (t.nd nk).acts = (s.nd nk).acts

/-- What an instruction that fires leaves of the clusters: every other cluster as it was, and of its own all but its input
stage: the context words, the units, the engine patterns, the semaphores, the stores, the array and the tiles. -/
structure SameClusters (s t : State) (c : Nat) : Prop where
  other : ∀ d, d ≠ c → t.cl d = s.cl d
  own : ∃ l, t.cl c = { s.cl c with input := (s.cl c).input ++ l }

end Sys2Proof.Machine
end

