-- ==== Sys2Proof/Certificates/Slice0/Obligations.lean ====
section
/-!
DEFINITION. The statements for the provers: what the instructions and the steps of the machine do, as the numbered rules of the
spec say it. Each says for which rules it stands in OBLIGATIONS.json.
-/

namespace Sys2Proof.Machine

/-! ### Shapes of statements -/

/-- A two-operand instruction computes `f` of each pair of elements (R200). -/
def Binary (op : Op) (ins : GWord → Instr) (ok : Ty → Bool)
    (f : (t : Ty) → BitVec t.width → BitVec t.width → BitVec t.width) : Prop :=
  ∀ (s : State) (i : Issue) (v : Inv) (w : GWord) (l r : Opnd), FiresG s i v w → TakesLR op i w l r → ok w.ty = true →
    ∃ x, Sends (ins w) w s i x ∧ ElementsAre w.ty (l.val.isVec || r.val.isVec) x
      fun k y => y = f w.ty (elem w.ty.width k l.val) (elem w.ty.width k r.val)

/-- A one-operand instruction whose result's elements are related to the operand's by `P` (R200). -/
def Unary (ins : GWord → Instr) (ok : GWord → Bool) (P : (w : GWord) → BitVec w.ty.width → BitVec w.ty.width → Prop) : Prop :=
  ∀ (s : State) (i : Issue) (v : Inv) (w : GWord) (l : Opnd), FiresG s i v w → TakesL i w l → ok w = true →
    ∃ x, Sends (ins w) w s i x ∧ ElementsAre w.ty l.val.isVec x fun k y => P w (elem w.ty.width k l.val) y

/-- An element read under a type's signedness (R204). -/
def readAs (t : Ty) (x : BitVec t.width) : Int := if Ty.signed t then x.toInt else x.toNat

/-- T and B of R204. -/
def largest (t : Ty) : Int := if Ty.signed t then 2 ^ (t.width - 1) - 1 else 2 ^ t.width - 1
def smallest (t : Ty) : Int := if Ty.signed t then -2 ^ (t.width - 1) else 0

/-- `clamp` of R205. -/
def clampAs (t : Ty) (z : Int) : BitVec t.width :=
  BitVec.ofInt t.width (if z < smallest t then smallest t else if largest t < z then largest t else z)

/-- Two scalars compared: the result is the scalar 1 or 0 (R209). -/
def Compare (op : Op) (ins : GWord → Instr) (f : (n : Nat) → BitVec n → BitVec n → Bool) : Prop :=
  ∀ (s : State) (i : Issue) (v : Inv) (w : GWord) (l r : Opnd) (a b : W64), FiresG s i v w → TakesLR op i w l r →
    l.val = .sc a → r.val = .sc b →
    Sends (ins w) w s i (.sc (if f w.ty.width (a.setWidth w.ty.width) (b.setWidth w.ty.width) then 1 else 0))

end Sys2Proof.Machine

open Sys2Proof Sys2Proof.Machine


/-- R205: ADD, SUB, MUL, MULH, MULHN, ADDS, SUBS, MIN, MAX, MADD, ABS and NEG complete (exec answers the next state in which both
targets have the result): the sums, differences, products, minima, maxima and magnitudes of integers, element by element. -/
def Sys2Proof.Machine.IntegerArithmeticComputesR205 : Prop :=
  Binary .add .add isInteger (fun _ a b => a + b)
  ∧ Binary .sub .sub isInteger (fun _ a b => a - b)
  ∧ Binary .mul .mul isInteger (fun _ a b => a * b)
  ∧ Binary .mulh .mulh Ty.signed (fun t a b => BitVec.ofInt _ (a.toInt * b.toInt / 2 ^ t.width))
  ∧ Binary .mulhn .mulhn (fun t => isInteger t && !Ty.signed t) (fun t a b => BitVec.ofNat _ (a.toNat * b.toNat / 2 ^ t.width))
  ∧ Binary .adds .adds isInteger (fun t a b => clampAs t (readAs t a + readAs t b))
  ∧ Binary .subs .subs isInteger (fun t a b => clampAs t (readAs t a - readAs t b))
  ∧ Binary .min .min isInteger (fun t a b => if readAs t a ≤ readAs t b then a else b)
  ∧ Binary .max .max isInteger (fun t a b => if readAs t b ≤ readAs t a then a else b)
  ∧ (∀ (s : State) (i : Issue) (v : Inv) (w : GWord) (l r q : Opnd), FiresG s i v w → TakesLRQ .madd i w l r q →
      isInteger w.ty = true →
      ∃ x, Sends (.madd w) w s i x ∧ ElementsAre w.ty (l.val.isVec || r.val.isVec || q.val.isVec) x fun k y =>
        y = elem w.ty.width k l.val * elem w.ty.width k r.val + elem w.ty.width k q.val)
  ∧ Unary .abs (fun w => Ty.signed w.ty) (fun w a y =>
      y = if w.sat then clampAs w.ty a.toInt.natAbs else BitVec.ofInt _ a.toInt.natAbs)
  ∧ Unary .neg (fun w => isInteger w.ty) (fun w a y => y = if w.sat then clampAs w.ty (-readAs w.ty a) else -a)

/-- R206: DIV, REM, DIVN and REMN complete: quotients and remainders, with the results the rule gives for a zero divisor and for
the most negative dividend. -/
def Sys2Proof.Machine.DivisionComputesR206 : Prop :=
  Binary .div .div Ty.signed (fun _ a b => if b = 0 then BitVec.allOnes _ else a.sdiv b)
  ∧ Binary .rem .rem Ty.signed (fun _ a b => if b = 0 then a else a.srem b)
  ∧ Binary .divn .divn (fun t => isInteger t && !Ty.signed t) (fun _ a b => if b = 0 then BitVec.allOnes _ else a / b)
  ∧ Binary .remn .remn (fun t => isInteger t && !Ty.signed t) (fun _ a b => if b = 0 then a else a % b)

/-- R205, R207: AND, OR, XOR, ANDN, SHL, SHR, SAR and ROT complete: the bit operations, and the shifts by an unsigned count of any
size. -/
def Sys2Proof.Machine.LogicAndShiftsComputeR207 : Prop :=
  Binary .and .and isInteger (fun _ a b => a &&& b)
  ∧ Binary .or .or isInteger (fun _ a b => a ||| b)
  ∧ Binary .xor .xor isInteger (fun _ a b => a ^^^ b)
  ∧ Binary .andn .andn isInteger (fun _ a b => a &&& ~~~b)
  ∧ Binary .shl .shl isInteger (fun t a b => if t.width ≤ b.toNat then 0 else a <<< b.toNat)
  ∧ Binary .shr .shr isInteger (fun t a b => if t.width ≤ b.toNat then 0 else a >>> b.toNat)
  ∧ Binary .sar .sar isInteger (fun t a b => a.sshiftRight (if t.width ≤ b.toNat then t.width - 1 else b.toNat))
  ∧ Binary .rot .rot isInteger (fun t a b => a.rotateLeft (b.toNat % t.width))

/-- R208: CLZ, CTZ, POPC, SEXT, ZEXT and LEA complete (exec answers the next state in which both targets have the result): counts
of bits, extensions from bit k, and a sum with a shifted operand. -/
def Sys2Proof.Machine.BitCountsAndExtensionsComputeR208 : Prop :=
  Unary .clz (fun w => isInteger w.ty) (fun w a y =>
    y.toNat ≤ w.ty.width ∧ (∀ j, w.ty.width - y.toNat ≤ j → a.getLsbD j = false)
      ∧ (y.toNat < w.ty.width → a.getLsbD (w.ty.width - 1 - y.toNat) = true))
  ∧ Unary .ctz (fun w => isInteger w.ty) (fun w a y =>
    y.toNat ≤ w.ty.width ∧ (∀ j, j < y.toNat → a.getLsbD j = false) ∧ (y.toNat < w.ty.width → a.getLsbD y.toNat = true))
  ∧ Unary .popc (fun w => isInteger w.ty) (fun w a y => y.toNat = ((List.range w.ty.width).filter fun j => a.getLsbD j).length)
  ∧ Unary .sext (fun w => isInteger w.ty && 1 ≤ w.imm.imm16 && w.imm.imm16 ≤ w.ty.width) (fun w a y =>
    ∀ j, j < w.ty.width → y.getLsbD j = if j < w.imm.imm16 then a.getLsbD j else a.getLsbD (w.imm.imm16 - 1))
  ∧ Unary .zext (fun w => isInteger w.ty && 1 ≤ w.imm.imm16 && w.imm.imm16 ≤ w.ty.width) (fun w a y =>
    ∀ j, j < w.ty.width → y.getLsbD j = (decide (j < w.imm.imm16) && a.getLsbD j))
  ∧ (∀ (s : State) (i : Issue) (v : Inv) (w : GWord) (l r : Opnd), FiresG s i v w → TakesLR .lea i w l r →
      w.ty = .i64 ∨ w.ty = .n64 →
      ∃ x, Sends (.lea w) w s i x ∧ ElementsAre w.ty (l.val.isVec || r.val.isVec) x fun k y =>
        y = elem w.ty.width k l.val + elem w.ty.width k r.val <<< w.mf.toNat)

/-- R209: CEQ, CNE, CLT, CLE, CLTN and CLEN complete on two scalars with the scalar 1 or 0; a vector operand faults with "width
mismatch". -/
def Sys2Proof.Machine.IntegerComparesComputeR209 : Prop :=
  Compare .ceq .ceq (fun _ a b => a == b)
  ∧ Compare .cne .cne (fun _ a b => a != b)
  ∧ Compare .clt .clt (fun _ a b => a.slt b)
  ∧ Compare .cle .cle (fun _ a b => a.sle b)
  ∧ Compare .cltn .cltn (fun _ a b => a.ult b)
  ∧ Compare .clen .clen (fun _ a b => a.ule b)
  ∧ ∀ (s : State) (i : Issue) (v : Inv) (w : GWord) (l r : Opnd) (op : Op) (ins : GWord → Instr),
      (op, ins) ∈ [(.ceq, Instr.ceq), (.cne, .cne), (.clt, .clt), (.cle, .cle), (.cltn, .cltn), (.clen, .clen)] →
      FiresG s i v w → TakesLR op i w l r → (l.val.isVec || r.val.isVec) = true →
      exec (ins w) s = .next (s.fault i op .widthMismatch)

/-! ### Words -/

/-- The words of the worked examples decode to the instructions that the spec writes for them: one or more for each format. -/
def Obligations.SpecWordsDecode : Prop :=
  decodeWord 0x020E700000000000 5 = .ok (.const
    { prd := .always, ty := .i64, imm := .lit64 5, t0 := .slot 96 .l, t1 := .none, rm := .rne, sat := false, nm := .pass, ir := false, mf := 0 })
  ∧ decodeWord 0x201E458000080000 0x10 = .ok (.add
    { prd := .always, ty := .n64, imm := .lit64 0x10, t0 := .slot 11 .l, t1 := .none, rm := .rne, sat := false, nm := .pass, ir := true, mf := 0 })
  ∧ decodeWord 0x400C704E18000000 0 = .ok (.ceq
    { prd := .always, ty := .i64, imm := .short 0, t0 := .slot 96 .p, t1 := .slot 97 .p, rm := .rne, sat := false, nm := .pass, ir := false, mf := 0 })
  ∧ decodeWord 0xD900728000130203 0 = .ok (.bar
    { prd := .always, ty := .i8, imm := .short 0x203, t0 := .slot 101 .l, t1 := .none, rm := .rne, sat := false, nm := .absorb, ir := false, mf := 3 })
  ∧ decodeWord 0xA828748000200003 0 = .ok (.radd
    { prd := .always, ty := .f32, imm := .short 3, t0 := .slot 105 .l, t1 := .none, rm := .rne, sat := false, nm := .identity, ir := false, mf := 0 })
  ∧ decodeWord 0xD0020230A4040020 0 = .ok (.acq
    { prd := .always, sz := 0, asp := .sh, mode := .rnd, scope := .nd, t0 := .slot 12 .l, dt := 82, seq := 1, prev := 0, next := 2, sbw := none })
  ∧ decodeWord 0xB32B000082080800 0 = .ok (.stv
    { prd := .always, sz := 5, asp := .gv, mode := .rnd, scope := .nd, t0 := .none, dt := 65, seq := 2, prev := 1, next := 0, sbw := none })
  ∧ decodeWord 0x1500000000000000 0 = .ok (.quit { prd := .always, exn := 0, off := 0 })
  ∧ decodeWord 0xE114044001020014 0 = .ok (.copy
    { prd := .always, sbs := some 2, wm := 1, pat := 1, t0 := .none, unit := 1, sub := 2, imm := 0x14 })
  ∧ decodeWord 0xEA0C008000254103 0 = .ok (.mma
    { prd := .always, sbs := some 1, wm := 0, pat := 2, t0 := .none, unit := 0, sub := 5, imm := 0x4103 })
  ∧ decodeWord 0xEC1C00320021068C 0 = .ok (.spawn
    { prd := .always, sbs := some 3, wm := 0, pat := 0, t0 := .queue 4, unit := 0, sub := 1, imm := 0x68C })
  ∧ decodeWord 0xF812801000000000 0 = .ok (.rdsr { prd := .always, t0 := .slot 20 .l, srn := 0x10, imm := 0 })
  ∧ decodeWord 0xFE128000C0030000 0 = .ok (.frec { prd := .always, t0 := .slot 20 .l, srn := 0, imm := 3 })

/-- Decoding reads back what encoding writes: every well-formed instruction, whatever bytes follow it (R53, R58 to R65). -/
def Obligations.EncodeDecodeRoundTrip : Prop :=
  ∀ (i : Instr) (rest : List Byte), i.view ≠ none → i.WellFormed = true → decode (encode i ++ rest) = .ok (i, rest)

/-- Each word has one meaning: what decoding reads, encoding writes back, and the instruction is well-formed. -/
def Sys2Proof.Machine.DecodeEncodeRoundTrip : Prop :=
  ∀ (bs rest : List Byte) (i : Instr), decode bs = .ok (i, rest) → bs = encode i ++ rest ∧ i.WellFormed = true

/-- The opcodes that R66 leaves unassigned. -/
def unassignedOpcode (c : Nat) : Prop :=
  c = 0 ∨ (0x17 ≤ c ∧ c ≤ 0x1F) ∨ (0x3E ≤ c ∧ c ≤ 0x3F) ∨ (0x46 ≤ c ∧ c ≤ 0x5F) ∨ (0x72 ≤ c ∧ c ≤ 0x73) ∨ (0x82 ≤ c ∧ c ≤ 0x8F)
    ∨ (0x9C ≤ c ∧ c ≤ 0x9F) ∨ (0xAD ≤ c ∧ c ≤ 0xAF) ∨ (0xC3 ≤ c ∧ c ≤ 0xCF) ∨ (0xDC ≤ c ∧ c ≤ 0xDF) ∨ (0xEF ≤ c ∧ c ≤ 0xF7) ∨ c = 0xFF

/-- How many values of SUB[23:20] the E opcode `c` assigns (R66); 16 where the field does not select. -/
def subsAssigned (c : Nat) : Nat :=
  if c = 0xE5 ∨ c = 0xE8 then 2 else if c = 0xE6 ∨ c = 0xE7 then 4 else if c = 0xE9 ∨ c = 0xED then 3 else if c = 0xEA then 7
  else if c = 0xEB then 8 else if c = 0xEC then 5 else if c = 0xEE then 6 else 16

/-- R66: a word of an unassigned opcode is refused with the cause "unassigned opcode", and no other word is; a SUB[23:20] value
that is not listed for a shared opcode is a reserved code, unless T0 or the scoreboard field breaks check 4 of R56, which comes
first. -/
def Sys2Proof.Machine.UnassignedOpcodesAreRefusedR66 : Prop :=
  ∀ (w litv : Nat), let c := w / 2 ^ 56 % 256
    (decodeWord w litv = .error .unassignedOpcode ↔ unassignedOpcode c)
    ∧ (subsAssigned c ≤ w / 2 ^ 20 % 16 →
        decodeWord w litv = .error
          (if targetReserved (w / 2 ^ 27 % 2 ^ 11) || (w / 2 ^ 50 % 2 = 0 && w / 2 ^ 51 % 8 != 0) then .reservedFieldNonzero
            else .reservedCode))

/-! ### Steps -/

/-- R50: an issue takes the oldest operand set of the element that can issue, fetches the context word of its element, and
runs the instruction that the word decodes to on that set, which has left the ready queue; then the sets that waited for the fold
of this element are complete (R252, R281). -/
def Sys2Proof.Machine.StepRunsIssuedInstruction : Prop :=
  ∀ (s t : State) (c ix : Nat) (rest : List Sched) (r : Ready) (rs : List Ready) (x : Ctx) (i : Instr),
    s.sched.agenda = .issue c ix :: rest → ((s.cl c).ready.filter fun r => r.ix = ix) = r :: rs →
    s.live (nkOf c r.pl) = true → (s.cl c).ctxErr.contains (r.pl * 128 + r.ix) = false →
    Tab.find (s.cl c).ctx (r.pl * 128 + r.ix) = some x → decodeWord x.word.toNat x.lit.toNat = .ok i →
    s.roomFor (nkOf c r.pl) i = true →
    let s' := { s with sched := { s.sched with agenda := rest } }.dropReady c r
    exec i { s' with sched := { s'.sched with cur := some (r.issue c) } } = .next t → t.sched.cur.any (·.wait) = false →
    step s = .next (State.idle (match s.invOf (r.issue c) with
      | none => t
      | some v => t.foldWake c r.pl r.ix v.n i))

/-- A step of the machine itself that the agenda names is run as it stands, and so is the work of a unit on a command, or of a
memory interface on an access. -/
def Sys2Proof.Machine.StepRunsEventsAndPerformers : Prop :=
  (∀ (s t : State) (i : Instr) (rest : List Sched), s.sched.agenda = .event i :: rest →
    exec i { s with sched := { s.sched with agenda := rest, cur := none } } = .next t → step s = .next t.idle)
  ∧ (∀ (s t : State) (c u k piece : Nat) (m : Cmd) (rest : List Sched), s.sched.agenda = .unit c u k piece :: rest →
    (workable u (if u = 4 then s.storCmds else s.unit c u))[k]? = some m → s.heldKern m.kernel = false →
    exec m.instr { s with sched := { s.sched with
        agenda := rest
        cur := some { c := m.nk / 8, p := m.nk % 8, ix := m.ix, ws := m.ws, it := m.n % 65536, perform := true, u := u, k := m.id, piece := piece } } }
      = .next t → step s = .next t.idle)
  ∧ ∀ (s t : State) (c p k : Nat) (a : Acc) (rest : List Sched), s.sched.agenda = .release c p k :: rest →
    (s.nd (nkOf c p)).mif[k]? = some a → ((s.nd (nkOf c p)).kernel.map s.heldKern).getD false = false →
    exec a.instr { s with sched := { s.sched with
        agenda := rest
        cur := some { c := c, p := p, ix := a.ix, ws := a.ws, it := a.n % 65536, perform := true, k := a.id } } }
      = .next t → step s = .next t.idle

/-- Every instruction, and every step of the machine itself, answers a next state in every state: nothing stops a run. -/
def Obligations.EveryInstructionAnswersANextState : Prop := ∀ (i : Instr) (s : State), ∃ t, exec i s = .next t

/-- No step breaks the canonical form of memory. -/
def Obligations.MemoryStaysCanonical : Prop := ∀ (s t : State), Canonical s → step s = .next t → Canonical t

/-- The memory of the reset state is in canonical form, and so is that of a state in which an instruction was placed. -/
def Sys2Proof.Machine.MemoryCanonicalAtReset : Prop :=
  Canonical State.reset ∧ ∀ nbits w, Canonical (State.reset.withFetchWord nbits w)

/-- R2: bytes written at an address read back, little-endian, and every other byte reads as before. -/
def Obligations.MemoryReadsBackWhatWasWrittenR2 : Prop :=
  ∀ (s : State) (k v n : Nat),
    memRead (memWrite s k v n) k n = v % 2 ^ (8 * n)
    ∧ (∀ a, a < k ∨ k + n ≤ a → memGet (memWrite s k v n) a = memGet s a)
    ∧ ∀ j, j < n → memGet (memWrite s k v n) (k + j) = BitVec.ofNat 8 (v / 256 ^ j)

/-- R429, R293: the state after reset: the reset values of the system registers, no kernel, no assigned node, every global zero,
and memory as assumption 4 has it. -/
def Sys2Proof.Machine.ResetStateR429 : Prop :=
  (∀ copy n, srGet State.reset copy n =
    if n = 0x44 then 0x100000 else if n = 0x60 then 8 else if n = 0x61 then 0x10000 else if n = 0x68 then 0x1000100
    else if n = 0xa4 then 0x5f6e else if n = 0xa5 then 2500 else if n = 0xfc then 0x17d784 else if n = 0x300 then 0xc000000000000000 else 0)
  ∧ (∀ k, State.reset.kern k = none) ∧ (∀ nk, (State.reset.nd nk).asg = none ∧ (State.reset.nd nk).hdr = none)
  ∧ (∀ nk r, Tab.get 0 (State.reset.nd nk).g r = 0 ∧ Tab.get 0 (State.reset.nd nk).v r = 0 ∧ Tab.get 0 (State.reset.nd nk).m r = 0)
  ∧ (∀ k, memGet State.reset k = 0) ∧ State.reset.now = 0

/-! ### Plumbing -/

/-- R69, R72, R73, R61: NOP, CONST, MOV, ITERID, NULLQ and NFILL complete, and what each computes; MOV and NFILL forward a token
with its status bits unchanged. -/
def Sys2Proof.Machine.PlumbingComputesR69 : Prop :=
  (∀ (s : State) (i : Issue) (v : Inv) (w : GWord), Issues s i v → predHolds w.prd i = false →
    exec (.nop w) s = .next s
    ∧ ∀ ins ∈ [Instr.const w, .mov w, .read w, .iterid w, .nullq w, .nfill w], exec ins s = .next (s.absorb i (gEffect w)))
  ∧ ∀ (s : State) (i : Issue) (v : Inv) (w : GWord), FiresG s i v w →
    exec (.nop w) s = .next s
    ∧ Sends (.const w) w s i (.sc (BitVec.ofNat 64 (immVal w.ty w.imm)))
    ∧ (∀ x, w.imm = .short x → isInteger w.ty = true →
        BitVec.ofNat 64 (immVal w.ty w.imm) = if Ty.signed w.ty then x.signExtend 64 else x.setWidth 64)
    ∧ (∀ x, w.imm = .short x → w.ty = .f32 → BitVec.ofNat 64 (immVal w.ty w.imm) = x.setWidth 64 <<< 16)
    ∧ (∀ x, w.imm = .lit32 x → isInteger w.ty = true →
        BitVec.ofNat 64 (immVal w.ty w.imm) = if Ty.signed w.ty then x.signExtend 64 else x.setWidth 64)
    ∧ (∀ x, w.imm = .lit64 x → BitVec.ofNat 64 (immVal w.ty w.imm) = x)
    ∧ (∀ l, TakesL i w l → exec (.mov w) s = .next (s.sendBoth i w (gEffect w) {} l l))
    ∧ (∀ l, i.l = some l → l.null = true → let o := Opnd.nullWith l.status
        exec (.mov w) s = .next (if w.nm = .absorb then s.absorb i (gEffect w) else s.sendBoth i w (gEffect w) {} o o))
    ∧ Sends (.iterid w) w s i (.sc (BitVec.ofNat 64 (if w.mf = 1 then v.ws else v.n % 2 ^ 32)))
    ∧ (∀ l, i.l = some l → l.null = false → Sends (.nullq w) w s i (.sc 0))
    ∧ (∀ l, i.l = some l → l.null = true →
        exec (.nullq w) s = .next (s.sendBoth i w (gEffect w) (statusOf [i.pr]) { val := .sc 1 } { val := .sc 1 }))
    ∧ (∀ l, i.l = some l → l.null = false → exec (.nfill w) s = .next (s.sendBoth i w (gEffect w) {} l l))
    ∧ (∀ l, i.l = some l → l.null = true → w.mf = 0 → Sends (.nfill w) w s i (.sc (BitVec.ofNat 64 (immVal w.ty w.imm))))
    ∧ (∀ l, i.l = some l → l.null = true → w.mf = 1 →
        ∃ x, Sends (.nfill w) w s i x ∧ x.isVec = true ∧
          ∀ k, k < 512 / w.ty.width → elem w.ty.width k x = BitVec.ofNat _ (immVal w.ty w.imm))

/-- R72: PAND, POR, PXOR and PNOT complete on bit 0 of scalars (exec answers the next state in which both targets have the
result); a vector operand faults with "width mismatch". -/
def Sys2Proof.Machine.PredicateOperationsComputeR72 : Prop :=
  (∀ (s : State) (i : Issue) (v : Inv) (w : GWord) (l r : Opnd), FiresG s i v w → TakesLR .pand i w l r →
    (∀ a b, l.val = .sc a → r.val = .sc b →
      Sends (.pand w) w s i (.sc (if a.getLsbD 0 && b.getLsbD 0 then 1 else 0))
      ∧ Sends (.por w) w s i (.sc (if a.getLsbD 0 || b.getLsbD 0 then 1 else 0))
      ∧ Sends (.pxor w) w s i (.sc (if a.getLsbD 0 != b.getLsbD 0 then 1 else 0)))
    ∧ ((l.val.isVec || r.val.isVec) = true →
      exec (.pand w) s = .next (s.fault i .pand .widthMismatch) ∧ exec (.por w) s = .next (s.fault i .por .widthMismatch)
        ∧ exec (.pxor w) s = .next (s.fault i .pxor .widthMismatch)))
  ∧ ∀ (s : State) (i : Issue) (v : Inv) (w : GWord) (l : Opnd), FiresG s i v w → TakesL i w l →
    (∀ a, l.val = .sc a → Sends (.pnot w) w s i (.sc (if a.getLsbD 0 then 0 else 1)))
    ∧ (l.val.isVec = true → exec (.pnot w) s = .next (s.fault i .pnot .widthMismatch))

/-- R70, R36, R39: READ and WRITE complete: READ sends the committed value of its global once every older invocation has
committed, and waits until then; WRITE holds its value to the commit, and the global keeps its value. -/
def Sys2Proof.Machine.GlobalsAreReadAndWrittenAtCommitR70 : Prop :=
  (∀ (s : State) (i : Issue) (v : Inv) (w : GWord), FiresG s i v w →
    let file := bits w.imm.imm16 7 2
    let num := bits w.imm.imm16 1 6
    ((s.nd i.nk).oldest v.age = false → exec (.read w) s = .next s.waits)
    ∧ ((s.nd i.nk).oldest v.age = true → globalIndex file num ∉ (s.nd i.nk).gErr →
        Sends (.read w) w s i (if file = 0 then .sc (Tab.get 0 (s.nd i.nk).g num)
          else if file = 1 then .vec (Tab.get 0 (s.nd i.nk).v num) else .sc (Tab.get 0 (s.nd i.nk).m num)))
    ∧ ((s.nd i.nk).oldest v.age = true → globalIndex file num ∈ (s.nd i.nk).gErr →
        exec (.read w) s = .next (s.fault i .read .uncorrectableError fun p => { p with aux := 6 })))
  ∧ ∀ (s : State) (i : Issue) (v : Inv) (w : GWord) (l : Opnd) (file : GFile) (num : BitVec 6),
    Issues s i v → predHolds w.prd i = true → i.l = some l → w.t0 = .glob file num →
    (l.null = true → exec (.write w) s = .next (s.report i false))
    ∧ (i.status.er = false → l.null = false → l.val.isVec = decide (file = .v) →
      ∃ t, exec (.write w) s = .next t ∧ SameOutside s t
        ∧ t.invOf i = some { v with
            held := v.held ++ [.glob i.ix file num.toNat l.val], reports := v.reports ++ [(i.ix, true)] }
        ∧ (t.nd i.nk).g = (s.nd i.nk).g ∧ (t.nd i.nk).v = (s.nd i.nk).v ∧ (t.nd i.nk).m = (s.nd i.nk).m)
    ∧ (i.status.er = false → l.null = false → l.val.isVec ≠ decide (file = .v) → exec (.write w) s = .next (s.fault i .write .widthMismatch))

/-- R71: STEER and MERGE complete: STEER sends L to the one target that its predicate names; MERGE sends the operand that its
predicate names to both. A null predicate, or a null where the value would come from, sends nulls to both or, with `.ABS`, is
absorbed. -/
def Sys2Proof.Machine.SteerAndMergeR71 : Prop :=
  ∀ (s : State) (i : Issue) (v : Inv) (w : GWord) (p : Opnd), FiresG s i v w → i.pr = some p →
    (∀ l, i.l = some l → p.null = false → l.null = false →
      let t := s.send i (if p.val.bit0 then w.t0 else w.t1) .data (l.plus i.status)
      exec (.steer w) s = .next (if gEffect w then t.report i true else t))
    ∧ (∀ l, i.l = some l → (p.null || l.null) = true →
      exec (.steer w) s = .next (if w.nm = .absorb then s.absorb i (gEffect w)
        else s.sendBoth i w (gEffect w) {} (Opnd.nullWith i.status) (Opnd.nullWith i.status)))
    ∧ (∀ x, p.null = false → (if p.val.bit0 then i.l else i.r) = some x →
      (x.null = false → exec (.merge w) s = .next (s.sendBoth i w (gEffect w) (statusOf [some p, some x]) x x))
      ∧ (x.null = true → let o := Opnd.nullWith (statusOf [some p, some x])
        exec (.merge w) s = .next (if w.nm = .absorb then s.absorb i (gEffect w) else s.sendBoth i w (gEffect w) {} o o)))
    ∧ (p.null = true → let o := Opnd.nullWith p.status
      exec (.merge w) s = .next (if w.nm = .absorb then s.absorb i (gEffect w) else s.sendBoth i w (gEffect w) {} o o))

/-- A token for element `ix`, port `pt` of the next iteration of `v`, in that iteration's window slot. -/
def NextIterationToken (s : State) (i : Issue) (v : Inv) (ix : BitVec 7) (pt : Port) (o : Opnd) (k : Tok) : Prop :=
  k.pl = i.p ∧ k.ix = ix.toNat ∧ k.pt = pt ∧ k.it = (v.n + 1) % 2 ^ 32 % 65536
    ∧ k.ws = (v.n + 1) % 2 ^ 32 % (((s.nd i.nk).hdr.map Header.w).getD 1) ∧ k.gn = (s.nd (nkOf i.c i.p)).gn
    ∧ k.kd = (arriveAs pt .data o).1 ∧ k.o = (arriveAs pt .data o).2

/-- R74, R44: NITER completes: it sends L to slots of iteration n + 1, in the window slot of that iteration; a null L goes as a
null, or with `.ABS` is absorbed. -/
def Sys2Proof.Machine.NiterSendsToTheNextIterationR74 : Prop :=
  ∀ (s : State) (i : Issue) (v : Inv) (w : GWord) (l : Opnd) (ix : BitVec 7) (pt : Port), Issues s i v →
    predHolds w.prd i = true → i.l = some l → w.t0 = .slot ix pt →
    let o := if l.null then Opnd.nullWith l.status else l
    (l.null = true → w.nm = .absorb → exec (.niter w) s = .next s)
    ∧ (l.null = false ∨ w.nm ≠ .absorb → w.t1 = .none →
      ∃ t k, exec (.niter w) s = .next t ∧ SameOutside s t ∧ (t.cl i.c).input = (s.cl i.c).input ++ [k]
        ∧ NextIterationToken s i v ix pt o k)
    ∧ (∀ ix' pt', l.null = false ∨ w.nm ≠ .absorb → w.t1 = .slot ix' pt' →
      ∃ t k k', exec (.niter w) s = .next t ∧ SameOutside s t ∧ (t.cl i.c).input = (s.cl i.c).input ++ [k, k']
        ∧ NextIterationToken s i v ix pt o k ∧ NextIterationToken s i v ix' pt' o k')

/-- R59, R39: what sending a result does: a token for a slot joins the input stage of the cluster under the invocation's
window slot and iteration, as a predicate on port P; a queue target holds the token to the commit; nothing else changes. -/
def Sys2Proof.Machine.SendingPutsOneTokenR59 : Prop :=
  ∀ (s : State) (i : Issue) (kd : Kd) (o : Opnd),
    (∀ ix pt, ∃ k, (s.send i (.slot ix pt) kd o) = s.modCl i.c (fun x => { x with input := x.input ++ [k] })
      ∧ k.pl = i.p ∧ k.ix = ix.toNat ∧ k.pt = pt ∧ k.ws = i.ws ∧ k.it = i.it ∧ k.gn = (s.nd (nkOf i.c i.p)).gn
      ∧ (o.null = true → k.kd = .null ∧ k.o = o)
      ∧ (o.null = false → pt ≠ .p → k.kd = kd ∧ k.o = o)
      ∧ (o.null = false → pt = .p → k.kd = .predicate ∧ k.o = { o with val := .sc (if o.val.bit0 then 1 else 0) }))
    ∧ (∀ (q : BitVec 4) v, s.invOf i = some v → (s.send i (.queue q) kd o).invOf i
        = some { v with held := v.held ++ [.qtok i.ix q.toNat o] }
        ∧ (s.send i (.queue q) kd o).clusters = s.clusters ∧ (s.send i (.queue q) kd o).mem = s.mem
        ∧ ((s.send i (.queue q) kd o).nd i.nk).outq = (s.nd i.nk).outq)
    ∧ s.send i .none kd o = s

/-! ### Exits -/

/-- An exit fires: it is held to the commit with its destination, and reports performed. -/
def ExitsTo (ins : Instr) (s : State) (i : Issue) (v : Inv) (call : Bool) (d : Option Nat) : Prop :=
  ∃ t, exec ins s = .next t ∧ SameOutside s t ∧ t.clusters = s.clusters
    ∧ t.invOf i = some { v with held := v.held ++ [.exit i.ix call d], reports := v.reports ++ [(i.ix, true)] }
    ∧ (t.nd i.nk).pc = (s.nd i.nk).pc ∧ (t.nd i.nk).g = (s.nd i.nk).g

/-- A block address (R51): a multiple of 64, with 64 bytes below 2^52. -/
def blockAddress (a : Nat) : Prop := a % 64 = 0 ∧ a ≤ 2 ^ 52 - 64

/-- R75, R76: BRO, BR, CALLO, CALL, RET and QUIT complete where they are the first exit of their invocation: exec answers a next
state in which the exit is held to the commit, with the block that it names (PC + OFF × 64, the address on L, or none), and has
reported performed. An address that is no block's faults, a predicate that does not match and a null L absorb the exit. -/
def Sys2Proof.Machine.ExitsNameTheNextBlockR75 : Prop :=
  (∀ (s : State) (i : Issue) (v : Inv) (w : CWord), Issues s i v → predHolds w.prd i = false →
    ∀ ins ∈ [Instr.bro w, .br w, .callo w, .call w, .ret w, .quit w], exec ins s = .next (s.report i false))
  ∧ (∀ (s : State) (i : Issue) (v : Inv) (w : CWord) (l : Opnd), Issues s i v → i.l = some l → l.null = true →
    ∀ ins ∈ [Instr.br w, .call w, .ret w], exec ins s = .next (s.report i false))
  ∧ ∀ (s : State) (i : Issue) (v : Inv) (w : CWord), Issues s i v → predHolds w.prd i = true → i.status.er = false →
    (∀ h ∈ v.held, ∀ ix call d, h ≠ .exit ix call d) →
    let rel := (BitVec.ofNat 64 (s.nd i.nk).pc + w.off.signExtend 64 * 64).toNat
    (i.l = none →
      (blockAddress rel → ExitsTo (.bro w) s i v false (some rel) ∧ ExitsTo (.callo w) s i v true (some rel))
      ∧ (¬ blockAddress rel → exec (.bro w) s = .next (s.fault i .bro .badBlockAddress)
          ∧ exec (.callo w) s = .next (s.fault i .callo .badBlockAddress))
      ∧ ExitsTo (.quit w) s i v false none)
    ∧ (∀ (l : Opnd) (a : W64), i.l = some l → l.null = false → l.val = .sc a →
      (blockAddress a.toNat → ExitsTo (.br w) s i v false (some a.toNat) ∧ ExitsTo (.call w) s i v true (some a.toNat)
        ∧ ExitsTo (.ret w) s i v false (some a.toNat))
      ∧ (¬ blockAddress a.toNat → exec (.br w) s = .next (s.fault i .br .badBlockAddress)
        ∧ exec (.call w) s = .next (s.fault i .call .badBlockAddress)
        ∧ exec (.ret w) s = .next (s.fault i .ret .badBlockAddress)))

/-- R76: a second exit that fires in an invocation faults with "double exit". -/
def Sys2Proof.Machine.SecondExitFaultsR76 : Prop :=
  ∀ (s : State) (i : Issue) (v : Inv) (w : CWord) (ix : Nat) (call : Bool) (d : Option Nat), Issues s i v →
    predHolds w.prd i = true → i.status.er = false → i.l = none → .exit ix call d ∈ v.held →
    exec (.quit w) s = .next (s.fault i .quit .doubleExit)

/-- What BINV takes as an address (R77). -/
def lineAddress (a : Nat) : Prop := a % 64 = 0 ∧ a < 2 ^ 52

/-- BINV drops some lines and sends a scalar 0. -/
def DropsLines (s : State) (i : Issue) (w : GWord) (P : State → Prop) : Prop :=
  ∃ u, exec (.binv w) s = .next (u.sendBoth i w false i.status { val := .sc 0 } { val := .sc 0 })
    ∧ SameOutside s u ∧ u.nodes = s.nodes ∧ P u

/-- R77: BINV completes: it drops the lines that overlap the 2080 bytes from L, or with `.ALL` every line, in its own cluster, or
with `.PK` in every cluster, and sends a scalar 0; an address that is no block's faults. -/
def Sys2Proof.Machine.BinvDropsLinesR77 : Prop :=
  ∀ (s : State) (i : Issue) (v : Inv) (w : GWord), Issues s i v → predHolds w.prd i = true →
    let kept (a : Nat) (e : Nat × Nat × List Byte) : Prop := a + 2080 ≤ e.2.1 ∨ e.2.1 + 64 ≤ a
    (∀ (l : Opnd) (a : W64), i.l = some l → l.null = false → l.val = .sc a → lineAddress a.toNat →
      (w.mf = 0 → DropsLines s i w fun u =>
        (∀ e, e ∈ (u.cl i.c).bcache ↔ e ∈ (s.cl i.c).bcache ∧ kept a.toNat e) ∧ ∀ c, c ≠ i.c → u.cl c = s.cl c)
      ∧ (w.mf = 2 → DropsLines s i w fun u => ∀ c e, e ∈ (u.cl c).bcache ↔ e ∈ (s.cl c).bcache ∧ kept a.toNat e))
    ∧ (∀ (l : Opnd) (a : W64), i.l = some l → l.null = false → l.val = .sc a → ¬ lineAddress a.toNat →
      w.mf = 0 ∨ w.mf = 2 → exec (.binv w) s = .next (s.fault i .binv .badBlockAddress))
    ∧ (w.mf = 1 → DropsLines s i w fun u => (u.cl i.c).bcache = [] ∧ ∀ c, c ≠ i.c → u.cl c = s.cl c)
    ∧ (w.mf = 3 → DropsLines s i w fun u => ∀ c, (u.cl c).bcache = [])

/-! ### Float instructions -/

namespace Sys2Proof.Machine

/-- A raised flag whose enable bit in FCTL is 1 (R188, R189). -/
def Traps (fctl fl : Nat) : Prop := ∃ b, fl.testBit b = true ∧ fctl.testBit (b + 4) = true

/-- Both targets take `x`, with NS where `ns` says, and the flags `fl` are collected; or, where one of them traps, the
invocation faults with "float exception" and the flags in AUX (R184, R189). -/
def SendsFlags (op : Op) (ins : Instr) (w : GWord) (s : State) (i : Issue) (v : Inv) (x : Val) (ns : Bool) (fl : Nat) : Prop :=
  (¬ Traps v.fctl fl →
    exec ins s = .next ((s.addFlags i fl).sendBoth i w (gEffect w) i.status { val := x, ns := ns } { val := x, ns := ns }))
  ∧ (Traps v.fctl fl → exec ins s = .next (s.fault i op .floatException fun p => { p with aux := fl }))

/-- The flags of an instruction are those of its elements together (R189). -/
def FlagsOf (n : Nat) (g : Nat → Nat) (fl : Nat) : Prop := ∀ b, fl.testBit b = true ↔ ∃ k, k < n ∧ (g k).testBit b = true

/-- NS says whether one of the first `n` elements of a result is a NaN (R184). -/
def NanSeen (f : FF) (n : Nat) (x : Val) (ns : Bool) : Prop := ns = true ↔ ∃ k, k < n ∧ (f.dec (elem f.width k x).toNat).isNan = true

/-- The number of elements that a result "as operands" has (R200). -/
def countOf (t : Ty) (vec : Bool) : Nat := if vec then 512 / t.width else 1

/-- The elements of a float result "as operands", their flags and NS; `g` gives element `k` and its flags. -/
def FloatResult (op : Op) (ins : Instr) (w : GWord) (s : State) (i : Issue) (v : Inv) (vec : Bool) (g : Nat → Nat × Nat) : Prop :=
  ∃ x ns fl, SendsFlags op ins w s i v x ns fl ∧ ElementsAre w.ty vec x (fun k y => y = BitVec.ofNat _ (g k).1)
    ∧ FlagsOf (countOf w.ty vec) (fun k => (g k).2) fl ∧ NanSeen (tyFF w.ty) (countOf w.ty vec) x ns

/-- The pattern of element `k`. -/
def pat (w : GWord) (o : Opnd) (k : Nat) : Nat := (elem w.ty.width k o.val).toNat

/-- A float instruction of two operands: `f` gives the result and the flags of one pair of patterns. -/
def FloatBinary (op : Op) (ins : GWord → Instr) (f : GWord → RM → Nat → Nat → Nat × Nat) : Prop :=
  ∀ (s : State) (i : Issue) (v : Inv) (w : GWord) (l r : Opnd), FiresG s i v w → TakesLR op i w l r → isFloat w.ty = true →
    FloatResult op (ins w) w s i v (l.val.isVec || r.val.isVec) fun k => f w (modeOf v.fctl w.rm) (pat w l k) (pat w r k)

/-- A float instruction of one operand. -/
def FloatUnary (op : Op) (ins : GWord → Instr) (f : GWord → RM → Nat → Nat × Nat) : Prop :=
  ∀ (s : State) (i : Issue) (v : Inv) (w : GWord) (l : Opnd), FiresG s i v w → TakesL i w l → isFloat w.ty = true →
    FloatResult op (ins w) w s i v l.val.isVec fun k => f w (modeOf v.fctl w.rm) (pat w l k)

/-- A float instruction of three operands. -/
def FloatTernary (op : Op) (ins : GWord → Instr) (f : GWord → RM → Nat → Nat → Nat → Nat × Nat) : Prop :=
  ∀ (s : State) (i : Issue) (v : Inv) (w : GWord) (l r q : Opnd), FiresG s i v w → TakesLRQ op i w l r q → isFloat w.ty = true →
    FloatResult op (ins w) w s i v (l.val.isVec || r.val.isVec || q.val.isVec) fun k =>
      f w (modeOf v.fctl w.rm) (pat w l k) (pat w r k) (pat w q k)

/-- The exact value of a decoded number that is neither a NaN nor an infinity. -/
def FV.value : FV → ℚ
  | .fin n m e => (if n then -1 else 1) * m * 2 ^ e
  | _ => 0

def FV.isFin : FV → Bool
  | .fin _ _ _ => true
  | _ => false

/-- The magnitude that R183 gives a pattern without its sign, continued past the largest exponent. -/
def FF.magnitude (f : FF) (p : Nat) : ℚ :=
  if p < 2 ^ f.mb then p * 2 ^ (1 - (f.bias : Int) - f.mb)
  else ((p % 2 ^ f.mb + 2 ^ f.mb : Nat) : ℚ) * 2 ^ ((p / 2 ^ f.mb : Nat) - (f.bias : Int) - f.mb)

/-- `p` is the magnitude `v` rounded in a mode, under an exponent without an upper limit (R185). -/
def FF.RoundsTo (f : FF) (mode : RM) (neg : Bool) (v : ℝ) (p : Nat) : Prop :=
  let at_ (q : Nat) : ℝ := f.magnitude q
  let down := at_ p ≤ v ∧ v < at_ (p + 1)
  let up := v ≤ at_ p ∧ ∀ q, q < p → at_ q < v
  match mode with
  | .rtz => down
  | .rdn => if neg then up else down
  | .rup => if neg then down else up
  | .rne => (∀ q, |v - at_ p| ≤ |v - at_ q|) ∧ ∀ q, q ≠ p → |v - at_ p| = |v - at_ q| → p % 2 = 0
  | .rna => (∀ q, |v - at_ p| ≤ |v - at_ q|) ∧ ∀ q, |v - at_ p| = |v - at_ q| → q ≤ p
  | .dyn => False

/-- The pattern of a magnitude `p` and a sign, with the three steps of R187 when `p` lies past the largest finite value. -/
def FF.withOverflow (f : FF) (mode : RM) (sat neg : Bool) (p : Nat) : Nat :=
  let sign := if neg then 2 ^ (f.width - 1) else 0
  if p ≤ f.maxPat then sign + p
  else
    let inf := mode = .rne ∨ mode = .rna ∨ (mode = .rdn ∧ neg = true) ∨ (mode = .rup ∧ neg = false)
    if ¬ inf ∨ sat = true then sign + f.maxPat
    else if f = .e4m3 then sign + 0x7f
    else sign + (2 ^ f.eb - 1) * 2 ^ f.mb

/-- The formats of TY 8 to 13. -/
def isFloatFormat (f : FF) : Bool := f != .e2m1

/-- The float compares: the relation of two values, and whether a quiet NaN raises no flag (R215). -/
def floatCompares : List (Op × (GWord → Instr) × (FV → FV → Bool) × Bool) :=
  [(.fceq, .fceq, fun x y => !x.isNan && !y.isNan && !fvLt x y && !fvLt y x, true),
   (.fclt, .fclt, fun x y => !x.isNan && !y.isNan && fvLt x y, false),
   (.fcle, .fcle, fun x y => !x.isNan && !y.isNan && !fvLt y x, false),
   (.fcun, .fcun, fun x y => x.isNan || y.isNan, true)]

end Sys2Proof.Machine

/-- R185, R187, R186: `Round` gives the representable value that the mode names, through the three steps of R187 on an overflow;
OF says that the rounded magnitude exceeds the largest finite value, and NX that the result is not the exact value. -/
def Obligations.RoundingIsCorrectR185 : Prop :=
  ∀ (f : FF) (mode : RM) (sat neg : Bool) (m : Nat) (e : Int), mode ≠ .dyn → f ≠ .e2m1 →
    ∃ p, f.RoundsTo mode neg (m * 2 ^ e : ℚ) p ∧ (f.round mode sat neg m e).1 = f.withOverflow mode sat neg p
      ∧ ((f.round mode sat neg m e).2.testBit 2 = true ↔ f.maxPat < p)
      ∧ ((f.round mode sat neg m e).2.testBit 4 = true ↔ f.maxPat < p ∨ f.magnitude p ≠ m * 2 ^ e)

/-- R211, R184: the sums and products that FADD, FSUB, FMUL, FMA and FNMA round are exact, and so is the value that a pattern
decodes to (R183). -/
def Sys2Proof.Machine.FloatOperandsCombineExactlyR211 : Prop :=
  (∀ (f : FF) (x : Nat), x < 2 ^ f.width → (f.dec x).isFin = true →
    (f.dec x).value = (if x / 2 ^ (f.width - 1) = 1 then -1 else 1) * f.magnitude (x % 2 ^ (f.width - 1)))
  ∧ (∀ (a b : FV) (mode : RM), a.isFin = true → b.isFin = true →
    (fvAdd a b mode).1.isFin = true ∧ (fvAdd a b mode).1.value = a.value + b.value ∧ (fvAdd a b mode).2 = 0)
  ∧ (∀ (a b : FV), a.isFin = true → b.isFin = true →
    (fvMul a b).1.isFin = true ∧ (fvMul a b).1.value = a.value * b.value ∧ (fvMul a b).2 = 0)
  ∧ (∀ (neg : Bool) (a b c : FV) (mode : RM), a.isFin = true → b.isFin = true → c.isFin = true →
    (fvFma neg a b c mode).1.value = (if neg then -(a.value * b.value) else a.value * b.value) + c.value)
  ∧ ∀ (a b : FV), a.isFin = true → b.isFin = true → (fvLt a b = true ↔ a.value < b.value)

/-- R211: FDIV, FSQRT and FRCP round the exact quotient or root once. -/
def Sys2Proof.Machine.QuotientsAndRootsRoundOnceR211 : Prop :=
  ∀ (f : FF) (mode : RM) (sat : Bool), isFloatFormat f = true → mode ≠ .dyn →
    (∀ (n1 n2 : Bool) (m1 m2 : Nat) (e1 e2 : Int), m1 ≠ 0 → m2 ≠ 0 → m1 < 2 ^ 53 → m2 < 2 ^ 53 →
      ∃ p, f.RoundsTo mode (n1 != n2) (m1 * 2 ^ e1 / (m2 * 2 ^ e2) : ℚ) p
        ∧ (f.ofFV mode sat (fvDiv (.fin n1 m1 e1) (.fin n2 m2 e2)).1).1 = f.withOverflow mode sat (n1 != n2) p)
    ∧ ∀ (m : Nat) (e : Int) (v : ℝ), m ≠ 0 → m < 2 ^ 53 → 0 ≤ v → v * v = (m * 2 ^ e : ℚ) →
      ∃ p, f.RoundsTo mode false v p ∧ (f.ofFV mode sat (fvSqrt (.fin false m e)).1).1 = f.withOverflow mode sat false p

/-- R211, R189: FADD, FSUB, FMUL, FDIV, FMA, FNMA, FSQRT and FSCALE complete: they compute their operation on each element and
round it once. -/
def Sys2Proof.Machine.FloatArithmeticComputesR211 : Prop :=
  FloatBinary .fadd .fadd (fun w m a b => rounded w m (fvAdd (rd w a) (rd w b) m))
  ∧ FloatBinary .fsub .fsub (fun w m a b => rounded w m (fvAdd (rd w a) (fvNeg (rd w b)) m))
  ∧ FloatBinary .fmul .fmul (fun w m a b => rounded w m (fvMul (rd w a) (rd w b)))
  ∧ FloatBinary .fdiv .fdiv (fun w m a b => rounded w m (fvDiv (rd w a) (rd w b)))
  ∧ FloatTernary .fma .fma (fun w m a b c => rounded w m (fvFma false (rd w a) (rd w b) (rd w c) m))
  ∧ FloatTernary .fnma .fnma (fun w m a b c => rounded w m (fvFma true (rd w a) (rd w b) (rd w c) m))
  ∧ FloatUnary .fsqrt .fsqrt (fun w m a => rounded w m (fvSqrt (rd w a)))
  ∧ FloatBinary .fscale .fscale (fun w m a b => rounded w m (match rd w a with
      | .fin n x e => .fin n x (e + (BitVec.ofNat w.ty.width b).toInt)
      | v => v, 0))

/-- R212: FRCP, FRSQ, FEXP2 and FLOG2 complete on every operand, and give the special values and the exact powers of two. -/
def Sys2Proof.Machine.FloatFunctionsComputeR212 : Prop :=
  FloatUnary .frcp .frcp (fun w m a => rounded w m (fvDiv (.fin false 1 0) (rd w a)))
  ∧ FloatUnary .frsq .frsq (fun w m a => rounded w m (fvRsqrt (rd w a)))
  ∧ FloatUnary .fexp2 .fexp2 (fun w m a => rounded w m (fvExp2 (rd w a)))
  ∧ FloatUnary .flog2 .flog2 (fun w m a => rounded w m (fvLog2 (rd w a)))
  ∧ (∀ (n : Bool) (e : Int),
    fvDiv (.fin false 1 0) (.fin n 0 e) = (.inf n, 2) ∧ fvRsqrt (.fin n 0 e) = (.inf n, 2) ∧ (fvExp2 (.fin n 0 e)).1.value = 1
      ∧ fvLog2 (.fin n 0 e) = (.inf true, 2))
  ∧ (∀ (m : Nat) (e : Int), m ≠ 0 → fvRsqrt (.fin true m e) = (.nan false, 1) ∧ fvLog2 (.fin true m e) = (.nan false, 1))
  ∧ fvRsqrt (.inf true) = (.nan false, 1) ∧ fvLog2 (.inf true) = (.nan false, 1) ∧ fvRsqrt (.inf false) = (.fin false 0 0, 0)
  ∧ fvExp2 (.inf true) = (.fin false 0 0, 0) ∧ fvExp2 (.inf false) = (.inf false, 0) ∧ fvLog2 (.inf false) = (.inf false, 0)
  ∧ (∀ (n : Bool) (k : Nat), k < 2 ^ 20 → (fvExp2 (.fin n k 0)).1.value = 2 ^ (if n then -(k : Int) else k))
  ∧ (∀ (j : Nat) (e : Int), (fvLog2 (.fin false (2 ^ j) e)).1.value = (j : ℚ) + e ∧ (fvLog2 (.fin false (2 ^ j) e)).2 = 0)

/-- R213, R214: FMIN, FMAX, FABS, FNEG, FSGN and FCLASS complete: the lesser and the greater number, the sign operations, which
touch no other bit and raise no flag, and the classes. -/
def Sys2Proof.Machine.FloatSignsAndClassesR213 : Prop :=
  FloatBinary .fmin .fmin (fun w _ a b => (tyFF w.ty).minMax false a b)
  ∧ FloatBinary .fmax .fmax (fun w _ a b => (tyFF w.ty).minMax true a b)
  ∧ (∀ (f : FF) (isMax : Bool) (a b : Nat), (f.dec a).isNan = false → (f.dec b).isNan = false →
      ((f.minMax isMax a b).1 = a ∨ (f.minMax isMax a b).1 = b) ∧ (f.minMax isMax a b).2 = 0
      ∧ (fvLt (f.dec a) (f.dec b) = true → (f.minMax isMax a b).1 = if isMax then b else a)
      ∧ (fvLt (f.dec b) (f.dec a) = true → (f.minMax isMax a b).1 = if isMax then a else b))
  ∧ (∀ (f : FF) (isMax : Bool) (a b : Nat), (f.dec a).isNan = true → (f.dec b).isNan = false →
      (f.minMax isMax a b).1 = b ∧ (f.minMax isMax b a).1 = b)
  ∧ (∀ (f : FF) (isMax : Bool) (a b : Nat), (f.dec a).isNan = true → (f.dec b).isNan = true → (f.minMax isMax a b).1 = f.nan)
  ∧ FloatUnary .fabs .fabs (fun w _ a => (if (rd w a).isNan then (tyFF w.ty).nan else a % 2 ^ (w.ty.width - 1), 0))
  ∧ FloatUnary .fneg .fneg (fun w _ a => (if (rd w a).isNan then (tyFF w.ty).nan else a ^^^ 2 ^ (w.ty.width - 1), 0))
  ∧ FloatBinary .fsgn .fsgn (fun w _ a b =>
      (if (rd w a).isNan then (tyFF w.ty).nan
       else a % 2 ^ (w.ty.width - 1) + 2 ^ (w.ty.width - 1) *
        (if w.mf = 0 then b.testBit (w.ty.width - 1) else if w.mf = 1 then !b.testBit (w.ty.width - 1)
         else a.testBit (w.ty.width - 1) != b.testBit (w.ty.width - 1)).toNat, 0))
  ∧ ∀ (s : State) (i : Issue) (v : Inv) (w : GWord) (l : Opnd), FiresG s i v w → TakesL i w l → isFloat w.ty = true →
      ∃ x, Sends (.fclass w) w s i x ∧ ElementsAre w.ty l.val.isVec x fun k y => ∃ c, y = BitVec.ofNat _ (2 ^ c) ∧
        match rd w (pat w l k) with
        | .nan sig => c = if sig then 8 else 9
        | .inf n => c = if n then 0 else 7
        | .fin n m _ => if m = 0 then c = (if n then 3 else 4)
            else if m < 2 ^ (tyFF w.ty).mb then c = (if n then 2 else 5) else c = (if n then 1 else 6)

/-- R215: FCEQ, FCLT, FCLE and FCUN complete on two float scalars with the scalar 1 or 0; a vector operand faults with "width
mismatch". -/
def Sys2Proof.Machine.FloatComparesR215 : Prop :=
  ∀ (s : State) (i : Issue) (v : Inv) (w : GWord) (l r : Opnd) (op : Op) (ins : GWord → Instr) (rel : FV → FV → Bool) (quiet : Bool),
    (op, ins, rel, quiet) ∈ floatCompares → FiresG s i v w → TakesLR op i w l r → isFloat w.ty = true →
    (∀ a b, l.val = .sc a → r.val = .sc b →
      let x := rd w (pat w l 0)
      let y := rd w (pat w r 0)
      SendsFlags op (ins w) w s i v (.sc (if rel x y then 1 else 0)) false
        (if x.isSig || y.isSig || (!quiet && (x.isNan || y.isNan)) then 1 else 0))
    ∧ ((l.val.isVec || r.val.isVec) = true → exec (ins w) s = .next (s.fault i op .widthMismatch))

/-! ### Conversions -/

namespace Sys2Proof.Machine

/-- A conversion from width `ws` to width `wd` under part `p` (R193): `f` gives the result and the flags of one element; `ff` is
the destination's float format. A vector's elements go by parts and every other lane is zero; a scalar takes part 0 only. -/
def Converts (op : Op) (ins : Instr) (w : GWord) (s : State) (i : Issue) (v : Inv) (l : Opnd) (t : Ty) (ws wd p : Nat)
    (ff : Option FF) (f : Nat → Nat × Nat) : Prop :=
  let n := 512 / max ws wd
  let from_ (j : Nat) : Nat := (elem ws (if ws < wd then p * n + j else j) l.val).toNat
  let to_ (j : Nat) : Nat := if wd < ws then p * n + j else j
  let nan (k : Nat) (x : Val) (ns : Bool) : Prop := match ff with | none => ns = false | some g => NanSeen g k x ns
  (l.val.isVec = true → p < max ws wd / min ws wd →
    ∃ x ns fl, SendsFlags op ins w s i v x ns fl ∧ x.isVec = true
      ∧ (∀ j, j < n → elem wd (to_ j) x = BitVec.ofNat wd (f (from_ j)).1)
      ∧ (∀ k, k < 512 / wd → (∀ j, j < n → k ≠ to_ j) → elem wd k x = 0)
      ∧ FlagsOf n (fun j => (f (from_ j)).2) fl ∧ nan (512 / wd) x ns)
  ∧ (l.val.isVec = false → p = 0 →
    ∃ ns, let r := f (elem ws 0 l.val).toNat
      let x : Val := .sc (if Ty.signed t then (BitVec.ofNat t.width r.1).signExtend 64 else BitVec.ofNat 64 (r.1 % 2 ^ t.width))
      SendsFlags op ins w s i v x ns r.2 ∧ nan 1 x ns)
  ∧ (l.val.isVec = false → p ≠ 0 → exec ins s = .next (s.fault i op .widthMismatch))

/-- A float type of 8 to 64 bits. -/
def isAnyFloat (t : Ty) : Bool := (Ty.ff t).isSome

/-- A value rounded to an integer and held in the range of an integer type, with its flags (R194). -/
def toInteger (t : Ty) (mode : RM) : FV → Nat × Nat
  | .nan _ => (0, 1)
  | .inf n => ((BitVec.ofInt t.width (if n then smallest t else largest t)).toNat, 1)
  | .fin n m e =>
    let r := roundInt mode n m e
    if r.1 < smallest t then ((BitVec.ofInt t.width (smallest t)).toNat, 1)
    else if largest t < r.1 then ((BitVec.ofInt t.width (largest t)).toNat, 1)
    else ((BitVec.ofInt t.width r.1).toNat, if r.2 then 16 else 0)

end Sys2Proof.Machine

/-- R194, R193: FCVT, ICVTF and FCVTI complete: they convert each element and round it once; IMM16 names the source type and MF
the part. -/
def Obligations.ConversionsComputeR194 : Prop :=
  ∀ (s : State) (i : Issue) (v : Inv) (w : GWord) (l : Opnd), FiresG s i v w → TakesL i w l →
    let src := Ty.ofCode (w.imm.imm16 % 16)
    let m := modeOf v.fctl w.rm
    (isAnyFloat w.ty = true → isAnyFloat src = true →
      Converts .fcvt (.fcvt w) w s i v l w.ty src.width w.ty.width w.mf.toNat (some (tyFF w.ty)) fun x =>
        (tyFF w.ty).ofFV m w.sat ((tyFF src).dec x))
    ∧ (isAnyFloat w.ty = true → isInteger src = true →
      Converts .icvtf (.icvtf w) w s i v l w.ty src.width w.ty.width w.mf.toNat (some (tyFF w.ty)) fun x =>
        let z := readAs src (BitVec.ofNat src.width x)
        (tyFF w.ty).round m w.sat (decide (z < 0)) z.natAbs 0)
    ∧ (isInteger w.ty = true → isAnyFloat src = true →
      Converts .fcvti (.fcvti w) w s i v l w.ty src.width w.ty.width w.mf.toNat none fun x =>
        toInteger w.ty m ((tyFF src).dec x))

/-- R195: QNT and DQNT complete: the scale is an F16 pattern in R[15:0] and the zero point R[23:16]; with `.Q4` a zero point above
15 faults with "reserved code", and a vector R with "width mismatch". -/
def Sys2Proof.Machine.QuantisationComputesR195 : Prop :=
  ∀ (s : State) (i : Issue) (v : Inv) (w : GWord) (l r : Opnd), FiresG s i v w → i.l = some l → i.r = some r → i.q = none →
    w.ir = false → l.null = false → r.null = false → isFloat w.ty = true →
    let z := r.val.nat / 2 ^ 16 % 256
    let sc := FF.f16.dec (r.val.nat % 2 ^ 16)
    let qw := if w.mf.toNat % 2 = 1 then 4 else 8
    let m := modeOf v.fctl w.rm
    (r.val.isVec = true → exec (.qnt w) s = .next (s.fault i .qnt .widthMismatch) ∧ exec (.dqnt w) s = .next (s.fault i .dqnt .widthMismatch))
    ∧ (r.val.isVec = false → qw = 4 → 15 < z →
      exec (.qnt w) s = .next (s.fault i .qnt .reservedCode) ∧ exec (.dqnt w) s = .next (s.fault i .dqnt .reservedCode))
    ∧ (r.val.isVec = false → (qw = 4 → z ≤ 15) →
      Converts .qnt (.qnt w) w s i v l .n64 w.ty.width qw (w.imm.imm16 % 8) none (fun x => qntOne m (rd w x) sc z (2 ^ qw - 1))
      ∧ Converts .dqnt (.dqnt w) w s i v l w.ty qw w.ty.width (w.imm.imm16 % 8) (some (tyFF w.ty)) fun q =>
          rounded w m (fvMul sc (.fin (decide ((q : Int) < z)) ((q : Int) - z).natAbs 0)))

/-- R195: the code that QNT gives to one element: the zero point under NV for no number, else the exact quotient plus the zero
point, rounded once to an integer and held in 0 to qmax. -/
def Sys2Proof.Machine.QuantisedCodeIsRoundedOnceR195 : Prop :=
  ∀ (mode : RM) (z qmax : Nat), mode ≠ .dyn → z ≤ qmax →
    (∀ x sc : FV, x.isNan = true ∨ sc.isNan = true ∨ (x.isZero = true ∧ sc.isZero = true) ∨ (x.isInf = true ∧ sc.isInf = true) →
      qntOne mode x sc z qmax = (z, 1))
    ∧ ∀ (nx ns : Bool) (mx ms : Nat) (ex es : Int), ms ≠ 0 →
      let t : ℚ := (FV.fin nx mx ex).value / (FV.fin ns ms es).value + z
      let q := qntOne mode (.fin nx mx ex) (.fin ns ms es) z qmax
      q.1 ≤ qmax
      ∧ (∀ k : Nat, k ≤ qmax → t = k → q = (k, 0))
      ∧ (t < -1 → q = (0, 16)) ∧ ((qmax : ℚ) + 1 < t → q = (qmax, 16))
      ∧ (0 ≤ t → t ≤ qmax → |(q.1 : ℚ) - t| < 1 ∧ (mode = .rne ∨ mode = .rna → |(q.1 : ℚ) - t| ≤ 1 / 2)
          ∧ (mode = .rdn ∨ mode = .rtz → (q.1 : ℚ) ≤ t) ∧ (mode = .rup → t ≤ q.1))

/-- R196: GSCALE completes: it widens a range pair by every lane, or with `.FIN` gives the scale and the zero point; the finish
divides hi′ − lo′ by qmax and rounds up, a NaN lane leaves a bound that is a number and makes a NaN bound canonical (R213, R184),
and the example of R196 comes out as the spec prints it. -/
def Sys2Proof.Machine.GroupScaleComputesR196 : Prop :=
  (∀ (s : State) (i : Issue) (v : Inv) (w : GWord) (l r : Opnd), FiresG s i v w → i.l = some l → i.r = some r → i.q = none →
    w.ir = false → l.null = false → r.null = false → w.mf.toNat / 2 % 2 = 0 →
    ((l.val.isVec = false ∨ r.val.isVec = true) → exec (.gscale w) s = .next (s.fault i .gscale .widthMismatch))
    ∧ (l.val.isVec = true → r.val.isVec = false →
      let p := (List.range (512 / w.ty.width)).foldl (fun p k => rangeStep (tyFF w.ty) p (pat w l k))
        (r.val.nat % 2 ^ 32, r.val.nat / 2 ^ 32 % 2 ^ 32, 0)
      SendsFlags .gscale (.gscale w) w s i v (.sc (BitVec.ofNat 64 (p.2.1 * 2 ^ 32 + p.1)))
        ((FF.f32.dec p.1).isNan || (FF.f32.dec p.2.1).isNan) p.2.2))
  ∧ (∀ (s : State) (i : Issue) (v : Inv) (w : GWord) (l : Opnd), FiresG s i v w → TakesL i w l → w.mf.toNat / 2 % 2 = 1 →
    (l.val.isVec = true → exec (.gscale w) s = .next (s.fault i .gscale .widthMismatch))
    ∧ (l.val.isVec = false →
      let g := gscaleFin (l.val.nat % 2 ^ 32) (l.val.nat / 2 ^ 32 % 2 ^ 32) (if w.mf.toNat % 2 = 1 then 15 else 255)
      SendsFlags .gscale (.gscale w) w s i v (.sc (BitVec.ofNat 64 g.1)) false g.2))
  ∧ gscaleFin 0xbfc00000 0x40c00000 15 = (0x33800, 0)
  ∧ (∀ (f : FF) (p : Nat × Nat × Nat) (x : Nat), (f.dec x).isNan = true →
      (rangeStep f p x).1 = (if (FF.f32.dec p.1).isNan then FF.f32.nan else p.1)
      ∧ (rangeStep f p x).2.1 = (if (FF.f32.dec p.2.1).isNan then FF.f32.nan else p.2.1))

/-- R197: MXPACK and MXUNPK complete: MXPACK sends the codes of a block to T0 and its scale byte to T1, and MXUNPK the values of
the codes; the example of R197 comes out as the spec prints it. -/
def Sys2Proof.Machine.BlocksPackAndUnpackR197 : Prop :=
  (∀ (s : State) (i : Issue) (v : Inv) (w : GWord) (l : Opnd), FiresG s i v w → i.l = some l → l.null = false → i.q = none → w.ir = false →
    let m := modeOf v.fctl w.rm
    let code := w.mf.toNat % 4
    let packs (xs : List FV) : Prop :=
      let p := mxPack code m xs
      let o0 : Opnd := { val := joinLanes (if code = 2 then 4 else 8) p.1, ns := p.2.2.2 }
      let o1 : Opnd := { val := .sc (BitVec.ofNat 64 p.2.1), ns := p.2.2.2 }
      (¬ Traps v.fctl p.2.2.1 → exec (.mxpack w) s = .next ((s.addFlags i p.2.2.1).sendBoth i w (gEffect w) i.status o0 o1))
      ∧ (Traps v.fctl p.2.2.1 → exec (.mxpack w) s = .next (s.fault i .mxpack .floatException fun q => { q with aux := p.2.2.1 }))
    (w.ty = .f16 ∨ w.ty = .b16 → i.r = none → l.val.isVec = true → packs ((List.range 32).map fun k => rd w (pat w l k)))
    ∧ (∀ r, w.ty = .f32 → i.r = some r → r.null = false → l.val.isVec = true → r.val.isVec = true →
        packs ((List.range 16).map (fun k => rd w (pat w l k)) ++ (List.range 16).map (fun k => rd w (pat w r k))))
    ∧ (∀ r, isFloat w.ty = true → i.r = some r → r.null = false → l.val.isVec = true → r.val.isVec = false →
        ∃ x ns fl, SendsFlags .mxunpk (.mxunpk w) w s i v x ns fl ∧ x.isVec = true ∧
          let n := 512 / w.ty.width
          let g (k : Nat) := (tyFF w.ty).ofFV m w.sat
            (mxValue code (r.val.nat % 256) (elem (if code = 2 then 4 else 8) (w.imm.imm16 % 2 * n + k) l.val).toNat)
          (∀ k, k < n → elem w.ty.width k x = BitVec.ofNat _ (g k).1) ∧ FlagsOf n (fun k => (g k).2) fl ∧ NanSeen (tyFF w.ty) n x ns))
  ∧ (∀ (code : Nat) (m : RM) (xs : List FV), (∃ x, x ∈ xs ∧ (x.isNan = true ∨ x.isInf = true)) →
      mxPack code m xs = (xs.map fun _ => 0, 0xff, 1, true))
  ∧ (let p := mxPack 0 .rne ([0x40a0, 0x3dcd, 0xbf80].map FF.b16.dec ++ List.replicate 29 (FF.b16.dec 0))
     p.1.take 4 = [0x7a, 0x4d, 0xe8, 0] ∧ p.2.1 = 0x79 ∧ p.2.2.1 = 16)

/-- R198: PACK and UNPACK complete: PACK narrows the integer lanes of L, then those of R, with SAT by clamping, which raises NX;
UNPACK widens one half. -/
def Sys2Proof.Machine.PackAndUnpackR198 : Prop :=
  (∀ (s : State) (i : Issue) (v : Inv) (w : GWord) (l r : Opnd), FiresG s i v w → i.l = some l → i.r = some r → i.q = none →
    w.ir = false → l.null = false → r.null = false → l.val.isVec = true → r.val.isVec = true → isInteger w.ty = true →
    let wd := if w.mf.toNat / 2 % 2 = 1 then 4 else w.ty.width
    let n := 256 / wd
    let src (k : Nat) : Int :=
      let x := if k < n then elem (2 * wd) k l.val else elem (2 * wd) (k - n) r.val
      if w.mf.toNat % 2 = 1 then x.toNat else x.toInt
    let lo : Int := if Ty.signed w.ty then -2 ^ (wd - 1) else 0
    let hi : Int := if Ty.signed w.ty then 2 ^ (wd - 1) - 1 else 2 ^ wd - 1
    w.ty.width ≤ 32 →
    ∃ x fl, SendsFlags .pack (.pack w) w s i v x false fl ∧ x.isVec = true
      ∧ (∀ k, k < 2 * n → elem wd k x = BitVec.ofInt wd (if w.sat = true ∧ src k < lo then lo else if w.sat = true ∧ hi < src k then hi else src k))
      ∧ FlagsOf (2 * n) (fun k => if w.sat = true ∧ (src k < lo ∨ hi < src k) then 16 else 0) fl)
  ∧ (∀ (s : State) (i : Issue) (v : Inv) (w : GWord) (l : Opnd), FiresG s i v w → TakesL i w l → isInteger w.ty = true →
    (l.val.isVec = true →
      let ws := if w.mf.toNat / 2 % 2 = 1 then 4 else w.ty.width / 2
      let n := 512 / w.ty.width
      ws * 2 = w.ty.width →
      ∃ x, Sends (.unpack w) w s i x ∧ x.isVec = true ∧ ∀ k, k < n →
        let y := elem ws (if w.mf.toNat % 2 = 1 then n + k else k) l.val
        elem w.ty.width k x = if Ty.signed w.ty then y.signExtend _ else y.setWidth _)
    ∧ (l.val.isVec = false → exec (.unpack w) s = .next (s.fault i .unpack .widthMismatch)))

/-! ### Vector and mask instructions -/

namespace Sys2Proof.Machine

/-- A vector result given lane by lane. -/
def SendsLanes (ins : Instr) (w : GWord) (s : State) (i : Issue) (g : Nat → BitVec w.ty.width) : Prop :=
  ∃ x, Sends ins w s i x ∧ x.isVec = true ∧ ∀ k, k < 512 / w.ty.width → elem w.ty.width k x = g k

/-- The tree of R219: what step `d` leaves in lane `i`. -/
def treeAt (op : Nat → Nat → Nat) (x : Nat → Nat) : Nat → Nat → Nat
  | 0, i => x i
  | d + 1, i => op (treeAt op x d (2 * i)) (treeAt op x d (2 * i + 1))

/-- The ladder of R219: what step `d` leaves in lane `i`. -/
def ladderAt (op : Nat → Nat → Nat) (x : Nat → Nat) : Nat → Nat → Nat
  | 0, i => x i
  | d + 1, i => if 2 ^ d ≤ i then op (ladderAt op x d (i - 2 ^ d)) (ladderAt op x d i) else ladderAt op x d i

/-- log2 of the number of lanes (R200). -/
def steps (t : Ty) : Nat := if t.width = 8 then 6 else if t.width = 16 then 5 else if t.width = 32 then 4 else 3

/-- A NaN of a float type made canonical (R184). -/
def canonOf (t : Ty) (x : Nat) : Nat :=
  match Ty.ff t with
  | some f => if (f.dec x).isNan then f.nan else x
  | none => x

/-- A scalar result of a type (R182). -/
def scalarResult (t : Ty) (n : Nat) : Val :=
  .sc (if Ty.signed t then (BitVec.ofNat t.width n).signExtend 64 else BitVec.ofNat 64 (n % 2 ^ t.width))

end Sys2Proof.Machine

/-- R217, R218, R223: VBCAST, VBCAST_LANE, VEXT, VINS, VPERM, VSHUF and VSEL complete on operands of the widths that their rows
require (exec answers the next state in which both targets have the result), and fault with "width mismatch" on others; an index
counts modulo the number of lanes. -/
def Sys2Proof.Machine.LaneMovesR217 : Prop :=
  (∀ (s : State) (i : Issue) (v : Inv) (w : GWord) (l : Opnd), FiresG s i v w → TakesL i w l →
    let n := 512 / w.ty.width
    (l.val.isVec = false → SendsLanes (.vbcast w) w s i fun _ => elem w.ty.width 0 l.val)
    ∧ (l.val.isVec = true → exec (.vbcast w) s = .next (s.fault i .vbcast .widthMismatch))
    ∧ (w.mf = 5 → l.val.isVec = true → SendsLanes (.vshuf w) w s i fun k => elem w.ty.width (n - 1 - k) l.val)
    ∧ (w.mf = 5 → l.val.isVec = false → exec (.vshuf w) s = .next (s.fault i .vshuf .widthMismatch)))
  ∧ (∀ (s : State) (i : Issue) (v : Inv) (w : GWord) (l r : Opnd), FiresG s i v w →
    let n := 512 / w.ty.width
    let h := n / 2
    let x (k : Nat) := elem w.ty.width k l.val
    let y (k : Nat) := elem w.ty.width k r.val
    let j := r.val.nat % n
    (TakesLR .vext i w l r →
      (l.val.isVec = true ∧ r.val.isVec = false → Sends (.vext w) w s i (scalarResult w.ty (x j).toNat))
      ∧ (l.val.isVec = false ∨ r.val.isVec = true → exec (.vext w) s = .next (s.fault i .vext .widthMismatch)))
    ∧ (TakesLR .vbcastLane i w l r →
      (l.val.isVec = true ∧ r.val.isVec = false → SendsLanes (.vbcastLane w) w s i fun _ => x j)
      ∧ (l.val.isVec = false ∨ r.val.isVec = true → exec (.vbcastLane w) s = .next (s.fault i .vbcastLane .widthMismatch)))
    ∧ (TakesLR .vperm i w l r →
      (l.val.isVec = true ∧ r.val.isVec = true → SendsLanes (.vperm w) w s i fun k => x ((y k).toNat % n))
      ∧ (l.val.isVec = false ∨ r.val.isVec = false → exec (.vperm w) s = .next (s.fault i .vperm .widthMismatch)))
    ∧ (TakesLR .vshuf i w l r → w.mf.toNat ≤ 4 →
      (l.val.isVec = true ∧ r.val.isVec = true →
        (w.mf = 0 → SendsLanes (.vshuf w) w s i fun k => if k % 2 = 0 then x (k / 2) else y (k / 2))
        ∧ (w.mf = 1 → SendsLanes (.vshuf w) w s i fun k => if k % 2 = 0 then x (h + k / 2) else y (h + k / 2))
        ∧ (w.mf = 2 → SendsLanes (.vshuf w) w s i fun k => if k < h then x (2 * k) else y (2 * (k - h)))
        ∧ (w.mf = 3 → SendsLanes (.vshuf w) w s i fun k => if k < h then x (2 * k + 1) else y (2 * (k - h) + 1))
        ∧ (w.mf = 4 → SendsLanes (.vshuf w) w s i fun k =>
            if k + w.imm.imm16 < n then x (k + w.imm.imm16) else y (k + w.imm.imm16 - n)))
      ∧ (l.val.isVec = false ∨ r.val.isVec = false → exec (.vshuf w) s = .next (s.fault i .vshuf .widthMismatch))))
  ∧ (∀ (s : State) (i : Issue) (v : Inv) (w : GWord) (l r q : Opnd), FiresG s i v w →
    let n := 512 / w.ty.width
    (TakesLRQ .vins i w l r q →
      (l.val.isVec = true ∧ r.val.isVec = false ∧ q.val.isVec = false → SendsLanes (.vins w) w s i fun k =>
        if k = r.val.nat % n then elem w.ty.width 0 q.val else elem w.ty.width k l.val)
      ∧ (l.val.isVec = false ∨ r.val.isVec = true ∨ q.val.isVec = true →
        exec (.vins w) s = .next (s.fault i .vins .widthMismatch)))
    ∧ (TakesLRQ .vsel i w l r q →
      (l.val.isVec = true ∧ q.val.isVec = false → SendsLanes (.vsel w) w s i fun k =>
        if q.val.nat.testBit k then elem w.ty.width k l.val else elem w.ty.width k r.val)
      ∧ (l.val.isVec = false ∨ q.val.isVec = true → exec (.vsel w) s = .next (s.fault i .vsel .widthMismatch))))

/-- R219, R220, R221: VRADD, VRMAX, VRMIN and VSCAN complete: VRADD, VRMAX and VRMIN reduce by the one tree and VSCAN by the one
ladder, whatever the type; an integer sum wraps, and with `.W` is exact in 64 bits. -/
def Sys2Proof.Machine.ReductionsFollowTheTreeR219 : Prop :=
  ∀ (s : State) (i : Issue) (v : Inv) (w : GWord) (l : Opnd), FiresG s i v w → TakesL i w l →
    isInteger w.ty = true ∨ isFloat w.ty = true →
    let m := modeOf v.fctl w.rm
    let x (k : Nat) := (elem w.ty.width k l.val).toNat
    let op (k : RedOp) (a b : Nat) := (redOp k w.ty m w.sat a b).1
    let reduced (o : Op) (ins : Instr) (y : Nat) : Prop :=
      ∃ ns fl, SendsFlags o ins w s i v (scalarResult w.ty y) ns fl ∧ (isInteger w.ty = true → fl = 0 ∧ ns = false)
        ∧ (isFloat w.ty = true → NanSeen (tyFF w.ty) 1 (scalarResult w.ty y) ns)
    (l.val.isVec = true → w.mf = 0 → reduced .vradd (.vradd w) (treeAt (op .add) x (steps w.ty) 0))
    ∧ (l.val.isVec = true → reduced .vrmax (.vrmax w) (treeAt (fun a b => (redOp .max w.ty .rne false a b).1) x (steps w.ty) 0)
      ∧ reduced .vrmin (.vrmin w) (treeAt (fun a b => (redOp .min w.ty .rne false a b).1) x (steps w.ty) 0))
    ∧ (l.val.isVec = true → isInteger w.ty = true → w.mf = 1 → Sends (.vradd w) w s i (.sc (BitVec.ofInt 64
        (((List.range (512 / w.ty.width)).map fun k => readAs w.ty (elem w.ty.width k l.val)).sum))))
    ∧ (l.val.isVec = true → w.ty = .f16 ∨ w.ty = .b16 → w.mf = 1 →
        ∃ ns fl, SendsFlags .vradd (.vradd w) w s i v (scalarResult .f32 (treeAt (fun a b => (FF.f32.add m w.sat a b).1)
          (fun k => (FF.f32.ofFV .rne false (rd w (x k))).1) 5 0)) ns fl)
    ∧ (l.val.isVec = true →
        ∃ y ns fl, SendsFlags .vscan (.vscan w) w s i v y ns fl ∧ y.isVec = true ∧ ∀ k, k < 512 / w.ty.width →
          elem w.ty.width k y = BitVec.ofNat _ (canonOf w.ty (ladderAt (fun a b =>
            (redOp (if w.mf = 0 then .add else if w.mf = 1 then .max else .min) w.ty m false a b).1) x (steps w.ty) k)))
    ∧ (l.val.isVec = false →
        exec (.vradd w) s = .next (s.fault i .vradd .widthMismatch) ∧ exec (.vrmax w) s = .next (s.fault i .vrmax .widthMismatch)
        ∧ exec (.vrmin w) s = .next (s.fault i .vrmin .widthMismatch) ∧ exec (.vscan w) s = .next (s.fault i .vscan .widthMismatch))

/-- R222, R223: VDOT and VCMP complete: VDOT sums the products of lanes, exactly for integers and by the tree for floats, and VCMP
compares lane by lane into a mask; a scalar L, and of VDOT a scalar R, faults with "width mismatch". -/
def Sys2Proof.Machine.DotProductsAndLaneComparesR222 : Prop :=
  (∀ (s : State) (i : Issue) (v : Inv) (w : GWord) (l r : Opnd), FiresG s i v w → l.val.isVec = false →
    (TakesLR .vdot i w l r → exec (.vdot w) s = .next (s.fault i .vdot .widthMismatch))
    ∧ (TakesLR .vcmp i w l r → exec (.vcmp w) s = .next (s.fault i .vcmp .widthMismatch)))
  ∧ ∀ (s : State) (i : Issue) (v : Inv) (w : GWord) (l r : Opnd), FiresG s i v w → l.val.isVec = true →
    let n := 512 / w.ty.width
    let m := modeOf v.fctl w.rm
    let x (k : Nat) := elem w.ty.width k l.val
    let y (k : Nat) := elem w.ty.width k r.val
    (TakesLR .vdot i w l r → r.val.isVec = true → isInteger w.ty = true → Sends (.vdot w) w s i (.sc (BitVec.ofInt 64
      ((List.range n).map fun k => readAs w.ty (x k) * readAs w.ty (y k)).sum)))
    ∧ (TakesLR .vdot i w l r → r.val.isVec = true → (Ty.ff w.ty).isSome = true →
      let g : FF := if w.ty = .f64 then .f64 else .f32
      ∃ ns fl, SendsFlags .vdot (.vdot w) w s i v (scalarResult (if w.ty = .f64 then .f64 else .f32)
        (treeAt (fun a b => (g.add m w.sat a b).1)
          (fun k => (g.ofFV m w.sat (fvMul (rd w (x k).toNat) (rd w (y k).toNat)).1).1) (steps w.ty) 0)) ns fl)
    ∧ (TakesLR .vdot i w l r → r.val.isVec = false → exec (.vdot w) s = .next (s.fault i .vdot .widthMismatch))
    ∧ (TakesLR .vcmp i w l r → isInteger w.ty = true →
      ∃ z, Sends (.vcmp w) w s i (.sc z) ∧ (∀ k, n ≤ k → z.getLsbD k = false) ∧ ∀ k, k < n →
        (z.getLsbD k = true ↔
          if w.mf = 0 then x k = y k else if w.mf = 1 then x k ≠ y k
          else if w.mf = 2 then readAs w.ty (x k) < readAs w.ty (y k) else readAs w.ty (x k) ≤ readAs w.ty (y k)))
    ∧ (TakesLR .vcmp i w l r → isFloat w.ty = true →
      let a (k : Nat) := rd w (x k).toNat
      let b (k : Nat) := rd w (y k).toNat
      let un (k : Nat) : Prop := (a k).isNan = true ∨ (b k).isNan = true
      ∃ z fl, SendsFlags .vcmp (.vcmp w) w s i v (.sc z) false fl ∧ (∀ k, n ≤ k → z.getLsbD k = false) ∧ (∀ k, k < n →
        (z.getLsbD k = true ↔
          if w.mf = 0 then ¬ un k ∧ fvLt (a k) (b k) = false ∧ fvLt (b k) (a k) = false
          else if w.mf = 1 then un k ∨ fvLt (a k) (b k) = true ∨ fvLt (b k) (a k) = true
          else if w.mf = 2 then ¬ un k ∧ fvLt (a k) (b k) = true
          else if w.mf = 3 then ¬ un k ∧ fvLt (b k) (a k) = false else un k))
        ∧ FlagsOf n (fun k => if (a k).isSig || (b k).isSig || ((w.mf = 2 || w.mf = 3) && ((a k).isNan || (b k).isNan)) then 1 else 0) fl)

/-- R224, R225: MAND, MOR, MXOR, MNOT, MPOPC, MFFS, MBIT and MTST complete on 64-bit scalars, and a vector operand faults with
"width mismatch". -/
def Sys2Proof.Machine.MaskOperationsR225 : Prop :=
  (∀ (s : State) (i : Issue) (v : Inv) (w : GWord) (l r : Opnd) (a b : W64), FiresG s i v w → l.val = .sc a → r.val = .sc b →
    (TakesLR .mand i w l r → Sends (.mand w) w s i (.sc (a &&& b)))
    ∧ (TakesLR .mor i w l r → Sends (.mor w) w s i (.sc (a ||| b)))
    ∧ (TakesLR .mxor i w l r → Sends (.mxor w) w s i (.sc (a ^^^ b)))
    ∧ (TakesLR .mtst i w l r → Sends (.mtst w) w s i (.sc (if a &&& b = 0 then 0 else 1)))
    ∧ (TakesLR .mbit i w l r →
      let j := b.toNat % 64
      (w.mf = 0 → Sends (.mbit w) w s i (.sc (if a.getLsbD j then 1 else 0)))
      ∧ (w.mf = 1 → Sends (.mbit w) w s i (.sc (a ||| 1 <<< j)))
      ∧ (w.mf = 2 → Sends (.mbit w) w s i (.sc (a &&& ~~~((1 : W64) <<< j))))
      ∧ (w.mf = 3 → Sends (.mbit w) w s i (.sc (a ^^^ 1 <<< j)))))
  ∧ (∀ (s : State) (i : Issue) (v : Inv) (w : GWord) (l : Opnd) (a : W64), FiresG s i v w → TakesL i w l → l.val = .sc a →
    Sends (.mnot w) w s i (.sc (~~~a))
    ∧ Sends (.mpopc w) w s i (.sc (BitVec.ofNat 64 (((List.range 64).filter fun j => a.getLsbD j).length)))
    ∧ ∃ k, Sends (.mffs w) w s i (.sc (BitVec.ofNat 64 k)) ∧ k ≤ 64 ∧ (∀ j, j < k → a.getLsbD j = false)
      ∧ (k < 64 → a.getLsbD k = true))
  ∧ (∀ (s : State) (i : Issue) (v : Inv) (w : GWord) (l : Opnd) (op : Op) (ins : GWord → Instr),
      (op, ins) ∈ [(.mnot, Instr.mnot), (.mpopc, .mpopc), (.mffs, .mffs)] →
      FiresG s i v w → TakesL i w l → l.val.isVec = true → exec (ins w) s = .next (s.fault i op .widthMismatch))
  ∧ ∀ (s : State) (i : Issue) (v : Inv) (w : GWord) (l r : Opnd) (op : Op) (ins : GWord → Instr),
      (op, ins) ∈ [(.mand, Instr.mand), (.mor, .mor), (.mxor, .mxor), (.mtst, .mtst), (.mbit, .mbit)] →
      FiresG s i v w → TakesLR op i w l r → (l.val.isVec || r.val.isVec) = true → exec (ins w) s = .next (s.fault i op .widthMismatch)

/-! ### Predicates, nulls and status bits -/

namespace Sys2Proof.Machine

/-- The instructions that compute one result from their data operands, and take nulls as R44 says. -/
def computing : List (Op × (GWord → Instr)) :=
  [(.add, .add), (.sub, .sub), (.mul, .mul), (.mulh, .mulh), (.mulhn, .mulhn), (.div, .div), (.divn, .divn), (.rem, .rem),
   (.remn, .remn), (.adds, .adds), (.subs, .subs), (.madd, .madd), (.and, .and), (.or, .or), (.xor, .xor), (.andn, .andn),
   (.shl, .shl), (.shr, .shr), (.sar, .sar), (.rot, .rot), (.min, .min), (.max, .max), (.abs, .abs), (.neg, .neg),
   (.clz, .clz), (.ctz, .ctz), (.popc, .popc), (.sext, .sext), (.zext, .zext), (.lea, .lea), (.ceq, .ceq), (.cne, .cne),
   (.clt, .clt), (.cle, .cle), (.cltn, .cltn), (.clen, .clen), (.fadd, .fadd), (.fsub, .fsub), (.fmul, .fmul), (.fma, .fma),
   (.fnma, .fnma), (.fdiv, .fdiv), (.fsqrt, .fsqrt), (.frsq, .frsq), (.frcp, .frcp), (.fexp2, .fexp2), (.flog2, .flog2),
   (.fmin, .fmin), (.fmax, .fmax), (.fabs, .fabs), (.fneg, .fneg), (.fsgn, .fsgn), (.fclass, .fclass), (.fscale, .fscale),
   (.fceq, .fceq), (.fclt, .fclt), (.fcle, .fcle), (.fcun, .fcun), (.fcvt, .fcvt), (.icvtf, .icvtf), (.fcvti, .fcvti),
   (.qnt, .qnt), (.dqnt, .dqnt), (.gscale, .gscale), (.mxpack, .mxpack), (.mxunpk, .mxunpk), (.pack, .pack),
   (.unpack, .unpack), (.vbcast, .vbcast), (.vbcastLane, .vbcastLane), (.vext, .vext), (.vins, .vins), (.vperm, .vperm),
   (.vshuf, .vshuf), (.vradd, .vradd), (.vrmax, .vrmax), (.vrmin, .vrmin), (.vscan, .vscan), (.vdot, .vdot), (.vsel, .vsel),
   (.vcmp, .vcmp), (.mand, .mand), (.mor, .mor), (.mxor, .mxor), (.mnot, .mnot), (.mpopc, .mpopc), (.mffs, .mffs),
   (.mbit, .mbit), (.mtst, .mtst), (.pand, .pand), (.por, .por), (.pxor, .pxor), (.pnot, .pnot)]

/-- One of the data operands that the instruction takes is a null token. -/
def someNull (i : Issue) (w : GWord) : Bool := isNull i.l || (!w.ir && isNull i.r) || isNull i.q

/-- The identities of an instruction for its L and its R operand, under a type (R202, R204, R210, R224). -/
def identities (w : GWord) : List (Instr × Val × Val) :=
  let t := w.ty
  let int (z : Int) : Val := .sc (BitVec.ofNat 64 (BitVec.ofInt t.width z).toNat)
  let bits (z : Nat) : Val := .sc (BitVec.ofNat 64 z)
  let f := tyFF t
  [(.add w, int 0, int 0), (.sub w, int 0, int 0), (.adds w, int 0, int 0), (.subs w, int 0, int 0), (.mul w, int 1, int 1),
   (.and w, int (-1), int (-1)), (.or w, int 0, int 0), (.xor w, int 0, int 0), (.min w, int (largest t), int (largest t)),
   (.max w, int (smallest t), int (smallest t)), (.fadd w, bits (2 ^ (f.width - 1)), bits (2 ^ (f.width - 1))),
   (.fsub w, bits (2 ^ (f.width - 1)), bits 0), (.fmul w, bits (f.bias * 2 ^ f.mb), bits (f.bias * 2 ^ f.mb)),
   (.fmin w, bits ((2 ^ f.eb - 1) * 2 ^ f.mb), bits ((2 ^ f.eb - 1) * 2 ^ f.mb)),
   (.fmax w, bits (2 ^ (f.width - 1) + (2 ^ f.eb - 1) * 2 ^ f.mb), bits (2 ^ (f.width - 1) + (2 ^ f.eb - 1) * 2 ^ f.mb)),
   (.mand w, bits (2 ^ 64 - 1), bits (2 ^ 64 - 1)), (.mor w, bits 0, bits 0), (.mxor w, bits 0, bits 0),
   (.pand w, bits 1, bits 1), (.por w, bits 0, bits 0), (.pxor w, bits 0, bits 0)]

end Sys2Proof.Machine

/-- R43, R44, R29: an instruction whose predicate does not match absorbs its operands; a null operand passes a null to each
target, or is absorbed; an error operand on an instruction that sends to a queue faults with "error operand". -/
def Sys2Proof.Machine.PredicatesNullsAndErrorsR44 : Prop :=
  ∀ (s : State) (i : Issue) (v : Inv) (w : GWord) (op : Op) (ins : GWord → Instr), (op, ins) ∈ computing → Issues s i v →
    (predHolds w.prd i = false → exec (ins w) s = .next (s.absorb i (gEffect w)))
    ∧ (predHolds w.prd i = true → someNull i w = true → w.nm = .absorb → exec (ins w) s = .next (s.absorb i (gEffect w)))
    ∧ (predHolds w.prd i = true → (someNull i w = true → w.nm ≠ .absorb) → gEffect w = true → i.status.er = true →
      exec (ins w) s = .next (s.fault i op .errorOperand))
    ∧ (FiresG s i v w → someNull i w = true → w.nm = .pass →
      let o : Opnd := { null := true, ns := i.status.ns, em := i.status.em, er := i.status.er }
      exec (ins w) s = .next (s.sendBoth i w (gEffect w) {} o o))

/-- R44, R202: under null mode identity an operand that is null counts as the identity that the instruction's row names, and
keeps its status bits; with every data operand null the result is a null token. -/
def Sys2Proof.Machine.IdentitiesReplaceNullsR202 : Prop :=
  ∀ (s t : State) (i : Issue) (v : Inv) (w : GWord) (ins : Instr) (idL idR : Val) (l r : Opnd), (ins, idL, idR) ∈ identities w →
    FiresG s i v w → i.l = some l → i.q = none → w.nm = .identity →
    let with_ (j : Issue) : State := { s with sched := { s.sched with cur := some j } }
    (w.ir = false → i.r = some r → l.null = true → r.null = false →
      exec ins (with_ { i with l := some { l with null := false, val := idL } }) = .next t → exec ins s = .next { t with sched := s.sched })
    ∧ (w.ir = true → i.r = none → l.null = true →
      exec ins (with_ { i with l := some { l with null := false, val := idL } }) = .next t → exec ins s = .next { t with sched := s.sched })
    ∧ (w.ir = false → i.r = some r → l.null = false → r.null = true →
      exec ins (with_ { i with r := some { r with null := false, val := idR } }) = .next t → exec ins s = .next { t with sched := s.sched })
    ∧ (w.ir = false → i.r = some r → l.null = true → r.null = true →
      let o : Opnd := { null := true, ns := i.status.ns, em := i.status.em, er := i.status.er }
      exec ins s = .next (s.sendBoth i w (gEffect w) {} o o))

/-! ### Reduction elements -/

namespace Sys2Proof.Machine

/-- What a folding element does with a contribution (R252, R189): from the running value it continues, `F` gives the new one and
the flags; at the end of the group `out` is sent, or a null token when nothing contributed. -/
def FoldsInto (op : Op) (ins : Instr) (w : GWord) (s : State) (i : Issue) (v : Inv) (prev : Option Nat) (last : Bool)
    (F : Red → Except Cause (Red × Nat)) (out : Red → Opnd × Nat) : Prop :=
  match F ((prev.bind fun m => (s.nd i.nk).redAt i.ix m).getD {}) with
  | .error c => exec ins s = .next (s.fault i op c)
  | .ok (r, f) =>
    let sent : Opnd × Nat := if r.any = false ∨ r.nul = true then ({ null := true, ns := r.ns, em := r.em, er := r.er }, 0) else out r
    let fl := if last then f ||| sent.2 else f
    (Traps v.fctl fl → exec ins s = .next (s.fault i op .floatException fun p => { p with aux := fl }))
    ∧ (¬ Traps v.fctl fl →
      let u := (s.setRed i.nk i.ix v.n r).addFlags i fl
      exec ins s = .next (if last then u.sendBoth i w false { ns := r.ns, em := r.em, er := r.er } sent.1 sent.1 else u))

/-- Status bits join the running value (R29). -/
def joined (i : Issue) (r : Red) : Red := { r with ns := r.ns || i.status.ns, em := r.em || i.status.em, er := r.er || i.status.er }

/-- How a folding element takes a contribution on L (R252, R255): it waits until the folds before it are done; then `F` folds an
operand, with `isId` for an identity, a skipped contribution leaves the running value, and a null one makes the result null.
`idn` is the identity that mode identity puts in place of a null. -/
def Folds (op : Op) (ins : Instr) (w : GWord) (s : State) (i : Issue) (v : Inv) (l : Opnd) (waits : List Nat) (prev : Option Nat)
    (last : Bool) (idn : Option Val) (F : Val → Bool → Red → Except Cause (Red × Nat)) (out : Red → Opnd × Nat) : Prop :=
  let ready := ∀ m ∈ waits, ((s.nd i.nk).redAt i.ix m).isSome = true
  (¬ ready → exec ins s = .next s.waits)
  ∧ (ready → predHolds w.prd i = true → l.null = false → FoldsInto op ins w s i v prev last (F l.val false) out)
  ∧ (ready → predHolds w.prd i = false ∨ (l.null = true ∧ w.nm = .absorb) →
    FoldsInto op ins w s i v prev last (fun r => .ok (r, 0)) out)
  ∧ (ready → predHolds w.prd i = true → l.null = true → w.nm = .pass ∨ (w.nm = .identity ∧ idn = none) →
    FoldsInto op ins w s i v prev last (fun r => .ok (joined i { r with any := true, nul := true }, 0)) out)
  ∧ (∀ x, ready → predHolds w.prd i = true → l.null = true → w.nm = .identity → idn = some x →
    FoldsInto op ins w s i v prev last (F x true) out)

/-- The result that RADD, RMAX and RMIN send: the running value, its NaNs canonical, a scalar under its type, with NS on a NaN and
NV for a signalling one (R253, R184; log 107). -/
def foldedResult (w : GWord) (r : Red) : Opnd × Nat :=
  let y : Val × Nat := match Ty.ff w.ty with | some f => canonVal f r.v | none => (r.v, 0)
  let o : Opnd := { val := match y.1 with | .sc x => scalarResult w.ty x.toNat | .vec x => .vec x }
  ({ o with ns := match Ty.ff w.ty with | some f => hasNan f o.val | none => false }, y.2)

/-- The fold of RADD, RMAX and RMIN on a contribution; `isId` says that it is the identity, which suits either width
(R252, R253, R255). -/
def foldValue (k : RedOp) (w : GWord) (m : RM) (i : Issue) (x : Val) (isId : Bool) (r : Red) : Except Cause (Red × Nat) :=
  if isId = false ∧ r.idn = false ∧ r.v.isVec ≠ x.isVec then .error .widthMismatch
  else if r.nul = true ∨ r.any = false then
    .ok (joined i { r with any := true, idn := r.idn && isId, v := if isId = true ∧ r.any = true then r.v else x }, 0)
  else
    let y := asOperands w.ty { val := r.v } { val := x } {} true false fun a b _ => redOp k w.ty m w.sat a b
    let nan := match Ty.ff w.ty with | some f => hasNan f y.1 | none => false
    .ok (joined i { r with idn := r.idn && isId, v := y.1, ns := r.ns || nan }, y.2)

/-- The identities of RADD, RMAX and RMIN (R253). -/
def foldIdentity (k : RedOp) (t : Ty) : Val :=
  match Ty.ff t, k with
  | some f, .add => .sc (BitVec.ofNat 64 (2 ^ (f.width - 1)))
  | some f, .max => .sc (BitVec.ofNat 64 (2 ^ (f.width - 1) + (2 ^ f.eb - 1) * 2 ^ f.mb))
  | some f, .min => .sc (BitVec.ofNat 64 ((2 ^ f.eb - 1) * 2 ^ f.mb))
  | none, .add => .sc 0
  | none, .max => .sc (BitVec.ofInt 64 (smallest t))
  | none, .min => .sc (BitVec.ofInt 64 (largest t))

/-- The iteration before `n`. -/
def before (n k : Nat) : Nat := (n + 2 ^ 32 - k) % 2 ^ 32

end Sys2Proof.Machine

/-- R252, R253, R255: RADD, RMAX and RMIN complete: they fold the contributions of a group in tag order: an iteration waits for
the fold before it, continues its running value, and the last of a group sends; a skipped contribution leaves the value, and under
mode pass a null contribution makes the result a null token. -/
def Sys2Proof.Machine.ReductionsFoldInTagOrderR252 : Prop :=
  ∀ (s : State) (i : Issue) (v : Inv) (w : GWord) (l : Opnd) (op : Op) (ins : GWord → Instr) (k : RedOp),
    (op, ins, k) ∈ [(.radd, .radd, .add), (.rmax, .rmax, .max), (.rmin, .rmin, .min)] → Issues s i v → i.l = some l →
    isInteger w.ty = true ∨ isFloat w.ty = true →
    let c := w.imm.imm16
    Folds op (ins w) w s i v l (if v.n % c = 0 then [] else [before v.n 1]) (if v.n % c = 0 then none else some (before v.n 1))
      (decide (v.n % c = c - 1)) (some (foldIdentity k w.ty)) (foldValue k w (modeOf v.fctl w.rm) i) (foldedResult w)

/-- R254: RJOIN completes: it puts contribution j of a group into lane j, or with TY MASK its bit 0 into bit j. -/
def Sys2Proof.Machine.JoinsFillTheirLanesR254 : Prop :=
  ∀ (s : State) (i : Issue) (v : Inv) (w : GWord) (l : Opnd), Issues s i v → i.l = some l →
    let c := w.imm.imm16
    let j := v.n % c
    let wd := if w.ty = .mask then 1 else w.ty.width
    Folds .rjoin (.rjoin w) w s i v l (if j = 0 then [] else [before v.n 1]) (if j = 0 then none else some (before v.n 1))
      (decide (j = c - 1)) none
      (fun x _ r => if x.isVec then .error .widthMismatch
        else
          let a := r.v.nat + x.nat % 2 ^ wd * 2 ^ (wd * j)
          .ok (joined i { r with any := true, v := if w.ty = .mask then .sc (BitVec.ofNat 64 a) else .vec (BitVec.ofNat 512 a) }, 0))
      (fun r => ({ val := r.v }, 0))

/-- R281, R282, R283: KMERGE completes: it folds chunk c of partial j into the running chunk of the partial before it, once the
folds of the iteration before and of that partial are done, or with `.TOPK` into the group's list, and sends the merged chunk with
the last partial. -/
def Sys2Proof.Machine.PartialsMergeR281 : Prop :=
  (∀ (s : State) (i : Issue) (v : Inv) (w : GWord) (l : Opnd), Issues s i v → i.l = some l →
    let c := w.imm.imm16 % 256
    let nc := w.imm.imm16 / 256 % 256
    let j := v.n / nc % c
    (w.mf = 0 →
      Folds .kmerge (.kmerge w) w s i v l (if j = 0 then [] else [before v.n 1, before v.n nc])
        (if j = 0 then none else some (before v.n nc)) (decide (j = c - 1)) none
        (fun y _ r => if y.isVec = false then .error .widthMismatch
          else if r.nul then .ok (joined i r, 0)
          else
            let x := chunkLanes y
            let nan := (FF.f32.dec (x.getD 14 0)).isNan
            let x := if nan then x.set 14 0xff800000 else x
            let z := if r.any then mergeDense (chunkLanes r.v) x else (x, 0)
            .ok (joined i { r with any := true, v := joinLanes 32 z.1, ns := r.ns || nan }, z.2))
        (fun r =>
          let xs := chunkLanes r.v
          let zero := (FF.f32.dec (xs.getD 15 0)).isZero
          let os := (List.range 14).map fun k => if zero then (0, 0) else
            let q := fvDiv (FF.f32.dec (xs.getD k 0)) (FF.f32.dec (xs.getD 15 0))
            let z := FF.f32.ofFV .rne false q.1
            (z.1, q.2 ||| z.2)
          let l15 := if (FF.f32.dec (xs.getD 15 0)).isNan then FF.f32.nan else xs.getD 15 0
          let y := joinLanes 32 (os.map (·.1) ++ [xs.getD 14 0, l15])
          ({ val := y, em := zero, ns := hasNan .f32 y }, os.foldl (fun a o => a ||| o.2) 0)))
    ∧ (w.mf ≠ 0 →
      let first := v.n % (c * nc) = 0
      Folds .kmerge (.kmerge w) w s i v l (if first then [] else [before v.n 1]) (if first then none else some (before v.n 1))
        (decide (j = c - 1)) none
        (fun y _ r => if y.isVec = false then .error .widthMismatch
          else
            let es := (List.range 8).map fun e => ((elem 64 e y).toNat / 2 ^ 32, (elem 64 e y).toNat % 2 ^ 32)
            let start := if r.list = [] then List.replicate (8 * nc) (0xff800000, 0xffffffff) else r.list
            .ok (joined i { r with any := true, list := (es.foldl (fun a x => insertRank x a) start).take (8 * nc) }, 0))
        (fun r => ({ val := joinLanes 64 ((List.range 8).map fun e =>
          let x := r.list.getD (8 * (v.n % nc) + e) (0xff800000, 0xffffffff)
          x.1 * 2 ^ 32 + x.2) }, 0))))
  ∧ (∀ run inc, (FF.f32.minMax true (run.getD 14 0) (inc.getD 14 0)).1 = 0xff800000 → (mergeDense run inc).1 = run)
  ∧ (let z := List.replicate 12 0
     (mergeDense ([0x40400000, 0x3f800000] ++ z ++ [0x40400000, 0x3fc00000]) ([0x40100000, 0x3fa00000] ++ z ++ [0x40a00000, 0x3f900000])).1
      = [0x40400000, 0x3fc00000] ++ z ++ [0x40a00000, 0x3fc00000])

/-! ### Barriers -/

/-- R136, R137, R138: BAR, BARA and BARW complete: BAR and BARA wait until they may arrive, then send the arrival to the sync unit
of the lowest cluster of the group; BAR and BARW wait for the episode; a null L is absorbed; a cluster outside the group, or a
scope that does not hold the group, faults. -/
def Sys2Proof.Machine.BarriersArriveAndWaitR137 : Prop :=
  ∀ (s : State) (i : Issue) (v : Inv) (w : GWord) (l : Opnd), Issues s i v → i.l = some l →
    let grp := w.imm.imm16 % 256
    let g := s.group i.nk grp
    let inScope := ∀ d, d ∈ g → scopeHas (if w.mf = 1 then .cl else if w.mf = 2 then .di else if w.mf = 3 then .pk else .sy) i.c d = true
    let episode := (Tab.get ({} : Episode) (s.cl (g.foldl min 255)).episodes grp).num
    let may := (s.nd i.nk).oldest v.age = true ∧ ∀ a, a ∈ (s.nd i.nk).mif → a.writes = true → a.held = true ∨ a.done = true ∨ a.age = v.age
    let arrival : Parcel := { src := i.c, dst := g.foldl min 255, cls := 3, part := (s.nd i.nk).part
                              body := .arrive (g.foldl min 255) grp (w.imm.imm16 / 256 % 256) i.nk v.n i.ix v.age }
    let noted := (s.modNd i.nk fun n => { n with barLast := Tab.put n.barLast grp ((v.age, i.ix), none) }).post arrival
    let wait (a : Nat × Nat) (e : Option Nat) : BarWait :=
      { grp := grp, ix := i.ix, n := v.n, ws := v.ws, age := v.age, t0 := w.t0, t1 := w.t1
        o := { ns := i.status.ns, em := i.status.em, er := i.status.er }, arr := a, ep := e }
    let waiting (u : State) (a : Nat × Nat) (e : Option Nat) : State := u.modNd i.nk fun n => { n with barWait := n.barWait ++ [wait a e] }
    let sendTo (u : State) (t : Target) (o : Opnd) : State := match t with
      | .slot ix pt => u.sendSlot (i.nk / 8) (i.nk % 8) ix.toNat v.ws (v.n % 65536) pt .data o
      | _ => u
    (predHolds w.prd i = false ∨ l.null = true → exec (.bar w) s = .next s ∧ exec (.bara w) s = .next s ∧ exec (.barw w) s = .next s)
    ∧ (predHolds w.prd i = true → l.null = false →
      (i.c ∉ g → exec (.bar w) s = .next (s.fault i .bar .barrierMismatch) ∧ exec (.bara w) s = .next (s.fault i .bara .barrierMismatch)
        ∧ exec (.barw w) s = .next (s.fault i .barw .barrierMismatch))
      ∧ (i.c ∈ g → ¬ inScope → exec (.bar w) s = .next (s.fault i .bar .syncScope) ∧ exec (.bara w) s = .next (s.fault i .bara .syncScope)
        ∧ exec (.barw w) s = .next (s.fault i .barw .syncScope))
      ∧ (i.c ∈ g → inScope →
        (¬ may → exec (.bar w) s = .next s.waits ∧ exec (.bara w) s = .next s.waits)
        ∧ (may → exec (.bara w) s = .next noted ∧ exec (.bar w) s = .next (waiting noted (v.age, i.ix) none))
        ∧ (Tab.find (s.nd i.nk).barLast grp = none → exec (.barw w) s = .next (waiting s (0, 0) (some episode)))
        ∧ (∀ a, Tab.find (s.nd i.nk).barLast grp = some (a, none) → exec (.barw w) s = .next (waiting s a none))
        ∧ (∀ a e, Tab.find (s.nd i.nk).barLast grp = some (a, some e) → episode ≤ e →
          exec (.barw w) s = .next (waiting s a (some e)))
        ∧ (∀ a e, Tab.find (s.nd i.nk).barLast grp = some (a, some e) → e < episode →
          let o : Opnd := { (wait a (some e)).o with val := .sc (BitVec.ofNat 64 e) }
          exec (.barw w) s = .next (sendTo (sendTo s w.t0 o) w.t1 o))))

/-! ### Memory instructions -/

namespace Sys2Proof.Machine

/-- The M instructions that join the wave chain (R98, R126): all but LDRGN. -/
def memoryOps : List (Op × (MWord → Instr)) :=
  [(.ld, .ld), (.st, .st), (.ldv, .ldv), (.stv, .stv), (.gath, .gath), (.scat, .scat), (.aadd, .aadd), (.amin, .amin),
   (.amax, .amax), (.aand, .aand), (.aor, .aor), (.axor, .axor), (.axchg, .axchg), (.acas, .acas), (.afadd, .afadd),
   (.bred, .bred), (.bupd, .bupd), (.mnop, .mnop), (.acq, .acq), (.rel, .rel), (.fence, .fence), (.seminc, .seminc),
   (.semwait, .semwait), (.semrd, .semrd), (.sbwait, .sbwait), (.tgive, .tgive), (.ttake, .ttake)]

/-- What the chain entry of an instruction records of the instruction and its invocation (R88). -/
structure Records (s : State) (i : Issue) (v : Inv) (ins : Instr) (w : MWord) (a : Acc) : Prop where
  id : a.id = (s.nd i.nk).accNext
  inv : a.n = v.n ∧ a.ws = v.ws ∧ a.age = v.age ∧ a.ix = i.ix ∧ a.gn = (s.nd i.nk).gn
  links : a.seq = w.seq.toNat ∧ a.prev = w.prev.toNat ∧ a.next = w.next.toNat
  operands : a.instr = ins ∧ a.l = i.l ∧ a.r = i.r ∧ a.q = i.q
  status : a.ns = i.status.ns ∧ a.em = i.status.em ∧ a.er = i.status.er

/-- A done token of an access on its way to the entry of element DT (R94). -/
def doneParcel (s : State) (nk : Nat) (a : Acc) : Parcel :=
  { src := nk / 8, dst := nk / 8, cls := 3, part := (s.nd nk).part, body := .done nk a.ws (a.n % 65536) a.gn a.w.dt.toNat }

/-- The done token is sent, or there is none: DT is the element itself (R94). -/
def GivesDone (s t : State) (nk : Nat) (a : Acc) : Prop :=
  t.inbox = if a.w.dt.toNat = a.ix then s.inbox else s.inbox ++ [doneParcel s nk a]

/-- The result of an access as a token at T0 (R59, R98). -/
structure ReplyToken (nk : Nat) (a : Acc) (ix : BitVec 7) (pt : Port) (er : Bool) (v : Val) (k : Tok) : Prop where
  place : k.pl = nk % 8 ∧ k.ix = ix.toNat ∧ k.pt = pt ∧ k.ws = a.ws ∧ k.it = a.n % 65536 ∧ k.gn = a.gn
  data : pt ≠ .p → k.kd = .reply ∧ k.o = { val := v, ns := a.ns, em := a.em, er := er }
  pred : pt = .p → k.kd = .predicate ∧ k.o = { val := .sc (if v.bit0 then 1 else 0), ns := a.ns, em := a.em, er := er }

/-- T0 takes the result of an access; with no T0 nothing is sent. -/
def RepliesWith (s t : State) (nk : Nat) (a : Acc) (er : Bool) (v : Val) : Prop :=
  (∀ ix pt, a.w.t0 = .slot ix pt → ∃ k, (t.cl (nk / 8)).input = (s.cl (nk / 8)).input ++ [k] ∧ ReplyToken nk a ix pt er v k)
  ∧ (a.w.t0 = .none → (t.cl (nk / 8)).input = (s.cl (nk / 8)).input)

/-- The interface goes on with the access `a` of chain entry `i.k`, before which the accesses `bs` stand. -/
def Proceeds (s : State) (i : Issue) (a : Acc) (bs : List Acc) : Prop :=
  s.sched.cur = some i ∧ i.perform = true ∧ s.accOf i.nk i.k = some a ∧ s.accOpen i.nk a = some bs

/-- The access is performed where it stands: its entry says so, its done token goes, no byte of memory and no system
register changes. -/
def PerformedInPlace (s t : State) (nk : Nat) (a : Acc) : Prop :=
  t.accOf nk a.id = some { a with st := .performed } ∧ GivesDone s t nk a ∧ t.mem = s.mem ∧ t.memx = s.memx ∧ t.sr = s.sr

/-- A message has left for its place: at its own place it is there. -/
def Posted (t : State) (m : Parcel) : Prop := if m.src = m.dst then m ∈ t.inbox else m ∈ Tab.get [] t.ports m.src

end Sys2Proof.Machine

/-- R88, R96, R106: LD, ST, LDV, STV, GATH, SCAT, AADD, AMIN, AMAX, AAND, AOR, AXOR, AXCHG, ACAS, AFADD, BRED, BUPD, MNOP, ACQ,
REL, FENCE, SEMINC, SEMWAIT, SEMRD, SBWAIT, TGIVE and TTAKE complete where they fire: the instruction joins the chain of its
invocation; predicated off or with a null it keeps its place, makes no access and gives its done token at once; one with an effect
is checked, held to the commit and reports; a faulty operand or address faults, and so does a location known to hold an
uncorrectable error. Nothing is read or written yet. -/
def Sys2Proof.Machine.MemoryInstructionsJoinTheChainR106 : Prop :=
  ∀ (s : State) (i : Issue) (v : Inv) (w : MWord) (op : Op) (ins : MWord → Instr), (op, ins) ∈ memoryOps → Issues s i v →
    let nulls := nullIn op i.l i.r i.q
    let eff := opEffect op
    let plain := newAcc s i v (ins w) w false
    (predHolds w.prd i = false ∨ nulls = true →
      ∃ t a, exec (ins w) s = .next t ∧ SameOutside s t ∧ t.clusters = s.clusters ∧ Records s i v (ins w) w a
        ∧ (t.nd i.nk).mif = (s.nd i.nk).mif ++ [a] ∧ a.off = true ∧ a.st = .performed ∧ GivesDone s t i.nk a
        ∧ t.invOf i = some (if eff then { v with reports := v.reports ++ [(i.ix, false)] } else v))
    ∧ (predHolds w.prd i = true → nulls = false →
      (eff = true → i.status.er = true → exec (ins w) s = .next (s.fault i op .errorOperand))
      ∧ (eff = false ∨ i.status.er = false → widthBad op i.l i.r i.q = true →
        exec (ins w) s = .next (s.fault i op .widthMismatch))
      ∧ (eff = false ∨ i.status.er = false → widthBad op i.l i.r i.q = false →
        (∀ c, syncAddrBad s i.nk plain = some c → exec (ins w) s = .next (s.accFault i.nk plain c 0 plain.va))
        ∧ (syncAddrBad s i.nk plain = none →
          (eff = true → plain.returns = false → opAccess op = true →
            (∀ c x, s.accLoc i.nk plain = .bad c x → exec (ins w) s = .next (s.accFault i.nk plain c x plain.va))
            ∧ ∀ ps k, s.accLoc i.nk plain = .piece ps → knownBad s op ps = some k →
              exec (ins w) s = .next (s.accFault i.nk plain .uncorrectableError (memAux s k) plain.va))
          ∧ ((eff = true → plain.returns = false → opAccess op = true →
              (∀ c x, s.accLoc i.nk plain ≠ .bad c x) ∧ ∀ ps, s.accLoc i.nk plain = .piece ps → knownBad s op ps = none) →
            ∃ t a, exec (ins w) s = .next t ∧ (w.asp ≠ .kv → t.mem = s.mem ∧ t.memx = s.memx)
              ∧ Records s i v (ins w) w a ∧ (t.nd i.nk).mif = (s.nd i.nk).mif ++ [a]
              ∧ a.off = false ∧ a.held = (eff && !plain.returns)
              ∧ a.gated = (s.gatedBy i.c i.p i.ix && !(s.nd i.nk).dones.contains (v.ws, v.it, i.ix))
              ∧ (op = .mnop → a.st = .performed ∧ GivesDone s t i.nk a) ∧ (op ≠ .mnop → a.st = .waiting)
              ∧ t.invOf i = some (if eff then { v with reports := v.reports ++ [(i.ix, true)] } else v)))))

/-- R92: LDRGN completes: it declares the region of its descriptor for the streaming element of T0, in this invocation, and sends
it the start token. -/
def Sys2Proof.Machine.LdrgnDeclaresARegionR92 : Prop :=
  ∀ (s : State) (i : Issue) (v : Inv) (w : MWord) (ix : BitVec 7) (pt : Port), Issues s i v → w.t0 = .slot ix pt →
    (predHolds w.prd i = false → exec (.ldrgn w) s = .next s)
    ∧ (predHolds w.prd i = true →
      let base := (nodeReg s i.nk (0x48 + w.sz.toNat % 4)).toNat
      let len := (nodeReg s i.nk (0x4c + w.sz.toNat % 4)).toNat % 2 ^ 32
      ∃ t k, exec (.ldrgn w) s = .next t ∧ SameOutside s t
        ∧ (t.nd i.nk).regs = (s.nd i.nk).regs ++ [(ix.toNat, v.n, w.asp, base, len)]
        ∧ (t.cl i.c).input = (s.cl i.c).input ++ [k] ∧ k.pl = i.p ∧ k.ix = ix.toNat ∧ k.pt = pt ∧ k.ws = i.ws ∧ k.it = i.it)

/-- R90, R91, R96, R97: LD to BUPD complete their second step: an access that its chain place, its gates and its commit allow
leaves the interface: a load, or an atomic with a result once its invocation is the oldest, is located, takes the bytes of earlier
stores of its node, and asks its place for each piece; a write goes as it was located at the commit. -/
def Sys2Proof.Machine.AccessesLeaveTheInterfaceR96 : Prop :=
  ∀ (s : State) (i : Issue) (a : Acc) (bs : List Acc) (w : MWord) (op : Op) (ins : MWord → Instr), (op, ins) ∈ memoryOps →
    a.instr = ins w → Proceeds s i a bs →
    let reads := opLoad op = true ∨ (a.returns = true ∧ (s.nd i.nk).oldest a.age = true)
    let writes := opStore op = true ∨ (opRmw op = true ∧ a.returns = false)
    let asked (t : State) (ps : List Piece) : Prop := ∀ j p, ps[j]? = some p → isRemote p.key = false →
      Posted t { src := i.nk / 8, dst := placeOf p.key, cls := 1, part := (s.nd i.nk).part, n := p.size, rd := opLoad a.op,
                  body := .acc i.nk a.id a.gn j }
    (reads →
      (∀ c x, s.accLoc i.nk a = .bad c x → exec (ins w) s = .next (s.accFault i.nk a c x a.va))
      ∧ ∀ ps f, s.accLoc i.nk a = .piece ps → givenTile i.nk bs a = false → forwards (s.placed i.nk bs) ps = some f → ps ≠ [] →
        ∃ t ah, exec (ins w) s = .next t ∧ t.mem = s.mem ∧ t.memx = s.memx ∧ asked t ps
          ∧ t.accOf i.nk a.id = some { a with st := .sent, kvw := none, loc := ps, left := List.range ps.length, fwdb := f ++ ah }
          ∧ (a.w.mode ≠ .stm → ah = []))
    ∧ (reads → ∀ ps, s.accLoc i.nk a = .piece ps → givenTile i.nk bs a = true →
      exec (ins w) s = .next (s.accFault i.nk a .ownerViolation 0 a.va))
    ∧ (writes → a.loc ≠ [] →
      ∃ t, exec (ins w) s = .next t ∧ t.mem = s.mem ∧ t.memx = s.memx ∧ t.sr = s.sr ∧ asked t a.loc
        ∧ t.accOf i.nk a.id = some { a with st := .sent, left := List.range a.loc.length })

namespace Sys2Proof.Machine

/-- A piece of an access arrives at its place of atomicity, in memory that is not encrypted or was written under the key of
its page, in no tile of the engines, and without an uncorrectable error. -/
structure ArrivesAt (s : State) (m : Parcel) (rest : List Parcel) (nk j : Nat) (a : Acc) (p : Piece) : Prop where
  first : s.inbox = m :: rest
  body : m.body = .acc nk a.id a.gn j
  entry : s.accOf nk a.id = some a
  sent : a.st = .sent
  piece : a.loc[j]? = some p
  near : isRemote p.key = false
  owned : engOwned s p.key = false
  free : keyHeld s p.slot = false
  key : ∀ k, p.slot = some k → Tab.get none s.memx.gkey (granule p.key) = slotMaterial s k
  good : badAt s p.key = false

/-- The new value of an atomic on `b` bytes (R101, R102). -/
def atomicNew (op : Op) (bytes : Nat) (old x y : BitVec (8 * bytes)) : BitVec (8 * bytes) :=
  match op with
  | .aadd => old + x
  | .amin => if old.toInt ≤ x.toInt then old else x
  | .amax => if x.toInt ≤ old.toInt then old else x
  | .aand => old &&& x
  | .aor => old ||| x
  | .axor => old ^^^ x
  | .axchg => x
  | .acas => if old = x then y else old
  | .afadd =>
    let f : FF := if bytes = 2 then .b16 else if bytes = 4 then .f32 else .f64
    BitVec.ofNat _ (f.add .rne false old.toNat x.toNat).1
  | _ => old

end Sys2Proof.Machine

/-- R79, R80, R90, R97, R99: a piece of an access acts at its place (MEMORY_REQUEST_ARRIVAL): a load reads its bytes as they
stand, a store writes its bytes of the data and no others, an atomic without a result writes the new value, and one with a result
reserves the granule and writes nothing yet; a store, or an atomic, waits while another's reservation bars it. (Where no committed
atomic of the node waits for this write: the write would also end that one's reservation.) -/
def Sys2Proof.Machine.AccessesActAtTheirPlaceR99 : Prop :=
  ∀ (s : State) (m : Parcel) (rest : List Parcel) (nk j : Nat) (a : Acc) (p : Piece), ArrivesAt s m rest nk j a p →
    let old := memRead s p.key p.size
    let others (u : State) : Prop := ∀ k, k < p.key ∨ p.key + p.size ≤ k → memGet u k = memGet s k
    (∀ u, (s.picking 0).msgDo m = some u → exec (.memoryRequestArrival 0) s = .next u.kernelsCheck)
    ∧ (opLoad a.op = true → ∃ u, (s.picking 0).msgDo m = some u ∧ u.mem = s.mem
      ∧ ∀ b, u.accOf nk a.id = some b → (p.lane, old) ∈ b.got)
    ∧ (opLoad a.op = false → s.barred nk a.id p.key = true → (s.picking 0).msgDo m = none)
    ∧ (opLoad a.op = false → s.barred nk a.id p.key = false →
      (a.returns = true → ∃ u, (s.picking 0).msgDo m = some u ∧ u.mem = s.mem ∧ (granule p.key, nk, a.id) ∈ u.memx.resv)
      ∧ (a.returns = false → (∀ e, e ∈ (s.nd nk).mif → e.rel = false) → ∃ u, (s.picking 0).msgDo m = some u ∧ others u
        ∧ (opStore a.op = true → memRead u p.key p.size = a.payload / 2 ^ (8 * p.lane) % 2 ^ (8 * p.size))
        ∧ (opRmw a.op = true →
          memRead u p.key p.size = rmwNew a.op p.size old a.payload ((a.q.map (·.val.nat)).getD 0) % 2 ^ (8 * p.size))))

/-- R99, R100, R97: with its last piece an access is complete: a load sends the bytes read, those of the node's earlier stores in
their place; GATH gives each lane its own and 0 to a skipped one; an atomic sends the old value and keeps the new one. -/
def Sys2Proof.Machine.LoadsSendWhatTheyReadR99 : Prop :=
  (∀ (s : State) (m : Parcel) (rest : List Parcel) (nk : Nat) (a : Acc) (p : Piece), ArrivesAt s m rest nk 0 a p → a.loc = [p] →
    a.left = [0] → a.got = [] → p.lane = 0 → p.size ≤ (if a.op = .ldv ∨ a.op = .gath then 64 else 8) → opLoad a.op = true ∨ (a.returns = true ∧ s.barred nk a.id p.key = false) →
    ∃ u x, (s.picking 0).msgDo m = some u ∧ RepliesWith s u nk a a.er x
      ∧ (x.isVec = (a.op = .ldv || a.op = .gath))
      ∧ (∀ b, b < p.size → x.nat / 256 ^ b % 256 =
          (((a.fwdb.reverse.find? fun e => e.1 = b).map (·.2)).getD (memGet s (p.key + b))).toNat)
      ∧ (a.fwdb = [] → x.nat = memRead s p.key p.size % (if x.isVec then 2 ^ 512 else 2 ^ 64))
      ∧ (opLoad a.op = true → ∃ b, u.accOf nk a.id = some b ∧ b.st = .performed)
      ∧ (a.returns = true → ∃ b nw, u.accOf nk a.id = some b ∧ b.st = .reserved ∧ b.newv = some nw
        ∧ (a.fwdb = [] → p.size = szBytes a.w.sz.toNat →
          nw = rmwNew a.op p.size (memRead s p.key p.size) a.payload ((a.q.map (·.val.nat)).getD 0))))
  ∧ ∀ (a : Acc) (bytes : Nat), a.op = .gath → bytes = 4 ∨ bytes = 8 → a.fwdb = [] → (a.got.map (·.1)).Nodup →
    (∀ e, e ∈ a.got → e.2 < 2 ^ (8 * bytes) ∧ ∃ k, k < 64 / bytes ∧ e.1 = k * bytes) →
    ∀ k, k < 64 / bytes → (elem (8 * bytes) k a.value).toNat = (((a.got.find? fun e => e.1 = k * bytes).map (·.2)).getD 0)

/-- R101, R102, R103: the new value of each read-modify-write: AADD to AFADD on their own width, BRED and BUPD by F32 lanes, each
lane rounded once. -/
def Obligations.AtomicsComputeR101 : Prop :=
  (∀ (op : Op) (bytes : Nat) (old x y : BitVec (8 * bytes)), opAtomic op = true → bytes = 2 ∨ bytes = 4 ∨ bytes = 8 →
    ∀ b c : W64, b.setWidth (8 * bytes) = x → c.setWidth (8 * bytes) = y →
    rmwNew op bytes old.toNat b.toNat c.toNat = (atomicNew op bytes old x y).toNat)
  ∧ ∀ (old a b : V512) (bytes : Nat) (k : Nat), bytes = 32 ∨ bytes = 64 → 4 * k < bytes →
    let lane (v : V512) : Nat := (elem 32 k (.vec v)).toNat
    let o := old.toNat % 2 ^ (8 * bytes)
    rmwNew .bred bytes o a.toNat b.toNat / 2 ^ (32 * k) % 2 ^ 32 = (FF.f32.add .rne false (lane old) (lane a)).1
    ∧ rmwNew .bupd bytes o a.toNat b.toNat / 2 ^ (32 * k) % 2 ^ 32
      = (FF.f32.ofFV .rne false (fvFma false (FF.f32.dec (lane a)) (FF.f32.dec (lane old)) (FF.f32.dec (lane b)) .rne).1).1

/-- R128 to R135: ACQ, REL, FENCE, SEMINC, SEMWAIT, SEMRD, SBWAIT, TGIVE and TTAKE once the chain allows them: each completes,
with its result and its done token, or it waits where the rule says; SEMINC and REL set out for their unit; TGIVE stands to the
commit. -/
def Sys2Proof.Machine.SynchronisationCompletesR128 : Prop :=
  ∀ (s : State) (i : Issue) (a : Acc) (bs : List Acc) (w : MWord), Proceeds s i a bs →
    let nk := i.nk
    let amount := ((a.r.map (·.val.nat)).getD 0) % 2 ^ 32
    let sem := a.semAt (nk / 8)
    let value := s.sem sem.1 sem.2
    let sent (t : State) : Prop := t.mem = s.mem ∧ t.memx = s.memx
    (a.instr = .acq w → badAt s (csmKey a.va) = true → exec (.acq w) s = .next (s.accFault nk a .uncorrectableError 2 a.va))
    ∧ (a.instr = .acq w → badAt s (csmKey a.va) = false →
      let rcnt := memRead s (csmKey a.va) 8
      (∀ c, a.bound = none → objCheck s (nk / 8) a.va = some c → exec (.acq w) s = .next (s.accFault nk a c 0 a.va))
      ∧ (a.bound ≠ none ∨ objCheck s (nk / 8) a.va = none → amount ≤ rcnt → ∃ t, exec (.acq w) s = .next t ∧ PerformedInPlace s t nk a
        ∧ RepliesWith s t nk a a.er (.sc (BitVec.ofNat 64 rcnt)))
      ∧ (a.bound = none → objCheck s (nk / 8) a.va = none → rcnt < amount →
        exec (.acq w) s = .next (s.modAcc nk a.id fun e => { e with bound := some (objRegions s a.va) }))
      ∧ (a.bound ≠ none → rcnt < amount → exec (.acq w) s = .next s))
    ∧ (a.instr = .semwait w →
      (amount ≤ value → ∃ t, exec (.semwait w) s = .next t ∧ PerformedInPlace s t nk a
        ∧ RepliesWith s t nk a (a.er || s.semFlag sem.1 sem.2) (.sc (BitVec.ofNat 64 value)))
      ∧ (value < amount → exec (.semwait w) s = .next s))
    ∧ (a.instr = .semrd w → ∃ t, exec (.semrd w) s = .next t ∧ PerformedInPlace s t nk a
      ∧ RepliesWith s t nk a (a.er || s.semFlag sem.1 sem.2) (.sc (BitVec.ofNat 64 value)))
    ∧ (a.instr = .sbwait w → ∃ t, exec (.sbwait w) s = .next t ∧ PerformedInPlace s t nk a ∧ RepliesWith s t nk a a.er (.sc 1))
    ∧ (a.instr = .fence w →
      let met := ∀ b, b ∈ bs → b.st = .performed
        ∨ (if b.age = a.age then opLoad b.op = false ∧ opAtomic b.op = false else opStore b.op = false ∧ opRmw b.op = false)
      ((s.nd nk).oldest a.age = true → met → ∃ t, exec (.fence w) s = .next t ∧ PerformedInPlace s t nk a)
      ∧ ((s.nd nk).oldest a.age = false ∨ ¬ met → exec (.fence w) s = .next s))
    ∧ (a.instr = .ttake w →
      (s.tileFree (nk / 8) a.tile = true → ∃ t, exec (.ttake w) s = .next t ∧ PerformedInPlace s t nk a
        ∧ ∀ k, k ∈ (t.cl (nk / 8)).engTiles ↔ k ∈ (s.cl (nk / 8)).engTiles ∧ k ≠ a.tile)
      ∧ (s.tileFree (nk / 8) a.tile = false → exec (.ttake w) s = .next s))
    ∧ (a.instr = .seminc w →
      (writesMet bs = true → semTurn nk sem bs = true → ∃ t, exec (.seminc w) s = .next t ∧ sent t
        ∧ t.accOf nk a.id = some { a with st := .sent }
        ∧ Posted t { src := nk / 8, dst := sem.1, cls := 3, part := (s.nd nk).part
                     body := .sem sem.1 sem.2 amount (a.w.sz = 1) (some (nk, a.id)) false })
      ∧ (writesMet bs = false ∨ semTurn nk sem bs = false → exec (.seminc w) s = .next s))
    ∧ (a.instr = .rel w → ∃ t cov, exec (.rel w) s = .next t ∧ sent t ∧ t.accOf nk a.id = some { a with st := .sent, cov := cov }
      ∧ Posted t { src := nk / 8, dst := placeOf (csmKey a.va), cls := 1, part := (s.nd nk).part, n := 64, body := .rel nk a.id }
      ∧ (objCheck s (nk / 8) a.va = none → badAt s (csmKey a.va) = false →
        ∀ k, k ∈ cov ↔ ∃ b, b ∈ bs ∧ b.id = k ∧ b.writes = true ∧ b.done = false ∧ ∃ r, r ∈ objRegions s a.va ∧ inRegion r b = true)
      ∧ (objCheck s (nk / 8) a.va ≠ none ∨ badAt s (csmKey a.va) = true → cov = []))
    ∧ (a.instr = .tgive w → exec (.tgive w) s = .next s)

/-- R131, R132, R129, R94: SEMAPHORE_UPDATE, SYNC_OBJECT_INCREMENT and DONE_TOKEN_ARRIVAL, at a sync unit, a sync object and an
interface: an increment saturates, a setting replaces, a REL adds one to RCNT of its object and to nothing else, and a done token
opens the gate of the entry it is for. -/
def Sys2Proof.Machine.SignalsTakeEffectR131 : Prop :=
  ∀ (s : State) (m : Parcel) (rest : List Parcel), s.inbox = m :: rest →
    (∀ (c k amt : Nat) (set : Bool) (acc : Option (Nat × Nat)) (flag : Bool), m.body = .sem c k amt set acc flag →
      m.src < 192 ∨ s.holds c m.part = true → ∃ u, exec (.semaphoreUpdate 0) s = .next u.kernelsCheck ∧ (s.picking 0).msgDo m = some u
        ∧ u.mem = s.mem ∧ u.sem c k = (if set then amt % 2 ^ 32 else min (s.sem c k + amt) 0xffffffff)
        ∧ ∀ d j, d ≠ c ∨ j ≠ k → u.sem d j = s.sem d j)
    ∧ (∀ (nk : Nat) (a : Acc), m.body = .rel nk a.id → s.accOf nk a.id = some a →
      (∀ b, b ∈ (s.nd nk).mif → b.id ∈ a.cov → b.done = true) → reservedBy s (csmKey a.va) nk a.id = false →
      badAt s (csmKey a.va) = false → ∃ u, exec (.syncObjectIncrement 0) s = .next u.kernelsCheck ∧ (s.picking 0).msgDo m = some u
        ∧ memRead u (csmKey a.va) 8 = (memRead s (csmKey a.va) 8 + 1) % 2 ^ 64
        ∧ ∀ k, k < csmKey a.va ∨ csmKey a.va + 8 ≤ k → memGet u k = memGet s k)
    ∧ (∀ (nk ws it gn ix : Nat), m.body = .done nk ws it gn ix →
      ∃ u, exec (.doneTokenArrival 0) s = .next u.kernelsCheck ∧ (s.picking 0).msgDo m = some u ∧ u.mem = s.mem
        ∧ (∀ a, a ∈ (s.nd nk).mif → a.ix = ix → a.ws = ws → a.n % 65536 = it → a.gn = gn → { a with gated := false } ∈ (u.nd nk).mif)
        ∧ (∀ a, a ∈ (s.nd nk).mif → a.ix ≠ ix ∨ a.ws ≠ ws ∨ a.n % 65536 ≠ it ∨ a.gn ≠ gn → a ∈ (u.nd nk).mif))

/-! ### Instructions held to the commit -/

namespace Sys2Proof.Machine

/-- Bits `lo` to `lo + n - 1` of a number are zero. -/
def zeros (v lo n : Nat) : Prop := v / 2 ^ lo % 2 ^ n = 0

/-- The engine instructions of R140 that fire on an operand set: opcode, instruction, ports in use, and whether the operands are
in the ranges of the rules (R150 to R180, R244 to R250, R273 to R280, R308 to R317, R369 to R375); a PSET record that is not
faults for the cause of `engineCause`. -/
def engineOps (w : EWord) (s : State) (i : Issue) (v : Inv) : List (Op × Instr × Ports × Prop) :=
  let L := i.lv
  let R := i.rv
  let Q := i.qv
  let sub (k : Nat) : Bool := w.sub.getLsbD k
  let any : Ports := { l := .any }
  let sc : Ports := { l := .sc }
  let vec : Ports := { l := .vec }
  let scsc : Ports := { l := .sc, r := .sc }
  let all : Ports := { l := .sc, r := .sc, q := .sc }
  let cluster (x : Nat) : Prop := x / 2 ^ 44 % 256 ≤ 191
  let callable (num : Nat) : Prop := (s.callableNum i.nk num).isSome = true
  let nvRange : Prop := zeros L 48 16 ∧ ¬ zeros L 40 8 ∧ (sub 0 = false → zeros R 52 12) ∧ 1 ≤ Q ∧ Q ≤ 65536
  let selector : Prop := zeros L 32 9
  let anywhere (x : Nat) : Prop := cluster x ∨ x / 2 ^ 44 % 256 = 255
  [(.pset, .pset w, vec, patBad i.lvec = false),
   (.copy, .copy w, { l := if sub 0 then .sc else .no, r := if sub 1 then .sc else .no }, True),
   (.copyr, .copyr w, sc, zeros L 24 16 ∧ cluster L ∧ L % 2 ^ 24 % 64 = 0),
   (.tsend, .tsend w, any, True),
   (.rread, .rread w, all, (if sub 0 then L % 2 ^ 40 else L % 2 ^ 52) % 64 = 0 ∧ zeros R 24 16 ∧ cluster R ∧ R % 2 ^ 24 % 64 = 0
     ∧ (sub 1 = true → zeros R 60 4) ∧ 64 ≤ Q ∧ Q ≤ 2 ^ 24 ∧ Q % 64 = 0),
   (.wopen, .wopen w, vec, winBad i.lvec = false), (.wclose, .wclose w, any, True),
   (.flopen, .flopen w, vec, flRecBad i.lvec = false),
   (.flpush, .flpush w, all, L % 2 ^ 40 = 0 ∧ cluster L ∧ 1 ≤ Q ∧ Q < 2 ^ 32),
   (.flfree, .flfree w, any, True), (.flclose, .flclose w, any, True),
   (.kvtab, .kvtab w, vec, kvRecBad i.lvec = false),
   (.kvgath, .kvgath w, scsc, zeros L 0 16 ∧ zeros L 16 4 ∧ 1 ≤ R ∧ R ≤ 256),
   (.kvapp, .kvapp w, scsc, zeros L 0 16 ∧ 1 ≤ R ∧ L / 2 ^ 16 % 16 + R ≤ 16),
   (.kvinv, .kvinv w, scsc, zeros L 28 20 ∧ 1 ≤ R ∧ R < 2 ^ 28),
   (.nvrd, .nvrd w, all, nvRange), (.nvwr, .nvwr w, all, nvRange),
   (.cred, .cred w, any, True), (.cbcast, .cbcast w, sc, True), (.cgath, .cgath w, any, True),
   (.wswap, .wswap w, any, True),
   (.mma, .mma w, sc, 1 ≤ L ∧ L < 2 ^ 32), (.mrecur, .mrecur w, sc, 1 ≤ L ∧ L < 2 ^ 32),
   (.macc, .macc w, any, True), (.mzero, .mzero w, any, True), (.mstat, .mstat w, any, True),
   (.kcfg, .kcfg w, vec, cfgBad i.lvec = false), (.kbias, .kbias w, vec, True), (.kmask, .kmask w, sc, True),
   (.kbind, .kbind w, vec, bindBad i.lvec = false), (.kunbind, .kunbind w, sc, zeros L 6 58),
   (.klife, .klife w, { l := .sc, r := if w.imm.toNat % 4 = 1 then .sc else .no },
     zeros L 6 58 ∧ (w.imm.toNat % 4 = 1 → 1 ≤ R ∧ R < 2 ^ 32)),
   (.kqry, .kqry w, scsc, zeros L 21 43 ∧ zeros L 0 6 ∧ zeros R 41 23), (.kstat, .kstat w, any, True),
   (.launch, .launch w, vec, launchReserved i.lvec = false),
   (.garm, .garm w, scsc, L < 64 ∧ 1 ≤ R ∧ R < 2 ^ 32),
   (.spawn, .spawn w, { l := .sc, r := .any, q := if sub 0 then .any else .no }, L < 2 ^ 11 ∧ callable L),
   (.tret, .tret w, any, v.retHeld = none),
   (.hreg, .hreg w, scsc, R < 2 ^ 18 ∧ callable (R % 2 ^ 11)), (.hregUnreg, .hregUnreg w, scsc, R = 0),
   (.msend, .msend w, { l := .sc, r := .any }, selector ∧ anywhere L), (.msendTrig, .msendTrig w, { l := .sc, r := .any }, True),
   (.mrecv, .mrecv w, sc, selector), (.mprobe, .mprobe w, sc, selector),
   (.nopen, .nopen w, sc, True), (.nclose, .nclose w, sc, L < 4096),
   (.nbind, .nbind w, vec, descBad i.lvec = false ∧ descDel i.lvec = false),
   (.nrebind, .nrebind w, sc, L < 2 ^ 21 ∧ L % 64 = 0), (.nunbind, .nunbind w, sc, True), (.nlook, .nlook w, sc, True)]

/-- The cause of an operand out of range (R144): "bad pattern" of a PSET record, "double return" of a second TRET, "bad destination"
where a cluster number is one that R27 reserves, else "reserved code". -/
def engineCause (op : Op) (i : Issue) : Cause :=
  let reserved (x : Nat) : Bool := 192 ≤ x / 2 ^ 44 % 256 && x / 2 ^ 44 % 256 ≤ 254
  match op with
  | .pset => .badPattern
  | .tret => .doubleReturn
  | .copyr => if reserved i.lv then .badDestination else .reservedCode
  | .rread => if reserved i.rv then .badDestination else .reservedCode
  | .msend => if i.lv / 2 ^ 32 % 2 ^ 9 = 0 ∧ reserved i.lv = true then .badDestination else .reservedCode
  | _ => .reservedCode

/-- What each port in use carries: its token has come. -/
def Ports.present (p : Ports) (i : Issue) : Prop :=
  (p.l ≠ .no → i.l.isSome = true) ∧ (p.r ≠ .no → i.r.isSome = true) ∧ (p.q ≠ .no → i.q.isSome = true)

/-- An instruction is held to the commit with its operands, and reports performed; with a scoreboard token it joins its count
(R39, R143); nothing else happens yet. -/
def HeldTo (ins : Instr) (sbs : Option (BitVec 3)) (s : State) (i : Issue) (v : Inv) : Prop :=
  ∃ t, exec ins s = .next t ∧ SameOutside s t ∧ SameNodes s t i.nk ∧ t.clusters = s.clusters
    ∧ t.invOf i = some { v with held := v.held ++ [.cmd i.ix ins i.l i.r i.q], reports := v.reports ++ [(i.ix, true)] }
    ∧ (t.nd i.nk).sb = (s.nd i.nk).sb ++ (match sbs with | none => [] | some k => [(k.toNat, v.age, i.ix)])

/-- How an instruction held to the commit fires: absorbed, a fault, or held. -/
def FiresHeld (op : Op) (ins : Instr) (prd : Prd) (sbs : Option (BitVec 3)) (p : Ports) (good : Prop) (c : Cause)
    (s : State) (i : Issue) (v : Inv) : Prop :=
  (predHolds prd i = false ∨ p.null i = true → exec ins s = .next (s.report i false))
  ∧ (predHolds prd i = true → p.null i = false →
    (i.status.er = true → exec ins s = .next (s.fault i op .errorOperand))
    ∧ (i.status.er = false → p.ok i = false → exec ins s = .next (s.fault i op .widthMismatch))
    ∧ (i.status.er = false → p.ok i = true → ¬ good → exec ins s = .next (s.fault i op c))
    ∧ (i.status.er = false → p.ok i = true → good → HeldTo ins sbs s i v))

end Sys2Proof.Machine

/-- R39, R43, R44, R141, R144, R147: every engine instruction, PSET and COPY to NLOOK, completes its first step (WLOAD: next
clause): it is absorbed when its predicate does not match or an operand is null, faults on an error operand, a wrong width or an
operand out of range, and otherwise is held to the commit with its operands: exec answers that next state, and its unit sees
nothing of it before. -/
def Sys2Proof.Machine.EngineCommandsAreHeldR147 : Prop :=
  ∀ (s : State) (i : Issue) (v : Inv) (w : EWord) (op : Op) (ins : Instr) (p : Ports) (good : Prop),
    (op, ins, p, good) ∈ engineOps w s i v → Issues s i v → p.present i →
    FiresHeld op ins w.prd w.sbs p good (engineCause op i) s i v

/-- R244: so is WLOAD, which takes an offset that is a multiple of 16384 in the weight store, or in an object through a handle,
and with a format that has side data an offset of it that is a multiple of 64. -/
def Sys2Proof.Machine.WloadIsHeldR244 : Prop :=
  ∀ (s : State) (i : Issue) (v : Inv) (w : EWord), Issues s i v → ({ l := .sc, r := .sc } : Ports).present i →
    let hnd := w.sub.getLsbD 0
    let fmt := w.imm.toNat % 16
    let side := fmt = 5 ∨ fmt = 6 ∨ (7 ≤ fmt ∧ fmt ≤ 15)
    FiresHeld .wload (.wload w) w.prd w.sbs { l := .sc, r := .sc }
      ((if hnd then i.lv % 2 ^ 40 % 16384 = 0 ∧ zeros i.lv 52 12 else i.lv % 16384 = 0 ∧ i.lv ≤ 0x3fc000)
        ∧ (side → i.rv % 64 = 0)) .reservedCode s i v

/-! ### System instructions -/

namespace Sys2Proof.Machine

/-- The privilege to act on an ASID (R357, R359): the node's own needs none, one of its partition S, any other M. -/
def MayUseAsid (s : State) (nk asid : Nat) : Prop :=
  asid = (s.nd nk).asid ∨ (asidIn s (s.nd nk).part asid = true ∧ 1 ≤ s.privOf nk) ∨ 2 ≤ s.privOf nk

/-- A system instruction that performs when it fires: its scalar goes to T0 with the operands' status bits, and it reports. -/
def AnswersAtOnce (ins : Instr) (t0 : Target) (s : State) (i : Issue) (x : W64) : Prop :=
  exec ins s = .next ((s.send i t0 .data { val := .sc x, ns := i.status.ns, em := i.status.em, er := i.status.er }).report i true)

/-- It fires on its operands: the predicate matches, no null, no error, the widths right. -/
def FiresS (prd : Prd) (p : Ports) (s : State) (i : Issue) (v : Inv) : Prop :=
  Issues s i v ∧ predHolds prd i = true ∧ p.null i = false ∧ i.status.er = false ∧ p.ok i = true ∧ p.present i

end Sys2Proof.Machine

/-- R355 to R360, R407 to R410: the S-format instructions RDSR, WRSR, TINV, TSYNC, TPROBE, KEYSET, TRAP, BRK, FRET and FREC
complete. RDSR, TPROBE and FREC answer when they fire, RDSR and TPROBE once every older invocation has committed; BRK faults, but
not in an iteration that a resume skips; the others are held to the commit after the checks of privilege and value that their
rules give. -/
def Obligations.SystemInstructionsFireR355 : Prop :=
  ∀ (s : State) (i : Issue) (v : Inv) (w : SWord),
    let imm := w.imm.toNat
    let L := i.lv
    let R := i.rv
    (FiresS w.prd { l := .any } s i v →
      ((s.nd i.nk).oldest v.age = false → exec (.rdsr w) s = .next s.waits)
      ∧ ((s.nd i.nk).oldest v.age = true → exec (.rdsr w) s = .next
        (((s.regClose (s.nodeParty i.nk) w.srn.toNat).send i w.t0 .data
          { val := .sc (s.regRead (s.nodeParty i.nk) w.srn.toNat), ns := i.status.ns, em := i.status.em, er := i.status.er }).report i true))
      ∧ ((s.nd i.nk).skip = some v.n → exec (.brk w) s = .next (s.report i false))
      ∧ ((s.nd i.nk).skip ≠ some v.n → exec (.brk w) s = .next (s.fault i .brk .breakpoint fun p => { p with x := imm % 2 ^ 14 }))
      ∧ (s.served v = none → exec (.frec w) s = .next (s.fault i .frec .noFaultRecord))
      ∧ (∀ r, s.served v = some r → AnswersAtOnce (.frec w) w.t0 s i (r.val.extractLsb' (64 * (imm % 8)) 64)))
    ∧ (FiresS w.prd { l := .sc, r := .sc } s i v →
      ((s.nd i.nk).oldest v.age = false → exec (.tprobe w) s = .next s.waits)
      ∧ ((s.nd i.nk).oldest v.age = true →
        (¬ MayUseAsid s i.nk (R % 2 ^ 16) → exec (.tprobe w) s = .next (s.fault i .tprobe .privilege))
        ∧ (MayUseAsid s i.nk (R % 2 ^ 16) → ¬ (zeros L 52 12 ∧ zeros R 16 48) → exec (.tprobe w) s = .next (s.fault i .tprobe .reservedCode))
        ∧ (MayUseAsid s i.nk (R % 2 ^ 16) → zeros L 52 12 → zeros R 16 48 →
          AnswersAtOnce (.tprobe w) w.t0 s i (BitVec.ofNat 64
            (probeRes (decide (imm % 2 = 1)) (walk s (s.probePart (s.nd i.nk).part R) R L))))))
    ∧ (Issues s i v →
      (({ l := .sc } : Ports).present i →
        FiresHeld .trap (.trap w) w.prd none { l := .sc } True .reservedCode s i v
        ∧ (∀ c, s.writeFault (s.nodeParty i.nk) w.srn.toNat L = some c →
          FiresHeld .wrsr (.wrsr w) w.prd none { l := .sc } False c s i v)
        ∧ (s.writeFault (s.nodeParty i.nk) w.srn.toNat L = none →
          FiresHeld .wrsr (.wrsr w) w.prd none { l := .sc } True .reservedCode s i v))
      ∧ (({ l := .any } : Ports).present i →
        FiresHeld .tsync (.tsync w) w.prd none { l := .any } True .reservedCode s i v
        ∧ (s.served v = none → FiresHeld .fret (.fret w) w.prd none { l := .any } False .noFaultRecord s i v)
        ∧ ((s.served v).isSome = true → FiresHeld .fret (.fret w) w.prd none { l := .any } (v.fretHeld = false) .doubleReturn s i v))
      ∧ (({ l := .sc, r := .sc } : Ports).present i →
        let range := if imm / 8 % 2 = 1 then L = 0 ∧ zeros R 16 48
          else zeros L 0 12 ∧ zeros L 52 12 ∧ ¬ zeros R 16 32 ∧ zeros R 48 16
        (¬ MayUseAsid s i.nk (R % 2 ^ 16) → FiresHeld .tinv (.tinv w) w.prd none { l := .sc, r := .sc } False .privilege s i v)
        ∧ (MayUseAsid s i.nk (R % 2 ^ 16) → FiresHeld .tinv (.tinv w) w.prd none { l := .sc, r := .sc } range .reservedCode s i v))
      ∧ (({ l := .vec, r := .sc } : Ports).present i →
        (s.privOf i.nk < 2 → FiresHeld .keyset (.keyset w) w.prd none { l := .vec, r := .sc } False .privilege s i v)
        ∧ (2 ≤ s.privOf i.nk → FiresHeld .keyset (.keyset w) w.prd none { l := .vec, r := .sc } (zeros R 11 5 ∧ zeros R 17 47) .reservedCode s i v)))

/-! ### Frames -/

namespace Sys2Proof.Machine

/-- Nothing outside the clusters and nodes differs but the caches and the counters: memory, keys, queues, kernels, records, the
directory, the links and the resets stand as they were. -/
structure SameBeyond (s t : State) : Prop where
  mem : t.mem = s.mem
  memx : t.memx = s.memx
  keys : t.keys = s.keys
  kernels : t.kernels = s.kernels
  queues : t.queues = s.queues
  recs : t.recs = s.recs
  dir : t.dir = s.dir
  faultSeq : t.faultSeq = s.faultSeq
  tinvs : t.tinvs = s.tinvs
  tsyncs : t.tsyncs = s.tsyncs
  ksets : t.ksets = s.ksets
  links : t.links = s.links
  routers : t.routers = s.routers
  nv : t.nv = s.nv
  kvl : t.kvl = s.kvl
  now : t.now = s.now
  agenda : t.sched.agenda = s.sched.agenda
  monQ : t.monQ = s.monQ

end Sys2Proof.Machine

/-- The frame of every instruction that fires on an element. Every byte of memory, every key, kernel, queue and record, the
directory, every other node and cluster, and of the node its globals, PC, generation, output queues and tags are unchanged:
what an instruction does to them waits for the commit (R35, R39). Its own cluster takes tokens and nothing else. System
registers are unchanged too, but for the counters and caches that translating the address of a memory instruction fills.
BINV, which drops lines, and an address in .KV, which may start a block load, are the exceptions that are named. -/
def Obligations.FiringLeavesTheRestR35 : Prop :=
  ∀ (s t : State) (i : Issue) (v : Inv) (ins : Instr) (op : Op) (f : Fields), ins.view = some (op, f) → Issues s i v →
    exec ins s = .next t →
    let memory := ∃ w, f = .m w
    let kv := ∃ w, f = .m w ∧ w.asp = .kv
    (¬ memory → SameOutside s t)
    ∧ (¬ kv → SameBeyond s t ∧ SameNodes s t i.nk)
    ∧ (¬ kv → op ≠ .binv → SameClusters s t i.c)
    ∧ (op = .binv → ∀ c, ∃ l b, t.cl c = { s.cl c with input := (s.cl c).input ++ l, bcache := b }
      ∧ (c ≠ i.c → l = []) ∧ ∀ e, e ∈ b → e ∈ (s.cl c).bcache)
    ∧ (kv → ∀ nj, (t.nd nj).g = (s.nd nj).g ∧ (t.nd nj).v = (s.nd nj).v ∧ (t.nd nj).m = (s.nd nj).m ∧ (t.nd nj).pc = (s.nd nj).pc
      ∧ (t.nd nj).gn = (s.nd nj).gn ∧ (t.nd nj).outq = (s.nd nj).outq ∧ (t.nd nj).acts = (s.nd nj).acts)

/-! ### Flumes -/

namespace Sys2Proof.Machine

/-- The unit has done the command's work: it is marked finished, and no byte of memory changes (R142). -/
def FinishesCmd (s t : State) (i : Issue) (m : Cmd) : Prop :=
  t.mem = s.mem ∧ ∃ x, (t.unit i.c i.u).find? (fun x => x.id = m.id) = some x ∧ x.finished = true ∧ x.instr = m.instr

/-- A unit goes on with the command `m` of instruction `ins`; the unit is the instruction's own (R140). -/
def WorksOn (s : State) (i : Issue) (m : Cmd) (op : Op) (ins : Instr) (w : EWord) : Prop :=
  Works s i m ∧ m.instr = ins ∧ i.u = unitOf op w

/-- Place `d` of a chip, as it is named here. -/
def placeOn (s : State) (chip d : Nat) : Nat := if chip = chipId s then d else farPlace chip d

/-- A message from place `c` of this chip to place `d` of a chip (R323). -/
def Sent (s t : State) (c part chip d cls n : Nat) (b : Msg) : Prop :=
  Posted t { src := c, dst := placeOn s chip d, cls := cls, part := part, n := n, body := b }

/-- A message that a multicast carries to place `d` of a chip, one packet for all of its destinations (R328). -/
def Cast (s t : State) (c part chip d cls n : Nat) (b : Msg) : Prop :=
  let e := placeOn s chip d
  ∃ q, q ∈ (if e = c then t.inbox else Tab.get [] t.ports c) ∧ q.src = c ∧ q.cls = cls ∧ q.part = part ∧ q.n = n
    ∧ (q.dst = e ∧ q.body = b ∨ (e, b) ∈ q.to_)

/-- The tiles of slot `j` of a flume's ring (R152). -/
def inSlot (f : Flume) (j tile : Nat) : Prop :=
  f.ring + j % (f.nsl + 1) * (f.tps + 1) ≤ tile ∧ tile < f.ring + j % (f.nsl + 1) * (f.tps + 1) + (f.tps + 1)


end Sys2Proof.Machine

/-- R152, R153, R155, R156: FLOPEN, FLPUSH, FLFREE and FLCLOSE complete: FLOPEN opens a closed flume and sends its source a notice for
each slot (its tiles were checked at its issue); FLPUSH takes a notice, or waits for one, sends the slot it has read, and ends when
every slot has landed; FLFREE frees the oldest landed slot and tells the source; FLCLOSE closes and cancels; what a rule forbids is
the engine fault that the rule names. -/
def Sys2Proof.Machine.FlumesOpenPushFreeCloseR152 : Prop :=
  ∀ (s : State) (i : Issue) (m : Cmd) (w : EWord),
    let k := w.imm.toNat % 16
    let me := flAddr (chipId s) i.c k
    let fl := Tab.find (s.cl i.c).flumes k
    (WorksOn s i m .flopen (.flopen w) w →
      let w0 := (wordOf m.lvec 0).toNat
      let w1 := (wordOf m.lvec 1).toNat
      let f : Flume :=
        { part := m.part, ring := w0 % 2 ^ 9, nsl := w0 / 2 ^ 16 % 16, tps := w0 / 2 ^ 24 % 8, rtn := decide (w0 / 2 ^ 32 % 2 = 1)
          srcChip := w1 / 2 ^ 52, srcCl := w1 / 2 ^ 44 % 256, sem := w1 % 64 }
      (fl ≠ none → exec (.flopen w) s = .next (s.failWith i.c i.u m .flumeState))
      ∧ (fl = none → ∃ t, exec (.flopen w) s = .next t ∧ FinishesCmd s t i m ∧ Tab.find (t.cl i.c).flumes k = some f
          ∧ ∀ j, j ≤ f.nsl → Sent s t i.c m.part f.srcChip f.srcCl 3 0 (.notice me j f.tps m.nk (m.pending .routeRefused))))
    ∧ (WorksOn s i m .flpush (.flpush w) w →
      let sent := m.aux.getD 0 0
      let p := m.pats.getD 0 0
      (m.qv ≤ sent → (m.qv ≤ m.got.length → ∃ t, exec (.flpush w) s = .next t ∧ FinishesCmd s t i m)
        ∧ (m.got.length < m.qv → exec (.flpush w) s = .next s))
      ∧ (sent < m.qv → m.aux.length ≤ 1 → s.pushAhead i.c m = true ∨ Tab.get [] (s.cl i.c).notices m.flKey = [] →
        ∃ t x, exec (.flpush w) s = .next t ∧ t.mem = s.mem
          ∧ (t.unit i.c i.u).find? (fun x => x.id = m.id) = some x ∧ x.setAside = true ∧ x.aux = m.aux)
      ∧ (∀ j tps rest, sent < m.qv → m.aux.length ≤ 1 → s.pushAhead i.c m = false →
        Tab.get [] (s.cl i.c).notices m.flKey = (j, tps) :: rest →
        (patN p * patEsz p ≠ (tps + 1) * 4096 → exec (.flpush w) s = .next (s.failWith i.c i.u m .patternMismatch))
        ∧ (patN p * patEsz p = (tps + 1) * 4096 → ∃ t x, exec (.flpush w) s = .next t ∧ t.mem = s.mem
          ∧ Tab.get [] (t.cl i.c).notices m.flKey = rest
          ∧ (t.unit i.c i.u).find? (fun x => x.id = m.id) = some x ∧ x.aux = [sent, 0, j, tps] ∧ x.buf = []))
      ∧ (∀ e j tps u v, sent < m.qv → m.aux = [sent, e, j, tps] → e < patN p →
        s.readElem i.c i.u m p ((sent : Int) * sInt 64 m.rv) e (sent * 2 ^ 32 + e) = .ok u v →
        exec (.flpush w) s = .next (u.modCmd i.c i.u m.id fun x =>
          { x with accs := [], aux := x.aux.set 1 (e + 1), buf := x.buf ++ natLE v (patEsz p) }))
      ∧ (∀ j tps, sent < m.qv → m.aux = [sent, patN p, j, tps] → ∃ t x, exec (.flpush w) s = .next t ∧ t.mem = s.mem
        ∧ Sent s t i.c m.part (m.lv / 2 ^ 52 % 2 ^ 12) (m.lv / 2 ^ 44 % 256) 0 m.buf.length (.slot m.flKey j (chipId s) i.c m.id 0 m.buf)
        ∧ (t.unit i.c i.u).find? (fun x => x.id = m.id) = some x ∧ x.aux = [sent + 1] ∧ x.buf = []))
    ∧ (WorksOn s i m .flfree (.flfree w) w →
      (fl = none → exec (.flfree w) s = .next (s.failWith i.c i.u m .flumeState))
      ∧ ∀ f, fl = some f →
        (f.landed ≤ f.freed → exec (.flfree w) s = .next (s.failWith i.c i.u m .flumeState))
        ∧ (f.freed < f.landed → f.rtn = true → s.tileBusy i.c m (f.slotTiles f.freed) = true → exec (.flfree w) s = .next s)
        ∧ (f.freed < f.landed → (f.rtn = true → s.tileBusy i.c m (f.slotTiles f.freed) = false) →
          (f.rtn = true → (∃ x, inSlot f f.freed x ∧ x ∈ (s.cl i.c).engTiles) →
            exec (.flfree w) s = .next (s.failWith i.c i.u m .ownerViolation))
          ∧ ((f.rtn = true → ∀ x, inSlot f f.freed x → x ∉ (s.cl i.c).engTiles) → ∃ t, exec (.flfree w) s = .next t
            ∧ FinishesCmd s t i m ∧ Tab.find (t.cl i.c).flumes k = some { f with freed := f.freed + 1 }
            ∧ (∀ x, x ∈ (t.cl i.c).engTiles ↔ x ∈ (s.cl i.c).engTiles ∨ (f.rtn = true ∧ inSlot f f.freed x))
            ∧ Sent s t i.c m.part f.srcChip f.srcCl 3 0 (.notice me (f.freed + f.nsl + 1) f.tps m.nk (m.pending .routeRefused)))))
    ∧ (WorksOn s i m .flclose (.flclose w) w →
      (fl = none → exec (.flclose w) s = .next (s.failWith i.c i.u m .flumeState))
      ∧ ∀ f, fl = some f → (s.flBusy me = true → exec (.flclose w) s = .next s) ∧ (s.flBusy me = false → ∃ t, exec (.flclose w) s = .next t ∧ FinishesCmd s t i m
        ∧ Tab.find (t.cl i.c).flumes k = none ∧ Sent s t i.c m.part f.srcChip f.srcCl 3 0 (.flCancel me m.nk (m.pending .routeRefused))))

/-- R124, R152, R153, R154, R156: what arrives for a flume. A slot in its turn lands in its tiles, 32 bytes in a step, then counts
as landed, increments the flume's semaphore and is acknowledged; one from another source or for a closed flume is refused, one
ahead of its turn waits; a notice is kept at the source; a cancelling drops those kept and fails the FLPUSHes with slots to send.
FREED_SLOT_NOTICE and FLUME_SLOT_LANDING complete. -/
def Sys2Proof.Machine.FlumeSlotsLandR154 : Prop :=
  ∀ (s : State) (m : Parcel) (rest : List Parcel), s.inbox = m :: rest →
    let does (u : State) : Prop := (s.picking 0).msgDo m = some u
    (∀ (k j chip c id at_ : Nat) (bs : List Byte), m.body = .slot k j chip c id at_ bs → s.flumeSaved m.dst k = false →
      (∀ u, does u → exec (.flumeSlotLanding 0) s = .next u.kernelsCheck)
      ∧ (Tab.find (s.cl m.dst).flumes (k % 16) = none → ∃ u, does u ∧ u.mem = s.mem
        ∧ Sent s u m.dst m.part chip c 3 0 (.rack c id j (some (.flumeState, 0, 0)) (chipId s)))
      ∧ ∀ f, Tab.find (s.cl m.dst).flumes (k % 16) = some f →
        let key := spKey m.dst ((f.ring + j % (f.nsl + 1) * (f.tps + 1)) * 4096 + at_)
        (f.srcChip ≠ chip ∨ f.srcCl ≠ c ∨ f.part ≠ m.part → ∃ u, does u ∧ u.mem = s.mem
          ∧ Sent s u m.dst m.part chip c 3 0 (.rack c id j (some (.permission, 0, 0)) (chipId s)))
        ∧ (f.srcChip = chip → f.srcCl = c → f.part = m.part →
          (j ≠ f.landed → (s.picking 0).msgDo m = none)
          ∧ (j = f.landed → bs = [] → ∃ u, does u ∧ u.mem = s.mem
            ∧ Tab.find (u.cl m.dst).flumes (k % 16) = some { f with landed := f.landed + 1 }
            ∧ u.sem m.dst f.sem = min (s.sem m.dst f.sem + 1) 0xffffffff
            ∧ (∀ x, x ∈ (u.cl m.dst).engTiles ↔ x ∈ (s.cl m.dst).engTiles ∧ ¬ (f.rtn = true ∧ inSlot f j x))
            ∧ Sent s u m.dst m.part chip c 3 0 (.rack c id j none (chipId s)))
          ∧ (j = f.landed → bs ≠ [] → reservedBy s key (2 ^ 30) 0 = true → (s.picking 0).msgDo m = none)
          ∧ (j = f.landed → bs ≠ [] → reservedBy s key (2 ^ 30) 0 = false → ∃ u, does u
            ∧ (∀ b, b < 32 → memGet u (key + b) = bs.getD b 0)
            ∧ (∀ a, a < key ∨ key + 32 ≤ a → memGet u a = memGet s a)
            ∧ { m with body := .slot k j chip c id (at_ + 32) (bs.drop 32) } ∈ u.inbox
            ∧ Tab.find (u.cl m.dst).flumes (k % 16) = some f)))
    ∧ (∀ k j tps nk p, m.body = .notice k j tps nk p → (Tab.get [] (s.cl m.dst).notices k).length < 16 →
      ∃ u, exec (.freedSlotNotice 0) s = .next u.kernelsCheck ∧ does u ∧ u.mem = s.mem
        ∧ Tab.get [] (u.cl m.dst).notices k = Tab.get [] (s.cl m.dst).notices k ++ [(j, tps)])
    ∧ (∀ k nk p, m.body = .flCancel k nk p → ∃ u, exec (.freedSlotNotice 0) s = .next u.kernelsCheck ∧ does u
      ∧ Tab.get [] (u.cl m.dst).notices k = []
      ∧ ∀ n x, x ∈ u.unit m.dst n → x.op = .flpush → x.flKey = k → x.aux.getD 0 0 < x.qv →
        x.fail.map (fun f => f.cause) = some .flumeState)

/-! ### Route tags, windows and three-party reads -/

/-- R168 to R173, R176: TSEND, WOPEN, WCLOSE, COPYR and RREAD complete: TSEND sends its token where the partition's route table says,
while its path has room, and ends when it was taken; WOPEN opens a window (its tiles were checked at its issue), WCLOSE closes one
into which nothing is on its way; COPYR sends the bytes of its pattern in granules of 64 and ends when they are acknowledged, or with
`.DISP` when they have left; RREAD asks the owner and ends when every recipient has acknowledged, or with `.DISP` when the owner has
sent the last granule. -/
def Sys2Proof.Machine.FabricCommandsR168 : Prop :=
  ∀ (s : State) (i : Issue) (m : Cmd) (w : EWord),
    let k := w.imm.toNat % 16
    let tag := w.imm.toNat % 256
    let win := Tab.find (s.cl i.c).windows k
    (WorksOn s i m .tsend (.tsend w) w →
      (m.started = true → (m.got ≠ [] → ∃ t, exec (.tsend w) s = .next t ∧ FinishesCmd s t i m)
        ∧ (m.got = [] → exec (.tsend w) s = .next s))
      ∧ (m.started = false → routeEntry s m.part tag = none → exec (.tsend w) s = .next (s.failWith i.c i.u m .routeTag))
      ∧ ∀ chip cl pl ix pt ns lane, m.started = false → routeEntry s m.part tag = some (chip, cl, pl, ix, pt, ns, lane) →
        (tagListed s m.part tag chip = false → exec (.tsend w) s = .next (s.failWith i.c i.u m .routeTag))
        ∧ (tagListed s m.part tag chip = true → 64 ≤ s.pathFlight i.c tag → exec (.tsend w) s = .next s)
        ∧ (tagListed s m.part tag chip = true → s.pathFlight i.c tag < 64 → ∃ t, exec (.tsend w) s = .next t ∧ t.mem = s.mem
          ∧ Sent s t i.c m.part chip cl 2 0 (.tok pl ix pt ns lane (chipId s) i.c m.id tag (m.l.getD {}))))
    ∧ (WorksOn s i m .wopen (.wopen w) w →
      (win ≠ none → exec (.wopen w) s = .next (s.failWith i.c i.u m .windowState))
      ∧ (win = none → ∃ t, exec (.wopen w) s = .next t ∧ FinishesCmd s t i m
          ∧ Tab.find (t.cl i.c).windows k = some { desc := m.lvec, part := m.part, asid := m.asid }))
    ∧ (WorksOn s i m .wclose (.wclose w) w →
      (win = none → exec (.wclose w) s = .next (s.failWith i.c i.u m .windowState))
      ∧ (win ≠ none → (∃ d, d ∈ (s.cl i.c).dlvs ∧ d.w = k ∧ d.refused = false) → exec (.wclose w) s = .next s)
      ∧ (win ≠ none → (∀ d, d ∈ (s.cl i.c).dlvs → d.w = k → d.refused = true) → ∃ t, exec (.wclose w) s = .next t
        ∧ FinishesCmd s t i m ∧ Tab.find (t.cl i.c).windows k = none))
    ∧ (WorksOn s i m .copyr (.copyr w) w →
      let p := m.pats.getD 0 0
      let n := patN p * patEsz p
      (n % 64 ≠ 0 → exec (.copyr w) s = .next (s.failWith i.c i.u m .patternMismatch))
      ∧ (∀ u v, n % 64 = 0 → m.aux.getD 0 0 < patN p →
        s.readElem i.c i.u m p 0 (m.aux.getD 0 0) (m.aux.getD 0 0) = .ok u v →
        exec (.copyr w) s = .next (u.modCmd i.c i.u m.id fun x =>
          { x with accs := [], started := true, aux := [m.aux.getD 0 0 + 1], buf := x.buf ++ natLE v (patEsz p) }))
      ∧ (n % 64 = 0 → m.aux.getD 0 0 = patN p → ∃ t, exec (.copyr w) s = .next t ∧ t.mem = s.mem
        ∧ (m.sub % 2 = 1 → FinishesCmd s t i m)
        ∧ ∀ g, g < n / 64 → Sent s t i.c m.part (m.lv / 2 ^ 52 % 2 ^ 12) (m.lv / 2 ^ 44 % 256) 0 64
            (.win (m.lv / 2 ^ 40 % 16) (m.lv % 2 ^ 24) n (64 * g) (some ((m.buf.drop (64 * g)).take 64)) (chipId s) i.c m.id 0))
      ∧ (n % 64 = 0 → patN p < m.aux.getD 0 0 →
        (m.got ≠ [] → ∃ t, exec (.copyr w) s = .next t ∧ FinishesCmd s t i m) ∧ (m.got = [] → exec (.copyr w) s = .next s)))
    ∧ (WorksOn s i m .rread (.rread w) w →
      let owner := m.lv / 2 ^ 52 % 2 ^ 12
      (m.started = false → ∃ t r x, exec (.rread w) s = .next t ∧ t.mem = s.mem
        ∧ Posted t { src := i.c, dst := placeOn s owner 224, cls := 0, part := m.part, body := .rread r }
        ∧ r.chip = chipId s ∧ r.c = i.c ∧ r.id = m.id ∧ r.part = m.part ∧ r.len = m.qv ∧ r.g = 0 ∧ r.bad = false
        ∧ r.addr = (if m.sub % 2 = 1 then m.lv % 2 ^ 40 else m.lv % 2 ^ 52)
        ∧ r.hnd = (if m.sub % 2 = 1 then some (m.lv / 2 ^ 40 % 2 ^ 12) else none)
        ∧ r.disp = decide (m.sub / 4 % 2 = 1) ∧ r.to_.map (fun e => e.2) = m.recips ∧ r.to_.map (fun e => e.1) = List.range m.recips.length
        ∧ (t.unit i.c i.u).find? (fun x => x.id = m.id) = some x ∧ x.started = true ∧ x.aux = [m.recips.length])
      ∧ (m.started = true → m.sub / 4 % 2 = 0 →
        (m.aux.getD 0 0 ≤ m.got.length → ∃ t, exec (.rread w) s = .next t ∧ FinishesCmd s t i m)
        ∧ (m.got.length < m.aux.getD 0 0 → exec (.rread w) s = .next s))
      ∧ (m.started = true → m.sub / 4 % 2 = 1 →
        ((∃ e, e ∈ m.got ∧ e.1 = 2 ^ 20) → ∃ t, exec (.rread w) s = .next t ∧ FinishesCmd s t i m)
        ∧ ((∀ e, e ∈ m.got → e.1 ≠ 2 ^ 20) → exec (.rread w) s = .next s)))

/-- R168, R169, R174, R177: what arrives from the fabric. A token on a route tag goes to a running node of its partition, numbered
on its path, or is refused, and is accepted and freed where its taking invocation has committed without it (R39, R46); a granule of a delivery that its window admits is written where the window says; the owner of an RREAD
reads a granule and sends it to every recipient, or reports its failure and sends null deliveries; an answer joins its command, or
fails it. ROUTE_TAG_DELIVERY, WINDOW_DELIVERY, RREAD_OWNER_READ and RREAD_ACK complete. -/
def Sys2Proof.Machine.FabricDeliversR169 : Prop :=
  ∀ (s : State) (m : Parcel) (rest : List Parcel), s.inbox = m :: rest →
    (∀ pl ix pt ns lane chip c id tag o, m.body = .tok pl ix pt ns lane chip c id tag o → s.savedAt m.dst m.part = false →
      let nk := nkOf m.dst pl
      let here := (s.nd nk).asg.isSome = true ∧ (s.nd nk).part = m.part ∧ (s.nd nk).callable = false ∧ (s.nd nk).st ≠ .ended
        ∧ (s.nd nk).st ≠ .unassigned
      let path := (chip * 256 + c) * 256 + tag
      let count := Tab.get 0 (s.nd nk).rtCount path
      let key := ix * 4 + pt.code
      let turn := count * ns + lane
      let taking := (∃ v, v ∈ (s.nd nk).invs ∧ (key, turn) ∈ v.takes) ∨ Tab.get 0 (s.nd nk).taken key ≤ turn
      ∃ u, exec (.routeTagDelivery 0) s = .next u.kernelsCheck ∧ (s.picking 0).msgDo m = some u ∧ u.mem = s.mem
        ∧ (here → Tab.get 0 (u.nd nk).rtCount path = count + 1
          ∧ (taking → ∃ r, r ∈ (u.cl m.dst).routed ∧ r.pl = pl ∧ r.ix = ix ∧ r.pt = pt ∧ r.o = o ∧ r.k = turn)
          ∧ (¬ taking → Sent s u m.dst m.part chip c 3 0 (.rack c id 0 none (chipId s))))
        ∧ (¬ here → Sent s u m.dst m.part chip c 3 0 (.rack c id 0 (some (.routeRefused, 0, 0)) (chipId s))))
    ∧ (∀ w off len at_ bs chip c id j x d, m.body = .win w off len at_ (some bs) chip c id j → bs.length = 64 → m.dst < 192 →
      winOpenFor s m.dst m.part w off len = some x →
      ((s.cl m.dst).dlvs.find? fun d => d.chip = chip && d.c = c && d.id = id && d.j = j) = some d → d.refused = false → d.w = w →
      winSpc x.desc = 0 → at_ + 64 ≤ len → winBase x.desc % 4096 = 0 → (winBase x.desc + off + at_) % 64 = 0 →
      winBase x.desc + winLen x.desc ≤ 0x180000 →
      (∀ tile, tile * 4096 ≤ winBase x.desc + off + at_ → winBase x.desc + off + at_ < (tile + 1) * 4096 → tile ∈ (s.cl m.dst).engTiles) →
      let key := spKey m.dst (winBase x.desc + off + at_)
      reservedBy s key (2 ^ 30) 0 = false → reservedBy s (key + 32) (2 ^ 30) 0 = false →
      ∃ u, exec (.windowDelivery 0) s = .next u.kernelsCheck ∧ (s.picking 0).msgDo m = some u
        ∧ (∀ b, b < 64 → memGet u (key + b) = bs.getD b 0) ∧ ∀ a, a < key ∨ key + 64 ≤ a → memGet u a = memGet s a)
    ∧ (∀ r pa slot, m.body = .rread r → r.hnd = none → r.bad = false → r.one = false → r.to_ ≠ [] → rreadLoc s r = .here pa slot →
      badAt s pa = false → keyHeld s (some slot) = false →
      ∃ u, exec (.rreadOwnerRead 0) s = .next u.kernelsCheck ∧ (s.picking 0).msgDo m = some u ∧ u.mem = s.mem
        ∧ ∀ j chip c w off, (j, chip, c, w, off) ∈ r.to_ → Cast s u 224 r.part chip c 0 64
            (.win w off r.len (64 * r.g) (some (natLE (readUnder s pa 64 (some slot)).2 64)) r.chip r.c r.id j))
    ∧ (∀ r cz x, m.body = .rread r → r.hnd = none → r.bad = false → r.to_ ≠ [] → rreadLoc s r = .bad cz x →
      ∃ u, exec (.rreadOwnerRead 0) s = .next u.kernelsCheck ∧ (s.picking 0).msgDo m = some u ∧ u.mem = s.mem
        ∧ Sent s u 224 r.part r.chip r.c 3 0
            (.rack r.c r.id (2 ^ 20 + 1) (some (cz, x, (r.addr + 64 * r.g) % 2 ^ 52)) (chipId s))
        ∧ ∀ j chip c w off, (j, chip, c, w, off) ∈ r.to_ → Cast s u 224 r.part chip c 0 64
            (.win w off r.len (64 * r.g) none r.chip r.c r.id j))
    ∧ (∀ c id j chip k y, m.body = .rack c id j none chip → ((s.cl c).disp.find? fun m => m.id = id) = none →
      (s.unit c k).find? (fun x => x.id = id) = some y →
      ∃ u x, exec (.rreadAck 0) s = .next u.kernelsCheck ∧ (s.picking 0).msgDo m = some u ∧ u.mem = s.mem
        ∧ (u.unit c k).find? (fun x => x.id = id) = some x ∧ x.got = y.got ++ [(j, 0)])
    ∧ (∀ c id j cz x va chip k y, m.body = .rack c id j (some (cz, x, va)) chip → ((s.cl c).disp.find? fun m => m.id = id) = none →
      (s.unit c k).find? (fun x => x.id = id) = some y → y.fail = none →
      ∃ u z, exec (.rreadAck 0) s = .next u.kernelsCheck ∧ (s.picking 0).msgDo m = some u ∧ u.mem = s.mem
        ∧ (u.unit c k).find? (fun x => x.id = id) = some z ∧ z.fail.map (fun f => (f.cause, f.aux, f.chip)) = some (cz, x, some chip))

/-! ### KV blocks and storage -/

namespace Sys2Proof.Machine

/-- The command has done its work. -/
def IsFinished (t : State) (i : Issue) (m : Cmd) : Prop :=
  ∃ x, (t.unit i.c i.u).find? (fun x => x.id = m.id) = some x ∧ x.finished = true ∧ x.instr = m.instr

/-- The command is still in its unit, with `P` of its progress. -/
def GoesOn (t : State) (i : Issue) (m : Cmd) (P : Cmd → Prop) : Prop :=
  ∃ x, (t.unit i.c i.u).find? (fun x => x.id = m.id) = some x ∧ x.instr = m.instr ∧ P x

/-- The 64 bytes of a command's pattern and sequence that a KVGATH or KVAPP moves next, in 64-byte units (R158, R161, R162). -/
def kvField (s : State) (m : Cmd) (lo : Nat) : Nat := kvWord s m.part (m.lv / 2 ^ 48 % 2 ^ 16) 2 / 2 ^ lo % 2 ^ 10

end Sys2Proof.Machine

/-- R158, R161, R162, R163: KVTAB, KVGATH, KVAPP and KVINV complete: KVTAB writes its record, with the issuer's ASID, to its granule and
nothing else; KVGATH moves keys from KOFF and then values from VOFF, position by position, through its two patterns, and ends after
the last; KVAPP moves whole records the other way; KVINV tells the own KBTB, or every one, and ends when all have acknowledged. -/
def Sys2Proof.Machine.KvCommandsR158 : Prop :=
  ∀ (s : State) (i : Issue) (m : Cmd) (w : EWord),
    let seq := m.lv / 2 ^ 48 % 2 ^ 16
    let pos := m.lv / 2 ^ 16 % 2 ^ 32
    let t0 := m.aux.getD 0 0
    let bytes (k : Nat) : Nat := patN (m.pats.getD k 0) * patEsz (m.pats.getD k 0)
    (WorksOn s i m .kvtab (.kvtab w) w → reservedBy s (kvRecord s m.part m.imm) (2 ^ 30) 0 = true → exec (.kvtab w) s = .next s)
    ∧ (WorksOn s i m .kvtab (.kvtab w) w → reservedBy s (kvRecord s m.part m.imm) (2 ^ 30) 0 = false →
      m.lvec.toNat < 2 ^ 320 → m.asid < 2 ^ 16 → ∃ t, exec (.kvtab w) s = .next t ∧ IsFinished t i m
        ∧ memRead t (kvRecord s m.part m.imm) 64 = m.lvec.toNat + m.asid * 2 ^ 320
        ∧ ∀ a, a < kvRecord s m.part m.imm ∨ kvRecord s m.part m.imm + 64 ≤ a → memGet t a = memGet s a)
    ∧ (WorksOn s i m .kvgath (.kvgath w) w →
      let kvl := kvField s m 48
      let len := 16 * m.rv * kvl
      (bytes 0 ≠ 64 * len ∨ bytes 1 ≠ 64 * len → exec (.kvgath w) s = .next (s.failWith i.c i.u m .patternMismatch))
      ∧ (bytes 0 = 64 * len → bytes 1 = 64 * len →
        (2 * len ≤ t0 → ∃ t, exec (.kvgath w) s = .next t ∧ FinishesCmd s t i m)
        ∧ (t0 < 2 * len → ∀ s1 v s2 x,
          s.kvChunk i.c i.u m seq (pos + t0 % len / kvl)
            (64 * ((if t0 < len then kvField s m 16 else kvField s m 32) + t0 % len % kvl)) (2 ^ 44 + t0) none = .ok s1 v →
          s1.patPut i.c i.u m (m.pats.getD (if t0 < len then 0 else 1) 0) (t0 % len) (natLE v 64) = .ok s2 x →
          exec (.kvgath w) s = .next (s2.modCmd i.c i.u m.id fun x =>
            { x with accs := [], started := true, aux := [t0 + 1], kvw := none }))))
    ∧ (WorksOn s i m .kvapp (.kvapp w) w →
      let stride := kvField s m 0
      (bytes 0 ≠ m.rv * stride * 64 → exec (.kvapp w) s = .next (s.failWith i.c i.u m .patternMismatch))
      ∧ (bytes 0 = m.rv * stride * 64 →
        (m.rv * stride ≤ t0 → ∃ t, exec (.kvapp w) s = .next t ∧ FinishesCmd s t i m)
        ∧ (t0 < m.rv * stride → ∀ s1 v bs s2 x, s.patChunk i.c i.u m (m.pats.getD 0 0) t0 = (.ok s1 v, bs) →
          s1.kvChunk i.c i.u m seq (pos + t0 / stride) (64 * (t0 % stride)) (2 ^ 44 + t0) (some (leNat bs)) = .ok s2 x →
          exec (.kvapp w) s = .next (s2.modCmd i.c i.u m.id fun x =>
            { x with accs := [], started := true, aux := [t0 + 1], kvw := none }))))
    ∧ (WorksOn s i m .kvinv (.kvinv w) w →
      let far := m.sub % 2 = 1
      (m.started = false → ∃ t, exec (.kvinv w) s = .next t ∧ t.mem = s.mem ∧ GoesOn t i m (fun x => x.started = true)
        ∧ ∀ d, (if far then d < 192 else d = i.c) → Posted t
            { src := i.c, dst := d, cls := 3, part := m.part, body := .kvinv seq (m.lv % 2 ^ 28) m.rv i.c m.id none })
      ∧ (m.started = true → m.got.length < (if far then 192 else 1) → exec (.kvinv w) s = .next s)
      ∧ (m.started = true → (if far then 192 else 1) ≤ m.got.length → ∃ t, exec (.kvinv w) s = .next t ∧ FinishesCmd s t i m))

/-- R163: a KBTB drops the entries in a KVINV's range, and only those; with no access and no gather left that used one it
acknowledges, else it does so when they are done. KBTB_INVALIDATE_ACK completes. -/
def Sys2Proof.Machine.KbtbDropsTheRangeR163 : Prop :=
  ∀ (s : State) (m : Parcel) (rest : List Parcel) (seq b n rc id : Nat), s.inbox = m :: rest →
    (∀ us, m.body = .kvinv seq b n rc id (some us) →
      ((∃ x, x ∈ us ∧ kvUsing s x = true) → (s.picking 0).msgDo m = none)
      ∧ ((∀ x, x ∈ us → kvUsing s x = false) →
        ∃ u, exec (.kbtbInvalidateAck 0) s = .next u.kernelsCheck ∧ (s.picking 0).msgDo m = some u ∧ u.mem = s.mem
          ∧ Sent s u m.dst m.part (chipId s) rc 3 0 (.rack rc id m.dst none (chipId s))))
    ∧ (m.body = .kvinv seq b n rc id none →
    ∃ u, exec (.kbtbInvalidateAck 0) s = .next u.kernelsCheck ∧ (s.picking 0).msgDo m = some u ∧ u.mem = s.mem
      ∧ (∀ e, e ∈ (u.cl m.dst).kbtb ↔ e ∈ (s.cl m.dst).kbtb ∧ ¬ (e.1 = m.part ∧ e.2.1 = seq ∧ b ≤ e.2.2.1 ∧ e.2.2.1 < b + n))
      ∧ (kvUsers s m.dst m.part seq b n = [] → Sent s u m.dst m.part (chipId s) rc 3 0 (.rack rc id m.dst none (chipId s)))
      ∧ (kvUsers s m.dst m.part seq b n ≠ [] →
        { m with body := .kvinv seq b n rc id (some (kvUsers s m.dst m.part seq b n)) } ∈ u.inbox))

/-- R160: a load claims an entry in state NVMe by a compare-and-swap, and none that has changed. One that waits for a frame looks
at the ring again after 1024 cycles: with HEAD equal to TAIL it goes on waiting, else it takes a frame. One that has ended makes
its entry resident at the frame, or, having failed, NVMe with its old LOC, by a compare-and-swap; an entry that software has
changed stays as it is. A granule that an atomic has reserved is waited for (R116). LANDING_RING_RECHECK and
KV_BLOCK_LOAD_COMPLETION complete. -/
def Sys2Proof.Machine.KvLoadsEndR160 : Prop :=
  (∀ (s : State) (id : Nat) (l : KvLoad) (pa slot : Nat), kvEntAddr s l = .here pa slot →
    let now := (readUnder s pa 8 (some slot)).2
    (now = kvNvme l.old → s.kvClaim id l =
      ((writeUnder s pa 8 (kvLoading l.old) (some slot)).kvSet id { l with st := .ring }).kvRing id)
    ∧ (now ≠ kvNvme l.old → s.kvClaim id l = { s with kvl := Tab.del s.kvl id }))
  ∧ ∀ (s : State) (id : Nat) (l : KvLoad) (rest : Tab KvLoad), s.kvl = (id, l) :: rest →
    let held (k : Nat) : Prop := ∃ r, r ∈ s.memx.resv ∧ r.1 = granule k
    (l.st = .ring → l.since + 1024 ≤ s.now → ∀ pa slot, s.kvRingAt l 0 (permR ||| permW) = .here pa slot → badAt s pa = false →
      let h := (readUnder s pa 8 (some slot)).2
      let n := (readUnder s (pa + 8) 8 (some slot)).2
      (held pa → exec (.landingRingRecheck 0) s = .next (s.kvSet id { l with st := .ring, since := s.now - 1024 }))
      ∧ (¬ held pa → h = n → exec (.landingRingRecheck 0) s = .next (s.kvSet id { l with st := .ring, since := s.now }))
      ∧ (¬ held pa → h ≠ n → let u := writeUnder s pa 8 (h + 1) (some slot)
        ∀ fa fs, u.kvRingAt l (64 + 8 * (h % max 1 (kvWord u l.part l.seq 4 % 2 ^ 16))) permR = .here fa fs → badAt u fa = false →
        exec (.landingRingRecheck 0) s = .next (u.kvRead id ((readUnder u fa 8 (some fs)).2 % 2 ^ 48))))
    ∧ (l.st = .reading → l.todo = [] → l.out = 0 → ∀ pa slot, kvEntAddr s l = .here pa slot →
        let now := (readUnder s pa 8 (some slot)).2
        let fin (u : State) : State := { u with kvl := Tab.del u.kvl id }
        (held pa → exec (.kvBlockLoadCompletion 0) s = .next s)
        ∧ (¬ held pa → l.fail = none → now = kvLoading l.old → ∃ st, (st = 1 ∨ st = 2) ∧ exec (.kvBlockLoadCompletion 0) s =
            .next ((fin (writeUnder s pa 8 (st * 2 ^ 61 + l.frame) (some slot))).kvWake l.part l.seq l.b))
        ∧ (¬ held pa → l.fail = none → now ≠ kvLoading l.old →
          exec (.kvBlockLoadCompletion 0) s = .next ((countEvent (fin s) l.part l.c 6 1).kvWake l.part l.seq l.b))
        ∧ (∀ c a, ¬ held pa → l.fail = some (c, a) → now = kvLoading l.old → exec (.kvBlockLoadCompletion 0) s =
            .next ((fin (writeUnder s pa 8 (kvNvme l.old) (some slot))).kvFail l.part l.seq l.b c a l.frame)))

/-- R164 to R167: NVRD and NVWR complete: they translate their pages, fault where one does not map, split the transfer into commands of at most
128 KiB, submit them in order while the queue has room, and end when all have ended, with the first failure if there is one. -/
def Sys2Proof.Machine.StorageCommandsR166 : Prop :=
  ∀ (s : State) (i : Issue) (m : Cmd) (w : EWord) (ins : Instr), (WorksOn s i m .nvrd ins w ∧ ins = .nvrd w) ∨ (WorksOn s i m .nvwr ins w ∧ ins = .nvwr w) →
    let q := m.imm % 64
    let ns := m.lv / 2 ^ 40 % 2 ^ 8
    let lbs := if Config.lba4096 (rbits (pkg s (0x102 + 4 * q)) 32 2) ns then 4096 else 512
    (m.started = false →
      (∀ c a, nvPages s i.c m (m.qv * lbs) = .error (c, a) → exec ins s = .next (s.failWith i.c i.u m c a (m.rv % 2 ^ 52) 3))
      ∧ (∀ ps, nvPages s i.c m (m.qv * lbs) = .ok ps → ∃ t, exec ins s = .next t ∧ t.mem = s.mem ∧ t.nv = s.nv
        ∧ GoesOn t i m fun x => x.started = true ∧ x.aux = [x.jobs.length, 0]
          ∧ (x.jobs.map (·.nlb)).sum = m.qv
          ∧ ∀ j, j ∈ x.jobs → 0 < j.nlb ∧ j.nlb * lbs ≤ 131072 ∧ j.ns = ns ∧ (j.read = true ↔ ins = .nvrd w)
            ∧ (j.fua = true ↔ ins = .nvwr w ∧ m.sub / 2 % 2 = 1)))
    ∧ (m.started = true → ∀ j js, m.jobs = j :: js →
      (nvRoom s q = false → exec ins s = .next s)
      ∧ (nvRoom s q = true → ∃ t, exec ins s = .next t ∧ GoesOn t i m (fun x => x.jobs = js)
        ∧ ∃ c, t.nv = s.nv ++ [c] ∧ c.qp = q ∧ c.job = j ∧ c.owner = .cmd i.c m.id ∧ c.start = s.now ∧ c.late = false
          ∧ ∀ d, d ∈ s.nv → d.qp = q → d.cid ≠ c.cid))
    ∧ (m.started = true → m.jobs = [] →
      (m.aux.getD 1 0 < m.aux.getD 0 0 → exec ins s = .next s)
      ∧ (m.aux.getD 0 0 ≤ m.aux.getD 1 0 → (m.fail0 = none → ∃ t, exec ins s = .next t ∧ FinishesCmd s t i m)
        ∧ ∀ f, m.fail0 = some f → exec ins s = .next (s.failCmd i.c i.u m f)))

/-- R167: a completion entry frees its command's identifier and says how the command has ended; one that comes after the timeout
is dropped and tells nobody; one whose data an atomic's granule holds back waits (R97). A command without its completion after
NV_TIMEOUT fails, and its identifier stays taken. NVME_COMPLETION and NVME_TIMEOUT complete. -/
def Sys2Proof.Machine.StorageCompletionsR167 : Prop :=
  ∀ (s : State) (v : NvCmd) (rest : List NvCmd), s.nv = v :: rest → v ∉ rest → v.ended = none → v.far = 0 → v.farBad = none → s.kvl = [] →
    (∀ st data ins, s.inputs = .nvme v.qp v.cid st data :: ins → v.job.read = false →
      ∃ t, exec (.nvmeCompletion 0) s = .next t ∧ t.nv = rest ∧ t.inputs = ins
        ∧ (v.late = true → ∀ c k, t.unit c k = s.unit c k)
        ∧ ∀ c id, v.late = false → v.owner = .cmd c id →
          ∀ k x, (s.unit c k).find? (fun x => x.id = id) = some x → ∃ y, (t.unit c k).find? (fun x => x.id = id) = some y
            ∧ y.aux = [x.aux.getD 0 0, x.aux.getD 1 0 + 1] ∧ (st = 0 → y.fail0 = x.fail0)
            ∧ (st ≠ 0 → x.fail0 = none → ∃ f, y.fail0 = some f ∧ f.cause = .nvmeError
              ∧ f.aux = st % 2 ^ 16 * 2 ^ 48 + v.job.ns % 256 * 2 ^ 40 + v.job.lba % 2 ^ 40))
    ∧ (∀ st data ins p r, s.inputs = .nvme v.qp v.cid st data :: ins → v.job.read = true → p ∈ v.job.pages → r ∈ s.memx.resv → p.1 < r.1 + 64 →
      r.1 < p.1 + p.2.2 → exec (.nvmeCompletion 0) s = .next s)
    ∧ (∀ c id t0, v.owner = .cmd c id → s.nvLimit v = some t0 → v.late = false → v.start + t0 ≤ s.now →
      ∃ t, exec (.nvmeTimeout 0) s = .next t ∧ t.nv = { v with late := true } :: rest
        ∧ ∀ k x, (s.unit c k).find? (fun x => x.id = id) = some x → x.fail0 = none →
          ∃ y f, (t.unit c k).find? (fun x => x.id = id) = some y ∧ y.fail0 = some f ∧ f.cause = .nvmeTimeout)

/-! ### Copies and collectives -/

/-- R151: COPY completes. In any order it reads its source elements, 0 where one is out of bounds, and writes each value it has read to
the destination element of its number, or nowhere where that is out of bounds; of destination elements at one address the higher is
written later; while an element is left there is a step to take, and COPY is done with its last write. -/
def Sys2Proof.Machine.CopyMovesElementsR151 : Prop :=
  ∀ (s : State) (i : Issue) (m : Cmd) (w : EWord), WorksOn s i m .copy (.copy w) w →
    let src := m.pats.getD 0 0
    let dst := m.pats.getD 1 0
    let n := patN src
    let rd := m.aux.getD 0 0
    let wr := m.aux.getD 1 0
    let add (k : Nat) : Int := if m.sub / 2 ^ k % 2 = 1 then (if k = 0 then (m.lv : Int) else (m.rv : Int)) else 0
    let does (x : CopyStep) : Prop := m.copyStep n (i.piece % 2 ^ 16) = some x
    let left (e : Nat) : Prop := e ∈ m.later ∨ ∃ v, (e, v) ∈ m.held
    (n ≤ wr → ∃ t, exec (.copy w) s = .next t ∧ FinishesCmd s t i m)
    ∧ (wr < n →
      (does .pass → rd < n ∧ exec (.copy w) s = .next (s.modCmd i.c i.u m.id fun x =>
        { x with started := true, aux := [rd + 1, wr] ++ m.later ++ [rd] }))
      ∧ (∀ e, does (.read e) → (e = rd ∧ rd < n ∨ e ∈ m.later)
        ∧ (patElem src (add 0) e = none → s.readElem i.c i.u m src (add 0) e (2 * e) = .ok s 0)
        ∧ ∀ s1 v, s.readElem i.c i.u m src (add 0) e (2 * e) = .ok s1 v →
          exec (.copy w) s = .next (s1.modCmd i.c i.u m.id fun x => { x.clear (2 * e) with
            started := true, aux := [if e = rd then rd + 1 else rd, wr] ++ m.later.filter (· != e), got := m.got ++ [(e, v)] }))
      ∧ (∀ e v, does (.write e v) → (e, v) ∈ m.held
        ∧ (∀ x, left x → x < e → patElem dst (add 1) x ≠ patElem dst (add 1) e)
        ∧ (patElem dst (add 1) e = none → s.writeElem i.c i.u m dst (add 1) e (2 * e + 1) v = .ok s 0)
        ∧ ∀ s1 y, s.writeElem i.c i.u m dst (add 1) e (2 * e + 1) v = .ok s1 y →
          exec (.copy w) s = .next (s1.modCmd i.c i.u m.id fun x => { x.clear (2 * e + 1) with
            started := true, aux := [rd, wr + 1] ++ m.later, got := m.got.filter fun t => t.1 != e, finished := decide (n ≤ wr + 1) }))
      ∧ (rd < n ∨ (∃ e, left e) → ∃ x, does x))

/-- R149: element `e` of a pattern is out of bounds when an index is at or past its bound, and else lies at BASE plus each index
times its stride, modulo 2^52 (a .KV pattern: modulo 2^48 under its sequence). -/
def Sys2Proof.Machine.PatternElementsR149 : Prop :=
  ∀ (p : V512) (add : Int) (e : Nat),
    let i0 := e % patCount p 0
    let i1 := e / patCount p 0 % patCount p 1
    let i2 := e / (patCount p 0 * patCount p 1) % patCount p 2
    let i3 := e / (patCount p 0 * patCount p 1 * patCount p 2) % patCount p 3
    let z := (patBase p : Int) + add + i0 * patStride p 0 + i1 * patStride p 1 + i2 * patStride p 2 + i3 * patStride p 3
    (patElem p add e = none ↔ patBound p 0 ≤ i0 ∨ patBound p 1 ≤ i1 ∨ patBound p 2 ≤ i2 ∨ patBound p 3 ≤ i3)
    ∧ (∀ a, patElem p add e = some a → (patSpc p ≠ 4 → (a : Int) = z % 2 ^ 52)
      ∧ (patSpc p = 4 → (a : Int) = patSeq p * 2 ^ 48 + z % 2 ^ 48))

/-- R142, R146, R151, R166, R241: a unit signals its commands in issue order, the storage unit those of every cluster: the first
that has finished returns its tiles when it asks for that, adds 1 to its semaphore, saturating, leaves its scoreboard count and
its unit. The task and system unit signals its first finished command. ENGINE_COMPLETION completes. -/
def Sys2Proof.Machine.CommandsSignalInOrderR146 : Prop :=
  ∀ (s : State) (k u : Nat) (m : Cmd) (before rest : List Cmd),
    let c := m.nk / 8
    (u = 4 ∧ s.storCmds = before ++ m :: rest ∨ u ≠ 4 ∧ k = c ∧ s.unit c u = before ++ m :: rest) →
    (u ≠ 9 → m.aside = false) → (∀ x, x ∈ before → if u = 9 then x.finished = false else x.aside = true) →
    (u ≠ 9 → m.finished = false → exec (.engineCompletion k u) s = .next s)
    ∧ (m.finished = true → ∃ t : State, exec (.engineCompletion k u) s = .next t.kernelsCheck ∧ t.mem = s.mem
      ∧ (∀ x, x ∈ t.unit c u ↔ x ∈ s.unit c u ∧ x.id ≠ m.id)
      ∧ (∀ x, x ∈ (t.cl c).engTiles ↔ x ∈ (s.cl c).engTiles ∧ ¬ (m.returns = true ∧ x ∈ m.tiles))
      ∧ (∀ k, t.sem c k = if m.semOf = some k then min (s.sem c k + 1) 0xffffffff else s.sem c k)
      ∧ ∀ k e, e ∈ (t.nd m.nk).sb → m.w.sbs = some k → e ≠ (k.toNat, m.age, m.ix))

/-- R179, R180: CRED, CBCAST and CGATH complete. A command joins its group's episode, or faults when its cluster or chip is no member or
the second of its chip; once all have joined with one shape, each reads its source and sends it to the others; when all are here, the
destination is the fold, the root's stream, or the streams in rank order; each then writes its own and is done. -/
def Sys2Proof.Machine.CollectivesR180 : Prop :=
  ∀ (s : State) (i : Issue) (m : Cmd) (w : EWord) (op : Op) (ins : Instr),
    (op, ins) ∈ [(.cred, .cred w), (.cbcast, .cbcast w), (.cgath, .cgath w)] → WorksOn s i m op ins w →
      let ms := s.collMembers m
      let me := if m.cg then chipId s else i.c
      let e := m.aux.getD 1 0
      let p := m.pats.getD 0 0
      let d := m.pats.getD 1 0
      let ep := if m.cg then Tab.get 0 s.collChip (m.part * 256 + m.grp) else Tab.get 0 (s.cl i.c).collCount m.grp
      let second : Prop := m.cg = true ∧ ∃ x y, x ∈ s.clusters ∧ x.1 ≠ i.c ∧ y ∈ Tab.get [] x.2.units 6 ∧ y.started = true ∧ y.cg = true ∧ y.part = m.part
        ∧ y.grp = m.grp ∧ y.finished = false
      let told (t : State) (ep n : Nat) (bs : Option (List Byte)) : Prop := ∀ x, x ∈ ms → x ≠ me →
        Cast s t i.c m.part (if m.cg then x else chipId s) (if m.cg then 224 else x) 0 n
          (.coll m.collKey m.grp ep me i.c m.id ((op.sel).getD 0) (patEsz p) (patN p) bs)
      (m.started = false →
        (me ∉ ms ∨ second ∨ (op = .cbcast ∧ ms.length ≤ m.lv) → exec ins s = .next (s.failWith i.c i.u m .collectiveMismatch))
        ∧ (me ∈ ms → ¬ second → (op = .cbcast → m.lv < ms.length) → s.collBad.contains (m.kernel, m.grp, ep) = false →
          ∃ t, exec ins s = .next t ∧ t.mem = s.mem ∧ GoesOn t i m (fun x => x.started = true ∧ x.aux = [0, 0, ep])
            ∧ (m.cg = false → Tab.get 0 (t.cl i.c).collCount m.grp = ep + 1)
            ∧ (m.cg = true → Tab.get 0 t.collChip (m.part * 256 + m.grp) = ep + 1 ∧ told t ep 0 none)))
      ∧ (m.started = true → m.stage = 0 → exec ins s = .next s)
      ∧ (m.started = true → m.stage = 1 → e < patN p → ∀ s1 v, s.readElem i.c i.u m p 0 e e = .ok s1 v →
        exec ins s = .next (s1.modCmd i.c i.u m.id fun x =>
          { x with accs := [], aux := [1, e + 1, m.episode], buf := x.buf ++ natLE v (patEsz p) }))
      ∧ (m.started = true → m.stage = 1 → patN p ≤ e → ∃ t, exec ins s = .next t ∧ t.mem = s.mem
        ∧ GoesOn t i m (fun x => x.aux = [2, 0, m.episode] ∧ x.buf = m.buf) ∧ told t m.episode m.buf.length (some m.buf))
      ∧ (m.started = true → m.stage = 2 →
        ((∃ x, x ∈ ms ∧ s.collStream i.c m x = none) → exec ins s = .next s)
        ∧ ((∀ x, x ∈ ms → (s.collStream i.c m x).isSome = true) → ∃ t, exec ins s = .next t ∧ t.mem = s.mem
          ∧ GoesOn t i m fun x => x.aux = [3, 0, m.episode]
            ∧ x.buf = m.collDest (ms.map fun x => (s.collStream i.c m x).getD [])))
      ∧ (m.started = true → 3 ≤ m.stage → e < patN d → ∀ s1 v,
        s.writeElem i.c i.u m d 0 e (2 ^ 40 + e) (leNat (m.buf.take (patEsz d))) = .ok s1 v →
        exec ins s = .next (s1.modCmd i.c i.u m.id fun x =>
          { x with accs := [], aux := [3, e + 1, m.episode], buf := x.buf.drop (patEsz d) }))
      ∧ (m.started = true → 3 ≤ m.stage → patN d ≤ e → ∃ t, exec ins s = .next t ∧ FinishesCmd s t i m)
      ∧ s.collStream i.c m me = some m.buf
      ∧ ∀ xs : List (List Byte),
        (op = .cbcast → m.collDest xs = xs.getD m.lv [])
        ∧ (op = .cgath → m.collDest xs = xs.flatten)
        ∧ (op = .cred → ∀ n, (∀ x, x ∈ xs → x.length = 4 * n) → xs ≠ [] → ∀ j, j < n →
          leNat (((m.collDest xs).drop (4 * j)).take 4) =
            let word (x : List Byte) : Nat := leNat ((x.drop (4 * j)).take 4)
            ((xs.drop 1).foldl (fun r x => credOp (m.sub % 8) r (word x)) (word (xs.headD []))) % 2 ^ 32)

/-- R179: when every member of an episode has issued its command, it runs if they all present one shape; else every member faults.
For a chip group each member decides so from the headers of the others. COLLECTIVE_EPISODE completes. -/
def Sys2Proof.Machine.CollectiveEpisodesStartR179 : Prop :=
  ∀ (s : State) (c : Nat) (m : Cmd),
    (s.unit c 6).find? (fun x => x.started && x.stage = 0 && x.fail.isNone) = some m →
    let ms := s.collMembers m
    (m.cg = false →
      ((∃ d, d ∈ ms ∧ s.collCmd d m = none) → exec (.collectiveEpisode c) s = .next s)
      ∧ (ms.Nodup → (∀ d, d ∈ ms → (s.collCmd d m).isSome = true) → ∃ t, exec (.collectiveEpisode c) s = .next t ∧ t.mem = s.mem
        ∧ ∀ d x, d ∈ ms → s.collCmd d m = some x → (∀ y, y ∈ s.unit d 6 → y.id = x.id → y = x) → ∃ y, y ∈ t.unit d 6 ∧ y.id = x.id
          ∧ ((∀ d' x', d' ∈ ms → s.collCmd d' m = some x' → x'.collShape = m.collShape ∧ x'.collSizeOk ms.length = true) →
            y.aux = [1, 0, m.episode] ∧ y.fail = x.fail)
          ∧ ((∃ d' x', d' ∈ ms ∧ s.collCmd d' m = some x' ∧ ¬ (x'.collShape = m.collShape ∧ x'.collSizeOk ms.length = true)) →
            ∃ f, y.fail = some f ∧ f.cause = .collectiveMismatch)))
    ∧ (m.cg = true → (∀ y, y ∈ s.unit c 6 → y.id = m.id → y = m) →
      let others (d : Nat) : Prop := d ∈ ms ∧ d ≠ chipId s
      let fits (d : Nat) : Prop := ∃ k g e a b z bs, s.collShare c d m false =
        some (.coll k g e a b z m.collShape.1 m.collShape.2.1 m.collShape.2.2 bs)
      ((∃ d, others d ∧ s.collShare c d m false = none) → exec (.collectiveEpisode c) s = .next s)
      ∧ ((∀ d, others d → (s.collShare c d m false).isSome = true) → ∃ t, exec (.collectiveEpisode c) s = .next t ∧ t.mem = s.mem
        ∧ ∃ y, y ∈ t.unit c 6 ∧ y.id = m.id
          ∧ ((∀ d, others d → fits d) ∧ m.collSizeOk ms.length = true → y.aux = [1, 0, m.episode] ∧ y.fail = m.fail)
          ∧ (¬ ((∀ d, others d → fits d) ∧ m.collSizeOk ms.length = true) →
            ∃ f, y.fail = some f ∧ f.cause = .collectiveMismatch)))

/-! ### The matrix array -/

namespace Sys2Proof.Machine

/-- An F32 operation of the array rounds to nearest even (R236); `Sum` of R234 over the products `p 0` to `p n`. -/
def arrRnd (v : FV) : Nat := (FF.f32.ofFV .rne false v).1
def arrMul (a b : FV) : Nat := arrRnd (fvMul a b).1
def arrSum (p : Nat → Nat) : Nat → Nat
  | 0 => p 0
  | n + 1 => flAdd (arrSum p n) (p (n + 1))

/-- A running total over `0` to `n - 1`. -/
def arrFold (f : Nat → Nat → Nat) (w : Nat) : Nat → Nat
  | 0 => w
  | n + 1 => f (arrFold f w n) n

/-- An exact integer sum over `0` to `n - 1`. -/
def intSum (f : Nat → Int) : Nat → Int
  | 0 => 0
  | n + 1 => intSum f n + f n

/-- How a command of the array sends out its entries (R240), one element of its output pattern or one vector token in a step: `nw` entries
make a row, `base` is the stream byte of the tile, `outs` its outside rows; `r` is the step's answer. -/
def SendsOut (s : State) (i : Issue) (m : Cmd) (nw base : Nat) (isInt : Bool) (outs : List Nat) (r : Out) : Prop :=
  let ob := m.ob
  let p := m.outPat
  let esz := patEsz p
  let per := 64 / ob
  let bump (t : State) (fl : Nat) : State :=
    t.modCmd i.c i.u m.id fun x => { x with accs := [], aux := (x.aux.set 2 (m.pos + 1)).set 3 (m.aux.getD 3 0 ||| fl) }
  (m.outMode = 1 → m.pos * esz < m.acc.length * ob →
    let q := outRun m.outFmt m.acc (m.pos * esz / ob) (max 1 (esz / ob))
    let e := (base + m.pos * esz) / esz
    ∀ s1 x, s.writeElem i.c i.u m p 0 e (2 ^ 40 + e) (leNat ((q.1.drop (m.pos * esz % ob)).take esz)) = .ok s1 x →
      r = .next (bump s1 q.2.1))
  ∧ (m.outMode = 2 → m.pos * per < m.acc.length →
    let q := outRun m.outFmt m.acc (m.pos * per) per
    ((s.nd m.nk).queueRoom m.queue = false → r = .next s)
    ∧ ((s.nd m.nk).queueRoom m.queue = true → r = .next (if m.pos * per / nw ∈ outs
      then bump (s.enqueue m.nk m.queue (m.mark { null := true })) 0
      else bump (s.enqueue m.nk m.queue (m.mark { val := .vec (BitVec.ofNat 512 (leNat q.1)), ns := q.2.2 && !isInt })) q.2.1)))

/-- Every entry of the tile has been sent out. -/
def AllOut (m : Cmd) : Prop :=
  m.outMode = 0 ∨ m.outMode = 1 ∧ m.acc.length * m.ob ≤ m.pos * patEsz m.outPat ∨ m.outMode = 2 ∧ m.acc.length ≤ m.pos * (64 / m.ob)

/-- Nothing but the array and the command of cluster `c` differs in memory, registers and nodes. -/
def ArrayOnly (s t : State) : Prop := t.mem = s.mem ∧ t.memx = s.memx ∧ t.sr = s.sr ∧ t.nodes = s.nodes

end Sys2Proof.Machine

/-- R234, R235, R236: the entry that the array forms from 128 activation codes and a column of the weight set, on each of the five
paths, into the working value W: products and sums are rounded one by one in ascending K; a scale byte of 0xFF makes its block
a NaN; the integer paths sum exactly. -/
def Sys2Proof.Machine.ArrayEntriesR235 : Prop :=
  ∀ (s : WSet) (a : Nat) (as asc : List Nat) (n w0 : Nat),
    let wc (k : Nat) : Nat := elAt (wKind s.fmt).width ((s.w.drop (128 * k)).take 128) n
    let av (k : Nat) : FV := elVal (aKind a) (as.getD k 0)
    let wv (k : Nat) : FV := elVal (wKind s.fmt) (wc k)
    let ai (k : Nat) : Int := sInt 8 (as.getD k 0)
    let len := groupLen s.grp
    let entry (p : Path) : Nat := (arrEntry s a p as asc n w0).1
    entry .plain = flAdd w0 (arrSum (fun k => arrMul (av k) (wv k)) 127)
    ∧ entry .block = arrFold (fun w b =>
        let ea := asc.getD b 127
        let ew := wScale s n b
        if ea = 255 ∨ ew = 255 then flAdd w FF.f32.nan
        else flAdd w (scaleF (arrSum (fun k => arrMul (av (32 * b + k)) (wv (32 * b + k))) 31) ((ea : Int) - 127 + ((ew : Int) - 127))).1) w0 4
    ∧ entry .fgroup = arrFold (fun w g =>
        let p := arrSum (fun k => arrMul (av (len * g + k)) (wv (len * g + k))) (len - 1)
        let sm := arrSum (fun k => arrRnd (av (len * g + k))) (len - 1)
        let c := flAdd p (arrMul (.fin false (qZero s n g) 0) (FF.f32.dec sm) ^^^ 0x80000000)
        flAdd w (arrMul (qScale s n g) (FF.f32.dec c))) w0 (128 / len)
    ∧ (entry .int : Int) = ((w0 : Int) + intSum (fun k => ai k * sInt 8 (wc k)) 128) % 2 ^ 32
    ∧ entry .igroup = arrFold (fun w g =>
        let p := intSum (fun k => ai (len * g + k) * (wc (len * g + k) : Int)) len
        let c := p - (qZero s n g : Int) * intSum (fun k => ai (len * g + k)) len
        flAdd w (arrMul (qScale s n g) (.fin (c < 0) c.natAbs 0))) w0 (128 / len)

/-- R228, R244, R245: WLOAD and WSWAP complete: WLOAD waits for earlier swaps, checks its bounds, makes the shadow set invalid, at its
issue already where no swap is to come, reads its set and side data piece by piece, and makes the shadow set valid with its format;
WSWAP waits for earlier loads and exchanges the two sets, or faults when the shadow
set is not valid. -/
def Sys2Proof.Machine.WeightSetsLoadAndSwapR244 : Prop :=
  ∀ (s : State) (i : Issue) (m : Cmd) (w : EWord),
    let a := (s.cl i.c).array
    let sl := sideLen (m.imm % 16) (m.imm / 16 % 4)
    (WorksOn s i m .wload (.wload w) w →
      (m.started = false → (∃ x, x ∈ s.unit i.c 7 ∧ x.op = .wswap ∧ x.id < m.id ∧ x.finished = false) → exec (.wload w) s = .next s)
      ∧ (m.started = false → (∀ x, x ∈ s.unit i.c 7 → x.op = .wswap → x.id < m.id → x.finished = true) →
        (∀ cz, wloadAt s i.c m = .error cz → exec (.wload w) s = .next (s.failWith i.c i.u m cz))
        ∧ ∀ e so, wloadAt s i.c m = .ok (e, so) →
          (∃ t, exec (.wload w) s = .next t ∧ ArrayOnly s t
            ∧ (t.cl i.c).array = { a with shad := { a.shad with valid := false } }
            ∧ GoesOn t i m fun x => x.started = true ∧ x.aux = [0, e, so])
          ∧ ((s.unit i.c 8).getLast? = some m → ArrayOnly s (s.wloadIssue i.c)
            ∧ ((s.wloadIssue i.c).cl i.c).array = { a with shad := { a.shad with valid := false } }))
      ∧ (let so := if sl = 0 then 0 else m.rv
        (m.sub % 2 = 0 → (so + sl ≤ 0x400000 → wloadAt s i.c m = .ok (m.lv, so))
          ∧ (0x400000 < so + sl → wloadAt s i.c m = .error .addressOutOfRange))
        ∧ (∀ h ob wr hs o, m.sub % 2 = 1 → m.hnds = (h, ob, wr) :: hs → Tab.find s.dir.objs ob = some o →
          let e := m.lv % 2 ^ 40
          (o.ws = false ∨ o.cl ≠ i.c ∨ o.size < e + 16384 → wloadAt s i.c m = .error .handleBound)
          ∧ (o.ws = true → o.cl = i.c → e + 16384 ≤ o.size →
            (o.size < so + sl → wloadAt s i.c m = .error .addressOutOfRange)
            ∧ (so + sl ≤ o.size → wloadAt s i.c m = .ok (o.base + e, o.base + so)))))
      ∧ (∀ k e so, m.started = true → m.aux = [k, e, so] →
        (32 * k < 16384 + sl →
          let off := if k < 512 then e + 32 * k else so + 32 * (k - 512)
          let n := if k < 512 then 32 else min 32 (sl - 32 * (k - 512))
          (badAt s (wsKey i.c off) = true ∨ badAt s (wsKey i.c (off + n - 1)) = true →
            exec (.wload w) s = .next (s.failWith i.c i.u m .uncorrectableError 1 off))
          ∧ (badAt s (wsKey i.c off) = false → badAt s (wsKey i.c (off + n - 1)) = false → ∃ t, exec (.wload w) s = .next t ∧ ArrayOnly s t
            ∧ (t.cl i.c).array = a ∧ GoesOn t i m fun x => x.aux = [k + 1, e, so] ∧ x.buf = m.buf ++ memBytes s (wsKey i.c off) n))
        ∧ (16384 + sl ≤ 32 * k → ∃ t, exec (.wload w) s = .next t ∧ ArrayOnly s t ∧ FinishesCmd s t i m
          ∧ (t.cl i.c).array = { a with shad :=
            { valid := true, fmt := m.imm % 16, grp := m.imm / 16 % 4, w := m.buf.take 16384, side := m.buf.drop 16384, e := e, so := so } })))
    ∧ (WorksOn s i m .wswap (.wswap w) w →
      ((∃ x, x ∈ s.unit i.c 8 ∧ x.id < m.id ∧ x.finished = false) → exec (.wswap w) s = .next s)
      ∧ ((∀ x, x ∈ s.unit i.c 8 → x.id < m.id → x.finished = true) →
        (a.shad.valid = false → exec (.wswap w) s = .next (s.failWith i.c i.u m .arrayFormat))
        ∧ (a.shad.valid = true → ∃ t, exec (.wswap w) s = .next t ∧ ArrayOnly s t ∧ FinishesCmd s t i m
          ∧ (t.cl i.c).array = { a with act := a.shad, shad := a.act })))

/-- R237 to R241, R246, R247: MMA and MRECUR complete: they check the active set, the formats and the patterns when they start;
each tile or step reads its rows, and for an MX format their scales, forms its working values, sends its output, and then commits:
the accumulator, the count and the flags follow, and the command ends with the last. A row that fails ends the command.
MATRIX_TILE_COMMIT completes. -/
def Sys2Proof.Machine.TilesRunInOrderR239 : Prop :=
  (∀ (s : State) (i : Issue) (m : Cmd) (w : EWord) (op : Op) (ins : Instr), (op, ins) ∈ [(.mma, .mma w), (.mrecur, .mrecur w)] →
    WorksOn s i m op ins w →
      let a := (s.cl i.c).array
      let mt := if op = .mma then mtOf a.act.fmt else 1
      let rb := if op = .mma then rbOf m.afmt else 512
      (m.started = false → (a.act.valid = false ∨ pathOf m.afmt a.act.fmt = none) → exec ins s = .next (s.arrFail i.c i.u m (m.pending .arrayFormat) none))
      ∧ (m.started = false → arrCheck s i.c m = none → ∃ t, exec ins s = .next t ∧ ArrayOnly s t
        ∧ (t.cl i.c).array = { a with count := 0 } ∧ GoesOn t i m fun x => x.started = true ∧ x.aux = [0, 0, 0, 0])
      ∧ (∀ tile pos fl outs, m.started = true → m.aux = [0, tile, pos, fl] ++ outs → pos < mt →
        let at_ := (tile * mt + pos) * rb
        let took (s1 : State) (bs : List Byte) (out : Bool) : Out := .next (s1.modCmd i.c i.u m.id fun x => { x with
          accs := [], buf := x.buf ++ bs, aux := x.aux.set 2 (pos + 1) ++ (if out then [pos] else []) })
        (∀ s1 f bs out, s.arrRead i.c i.u m (m.pats.getD 0 0) 0 at_ rb = (.bad s1 f, bs, out) →
          exec ins s = .next (s1.arrFail i.c i.u m f (some pos)))
        ∧ ∀ s1 v bs out, s.arrRead i.c i.u m (m.pats.getD 0 0) 0 at_ rb = (.ok s1 v, bs, out) →
          (op = .mrecur → exec ins s = took s1 bs out)
          ∧ (op = .mma → m.afmt < 5 → exec ins s = took s1 (bs ++ [127, 127, 127, 127]) out)
          ∧ (op = .mma → 5 ≤ m.afmt → ∀ s2 v2 sc out2,
            s1.arrRead i.c i.u m (m.pats.getD 1 0) (2 ^ 40) ((tile * mt + pos) * 4) 4 = (.ok s2 v2, sc, out2) →
            exec ins s = took s2 (bs ++ sc) out))
      ∧ (∀ tile pos fl outs, m.started = true → m.aux = [0, tile, pos, fl] ++ outs → mt ≤ pos →
        (a.act.err = true → exec ins s = .next (s.arrFail i.c i.u m (m.pending .uncorrectableError) none))
        ∧ (a.act.err = false → ∃ t, exec ins s = .next t ∧ ArrayOnly s t ∧ (t.cl i.c).array = a
          ∧ GoesOn t i m fun x => x.aux = [1, tile, 0, (arrCompute s i.c m).2] ++ outs ∧ x.acc = (arrCompute s i.c m).1 ∧ x.buf = []))
      ∧ (∀ tile pos fl outs, m.started = true → m.aux = [1, tile, pos, fl] ++ outs →
        SendsOut s i m (if op = .mma then nwOf a.act.fmt else 128)
          (tile * (if op = .mma then mt * nwOf a.act.fmt else 128) * m.ob) (decide (pathOf m.afmt a.act.fmt = some .int))
          (if op = .mma then outs else []) (exec ins s)
        ∧ (AllOut m → ∃ t, exec ins s = .next t ∧ ArrayOnly s t
          ∧ (t.cl i.c).array = a ∧ GoesOn t i m fun x => x.aux = [2, tile, pos, fl] ++ outs ∧ x.acc = m.acc)))
  ∧ ∀ (s : State) (c : Nat) (m : Cmd) (rest : List Cmd) (tile pos fl : Nat) (outs : List Nat), s.unit c 7 = m :: rest → m.started = true →
      m.finished = false → m.op = .mma ∨ m.op = .mrecur → m.aux = [2, tile, pos, fl] ++ outs →
      ∃ t, exec (.matrixTileCommit c) s = .next t ∧ ArrayOnly s t ∧ (t.cl c).array.count = tile + 1
        ∧ (t.cl c).array.flags = (s.cl c).array.flags ||| fl
        ∧ (t.cl c).array.act = (s.cl c).array.act ∧ (t.cl c).array.shad = (s.cl c).array.shad
        ∧ (∀ j, j < m.acc.length → Tab.get 0 ((t.cl c).array.acc (m.accOf tile)) j = BitVec.ofNat 32 (m.acc.getD j 0))
        ∧ (t.cl c).array.acc (!m.accOf tile) = (s.cl c).array.acc (!m.accOf tile)
        ∧ ∃ x, t.unit c 7 = x :: rest ∧ x.aux = [0, tile + 1, 0, 0] ∧ x.finished = decide (m.lv ≤ tile + 1)

/-- R240, R248, R249, R250: MACC, MZERO and MSTAT complete: MACC sends out the entries of its accumulator, in every output mode, and
changes none; MZERO clears one accumulator or both; MSTAT sends the array's state to its queue, and with .CLR clears the flags. An
entry goes out as it is held, or rounded to B16 or F16. -/
def Sys2Proof.Machine.ArrayReadOutR248 : Prop :=
  (∀ fmt ws k n, (outRun fmt ws k n).1 = ((ws.drop k).take n).flatMap (fun w =>
      if fmt = 0 then natLE w 4 else natLE ((if fmt = 1 then FF.b16 else FF.f16).ofFV .rne false (FF.f32.dec w)).1 2)) ∧
  ∀ (s : State) (i : Issue) (m : Cmd) (w : EWord),
    let a := (s.cl i.c).array
    (WorksOn s i m .macc (.macc w) w →
      (m.started = false → m.outMode = 1 → patN m.outPat * patEsz m.outPat ≠ 16384 * m.ob →
        exec (.macc w) s = .next (s.arrFail i.c i.u m (m.pending .patternMismatch) none))
      ∧ (m.started = false → (m.outMode = 1 → patN m.outPat * patEsz m.outPat = 16384 * m.ob) → ∃ t, exec (.macc w) s = .next t
        ∧ ArrayOnly s t ∧ (t.cl i.c).array = a
        ∧ GoesOn t i m fun x => x.started = true ∧ x.aux = [1, 0, 0, 0] ∧ x.acc.length = 16384
          ∧ ∀ j, j < 16384 → x.acc.getD j 0 = (Tab.get 0 (a.acc m.sel) j).toNat)
      ∧ (m.started = true →
        SendsOut s i m (if m.imm / 256 % 4 = 0 then 64 else if m.imm / 256 % 4 = 1 then 128 else 256) 0 false [] (exec (.macc w) s)
        ∧ (AllOut m → ∃ t, exec (.macc w) s = .next t ∧ ArrayOnly s t
          ∧ FinishesCmd s t i m ∧ (t.cl i.c).array = { a with flags := a.flags ||| m.aux.getD 3 0 })))
    ∧ (WorksOn s i m .mzero (.mzero w) w → ∃ t, exec (.mzero w) s = .next t ∧ ArrayOnly s t ∧ FinishesCmd s t i m
      ∧ (t.cl i.c).array.act = a.act ∧ (t.cl i.c).array.shad = a.shad ∧ (t.cl i.c).array.flags = a.flags
      ∧ ∀ second j, Tab.get 0 ((t.cl i.c).array.acc second) j
          = if m.imm / 2 ^ 13 % 2 = 1 ∨ second = decide (m.imm / 2 ^ 12 % 2 = 1) then 0 else Tab.get 0 (a.acc second) j)
    ∧ (WorksOn s i m .mstat (.mstat w) w →
      ((s.nd m.nk).queueRoom m.queue = false → exec (.mstat w) s = .next s)
      ∧ ((s.nd m.nk).queueRoom m.queue = true →
        let ldp := (s.unit i.c 8).any fun x => !x.finished
        let word := a.count % 2 ^ 32 * 2 ^ 32 + (if ldp then 2 ^ 16 else 0) + a.flags % 32 * 2 ^ 10 + (if a.shad.valid then 2 ^ 9 else 0)
          + a.shad.fmt * 2 ^ 5 + (if a.act.valid then 2 ^ 4 else 0) + a.act.fmt
        ∃ t, exec (.mstat w) s = .next t ∧ FinishesCmd s t i m
          ∧ (t.cl i.c).array = (if m.sub % 2 = 1 then { a with flags := 0 } else a)
          ∧ ((s.nd m.nk).wires.find? (fun x => x.q = m.queue) = none →
            ∃ k, k ∈ (t.nd m.nk).outq ∧ k.q = m.queue ∧ k.o = some (m.mark { val := .sc (BitVec.ofNat 64 word) }))))

/-! ### Key-match stores -/

namespace Sys2Proof.Machine

/-- The key-match instructions. -/
def kmsOps (w : EWord) : List (Op × Instr) :=
  [(.kcfg, .kcfg w), (.kbias, .kbias w), (.kmask, .kmask w), (.kbind, .kbind w), (.kunbind, .kunbind w), (.klife, .klife w),
   (.kqry, .kqry w), (.kstat, .kstat w)]

/-- The command of a message has taken effect at its store, which is `k` now; memory and the other stores stand. -/
def StoreBecomes (s u : State) (c st : Nat) (k : Kms) : Prop :=
  u.kms c st = k ∧ u.mem = s.mem ∧ u.sr = s.sr ∧ ∀ d sd, (d, sd) ≠ (c, st) → u.kms d sd = s.kms d sd

/-- The command counts one store more, with no failure or with the first. -/
def Answered (s u : State) (c0 st : Nat) (m : Cmd) (bad : Option Cause) : Prop :=
  ∀ x, (s.unit c0 (10 + st)).find? (fun x => x.id = m.id) = some x → ∃ y, (u.unit c0 (10 + st)).find? (fun x => x.id = m.id) = some y
    ∧ y.got.length = x.got.length + 1 ∧ (bad = none → y.fail0 = x.fail0)
    ∧ (∀ c, bad = some c → x.fail0 = none → ∃ f, y.fail0 = some f ∧ f.cause = c)

end Sys2Proof.Machine

/-- R267, R271, R278: KCFG, KBIAS, KMASK, KBIND, KUNBIND, KLIFE, KQRY and KSTAT complete: the command goes to its store, or to the stores
of its group, a group query with the row that it has read; what a store sends out enters the queue, in the places reserved or at its
end, as there is room; and the command ends when every store has answered, with the first failure if there was one. -/
def Sys2Proof.Machine.KeyMatchCommandsAreSentR271 : Prop :=
  ∀ (s : State) (i : Issue) (m : Cmd) (w : EWord) (op : Op) (ins : Instr), (op, ins) ∈ kmsOps w → WorksOn s i m op ins w →
    let st := i.u - 10
    let ds := s.kmsTo i.c m
    let off := m.lv % 2 ^ 21
    let n := 2 * cfgDim (s.kms i.c st).cfg
    let told (t : State) (row : Option (List Byte)) : Prop := ∀ j d, ds[j]? = some d →
      Cast s t i.c m.part (chipId s) d 0 (row.getD []).length (.kms st j i.c m row (s.kms i.c st).cfg none)
    let out (j d : Nat) (o : KOut) : Prop :=
      ds[j]? = some d ∧ ((s.kms d st).outs.find? fun o => o.c = i.c && o.id = m.id && o.j = j) = some o
    (m.started = false → ¬ (op = .kqry ∧ m.kgrp = true) →
      ∃ t, exec ins s = .next t ∧ t.mem = s.mem ∧ GoesOn t i m (fun x => x.started = true) ∧ told t none)
    ∧ (m.started = false → op = .kqry → m.kgrp = true →
      (∀ x, x ∈ s.unit i.c i.u → x.op = .kcfg → x.id < m.id → x.finished = true) →
      (cfgDim (cfgAhead s i.c st) = 0 → exec ins s = .next (s.failWith i.c i.u m .storeState))
      ∧ (cfgDim (cfgAhead s i.c st) ≠ 0 → 0x180000 < off + n → exec ins s = .next (s.failWith i.c i.u m .addressOutOfRange 0 off 0))
      ∧ (cfgDim (cfgAhead s i.c st) ≠ 0 → off + n ≤ 0x180000 →
        ((∃ x, x ∈ rangeTiles off n ∧ x ∉ (s.cl i.c).engTiles) → exec ins s = .next (s.failWith i.c i.u m .ownerViolation 0 off 0))
        ∧ ((∀ x, x ∈ rangeTiles off n → x ∈ (s.cl i.c).engTiles) →
          (m.buf.length < n → badAt s (spKey i.c (off + m.buf.length)) = true →
            exec ins s = .next (s.failWith i.c i.u m .uncorrectableError 0 off 0))
          ∧ (m.buf.length < n → badAt s (spKey i.c (off + m.buf.length)) = false → ∃ t, exec ins s = .next t ∧ t.mem = s.mem
            ∧ GoesOn t i m fun x => x.buf = m.buf ++ memBytes s (spKey i.c (off + m.buf.length)) (min 32 (n - m.buf.length)))
          ∧ (n ≤ m.buf.length → ∃ t, exec ins s = .next t ∧ t.mem = s.mem ∧ GoesOn t i m (fun x => x.started = true)
            ∧ told t (some m.buf)))))
    ∧ (m.started = true → m.got.length < ds.length →
      ((∀ j d o, ¬ out j d o) → exec ins s = .next s)
      ∧ ((∃ j d o, out j d o) → ∃ j d o, out j d o ∧ exec ins s = .next (s.kmsSend i.c st m d o)))
    ∧ (m.started = true → ds.length ≤ m.got.length →
      (m.fail0 = none → ∃ t, exec ins s = .next t ∧ FinishesCmd s t i m)
      ∧ ∀ f, m.fail0 = some f → exec ins s = .next (s.failCmd i.c i.u m f))
    ∧ ∀ d o kd x ts, o.toks = (kd, x) :: ts →
      let sent (u : State) : State := u.modKms d st fun k => { k with
        outs := k.outs.map fun y => if y.c = i.c && y.id = m.id && y.j = o.j then { y with toks := ts, k := y.k + 1 } else y }
      (∀ q p, m.place = some (q, p) → let at_ := p + o.j * (m.places / max 1 ds.length) + o.k
        s.kmsSend i.c st m d o = if (s.nd m.nk).placeRoom q at_ then sent (s.fillPlace m.nk q at_ kd (m.mark x)) else s)
      ∧ (m.place = none → s.kmsSend i.c st m d o = if s.outTurn i.c st m d && (s.nd m.nk).queueRoom m.queue
        then sent (s.enqueue m.nk m.queue (m.mark x) kd) else s)

/-- R256, R266, R267, R273 to R280: what a command does as it arrives at its store: KCFG configures it, empties its slots and
drops its mask; KBIAS sets sixteen entries; KMASK takes a valid block; KBIND, KUNBIND and KLIFE change slots, or fail with "store
state"; KSTAT gives the store's word; an unconfigured store takes only KCFG and KSTAT. A query reads its pieces, one in a step,
selects, reads the value rows, and then counts, spends the lifetimes of what it fired and leaves its output; a failure of a read
is one of the query's. A command waits while a query is being scored. KMS_COMMAND_ARRIVAL completes. -/
def Sys2Proof.Machine.StoresTakeCommandsR273 : Prop :=
  ∀ (s : State) (p : Parcel) (rest : List Parcel) (st j c0 : Nat) (m : Cmd) (row : Option (List Byte)) (cfg : V512)
    (stage : Option KScore) (w : EWord), s.inbox = p :: rest → p.body = .kms st j c0 m row cfg stage →
    let c := p.dst
    let k := s.kms c st
    let slot := m.lv % 64
    let off := m.lv % 2 ^ 21
    let does (u : State) : Prop := (s.picking 0).msgDo p = some u
    let fails (cz : Cause) : Prop := ∃ u, does u ∧ StoreBecomes s u c st k ∧ Answered s u c0 st m (some cz)
    let takes (k' : Kms) : Prop := ∃ u, does u ∧ StoreBecomes s u c st k' ∧ Answered s u c0 st m none
    let refused (ns : Bool) (nc : Nat) (o : KOut) (cz : Cause) : Prop := o.c = c0 ∧ o.id = m.id ∧ o.j = j ∧ o.tiles = []
      ∧ o.toks = (if m.kgrp then List.replicate nc (.null, { Opnd.nullEr with ns := ns }) else []) ∧ o.bad.map (fun f => f.cause) = some cz
    let lost (nc : Nat) (cz : Cause) : Prop := ∃ u o, does u ∧ StoreBecomes s u c st { k with outs := k.outs ++ [o] } ∧ refused false nc o cz
    let goesOn (x : KScore) : Prop := ∃ u, does u ∧ u.mem = s.mem ∧ u.kms c st = k
      ∧ { p with body := .kms st j c0 m row cfg (some x) } ∈ u.inbox
    (∀ u, does u → exec (.kmsCommandArrival 0) s = .next u.kernelsCheck)
    ∧ (stage = none → s.kmsBusy c st = true → (s.picking 0).msgDo p = none)
    ∧ (stage = none → s.kmsBusy c st = false →
      (cfgDim k.cfg = 0 → ∀ op ins, (op, ins) ∈ kmsOps w → m.instr = ins → op ≠ .kcfg → op ≠ .kstat → ¬ (op = .kqry ∧ m.kgrp = true) →
        fails .storeState)
      ∧ (m.instr = .kqry w → m.kgrp = true → s.kmsAlike c st m cfg = false → lost (cfgNc cfg) .storeState)
      ∧ (m.instr = .kcfg w → takes { k with cfg := m.lvec, slots := [], mask := none })
      ∧ (cfgDim k.cfg ≠ 0 →
        (m.instr = .kbias w → ∃ u b, does u ∧ StoreBecomes s u c st { k with bias := b } ∧ Answered s u c0 st m none
          ∧ ∀ e, Tab.get 0 b e = if m.imm % 16 * 32 + m.imm / 16 % 2 * 16 ≤ e ∧ e < m.imm % 16 * 32 + m.imm / 16 % 2 * 16 + 16
              then m.lvec.extractLsb' (32 * (e % 16)) 32 else Tab.get 0 k.bias e)
        ∧ (m.instr = .kbind w →
          let b := bindOf m.lvec
          ((keysPerTile k.cfg < b.nk ∨ 0x180000 < b.vbase + b.span k.cfg) → fails .storeState)
          ∧ (b.nk ≤ keysPerTile k.cfg → b.vbase + b.span k.cfg ≤ 0x180000 → (∃ x, x ∈ b.tilesOf k.cfg ∧ x ∉ (s.cl c).engTiles) → fails .ownerViolation)
          ∧ (b.nk ≤ keysPerTile k.cfg → b.vbase + b.span k.cfg ≤ 0x180000 → (∀ x, x ∈ b.tilesOf k.cfg → x ∈ (s.cl c).engTiles) →
            takes { k with slots := Tab.put k.slots ((wordOf m.lvec 0).toNat / 2 ^ 40 % 64) { b with tiles := b.tilesOf k.cfg } }))
        ∧ (m.instr = .kunbind w → takes { k with slots := if m.sub % 2 = 1 then [] else Tab.del k.slots slot })
        ∧ (m.instr = .klife w → (Tab.find k.slots slot = none → fails .storeState)
          ∧ ∀ b, Tab.find k.slots slot = some b →
            takes { k with slots := Tab.put k.slots slot { b with life := m.imm % 4, count := m.rv % 2 ^ 32 } })
        ∧ (m.instr = .kmask w →
          (m.lv / 2 ^ 21 % 2 ^ 43 ≠ 0 ∨ off % 64 ≠ 0 ∨ 0x180000 < off + 64 → fails .addressOutOfRange)
          ∧ (m.lv / 2 ^ 21 % 2 ^ 43 = 0 → off % 64 = 0 → off + 64 ≤ 0x180000 →
            let n := maskN (memBytes s (spKey c off) 64)
            let len := 64 + 8 * min n 16
            off + len ≤ 0x180000 → (∀ x, x ∈ rangeTiles off 64 ∨ x ∈ rangeTiles off len → x ∈ (s.cl c).engTiles) →
            spBad s c off 64 = false → spBad s c off len = false →
              (maskBad (memBytes s (spKey c off) len) = true → fails .badMask)
              ∧ (maskBad (memBytes s (spKey c off) len) = false →
                takes { k with mask := if n = 0 then none else some (memBytes s (spKey c off) len) }))))
      ∧ (m.instr = .kstat w → ∃ u, does u ∧ u.mem = s.mem
        ∧ (u.kms c st).outs = k.outs ++ [{ c := c0, id := m.id, j := j, toks := [(.data, { val := .sc (BitVec.ofNat 64 (k.qcnt * 2 ^ 32
            + k.slots.length * 2 ^ 16 + k.flags % 32 * 2 ^ 10 + (if k.nan then 2 ^ 9 else 0) + (if cfgDim k.cfg ≠ 0 then 1 else 0))) })] }]
        ∧ (u.kms c st).flags = (if m.sub % 2 = 1 then 0 else k.flags) ∧ (u.kms c st).nan = (if m.sub % 2 = 1 then false else k.nan)
        ∧ (u.kms c st).cfg = k.cfg ∧ (u.kms c st).slots = k.slots)
      ∧ (m.instr = .kqry w → s.kmsAlike c st m cfg = true →
        (∀ f, queryBad s c k m row = some f → lost (cfgNc k.cfg) f.cause) ∧ (queryBad s c k m row = none → goesOn {})))
    ∧ (m.instr = .kqry w → ∀ x : KScore, stage = some x →
      let todo := match x.sel with | none => keyPieces c k m row | some xs => valPieces c k xs
      let q := queryOf c k m row x
      let z := scoreQuery x.at_ c k q
      (∀ key aux va spc tile more, (todo.filter fun e => (Tab.find x.rd e.1).isNone) = (key, aux, va, spc, tile) :: more →
        ((∃ y, tile = some y ∧ y ∉ (s.cl c).engTiles) → lost (cfgNc k.cfg) .ownerViolation)
        ∧ ((∀ y, tile = some y → y ∈ (s.cl c).engTiles) →
          (badAt s key = true → lost (cfgNc k.cfg) .uncorrectableError)
          ∧ (badAt s key = false → goesOn { x with rd := Tab.put x.rd key (memRead s key 32) })))
      ∧ ((todo.filter fun e => (Tab.find x.rd e.1).isNone) = [] →
        (x.sel = none → goesOn { x with sel := some (z.sel.map fun e => e.1.x) })
        ∧ (x.sel ≠ none → ∃ u, does u ∧ u.mem = s.mem ∧ (u.kms c st).qcnt = (k.qcnt + 1) % 2 ^ 32 ∧ (u.kms c st).nan = (k.nan || z.nan)
          ∧ (u.kms c st).bias = k.bias ∧ (u.kms c st).cfg = k.cfg ∧ (u.kms c st).mask = k.mask
          ∧ (let fired (b : Nat) : Prop := ∃ e, e ∈ z.sel ∧ e.1.slot = b
            ∀ b y, (b, y) ∈ (u.kms c st).slots ↔ ∃ y0, (b, y0) ∈ k.slots ∧ ((¬ fired b ∨ y0.life = 0) ∧ y = y0
              ∨ fired b ∧ y0.life ≠ 0 ∧ y0.life ≠ 2 ∧ 1 < y0.count ∧ y = { y0 with count := y0.count - 1 }))
          ∧ (z.nan = true → m.fctl / 2 ^ 9 % 2 = 1 →
            ∃ o, (u.kms c st).outs = k.outs ++ [o] ∧ refused true (cfgNc k.cfg) o .nanScore)
          ∧ ((z.nan = true → m.fctl / 2 ^ 9 % 2 = 0) → (u.kms c st).outs = k.outs ++
            [{ c := c0, id := m.id, j := j, toks := if m.kpart then partToks k.cfg z else (fullToks k.cfg z).1, tiles := k.tiles }]))))

/-- R258 to R263: a query's selected keys are candidates of its head with a finite or +∞ score, in rank order: no selected key ranks
before an earlier one, no selectable candidate that is left out ranks before a selected one, and top-k mode takes K of them or
all. A score is the scaled dot product plus the bias of its head and bucket; a weight is 2^(score - m), and the sums run over the
selected keys in ascending position. The bucket of a distance is that of R260. -/
def Obligations.QueriesSelectTheBestKeysR262 : Prop :=
  (∀ (rd : Nat → Nat → Nat) (c : Nat) (k : Kms) (q : Query),
    let cs := candidates k q
    let sc := cs.1.map fun x => (x, (scoreOf rd c k q cs.2 x).1)
    let ok := sc.filter fun e => selectable e.2
    let z := scoreQuery rd c k q
    let sel := z.sel.map fun e => (e.1, e.2.1)
    (∀ x, x ∈ cs.1 → ∃ b, (x.slot, b) ∈ k.slots ∧ b.head = q.head ∧ x.i < b.nk ∧ x.x = x.slot * 128 + x.i
      ∧ (cfgCausal k.cfg = true → x.pos ≤ cs.2))
    ∧ (∀ x, cfgDim k.cfg ≠ 0 →
      let b := Tab.get ({} : Bind) k.slots x.slot
      let dot := arrSum (fun d => arrMul (FF.b16.dec (elAt 16 q.row d))
        ((keyFF k.cfg).dec (rd (keyAt c k.cfg b d x.i).1 (keyAt c k.cfg b d x.i).2))) (cfgDim k.cfg - 1)
      let dist := if cfgCausal k.cfg then cs.2 - x.pos else (cs.2 - x.pos) + (x.pos - cs.2)
      (scoreOf rd c k q cs.2 x).1 = flAdd (FF.f32.mul .rne false dot (cfgScale k.cfg)).1
        (Tab.get (0 : BitVec 32) k.bias (q.head * 32 + bucketOf dist)).toNat)
    ∧ (∀ e, e ∈ sel → e ∈ ok)
    ∧ sel.length = (if cfgDense k.cfg then ok.length else min (cfgK k.cfg) ok.length)
    ∧ sel.Pairwise (fun a b => keyBefore b a = false)
    ∧ (∀ e, e ∈ ok → e ∉ sel → ∀ a, a ∈ sel → keyBefore e a = false)
    ∧ (z.sel = [] → z.m = FF.f32.infPat true ∧ z.l = 0)
    ∧ (∀ e rest, sel = e :: rest → z.m = e.2)
    ∧ (∀ e, e ∈ z.sel → e.2.2 = if z.m = FF.f32.infPat false then (if e.2.1 = z.m then 0x3f800000 else 0) else (exp2Diff e.2.1 z.m).1)
    ∧ (∃ by_, List.Perm by_ z.sel ∧ by_.Pairwise (fun a b => a.1.pos < b.1.pos ∨ a.1.pos = b.1.pos ∧ a.1.x ≤ b.1.x)
      ∧ z.l = by_.foldl (fun l e => flAdd l e.2.2) 0
      ∧ ∀ n, n < cfgDv k.cfg → z.o.getD n 0 = by_.foldl (fun o e =>
          flAdd o (FF.f32.mul .rne false e.2.2 (arrRnd (FF.b16.dec (rd (valAt c k e.1 n) 2)))).1) 0)
    ∧ (z.nan = true ↔ ∃ e, e ∈ sc ∧ (FF.f32.dec e.2).isNan = true))
  ∧ ∀ d, (d ≤ 7 → bucketOf d = d)
    ∧ (∀ l, 3 ≤ l → l ≤ 8 → 2 ^ l ≤ d → d < 2 ^ (l + 1) → bucketOf d = 8 + 4 * (l - 3) + d / 2 ^ (l - 2) % 4)
    ∧ (512 ≤ d → bucketOf d = 31)

/-! ### The task unit -/

/-- R308, R309, R311, R312, R313: LAUNCH, GARM, SPAWN, TRET, HREG and HREG_UNREG complete. LAUNCH writes its record at the queue's
TAIL, which steps; a queue of another partition, or one not enabled, refuses it at its issue (`issueCheck`), and a full ring, or an atomic on the
record's granule, holds it. GARM arms a section, or leaves an arming pending. An issued SPAWN makes its tag's invocation ready and
waits for it, or without a tag fills its place; TRET ends at once. HREG binds a handler name and HREG.UNREG removes one.
(Log 45 and 74.) -/
def Obligations.TaskCommandsR308 : Prop :=
  ∀ (s : State) (i : Issue) (m : Cmd) (w : EWord),
    let key := nameKey m.part m.lv
    (WorksOn s i m .launch (.launch w) w → m.started = false →
      let q := m.imm % 64
      let t := lqTail s q
      let ours := lqEn s q = true ∧ lqPart s q = m.part ∧ (wordOf m.lvec 3).toNat / 2 ^ 20 % 64 = m.part
      let used := (t + 2 ^ 32 - lqDone s q) % 2 ^ 32
      (s.issueCheck m = none ↔ ours) ∧ (¬ ours → s.issueCheck m = some .permission)
      ∧ (lqEnt s q + 1 ≤ used → exec (.launch w) s = .next s)
      ∧ (used < lqEnt s q + 1 → ∀ c, sysLoc s m.part (lqAsid s q) (lqRec s q t) permW = .error c →
        exec (.launch w) s = .next (s.failWith i.c i.u m c))
      ∧ (used < lqEnt s q + 1 → ∀ pa slot,
        sysLoc s m.part (lqAsid s q) (lqRec s q t) permW = .ok (pa, slot) →
        (reservedBy s pa (2 ^ 30) 0 = true → exec (.launch w) s = .next s)
        ∧ (reservedBy s pa (2 ^ 30) 0 = false → ∃ u, exec (.launch w) s = .next u ∧ u.mem = (writeUnder s pa 64 m.lvec.toNat (some slot)).mem ∧ lqTail u q = (t + 1) % 2 ^ 32
          ∧ (m.sub % 2 = 0 → IsFinished u i m)
          ∧ (m.sub % 2 = 1 → GoesOn u i m fun x => x.started = true ∧ x.finished = m.finished ∧ x.aux = [1, q, t]))))
    ∧ (WorksOn s i m .garm (.garm w) w → m.started = false → ∀ k x, (s.nd m.nk).kernel = some k → s.kern k = some x →
      let j := m.lv % 64
      (x.secs.length ≤ j → exec (.garm w) s = .next (s.failWith i.c i.u m .badSection))
      ∧ (j < x.secs.length → (x.sec j).st = .armed → ∃ u y, exec (.garm w) s = .next u ∧ u.mem = s.mem ∧ u.kern k = some y
        ∧ y.sec j = { x.sec j with arming := (x.sec j).arming ++ [{ t := m.rv, cmd := some (i.c, m.id) }] }
        ∧ GoesOn u i m fun x => x.started = true)
      ∧ (j < x.secs.length → (x.sec j).st ≠ .armed → exec (.garm w) s = .next ((s.armSection k j m.rv).finishCmd i.c i.u m)
        ∧ ∀ y, (s.armSection k j m.rv).kern k = some y → (y.sec j).st = .armed))
    ∧ (WorksOn s i m .spawn (.spawn w) w → exec (.spawn w) s = .next s)
    ∧ (∀ (c : Nat) (x : Cmd),
      let new (y : Cmd) : Prop := y.instr = x.instr ∧ y.nk = x.nk ∧ y.started = true
      (∃ y, y ∈ (s.spawnIssue c x none).unit c 9 ∧ y.id = (s.cl c).cmdNext ∧ new y ∧ y.finished = true)
      ∧ ∀ nk t sp, Tab.find (s.nd nk).tags t = some sp →
        let u := s.spawnIssue c x (some (nk, t))
        (∃ y, y ∈ u.unit c 9 ∧ y.id = (s.cl c).cmdNext ∧ new y ∧ y.finished = false)
        ∧ Tab.find (u.nd nk).tags t = some { sp with
            ready := true, ret := x.place.map fun p => (x.nk, p.1, p.2), cmd := some (c, (s.cl c).cmdNext) })
    ∧ (WorksOn s i m .tret (.tret w) w → ∃ u, exec (.tret w) s = .next u ∧ FinishesCmd s u i m)
    ∧ (WorksOn s i m .hreg (.hreg w) w → ∀ d k, s.callableNum m.nk (m.rv % 2 ^ 11) = some d → (s.nd m.nk).kernel = some k →
      let b : NameB := .handler k d.nk (m.rv / 2 ^ 11 % 2 ^ 7)
      (∀ ob, s.nameOf key = some (.obj ob) → exec (.hreg w) s = .next (s.failWith i.c i.u m .nameBound))
      ∧ (∀ k' n' x', s.nameOf key = some (.handler k' n' x') → ∃ u, exec (.hreg w) s = .next u ∧ FinishesCmd s u i m ∧ u.nameOf key = some b
        ∧ u.dir.objs = s.dir.objs ∧ u.dir.waits = s.dir.waits ∧ ∀ key', key' ≠ key → u.nameOf key' = s.nameOf key')
      ∧ (s.nameOf key = none → 65536 ≤ s.dir.names.length → exec (.hreg w) s = .next (s.failWith i.c i.u m .directoryFull))
      ∧ (s.nameOf key = none → s.dir.names.length < 65536 → s.waiters key = 0 → ∃ u, exec (.hreg w) s = .next u ∧ FinishesCmd s u i m
        ∧ u.nameOf key = some b ∧ ∀ key', key' ≠ key → u.nameOf key' = s.nameOf key'))
    ∧ (WorksOn s i m .hregUnreg (.hregUnreg w) w →
      (s.nameOf key = none → exec (.hregUnreg w) s = .next (s.failWith i.c i.u m .nameUnbound))
      ∧ (∀ ob, s.nameOf key = some (.obj ob) → exec (.hregUnreg w) s = .next (s.failWith i.c i.u m .nameKind))
      ∧ (∀ k n x, s.nameOf key = some (.handler k n x) → ∃ u, exec (.hregUnreg w) s = .next u ∧ FinishesCmd s u i m
        ∧ u.nameOf key = none ∧ ∀ key', key' ≠ key → u.nameOf key' = s.nameOf key'))

/-- R314 to R318: MSEND, MSEND_TRIG, MRECV and MPROBE complete. MSEND sends its message unless the destination holds no kernel of
the partition, behind the node's earlier ones to that plane; a refused message waits 1024 cycles and goes again. MSEND.TRIG goes
to the shard of its name. MRECV takes the first overflow entry that it matches or posts a receive, and fills its place when it has
a message. MPROBE answers without taking. MESSAGE_RETRY completes. -/
def Sys2Proof.Machine.MessagesR315 : Prop :=
  (∀ (s : State) (i : Issue) (m : Cmd) (w : EWord),
    (WorksOn s i m .msend (.msend w) w →
      let chip := m.lv / 2 ^ 52 % 2 ^ 12
      let dc := m.lv / 2 ^ 44 % 256
      let ahead := (s.unit i.c 9).any fun x => x.op = .msend && x.nk = m.nk && x.id < m.id && !x.finished && selNode x.lv = selNode m.lv
      let there := dc < 192 ∧ if chip = chipId s then s.holds dc m.part = true ∨ s.savedAt dc m.part = true
        else whitelisted s m.part chip = true
      (m.started = false → ¬ there → exec (.msend w) s = .next (s.failWith i.c i.u m .permission))
      ∧ (m.started = false → there → ahead = true → ∃ u, exec (.msend w) s = .next u ∧ u.mem = s.mem
        ∧ GoesOn u i m fun x => x.started = true ∧ x.aux = [0])
      ∧ ((m.started = false ∧ there ∨ m.started = true ∧ m.aux = [0]) → ahead = false → ∃ u, exec (.msend w) s = .next u ∧ u.mem = s.mem
        ∧ (GoesOn u i m fun x => x.started = true ∧ x.aux = [2] ∧ x.got = [])
        ∧ Sent s u i.c m.part chip dc 2 64 (.mesg (m.lv / 2 ^ 41 % 8) (m.lv % 2 ^ 32) (chipId s) i.c (m.nk % 8) m.id (m.r.getD {})))
      ∧ (m.started = true → m.aux = [2] → (m.got.any fun e => e.1 = 2 ^ 21) = true → ∃ u, exec (.msend w) s = .next u ∧ u.mem = s.mem
        ∧ GoesOn u i m fun x => x.aux = [1, s.now] ∧ x.got = [])
      ∧ (m.started = true → m.aux = [2] ∧ m.got = [] ∨ m.aux = [0] ∧ ahead = true → exec (.msend w) s = .next s)
      ∧ (m.started = true → m.aux = [2] → (m.got.any fun e => e.1 = 2 ^ 21) = false → m.got ≠ [] →
        ∃ u, exec (.msend w) s = .next u ∧ FinishesCmd s u i m))
    ∧ (WorksOn s i m .msendTrig (.msendTrig w) w → m.started = false → ∃ u, exec (.msendTrig w) s = .next u ∧ u.mem = s.mem
      ∧ GoesOn u i m (fun x => x.started = true) ∧ ∃ t, t.c = i.c ∧ t.id = m.id ∧ t.nk = m.nk ∧ t.o = m.r.getD {} ∧ t.f = m.pending .nameKind
        ∧ Posted u { src := i.c, dst := 192 + m.lv % 32, cls := 0, part := m.part, n := 64, body := .trig (nameKey m.part m.lv) t })
    ∧ (WorksOn s i m .mrecv (.mrecv w) w →
      let x := s.cl i.c
      (∀ g, m.started = false → x.overMatch (m.nk % 8) m.sub m.lv = some g → ∃ u, exec (.mrecv w) s = .next u ∧ u.mem = s.mem
        ∧ (u.cl i.c).overflow = x.overflow.erase g ∧ GoesOn u i m fun y => y.started = true ∧ y.r = some g.o ∧ y.acc = [1])
      ∧ (m.started = false → x.overMatch (m.nk % 8) m.sub m.lv = none → x.recvs.length < 64 → ∃ u, exec (.mrecv w) s = .next u ∧ u.mem = s.mem
        ∧ GoesOn u i m (fun y => y.started = true) ∧ (u.cl i.c).recvs = x.recvs ++
          [{ cmd := m.id, nk := m.nk, src := if m.sub % 2 = 1 then none else some (selNode m.lv)
             tag := if m.sub / 2 % 2 = 1 then none else some (m.lv % 2 ^ 32) }])
      ∧ (m.started = false → x.overMatch (m.nk % 8) m.sub m.lv = none → 64 ≤ x.recvs.length → exec (.mrecv w) s = .next s)
      ∧ (m.started = true → m.acc = [] ∨ s.ownRoom m = false → exec (.mrecv w) s = .next s)
      ∧ (m.started = true → m.acc ≠ [] → s.ownRoom m = true → exec (.mrecv w) s = .next ((s.fillOwn m (m.r.getD {})).finishCmd i.c i.u m)))
    ∧ (WorksOn s i m .mprobe (.mprobe w) w →
      (m.started = false → ∃ u, exec (.mprobe w) s = .next u ∧ u.mem = s.mem ∧ (u.cl i.c).overflow = (s.cl i.c).overflow
        ∧ GoesOn u i m fun y => y.started = true ∧ y.acc = [match (s.cl i.c).overMatch (m.nk % 8) m.sub m.lv with
          | none => 0
          | some g => 2 ^ 63 + g.src * 2 ^ 40 + g.tag])
      ∧ (∀ v l, m.started = true → m.acc = v :: l → s.ownRoom m = false → exec (.mprobe w) s = .next s)
      ∧ (∀ v l, m.started = true → m.acc = v :: l → s.ownRoom m = true →
        exec (.mprobe w) s = .next ((s.fillOwn m { val := .sc (BitVec.ofNat 64 v) }).finishCmd i.c i.u m))))
  ∧ (∀ (s : State) (c : Nat) (m : Cmd) (t0 : Nat), m.op = .msend → m.aux = [1, t0] → t0 + 1024 ≤ s.now →
      (s.unit c 9).find? (fun m => m.op = .msend && m.aux.getD 0 0 = 1 && m.aux.getD 1 0 + 1024 ≤ s.now) = some m →
      ∃ u, exec (.messageRetry c) s = .next u ∧ u.mem = s.mem
        ∧ Sent s u c m.part (m.lv / 2 ^ 52 % 2 ^ 12) (m.lv / 2 ^ 44 % 256) 2 64
          (.mesg (m.lv / 2 ^ 41 % 8) (m.lv % 2 ^ 32) (chipId s) c (m.nk % 8) m.id (m.r.getD {})))

/-- R314, R316, R318, R395: what arrives for tasks. A message goes to the first posted receive of its plane that it matches, else
to the overflow queue, and is accepted; a full queue refuses it. A trigger runs the handler of its name, or waits for a binding,
or fails at its sender. A fault record goes to the handler of its name, waits for one, or goes to the management core.
MESSAGE_ARRIVAL, TRIGGER_DISPATCH and FAULT_RECORD_DELIVERY complete. -/
def Sys2Proof.Machine.MessagesAndTriggersArriveR316 : Prop :=
  ∀ (s : State) (p : Parcel) (rest : List Parcel), s.inbox = p :: rest →
    (∀ pl tag chip sc spl id o, p.body = .mesg pl tag chip sc spl id o → s.holds p.dst p.part = true →
      let x := s.cl p.dst
      let src := chip * 2048 + sc * 8 + spl
      let takes (r : Recv) : Bool := r.nk = nkOf p.dst pl && r.src.all (· = src) && r.tag.all (· = tag)
      (∀ u, (s.picking 0).msgDo p = some u → exec (.messageArrival 0) s = .next u.kernelsCheck)
      ∧ (∀ r, x.recvs.find? takes = some r → ∃ u, (s.picking 0).msgDo p = some u ∧ u.mem = s.mem ∧ (u.cl p.dst).recvs = x.recvs.erase r
        ∧ (∀ y, (s.unit p.dst 9).find? (fun y => y.id = r.cmd) = some y → ∃ z, (u.unit p.dst 9).find? (fun y => y.id = r.cmd) = some z
          ∧ z.r = some o ∧ z.acc = [1])
        ∧ Sent s u p.dst p.part chip sc 3 0 (.rack sc id 0 none (chipId s)))
      ∧ (x.recvs.find? takes = none → x.overflow.length < 128 → ∃ u, (s.picking 0).msgDo p = some u ∧ u.mem = s.mem
        ∧ (u.cl p.dst).overflow = x.overflow ++ [{ pl := pl, src := src, tag := tag, o := o }]
        ∧ Sent s u p.dst p.part chip sc 3 0 (.rack sc id 0 none (chipId s)))
      ∧ (x.recvs.find? takes = none → 128 ≤ x.overflow.length → ∃ u, (s.picking 0).msgDo p = some u ∧ (u.cl p.dst).overflow = x.overflow
        ∧ (x.overEp = false → (u.cl p.dst).overEp = true)
        ∧ Sent s u p.dst p.part chip sc 3 0 (.rack sc id (2 ^ 21) none (chipId s))))
    ∧ (∀ pl tag chip sc spl id o, p.body = .mesg pl tag chip sc spl id o → s.holds p.dst p.part = false →
      ∃ u, exec (.messageArrival 0) s = .next u.kernelsCheck ∧ (s.picking 0).msgDo p = some u ∧ u.mem = s.mem
        ∧ (s.savedAt p.dst p.part = true → Sent s u p.dst p.part chip sc 3 0 (.rack sc id (2 ^ 21) none (chipId s)))
        ∧ (s.savedAt p.dst p.part = false → Sent s u p.dst p.part chip sc 3 0 (.rack sc id 0 (some (.permission, 0, 0)) (chipId s))))
    ∧ (∀ key t, p.body = .trig key t → s.handlerSaved key = false →
      (∀ u, (s.picking 0).msgDo p = some u → exec (.triggerDispatch 0) s = .next u.kernelsCheck)
      ∧ (s.nameOf key = none → s.waiters key < 64 → ∃ u, (s.picking 0).msgDo p = some u ∧ u.mem = s.mem ∧ u.dir.waits = s.dir.waits ++ [(key, .trigger t)])
      ∧ (s.nameOf key = none → 64 ≤ s.waiters key → (s.picking 0).msgDo p = some (((s.picking 0).unbox p).trigFail t .nameWaitLimit))
      ∧ (∀ ob, s.nameOf key = some (.obj ob) → (s.picking 0).msgDo p = some (((s.picking 0).unbox p).trigFail t .nameKind))
      ∧ (∀ k nk ix, s.nameOf key = some (.handler k nk ix) →
        ((s.nd nk).aband = true → (s.picking 0).msgDo p = some (((s.picking 0).unbox p).trigFail t .handlerEnded))
        ∧ ((s.nd nk).aband = false → ∃ u, (s.picking 0).msgDo p = some u ∧ u.mem = s.mem
          ∧ (∀ f, (s.nd nk).freeTag = some f → (s.nd nk).waitSpawn = [] → ∃ sp, Tab.find (u.nd nk).tags f = some sp ∧ sp.arg = t.o ∧ sp.ix1 = ix
            ∧ sp.ret = none)
          ∧ ((s.nd nk).freeTag = none ∨ (s.nd nk).waitSpawn ≠ [] → ∃ sp, (u.nd nk).waitSpawn = (s.nd nk).waitSpawn ++ [sp] ∧ sp.arg = t.o))))
    ∧ (∀ id r, p.body = .record id → Tab.find s.recs id = some r → s.savedKern r.kernel = false →
      (∀ u, (s.picking 0).msgDo p = some u → exec (.faultRecordDelivery 0) s = .next u.kernelsCheck)
      ∧ (r.feV = false → ∃ u, (s.picking 0).msgDo p = some u ∧ u.mem = s.mem ∧ u.monQ = s.monQ ++ [id])
      ∧ (let key := nameKey r.part r.feName.toNat
        r.feV = true → (s.nameOf key = none → s.waiters key < 64 → ∃ u, (s.picking 0).msgDo p = some u ∧ u.mem = s.mem ∧ u.monQ = s.monQ
            ∧ u.dir.waits = s.dir.waits ++ [(key, .record id)])
          ∧ (s.nameOf key = none ∧ 64 ≤ s.waiters key ∨ (∃ ob, s.nameOf key = some (.obj ob)) →
            ∃ u, (s.picking 0).msgDo p = some u ∧ u.mem = s.mem ∧ u.monQ = s.monQ ++ [id]))
      ∧ (∀ k nk ix x, r.feV = true → s.nameOf (nameKey r.part r.feName.toNat) = some (.handler k nk ix) → s.kern k = some x → x.st ≠ .saved →
        (x.feRank ≤ r.rank ∨ (s.nd nk).aband = true → ∃ u, (s.picking 0).msgDo p = some u ∧ u.monQ = s.monQ ++ [id])
        ∧ (r.rank < x.feRank → (s.nd nk).aband = false → ∀ f, (s.nd nk).freeTag = some f → (s.nd nk).waitSpawn = [] →
          ∃ u sp, (s.picking 0).msgDo p = some u ∧ Tab.find (u.nd nk).tags f = some sp ∧ sp.arg.val = .vec r.val ∧ sp.ix1 = ix ∧ sp.record = some id)))

/-! ### Names -/

namespace Sys2Proof.Machine

/-- The word of R369: outcome, format, size in 64 bytes, handle or count. -/
def nameWord (st fmt sz h : Nat) : Nat := st * 2 ^ 60 + fmt * 2 ^ 56 + sz * 2 ^ 22 + h

/-- The lowest handle that is free under an ASID. -/
def IsFree (s : State) (asid h : Nat) : Prop :=
  h < 4096 ∧ Tab.find s.dir.handles (asid * 4096 + h) = none ∧ ∀ g, g < h → Tab.find s.dir.handles (asid * 4096 + g) ≠ none

/-- The command knows the value that its place is to hold. -/
def AnswersWith (t : State) (i : Issue) (m : Cmd) (v : Nat) : Prop := GoesOn t i m fun x => x.started = true ∧ x.acc = [v]

end Sys2Proof.Machine

/-- R361 to R365, R368 to R375: NOPEN, NCLOSE, NBIND, NUNBIND and NLOOK complete: a NOPEN (the last of its commit to be issued) takes the lowest free handle of an object, says so of a handler or an
unbound name, or waits; NCLOSE closes a handle; NBIND binds an unbound name to a new object; NUNBIND unbinds one; NLOOK reads; a
command with a place fills it when there is room. -/
def Sys2Proof.Machine.NamesOpenBindLookR369 : Prop :=
  ∀ (s : State) (i : Issue) (m : Cmd) (w : EWord),
    let key := nameKey m.part m.lv
    let b := s.nameOf key
    (WorksOn s i m .nopen (.nopen w) w → m.started = false → s.openMore i.c m = true → exec (.nopen w) s = .next s)
    ∧ (WorksOn s i m .nopen (.nopen w) w → m.started = false → s.openMore i.c m = false →
      (s.unit i.c 9).filter (fun x => x.op = .nopen && x.nk = m.nk && x.age = m.age && !x.started && x.fail.isNone) = [m] →
      (∀ ob o, b = some (.obj ob) → Tab.find s.dir.objs ob = some o →
        let wr := decide (m.sub / 2 % 2 = 1)
        (wr = true → o.wr = false → exec (.nopen w) s = .next (s.failWith i.c i.u m .permission))
        ∧ ((wr = true → o.wr = true) →
          ((∀ h, h < 4096 → Tab.find s.dir.handles (m.asid * 4096 + h) ≠ none) → exec (.nopen w) s = .next (s.failWith i.c i.u m .handleLimit))
          ∧ ∀ h, IsFree s m.asid h → ∃ t, exec (.nopen w) s = .next t ∧ t.mem = s.mem
            ∧ Tab.find t.dir.handles (m.asid * 4096 + h) = some (ob, wr) ∧ Tab.find t.dir.objs ob = some { o with opens := o.opens + 1 }
            ∧ AnswersWith t i m (nameWord 0 o.fmt (o.size / 64) h)))
      ∧ (∀ k n x, b = some (.handler k n x) → ∃ t, exec (.nopen w) s = .next t ∧ t.mem = s.mem ∧ t.dir = s.dir ∧ AnswersWith t i m (nameWord 2 0 0 0))
      ∧ (b = none → m.sub % 2 = 1 → ∃ t, exec (.nopen w) s = .next t ∧ t.mem = s.mem ∧ t.dir = s.dir ∧ AnswersWith t i m (nameWord 1 0 0 0))
      ∧ (b = none → m.sub % 2 = 0 → 64 ≤ s.waiters key → exec (.nopen w) s = .next (s.failWith i.c i.u m .nameWaitLimit))
      ∧ (b = none → m.sub % 2 = 0 → s.waiters key < 64 → ∃ t, exec (.nopen w) s = .next t ∧ t.mem = s.mem
        ∧ t.dir.waits = s.dir.waits ++ [(key, .nopen i.c m.id)] ∧ GoesOn t i m fun x => x.started = true))
    ∧ (WorksOn s i m .nlook (.nlook w) w → m.started = false →
      let lay := m.sub % 2 = 1
      (b = none → ∃ t, exec (.nlook w) s = .next t ∧ t.mem = s.mem ∧ t.dir = s.dir ∧ AnswersWith t i m (if lay then 0 else nameWord 1 0 0 0))
      ∧ (∀ k n x, b = some (.handler k n x) → ∃ t, exec (.nlook w) s = .next t ∧ t.dir = s.dir ∧ AnswersWith t i m (if lay then 0 else nameWord 2 0 0 0))
      ∧ (∀ ob o, b = some (.obj ob) → Tab.find s.dir.objs ob = some o → ∃ t, exec (.nlook w) s = .next t ∧ t.dir = s.dir
        ∧ AnswersWith t i m (if lay then o.layout.toNat else nameWord 0 o.fmt (o.size / 64) (min o.opens 4095))))
    ∧ (∀ op ins v l, (op, ins) ∈ [(Op.nopen, Instr.nopen w), (.nlook, .nlook w)] → WorksOn s i m op ins w → m.started = true → m.acc = v :: l →
      (s.ownRoom m = false → exec ins s = .next s)
      ∧ (s.ownRoom m = true → exec ins s = .next ((s.fillOwn m { val := .sc (BitVec.ofNat 64 v) }).finishCmd i.c i.u m)))
    ∧ (WorksOn s i m .nclose (.nclose w) w →
      let h := m.asid * 4096 + m.lv % 4096
      (Tab.find s.dir.handles h = none → exec (.nclose w) s = .next (s.failWith i.c i.u m .badHandle))
      ∧ (∀ ob wr o, Tab.find s.dir.handles h = some (ob, wr) → Tab.find s.dir.objs ob = some o → ∃ t, exec (.nclose w) s = .next t
        ∧ FinishesCmd s t i m ∧ t.dir.handles = Tab.del s.dir.handles h ∧ Tab.find t.dir.objs ob = some { o with opens := o.opens - 1 }
        ∧ t.dir.names = s.dir.names))
    ∧ (WorksOn s i m .nbind (.nbind w) w → s.wroteAll m = false → exec (.nbind w) s = .next s)
    ∧ (WorksOn s i m .nbind (.nbind w) w → s.wroteAll m = true →
      let name := nameKey m.part (wordOf m.lvec 0).toNat
      (s.descAllowed m.part m.lvec = false → exec (.nbind w) s = .next (s.failWith i.c i.u m .permission))
      ∧ (s.descAllowed m.part m.lvec = true →
        (s.nameOf name ≠ none → exec (.nbind w) s = .next (s.failWith i.c i.u m .nameBound))
        ∧ (s.nameOf name = none → 65536 ≤ s.dir.names.length ∨ 262144 ≤ s.objCount → exec (.nbind w) s = .next (s.failWith i.c i.u m .directoryFull))
        ∧ (s.nameOf name = none → s.dir.names.length < 65536 → s.objCount < 262144 → s.waiters name = 0 → ∃ t ob, exec (.nbind w) s = .next t
          ∧ FinishesCmd s t i m ∧ t.nameOf name = some (.obj ob) ∧ Tab.find t.dir.objs ob = some (descObj m.lvec m.part m.asid)
          ∧ ∀ name', name' ≠ name → t.nameOf name' = s.nameOf name')))
    ∧ (WorksOn s i m .nunbind (.nunbind w) w →
      ((∀ ob, b ≠ some (.obj ob)) → exec (.nunbind w) s = .next (s.failWith i.c i.u m .nameUnbound))
      ∧ (∀ ob o, b = some (.obj ob) → Tab.find s.dir.objs ob = some o → ∃ t, exec (.nunbind w) s = .next t ∧ FinishesCmd s t i m
        ∧ t.nameOf key = none ∧ Tab.find t.dir.objs ob = some { o with bound := false } ∧ ∀ key', key' ≠ key → t.nameOf key' = s.nameOf key'))

/-- R365, R373: NREBIND completes: it checks its whole list and then changes every binding at one point, or none: a list past the scratchpad, in tiles
that are not ENGINE-owned, or that breaks a rule is an engine fault. -/
def Sys2Proof.Machine.RebindIsOnePointR373 : Prop :=
  ∀ (s : State) (i : Issue) (m : Cmd) (w : EWord), WorksOn s i m .nrebind (.nrebind w) w →
    let off := m.lv % 2 ^ 21
    let h := memRead s (spKey i.c off) 64
    let cnt := h % 32
    let ds := (List.range cnt).map fun k => memVec s (spKey i.c (off + 64 * (k + 1)))
    let binds := ds.filter fun d => !descDel d
    (0x180000 < off + 64 * (cnt + 1) → exec (.nrebind w) s = .next (s.failWith i.c i.u m .addressOutOfRange 0 off 0))
    ∧ (off + 64 * (cnt + 1) ≤ 0x180000 →
      ((∃ x, x ∈ rangeTiles off (64 * (cnt + 1)) ∧ x ∉ (s.cl i.c).engTiles) → exec (.nrebind w) s = .next (s.failWith i.c i.u m .ownerViolation 0 off 0))
      ∧ ((∀ x, x ∈ rangeTiles off (64 * (cnt + 1)) → x ∈ (s.cl i.c).engTiles) →
        (∀ k, k < cnt + 1 → badAt s (spKey i.c (off + 64 * k)) = false ∧ badAt s (spKey i.c (off + 64 * k) + 32) = false) →
        (binds = [] ∨ s.wroteAll m = true) →
        (cnt = 0 ∨ 16 < cnt ∨ h ≠ cnt ∨ s.nrebindBad m.part ds = true → exec (.nrebind w) s = .next (s.failWith i.c i.u m .nameRecord))
        ∧ (0 < cnt → cnt ≤ 16 → h = cnt → s.nrebindBad m.part ds = false →
          ((∃ d, d ∈ binds ∧ s.descAllowed m.part d = false) → exec (.nrebind w) s = .next (s.failWith i.c i.u m .permission))
          ∧ ((∀ d, d ∈ binds → s.descAllowed m.part d = true) → (∀ d, d ∈ ds → s.waiters (nameKey m.part (wordOf d 0).toNat) = 0) →
            let u := s.nrebind m.part m.asid ds
            (65536 < u.dir.names.length ∨ 262144 < u.objCount → exec (.nrebind w) s = .next (s.failWith i.c i.u m .directoryFull))
            ∧ (u.dir.names.length ≤ 65536 → u.objCount ≤ 262144 → ∃ t, exec (.nrebind w) s = .next t ∧ FinishesCmd s t i m
              ∧ (∀ d, d ∈ ds → descDel d = true → t.nameOf (nameKey m.part (wordOf d 0).toNat) = none)
              ∧ (∀ d, d ∈ ds → descDel d = false → ∃ ob o, t.nameOf (nameKey m.part (wordOf d 0).toNat) = some (.obj ob)
                ∧ Tab.find t.dir.objs ob = some o ∧ { o with bound := true } = descObj d m.part m.asid)
              ∧ ∀ key, (∀ d, d ∈ ds → key ≠ nameKey m.part (wordOf d 0).toNat) → t.nameOf key = s.nameOf key)))))

/-- R367, R370: an object with no binding, no open handle and no holder is reclaimed: with a free-list ring its range is appended
and TAIL steps, or it waits 1024 cycles for room, or for the end of a reservation; its semaphore is told from the shard of its
name (R13, R361), with the error flag when the ring could not be written. OBJECT_RECLAMATION and FREE_LIST_HEAD_RECHECK complete.
-/
def Sys2Proof.Machine.ObjectsAreReclaimedR367 : Prop :=
  ∀ (s : State) (ob : Nat) (o : Obj) (rest : List (Nat × Obj)), s.dead = (ob, o) :: rest → Tab.find s.dir.objs ob = some o →
    let gone (u : State) (bad : Bool) : Prop := Tab.find u.dir.objs ob = none ∧
      (o.sv = true → s.holds o.scl o.part = true →
        Posted u { src := 192 + o.name % 32, dst := o.scl, cls := 0, part := o.part, body := .sem o.scl o.sem 1 false none bad })
    let both (P : State → Prop) : Prop := (o.ring = none → ∃ u, exec (.objectReclamation 0) s = .next u ∧ P u)
      ∧ ((∃ t, o.ring = some t ∧ t ≤ s.now) → ∃ u, exec (.freeListHeadRecheck 0) s = .next u ∧ P u)
    (o.flva = 0 → both fun u => gone u false ∧ u.mem = s.mem)
    ∧ (∀ c a, o.flva ≠ 0 → xlate s [tlbDie 0] o.part o.asid (o.flva % 2 ^ 52) (permR ||| permW) = .bad c a →
      both fun u => gone u true ∧ u.mem = s.mem)
    ∧ (∀ pa slot, o.flva ≠ 0 → xlate s [tlbDie 0] o.part o.asid (o.flva % 2 ^ 52) (permR ||| permW) = .here pa slot → badAt s pa = false →
      let r := (readUnder s pa 64 (some slot)).2
      let tail := r % 2 ^ 64
      let head := r / 2 ^ 64 % 2 ^ 64
      let n := r / 2 ^ 128 % 2 ^ 64
      (n = 0 → both fun u => gone u true ∧ u.mem = s.mem)
      ∧ (0 < n → n ≤ (tail + 2 ^ 64 - head) % 2 ^ 64 → both fun u => Tab.find u.dir.objs ob = some { o with ring := some (s.now + 1024) } ∧ u.mem = s.mem)
      ∧ (0 < n → (tail + 2 ^ 64 - head) % 2 ^ 64 < n → ∀ pe se,
        xlate s [tlbDie 0] o.part o.asid ((o.flva + 64 + 16 * (tail % n)) % 2 ^ 52) permW = .here pe se → badAt s pe = false →
        (reservedBy s pe (2 ^ 30) 0 = true ∨ reservedBy s pa (2 ^ 30) 0 = true → both fun u => u = s)
        ∧ (reservedBy s pe (2 ^ 30) 0 = false → reservedBy s pa (2 ^ 30) 0 = false → both fun u => gone u false ∧ u.mem = (writeUnder (writeUnder s pe 16
          ((if o.ws then 5 else 3) * 2 ^ 61 + o.cl * 2 ^ 52 + o.base + 2 ^ 64 * o.size) (some se)) pa 8 ((tail + 1) % 2 ^ 64) (some slot)).mem)))

/-! ### Tokens and invocations -/

namespace Sys2Proof.Machine

/-- The tokens that wait with `t` for its element in its iteration, and `t` (R30, R43). -/
def setOf (s : State) (c : Nat) (t : Tok) : List Tok :=
  (((s.cl c).store ++ (s.nd (nkOf c t.pl)).spill).filter fun e => e.sameSet t) ++ [t]

/-- The node's fault, newly detected: the cause, and the iteration, element and window slot that it names (R390). -/
def Detects (s t : State) (nk : Nat) (c : Cause) (n ws : Nat) : Prop :=
  (s.nd nk).pend = none → ∃ f, (t.nd nk).pend = some f ∧ f.cause = c ∧ f.n = n ∧ f.ws = ws ∧ f.at_ = s.now ∧ (t.nd nk).stop = true

/-- What a commit has still to issue: element and instruction. -/
def actCmd : Act → Option (Nat × Instr)
  | .issue ix i _ _ _ _ _ _ _ _ => some (ix, i)
  | _ => none

/-- The commands held by an invocation, in element order. -/
def heldCmds (v : Inv) : List (Nat × Instr) := v.sorted.filterMap fun h => match h with | .cmd ix i _ _ _ => some (ix, i) | _ => none

/-- The instruction is TRAP, or SPAWN. -/
def isTrap : Instr → Bool
  | .trap _ => true
  | _ => false
def isSpawn : Instr → Bool
  | .spawn _ => true
  | _ => false

/-- A commit of the node has its one remaining act left, and no other waits behind it: `P` holds of the state that the act leaves. -/
def ActsBy (s : State) (c p : Nat) (P : State → Prop) : Prop :=
  (s.nd (nkOf c p)).callable = false ∨ (s.nd (nkOf c p)).parked = [] → ∃ u : State, P u ∧ ∀ k, exec (.invocationCommit c p k) s =
    .next (((u.modNd (nkOf c p) fun n => { n with acts := n.acts.drop 1 }).modNd (nkOf c p) Node.unpark).kernelsCheck)

/-- The commit of a node waits: nothing changes, but that a callable node may set it aside for another (R310). -/
def ActWaits (s : State) (c p : Nat) : Prop :=
  s.goOn (nkOf c p) = s ∧ ∀ k, (s.nd (nkOf c p)).callable = false → exec (.invocationCommit c p k) s = .next s

end Sys2Proof.Machine

/-- R22, R24, R25, R28 to R32, R39, R43, R71: a token that reaches its element, the first of its element among those that wait for
no reload: one for a plane without a node faults the node whose queue leads there; one of another generation, or of no iteration
in flight, is dropped; an empty element, a wrong port and a second token on a port fault; an incomplete set waits in the matching
store, whose youngest entry goes to the spill table when the set is full (of entries alike, the arriving one: log 21); a complete
one becomes ready. OPERAND_TOKEN_ARRIVAL completes. -/
def Sys2Proof.Machine.TokensReachElementsR30 : Prop :=
  ∀ (s : State) (c k : Nat) (t : Tok), (s.tokEligible c [] (s.cl c).input)[k]? = some t →
    let nk := nkOf c t.pl
    let n := (if t.kd = .reply then s.outSub nk t.gn else s).nd nk
    let others := ((s.cl c).store ++ n.spill).filter fun e => e.sameSet t
    let P (f : State → Prop) : Prop := ∃ u, exec (.operandTokenArrival c k) s = .next u ∧ (u.cl c).input = (s.cl c).input.erase t ∧ f u
    let kept (u : State) : Prop := u.mem = s.mem ∧ (u.cl c).store = (s.cl c).store ∧ (u.cl c).ready = (s.cl c).ready
    (n.asg = none → P fun u => kept u ∧ ∀ e, s.nodes.find? (fun e => e.2.wires.any fun w => w.nk = nk && w.ix = t.ix && w.pt = t.pt) = some e →
      Tab.find s.nodes e.1 = some e.2 → Detects s u e.1 .tokenToIdlePlane e.2.next 0)
    ∧ (n.asg.isSome = true → t.gn ≠ n.gn ∨ n.tokIter t = none ∨ n.hdr = none ∨ n.st = .ended → P fun u => kept u ∧ u.nd nk = n)
    ∧ (∀ v, n.asg.isSome = true → t.gn = n.gn → n.hdr.isSome = true → n.st ≠ .ended → n.inv t.ws t.it = some v →
      (ctxInstr (s.cl c) t.pl t.ix = none → P fun u => kept u ∧ Detects s u nk .tokenToEmptyElement v.n t.ws)
      ∧ ∀ i, ctxInstr (s.cl c) t.pl t.ix = some i →
        (kindBad (usedPorts i) t = true → P fun u => kept u ∧ Detects s u nk .portMismatch v.n t.ws)
        ∧ (kindBad (usedPorts i) t = false → (∃ e, e ∈ others ∧ e.pt = t.pt) → P fun u => kept u ∧ Detects s u nk .duplicateOperand v.n t.ws)
        ∧ (kindBad (usedPorts i) t = false → (∀ e, e ∈ others → e.pt ≠ t.pt) →
          (n.setReady i t = false ∨ completePorts i (setOf s c t) = none →
            (((s.cl c).inSet t.set).length < 16 → P fun u => u.mem = s.mem ∧ (u.cl c).store = (s.cl c).store ++ [t] ∧ (u.cl c).ready = (s.cl c).ready)
            ∧ (16 ≤ ((s.cl c).inSet t.set).length → ∃ y, (y = t ∨ y ∈ (s.cl c).inSet t.set)
              ∧ (∀ e, e = t ∨ e ∈ (s.cl c).inSet t.set → s.younger c e y = false)
              ∧ P fun u => (u.cl c).ready = (s.cl c).ready ∧ (u.cl c).store = (if y = t then (s.cl c).store else (s.cl c).store.erase y ++ [t])
                ∧ ((u.nd (nkOf c y.pl)).spill = (s.nd (nkOf c y.pl)).spill ++ [y] ∨ (u.nd (nkOf c y.pl)).pend.isSome = true)))
          ∧ (∀ ps, n.setReady i t = true → completePorts i (setOf s c t) = some ps → t.pt ∈ ps → (∀ e, e ∈ others → e.bad = false) →
            (∀ p, p < 8 → (s.nd (nkOf c p)).spill = []) →
            let op (pt : Port) : Option Opnd := if pt ∈ ps then portOf (setOf s c t) pt else none
            P fun u => u.mem = s.mem ∧ (u.cl c).ready = (s.cl c).ready ++
                [{ pl := t.pl, ix := t.ix, ws := t.ws, it := t.it, l := op .l, r := op .r, q := op .q, p := op .p }]
              ∧ ∀ e, e ∈ (u.cl c).store ↔ e ∈ (s.cl c).store ∧ ¬ (e.sameSet t = true ∧ e.pt ∈ ps))))

/-- R37, R46, R49, R262, R311: a node that may start does: a streaming one its next iteration below its count, any other the
iteration that a commit allowed, in window slot n mod W when that is free; a callable one an invocation for its lowest tag that
waits. Its operandless instructions become ready, and it keeps FCTL as it stands. INVOCATION_START completes. -/
def Sys2Proof.Machine.InvocationsStartR37 : Prop :=
  ∀ (s : State) (c p : Nat) (h : Header),
    let nk := nkOf c p
    let n := s.nd nk
    let starts (num ws : Nat) (sp : Option Spawn) : Prop := ∃ t v, exec (.invocationStart c p) s = .next t ∧ (t.nd nk).invs = n.invs ++ [v]
      ∧ v.n = num ∧ v.ws = ws ∧ v.mp = n.mp ∧ v.start = s.now ∧ v.age = n.ageNext ∧ v.fctl = (nodeReg s nk 0x010).toNat ∧ v.spawn = sp ∧ v.held = [] ∧ v.reports = [] ∧ v.flags = 0
      ∧ v.tags = (match sp with | none => [] | some x => x.kept.map fun k => (nk, k))
      ∧ (t.nd nk).ageNext = n.ageNext + 1 ∧ (t.nd nk).next = (if n.callable then n.next else (num + 1) % 2 ^ 32)
      ∧ ∀ e, e ∈ planeInstrs (s.cl (nk / 8)) (nk % 8) → usedPorts e.2 = [] →
        ∃ r, r ∈ (t.cl (nk / 8)).ready ∧ r.pl = nk % 8 ∧ r.ix = e.1 ∧ r.ws = ws ∧ r.it = num % 65536
    n.hdr = some h →
    (s.mayStart nk = false → exec (.invocationStart c p) s = .next s)
    ∧ (s.mayStart nk = true →
      (n.callable = true → (n.tagToStart = none → exec (.invocationStart c p) s = .next s)
        ∧ ∀ t sp, n.tagToStart = some (t, sp) → starts t t (some sp))
      ∧ (n.callable = false →
        ((∃ v, v ∈ n.invs ∧ v.ws = n.next % h.w) → exec (.invocationStart c p) s = .next s)
        ∧ ((∀ v, v ∈ n.invs → v.ws ≠ n.next % h.w) →
          (h.stm = true → n.next < n.tcount → starts n.next (n.next % h.w) none)
          ∧ (h.stm = true → n.tcount ≤ n.next → exec (.invocationStart c p) s = .next s)
          ∧ (h.stm = false → n.okNext = true → starts n.next (n.next % h.w) none)
          ∧ (h.stm = false → n.okNext = false → exec (.invocationStart c p) s = .next s))))

/-- R38, R39, R41, R50, R189, R307, R311: an invocation that may commit releases what it held at one point: SPAWNs have their
tags, FSTAT its flags, a global its value, a CALL its link, accesses are held no more; it leaves the window; its tile flips, then
its commands by element, its exit and a TRAP are left to be issued in turn. One without an exit faults. It may commit once it is
complete and its complete sets have issued (log 22), unless a store of a commit before waits in the output stage (R378); a
reduction's set waits to fold. INVOCATION_COMMIT completes. -/
def Sys2Proof.Machine.CommitsReleaseTogetherR39 : Prop :=
  ∀ (s : State) (c p : Nat),
    let nk := nkOf c p
    let n := s.nd nk
    let stm := (n.hdr.map (·.stm)).getD false
    (∀ v, v ∈ s.commitable nk ↔ v ∈ s.completed nk ∧ s.setsLeft nk v = false ∧ s.outputHeld nk = false)
    ∧ (∀ k, s.live nk = true → n.acts = [] → (s.commitable nk)[k]? = none → exec (.invocationCommit c p k) s = .next ((s.modNd nk Node.unpark).goOn nk))
    ∧ (∀ k v, s.live nk = true → n.acts = [] → (s.commitable nk)[k]? = some v →
      (n.callable = false → stm = false → v.exitHeld = none → ∃ t, exec (.invocationCommit c p k) s = .next t ∧ t.mem = s.mem
        ∧ Detects s t nk .noExit v.n v.ws)
      ∧ (n.callable = true ∨ stm = true ∨ v.exitHeld ≠ none →
        (∀ u, s.secondPass nk v.age = .fault u ∨ s.secondPass nk v.age = .wait u → exec (.invocationCommit c p k) s = .next u)
        ∧ (∀ s1, s.secondPass nk v.age = .ok s1 →
          let x := s1.takeTags nk v.tags v.sorted
          let s2 := x.rest.foldl (fun s t => s.poolReturn t.1 t.2) x.s
          (∀ w, x.waits = some w → exec (.invocationCommit c p k) s = .next (x.s.modNd nk fun n => { n with
            invs := n.invs.map fun u => if u.age = v.age then { u with tags := x.taken.map (·.2) ++ x.rest } else u }))
          ∧ (x.waits = none → ∃ u : State, exec (.invocationCommit c p k) s = .next (u.goOn nk)
            ∧ (u.nd nk).invs = (s2.nd nk).invs.filter (fun x => x.age != v.age)
            ∧ (nodeReg u nk 0x011).toNat = (nodeReg s2 nk 0x011).toNat ||| v.flags % 2 ^ 64
            ∧ (∀ ix num x, .glob ix .g num (.sc x) ∈ v.held → (∀ jx y, .glob jx .g num y ∈ v.held → y = .sc x) →
              (num = 63 → ∀ d, v.exitHeld ≠ some (true, d)) → Tab.get 0 (u.nd nk).g num = x)
            ∧ (∀ num, (∀ jx y, .glob jx .g num y ∉ v.held) → (num = 63 → ∀ d, v.exitHeld ≠ some (true, d)) →
              Tab.get 0 (u.nd nk).g num = Tab.get 0 (s2.nd nk).g num)
            ∧ (∀ d, v.exitHeld = some (true, d) → Tab.get 0 (u.nd nk).g 63 = BitVec.ofNat 64 (u.nd nk).linkAddr)
            ∧ (u.nd nk).acts.filterMap actCmd = (heldCmds v).filter (fun e => !isTrap e.2) ++ ((heldCmds v).filter (fun e => isTrap e.2)).take 1
            ∧ (∀ a, a ∈ (s2.nd nk).accsOf v.age → a.op = .tgive → a.off = false → .flip a.tile ∈ (u.nd nk).acts)
            ∧ .exit v.exitHeld v.n v.age (v.spawn.map fun sp => if v.fretHeld then { sp with record := none } else sp) v.retHeld ∈ (u.nd nk).acts))))

/-- R94, R134, R141, R143, R150, R311, R356 to R360, R407, R409: what is left of a commit happens in its turn: a flip once the
node's earlier accesses to the tile are performed and its gates are open; WRSR, TINV, TSYNC, KEYSET, FRET and TRAP act; a PSET
register takes its record, a TRET goes, a SPAWN is answered by its tag's invocation; any other command enters its unit, once the
tokens of its WM are set and its queue has room. Between commits an arrival of another may come: a commit of a callable node that
waits is set aside (R310). ENGINE_QUEUE_ROOM and WM_TOKENS_SET complete. -/
def Sys2Proof.Machine.CommitsIssueInOrderR141 : Prop :=
  ∀ (s : State) (c p : Nat),
    let nk := nkOf c p
    let n := s.nd nk
    p < 8 → s.live nk = true →
    (∀ k, n.acts ≠ [] → let g := s.goOn nk
      (n.callable = false → exec (.invocationCommit c p k) s = .next g)
      ∧ ((g.nd nk).acts = [] → exec (.invocationCommit c p k) s = .next g)
      ∧ ((g.nd nk).acts ≠ [] → (g.nd nk).callable = true →
        let h := g.modNd nk fun n => { n with acts := [], parked := n.parked ++ [n.acts] }
        exec (.invocationCommit c p k) s = .next (if (h.commitable nk)[k]?.isSome then h.commitNext nk k else h.modNd nk Node.unpark))
      ∧ (∀ op w age, n.nextCmd = some (op, w, age) →
        (s.unitRoom c (unitOf op w) = true → exec (.engineQueueRoom c p) s = .next g)
        ∧ (n.wmSet w age = true → exec (.wmTokensSet c p) s = .next g)))
    ∧ (∀ t, n.acts = [.flip t] →
      (s.flipReady nk t = false → ActWaits s c p)
      ∧ (s.flipReady nk t = true → ActsBy s c p fun u => u.mem = s.mem ∧ ∀ x, x ∈ (u.cl c).engTiles ↔ x ∈ (s.cl c).engTiles ∨ x = t))
    ∧ (∀ ix l r q age num fctl place tag,
      let lv := (l.map (·.val.nat)).getD 0
      let rv := (r.map (·.val.nat)).getD 0
      let pl := place.map fun e => (e.1, e.2.1)
      let act (i : Instr) : Prop := n.acts = [.issue ix i l r q age num fctl place tag]
      (∀ w, act (.wrsr w) → (s.regTurn (s.nodeParty nk) w.srn.toNat = false → ActWaits s c p)
        ∧ (s.regTurn (s.nodeParty nk) w.srn.toNat = true →
          ActsBy s c p fun u => u = (s.regTake (s.nodeParty nk) w.srn.toNat).regWrite (s.nodeParty nk) w.srn.toNat lv))
      ∧ (∀ w, act (.tinv w) → ActsBy s c p fun u => u.mem = s.mem ∧ ∃ t, u.tinvs = s.tinvs ++ [t] ∧ t.nk = nk ∧ t.asid = rv % 2 ^ 16
          ∧ t.pages = (if w.imm.toNat / 8 % 2 = 1 then none else some (lv / 4096, rv / 2 ^ 16 % 2 ^ 32))
          ∧ t.left = tinvHolders c (w.imm.toNat % 8))
      ∧ (∀ w, act (.tsync w) → (∃ t, t ∈ s.tinvs ∧ t.nk = nk ∧ t.id < s.tinvNext) → s.tsyncs = [] →
        ActsBy s c p fun u => u.tsyncs = [{ nk := nk, age := age, place := pl, o := (Opnd.ofNat 1).plus (statusOf [l]), upto := s.tinvNext }])
      ∧ (∀ w x o, act (.keyset w) → l = some o → o.val = .vec x → ActsBy s c p fun u => u.mem = s.mem ∧ u.keys = s.keys ∧ u.ksets = s.ksets ++
          [{ nk := nk, age := age, place := pl, o := (Opnd.ofNat 1).plus (statusOf [l, r]), slot := rv % 2 ^ 11
             val := if rv / 2 ^ 16 % 2 = 1 then none else some x }])
      ∧ (∀ w id, act (.fret w) → (Tab.find n.tags num).bind (·.record) = some id →
        ActsBy s c p fun u => u = s.resolveRec id (w.imm.toNat % 4) (decide (w.imm.toNat / 4 % 2 = 1)))
      ∧ (∀ w, act (.trap w) →
        (n.st ≠ .ended → n.genFree = false → ActWaits s c p)
        ∧ (n.st = .ended ∨ n.genFree = true → ActsBy s c p fun u => u.mem = s.mem
          ∧ (nodeReg u nk 0xd4).toNat = lv % 2 ^ 64 ∧ (nodeReg u nk 0xd0).toNat / 2 ^ 14 % 2 = 1
          ∧ (n.st = .ended → (u.nd nk).st = .ended)
          ∧ (n.st ≠ .ended → (u.nd nk).st = .faulted ∧ (u.nd nk).gn = (n.gn + 1) % 16 ∧ (u.nd nk).rst = (if n.next = 0 then 0 else (num + 1) % 2 ^ 32))))
      ∧ (∀ w op i, act i → i.view = some (op, .e w) → n.wmSet w age = false → ActWaits s c p)
      ∧ (∀ w op i, act i → i.view = some (op, .e w) → n.wmSet w age = true →
        let m := s.cmdOf nk ix i l r q age num fctl place
        let u := unitOf op w
        (op = .pset → ActsBy s c p fun u => u.mem = s.mem
          ∧ Tab.get 0 (u.cl c).pats w.pat.toNat = (match l with | some { val := .vec v, .. } => v | _ => 0))
        ∧ (op = .tret → ActsBy s c p fun u => u = s.sbLeave m)
        ∧ (op ≠ .pset → op ≠ .tret → s.unitRoom c u = false → ActWaits s c p)
        ∧ (s.unitRoom c u = true →
          (op = .spawn → ActsBy s c p fun t => t = s.spawnIssue c m (tag.map fun t => (t / 32, t % 32)))
          ∧ (op = .wload → ActsBy s c p fun t => t = (s.issueCmd c u m).wloadIssue c)
          ∧ (op ≠ .pset → op ≠ .tret → op ≠ .spawn → op ≠ .wload → ActsBy s c p fun t => t = s.issueCmd c u m))))

/-- R48, R86, R141, R144, R145, R150, R151, R308, R363, R387: a command enters its unit with copies of its patterns and of its chip group, its
handles resolved, and the tiles that it will touch; a handle not open, a chip-group table that failed its check, a check of its own
(a pattern mismatch, a flume's or a window's range, ...) and a tile that is not the engine's fail it at once, in that order (tile 0
and no row in AUX of an array command: log 104). -/
def Sys2Proof.Machine.CommandsAreCheckedAtIssueR145 : Prop :=
  ∀ (s : State) (c u : Nat) (m : Cmd),
    let x := s.cl c
    let m1 : Cmd := { m with
      id := x.cmdNext, no := s.storNext, pats := m.patNums.map fun k => Tab.get 0 x.pats k
      chips := (m.chipGrp.map fun k => Tab.get [] (Tab.get [] s.cgrp m.part) k).getD [] }
    let ts := (s.touches c m1).filter fun t => t.2 < 384
    let t := s.issueCmd c u m
    let fails (cz : Cause) : Prop := t.mem = s.mem ∧ t.unit c u = s.unit c u ∧ ∃ f, (t.nd m.nk).engFaults = (s.nd m.nk).engFaults ++ [f]
      ∧ f.cause = cz ∧ f.eng = true ∧ f.ix = some m.ix ∧ f.n = m.n
    (∀ y, y ∈ s.unit c u → y.id ≠ x.cmdNext) → m.place = none →
    (s.resolve m.asid m1.handleNums = none → fails .badHandle)
    ∧ (∀ hs, s.resolve m.asid m1.handleNums = some hs →
      (∀ cz, s.issueCheck m1 = some cz → fails cz)
      ∧ (m1.chipGrp.isSome = true → (partReg s m.part 0x052).toNat.testBit 63 = false → fails .groupOverflow)
      ∧ (m1.op = .copy → patEsz (m1.pats.getD 0 0) ≠ patEsz (m1.pats.getD 1 0) ∨ patN (m1.pats.getD 0 0) ≠ patN (m1.pats.getD 1 0) → fails .patternMismatch)
      ∧ (m1.op = .launch → rbits (pkg s (0x201 + 4 * (m1.imm % 64))) 63 1 = 0 ∨ rbits (pkg s (0x201 + 4 * (m1.imm % 64))) 48 6 ≠ m.part
          ∨ (wordOf m1.lvec 3).toNat / 2 ^ 20 % 64 ≠ m.part → fails .permission)
      ∧ (m1.op = .flopen → 384 < (flOf m1.lvec m.part).ring + ((flOf m1.lvec m.part).nsl + 1) * ((flOf m1.lvec m.part).tps + 1) →
        fails .addressOutOfRange)
      ∧ (m1.op = .wopen → winSpc m1.lvec = 0 → 0x180000 < winBase m1.lvec + winLen m1.lvec → fails .addressOutOfRange)
      ∧ (s.issueCheck m1 = none → (∃ e, e ∈ ts ∧ e.2 ∉ (s.cl e.1).engTiles) → fails .ownerViolation)
      ∧ (s.issueCheck m1 = none → (∀ e, e ∈ ts → e.2 ∈ (s.cl e.1).engTiles) →
        (∀ k, k < m1.pats.length → m1.op = .copy ∨ m1.op = .flpush →
          (s.issueLookup (s.engParty c u m1) (m1.pats.getD k 0) (m1.baseAdd k) (decide (k = 1))).1 = none) →
        t.mem = s.mem ∧ t.nodes = s.nodes ∧ ∃ y, t.unit c u = s.unit c u ++ [y] ∧ y.instr = m.instr ∧ y.nk = m.nk ∧ y.ix = m.ix ∧ y.n = m.n ∧ y.age = m.age
          ∧ y.l = m.l ∧ y.r = m.r ∧ y.q = m.q ∧ y.id = x.cmdNext ∧ y.pats = m1.pats ∧ y.chips = m1.chips ∧ y.hnds = hs
          ∧ y.tiles = (ts.filter fun e => e.1 = c).map (·.2) ∧ y.far = ts.filter (fun e => e.1 != c) ∧ y.started = m.started ∧ y.finished = m.finished))

/-! ### Waits that end in faults, and faults -/

namespace Sys2Proof.Machine

/-- The eight words of a fault record (R386). -/
def recordOf (s : State) (nk : Nat) (f : Pending) (rst blk : Nat) : List Nat :=
  let n := s.nd nk
  let flag (b : Bool) : Nat := if b then 1 else 0
  [(f.chip.getD (chipId s)) * 2 ^ 52 + nk / 8 * 2 ^ 44 + nk % 8 * 2 ^ 41 + n.part * 2 ^ 35 + (match n.asg with | none => 0x7ff | some a => a.num) * 2 ^ 24
     + n.gn * 2 ^ 20 + s.rankOf nk * 2 ^ 17 + flag f.eng * 2 ^ 16 + flag f.map * 2 ^ 15 + flag f.trp * 2 ^ 14 + flag f.drn * 2 ^ 13
     + f.spc * 2 ^ 9 + causeCode f.cause,
   (match f.ix with | none => 2 ^ 63 | some i => i * 2 ^ 56) + f.ws * 2 ^ 51 + blk / 64, rst * 2 ^ 32 + f.n, f.va, f.aux,
   (match f.ix with | none => 0 | some _ => f.opc * 2 ^ 56 + f.sub * 2 ^ 52) + f.x, Tab.get 0 s.faultSeq n.part, f.at_]

/-- The node's fault registers hold the record of `f` formed at `s`, the partition's sequence has stepped, and the record is on its
way to the slice (R388, R390, R395). -/
structure Recorded (s t : State) (nk : Nat) (f : Pending) (rst blk : Nat) : Prop where
  regs : ∀ k, k < 8 → nodeReg t nk (0xd0 + k) = BitVec.ofNat 64 ((recordOf s nk f rst blk).getD k 0)
  seq : Tab.get 0 t.faultSeq (s.nd nk).part = (Tab.get 0 s.faultSeq (s.nd nk).part + 1) % 2 ^ 64
  sent : ∃ id r, { src := nk / 8, dst := 225, cls := 3, part := (s.nd nk).part, body := .record id } ∈ t.inbox ∧ Tab.find t.recs id = some r
    ∧ r.nk = nk ∧ r.served = false ∧ r.monitor = false

/-- No token of the cluster's planes is spilled. -/
def NoSpill (s : State) (c : Nat) : Prop := ∀ p, p < 8 → (s.nd (nkOf c p)).spill = []

end Sys2Proof.Machine

/-- R137, R138: an arrival (BARRIER_ARRIVAL) joins the open episode of its group, once for each node and iteration; the last of
count × members completes it, and every node of the kernel that waits for it is answered; one whose count differs from the first's
faults, as an engine fault once its invocation has committed (log 91). -/
def Sys2Proof.Machine.BarrierEpisodesCompleteR137 : Prop :=
  ∀ (s : State) (m : Parcel) (rest : List Parcel) (d grp cnt nk n ix age : Nat), s.inbox = m :: rest →
    m.body = .arrive d grp cnt nk n ix age →
    let e := Tab.get ({} : Episode) (s.cl d).episodes grp
    let arrived := if e.arrived.contains (nk, n) then e.arrived else e.arrived ++ [(nk, n)]
    ∃ u, exec (.barrierArrival 0) s = .next u.kernelsCheck ∧ (s.picking 0).msgDo m = some u ∧ u.mem = s.mem
      ∧ (e.arrived ≠ [] → e.cnt ≠ cnt → Tab.get ({} : Episode) (u.cl d).episodes grp = e
        ∧ (∀ v, v ∈ (s.nd nk).invs → v.age = age → (s.nd nk).pend = none → ∃ f, (u.nd nk).pend = some f ∧ f.cause = .barrierMismatch ∧ f.n = n ∧ f.ix = some ix)
        ∧ ((∀ v, v ∈ (s.nd nk).invs → v.age ≠ age) → ∃ f, (u.nd nk).engFaults = (s.nd nk).engFaults ++ [f] ∧ f.cause = .barrierMismatch ∧ f.n = n
          ∧ f.ix = some ix ∧ f.eng = true))
      ∧ (e.arrived = [] ∨ e.cnt = cnt →
        (Tab.find (s.nd nk).barLast grp = some ((age, ix), none) → Tab.find (u.nd nk).barLast grp = some ((age, ix), some e.num))
        ∧ (∀ l, Tab.find (s.nd nk).barLast grp = some l → l ≠ ((age, ix), none) → Tab.find (u.nd nk).barLast grp = some l)
        ∧ (arrived.length ≠ cnt * (s.group nk grp).length →
          Tab.get ({} : Episode) (u.cl d).episodes grp = { num := e.num, cnt := cnt, arrived := arrived }
          ∧ (u.nd nk).barWait = (s.nd nk).barWait.map fun b =>
            if b.grp = grp ∧ b.ep = none ∧ b.arr = (age, ix) then { b with ep := some e.num } else b)
        ∧ (arrived.length = cnt * (s.group nk grp).length → Tab.get ({} : Episode) (u.cl d).episodes grp = { num := e.num + 1 }
          ∧ ∀ k nj, (s.nd nk).kernel = some k → (s.nd nj).kernel = some k → ∀ b, b ∈ (u.nd nj).barWait → ¬ (b.grp = grp ∧ b.ep = some e.num)))

/-- R42, R49, R391, R400: time counts for the invocation that the watchdog watches while nothing of it waits (log 26), and the
watchdog expires after its limit; when every tag of a pool is held by an invocation that waits for a tag of it, or by one whose
commit does, one that took its tag last faults, of the pool's node where one of those waits; past the drain limit a fault waits
for older invocations no more. DRAIN_LIMIT_EXPIRY, WATCHDOG_EXPIRY and TAG_POOL_DEADLOCK complete. -/
def Sys2Proof.Machine.WaitsEndInFaultsR42 : Prop :=
  ∀ (s : State) (c p : Nat),
    let nk := nkOf c p
    let n := s.nd nk
    let limit := (nodeReg s nk 0x044).toNat % 2 ^ 32
    let drain := (pkg s 0x061).toNat % 2 ^ 32
    let runs := n.st = .running ∨ n.st = .draining
    (∀ m v, v ∈ s.watched nk → runs → (s.nodes.map (·.1)).Nodup → (∀ u, u ∈ n.invs → u.ws = v.ws → u.it = v.it → u = v) →
      ∃ t w, doItem (.advance m) s = .next t ∧ t.now = s.now + m ∧ w ∈ (t.nd nk).invs ∧ w.age = v.age
        ∧ w.wd = (if s.invWaits nk v then v.wd else v.wd + m))
    ∧ (∀ k v, (s.watched nk)[k]? = some v →
      (limit = 0 ∨ v.wd < limit ∨ ¬ runs → exec (.watchdogExpiry c p k) s = .next s)
      ∧ (limit ≠ 0 → limit ≤ v.wd → runs → ∃ t, exec (.watchdogExpiry c p k) s = .next t ∧ t.mem = s.mem
        ∧ Detects s t nk .watchdog v.n v.ws))
    ∧ (let all := s.poolWaiters nk
       let ordOf (t : Nat) : Nat := ((Tab.find n.tags t).map (·.ord)).getD 0
       let ord (w : Nat × Inv × Nat) : Nat :=
         if w.1 = nk then ordOf w.2.1.n else (w.2.1.tags.filter fun t => t.1 = nk).foldl (fun m t => max m (ordOf t.2)) 0
       let ws := if all.any fun w => w.1 = nk then all.filter fun w => w.1 = nk else all
       n.callable = true → n.freeTag = none → n.tags ≠ [] →
        (∀ t sp, (t, sp) ∈ n.tags → ∃ w, w ∈ all ∧ ((w.1 = nk ∧ w.2.1.n = t) ∨ (nk, t) ∈ w.2.1.tags)) →
        ∃ k v ix t, (k, v, ix) ∈ ws ∧ (∀ w, w ∈ ws → ord w ≤ ord (k, v, ix)) ∧ exec (.tagPoolDeadlock c p) s = .next t ∧ t.mem = s.mem
          ∧ Detects s t k .tagPoolDeadlock v.n v.ws)
    ∧ (∀ f, n.pend = some f → f.at_ + drain ≤ s.now → ∃ t, exec (.drainLimitExpiry c p) s = .next t ∧ t.mem = s.mem
      ∧ (t.nd nk).pend = some { f with drn := f.drn || n.invs.any fun v => v.age < f.age })
    ∧ (∀ k x, n.pend = none → n.kernel = some k → s.kern k = some x → x.st = .preempting → x.since + drain ≤ s.now →
      exec (.drainLimitExpiry c p) s = .next (s.drainOut nk))

/-- R40, R390 to R393: once every older invocation has committed (or the drain limit has passed), a detected fault is taken: it
and what is younger is discarded, the generation steps, the record is formed, and the node waits for its handler, to go on at RST.
INVOCATION_DISCARD completes. -/
def Sys2Proof.Machine.FaultsAreTakenR40 : Prop :=
  ∀ (s : State) (c p : Nat) (f : Pending),
    let nk := nkOf c p
    let n := s.nd nk
    let waits := n.callable = false ∧ f.drn = false ∧ ∃ v, v ∈ n.invs ∧ v.age < f.age
    n.pend = some f → p < 8 →
    (s.live nk = false ∨ n.actsDone = false ∨ n.genFree = false ∨ waits → exec (.invocationDiscard c p) s = .next s)
    ∧ (s.live nk = true → n.actsDone = true → n.genFree = true → ¬ waits → NoSpill s c →
      ∃ t rst drn, exec (.invocationDiscard c p) s = .next t ∧ t.mem = s.mem ∧ Recorded s t nk { f with drn := drn } rst ((n.moveTo).getD n.pc)
        ∧ (drn = true ↔ f.drn = true ∨ (n.callable = false ∧ ∃ v, v ∈ n.invs ∧ v.age < f.age))
        ∧ (t.nd nk).pend = none ∧ (t.nd nk).stop = true ∧ (t.nd nk).gn = (n.gn + 1) % 16 ∧ (t.nd nk).g = n.g ∧ (t.nd nk).pc = n.pc
        ∧ (t.nd nk).st = (if n.st = .ended then .ended else .faulted)
        ∧ (f.cause ≠ .fetchUncorrectable → (t.nd nk).moveTo = n.moveTo)
        ∧ (n.st ≠ .ended → (t.nd nk).rst = rst ∧ (t.nd nk).next = rst
          ∧ (n.callable = false → f.map = false → f.eng = false → f.trp = false → f.drn = false → rst = f.n ∧ (t.nd nk).invs = [])
          ∧ (f.drn = true → (t.nd nk).invs = [] ∧ (f.map = false → f.eng = false → f.trp = false → ∀ v, v ∈ n.invs → rst ≤ v.n))))

/-- R144, R391: an engine fault is taken between two commits, once the complete invocations have committed: every invocation in
flight is discarded and the record formed with ENG, to go on at the oldest of them; a node that has ended forms its record alone.
ENGINE_FAULT completes. -/
def Sys2Proof.Machine.EngineFaultsAreTakenR144 : Prop :=
  ∀ (s : State) (c p : Nat) (f : Pending) (rest : List Pending),
    let nk := nkOf c p
    let n := s.nd nk
    let waits := s.live nk = false ∨ n.actsDone = false ∨ s.completed nk ≠ [] ∨ n.pend ≠ none ∨ n.st = .faulted ∨ (n.genFree = false ∧ n.st ≠ .ended)
    n.engFaults = f :: rest → p < 8 →
    (waits → exec (.engineFault c p) s = .next s)
    ∧ (¬ waits → n.st = .ended → ∃ t, exec (.engineFault c p) s = .next t ∧ t.mem = s.mem ∧ Recorded s t nk f 0 ((n.moveTo).getD n.pc)
      ∧ (t.nd nk).engFaults = rest ∧ (t.nd nk).st = .ended ∧ (t.nd nk).gn = n.gn)
    ∧ (¬ waits → n.st ≠ .ended → (∀ v, v ∈ n.invs → v.n < 2 ^ 32) → NoSpill s c → ∃ t rst, exec (.engineFault c p) s = .next t ∧ t.mem = s.mem
        ∧ Recorded s t nk f rst ((n.moveTo).getD n.pc)
        ∧ (n.invs = [] → rst = n.next) ∧ (n.invs ≠ [] → (∃ v, v ∈ n.invs ∧ v.n = rst) ∧ ∀ v, v ∈ n.invs → rst ≤ v.n)
        ∧ (t.nd nk).engFaults = rest ∧ (t.nd nk).st = .faulted ∧ (t.nd nk).gn = (n.gn + 1) % 16 ∧ (t.nd nk).invs = []
        ∧ (t.nd nk).rst = rst ∧ (t.nd nk).next = rst)

/-- R57, R393, R396, R399, R402, R408, R409, R421: a record is resolved: RES lets the node go on at RST, mapping its block again
when it had none, SKIP absorbing the breakpoints of that iteration; ABN ends the node; KRN ends the kernel. A machine fault's
record takes KRN only, and a saved kernel's waits in its image. The monitor resolves in the same way, or resets the partition.
MONITOR_RESOLVE completes.
(Log 62.) -/
def Obligations.ResolutionsR409 : Prop :=
  ∀ (s : State) (id : Nat) (r : Rec) (x : Kernel) (skip : Bool), Tab.find s.recs id = some r → s.kern r.kernel = some x →
    let gone : State := { s with recs := Tab.del s.recs id, monQ := s.monQ.filter (· != id) }
    let n := s.nd r.nk
    (x.st = .running → r.mach = false → ∃ u : State, s.resolveRec id 0 skip = u.kernelsCheck ∧ u.recs = gone.recs ∧ u.mem = s.mem
      ∧ (n.st = .faulted → (u.nd r.nk).st = (if n.hdr = none ∨ n.moveTo ≠ none then .mapping else .running) ∧ (u.nd r.nk).stop = false
        ∧ (u.nd r.nk).next = n.rst ∧ (u.nd r.nk).skip = (if skip then some n.rst else none))
      ∧ (n.st ≠ .faulted → u.nd r.nk = n))
    ∧ (x.st = .running → r.mach = false → (n.st ≠ .ended → s.resolveRec id 1 skip =
        ((((gone.dropTags r.nk).modNd r.nk fun n => { n with aband := n.callable }).endNode r.nk).kernelsCheck))
      ∧ (n.st = .ended → s.resolveRec id 1 skip = gone.kernelsCheck))
    ∧ (x.st = .running → s.resolveRec id 2 skip = gone.endKernel r.kernel 8 ((wordOf r.val 0).toNat % 2 ^ 7))
    ∧ (∀ mode, mode < 2 → r.mach = true → s.resolveRec id mode skip = s)
    ∧ (∀ mode, mode < 3 → x.st = .saved → r.mach = false ∨ mode = 2 → ∃ y, (s.resolveRec id mode skip).kern r.kernel = some y
      ∧ y.frets = x.frets ++ [(r.nk, mode + 4 * ((wordOf r.val 0).toNat % 2 ^ 7), skip)]
      ∧ (s.resolveRec id mode skip).recs = gone.recs ∧ (s.resolveRec id mode skip).mem = s.mem)
    ∧ ∀ k mode, mgmtRuns s = true → (s.monQ.take 256)[k]? = some id →
      (mode = 3 → exec (.monitorResolve k mode) s = .next (let t := s.partReset r.part 2
        { t with recs := Tab.del t.recs id, monQ := t.monQ.filter (· != id) }))
      ∧ (mode ≠ 3 → exec (.monitorResolve k mode) s = .next (s.resolveRec id (mode % 4) (decide (mode = 4))))

/-! ### Mapping, translations and keys -/

namespace Sys2Proof.Machine

/-- A mapping of the node has faulted (R57): its plane is empty, and it waits for its handler, which maps the block again. -/
def MapFaults (s t : State) (nk : Nat) (c : Cause) (ix : Option Nat) : Prop :=
  (t.nd nk).st = .faulted ∧ (t.nd nk).hdr = none ∧ (t.nd nk).moveTo = some (s.nd nk).blk ∧ (t.nd nk).rst = (s.nd nk).next
    ∧ (nodeReg t nk 0xd0).toNat % 2 ^ 7 = causeCode c ∧ (nodeReg t nk 0xd0).toNat / 2 ^ 15 % 2 = 1
    ∧ ((s.nd nk).blk < 2 ^ 52 → match ix with
      | none => (nodeReg t nk 0xd1).toNat / 2 ^ 63 = 1
      | some k => k < 128 → (nodeReg t nk 0xd1).toNat / 2 ^ 56 = k)

end Sys2Proof.Machine

/-- R26, R53 to R57, R76, R87: a node that is to map a block, its plane idle, fills the block cache line by line (past 2^52 from
address 0: log 31), checks the block in the order of R56 and, with every check passed, holds its instructions in the plane's
context; a check or a fill that fails is a mapping fault with its cause and element. A callable block is only a callable node's
entry block. A page at another chip is no page to fetch from, and a forward entry that names the own chip is followed (log 13).
BLOCK_MAP and BLOCK_CACHE_FILL complete.
(Log 31 to 33.) -/
def Obligations.BlocksMapR56 : Prop :=
  ∀ (s : State) (c p : Nat),
    let nk := nkOf c p
    let n := s.nd nk
    let x := s.cl c
    let cal := n.callable && n.atEntry
    p < 8 → NoSpill s c →
    (s.mayMap nk = true ↔ s.live nk = true ∧ n.st = .mapping ∧ n.pend = none ∧ n.invs = [] ∧ n.actsDone = true ∧ n.barWait = []
      ∧ (∀ a, a ∈ n.mif → a.writes = true ∨ a.done = true ∨ a.off = true) ∧ (n.first = true ∨ n.genFree = true))
    ∧ (s.mayMap nk = false → exec (.blockMap c p) s = .next s ∧ exec (.blockCacheFill c p) s = .next s)
    ∧ (s.mayMap nk = true →
      (s.missing nk = none → exec (.blockCacheFill c p) s = .next s)
      ∧ (∀ va, s.missing nk = some va → (∀ line, x.line n.asid n.blk = some line → headerBad line cal = false) →
        exec (.blockMap c p) s = .next s
        ∧ (∀ pa slot, xlate s [tlbCl c, tlbDie (c / 96)] n.part n.asid va permX = .here pa slot →
          (keyHeld s (some slot) = true → exec (.blockCacheFill c p) s = .next s)
          ∧ (keyHeld s (some slot) = false → badAt s pa = true → ∃ t, exec (.blockCacheFill c p) s = .next t ∧ MapFaults s t nk .fetchUncorrectable none)
          ∧ (keyHeld s (some slot) = false → badAt s pa = false → ∃ t, exec (.blockCacheFill c p) s = .next t ∧ t.mem = s.mem
            ∧ (t.cl c).bcache = (if x.bcache.length < 1024 then x.bcache else x.bcache.drop 1) ++ [(n.asid, va, natLE (readUnder s pa 64 (some slot)).2 64)]))
        ∧ (∀ a b d e, xlate s [tlbCl c, tlbDie (c / 96)] n.part n.asid va permX = .away a b d e →
          ∃ t, exec (.blockCacheFill c p) s = .next t ∧ MapFaults s t nk .fetchTranslation none)
        ∧ (∀ cz a, xlate s [tlbCl c, tlbDie (c / 96)] n.part n.asid va permX = .bad cz a →
          ∃ t, exec (.blockCacheFill c p) s = .next t ∧ MapFaults s t nk (match cz with
            | .translation | .forwardLimit => .fetchTranslation | .permission => .fetchPermission | .uncorrectableError => .fetchUncorrectable
            | k => k) none))
      ∧ (∀ line, x.line n.asid n.blk = some line →
        (headerBad line cal = true → ∃ t, exec (.blockMap c p) s = .next t ∧ MapFaults s t nk .badBlockHeader none)
        ∧ (headerBad line cal = false → s.missing nk = none →
          let h := headerOf line
          let ps := placeAll (x.blockBytes n.asid n.blk 0 ((h.len + 63) / 64)) h.len 32 h.elems
          (∀ cz ix wd, streamCheck h n.wires (waves ps) ps = some (cz, ix, wd) → ∃ t, exec (.blockMap c p) s = .next t ∧ MapFaults s t nk cz (some ix))
          ∧ (streamCheck h n.wires (waves ps) ps = none → countsBad h (waves ps) ps = true →
            ∃ t, exec (.blockMap c p) s = .next t ∧ MapFaults s t nk .countMismatch none)
          ∧ (streamCheck h n.wires (waves ps) ps = none → countsBad h (waves ps) ps = false → ∃ (u : State) (hd : Header), exec (.blockMap c p) s = .next u.kernelsCheck
            ∧ u.mem = s.mem
            ∧ (u.nd nk).hdr = some hd ∧ hd.icnt = h.icnt ∧ hd.efc = h.efc ∧ hd.stm = h.stm ∧ hd.cal = h.cal ∧ hd.win = h.win ∧ hd.occ = h.occ
            ∧ (u.nd nk).pc = n.blk ∧ (u.nd nk).moveTo = none ∧ (u.nd nk).st = .running
            ∧ (u.nd nk).gn = (if n.first then n.gn else (n.gn + 1) % 16)
            ∧ ∀ e, e ∈ ps → e.ix < 128 → Tab.find (u.cl c).ctx (p * 128 + e.ix) = some { word := BitVec.ofNat 64 e.word, lit := BitVec.ofNat 64 e.lit }))))

/-- R347, R348, R349, R354, R358, R360: a holder in a TINV's scope drops the entries it covers, and acknowledges when nothing uses
them; a TINV ends with its last holder, and a TSYNC with the TINVs before it. A KEYSET replaces its slot once no access uses it
and no KEYSET of the slot is before it, and fills its place with 1 and the status of its operands. TINV_HOLDER_ACK and
KEY_SLOT_REPLACE complete.
(Log 43.) -/
def Obligations.TranslationsAndKeysChangeR348 : Prop :=
  (∀ (s : State) (k : Nat) (t : Tinv) (h : Nat), (s.tinvs.flatMap fun t => t.left.map fun h => (t, h))[k]? = some (t, h) →
    ((s.tinvDrop t h).tinvUsed t h = true → exec (.tinvHolderAck k) s = .next (s.tinvDrop t h).kernelsCheck)
    ∧ (h < 8192 → ∀ e, e ∈ Tab.get [] (s.tinvDrop t h).tlb h ↔ e ∈ Tab.get [] s.tlb h ∧ ¬ (e.asid = t.asid
      ∧ t.covers (e.vpn * 2 ^ pageShift e.level) (2 ^ pageShift e.level) = true))
    ∧ (8192 ≤ h → ∀ e, e ∈ ((s.tinvDrop t h).cl (h - 8192)).bcache ↔ e ∈ (s.cl (h - 8192)).bcache ∧ ¬ (e.1 = t.asid ∧ t.covers e.2.1 64 = true))
    ∧ (∀ nk a, a ∈ (s.nd nk).mif → (s.nd nk).asg.isSome = true → Tab.find s.nodes nk = some (s.nd nk) → holderHas h (nk / 8) = true →
      s.accUses t (s.nd nk) a = true → (s.tinvDrop t h).tinvUsed t h = true)
    ∧ (∀ c u l m, Tab.find s.clusters c = some (s.cl c) → (u, l) ∈ (s.cl c).units → m ∈ l → h < 8192 → holderHas h c = true → s.cmdUses t c m = true →
      (s.tinvDrop t h).tinvUsed t h = true)
    ∧ ((s.tinvDrop t h).tinvUsed t h = false → s.tsyncs = [] → ∃ u : State, exec (.tinvHolderAck k) s = .next u.kernelsCheck ∧ u.mem = s.mem
      ∧ ∀ x, x ∈ u.tinvs ↔ ∃ y, y ∈ s.tinvs ∧ x = (if y.id = t.id then { y with left := y.left.erase h } else y) ∧ x.left ≠ []))
  ∧ (∀ (s : State) (x : Tsync), x ∈ s.tsyncs → ((∃ t, t ∈ s.tinvs ∧ t.nk = x.nk ∧ t.id < x.upto) ↔ x ∈ s.tsyncCheck.tsyncs))
  ∧ (∀ (s : State) (x : Tsync) (q p : Nat), s.tsyncs = [x] → (∀ t, t ∈ s.tinvs → t.nk = x.nk → x.upto ≤ t.id) → x.place = some (q, p) →
    s.tsyncCheck = ({ s with tsyncs := [] } : State).fillPlace x.nk q p .reply x.o)
  ∧ (∀ (s : State) (k : Nat) (x : Kset), s.ksets[k]? = some x →
    (s.slotUsed x.slot = true ∨ (∃ y, y ∈ s.ksets.take k ∧ y.slot = x.slot) → exec (.keySlotReplace k) s = .next s.kernelsCheck)
    ∧ (s.slotUsed x.slot = false → (∀ y, y ∈ s.ksets.take k → y.slot ≠ x.slot) → ∃ u : State, exec (.keySlotReplace k) s = .next u.kernelsCheck
      ∧ u.mem = s.mem ∧ Tab.find u.keys x.slot = some x.val ∧ (∀ j, j ≠ x.slot → Tab.find u.keys j = Tab.find s.keys j)
      ∧ u.ksets = s.ksets.take k ++ s.ksets.drop (k + 1)
      ∧ ∀ q p, x.place = some (q, p) → (s.nd x.nk).wires.find? (fun w => w.q = q) = none → ∀ tk, tk ∈ (u.nd x.nk).outq → tk.q = q → tk.place = p →
        tk.o = some x.o))

/-! ### Streaming read-ahead, admission, pre-emption and resume -/

namespace Sys2Proof.Machine

/-- The head of queue `q` is answered with a status: TAKEN steps, and the status word is owed (R293, R294). -/
def AnsweredHead (s t : State) (q code : Nat) : Prop :=
  lqTaken t q = (lqTaken s q + 1) % 2 ^ 32 ∧ lqDone t q = lqDone s q ∧ t.mem = s.mem ∧ t.kernels = s.kernels ∧ t.clusters = s.clusters
    ∧ t.nodes = s.nodes
    ∧ (Tab.get ({} : LQueue) t.queues q).status = (Tab.get ({} : LQueue) s.queues q).status ++ [(lqTaken s q, code, 0)]

/-- The Weir of die `d` may act (R300, R422, R425). -/
def WeirActs (s : State) (d : Nat) : Prop := d < 2 ∧ bootErr s = 0 ∧ s.tripped = false ∧ Tab.get 0 s.weirNext d ≤ s.now

/-- The state after the completed kernels of the die are freed and the answers of R293 given in an interval. -/
def answered (s : State) (d : Nat) : State :=
  (List.range 64).foldl (fun s q => s.answerHead d q)
    (({ s with weirNext := Tab.put s.weirNext d ((s.now / 64 + 1) * 64) } : State).completeKernels fun x => x.die = d)

/-- `v` is `u` with the heads before `b` passed over: their bypass counts step (R301). -/
def PassedOver (u v : State) (d : Nat) (b : Head) : Prop :=
  v = { u with queues := v.queues, kernels := v.kernels } ∧ v.kernNext = u.kernNext
    ∧ (∀ c, c ∈ u.heads d → c.resume = none →
      Tab.get ({} : LQueue) v.queues c.q = { Tab.get ({} : LQueue) u.queues c.q with bypass := if c.before b then min 255 (c.bypass + 1) else c.bypass })
    ∧ ∀ c k x, c ∈ u.heads d → c.resume = some (k, x) → c.before b = true →
      v.kern k = (u.kern k).map fun y => { y with bypass := min 255 (y.bypass + 1) }

/-- A checked kernel is admitted at a placement (R303 steps 2 to 4). -/
structure Admitted (u t : State) (a : Head) (d x y : Nat) (r : KernRec) : Prop where
  taken : lqTaken t a.q = (lqTaken u a.q + 1) % 2 ^ 32
  kernel : ∃ kn, t.kern u.kernNext = some kn ∧ kn.queue = a.q ∧ kn.recno = lqTaken u a.q ∧ kn.rank = a.rank ∧ kn.part = lqPart u a.q
    ∧ kn.asid = lqAsid u a.q ∧ kn.die = d ∧ kn.x = x ∧ kn.y = y ∧ kn.w = a.w ∧ kn.h = a.h ∧ kn.st = .running
    ∧ ∀ i (e : SecRec), r.secs[i]? = some e → (kn.sec i).npred = e.npred ∧ (kn.sec i).count = e.npred ∧ (kn.sec i).succ = e.succ
      ∧ (kn.sec i).t = e.t ∧ ((kn.sec i).st = .armed ↔ e.npred = 0)
      ∧ ∀ l v, r.tables[i]? = some l → v ∈ l → e.aligned x y = true → (e.routerFor d x y v, BitVec.ofNat 64 v) ∈ kn.stTables
  given : ∀ c, c ∈ rect d x y a.w a.h → (t.cl c).holder = some (u.kernNext, lqPart u a.q) ∧ (t.cl c).engTiles = [] ∧ (t.cl c).sems = []
    ∧ (t.cl c).pats = [] ∧ (t.cl c).array = {} ∧ (t.cl c).kms = [] ∧ (t.cl c).episodes = []
    ∧ ∀ k, clMem c k = true → memGet t k = if (u.cl c).prevPart = some (lqPart u a.q) then memGet u k else 0
  mem : ∀ k, (∀ c, c ∈ rect d x y a.w a.h → clMem c k = false) → memGet t k = memGet u k
  nodes : ∀ j (g : NodeRec), r.nodes[j]? = some g →
    let nk := nkOf (nodeCl r.secs d x y j g) g.pl
    let sec := (secOfNode r.secs j).headD 0
    let es : List Nat := r.regs.getD j [] ++ r.args.filter fun v => bits (wd v 0) 0 11 = j
    (∃ n, (t.nd nk).asg = some n ∧ n.kernel = u.kernNext ∧ n.sec = sec ∧ n.num = j ∧ n.part = lqPart u a.q ∧ n.asid = lqAsid u a.q
      ∧ n.entry = g.entry)
    ∧ (t.nd nk).gn = 0 ∧ (t.nd nk).hdr = none ∧ (t.nd nk).next = 0
    ∧ (t.nd nk).wires = wiresOf ((List.range r.nodes.length).zip r.nodes |>.map fun e => nkOf (nodeCl r.secs d x y e.1 e.2) e.2.pl) (r.wires.getD j [])
    ∧ (∀ e : SecRec, r.secs[sec]? = some e → (e.npred = 0 → (t.nd nk).st = .mapping ∧ (t.nd nk).moveTo = some g.entry ∧ (t.nd nk).tcount = e.t)
      ∧ (e.npred ≠ 0 → (t.nd nk).st = .idle))
    ∧ nodeReg t nk 0x011 = 0
    ∧ ∀ (i e : Nat), es[i]? = some e → (∀ i' e' : Nat, i < i' → es[i']? = some e' → bits (wd e' 0) 11 13 ≠ bits (wd e 0) 11 13) →
      let num := bits (wd e 0) 13 11
      (bits (wd e 0) 11 2 = 0 → Tab.get 0 (t.nd nk).g num = BitVec.ofNat 64 (wd e 1))
      ∧ (bits (wd e 0) 11 2 = 1 → Tab.get 0 (t.nd nk).m num = BitVec.ofNat 64 (wd e 1))
      ∧ (bits (wd e 0) 11 2 = 2 → num ≠ 0x011 → (num = 0x010 → wd e 1 % 8 ≤ 4) → (num = 0x041 → wd e 1 % 2 ^ 9 ≤ 384) →
        nodeReg t nk num = BitVec.ofNat 64 (wd e 1 % 2 ^ 64 &&& regMask num))

/-- The image of kernel `k` is restored: its clusters are its own again with the memory they had, each node is mapped at its program
counter, and the slots are free (R404 steps 1 to 3). -/
structure Resumed (u t : State) (k q : Nat) (x : Kernel) : Prop where
  entry : (Tab.get ({} : LQueue) t.queues q).resume = (Tab.get ({} : LQueue) u.queues q).resume.filter (· != k)
  same : lqTaken t q = lqTaken u q ∧ lqDone t q = lqDone u q
  kernel : ∃ y, t.kern k = some y ∧ y.st = .running ∧ y.slots = [] ∧ y.bypass = 0 ∧ y.secs = x.secs ∧ y.nodes = x.nodes ∧ y.queue = x.queue ∧ y.recno = x.recno
  given : ∀ c, c ∈ x.clusters → (t.cl c).holder = some (k, x.part)
  clusters : ∀ c y, c ∈ x.clusters → Tab.find x.savedCl c = some y → (t.cl c).sems = y.sems ∧ (t.cl c).pats = y.pats ∧ (t.cl c).kms = y.kms
    ∧ (t.cl c).units = y.units ∧ (t.cl c).flumes = y.flumes ∧ (t.cl c).windows = y.windows ∧ (t.cl c).episodes = y.episodes
    ∧ (t.cl c).store = y.store ∧ (t.cl c).engTiles = y.engTiles
  nodes : ∀ nk y, nk ∈ x.nodes.map NodeDesc.nk → Tab.find x.savedNd nk = some y → (t.nd nk).g = y.g ∧ (t.nd nk).m = y.m ∧ (t.nd nk).gn = y.gn ∧ (t.nd nk).next = y.next
    ∧ (t.nd nk).rst = y.rst ∧ (t.nd nk).wires = y.wires ∧ (t.nd nk).acts = y.acts
    ∧ (t.nd nk).hdr = (if y.actsDone then none else y.hdr)
    ∧ (y.st = .running ∨ y.st = .mapping → (t.nd nk).moveTo = some y.blk)
    ∧ (t.nd nk).st = (if y.st = .running then .mapping else y.st)
  mem : ∀ c j, c ∈ x.clusters → clMem c j = true → memGet t j = ((x.savedSp.find? fun e => e.1 = j).map (·.2)).getD 0
  rest : ∀ j, (∀ c, c ∈ x.clusters → clMem c j = false) → memGet t j = memGet u j

/-- What becomes of the head that the Weir takes at a placement (R302, R303, R404). -/
def Outcome1 (v t : State) (b : Head) (d : Nat) (p : Nat × Nat) : Prop :=
  (b.resume = none → (∀ code, v.readKernel b d p.1 p.2 = .error code → AnsweredHead v t b.q code)
    ∧ (∀ r, v.readKernel b d p.1 p.2 = .ok r →
      ((List.range r.nodes.length).zip r.nodes |>.map fun e => nkOf (nodeCl r.secs d p.1 p.2 e.1 e.2) e.2.pl).Nodup →
      Admitted v t b d p.1 p.2 r))
  ∧ (∀ k px py x, b.resume = some (k, px, py) → v.kern k = some x →
    let l := Tab.get ({} : LQueue) v.queues b.q
    let gone : State := ({ v with queues := Tab.put v.queues b.q { l with resume := l.resume.filter (· != k) } } : State).stampHead b.q
    (v.slotsFail x = true ∨ v.slotCells x ≠ x.ctxCells → t = (gone.machineFault .contextRestoreError x.part k).endKernel k 8 0x51)
    ∧ (v.slotsFail x = false → v.slotCells x = x.ctxCells →
      ∃ t0, Resumed v t0 k b.q x ∧ t = x.frets.foldl (fun s f => s.applyFret k f) t0))

end Sys2Proof.Machine

/-- R91: an element of a streaming load that has its start token may read a granule of its region ahead (STREAM_READ_AHEAD); the
bytes inside the region are kept for its access, and nothing else changes. -/
def Sys2Proof.Machine.StreamsReadAheadR91 : Prop :=
  ∀ (s : State) (c p ix it a : Nat),
    let nk := nkOf c p
    p < 8 →
    (s.live nk = false ∨ s.streamStarted nk ix it = false → exec (.streamReadAhead c p ix it a) s = .next s)
    ∧ (s.live nk = true → s.streamStarted nk ix it = true → ∀ i op w asp base len pc, ctxInstr (s.cl c) p ix = some i → i.view = some (op, .m w) →
      opLoad op = true → w.mode = .stm → (s.nd nk).regs.find? (fun r => r.1 = ix ∧ r.2.1 = it) = some (ix, it, asp, base, len) →
      let sz := if asp = .sp ∨ asp = .xp then 32 else 64
      let g := a / sz * sz
      locate s (s.party nk) asp g sz 0 permR = .piece [pc] → isRemote pc.key = false → badAt s pc.key = false → keyHeld s pc.slot = false →
      ∃ t, exec (.streamReadAhead c p ix it a) s = .next t ∧ t.mem = s.mem ∧ t.clusters = s.clusters
        ∧ (∀ j, j < sz → base ≤ g + j → g + j < base + len →
          (ix, it, pc.key + j, BitVec.ofNat 8 ((readUnder s pc.key sz pc.slot).2 / 256 ^ j)) ∈ (t.nd nk).stmBuf)
        ∧ (∀ e, e ∈ (t.nd nk).stmBuf → e ∈ (s.nd nk).stmBuf ∨ e.1 = ix ∧ e.2.1 = it ∧ pc.key ≤ e.2.2.1 ∧ e.2.2.1 < pc.key + sz
          ∧ base ≤ g + (e.2.2.1 - pc.key) ∧ g + (e.2.2.1 - pc.key) < base + len)
        ∧ (∀ e, e ∈ (s.nd nk).stmBuf → e.1 ≠ ix ∨ e.2.1 ≠ it → e ∈ (t.nd nk).stmBuf)
        ∧ ∀ nj, nj ≠ nk → t.nd nj = s.nd nj)

/-- R293, R294, R337: the one head of the queues, when the Weir cannot read it or a check refuses it: under an ASID outside the
partition's range, or at a page without translation or permission, it is answered 6, at an uncorrectable error 2, a record that
breaks R292 2, one of another partition 6, one out of sequence 5; what leaves the expected SEQ unchanged leaves it so. A readable
record is answered by the Weir of its own die (log 46). ADMISSION_INTERVAL completes. -/
def Sys2Proof.Machine.HeadsAreAnsweredR293 : Prop :=
  ∀ (s : State) (d q : Nat), WeirActs s d → q < 64 → (∀ j, j < 64 → j ≠ q → lqEn s j = false) → lqEn s q = true →
    (Tab.get ({} : LQueue) s.queues q).resume = [] → lqTail s q = (lqTaken s q + 1) % 2 ^ 32 →
    (∀ k x, s.kern k = some x → x.die = d → s.kernelDone k x = false) →
    let part := lqPart s q
    let l := Tab.get ({} : LQueue) s.queues q
    let rd := sysRead s part (lqAsid s q) (lqRec s q (lqTaken s q)) 64
    let refused (code : Nat) (e : Option W64) : Prop := ∃ t, exec (.admissionInterval d) s = .next t ∧ AnsweredHead s t q code
      ∧ (Tab.get ({} : LQueue) t.queues q).expect = e
    (asidIn s part (lqAsid s q) = false → refused 6 l.expect)
    ∧ (asidIn s part (lqAsid s q) = true →
      (∀ cz, rd = .error cz → refused (if cz = .uncorrectableError then 2 else 6) l.expect)
      ∧ ∀ n, rd = .ok n →
        let v := BitVec.ofNat 512 n
        let seq := wordOf v 0
        (bits (wordOf v 3).toNat 8 1 ≠ d → ∃ t, exec (.admissionInterval d) s = .next t ∧ t.queues = s.queues ∧ lqTaken t q = lqTaken s q
          ∧ t.kernels = s.kernels ∧ t.mem = s.mem)
        ∧ (bits (wordOf v 3).toNat 8 1 = d →
          (recordBad v = true → refused 2 (some (seq + 1)))
          ∧ (recordBad v = false → bits (wordOf v 3).toNat 20 6 ≠ part ∨ partValid s part = false → refused 6 (some (seq + 1)))
          ∧ (recordBad v = false → bits (wordOf v 3).toNat 20 6 = part → partValid s part = true → ∀ e, l.expect = some e → seq ≠ e →
            refused 5 (some e))))

/-- R300 to R303, R306, R404: an interval frees the die's completed kernels, answers the heads that R293 refuses, and then takes at
most one head of its die: the first in the order of rank, age and queue that fits, those before it being passed over; when the
first has reached BYPASS_LIMIT, it is held for until it is admitted, nothing else is admitted, and if it does not fit the kernels of
the first placement that pre-emption can free, all of lower rank, are pre-empted. -/
def Sys2Proof.Machine.AdmissionsFollowTheOrderR300 : Prop :=
  ∀ (s : State) (d : Nat),
    (¬ WeirActs s d → exec (.admissionInterval d) s = .next s)
    ∧ (WeirActs s d →
      let u := answered s d
      let limit := (pkg u 0x060).toNat % 2 ^ 8
      let first (a : Head) : Prop := a ∈ u.heads d ∧ ∀ c, c ∈ u.heads d → c ≠ a → a.before c = true
      let id (a : Head) : Nat × Option Nat × Nat := (a.q, a.resume.map (·.1), lqTaken u a.q)
      let latched (a : Head) : Prop := a ∈ u.heads d ∧ Tab.find u.weirHold d = some (id a)
      let held (a : Head) : Prop := latched a ∨ ((∀ c, ¬ latched c) ∧ first a ∧ limit ≤ a.bypass)
      let free : State := { u with weirHold := Tab.del u.weirHold d }
      (u.heads d = [] → exec (.admissionInterval d) s = .next free)
      ∧ (∀ a, held a →
        let v : State := { u with weirHold := Tab.put u.weirHold d (id a) }
        (∀ p, v.fits d a = some p → ∃ t, exec (.admissionInterval d) s = .next t ∧ Outcome1 { v with weirHold := Tab.del v.weirHold d } t a d p)
        ∧ (v.fits d a = none → (∀ p, p ∈ a.places → v.takeOver d a p = none) → exec (.admissionInterval d) s = .next v)
        ∧ (v.fits d a = none → ∀ (i : Nat) p t, a.places[i]? = some p → v.takeOver d a p = some t →
          (∀ (j : Nat) p', j < i → a.places[j]? = some p' → v.takeOver d a p' = none) → exec (.admissionInterval d) s = .next t
            ∧ t.clusters = u.clusters ∧ t.mem = u.mem ∧ t.queues = u.queues
            ∧ ∀ c k, c ∈ rect d p.1 p.2 a.w a.h → (u.cl c).holder.map (·.1) = some k → ∃ x y, u.kern k = some x ∧ t.kern k = some y
              ∧ x.rank < a.rank ∧ (y.st = .preempting ∨ y.st = .ended)
              ∧ (x.st = .running → y = { x with st := .preempting, since := u.now, slots := y.slots } ∧ y.slots.length = x.w * x.h)))
      ∧ ((∀ a, ¬ held a) → (∀ b, b ∈ u.heads d → free.fits d b = none) → exec (.admissionInterval d) s = .next free)
      ∧ ((∀ a, ¬ held a) → ∀ b p, b ∈ u.heads d → free.fits d b = some p →
        (∀ c, c ∈ u.heads d → c ≠ b → free.fits d c ≠ none → b.before c = true) →
        ∃ v t, PassedOver free v d b ∧ exec (.admissionInterval d) s = .next t ∧ Outcome1 v t b d p))

/-- R400, R402, R403: the management core pre-empts a running kernel that has not completed and whose clusters all have slots; a
kernel at rest is saved: its nodes' generations step, where the pre-emption has not stepped them (R25), its image takes its
clusters' memory, it becomes a resume entry of its queue, and its clusters are free. An image that cannot be written leaves it
stopped on its clusters. MANAGEMENT_CORE_PREEMPTION and CONTEXT_IMAGE_WRITE complete. -/
def Sys2Proof.Machine.PreemptionSavesAKernelR400 : Prop :=
  ∀ (s : State) (n : Nat),
    (s.kern n = none → exec (.contextImageWrite n) s = .next s ∧ exec (.managementCorePreemption n) s = .next s)
    ∧ ∀ x, s.kern n = some x →
      (2 ≤ bootStageOf s → bootErr s = 0 → x.st = .running → s.kernelDone n x = false → x.w * x.h ≤ (s.slotsFree x.part).length →
        ∃ t y, exec (.managementCorePreemption n) s = .next t ∧ t = { s with kernels := t.kernels } ∧ t.kern n = some y
          ∧ y = { x with st := .preempting, since := s.now, slots := y.slots } ∧ y.slots.length = x.w * x.h
          ∧ ∀ j, j ∈ y.slots → j ∉ s.slotsUsed x.part ∧ j < (partReg s x.part 0x063).toNat % 2 ^ 16)
      ∧ (bootStageOf s < 2 ∨ bootErr s ≠ 0 ∨ x.st ≠ .running ∨ s.kernelDone n x = true ∨ (s.slotsFree x.part).length < x.w * x.h →
        exec (.managementCorePreemption n) s = .next s)
      ∧ (x.st ≠ .preempting ∨ s.atRest n x = false → exec (.contextImageWrite n) s = .next s)
      ∧ (x.st = .preempting → s.atRest n x = true →
        (s.slotsFail x = true → exec (.contextImageWrite n) s = .next ((s.modKern n fun y => { y with st := .stuck }).machineFault .contextSaveError x.part n))
        ∧ (s.slotsFail x = false → ∃ t y, exec (.contextImageWrite n) s = .next t ∧ t.mem = s.mem ∧ t.kern n = some y
          ∧ y.st = .saved ∧ y.age = x.age ∧ y.bypass = x.bypass ∧ y.x = x.x ∧ y.y = x.y ∧ y.slots = x.slots ∧ y.secs = x.secs
          ∧ (∀ c k, c ∈ x.clusters → clMem c k = true → ((y.savedSp.find? fun e => e.1 = k).map (·.2)).getD 0 = memGet s k)
          ∧ (∀ nk, nk ∈ x.nodes.map NodeDesc.nk → ∃ d, Tab.find y.savedNd nk = some d
            ∧ ((s.nd nk).st ≠ .unassigned → (s.nd nk).stepped = false → d = { s.nd nk with gn := ((s.nd nk).gn + 1) % 16 })
            ∧ ((s.nd nk).st ≠ .unassigned → (s.nd nk).stepped = true → d = { s.nd nk with stepped := false }))
          ∧ n ∈ (Tab.get ({} : LQueue) t.queues x.queue).resume
          ∧ (∀ nk, nk ∈ x.nodes.map NodeDesc.nk → (t.nd nk).asg = none ∧ (t.nd nk).outst = (s.nd nk).outst)
          ∧ ∀ c, c ∈ x.clusters → (t.cl c).holder = none ∧ (t.cl c).prevPart = some x.part))

/-! ### Status words and the network -/

namespace Sys2Proof.Machine

/-- What one try of a status word does (R294, R418): `e` is the oldest status owed whose time has come: record, word, next try. -/
def StatusTry (s t : State) (q : Nat) (e : Nat × Nat × Nat) : Prop :=
  let l := Tab.get ({} : LQueue) s.queues q
  let d := ((pkg s 0x0a2).toNat + 1) % 2 ^ 64
  (∀ c, sysLoc s (lqPart s q) (lqAsid s q) (lqRec s q e.1) permW = .error c → t.mem = s.mem ∧ t.sr = s.sr ∧ t.kernels = s.kernels
    ∧ Tab.get ({} : LQueue) t.queues q = { l with status := l.status.map fun x => if x = e then (x.1, x.2.1, s.now + 1024) else x })
  ∧ (∀ pa slot, sysLoc s (lqPart s q) (lqAsid s q) (lqRec s q e.1) permW = .ok (pa, slot) → reservedBy s pa (2 ^ 30) 0 = true → t = s)
  ∧ (∀ pa slot, sysLoc s (lqPart s q) (lqAsid s q) (lqRec s q e.1) permW = .ok (pa, slot) → reservedBy s pa (2 ^ 30) 0 = false →
    q < 64 → l.done.length < 2 ^ 31 →
    (readUnder t (pa + 48) 16 (some slot)).2 = (d + 2 ^ 64 * e.2.1) % 2 ^ 128
    ∧ (Tab.get none s.memx.gkey (granule (pa + 48)) = slotMaterial s slot → ∀ k, k < pa + 48 ∨ pa + 64 ≤ k → memGet t k = memGet s k)
    ∧ (pkg t 0x0a2).toNat = d
    ∧ (Tab.get ({} : LQueue) t.queues q).status = l.status.erase e
    ∧ lqTaken t q = lqTaken s q
    ∧ (∃ n, lqDone t q = (lqDone s q + n) % 2 ^ 32 ∧ (lqDone s q + n) % 2 ^ 32 ∉ l.done ++ [e.1]
      ∧ ∀ i, i < n → (lqDone s q + i) % 2 ^ 32 ∈ l.done ++ [e.1])
    ∧ ∀ c m, m ∈ s.unit c 9 → m.op = .launch → m.aux = [1, q, e.1] → { m with finished := true } ∈ t.unit c 9)

/-- `a` at input `i` goes before `b` at input `j` by items 2 and 3 of R327: saturated counters first, the earliest arrival first among
them; then the higher class, then the earliest arrival; then the lower input port. -/
def Precedes (now i j : Nat) (a b : RPkt) : Prop :=
  let earlier := a.at_ < b.at_ ∨ a.at_ = b.at_ ∧ i < j
  (a.age now = 255 ∧ (b.age now = 255 → earlier))
    ∨ (a.age now ≠ 255 ∧ b.age now ≠ 255 ∧ (b.m.cls < a.m.cls ∨ a.m.cls = b.m.cls ∧ earlier))

/-- A flit of packet `h` comes into an input buffer on channel `ch`: its header as a new packet, a later one behind those before it
(R320, R324, R327). -/
def FlitInto (s t : State) (r inp ch : Nat) (h : RPkt) : Prop :=
  let old := Tab.get [] (s.router r).bufs inp
  let mine (y : RPkt) : Prop := y.ich = ch ∧ y.inn < y.len
  (h.out = 0 → Tab.get [] (t.router r).bufs inp = old ++ [{ m := h.m, at_ := s.now + 1, len := h.len, inn := 1, last := s.now + 1, ich := ch }])
  ∧ (0 < h.out → ∀ pre y post, old = pre ++ y :: post → mine y → (∀ z, z ∈ pre → ¬ mine z) →
    Tab.get [] (t.router r).bufs inp = pre ++ { y with inn := y.inn + 1, last := s.now + 1 } :: post)

/-- The head `h0` of input `i` has sent a flit by a port of router `r`, in a reserved slot or not: `h` is it with its channel (the
circuit's of its input, or its nesting level), open until its last flit (R327). -/
structure FlitOut (s t : State) (r port i : Nat) (circ : Bool) (h0 h : RPkt) (rest : List RPkt) : Prop where
  head : h = if h0.out = 0 then { h0 with cnt := 0, circ := circ, och := if circ then 4 + i else (Tab.get [] (s.router r).opens port).length }
    else if circ = false ∧ i ∉ Tab.get [] (s.router r).opens port then { h0 with circ := false } else h0
  last : Tab.get 0 (t.router r).last port = s.now + 1
  more : h.out + 1 < h.len → Tab.get [] (t.router r).bufs i = { h with out := h.out + 1 } :: rest
    ∧ Tab.get [] (t.router r).opens port = (let l := Tab.get [] (s.router r).opens port; if h.circ = true ∨ i ∈ l then l else i :: l)
  tail : h.len ≤ h.out + 1 → Tab.get [] (t.router r).bufs i = rest
    ∧ Tab.get [] (t.router r).opens port = (Tab.get [] (s.router r).opens port).filter (· != i)

/-- A flit leaves a router of a die: to the next router, or to its place, where the message waits to take effect once the last flit of
its last packet has come (R320, R322). -/
def FlitSent (s t : State) (r port i : Nat) (circ : Bool) (h0 : RPkt) (rest : List RPkt) : Prop :=
  ∃ h, FlitOut s t r port i circ h0 h rest ∧ match linkTo r port with
    | some (r', inp) => FlitInto s t r' inp h.och h ∧ t.inbox = s.inbox
    | none => (h.out + 1 < h.len ∨ h.m.more = true → h.m.dst < 224 → t.inbox = s.inbox)
      ∧ (h.len ≤ h.out + 1 → h.m.more = false → h.m.dst < 224 → (∀ k, h.m.body ≠ .qtok k) → t.inbox = s.inbox ++ [{ h.m with paid := 0, to_ := [] }])

/-- The number of hops from a router to a place's own router, if it is reached within `n`. -/
def hops (d : Nat) : Nat → Nat → Option Nat
  | 0, _ => none
  | n + 1, r => if r = (routerOf d).1 then some 0 else (linkTo r (egressOf r d)).bind fun x => (hops d n x.1).map (· + 1)

end Sys2Proof.Machine

/-- R294, R418: words 6 and 7 of a record take DEV_SEQ_ISSUED + 1 and the status in one access, DEV_SEQ_ISSUED steps, and DONE
passes the leading records whose status is written; a write that fails is tried again after 1024 cycles and takes no completion
sequence. STATUS_WORD_WRITE and STATUS_WRITE_RETRY complete. -/
def Sys2Proof.Machine.StatusWordsR418 : Prop :=
  ∀ (s : State) (q : Nat),
    let l := Tab.get ({} : LQueue) s.queues q
    let owed (retry : Bool) := (Tab.get ({} : LQueue) s.queues q).status.find? fun e => e.2.2 ≤ s.now && (e.2.2 != 0) = retry
    let complete (k : Nat) (x : Kernel) : Prop := s.kern k = some x ∧ x.queue = q ∧ s.kernelDone k x = true
    ((∀ k x, ¬ complete k x) → owed false = none → exec (.statusWordWrite q) s = .next s)
    ∧ (owed true = none → exec (.statusWriteRetry q) s = .next s)
    ∧ ((∀ k x, ¬ complete k x) → ∀ e, owed false = some e → ∃ t, exec (.statusWordWrite q) s = .next t ∧ StatusTry s t q e)
    ∧ (∀ k x, complete k x → x.noStatus = false → s.kernels = [(k, x)] → owed false = none → l.status = [] →
      ∃ t, exec (.statusWordWrite q) s = .next t ∧ StatusTry (s.freeKernel k { x with code := 1, cause := 0 }) t q (x.recno, 1, 0))
    ∧ ∀ e, owed true = some e → ∃ t, exec (.statusWriteRetry q) s = .next t ∧ StatusTry s t q e

/-- R321, R322: the egress ports lead every packet to the router of its place, by the row link, then the column link, and across the bridge of
its own row when it is for the other die; there to the local port of R321. A packet that leaves the package goes to the I-die port of its die,
at router (7, 3) of die 0 or (0, 3) of die 1. -/
def Obligations.RoutesReachTheirPlaceR322 : Prop :=
  (∀ r d, r < 64 → d < 224 → ∃ n, hops d 5 r = some n ∧ n ≤ (if r / 32 = (routerOf d).1 / 32 then 2 else 4)
    ∧ (r = (routerOf d).1 → egressOf r d = (routerOf d).2))
  ∧ (∀ c, c < 192 → (routerOf c).2 = 12 + 2 * (c % 96 / 12 % 2) + c % 12 % 2)
  ∧ (∀ r d, r < 64 → d < 224 → r / 32 = (routerOf d).1 / 32 →
    (r % 8 ≠ (routerOf d).1 % 8 → egressOf r d = (routerOf d).1 % 8)
    ∧ (r % 8 = (routerOf d).1 % 8 → r % 32 / 8 ≠ (routerOf d).1 % 32 / 8 → egressOf r d = 8 + (routerOf d).1 % 32 / 8))
  ∧ (∀ r d, r < 64 → d < 224 → r / 32 ≠ (routerOf d).1 / 32 →
    let bridge := if r < 32 then 7 else 0
    (r % 8 ≠ bridge → egressOf r d = bridge) ∧ (r % 8 = bridge → egressOf r d = 14))
  ∧ (∀ y, y < 4 → linkTo (8 * y + 7) 14 = some (32 + 8 * y, 14) ∧ linkTo (32 + 8 * y) 14 = some (8 * y + 7, 14))
  ∧ (∀ r d, r < 64 → 512 ≤ d →
    let exit := if r < 32 then 31 else 56
    (r = exit → egressOf r d = 15) ∧ (r % 8 ≠ exit % 8 → egressOf r d = exit % 8) ∧ (r % 8 = exit % 8 → r ≠ exit → egressOf r d = 8 + 3))

/-- R320, R324, R326, R327, R328: in a cycle a port of a router sends at most one flit: the slot owner's if it has one for the
port; else, with no packet open, that of the first of the waiting ones by age, class, arrival and input; a waiting one that
precedes the innermost open packet interrupts it while fewer than 3 are open; else the innermost open packet goes on. First, a
multicast with several ways that is there whole takes a buffer on each, all at once or none. A waiting head's counter steps once
in 16 cycles and stops at 255. EGRESS_ARBITRATION and AGEING_STEP complete. -/
def Sys2Proof.Machine.EgressPortsChooseR327 : Prop :=
  ∀ (s : State) (r port : Nat), r < 64 →
    let u := s.replicate r
    let x := u.router r
    let opens := Tab.get [] x.opens port
    let Head1 (i : Nat) (h : RPkt) (rest : List RPkt) : Prop := Tab.get [] x.bufs i = h :: rest ∧ u.goesBy r port i h.m = true
    let slots (i : Nat) : Bool := (s.slotsOf r port).any fun e => e.2 = i % 64
    let Owned (i : Nat) (h : RPkt) : Prop := (∃ rest, Head1 i h rest) ∧ h.ready s.now = true ∧ s.slotOwner r port = some (i % 64)
    let Waiting (i : Nat) (h : RPkt) : Prop := (∃ rest, Head1 i h rest) ∧ h.ready s.now = true ∧ i ∉ opens
      ∧ (h.out = 0 ∨ (h.circ = true ∧ slots i = false))
    let First (i : Nat) (h : RPkt) : Prop := Waiting i h ∧ ∀ j g, Waiting j g → j ≠ i → Precedes s.now (i % 64) (j % 64) h g
    let Sends (i : Nat) (circ : Bool) (h : RPkt) (rest : List RPkt) : Prop :=
      ∃ t, exec (.egressArbitration r port) s = .next t ∧ t.mem = s.mem ∧ FlitSent u t r port i circ h rest
    (s.now < Tab.get 0 (s.router r).last port → exec (.egressArbitration r port) s = .next s)
    ∧ (Tab.get 0 (s.router r).last port ≤ s.now → (∀ i, i ∈ opens → ∃ h rest, Head1 i h rest) →
      ((∀ i h rest, Head1 i h rest → h.ready s.now = false) → exec (.egressArbitration r port) s = .next u)
      ∧ ((∃ i h, Owned i h) → ∃ i h rest, Owned i h ∧ Head1 i h rest ∧ Sends i true h rest)
      ∧ ((∀ i h, ¬ Owned i h) → opens = [] → ∀ i h rest, Head1 i h rest → First i h → Sends i false h rest)
      ∧ ((∀ i h, ¬ Owned i h) → ∀ i h rest more, opens = i :: more → Head1 i h rest →
        (3 ≤ opens.length ∨ (∀ j g, Waiting j g → ¬ Precedes s.now (j % 64) (i % 64) g h) →
          (h.ready s.now = true → Sends i false h rest) ∧ (h.ready s.now = false → exec (.egressArbitration r port) s = .next u))
        ∧ (opens.length < 3 → ∀ j g rest', Head1 j g rest' → First j g → Precedes s.now (j % 64) (i % 64) g h → Sends j false g rest')))
    ∧ (∀ o, s.slotOwner r port = some o → ∃ k x w, (k, x) ∈ s.kernels ∧ x.st ≠ .saved ∧ (r, w) ∈ x.stTables
      ∧ w.toNat / 2 ^ 40 % 16 = port ∧ w.toNat / 2 ^ 56 = s.now % 256 ∧ o = w.toNat / 2 ^ 44 % 16)
    ∧ (∀ i h rest, i < 16 → Tab.get [] (s.router r).bufs i = h :: rest → 2 ≤ (h.m.ways r).length →
      let whole : Prop := h.out = 0 ∧ h.len ≤ h.inn ∧ h.ready s.now = true
      let free : Prop := ∀ p, p ∈ h.m.ways r → Tab.get [] (s.router r).bufs (64 * (p + 1) + i) = []
      (whole → free → Tab.get [] x.bufs i = rest ∧ ∀ p, p ∈ h.m.ways r →
        Tab.get [] x.bufs (64 * (p + 1) + i) = [{ h with m := h.m.cast (h.m.all.filter fun t => egressOf r t.1 = p) }])
      ∧ (¬ (whole ∧ free) → Tab.get [] x.bufs i = h :: rest))
    ∧ (∀ k i h rest, ((s.router r).heads fun _ _ => true)[k]? = some (i, h) → Tab.get [] (s.router r).bufs i = h :: rest →
      (h.out ≠ 0 ∨ 255 ≤ h.cnt ∨ s.now < h.at_ + 16 * (h.cnt + 1) → exec (.ageingStep r k) s = .next s)
      ∧ (h.out = 0 → h.cnt < 255 → h.at_ + 16 * (h.cnt + 1) ≤ s.now → ∃ t, exec (.ageingStep r k) s = .next t
        ∧ t = { s with routers := t.routers } ∧ Tab.get [] (t.router r).bufs i = { h with cnt := h.cnt + 1 } :: rest))

namespace Sys2Proof.Machine

/-- The answer `p` that a request of a packet gets when it is refused (R331, R332): `b` was for place `d`. -/
def Refusal1 (s : State) (m : Parcel) (d : Nat) (b : Msg) (cz : Cause) (p : Parcel) : Prop :=
  let at_ := if 512 ≤ d then (d - 512) / 256 else chipId s
  let to_ (chip c cls : Nat) (b : Msg) : Prop := p = { src := 224, dst := placeOn s chip c, cls := cls, part := m.part, body := b }
  let ack (chip c id j : Nat) : Prop := to_ chip c 3 (.rack c id j (some (cz, 0, 0)) at_)
  match b with
  | .slot _ _ chip c id _ _ => ack chip c id 0
  | .tok _ _ _ _ _ chip c id _ _ => ack chip c id 0
  | .win _ _ _ _ _ chip c id j => ack chip c id j
  | .rread r => ack r.chip r.c r.id (2 ^ 20 + 1)
  | .mesg _ _ chip c _ id _ => ack chip c id 0
  | .coll key _ _ me c id _ _ _ _ => ack (if key < 2 ^ 32 then me else chipId s) c id 0
  | .notice fl _ _ nk f | .flCancel fl nk f => to_ (fl / 4096) (nk / 8) 3 (.refused nk { f with cause := cz, chip := some at_ })
  | .rreq r => to_ r.chip (if 4096 ≤ r.nk then r.nk % 4096 else r.nk / 8) (if 4096 ≤ r.nk then 0 else 2)
      (.rrep r.nk r.id r.j r.gn 0 (some (cz, 0, r.va)) at_)
  | _ => False

/-- The last packet of an input buffer of a router is `m`, there whole, with its number of flits. -/
def Enters (s t : State) (r inp len : Nat) (m : Parcel) : Prop :=
  Tab.get [] (t.router r).bufs inp = Tab.get [] (s.router r).bufs inp ++ [{ m := m, at_ := s.now, len := len, inn := len, last := s.now }]

/-- A packet of one destination reaches the I-die by an input (R331): the forwarding table's entry of its chip sends it on by a port, to
a place of this package, or has it refused. -/
def ReachesIdie (s t : State) (inp : Nat) (m : Parcel) : Prop :=
  let to_ (d : Nat) : Prop :=
    (d < 224 → Enters s t 64 (inp * 2 ^ 24 + (routerOf d).1 / 32) (pktFlits m) { m with dst := d })
    ∧ (224 ≤ d → d < 512 → m.more = false → (∀ k, m.body ≠ .qtok k) → t.inbox = s.inbox ++ [{ m with dst := d, paid := 0 }])
  let way := fwdPort s ((m.dst - 512) / 256)
  (m.dst < 512 → to_ m.dst)
  ∧ (512 ≤ m.dst → way = some 31 → to_ ((m.dst - 512) % 256))
  ∧ (512 ≤ m.dst → ∀ p, way = some p → p ≠ 31 → Enters s t 64 (inp * 2 ^ 24 + m.dst) (linkFlits m) m)
  ∧ (512 ≤ m.dst → way = none → ∀ p, Refusal1 s m m.dst m.body .routeRefused p → Posted t p)

end Sys2Proof.Machine

/-- R320, R351, R352, R353: at a cluster's port the next packet of the partition's oldest message, of at most 1 KiB, passes when
its class is 2 or 3, when the headgates are off, or when its level is at least 1: its cost is then subtracted. A refill gives each
demanding partition its part of the budget and of what the others leave, with its debt, and every other level is 0.
HEADGATE_CHARGE and HEADGATE_REFILL complete. -/
def Sys2Proof.Machine.HeadgatesMeterPortsR351 : Prop :=
  (∀ (s : State) (c part : Nat),
    let l := Tab.get [] s.ports c
    let k := c / 96 * 64 + part
    (l.find? (fun m => m.part = part) = none → exec (.headgateCharge c part) s = .next s)
    ∧ ∀ m, l.find? (fun m => m.part = part) = some m →
      let cost : Nat := max 1 ((min 1024 (m.n - m.paid) + 63) / 64)
      let more : Bool := !m.rd && decide (m.paid + 1024 < m.n)
      let p : Parcel := { m with more := more }
      let Passes (t : State) : Prop := Enters s t (128 + c) 0 (1 + ((if m.rd then 0 else min 1024 (m.n - m.paid)) + 127) / 128) p
        ∧ (more = false → Tab.get [] t.ports c = l.erase m)
        ∧ (more = true → ∃ pre post, l = pre ++ m :: post ∧ m ∉ pre ∧ Tab.get [] t.ports c = pre ++ { m with paid := m.paid + 1024 } :: post)
      (192 ≤ c ∨ 2 ≤ m.cls → ∃ t, exec (.headgateCharge c part) s = .next t ∧ t.mem = s.mem ∧ Passes t ∧ t.gates = s.gates)
      ∧ (c < 192 → m.cls < 2 →
        (Tab.get 0 s.gateB (c / 96) = 0 → ∃ t, exec (.headgateCharge c part) s = .next t ∧ t.mem = s.mem ∧ Passes t
          ∧ (t.gate k).level = (s.gate k).level ∧ (t.gate k).charged = true)
        ∧ (Tab.get 0 s.gateB (c / 96) ≠ 0 → (s.gate k).level < 1 → exec (.headgateCharge c part) s = .next s)
        ∧ (Tab.get 0 s.gateB (c / 96) ≠ 0 → 1 ≤ (s.gate k).level → ∃ t, exec (.headgateCharge c part) s = .next t ∧ t.mem = s.mem
          ∧ t.gate k = { level := (s.gate k).level - cost, charged := true } ∧ -15 ≤ (t.gate k).level ∧ (∀ j, j ≠ k → t.gate j = s.gate j)
          ∧ Passes t)))
  ∧ ∀ (s : State) (d : Nat),
    (2 ≤ d ∨ s.now / 1024 < Tab.get 0 s.gateWin d → exec (.headgateRefill d) s = .next s)
    ∧ (d < 2 → Tab.get 0 s.gateWin d ≤ s.now / 1024 → ∃ t, exec (.headgateRefill d) s = .next t ∧ t.mem = s.mem
      ∧ Tab.get 0 t.gateB d = (pkg s 0x0c0).toNat % 2 ^ 32 ∧ Tab.get 0 t.gateWin d = s.now / 1024 + 1
      ∧ ∀ p, p < 64 → partValid s p = true →
        let b := (pkg s 0x0c0).toNat % 2 ^ 32
        let share (p : Nat) : Nat := (pkg s (0x300 + 8 * p)).toNat % 2 ^ 8
        let valid := (List.range 64).filter fun p => partValid s p
        let z := max 256 ((valid.map share).sum)
        let demands (p : Nat) : Bool := (s.gate (d * 64 + p)).charged
          || (List.range 96).any fun c => (Tab.get [] s.ports (d * 96 + c)).any fun m => m.part = p && m.cls < 2
        let dem := valid.filter demands
        let u := b - (dem.map fun p => b * share p / z).sum
        let sum := (dem.map share).sum
        t.gate (d * 64 + p) = { charged := false
                                level := if demands p && b != 0 then
                                    (b * share p / z : Nat) + (if sum = 0 then 0 else u * share p / sum : Nat) + min (s.gate (d * 64 + p)).level 0
                                  else 0 })

/-- R333: at a cluster's ingress a dynamic flit is held while LEVEL is at or above DEPTH, unless RATE is 256; every flit that
goes, a circuit's in its slot among them, adds 1 to LEVEL; LEVEL falls by RATE once in 256 cycles, when a change of RATE and DEPTH
takes effect. A held flit holds back the output stage: no element whose queue leads to another cluster fires (R50). SLUICE_LEAK
completes. -/
def Sys2Proof.Machine.TheSluiceHoldsFlitsR333 : Prop :=
  ∀ (s : State) (c : Nat),
    let v := (srGet s (8 + c) 0x068).toNat
    let level := v / 2 ^ 32 % 2 ^ 16
    let depth := v / 2 ^ 16 % 2 ^ 16
    let rate := v % 2 ^ 9
    (192 ≤ c ∨ s.now / 256 < Tab.get 0 s.sluiceWin c → exec (.sluiceLeak c) s = .next s)
    ∧ (c < 192 → Tab.get 0 s.sluiceWin c ≤ s.now / 256 → ∃ t, exec (.sluiceLeak c) s = .next t ∧ t.mem = s.mem ∧ Tab.find t.sluice c = none
      ∧ Tab.get 0 t.sluiceWin c = s.now / 256 + 1
      ∧ (Tab.find s.sluice c = none → srGet t (8 + c) 0x068 = BitVec.ofNat 64 ((level - rate) * 2 ^ 32 + depth * 2 ^ 16 + rate))
      ∧ (∀ r d, Tab.find s.sluice c = some (r, d) → srGet t (8 + c) 0x068 = BitVec.ofNat 64 ((level - rate) * 2 ^ 32 + d * 2 ^ 16 + r)))
    ∧ ∀ port h rest, Tab.get [] (s.router (128 + c)).bufs 0 = h :: rest →
      let rp := routerOf c
      let circuit : Prop := ∃ p, p ∈ h.m.ways rp.1 ∧ s.slotOwner rp.1 p = some rp.2
      let held : Prop := c < 192 ∧ rate ≠ 256 ∧ depth ≤ level ∧ ¬ circuit
      ((s.sluiceHolds c).isSome = true ↔ held)
      ∧ (s.now < Tab.get 0 (s.router (128 + c)).last 0 ∨ held → exec (.egressArbitration (128 + c) port) s = .next s)
      ∧ (held → ∀ nk q w, nk / 8 = c → (s.nd nk).wires.find? (fun w => w.q = q) = some w → w.nk / 8 ≠ c → s.dammed nk q = true)
      ∧ (Tab.get 0 (s.router (128 + c)).last 0 ≤ s.now → ¬ held → ∃ t g, exec (.egressArbitration (128 + c) port) s = .next t
        ∧ FlitOut s t (128 + c) 0 0 false h g rest
        ∧ (c < 224 → FlitInto s t rp.1 rp.2 0 g)
        ∧ (224 ≤ c → g.out + 1 < g.len → t.inbox = s.inbox)
        ∧ (224 ≤ c → g.len ≤ g.out + 1 → g.m.to_ = [] → ReachesIdie s t 31 g.m)
        ∧ (c < 192 → srGet t (8 + c) 0x068 = BitVec.ofNat 64 (min 65535 (level + 1) * 2 ^ 32 + depth * 2 ^ 16 + rate)))

/-- R329, R330, R331: a link port that is up sends an acknowledgment that it owes, else replays, else sends the next flit of a
packet that the forwarding table gives it, and keeps it until it is acknowledged, at most 512 of them. Flits are accepted in SEQ
order, once; a packet whose last flit is accepted goes on by the forwarding table or is refused. (What a flit's payload holds is
free, and CRC-18 starts at 0: log 14 and 106.) LINK_FLIT_RECEIVE completes. -/
def Sys2Proof.Machine.LinksDeliverInOrderR330 : Prop :=
  (∀ (pay : BitVec 224) (ch typ seq : Nat), ch < 4 → typ < 4 → seq < 1024 →
    let w := linkWord pay ch typ seq
    w.extractLsb' 32 224 = pay ∧ flitCh w = ch ∧ flitTyp w = typ ∧ flitSeq w = seq ∧ flitGood w = true)
  ∧ (∀ (s : State) (chip p : Nat), fwdPort s chip = some p ↔
    let e := memRead s (csmKey ((pkg s 0x070).toNat % 2 ^ 28 + 2 * chip)) 2
    e / 2 ^ 15 % 2 = 1 ∧ p = e % 32 ∧ (p < 24 ∨ p = 31))
  ∧ (∀ (s : State) (p : Nat), p < 24 →
    let l := s.link p
    let up : Prop := (pkg s (0x080 + p)).toNat / 2 ^ 14 % 4 = 2
    let Goes (i : Nat) (h : RPkt) (rest : List RPkt) : Prop := Tab.get [] (s.router 64).bufs i = h :: rest ∧ 512 ≤ h.m.dst
      ∧ fwdPort s ((h.m.dst - 512) / 256) = some p
    (s.now < Tab.get 0 (s.router 64).last p ∨ ¬ up → exec (.egressArbitration 64 p) s = .next s)
    ∧ (Tab.get 0 (s.router 64).last p ≤ s.now → up →
      (∀ neg seq r, l.acks = (neg, seq) :: r → ∃ t, exec (.egressArbitration 64 p) s = .next t ∧ (t.router 64).bufs = (s.router 64).bufs
        ∧ t.link p = { l with acks := r, wire := some (linkWord 0 0 (if neg then 2 else 1) seq) })
      ∧ (l.acks = [] → 0 < l.replay → ∀ f, l.retry[l.retry.length - l.replay]? = some f → ∃ t, exec (.egressArbitration 64 p) s = .next t
        ∧ (t.router 64).bufs = (s.router 64).bufs ∧ t.link p = { l with replay := l.replay - 1, wire := some (linkWord f.pay f.ch 0 f.seq) })
      ∧ (l.acks = [] → l.replay = 0 → 512 ≤ l.retry.length → exec (.egressArbitration 64 p) s = .next s)
      ∧ (l.acks = [] → l.replay = 0 → l.retry.length < 512 → Tab.get [] (s.router 64).opens p = [] →
        (∃ i h rest, Goes i h rest ∧ h.out = 0 ∧ h.ready s.now = true) → ∃ t i circ h g rest f, Goes i h rest
        ∧ exec (.egressArbitration 64 p) s = .next t ∧ FlitOut s t 64 p i circ h g rest
        ∧ f.seq = l.tx ∧ f.ch = min 3 g.och ∧ f.m = (if g.len ≤ g.out + 1 then some g.m else none)
        ∧ t.link p = { l with tx := (l.tx + 1) % 1024, retry := l.retry ++ [f], wire := some (linkWord f.pay f.ch 0 f.seq) })))
  ∧ (∀ (s : State) (port : Nat), s.inputs.find? (Input.isFlit port) = none → exec (.linkFlitReceive port) s = .next s)
  ∧ (∀ (s : State) (port : Nat) (w : BitVec 256) (pkt : Option Parcel),
    s.inputs.find? (Input.isFlit port) = some (.flit port w pkt) → port < 24 →
    let l := s.link port
    let seq := flitSeq w
    let gone : State := { s with inputs := s.inputs.erase (.flit port w pkt) }
    let owed (neg : Bool) (k : Nat) : List (Bool × Nat) := (if neg then l.acks.filter (· != (true, k)) else l.acks.filter (·.1)) ++ [(neg, k)]
    let Answers (neg : Bool) (k : Nat) : Prop := ∃ t, exec (.linkFlitReceive port) s = .next t ∧ t.link port = { l with acks := owed neg k }
      ∧ t = { gone with links := t.links }
    let up : Prop := (pkg s (0x080 + port)).toNat / 2 ^ 14 % 4 = 2
    (¬ up → exec (.linkFlitReceive port) s = .next gone)
    ∧ (up → flitGood w = false → Answers true l.rx)
    ∧ (up → flitGood w = true → flitTyp w ≠ 0 → exec (.linkFlitReceive port) s = .next gone)
    ∧ (up → flitGood w = true → flitTyp w = 0 → l.rx < 1024 →
        (seq ≠ l.rx → (l.rx + 1024 - seq) % 1024 ≤ 512 → Answers false ((l.rx + 1023) % 1024))
        ∧ (seq ≠ l.rx → 512 < (l.rx + 1024 - seq) % 1024 → Answers true l.rx)
        ∧ (seq = l.rx → ∃ t, exec (.linkFlitReceive port) s = .next t ∧ t.mem = s.mem
          ∧ (t.link port).rx = (l.rx + 1) % 1024 ∧ (t.link port).acks = owed false l.rx
          ∧ (∀ ch, ch ∈ (t.link port).rxOpen ↔ (ch ∈ l.rxOpen ∧ (pkt = none ∨ ch ≠ flitCh w)) ∨ (pkt = none ∧ ch = flitCh w))
          ∧ (pkt = none → t.inbox = s.inbox ∧ t.routers = s.routers)
          ∧ (∀ m, pkt = some m → m.to_ = [] → m.body.foreign = true → 512 ≤ m.src → 512 ≤ m.dst → ReachesIdie s t port m))))

/-- R330, R332: an acknowledgment frees the flits through its SEQ, a negative one those before the SEQ it names, and the rest are
replayed. A lane that fails makes the port train at the widest width its lanes allow and replay, or takes it down and ends the
requests whose packets it held, in whole or in part; a planned change waits until no dynamic packet is open. LINK_ACK_RECEIVE,
LANE_FAILURE, LINK_RETRAIN_COMPLETE and PLANNED_WIDTH_CHANGE complete. -/
def Sys2Proof.Machine.LinksRecoverR332 : Prop :=
  ∀ (s : State) (port : Nat),
    let v := (pkg s (0x080 + port)).toNat
    let l := s.link port
    let st := v / 2 ^ 14 % 4
    let err := v / 2 ^ 8 % 2
    let lanes := v % 2 ^ 8
    let count (k : Nat) : Nat := ((List.range 8).filter fun j => k.testBit j).length
    let reg (st width lanes : Nat) : W64 := BitVec.ofNat 64 (st * 2 ^ 14 + width * 2 ^ 12 + err * 2 ^ 8 + lanes)
    (s.inputs.find? (Input.isAck port) = none → exec (.linkAckReceive port) s = .next s)
    ∧ (∀ w pkt, s.inputs.find? (Input.isAck port) = some (.flit port w pkt) → port < 24 →
      let gone : State := { s with inputs := s.inputs.erase (.flit port w pkt) }
      let through := if flitTyp w = 2 then (flitSeq w + 1023) % 1024 else flitSeq w
      (st ≠ 2 → exec (.linkAckReceive port) s = .next gone)
      ∧ (st = 2 → ∃ t, exec (.linkAckReceive port) s = .next t ∧ t = { gone with links := t.links } ∧ (∀ j, j ≠ port → t.link j = s.link j)
        ∧ ((∀ e, e ∈ l.retry → e.seq ≠ through) → (t.link port).retry = l.retry)
        ∧ (∀ pre x post, l.retry = pre ++ x :: post → x.seq = through → (∀ e, e ∈ pre → e.seq ≠ through) → (t.link port).retry = post)
        ∧ (t.link port).replay = (if flitTyp w = 2 then (t.link port).retry.length else min l.replay (t.link port).retry.length)))
    ∧ (∀ lane, (24 ≤ port ∨ 8 ≤ lane ∨ lanes.testBit lane = false → exec (.laneFailure port lane) s = .next s)
      ∧ (port < 24 → lane < 8 → lanes.testBit lane = true →
        (3 ≤ count lanes → ∃ t, exec (.laneFailure port lane) s = .next t ∧ t.mem = s.mem
          ∧ pkg t (0x080 + port) = reg 1 (if 5 ≤ count lanes then 1 else 0) (lanes - 2 ^ lane) ∧ t.link port = { l with replay := l.retry.length })
        ∧ (count lanes < 3 → ∃ t, exec (.laneFailure port lane) s = .next t ∧ t.mem = s.mem ∧ pkg t (0x080 + port) = reg 0 0 (lanes - 2 ^ lane)
          ∧ (t.link port).retry = [] ∧ (t.link port).acks = []
          ∧ (∀ e m p, e ∈ l.retry → e.m = some m → m.to_ = [] → m.more = false → Refusal1 s m m.dst m.body .linkDown p → Posted t p)
          ∧ ∀ i h rest p, (i, h :: rest) ∈ (s.router 64).bufs → h.out ≠ 0 → 512 ≤ h.m.dst → fwdPort s ((h.m.dst - 512) / 256) = some port →
            h.m.to_ = [] → h.m.more = false → Refusal1 s h.m h.m.dst h.m.body .linkDown p → Posted t p)))
    ∧ (let idle : Prop := (∀ ch, ch ∈ l.rxOpen → 3 ≤ ch) ∧ Tab.get [] (s.router 64).opens port = []
      ∀ width, (24 ≤ port ∨ st ≠ 2 ∨ ¬ idle → exec (.plannedWidthChange port width) s = .next s)
      ∧ (port < 24 → st = 2 → idle → (width = 2 ∧ count lanes = 8 ∨ width = 1 ∧ 4 ≤ count lanes ∨ width = 0 ∧ 2 ≤ count lanes) →
        ∃ t, exec (.plannedWidthChange port width) s = .next t ∧ t = { s with sr := t.sr } ∧ pkg t (0x080 + port) = reg 2 width lanes))
    ∧ (24 ≤ port ∨ st ≠ 1 → exec (.linkRetrainComplete port) s = .next s)
    ∧ (port < 24 → st = 1 → ∃ t, exec (.linkRetrainComplete port) s = .next t ∧ t.mem = s.mem ∧ pkg t (0x080 + port) = reg 2 (v / 2 ^ 12 % 4) lanes
      ∧ t.link port = { l with replay := l.retry.length })

/-! ### Power, resets and boot -/

namespace Sys2Proof.Machine

/-- RESET_STATUS (R419). -/
def ResetStatus (t : State) (last src stage berr : Nat) : Prop :=
  pkg t 0x0a1 = BitVec.ofNat 64 (last * 2 ^ 12 + src * 2 ^ 8 + stage * 2 ^ 4 + berr)

/-- A kernel has ended: it is gone, or its clusters wait only for its committed accesses (R306). -/
def HasEnded (t : State) (k : Nat) : Prop := t.kern k = none ∨ ∃ y, t.kern k = some y ∧ y.st = .ended

/-- A cold reset has been made with a source (R420, R424): all but the reserved limit of the signing index takes its reset value; cycles
go on, and what has come from outside stays outside. -/
def ColdlyReset (s t : State) (src : Nat) : Prop :=
  let stored := (pkg s 0x0a6).toNat / 2 ^ 32 % 2 ^ 21
  t = { State.reset with now := s.now, sched := s.sched, inputs := s.inputs, sr := t.sr }
    ∧ ResetStatus t 0 src 0 0 ∧ pkg t 0x0a6 = BitVec.ofNat 64 (stored * 2 ^ 32 + stored)
    ∧ ∀ copy n, n < 2048 → (copy, n) ≠ (0, 0x0a1) → (copy, n) ≠ (0, 0x0a6) → srGet t copy n = srGet State.reset copy n

/-- A partition reset has been made with a source (R420). -/
structure PartitionReset (s t : State) (p src : Nat) : Prop where
  kernels : ∀ k x, s.kern k = some x → x.part = p → HasEnded t k
    ∧ (x.st ≠ .ended → x.noStatus = false → (x.recno, 7, 0) ∈ (Tab.get ({} : LQueue) t.queues x.queue).status)
  others : ∀ k x, s.kern k = some x → x.part ≠ p → ∃ y, t.kern k = some y ∧ y.st = x.st
  queues : ∀ q, q < 64 → pkg t (lqReg q 1) = if lqPart s q = p then BitVec.ofNat 64 ((pkg s (lqReg q 1)).toNat % 2 ^ 63) else pkg s (lqReg q 1)
  names : ∀ k, k / 2 ^ 64 = p → Tab.find t.dir.names k = none
  objects : ∀ i o, Tab.find t.dir.objs i = some o → o.part ≠ p
  status : ResetStatus t 2 src (bootStageOf s) (bootErr s)
  keys : t.keys = s.keys
  mem : t.mem = s.mem

end Sys2Proof.Machine

/-- R17, R19, R320, R333, R425: an island's setting changes nothing else, and the islands of the routers never leave theirs. The
power controller sets RATE and DEPTH of the Sluices, at or above THR no rate above what it was, and nothing else; at or above TRIP
every kernel ends, a machine fault "thermal trip" is raised, and every island is held at minimum power until a cold reset. (What a
setting is: log 56.) ISLAND_DVFS_CHANGE, THERMAL_THROTTLE and THERMAL_TRIP complete. -/
def Sys2Proof.Machine.HeatAndPowerR425 : Prop :=
  ∀ (s : State),
    (∀ x y, x < 12 → y < 8 → placeIsland (12 * y + x) = y / 2 * 3 + x / 4 ∧ placeIsland (96 + (12 * y + x)) = 12 + (y / 2 * 3 + x / 4))
    ∧ (∀ r, r < 64 → routerIsland r = 24 + r / 32)
    ∧ (∀ i v, (32 ≤ i ∨ i = 24 ∨ i = 25 ∨ s.tripped = true → exec (.islandDvfsChange i v) s = .next s)
      ∧ (i < 32 → i ≠ 24 → i ≠ 25 → s.tripped = false → ∃ t, exec (.islandDvfsChange i v) s = .next t ∧ t = { s with islands := t.islands }
        ∧ Tab.get 0 t.islands i = v ∧ ∀ j, j ≠ i → Tab.get 0 t.islands j = Tab.get 0 s.islands j))
    ∧ ∀ tj,
      let heat := srSet s 0 0x0a3 (BitVec.ofNat 64 (tj % 65536))
      let thr := (pkg s 0x0a4).toNat / 2 ^ 8 % 2 ^ 8
      let trip := (pkg s 0x0a4).toNat % 2 ^ 8
      (∃ t, exec (.thermalThrottle tj) s = .next t
        ∧ t = { heat with sluice := t.sluice, sched := { s.sched with fresh := t.sched.fresh } }
        ∧ ∀ c, c < 192 → ∃ r d, Tab.find t.sluice c = some (r, d) ∧ r ≤ 256 ∧ 1 ≤ d ∧ d ≤ 65535
          ∧ (64 * thr ≤ tj % 65536 → r ≤ (sluiceReg s c).toNat % 2 ^ 9))
      ∧ (tj % 65536 < 64 * trip ∨ s.tripped = true → exec (.thermalTrip tj) s = .next heat)
      ∧ (64 * trip ≤ tj % 65536 → s.tripped = false → ∃ t, exec (.thermalTrip tj) s = .next t ∧ t.tripped = true
        ∧ (∀ i, i < 32 → Tab.find t.islands i = some (Config.minPower + 1)) ∧ pkg t 0x0a3 = BitVec.ofNat 64 (tj % 65536)
        ∧ (∀ k, s.kern k ≠ none → HasEnded t k)
        ∧ (∃ id r, id ∈ t.monQ ∧ Tab.find t.recs id = some r ∧ r.mach = true ∧ (wordOf r.val 0).toNat % 2 ^ 7 = 0x53)
        ∧ (∀ i v, exec (.islandDvfsChange i v) t = .next t) ∧ ∀ f, exec (.bootStage f) t = .next t)

/-- R419, R420, R424: what each reset level leaves, and who may ask for it; while a warm reset runs the host's writes are ignored. COLD_RESET, WARM_RESET, PARTITION_RESET, SECTION_ABORT
and POWER_FAILURE complete. -/
def Sys2Proof.Machine.ResetLevelsR420 : Prop :=
  ∀ (s : State),
    (∃ t, exec .coldReset s = .next t ∧ ColdlyReset s t (if s.tripped then 3 else 0))
    ∧ (∃ t, exec .powerFailure s = .next t ∧ ColdlyReset s t 0)
    ∧ (s.tripped = true ∨ mgmtRuns s = false → exec (.warmReset 2) s = .next s)
    ∧ exec (.warmReset 1) s = .next s
    ∧ (s.tripped = false → mgmtRuns s = true → ∃ t, exec (.warmReset 2) s = .next t ∧ ResetStatus t 1 2 1 0 ∧ t.dir = {} ∧ t.keys = s.keys
      ∧ (∀ n v, exec (.registerWrite 0 n v) t = .next t) ∧ (∀ o n v, exec (.hostBar2Write o n v) t = .next t)
      ∧ (∀ k, s.kern k ≠ none → HasEnded t k)
      ∧ (∀ q, q < 64 → pkg t (lqReg q 1) = BitVec.ofNat 64 ((pkg s (lqReg q 1)).toNat % 2 ^ 63) ∧ pkg t (lqReg q 0) = pkg s (lqReg q 0)
        ∧ pkg t (lqReg q 2) = pkg s (lqReg q 2) ∧ pkg t (0x680 + q) = pkg s (0x680 + q))
      ∧ ∀ p i, p < 64 → i < 5 → pkg t (0x300 + 8 * p + i) = pkg s (0x300 + 8 * p + i))
    ∧ (∀ p, p < 64 →
      (mgmtRuns s = false → exec (.partitionReset p 2) s = .next s)
      ∧ (mgmtRuns s = true → ∃ t, exec (.partitionReset p 2) s = .next t ∧ PartitionReset s t p 2)
      ∧ (1 ≤ partPriv s p → exec (.partitionReset p 1) s = .next s)
      ∧ (s.warm = true → exec (.partitionReset p 1) s = .next s)
      ∧ (s.warm = false → partPriv s p = 0 → s.regTurn (s.agent 0) 0x0a7 = true → ∃ t, exec (.partitionReset p 1) s = .next t ∧ PartitionReset s t p 1))
    ∧ ∀ q rec,
      let named (e : Nat × Kernel) : Bool := e.2.queue = q && e.2.recno = rec && e.2.st != .ended
      (mgmtRuns s = false ∨ s.kernels.find? named = none → exec (.sectionAbort q rec) s = .next s)
      ∧ (mgmtRuns s = true → ∀ k x, s.kernels.find? named = some (k, x) → s.kern k = some x → ∃ t, exec (.sectionAbort q rec) s = .next t
        ∧ HasEnded t k ∧ (x.noStatus = false → (rec, 7, 0) ∈ (Tab.get ({} : LQueue) t.queues q).status) ∧ t.mem = s.mem
        ∧ ResetStatus t 3 2 (bootStageOf s) (bootErr s) ∧ ∀ j y, j ≠ k → s.kern j = some y → ∃ z, t.kern j = some z ∧ z.st = y.st)

/-- R422, R423, R424: the boot goes through its stages, and a failure at stage 1 or 2 holds it there; stage 2 takes NEXT from
STORED, stage 3 creates partition 63 at privilege S, stage 4 finds the CXL capacities, at most 3072 GB together, and stage 5
brings the link ports up; after a warm reset, which ends with stage 6, CHIP_ID, the capacities and the ports stand (R420;
assumption 63). A report of 512 bytes is signed with NEXT, which steps; STORED is raised by 16 first when NEXT has
reached it; from index 2^20 on nothing is signed. BOOT_STAGE and ATTESTATION_SIGN complete. -/
def Sys2Proof.Machine.BootAndAttestationR422 : Prop :=
  ∀ (s : State),
    let st := bootStageOf s
    let last := (pkg s 0x0a1).toNat / 2 ^ 12 % 2 ^ 4
    let src := (pkg s 0x0a1).toNat / 2 ^ 8 % 2 ^ 4
    let stored := (pkg s 0x0a6).toNat / 2 ^ 32 % 2 ^ 21
    let next := (pkg s 0x0a6).toNat % 2 ^ 21
    (∀ fail,
      (bootErr s ≠ 0 ∨ s.tripped = true ∨ 6 ≤ st → exec (.bootStage fail) s = .next s)
      ∧ (bootErr s = 0 → s.tripped = false →
        (st = 1 ∧ fail = 1 ∨ st = 2 ∧ (fail = 2 ∨ fail = 3) → ∃ t, exec (.bootStage fail) s = .next t ∧ t = { s with sr := t.sr }
          ∧ ResetStatus t last src st fail)
        ∧ (st < 6 → ¬ (st = 1 ∧ fail = 1 ∨ st = 2 ∧ (fail = 2 ∨ fail = 3)) → ∃ t, exec (.bootStage fail) s = .next t
          ∧ ResetStatus t last src (st + 1) 0 ∧ t.mem = s.mem ∧ t.kernels = s.kernels
          ∧ (st = 1 → pkg t 0x0a6 = BitVec.ofNat 64 (stored * 2 ^ 32 + stored))
          ∧ (st = 2 → partValid t 63 = true ∧ partPriv t 63 = 1 ∧ (pkg t 0x4f8).toNat % 2 ^ 8 = (pkg s 0x4f8).toNat % 2 ^ 8 ∧ (s.warm = false → (pkg t 0x0a0).toNat < 2 ^ 12))
          ∧ (st = 3 → s.warm = false → ∀ p, p < 6 → Tab.get 0 t.memx.cxl p % 64 = 0 ∧ Tab.get 0 t.memx.cxl p ≤ 2 ^ 42)
          ∧ (s.warm = true → t.memx = s.memx ∧ pkg t 0x0a0 = pkg s 0x0a0 ∧ ∀ p, p < 24 → pkg t (0x080 + p) = pkg s (0x080 + p))
          ∧ (t.warm = decide (s.warm = true ∧ st ≠ 5))
          ∧ (st = 3 → s.warm = false → s.memx.cxl = [] → ((List.range 6).map fun p => Tab.get 0 t.memx.cxl p).sum ≤ 3072 * 10 ^ 9)
          ∧ (st = 4 → s.warm = false → ∀ p, p < 24 → (pkg t (0x080 + p)).toNat % 2 ^ 8 = 255 ∧ (pkg t (0x080 + p)).toNat / 2 ^ 12 = 6))))
    ∧ ∀ nonce,
      (st < 3 ∨ bootErr s ≠ 0 ∨ 2 ^ 20 ≤ next → exec (.attestationSign nonce) s = .next s)
      ∧ (3 ≤ st → bootErr s = 0 → next < 2 ^ 20 → stored ≤ 2 ^ 20 → ∃ t body, exec (.attestationSign nonce) s = .next t
        ∧ t = { s with sr := t.sr, signed := body ++ Config.xmssSign next body } ∧ body.length = 512
        ∧ (∀ i, i < 32 → body.getD i 1 = BitVec.ofNat 8 (nonce / 256 ^ i))
        ∧ body.getD 32 1 = BitVec.ofNat 8 (chipId s) ∧ body.getD 33 1 = BitVec.ofNat 8 (chipId s / 256) ∧ body.getD 34 1 = 0 ∧ body.getD 35 1 = 0
        ∧ (∀ i, i < 4 → body.getD (36 + i) 1 = BitVec.ofNat 8 (next / 256 ^ i))
        ∧ (∀ i, i < 128 → body.getD (40 + i) 1 = (Config.measurements (ptConfig s)).getD i 0) ∧ (∀ i, i < 344 → body.getD (168 + i) 1 = 0)
        ∧ (pkg t 0x0a6).toNat % 2 ^ 21 = next + 1 ∧ (next ≠ stored → (pkg t 0x0a6).toNat / 2 ^ 32 = stored)
        ∧ (next = stored → (pkg t 0x0a6).toNat / 2 ^ 32 = stored + 16))

/-! ### Registers and memory from outside the nodes -/

namespace Sys2Proof.Machine

/-- Only register `n` of a copy changes, to `v`. -/
def OnlyReg (s t : State) (copy n : Nat) (v : W64) : Prop :=
  t = { s with sr := t.sr, srSeen := t.srSeen } ∧ srGet t copy n = v ∧ ∀ c m, m < 2048 → (c, m) ≠ (copy, n) → srGet t c m = srGet s c m

/-- A write by an agent whose turn among the writers of the cycle has not passed (R431); one that changes no register. -/
def MayWrite (s : State) (a n : Nat) : Prop := agentRuns s a = true ∧ s.regTurn (s.agent a) n = true
def Unchanged (s : State) (o : Out) : Prop := ∃ t, o = .next t ∧ t = { s with srSeen := t.srSeen }

/-- The registers of the package and of a partition that hold what is written to them, as the map of R429 lists them. -/
def PlainReg (n : Nat) : Prop :=
  n = 0x050 ∨ n = 0x051 ∨ n = 0x062 ∨ n = 0x070 ∨ n = 0x0a0 ∨ n = 0x0a5 ∨ n = 0x0c0 ∨ n = 0x0c8 ∨ n = 0x0ca ∨ (0x0f8 ≤ n ∧ n ≤ 0x0fc)
    ∨ (0x100 ≤ n ∧ n ≤ 0x1ff ∧ n % 4 ≠ 3) ∨ (0x300 ≤ n ∧ n ≤ 0x4ff ∧ 1 ≤ n % 8 ∧ n % 8 ≤ 4) ∨ (0x600 ≤ n ∧ n ≤ 0x67f)

/-- Only privilege M writes it (R338, R339, R429). -/
def NeedsM (n : Nat) : Prop := n = 0x0a0 ∨ n = 0x0a4 ∨ n = 0x0c8 ∨ (0x300 ≤ n ∧ n ≤ 0x4ff)

/-- The registers that no one outside the nodes reaches (R416, R430). -/
def OfNodeClusterOrDie (n : Nat) : Prop := n ≤ 0x4f ∨ (0x0d0 ≤ n ∧ n ≤ 0x0d7) ∨ n = 0x0c9 ∨ n = 0x068 ∨ (0x500 ≤ n ∧ n ≤ 0x59f)

/-- Bit for chip `c` of entry `k` of the chip-group table at a CSM offset (R48). -/
def chipBit (s : State) (off k c : Nat) : Bool := (memGet s (csmKey (off + 512 * k + c / 8))).getLsbD (c % 8)

end Sys2Proof.Machine

/-- R5, R6, R338, R356, R416, R430, R431: a register write by the host (0), the management core (1) or the service core (2), of
privilege S, M and S: what is read only, of a node, cluster or die, above the writer's privilege, or a value outside its column
changes nothing; else the fields take the value and the reserved bits stay 0, in the copy of PART_SEL's partition. Of the writes
of one cycle the host's comes first, then the cores', then the nodes': one whose turn has passed does not come in this cycle.
REGISTER_WRITE completes. -/
def Sys2Proof.Machine.RegisterWritesR431 : Prop :=
  ∀ (s : State) (a n v : Nat), n < 2048 → v < 2 ^ 64 →
    let part := (pkg s 0x0ca).toNat % 2 ^ 6
    let copy := if n = 0x050 ∨ n = 0x051 ∨ n = 0x062 ∨ n = 0x063 then 4096 + part else 0
    let same : Prop := Unchanged s (exec (.registerWrite a n v) s)
    let sets (x : Nat) : Prop := ∃ t, exec (.registerWrite a n v) s = .next t ∧ OnlyReg s t copy n (BitVec.ofNat 64 x)
      ∧ Tab.find t.srSeen (copy * 2048 + n) = some (s.now, regRank (s.agent a))
    (regRank (s.agent 0) = 0 ∧ regRank (s.agent 1) = 1 ∧ regRank (s.agent 2) = 2)
    ∧ (s.regTurn (s.agent a) n = false → exec (.registerWrite a n v) s = .next s)
    ∧ (PlainReg n → (s.regTurn (s.agent a) n = false ↔ ∃ r, Tab.find s.srSeen (copy * 2048 + n) = some (s.now, r) ∧ regRank (s.agent a) < r))
    ∧ (agentRuns s a = false ∨ regRO n = true ∨ OfNodeClusterOrDie n → same)
    ∧ (MayWrite s a n →
      (PlainReg n → (NeedsM n ∧ a ≠ 1) ∨ regValueBad s (s.agent a) n v = true → same)
      ∧ (PlainReg n → ¬ (NeedsM n ∧ a ≠ 1) → regValueBad s (s.agent a) n v = false → sets (v &&& regMask n))
      ∧ (n = 0x060 → (v % 2 ^ 8 = 0 → same) ∧ (v % 2 ^ 8 ≠ 0 → sets (v % 2 ^ 8)))
      ∧ (n = 0x061 → (v % 2 ^ 32 = 0 → same) ∧ (v % 2 ^ 32 ≠ 0 → sets (v % 2 ^ 32)))
      ∧ (n = 0x063 → (s.slotsUsed part ≠ [] → same) ∧ (s.slotsUsed part = [] → sets (v % 2 ^ 16)))
      ∧ (n = 0x0a4 → (a ≠ 1 → same)
        ∧ (a = 1 →
          let thr := v / 2 ^ 8 % 2 ^ 8
          let trip := v % 2 ^ 8
          (thr < 60 ∨ 105 < thr → same)
          ∧ (60 ≤ thr → thr ≤ 105 → sets (thr * 2 ^ 8 + (if thr + 5 ≤ trip ∧ trip ≤ 115 then trip else (pkg s 0x0a4).toNat % 2 ^ 8))))))

/-- R291: LQ_CFG enables a queue afresh, at TAIL and without a sequence history, for a partition that the writer may enable; of an
enabled queue only EN changes. A TAIL that overruns the ring changes nothing. LQ_CFG_WRITE and LQ_TAIL_WRITE complete. -/
def Sys2Proof.Machine.LaunchQueuesR291 : Prop :=
  ∀ (s : State) (a q v : Nat), v < 2 ^ 64 →
    (64 ≤ q ∨ ¬ MayWrite s a (lqReg q 1) → exec (.lqCfgWrite a q v) s = .next s)
    ∧ (64 ≤ q ∨ ¬ MayWrite s a (lqReg q 2) → exec (.lqTailWrite a q v) s = .next s)
    ∧ (q < 64 → MayWrite s a (lqReg q 1) → MayWrite s a (lqReg q 2) →
      let part := v / 2 ^ 48 % 2 ^ 6
      let l := Tab.get ({} : LQueue) s.queues q
      (lqEn s q = true → ∃ t, exec (.lqCfgWrite a q v) s = .next t ∧ OnlyReg s t 0 (lqReg q 1)
        (BitVec.ofNat 64 ((pkg s (lqReg q 1)).toNat % 2 ^ 63 + v / 2 ^ 63 * 2 ^ 63)))
      ∧ (lqEn s q = false → v / 2 ^ 63 = 0 → ∃ t, exec (.lqCfgWrite a q v) s = .next t ∧ OnlyReg s t 0 (lqReg q 1) (BitVec.ofNat 64 (v &&& regMask 0x201)))
      ∧ (lqEn s q = false → v / 2 ^ 63 = 1 → (partPriv s part = 2 ∧ a ≠ 1) ∨ (partPriv s part = 1 ∧ a = 0) → Unchanged s (exec (.lqCfgWrite a q v) s))
      ∧ (lqEn s q = false → v / 2 ^ 63 = 1 → partPriv s part = 0 ∨ (partPriv s part = 1 ∧ a ≠ 0) ∨ (partPriv s part = 2 ∧ a = 1) →
        ∃ t, exec (.lqCfgWrite a q v) s = .next t ∧ t.mem = s.mem ∧ lqEn t q = true ∧ lqPart t q = part ∧ lqAsid t q = v / 2 ^ 32 % 2 ^ 16
          ∧ lqEnt t q = v % 2 ^ 16 ∧ lqTail t q = lqTail s q ∧ lqTaken t q = lqTail s q ∧ lqDone t q = lqTail s q ∧ pkg t (0x680 + q) = 0
          ∧ (Tab.get ({} : LQueue) t.queues q).expect = none ∧ (Tab.get ({} : LQueue) t.queues q).status = []
          ∧ (Tab.get ({} : LQueue) t.queues q).resume = l.resume
          ∧ ∀ k x, s.kern k = some x → x.queue = q → ∃ y, t.kern k = some y ∧ y.noStatus = true ∧ y.st = x.st)
      ∧ (let tail := v % 2 ^ 32
         (lqEnt s q + 1 < (tail + 2 ^ 32 - lqDone s q) % 2 ^ 32 → ∃ t, exec (.lqTailWrite a q v) s = .next t ∧ t = { s with sr := t.sr, srSeen := t.srSeen } ∧ lqTail t q = lqTail s q)
         ∧ ((tail + 2 ^ 32 - lqDone s q) % 2 ^ 32 ≤ lqEnt s q + 1 → ∃ t, exec (.lqTailWrite a q v) s = .next t
          ∧ t = { s with sr := t.sr, srSeen := t.srSeen, queues := t.queues } ∧ lqTail t q = tail
          ∧ (∀ m, m ≠ lqReg q 2 → pkg t m = pkg s m ∨ 2048 ≤ m)
          ∧ (lqEn s q = true → l.resume = [] → l.headAt = none → tail ≠ lqTaken s q → (Tab.get ({} : LQueue) t.queues q).headAt = some s.now))))

/-- R48, R329, R339, R354: PT_CFG takes all its fields from privilege M and SHARE alone below it; CGRP_TABLE loads the table of a
partition, when no chip is in more than four entries; SL_SLOT_BASE loads the tables of all ports, each applied from its next slot
0, or refused whole; of the counters the package's are reached, by their owner or privilege M, and enabling one clears its count.
PT_CFG_WRITE, CGRP_TABLE_WRITE, SL_SLOT_BASE_WRITE and SAFE_SEL_WRITE complete. -/
def Sys2Proof.Machine.TablesAreLoadedR329 : Prop :=
  ∀ (s : State) (a v : Nat), v < 2 ^ 64 →
    let part := (pkg s 0x0ca).toNat % 2 ^ 6
    (∀ p, (64 ≤ p ∨ ¬ MayWrite s a (0x300 + 8 * p) → exec (.ptCfgWrite a p v) s = .next s)
      ∧ (p < 64 → MayWrite s a (0x300 + 8 * p) →
        (a ≠ 1 → ∃ t, exec (.ptCfgWrite a p v) s = .next t ∧ OnlyReg s t 0 (0x300 + 8 * p)
          (BitVec.ofNat 64 ((pkg s (0x300 + 8 * p)).toNat / 2 ^ 8 * 2 ^ 8 + v % 2 ^ 8)))
        ∧ (a = 1 → v / 2 ^ 61 % 4 = 3 → exec (.ptCfgWrite a p v) s = .next s)
        ∧ (a = 1 → v / 2 ^ 61 % 4 ≠ 3 → ∃ t, exec (.ptCfgWrite a p v) s = .next t ∧ OnlyReg s t 0 (0x300 + 8 * p)
          (BitVec.ofNat 64 (v / 2 ^ 61 * 2 ^ 61 + v % 2 ^ 8)))))
    ∧ (∀ p, (p ≠ part ∨ ¬ MayWrite s a 0x052 ∨ v % 0x20000 ≠ 0 → exec (.cgrpTableWrite a p v) s = .next s)
      ∧ (p = part → MayWrite s a 0x052 → v % 0x20000 = 0 → Memory.wf s.mem = true →
        let off := v % 2 ^ 28
        let few : Prop := ∀ c, c < 4096 → ((List.range 256).filter fun k => chipBit s off k c).length ≤ 4
        let clean : Prop := ∀ g, g ∈ s.memx.bad → g < csmKey off ∨ csmKey off + 0x20000 ≤ g
        (few → clean → ∃ t, exec (.cgrpTableWrite a p v) s = .next t ∧ t.mem = s.mem ∧ partReg t p 0x052 = BitVec.ofNat 64 (2 ^ 63 + off)
          ∧ (∀ k c, k < 256 → c < 4096 → (c ∈ chipGroup t p k ↔ chipBit s off k c = true)) ∧ ∀ k, (chipGroup t p k).Pairwise (· < ·))
        ∧ (¬ (few ∧ clean) → ∃ t, exec (.cgrpTableWrite a p v) s = .next t ∧ OnlyReg s t (4096 + p) 0x052 (BitVec.ofNat 64 off))))
    ∧ (¬ MayWrite s a 0x071 ∨ v % 4096 ≠ 0 → exec (.slSlotBaseWrite a v) s = .next s)
    ∧ (MayWrite s a 0x071 → v % 4096 = 0 →
      let base := v % 2 ^ 28
      ∃ t, exec (.slSlotBaseWrite a v) s = .next t ∧ t.mem = s.mem ∧ pkg t 0x071 = BitVec.ofNat 64 base
        ∧ ∀ p, p < 24 →
          let w (o : Nat) : Nat := memRead s (csmKey (base + 4096 * p + o)) 8
          let es := (List.range (w 0)).map fun e => w (64 + 8 * e)
          let port (k : Nat) : Prop := k < 24 ∨ k = 31
          let out (e : Nat) : Nat := e / 2 ^ 46 % 2 ^ 5
          let good : Prop := w 0 ≤ 256 ∧ (∀ k, k < 7 → w (8 * (k + 1)) = 0)
            ∧ (∀ e, e ∈ es → e % 2 ^ 46 = 0 ∧ port (e / 2 ^ 51 % 2 ^ 5) ∧ port (out e))
            ∧ (es.map fun e => (e / 2 ^ 56 % 2 ^ 8, out e)).Nodup ∧ (∀ e, e ∈ es → (es.filter fun x => out x = out e).length ≤ 192)
          (good → (pkg t (0x080 + p)).toNat / 2 ^ 8 % 2 = 0 ∧ (t.link p).tabNew = some ((s.now / 256 + 1) * 256, es.map (BitVec.ofNat 64)))
          ∧ (¬ good → (pkg t (0x080 + p)).toNat / 2 ^ 8 % 2 = 1 ∧ (t.link p).tabNew = some ((s.now / 256 + 1) * 256, []))
          ∧ (pkg t (0x080 + p)).toNat % 2 ^ 8 = (pkg s (0x080 + p)).toNat % 2 ^ 8
          ∧ (pkg t (0x080 + p)).toNat / 2 ^ 12 % 2 ^ 4 = (pkg s (0x080 + p)).toNat / 2 ^ 12 % 2 ^ 4)
    ∧ (∀ n, let old := (pkg s n).toNat
      let may : Prop := a = 1 ∨ old / 2 ^ 63 = 0 ∨ old / 2 ^ 50 % 2 ^ 6 = part
      (n % 2 = 1 ∨ n < 0x5a0 ∨ 0x5df < n ∨ ¬ MayWrite s a n ∨ 16 < v % 2 ^ 8 ∨ ¬ may → exec (.safeSelWrite a n v) s = .next s)
      ∧ (n % 2 = 0 → 0x5a0 ≤ n → n ≤ 0x5df → MayWrite s a n → v % 2 ^ 8 ≤ 16 → may → ∃ t, exec (.safeSelWrite a n v) s = .next t
        ∧ t = { s with sr := t.sr, srSeen := t.srSeen }
        ∧ pkg t n = BitVec.ofNat 64 (v / 2 ^ 63 * 2 ^ 63 + (if a = 1 then v / 2 ^ 50 % 2 ^ 6 else part) * 2 ^ 50
          + (if a = 1 then v / 2 ^ 49 % 2 else old / 2 ^ 49 % 2) * 2 ^ 49 + v % 2 ^ 8)
        ∧ pkg t (n + 1) = (if old / 2 ^ 63 = 0 ∧ v / 2 ^ 63 = 1 then 0 else pkg s (n + 1))))

/-- R416: the host reads and writes HBM and CXL through BAR2 under key 0: a range that holds no memory, or an uncorrectable error,
answers Completer Abort to a read, and a write where there is no memory is dropped. HOST_BAR2_READ and HOST_BAR2_WRITE complete.
(An access of at most 4096 bytes is one event: log 58.) -/
def Obligations.TheHostReachesMemoryR416 : Prop :=
  ∀ (s : State) (off n v : Nat), 1 ≤ n → n ≤ 4096 → keyHeld s (some 0) = false →
    let holds (k : Nat) : Prop := k < 2 ^ 46 ∧ (memKind s k = some .hbm ∨ memKind s k = some .cxl)
    let keyed : Prop := ∀ i, i < n → Tab.get none s.memx.gkey (granule (off + i)) = slotMaterial s 0
    ((∃ i, i < n ∧ (¬ holds (off + i) ∨ badAt s (off + i) = true)) → exec (.hostBar2Read off n) s = .next { s with bar2 := none })
    ∧ ((∀ i, i < n → holds (off + i) ∧ badAt s (off + i) = false) → keyed → exec (.hostBar2Read off n) s = .next { s with bar2 := some (memBytes s off n) })
    ∧ ((∃ i, i < n ∧ ¬ holds (off + i)) → exec (.hostBar2Write off n v) s = .next s)
    ∧ ((∃ i, i < n ∧ reservedBy s (off + i) (2 ^ 30) 0 = true) → exec (.hostBar2Write off n v) s = .next s)
    ∧ (s.warm = true → exec (.hostBar2Write off n v) s = .next s)
    ∧ (s.warm = false → (∀ i, i < n → holds (off + i) ∧ reservedBy s (off + i) (2 ^ 30) 0 = false) → keyed → ∃ t, exec (.hostBar2Write off n v) s = .next t
      ∧ t = { s with mem := t.mem, memx := t.memx } ∧ (∀ i, i < n → memGet t (off + i) = BitVec.ofNat 8 (v / 256 ^ i))
      ∧ ∀ k, k < off ∨ off + n ≤ k → memGet t k = memGet s k)

/-! ### The statements that join several -/

/-- Each word has one meaning: what decoding reads, encoding writes back, and the instruction is well-formed. R66: a word of an unassigned
opcode is refused with the cause "unassigned opcode", and no other word is; a SUB[23:20] value that is not listed for a shared opcode is a
reserved code, unless T0 or the scoreboard field breaks check 4 of R56, which comes first. -/
def Obligations.DecodingIsExactR66 : Prop :=
  Sys2Proof.Machine.DecodeEncodeRoundTrip ∧ Sys2Proof.Machine.UnassignedOpcodesAreRefusedR66

/-- R50: an issue takes the oldest operand set of the element that can issue, fetches the context word of its element, and runs the
instruction that the word decodes to on that set, which has left the ready queue; then the sets that waited for the fold of this element
are complete (R252, R281). A step of the machine itself that the agenda names is run as it stands, and so is the work of a unit on a
command, or of a memory interface on an access. (What is next is the model's agenda: log 1.) -/
def Obligations.StepRunsWhatIsNext : Prop :=
  Sys2Proof.Machine.StepRunsIssuedInstruction ∧ Sys2Proof.Machine.StepRunsEventsAndPerformers

/-- R429, R293: the state after reset: the reset values of the system registers, no kernel, no assigned node, every global zero, and memory as
assumption 4 has it. The memory of the reset state is in canonical form, and so is that of a state in which an instruction was placed.
(Unwritten memory reads 0, the clock starts at 0 and globals are 0 by the model's choice: log 3, 4 and 30.) -/
def Obligations.ResetStateR429 : Prop :=
  Sys2Proof.Machine.ResetStateR429 ∧ Sys2Proof.Machine.MemoryCanonicalAtReset

/-- R205: ADD, SUB, MUL, MULH, MULHN, ADDS, SUBS, MIN, MAX, MADD, ABS and NEG complete (exec answers the next state in which both targets have
the result): the sums, differences, products, minima, maxima and magnitudes of integers, element by element. R206: DIV, REM, DIVN and REMN
complete: quotients and remainders, with the results the rule gives for a zero divisor and for the most negative dividend. R205, R207:
AND, OR, XOR, ANDN, SHL, SHR, SAR and ROT complete: the bit operations, and the shifts by an unsigned count of any size. -/
def Obligations.IntegerOperationsComputeR205 : Prop :=
  Sys2Proof.Machine.IntegerArithmeticComputesR205 ∧ Sys2Proof.Machine.DivisionComputesR206 ∧ Sys2Proof.Machine.LogicAndShiftsComputeR207

/-- R208: CLZ, CTZ, POPC, SEXT, ZEXT and LEA complete (exec answers the next state in which both targets have the result): counts of bits,
extensions from bit k, and a sum with a shifted operand. R209: CEQ, CNE, CLT, CLE, CLTN and CLEN complete on two scalars with the scalar 1
or 0; a vector operand faults with "width mismatch". -/
def Obligations.BitCountsAndComparesR208 : Prop :=
  Sys2Proof.Machine.BitCountsAndExtensionsComputeR208 ∧ Sys2Proof.Machine.IntegerComparesComputeR209

/-- R69, R72, R73, R61: NOP, CONST, MOV, ITERID, NULLQ and NFILL complete, and what each computes; MOV and NFILL forward a token with its
status bits unchanged. R74, R44: NITER completes: it sends L to slots of iteration n + 1, in the window slot of that iteration; a null L
goes as a null, or with `.ABS` is absorbed. R77: BINV completes: it drops the lines that overlap the 2080 bytes from L, or with `.ALL`
every line, in its own cluster, or with `.PK` in every cluster, and sends a scalar 0; an address that is no block's faults. -/
def Obligations.PlumbingComputesR69 : Prop :=
  Sys2Proof.Machine.PlumbingComputesR69 ∧ Sys2Proof.Machine.NiterSendsToTheNextIterationR74 ∧ Sys2Proof.Machine.BinvDropsLinesR77

/-- R72: PAND, POR, PXOR and PNOT complete on bit 0 of scalars (exec answers the next state in which both targets have the result); a vector
operand faults with "width mismatch". R71: STEER and MERGE complete: STEER sends L to the one target that its predicate names; MERGE sends
the operand that its predicate names to both. A null predicate, or a null where the value would come from, sends nulls to both or, with
`.ABS`, is absorbed. -/
def Obligations.PredicatesSteerAndMergeR71 : Prop :=
  Sys2Proof.Machine.PredicateOperationsComputeR72 ∧ Sys2Proof.Machine.SteerAndMergeR71

/-- R70, R36, R39: READ and WRITE complete: READ sends the committed value of its global once every older invocation has committed, and waits
until then; WRITE holds its value to the commit, and the global keeps its value. R59, R39: what sending a result does: a token for a slot
joins the input stage of the cluster under the invocation's window slot and iteration, as a predicate on port P; a queue target holds the
token to the commit; nothing else changes. -/
def Obligations.ResultsAndGlobalsR59 : Prop :=
  Sys2Proof.Machine.GlobalsAreReadAndWrittenAtCommitR70 ∧ Sys2Proof.Machine.SendingPutsOneTokenR59

/-- R75, R76: BRO, BR, CALLO, CALL, RET and QUIT complete where they are the first exit of their invocation: exec answers a next state in
which the exit is held to the commit, with the block that it names (PC + OFF × 64, the address on L, or none), and has reported performed.
An address that is no block's faults, a predicate that does not match and a null L absorb the exit. R76: a second exit that fires in an
invocation faults with "double exit". -/
def Obligations.ExitsNameTheNextBlockR75 : Prop :=
  Sys2Proof.Machine.ExitsNameTheNextBlockR75 ∧ Sys2Proof.Machine.SecondExitFaultsR76

/-- R211, R184: the sums and products that FADD, FSUB, FMUL, FMA and FNMA round are exact, and so is the value that a pattern decodes to
(R183). R211: FDIV, FSQRT and FRCP round the exact quotient or root once. -/
def Obligations.FloatOperandsCombineExactlyR211 : Prop :=
  Sys2Proof.Machine.FloatOperandsCombineExactlyR211 ∧ Sys2Proof.Machine.QuotientsAndRootsRoundOnceR211

/-- R211, R189: FADD, FSUB, FMUL, FDIV, FMA, FNMA, FSQRT and FSCALE complete: they compute their operation on each element and round it once.
R212: FRCP, FRSQ, FEXP2 and FLOG2 complete on every operand, and give the special values and the exact powers of two. -/
def Obligations.FloatArithmeticComputesR211 : Prop :=
  Sys2Proof.Machine.FloatArithmeticComputesR211 ∧ Sys2Proof.Machine.FloatFunctionsComputeR212

/-- R213, R214: FMIN, FMAX, FABS, FNEG, FSGN and FCLASS complete: the lesser and the greater number, the sign operations, which touch no other
bit and raise no flag, and the classes. R215: FCEQ, FCLT, FCLE and FCUN complete on two float scalars with the scalar 1 or 0; a vector
operand faults with "width mismatch". -/
def Obligations.FloatSignsClassesAndComparesR213 : Prop :=
  Sys2Proof.Machine.FloatSignsAndClassesR213 ∧ Sys2Proof.Machine.FloatComparesR215

/-- R195: QNT and DQNT complete: the scale is an F16 pattern in R[15:0] and the zero point R[23:16]; with `.Q4` a zero point above 15 faults
with "reserved code", and a vector R with "width mismatch". R195: the code that QNT gives to one element: the zero point under NV for no
number, else the exact quotient plus the zero point, rounded once to an integer and held in 0 to qmax. R196: GSCALE completes: it widens a
range pair by every lane, or with `.FIN` gives the scale and the zero point; the finish divides hi′ − lo′ by qmax and rounds up, a NaN
lane leaves a bound that is a number and makes a NaN bound canonical (R213, R184), and the example of R196 comes out as the spec prints
it. -/
def Obligations.QuantisationComputesR195 : Prop :=
  Sys2Proof.Machine.QuantisationComputesR195 ∧ Sys2Proof.Machine.QuantisedCodeIsRoundedOnceR195 ∧ Sys2Proof.Machine.GroupScaleComputesR196

/-- R197: MXPACK and MXUNPK complete: MXPACK sends the codes of a block to T0 and its scale byte to T1, and MXUNPK the values of the codes;
the example of R197 comes out as the spec prints it. R198: PACK and UNPACK complete: PACK narrows the integer lanes of L, then those of R,
with SAT by clamping, which raises NX; UNPACK widens one half. -/
def Obligations.BlocksAndLanesPackR197 : Prop :=
  Sys2Proof.Machine.BlocksPackAndUnpackR197 ∧ Sys2Proof.Machine.PackAndUnpackR198

/-- R217, R218, R223: VBCAST, VBCAST_LANE, VEXT, VINS, VPERM, VSHUF and VSEL complete on operands of the widths that their rows require (exec
answers the next state in which both targets have the result), and fault with "width mismatch" on others; an index counts modulo the
number of lanes. R224, R225: MAND, MOR, MXOR, MNOT, MPOPC, MFFS, MBIT and MTST complete on 64-bit scalars, and a vector operand faults
with "width mismatch". -/
def Obligations.LanesAndMasksMoveR217 : Prop :=
  Sys2Proof.Machine.LaneMovesR217 ∧ Sys2Proof.Machine.MaskOperationsR225

/-- R219, R220, R221: VRADD, VRMAX, VRMIN and VSCAN complete: VRADD, VRMAX and VRMIN reduce by the one tree and VSCAN by the one ladder,
whatever the type; an integer sum wraps, and with `.W` is exact in 64 bits. R222, R223: VDOT and VCMP complete: VDOT sums the products of
lanes, exactly for integers and by the tree for floats, and VCMP compares lane by lane into a mask; a scalar L, and of VDOT a scalar R,
faults with "width mismatch". -/
def Obligations.LanesReduceR219 : Prop :=
  Sys2Proof.Machine.ReductionsFollowTheTreeR219 ∧ Sys2Proof.Machine.DotProductsAndLaneComparesR222

/-- R43, R44, R29: an instruction whose predicate does not match absorbs its operands; a null operand passes a null to each target, or is
absorbed; an error operand on an instruction that sends to a queue faults with "error operand". R44, R202: under null mode identity an
operand that is null counts as the identity that the instruction's row names, and keeps its status bits; with every data operand null the
result is a null token. -/
def Obligations.PredicatesNullsAndErrorsR44 : Prop :=
  Sys2Proof.Machine.PredicatesNullsAndErrorsR44 ∧ Sys2Proof.Machine.IdentitiesReplaceNullsR202

/-- R252, R253, R255: RADD, RMAX and RMIN complete: they fold the contributions of a group in tag order: an iteration waits for the fold
before it, continues its running value, and the last of a group sends; a skipped contribution leaves the value, and under mode pass a null
contribution makes the result a null token. R254: RJOIN completes: it puts contribution j of a group into lane j, or with TY MASK its bit
0 into bit j. R281, R282, R283: KMERGE completes: it folds chunk c of partial j into the running chunk of the partial before it, once the
folds of the iteration before and of that partial are done, or with `.TOPK` into the group's list, and sends the merged chunk with the
last partial. -/
def Obligations.ReductionsFoldInTagOrderR252 : Prop :=
  Sys2Proof.Machine.ReductionsFoldInTagOrderR252 ∧ Sys2Proof.Machine.JoinsFillTheirLanesR254 ∧ Sys2Proof.Machine.PartialsMergeR281

/-- R136, R137, R138: BAR, BARA and BARW complete: BAR and BARA wait until they may arrive, then send the arrival to the sync unit of the
lowest cluster of the group; BAR and BARW wait for the episode; a null L is absorbed; a cluster outside the group, or a scope that does
not hold the group, faults. R137, R138: an arrival (BARRIER_ARRIVAL) joins the open episode of its group, once for each node and
iteration; the last of count × members completes it, and every node of the kernel that waits for it is answered; one whose count differs
from the first's faults, as an engine fault once its invocation has committed (log 91). (An arrival is sent when the instruction fires:
log 91.) -/
def Obligations.BarriersArriveAndCompleteR137 : Prop :=
  Sys2Proof.Machine.BarriersArriveAndWaitR137 ∧ Sys2Proof.Machine.BarrierEpisodesCompleteR137

/-- R88, R96, R106: LD, ST, LDV, STV, GATH, SCAT, AADD, AMIN, AMAX, AAND, AOR, AXOR, AXCHG, ACAS, AFADD, BRED, BUPD, MNOP, ACQ, REL, FENCE,
SEMINC, SEMWAIT, SEMRD, SBWAIT, TGIVE and TTAKE complete where they fire: the instruction joins the chain of its invocation; predicated
off or with a null it keeps its place, makes no access and gives its done token at once; one with an effect is checked, held to the commit
and reports; a faulty operand or address faults, and so does a location known to hold an uncorrectable error. Nothing is read or written
yet. R92: LDRGN completes: it declares the region of its descriptor for the streaming element of T0, in this invocation, and sends it the
start token. R91: an element of a streaming load that has its start token may read a granule of its region ahead (STREAM_READ_AHEAD); the
bytes inside the region are kept for its access, and nothing else changes. (Log 35.) -/
def Obligations.MemoryInstructionsJoinTheChainR106 : Prop :=
  Sys2Proof.Machine.MemoryInstructionsJoinTheChainR106 ∧ Sys2Proof.Machine.LdrgnDeclaresARegionR92 ∧ Sys2Proof.Machine.StreamsReadAheadR91

/-- R90, R91, R96, R97: LD to BUPD complete their second step: an access that its chain place, its gates and its commit allow leaves the
interface: a load, or an atomic with a result once its invocation is the oldest, is located, takes the bytes of earlier stores of its
node, and asks its place for each piece; a write goes as it was located at the commit. R79, R80, R90, R97, R99: a piece of an access acts
at its place (MEMORY_REQUEST_ARRIVAL): a load reads its bytes as they stand, a store writes its bytes of the data and no others, an atomic
without a result writes the new value, and one with a result reserves the granule and writes nothing yet; a store, or an atomic, waits
while another's reservation bars it. (Where no committed atomic of the node waits for this write: the write would also end that one's
reservation.) R99, R100, R97: with its last piece an access is complete: a load sends the bytes read, those of the node's earlier stores
in their place; GATH gives each lane its own and 0 to a skipped one; an atomic sends the old value and keeps the new one. (One copy of
every byte: log 10.) -/
def Obligations.AccessesArePerformedR99 : Prop :=
  Sys2Proof.Machine.AccessesLeaveTheInterfaceR96 ∧ Sys2Proof.Machine.AccessesActAtTheirPlaceR99 ∧ Sys2Proof.Machine.LoadsSendWhatTheyReadR99

/-- R128 to R135: ACQ, REL, FENCE, SEMINC, SEMWAIT, SEMRD, SBWAIT, TGIVE and TTAKE once the chain allows them: each completes, with its result
and its done token, or it waits where the rule says; SEMINC and REL set out for their unit; TGIVE stands to the commit. R131, R132, R129,
R94: SEMAPHORE_UPDATE, SYNC_OBJECT_INCREMENT and DONE_TOKEN_ARRIVAL, at a sync unit, a sync object and an interface: an increment
saturates, a setting replaces, a REL adds one to RCNT of its object and to nothing else, and a done token opens the gate of the entry it
is for. -/
def Obligations.SynchronisationCompletesR128 : Prop :=
  Sys2Proof.Machine.SynchronisationCompletesR128 ∧ Sys2Proof.Machine.SignalsTakeEffectR131

/-- R39, R43, R44, R141, R144, R147: every engine instruction, PSET and COPY to NLOOK, completes its first step (WLOAD: next clause): it is
absorbed when its predicate does not match or an operand is null, faults on an error operand, a wrong width or an operand out of range,
and otherwise is held to the commit with its operands: exec answers that next state, and its unit sees nothing of it before. R244: so is
WLOAD, which takes an offset that is a multiple of 16384 in the weight store, or in an object through a handle, and with a format that has
side data an offset of it that is a multiple of 64. -/
def Obligations.EngineCommandsAreHeldR147 : Prop :=
  Sys2Proof.Machine.EngineCommandsAreHeldR147 ∧ Sys2Proof.Machine.WloadIsHeldR244

/-- R152, R153, R155, R156: FLOPEN, FLPUSH, FLFREE and FLCLOSE complete: FLOPEN opens a closed flume and sends its source a notice for each
slot (its tiles were checked at its issue); FLPUSH takes a notice, or waits for one, sends the slot it has read, and ends when every slot
has landed; FLFREE frees the oldest landed slot and tells the source; FLCLOSE closes and cancels; what a rule forbids is the engine fault
that the rule names. R124, R152, R153, R154, R156: what arrives for a flume. A slot in its turn lands in its tiles, 32 bytes in a step,
then counts as landed, increments the flume's semaphore and is acknowledged; one from another source or for a closed flume is refused, one
ahead of its turn waits; a notice is kept at the source; a cancelling drops those kept and fails the FLPUSHes with slots to send.
FREED_SLOT_NOTICE and FLUME_SLOT_LANDING complete. (Log 76.) -/
def Obligations.FlumesR152 : Prop :=
  Sys2Proof.Machine.FlumesOpenPushFreeCloseR152 ∧ Sys2Proof.Machine.FlumeSlotsLandR154

/-- R168 to R173, R176: TSEND, WOPEN, WCLOSE, COPYR and RREAD complete: TSEND sends its token where the partition's route table says, while
its path has room, and ends when it was taken; WOPEN opens a window (its tiles were checked at its issue), WCLOSE closes one into which
nothing is on its way; COPYR sends the bytes of its pattern in granules of 64 and ends when they are acknowledged, or with `.DISP` when
they have left; RREAD asks the owner and ends when every recipient has acknowledged, or with `.DISP` when the owner has sent the last
granule. R168, R169, R174, R177: what arrives from the fabric. A token on a route tag goes to a running node of its partition, numbered on
its path, or is refused; a granule of a delivery that its window admits is written where the window says; the owner of an RREAD reads a
granule and sends it to every recipient, or reports its failure and sends null deliveries; an answer joins its command, or fails it.
ROUTE_TAG_DELIVERY, WINDOW_DELIVERY, RREAD_OWNER_READ and RREAD_ACK complete. (Log 76 to 79.) -/
def Obligations.FabricR168 : Prop :=
  Sys2Proof.Machine.FabricCommandsR168 ∧ Sys2Proof.Machine.FabricDeliversR169

/-- R158, R161, R162, R163: KVTAB, KVGATH, KVAPP and KVINV complete: KVTAB writes its record, with the issuer's ASID, to its granule and
nothing else; KVGATH moves keys from KOFF and then values from VOFF, position by position, through its two patterns, and ends after the
last; KVAPP moves whole records the other way; KVINV tells the own KBTB, or every one, and ends when all have acknowledged. R163: a KBTB
drops the entries in a KVINV's range, and only those; with no access and no gather left that used one it acknowledges, else it does so
when they are done. KBTB_INVALIDATE_ACK completes. R160: a load claims an entry in state NVMe by a compare-and-swap, and none that has
changed. One that waits for a frame looks at the ring again after 1024 cycles: with HEAD equal to TAIL it goes on waiting, else it takes a
frame. One that has ended makes its entry resident at the frame, or, having failed, NVMe with its old LOC, by a compare-and-swap; an entry
that software has changed stays as it is. A granule that an atomic has reserved is waited for (R116). LANDING_RING_RECHECK and
KV_BLOCK_LOAD_COMPLETION complete. (Keys before values, and causes the rules do not give: log 80.) -/
def Obligations.KvBlocksR158 : Prop :=
  Sys2Proof.Machine.KvCommandsR158 ∧ Sys2Proof.Machine.KbtbDropsTheRangeR163 ∧ Sys2Proof.Machine.KvLoadsEndR160

/-- R164 to R167: NVRD and NVWR complete: they translate their pages, fault where one does not map, split the transfer into commands of at
most 128 KiB, submit them in order while the queue has room, and end when all have ended, with the first failure if there is one. R167: a
completion entry frees its command's identifier and says how the command has ended; one that comes after the timeout is dropped and tells
nobody; one whose data an atomic's granule holds back waits (R97). A command without its completion after NV_TIMEOUT fails, and its
identifier stays taken. NVME_COMPLETION and NVME_TIMEOUT complete. (The entries' layout is not the spec's: log 12.) -/
def Obligations.StorageR166 : Prop :=
  Sys2Proof.Machine.StorageCommandsR166 ∧ Sys2Proof.Machine.StorageCompletionsR167

/-- R151: COPY completes. In any order it reads its source elements, 0 where one is out of bounds, and writes each value it has read to the
destination element of its number, or nowhere where that is out of bounds; of destination elements at one address the higher is written
later; while an element is left there is a step to take, and COPY is done with its last write. R149: element `e` of a pattern is out of
bounds when an index is at or past its bound, and else lies at BASE plus each index times its stride, modulo 2^52 (a .KV pattern: modulo
2^48 under its sequence). (Log 40.) -/
def Obligations.CopyMovesElementsR151 : Prop :=
  Sys2Proof.Machine.CopyMovesElementsR151 ∧ Sys2Proof.Machine.PatternElementsR149

/-- R179, R180: CRED, CBCAST and CGATH complete. A command joins its group's episode, or faults when its cluster or chip is no member or the
second of its chip; once all have joined with one shape, each reads its source and sends it to the others; when all are here, the
destination is the fold, the root's stream, or the streams in rank order; each then writes its own and is done. R179: when every member of
an episode has issued its command, it runs if they all present one shape; else every member faults. For a chip group each member decides
so from the headers of the others. COLLECTIVE_EPISODE completes. (Log 81.) -/
def Obligations.CollectivesR180 : Prop :=
  Sys2Proof.Machine.CollectivesR180 ∧ Sys2Proof.Machine.CollectiveEpisodesStartR179

/-- R234, R235, R236: the entry that the array forms from 128 activation codes and a column of the weight set, on each of the five paths, into
the working value W: products and sums are rounded one by one in ascending K; a scale byte of 0xFF makes its block a NaN; the integer
paths sum exactly. R228, R244, R245: WLOAD and WSWAP complete: WLOAD waits for earlier swaps, checks its bounds, makes the shadow set
invalid, at its issue already where no swap is to come, reads its set and side data piece by piece, and makes the shadow set valid with
its format; WSWAP waits for earlier loads and exchanges the two sets, or faults when the shadow set is not valid. (Log 82.) -/
def Obligations.ArrayEntriesAndWeightsR235 : Prop :=
  Sys2Proof.Machine.ArrayEntriesR235 ∧ Sys2Proof.Machine.WeightSetsLoadAndSwapR244

/-- R237 to R241, R246, R247: MMA and MRECUR complete: they check the active set, the formats and the patterns when they start; each tile or
step reads its rows, and for an MX format their scales, forms its working values, sends its output, and then commits: the accumulator, the
count and the flags follow, and the command ends with the last. A row that fails ends the command. MATRIX_TILE_COMMIT completes. R240,
R248, R249, R250: MACC, MZERO and MSTAT complete: MACC sends out the entries of its accumulator, in every output mode, and changes none;
MZERO clears one accumulator or both; MSTAT sends the array's state to its queue, and with .CLR clears the flags. An entry goes out as it
is held, or rounded to B16 or F16. (Log 82.) -/
def Obligations.TilesRunAndReadOutR239 : Prop :=
  Sys2Proof.Machine.TilesRunInOrderR239 ∧ Sys2Proof.Machine.ArrayReadOutR248

/-- R267, R271, R278: KCFG, KBIAS, KMASK, KBIND, KUNBIND, KLIFE, KQRY and KSTAT complete: the command goes to its store, or to the stores of
its group, a group query with the row that it has read; what a store sends out enters the queue, in the places reserved or at its end, as
there is room; and the command ends when every store has answered, with the first failure if there was one. R256, R266, R267, R273 to
R280: what a command does as it arrives at its store: KCFG configures it, empties its slots and drops its mask; KBIAS sets sixteen
entries; KMASK takes a valid block; KBIND, KUNBIND and KLIFE change slots, or fail with "store state"; KSTAT gives the store's word; an
unconfigured store takes only KCFG and KSTAT. A query reads its pieces, one in a step, selects, reads the value rows, and then counts,
spends the lifetimes of what it fired and leaves its output; a failure of a read is one of the query's. A command waits while a query is
being scored. KMS_COMMAND_ARRIVAL completes. (Log 83.) -/
def Obligations.StoresTakeCommandsR273 : Prop :=
  Sys2Proof.Machine.KeyMatchCommandsAreSentR271 ∧ Sys2Proof.Machine.StoresTakeCommandsR273

/-- R314 to R318: MSEND, MSEND_TRIG, MRECV and MPROBE complete. MSEND sends its message unless the destination holds no kernel of the
partition, behind the node's earlier ones to that plane; a refused message waits 1024 cycles and goes again. MSEND.TRIG goes to the shard
of its name. MRECV takes the first overflow entry that it matches or posts a receive, and fills its place when it has a message. MPROBE
answers without taking. MESSAGE_RETRY completes. R314, R316, R318, R395: what arrives for tasks. A message goes to the first posted
receive of its plane that it matches, else to the overflow queue, and is accepted; a full queue refuses it. A trigger runs the handler of
its name, or waits for a binding, or fails at its sender. A fault record goes to the handler of its name, waits for one, or goes to the
management core. MESSAGE_ARRIVAL, TRIGGER_DISPATCH and FAULT_RECORD_DELIVERY complete. (Log 70 and 75.) -/
def Obligations.MessagesAndTriggersR315 : Prop :=
  Sys2Proof.Machine.MessagesR315 ∧ Sys2Proof.Machine.MessagesAndTriggersArriveR316

/-- R361 to R365, R368 to R375: NOPEN, NCLOSE, NBIND, NUNBIND and NLOOK complete: a NOPEN (the last of its commit to be issued) takes the
lowest free handle of an object, says so of a handler or an unbound name, or waits; NCLOSE closes a handle; NBIND binds an unbound name to
a new object; NUNBIND unbinds one; NLOOK reads; a command with a place fills it when there is room. R365, R373: NREBIND completes: it
checks its whole list and then changes every binding at one point, or none: a list past the scratchpad, in tiles that are not
ENGINE-owned, or that breaks a rule is an engine fault. R367, R370: an object with no binding, no open handle and no holder is reclaimed:
with a free-list ring its range is appended and TAIL steps, or it waits 1024 cycles for room, or for the end of a reservation; its
semaphore is told from the shard of its name (R13, R361), with the error flag when the ring could not be written. OBJECT_RECLAMATION and
FREE_LIST_HEAD_RECHECK complete. (Log 69.) -/
def Obligations.NamesR369 : Prop :=
  Sys2Proof.Machine.NamesOpenBindLookR369 ∧ Sys2Proof.Machine.RebindIsOnePointR373 ∧ Sys2Proof.Machine.ObjectsAreReclaimedR367

/-- R22, R24, R25, R28 to R32, R39, R43, R71: a token that reaches its element, the first of its element among those that wait for no reload:
one for a plane without a node faults the node whose queue leads there; one of another generation, or of no iteration in flight, is
dropped; an empty element, a wrong port and a second token on a port fault; an incomplete set waits in the matching store, whose youngest
entry goes to the spill table when the set is full (of entries alike, the arriving one: log 21); a complete one becomes ready.
OPERAND_TOKEN_ARRIVAL completes. R37, R46, R49, R262, R311: a node that may start does: a streaming one its next iteration below its
count, any other the iteration that a commit allowed, in window slot n mod W when that is free; a callable one an invocation for its
lowest tag that waits. Its operandless instructions become ready, and it keeps FCTL as it stands. INVOCATION_START completes. (Log 18 to
23.) -/
def Obligations.InvocationsStartOnTokensR30 : Prop :=
  Sys2Proof.Machine.TokensReachElementsR30 ∧ Sys2Proof.Machine.InvocationsStartR37

/-- R38, R39, R41, R50, R189, R307, R311: an invocation that may commit releases what it held at one point: SPAWNs have their tags, FSTAT its
flags, a global its value, a CALL its link, accesses are held no more; it leaves the window; its tile flips, then its commands by element,
its exit and a TRAP are left to be issued in turn. One without an exit faults. It may commit once it is complete and its complete sets
have issued (log 22), unless a store of a commit before waits in the output stage (R378); a reduction's set waits to fold.
INVOCATION_COMMIT completes. R94, R134, R141, R143, R150, R311, R356 to R360, R407, R409: what is left of a commit happens in its turn: a
flip once the node's earlier accesses to the tile are performed and its gates are open; WRSR, TINV, TSYNC, KEYSET, FRET and TRAP act; a
PSET register takes its record, a TRET goes, a SPAWN is answered by its tag's invocation; any other command enters its unit, once the
tokens of its WM are set and its queue has room. Between commits an arrival of another may come: a commit of a callable node that waits is
set aside (R310). ENGINE_QUEUE_ROOM and WM_TOKENS_SET complete. R48, R86, R141, R144, R145, R150, R151, R363, R387: a command enters its
unit with copies of its patterns and of its chip group, its handles resolved, and the tiles that it will touch; a handle not open, a
chip-group table that failed its check, a check of its own (a pattern mismatch, a flume's or a window's range, ...) and a tile that is not
the engine's fail it at once, in that order (tile 0 and no row in AUX of an array command: log 104). R142, R146, R151, R166, R241: a unit
signals its commands in issue order, the storage unit those of every cluster: the first that has finished returns its tiles when it asks
for that, adds 1 to its semaphore, saturating, leaves its scoreboard count and its unit. The task and system unit signals its first
finished command. ENGINE_COMPLETION completes. (Log 16, 86 and 87.) -/
def Obligations.CommitsReleaseAndIssueR39 : Prop :=
  Sys2Proof.Machine.CommitsReleaseTogetherR39 ∧ Sys2Proof.Machine.CommitsIssueInOrderR141 ∧ Sys2Proof.Machine.CommandsAreCheckedAtIssueR145 ∧ Sys2Proof.Machine.CommandsSignalInOrderR146

/-- R42, R49, R391, R400: time counts for the invocation that the watchdog watches while nothing of it waits (log 26), and the watchdog
expires after its limit; when every tag of a pool is held by an invocation that waits for a tag of it, or by one whose commit does, one
that took its tag last faults, of the pool's node where one of those waits; past the drain limit a fault waits for older invocations no
more. DRAIN_LIMIT_EXPIRY, WATCHDOG_EXPIRY and TAG_POOL_DEADLOCK complete. R40, R390 to R393: once every older invocation has committed (or
the drain limit has passed), a detected fault is taken: it and what is younger is discarded, the generation steps, the record is formed,
and the node waits for its handler, to go on at RST. INVOCATION_DISCARD completes. R144, R391: an engine fault is taken between two
commits, once the complete invocations have committed: every invocation in flight is discarded and the record formed with ENG, to go on at
the oldest of them; a node that has ended forms its record alone. ENGINE_FAULT completes. (Log 25 and 26.) -/
def Obligations.WaitsAndFaultsR40 : Prop :=
  Sys2Proof.Machine.WaitsEndInFaultsR42 ∧ Sys2Proof.Machine.FaultsAreTakenR40 ∧ Sys2Proof.Machine.EngineFaultsAreTakenR144

/-- R293, R294, R337: the one head of the queues, when the Weir cannot read it or a check refuses it: under an ASID outside the partition's
range, or at a page without translation or permission, it is answered 6, at an uncorrectable error 2, a record that breaks R292 2, one of
another partition 6, one out of sequence 5; what leaves the expected SEQ unchanged leaves it so. A readable record is answered by the Weir
of its own die (log 46). ADMISSION_INTERVAL completes. R300 to R303, R306, R404: an interval frees the die's completed kernels, answers
the heads that R293 refuses, and then takes at most one head of its die: the first in the order of rank, age and queue that fits, those
before it being passed over; when the first has reached BYPASS_LIMIT, it is held for until it is admitted, nothing else is admitted, and
if it does not fit the kernels of the first placement that pre-emption can free, all of lower rank, are pre-empted. (Log 46, 47 and 49.) -/
def Obligations.AdmissionsFollowTheOrderR300 : Prop :=
  Sys2Proof.Machine.HeadsAreAnsweredR293 ∧ Sys2Proof.Machine.AdmissionsFollowTheOrderR300

/-- R400, R402, R403: the management core pre-empts a running kernel that has not completed and whose clusters all have slots; a kernel at
rest is saved: its nodes' generations step, where the pre-emption has not stepped them (R25), its image takes its clusters' memory, it
becomes a resume entry of its queue, and its clusters are free. An image that cannot be written leaves it stopped on its clusters.
MANAGEMENT_CORE_PREEMPTION and CONTEXT_IMAGE_WRITE complete. R294, R418: words 6 and 7 of a record take DEV_SEQ_ISSUED + 1 and the status
in one access, DEV_SEQ_ISSUED steps, and DONE passes the leading records whose status is written; a write that fails is tried again after
1024 cycles and takes no completion sequence. STATUS_WORD_WRITE and STATUS_WRITE_RETRY complete. (Log 49 and 50.) -/
def Obligations.KernelsAreSavedAndReportedR400 : Prop :=
  Sys2Proof.Machine.PreemptionSavesAKernelR400 ∧ Sys2Proof.Machine.StatusWordsR418

/-- R320, R324, R326, R327, R328: in a cycle a port of a router sends at most one flit: the slot owner's if it has one for the port; else,
with no packet open, that of the first of the waiting ones by age, class, arrival and input; a waiting one that precedes the innermost
open packet interrupts it while fewer than 3 are open; else the innermost open packet goes on. First, a multicast with several ways that
is there whole takes a buffer on each, all at once or none. A waiting head's counter steps once in 16 cycles and stops at 255.
EGRESS_ARBITRATION and AGEING_STEP complete. R320, R351, R352, R353: at a cluster's port the next packet of the partition's oldest
message, of at most 1 KiB, passes when its class is 2 or 3, when the headgates are off, or when its level is at least 1: its cost is then
subtracted. A refill gives each demanding partition its part of the budget and of what the others leave, with its debt, and every other
level is 0. HEADGATE_CHARGE and HEADGATE_REFILL complete. R333: at a cluster's ingress a dynamic flit is held while LEVEL is at or above
DEPTH, unless RATE is 256; every flit that goes, a circuit's in its slot among them, adds 1 to LEVEL; LEVEL falls by RATE once in 256
cycles, when a change of RATE and DEPTH takes effect. A held flit holds back the output stage: no element whose queue leads to another
cluster fires (R50). SLUICE_LEAK completes. (Log 65 and 68.) -/
def Obligations.NetworkPortsChooseAndMeterR327 : Prop :=
  Sys2Proof.Machine.EgressPortsChooseR327 ∧ Sys2Proof.Machine.HeadgatesMeterPortsR351 ∧ Sys2Proof.Machine.TheSluiceHoldsFlitsR333

/-- R329, R330, R331: a link port that is up sends an acknowledgment that it owes, else replays, else sends the next flit of a packet that the
forwarding table gives it, and keeps it until it is acknowledged, at most 512 of them. Flits are accepted in SEQ order, once; a packet
whose last flit is accepted goes on by the forwarding table or is refused. (What a flit's payload holds is free, and CRC-18 starts at 0:
log 14 and 106.) LINK_FLIT_RECEIVE completes. R330, R332: an acknowledgment frees the flits through its SEQ, a negative one those before
the SEQ it names, and the rest are replayed. A lane that fails makes the port train at the widest width its lanes allow and replay, or
takes it down and ends the requests whose packets it held, in whole or in part; a planned change waits until no dynamic packet is open.
LINK_ACK_RECEIVE, LANE_FAILURE, LINK_RETRAIN_COMPLETE and PLANNED_WIDTH_CHANGE complete. (Log 14, 64 and 67.) -/
def Obligations.LinksDeliverAndRecoverR330 : Prop :=
  Sys2Proof.Machine.LinksDeliverInOrderR330 ∧ Sys2Proof.Machine.LinksRecoverR332

/-- R17, R19, R320, R333, R425: an island's setting changes nothing else, and the islands of the routers never leave theirs. The power
controller sets RATE and DEPTH of the Sluices, at or above THR no rate above what it was, and nothing else; at or above TRIP every kernel
ends, a machine fault "thermal trip" is raised, and every island is held at minimum power until a cold reset. (What a setting is: log 56.)
ISLAND_DVFS_CHANGE, THERMAL_THROTTLE and THERMAL_TRIP complete. R419, R420, R424: what each reset level leaves, and who may ask for it.
COLD_RESET, WARM_RESET, PARTITION_RESET, SECTION_ABORT and POWER_FAILURE complete. R422, R423, R424: the boot goes through its stages, and
a failure at stage 1 or 2 holds it there; stage 2 takes NEXT from STORED, stage 3 creates partition 63 at privilege S, stage 4 finds the
CXL capacities, at most 3072 GB together, and stage 5 brings the link ports up. A report of 512 bytes is signed with NEXT, which steps;
STORED is raised by 16 first when NEXT has reached it; from index 2^20 on nothing is signed. BOOT_STAGE and ATTESTATION_SIGN complete.
(Log 55 to 57, 60, 61 and 63.) -/
def Obligations.ResetsBootAndHeatR420 : Prop :=
  Sys2Proof.Machine.HeatAndPowerR425 ∧ Sys2Proof.Machine.ResetLevelsR420 ∧ Sys2Proof.Machine.BootAndAttestationR422

/-- R5, R6, R338, R356, R416, R430, R431: a register write by the host (0), the management core (1) or the service core (2), of privilege S, M
and S: what is read only, of a node, cluster or die, above the writer's privilege, or a value outside its column changes nothing; else the
fields take the value and the reserved bits stay 0, in the copy of PART_SEL's partition. Of the writes of one cycle the host's comes
first, then the cores', then the nodes': one whose turn has passed does not come in this cycle. REGISTER_WRITE completes. R291: LQ_CFG
enables a queue afresh, at TAIL and without a sequence history, for a partition that the writer may enable; of an enabled queue only EN
changes. A TAIL that overruns the ring changes nothing. LQ_CFG_WRITE and LQ_TAIL_WRITE complete. R48, R329, R339, R354: PT_CFG takes all
its fields from privilege M and SHARE alone below it; CGRP_TABLE loads the table of a partition, when no chip is in more than four
entries; SL_SLOT_BASE loads the tables of all ports, each applied from its next slot 0, or refused whole; of the counters the package's
are reached, by their owner or privilege M, and enabling one clears its count. PT_CFG_WRITE, CGRP_TABLE_WRITE, SL_SLOT_BASE_WRITE and
SAFE_SEL_WRITE complete. (Log 15, 59 and 96.) -/
def Obligations.RegistersAreWrittenR431 : Prop :=
  Sys2Proof.Machine.RegisterWritesR431 ∧ Sys2Proof.Machine.LaunchQueuesR291 ∧ Sys2Proof.Machine.TablesAreLoadedR329
end

