-- ==== Sys2Proof/Laws/Tab.lean ====
section
/-!
SUPPORT. Laws of sparse tables: reading after a write, writes that leave other keys alone, and the canonical form, which
every write keeps.
-/

namespace Sys2Proof

variable {α : Type}

/-! ### Reading after a write -/

@[simp] theorem Tab.find_nil (k : Nat) : Tab.find ([] : Tab α) k = none := rfl

theorem Tab.find_put_same (t : Tab α) (k : Nat) (v : α) : Tab.find (Tab.put t k v) k = some v := by
  induction t with
  | nil => simp [Tab.put, Tab.find]
  | cons e t ih =>
    obtain ⟨j, u⟩ := e
    simp only [Tab.put]
    split
    · simp [Tab.find]
    · split
      · simp [Tab.find]
      · next h => simp [Tab.find, h, ih]

theorem Tab.find_put_other (t : Tab α) (k j : Nat) (v : α) (h : j ≠ k) : Tab.find (Tab.put t k v) j = Tab.find t j := by
  induction t with
  | nil => simp [Tab.put, Tab.find, h.symm]
  | cons e t ih =>
    obtain ⟨i, u⟩ := e
    simp only [Tab.put]
    split
    · simp [Tab.find, h.symm]
    · split
      · next hi => subst hi; simp [Tab.find, h.symm]
      · simp only [Tab.find]; split <;> simp [ih]

theorem Tab.find_put (t : Tab α) (k j : Nat) (v : α) :
    Tab.find (Tab.put t k v) j = if j = k then some v else Tab.find t j := by
  split
  · next h => subst h; exact Tab.find_put_same t j v
  · next h => exact Tab.find_put_other t k j v h

@[simp] theorem Tab.get_put_same (d : α) (t : Tab α) (k : Nat) (v : α) : Tab.get d (Tab.put t k v) k = v := by
  simp [Tab.get, Tab.find_put_same]

theorem Tab.get_put_other (d : α) (t : Tab α) (k j : Nat) (v : α) (h : j ≠ k) :
    Tab.get d (Tab.put t k v) j = Tab.get d t j := by
  simp [Tab.get, Tab.find_put_other t k j v h]

@[simp] theorem Tab.get_mod_same (d : α) (t : Tab α) (k : Nat) (f : α → α) :
    Tab.get d (Tab.mod d t k f) k = f (Tab.get d t k) := by
  simp [Tab.mod]

theorem Tab.get_mod_other (d : α) (t : Tab α) (k j : Nat) (f : α → α) (h : j ≠ k) :
    Tab.get d (Tab.mod d t k f) j = Tab.get d t j := by
  simp [Tab.mod, Tab.get_put_other d t k j _ h]

/-! ### Sorted tables -/

theorem Tab.sorted_cons (j : Nat) (u : α) (t : Tab α) :
    Tab.sorted ((j, u) :: t) = true ↔ (∀ e ∈ t, j < e.1) ∧ Tab.sorted t = true := by
  simp [Tab.sorted]

theorem Tab.mem_put (t : Tab α) (k : Nat) (v : α) (e : Nat × α) (h : e ∈ Tab.put t k v) : e = (k, v) ∨ e ∈ t := by
  induction t with
  | nil => simpa [Tab.put] using h
  | cons c t ih =>
    obtain ⟨j, u⟩ := c
    simp only [Tab.put] at h
    split at h
    · simpa using h
    · split at h
      · rcases List.mem_cons.1 h with h | h
        · exact .inl h
        · exact .inr (List.mem_cons_of_mem _ h)
      · rcases List.mem_cons.1 h with h | h
        · exact .inr (h ▸ List.mem_cons_self ..)
        · exact (ih h).imp id (List.mem_cons_of_mem _)

theorem Tab.sorted_put (t : Tab α) (k : Nat) (v : α) (h : Tab.sorted t = true) : Tab.sorted (Tab.put t k v) = true := by
  induction t with
  | nil => simp [Tab.put, Tab.sorted]
  | cons c t ih =>
    obtain ⟨j, u⟩ := c
    obtain ⟨h1, h2⟩ := (Tab.sorted_cons j u t).1 h
    simp only [Tab.put]
    split
    · next hk =>
      refine (Tab.sorted_cons ..).2 ⟨?_, h⟩
      intro e he
      rcases List.mem_cons.1 he with rfl | he
      · exact hk
      · exact Nat.lt_trans hk (h1 e he)
    · split
      · next hj => subst hj; exact (Tab.sorted_cons ..).2 ⟨h1, h2⟩
      · refine (Tab.sorted_cons ..).2 ⟨?_, ih h2⟩
        intro e he
        rcases Tab.mem_put t k v e he with rfl | he
        · simp only; omega
        · exact h1 e he

theorem Tab.mem_del (t : Tab α) (k : Nat) (e : Nat × α) (h : e ∈ Tab.del t k) : e ∈ t := by
  induction t with
  | nil => simp [Tab.del] at h
  | cons c t ih =>
    obtain ⟨j, u⟩ := c
    simp only [Tab.del] at h
    split at h
    · exact List.mem_cons_of_mem _ (ih h)
    · rcases List.mem_cons.1 h with h | h
      · exact h ▸ List.mem_cons_self ..
      · exact List.mem_cons_of_mem _ (ih h)

theorem Tab.sorted_del (t : Tab α) (k : Nat) (h : Tab.sorted t = true) : Tab.sorted (Tab.del t k) = true := by
  induction t with
  | nil => simpa [Tab.del] using h
  | cons c t ih =>
    obtain ⟨j, u⟩ := c
    obtain ⟨h1, h2⟩ := (Tab.sorted_cons j u t).1 h
    simp only [Tab.del]
    split
    · exact ih h2
    · exact (Tab.sorted_cons ..).2 ⟨fun e he => h1 e (Tab.mem_del t k e he), ih h2⟩

theorem Tab.find_del_same (t : Tab α) (k : Nat) : Tab.find (Tab.del t k) k = none := by
  induction t with
  | nil => rfl
  | cons c t ih =>
    obtain ⟨j, u⟩ := c
    simp only [Tab.del]
    split
    · exact ih
    · next hj => rw [Tab.find, if_neg hj, ih]

theorem Tab.find_del_other (t : Tab α) (k j : Nat) (h : j ≠ k) : Tab.find (Tab.del t k) j = Tab.find t j := by
  induction t with
  | nil => rfl
  | cons c t ih =>
    obtain ⟨i, u⟩ := c
    simp only [Tab.del]
    split
    · next hi => subst hi; simp [Tab.find, h.symm, ih]
    · simp only [Tab.find]; split <;> simp [ih]

theorem Tab.find_del (t : Tab α) (k j : Nat) : Tab.find (Tab.del t k) j = if j = k then none else Tab.find t j := by
  split
  · next h => subst h; exact Tab.find_del_same t j
  · next h => exact Tab.find_del_other t k j h

/-! ### The canonical form -/

theorem Tab.wf_nil [DecidableEq α] (d : α) : Tab.wf d ([] : Tab α) = true := rfl

theorem Tab.wf_iff [DecidableEq α] (d : α) (t : Tab α) :
    Tab.wf d t = true ↔ Tab.sorted t = true ∧ ∀ e ∈ t, e.2 ≠ d := by
  simp [Tab.wf]

/-- A write keeps the canonical form. -/
theorem Tab.wf_putD [DecidableEq α] (d : α) (t : Tab α) (k : Nat) (v : α) (h : Tab.wf d t = true) :
    Tab.wf d (Tab.putD d t k v) = true := by
  obtain ⟨h1, h2⟩ := (Tab.wf_iff d t).1 h
  rw [Tab.wf_iff]
  unfold Tab.putD
  split
  · exact ⟨Tab.sorted_del t k h1, fun e he => h2 e (Tab.mem_del t k e he)⟩
  · next hv =>
    refine ⟨Tab.sorted_put t k v h1, fun e he => ?_⟩
    rcases Tab.mem_put t k v e he with rfl | he
    · exact hv
    · exact h2 e he

/-- A read after a write to the same key gives the value written. -/
theorem Tab.get_putD_same [DecidableEq α] (d : α) (t : Tab α) (k : Nat) (v : α) :
    Tab.get d (Tab.putD d t k v) k = v := by
  unfold Tab.putD
  split
  · next hv => simp [Tab.get, Tab.find_del_same t k, hv]
  · simp

/-- A write leaves every other key alone. -/
theorem Tab.get_putD_other [DecidableEq α] (d : α) (t : Tab α) (k j : Nat) (v : α) (h : j ≠ k) :
    Tab.get d (Tab.putD d t k v) j = Tab.get d t j := by
  unfold Tab.putD
  split
  · simp [Tab.get, Tab.find_del_other t k j h]
  · exact Tab.get_put_other d t k j v h

end Sys2Proof
end

