-- ==== Sys2Proof/Laws/State.lean ====
section
/-!
SUPPORT. One lemma for each field of the state and each update: what an update leaves alone, and what it sets. No later proof
unfolds a record update.
-/

namespace Sys2Proof.Machine

/-! ### setCl -/

@[simp] theorem State.setCl_now (s : State) (c : Nat) (x : Cluster) : (s.setCl c x).now = s.now := rfl
@[simp] theorem State.setCl_sched (s : State) (c : Nat) (x : Cluster) : (s.setCl c x).sched = s.sched := rfl
@[simp] theorem State.setCl_srSeen (s : State) (c : Nat) (x : Cluster) : (s.setCl c x).srSeen = s.srSeen := rfl
@[simp] theorem State.setCl_farHolds (s : State) (c : Nat) (x : Cluster) : (s.setCl c x).farHolds = s.farHolds := rfl
@[simp] theorem State.setCl_storNext (s : State) (c : Nat) (x : Cluster) : (s.setCl c x).storNext = s.storNext := rfl
@[simp] theorem State.setCl_weirHold (s : State) (c : Nat) (x : Cluster) : (s.setCl c x).weirHold = s.weirHold := rfl
@[simp] theorem State.setCl_mem (s : State) (c : Nat) (x : Cluster) : (s.setCl c x).mem = s.mem := rfl
@[simp] theorem State.setCl_memx (s : State) (c : Nat) (x : Cluster) : (s.setCl c x).memx = s.memx := rfl
@[simp] theorem State.setCl_sr (s : State) (c : Nat) (x : Cluster) : (s.setCl c x).sr = s.sr := rfl
@[simp] theorem State.setCl_keys (s : State) (c : Nat) (x : Cluster) : (s.setCl c x).keys = s.keys := rfl
@[simp] theorem State.setCl_tlb (s : State) (c : Nat) (x : Cluster) : (s.setCl c x).tlb = s.tlb := rfl
@[simp] theorem State.setCl_nodes (s : State) (c : Nat) (x : Cluster) : (s.setCl c x).nodes = s.nodes := rfl
@[simp] theorem State.setCl_ports (s : State) (c : Nat) (x : Cluster) : (s.setCl c x).ports = s.ports := rfl
@[simp] theorem State.setCl_inbox (s : State) (c : Nat) (x : Cluster) : (s.setCl c x).inbox = s.inbox := rfl
@[simp] theorem State.setCl_routers (s : State) (c : Nat) (x : Cluster) : (s.setCl c x).routers = s.routers := rfl
@[simp] theorem State.setCl_links (s : State) (c : Nat) (x : Cluster) : (s.setCl c x).links = s.links := rfl
@[simp] theorem State.setCl_gates (s : State) (c : Nat) (x : Cluster) : (s.setCl c x).gates = s.gates := rfl
@[simp] theorem State.setCl_gateB (s : State) (c : Nat) (x : Cluster) : (s.setCl c x).gateB = s.gateB := rfl
@[simp] theorem State.setCl_gateWin (s : State) (c : Nat) (x : Cluster) : (s.setCl c x).gateWin = s.gateWin := rfl
@[simp] theorem State.setCl_sluice (s : State) (c : Nat) (x : Cluster) : (s.setCl c x).sluice = s.sluice := rfl
@[simp] theorem State.setCl_sluiceWin (s : State) (c : Nat) (x : Cluster) : (s.setCl c x).sluiceWin = s.sluiceWin := rfl
@[simp] theorem State.setCl_islands (s : State) (c : Nat) (x : Cluster) : (s.setCl c x).islands = s.islands := rfl
@[simp] theorem State.setCl_kernels (s : State) (c : Nat) (x : Cluster) : (s.setCl c x).kernels = s.kernels := rfl
@[simp] theorem State.setCl_queues (s : State) (c : Nat) (x : Cluster) : (s.setCl c x).queues = s.queues := rfl
@[simp] theorem State.setCl_recs (s : State) (c : Nat) (x : Cluster) : (s.setCl c x).recs = s.recs := rfl
@[simp] theorem State.setCl_inputs (s : State) (c : Nat) (x : Cluster) : (s.setCl c x).inputs = s.inputs := rfl
@[simp] theorem State.setCl_nv (s : State) (c : Nat) (x : Cluster) : (s.setCl c x).nv = s.nv := rfl
@[simp] theorem State.setCl_kvl (s : State) (c : Nat) (x : Cluster) : (s.setCl c x).kvl = s.kvl := rfl
@[simp] theorem State.setCl_dir (s : State) (c : Nat) (x : Cluster) : (s.setCl c x).dir = s.dir := rfl
@[simp] theorem State.setCl_faultSeq (s : State) (c : Nat) (x : Cluster) : (s.setCl c x).faultSeq = s.faultSeq := rfl
@[simp] theorem State.setCl_tinvs (s : State) (c : Nat) (x : Cluster) : (s.setCl c x).tinvs = s.tinvs := rfl
@[simp] theorem State.setCl_tinvNext (s : State) (c : Nat) (x : Cluster) : (s.setCl c x).tinvNext = s.tinvNext := rfl
@[simp] theorem State.setCl_tsyncs (s : State) (c : Nat) (x : Cluster) : (s.setCl c x).tsyncs = s.tsyncs := rfl
@[simp] theorem State.setCl_ksets (s : State) (c : Nat) (x : Cluster) : (s.setCl c x).ksets = s.ksets := rfl
@[simp] theorem State.setCl_tripped (s : State) (c : Nat) (x : Cluster) : (s.setCl c x).tripped = s.tripped := rfl
@[simp] theorem State.setCl_warm (s : State) (c : Nat) (x : Cluster) : (s.setCl c x).warm = s.warm := rfl
@[simp] theorem State.setCl_signed (s : State) (c : Nat) (x : Cluster) : (s.setCl c x).signed = s.signed := rfl
@[simp] theorem State.setCl_bar2 (s : State) (c : Nat) (x : Cluster) : (s.setCl c x).bar2 = s.bar2 := rfl
@[simp] theorem State.setCl_weirNext (s : State) (c : Nat) (x : Cluster) : (s.setCl c x).weirNext = s.weirNext := rfl
@[simp] theorem State.setCl_kernNext (s : State) (c : Nat) (x : Cluster) : (s.setCl c x).kernNext = s.kernNext := rfl
@[simp] theorem State.setCl_monQ (s : State) (c : Nat) (x : Cluster) : (s.setCl c x).monQ = s.monQ := rfl
@[simp] theorem State.setCl_cgrp (s : State) (c : Nat) (x : Cluster) : (s.setCl c x).cgrp = s.cgrp := rfl
@[simp] theorem State.setCl_collChip (s : State) (c : Nat) (x : Cluster) : (s.setCl c x).collChip = s.collChip := rfl
@[simp] theorem State.setCl_collBad (s : State) (c : Nat) (x : Cluster) : (s.setCl c x).collBad = s.collBad := rfl

/-! ### modCl -/

@[simp] theorem State.modCl_now (s : State) (c : Nat) (f : Cluster → Cluster) : (s.modCl c f).now = s.now := rfl
@[simp] theorem State.modCl_sched (s : State) (c : Nat) (f : Cluster → Cluster) : (s.modCl c f).sched = s.sched := rfl
@[simp] theorem State.modCl_srSeen (s : State) (c : Nat) (f : Cluster → Cluster) : (s.modCl c f).srSeen = s.srSeen := rfl
@[simp] theorem State.modCl_farHolds (s : State) (c : Nat) (f : Cluster → Cluster) : (s.modCl c f).farHolds = s.farHolds := rfl
@[simp] theorem State.modCl_storNext (s : State) (c : Nat) (f : Cluster → Cluster) : (s.modCl c f).storNext = s.storNext := rfl
@[simp] theorem State.modCl_weirHold (s : State) (c : Nat) (f : Cluster → Cluster) : (s.modCl c f).weirHold = s.weirHold := rfl
@[simp] theorem State.modCl_mem (s : State) (c : Nat) (f : Cluster → Cluster) : (s.modCl c f).mem = s.mem := rfl
@[simp] theorem State.modCl_memx (s : State) (c : Nat) (f : Cluster → Cluster) : (s.modCl c f).memx = s.memx := rfl
@[simp] theorem State.modCl_sr (s : State) (c : Nat) (f : Cluster → Cluster) : (s.modCl c f).sr = s.sr := rfl
@[simp] theorem State.modCl_keys (s : State) (c : Nat) (f : Cluster → Cluster) : (s.modCl c f).keys = s.keys := rfl
@[simp] theorem State.modCl_tlb (s : State) (c : Nat) (f : Cluster → Cluster) : (s.modCl c f).tlb = s.tlb := rfl
@[simp] theorem State.modCl_nodes (s : State) (c : Nat) (f : Cluster → Cluster) : (s.modCl c f).nodes = s.nodes := rfl
@[simp] theorem State.modCl_ports (s : State) (c : Nat) (f : Cluster → Cluster) : (s.modCl c f).ports = s.ports := rfl
@[simp] theorem State.modCl_inbox (s : State) (c : Nat) (f : Cluster → Cluster) : (s.modCl c f).inbox = s.inbox := rfl
@[simp] theorem State.modCl_routers (s : State) (c : Nat) (f : Cluster → Cluster) : (s.modCl c f).routers = s.routers := rfl
@[simp] theorem State.modCl_links (s : State) (c : Nat) (f : Cluster → Cluster) : (s.modCl c f).links = s.links := rfl
@[simp] theorem State.modCl_gates (s : State) (c : Nat) (f : Cluster → Cluster) : (s.modCl c f).gates = s.gates := rfl
@[simp] theorem State.modCl_gateB (s : State) (c : Nat) (f : Cluster → Cluster) : (s.modCl c f).gateB = s.gateB := rfl
@[simp] theorem State.modCl_gateWin (s : State) (c : Nat) (f : Cluster → Cluster) : (s.modCl c f).gateWin = s.gateWin := rfl
@[simp] theorem State.modCl_sluice (s : State) (c : Nat) (f : Cluster → Cluster) : (s.modCl c f).sluice = s.sluice := rfl
@[simp] theorem State.modCl_sluiceWin (s : State) (c : Nat) (f : Cluster → Cluster) : (s.modCl c f).sluiceWin = s.sluiceWin := rfl
@[simp] theorem State.modCl_islands (s : State) (c : Nat) (f : Cluster → Cluster) : (s.modCl c f).islands = s.islands := rfl
@[simp] theorem State.modCl_kernels (s : State) (c : Nat) (f : Cluster → Cluster) : (s.modCl c f).kernels = s.kernels := rfl
@[simp] theorem State.modCl_queues (s : State) (c : Nat) (f : Cluster → Cluster) : (s.modCl c f).queues = s.queues := rfl
@[simp] theorem State.modCl_recs (s : State) (c : Nat) (f : Cluster → Cluster) : (s.modCl c f).recs = s.recs := rfl
@[simp] theorem State.modCl_inputs (s : State) (c : Nat) (f : Cluster → Cluster) : (s.modCl c f).inputs = s.inputs := rfl
@[simp] theorem State.modCl_nv (s : State) (c : Nat) (f : Cluster → Cluster) : (s.modCl c f).nv = s.nv := rfl
@[simp] theorem State.modCl_kvl (s : State) (c : Nat) (f : Cluster → Cluster) : (s.modCl c f).kvl = s.kvl := rfl
@[simp] theorem State.modCl_dir (s : State) (c : Nat) (f : Cluster → Cluster) : (s.modCl c f).dir = s.dir := rfl
@[simp] theorem State.modCl_faultSeq (s : State) (c : Nat) (f : Cluster → Cluster) : (s.modCl c f).faultSeq = s.faultSeq := rfl
@[simp] theorem State.modCl_tinvs (s : State) (c : Nat) (f : Cluster → Cluster) : (s.modCl c f).tinvs = s.tinvs := rfl
@[simp] theorem State.modCl_tinvNext (s : State) (c : Nat) (f : Cluster → Cluster) : (s.modCl c f).tinvNext = s.tinvNext := rfl
@[simp] theorem State.modCl_tsyncs (s : State) (c : Nat) (f : Cluster → Cluster) : (s.modCl c f).tsyncs = s.tsyncs := rfl
@[simp] theorem State.modCl_ksets (s : State) (c : Nat) (f : Cluster → Cluster) : (s.modCl c f).ksets = s.ksets := rfl
@[simp] theorem State.modCl_tripped (s : State) (c : Nat) (f : Cluster → Cluster) : (s.modCl c f).tripped = s.tripped := rfl
@[simp] theorem State.modCl_warm (s : State) (c : Nat) (f : Cluster → Cluster) : (s.modCl c f).warm = s.warm := rfl
@[simp] theorem State.modCl_signed (s : State) (c : Nat) (f : Cluster → Cluster) : (s.modCl c f).signed = s.signed := rfl
@[simp] theorem State.modCl_bar2 (s : State) (c : Nat) (f : Cluster → Cluster) : (s.modCl c f).bar2 = s.bar2 := rfl
@[simp] theorem State.modCl_weirNext (s : State) (c : Nat) (f : Cluster → Cluster) : (s.modCl c f).weirNext = s.weirNext := rfl
@[simp] theorem State.modCl_kernNext (s : State) (c : Nat) (f : Cluster → Cluster) : (s.modCl c f).kernNext = s.kernNext := rfl
@[simp] theorem State.modCl_monQ (s : State) (c : Nat) (f : Cluster → Cluster) : (s.modCl c f).monQ = s.monQ := rfl
@[simp] theorem State.modCl_cgrp (s : State) (c : Nat) (f : Cluster → Cluster) : (s.modCl c f).cgrp = s.cgrp := rfl
@[simp] theorem State.modCl_collChip (s : State) (c : Nat) (f : Cluster → Cluster) : (s.modCl c f).collChip = s.collChip := rfl
@[simp] theorem State.modCl_collBad (s : State) (c : Nat) (f : Cluster → Cluster) : (s.modCl c f).collBad = s.collBad := rfl

/-! ### setNd -/

@[simp] theorem State.setNd_now (s : State) (nk : Nat) (x : Node) : (s.setNd nk x).now = s.now := rfl
@[simp] theorem State.setNd_sched (s : State) (nk : Nat) (x : Node) : (s.setNd nk x).sched = s.sched := rfl
@[simp] theorem State.setNd_srSeen (s : State) (nk : Nat) (x : Node) : (s.setNd nk x).srSeen = s.srSeen := rfl
@[simp] theorem State.setNd_farHolds (s : State) (nk : Nat) (x : Node) : (s.setNd nk x).farHolds = s.farHolds := rfl
@[simp] theorem State.setNd_storNext (s : State) (nk : Nat) (x : Node) : (s.setNd nk x).storNext = s.storNext := rfl
@[simp] theorem State.setNd_weirHold (s : State) (nk : Nat) (x : Node) : (s.setNd nk x).weirHold = s.weirHold := rfl
@[simp] theorem State.setNd_mem (s : State) (nk : Nat) (x : Node) : (s.setNd nk x).mem = s.mem := rfl
@[simp] theorem State.setNd_memx (s : State) (nk : Nat) (x : Node) : (s.setNd nk x).memx = s.memx := rfl
@[simp] theorem State.setNd_sr (s : State) (nk : Nat) (x : Node) : (s.setNd nk x).sr = s.sr := rfl
@[simp] theorem State.setNd_keys (s : State) (nk : Nat) (x : Node) : (s.setNd nk x).keys = s.keys := rfl
@[simp] theorem State.setNd_tlb (s : State) (nk : Nat) (x : Node) : (s.setNd nk x).tlb = s.tlb := rfl
@[simp] theorem State.setNd_clusters (s : State) (nk : Nat) (x : Node) : (s.setNd nk x).clusters = s.clusters := rfl
@[simp] theorem State.setNd_ports (s : State) (nk : Nat) (x : Node) : (s.setNd nk x).ports = s.ports := rfl
@[simp] theorem State.setNd_inbox (s : State) (nk : Nat) (x : Node) : (s.setNd nk x).inbox = s.inbox := rfl
@[simp] theorem State.setNd_routers (s : State) (nk : Nat) (x : Node) : (s.setNd nk x).routers = s.routers := rfl
@[simp] theorem State.setNd_links (s : State) (nk : Nat) (x : Node) : (s.setNd nk x).links = s.links := rfl
@[simp] theorem State.setNd_gates (s : State) (nk : Nat) (x : Node) : (s.setNd nk x).gates = s.gates := rfl
@[simp] theorem State.setNd_gateB (s : State) (nk : Nat) (x : Node) : (s.setNd nk x).gateB = s.gateB := rfl
@[simp] theorem State.setNd_gateWin (s : State) (nk : Nat) (x : Node) : (s.setNd nk x).gateWin = s.gateWin := rfl
@[simp] theorem State.setNd_sluice (s : State) (nk : Nat) (x : Node) : (s.setNd nk x).sluice = s.sluice := rfl
@[simp] theorem State.setNd_sluiceWin (s : State) (nk : Nat) (x : Node) : (s.setNd nk x).sluiceWin = s.sluiceWin := rfl
@[simp] theorem State.setNd_islands (s : State) (nk : Nat) (x : Node) : (s.setNd nk x).islands = s.islands := rfl
@[simp] theorem State.setNd_kernels (s : State) (nk : Nat) (x : Node) : (s.setNd nk x).kernels = s.kernels := rfl
@[simp] theorem State.setNd_queues (s : State) (nk : Nat) (x : Node) : (s.setNd nk x).queues = s.queues := rfl
@[simp] theorem State.setNd_recs (s : State) (nk : Nat) (x : Node) : (s.setNd nk x).recs = s.recs := rfl
@[simp] theorem State.setNd_inputs (s : State) (nk : Nat) (x : Node) : (s.setNd nk x).inputs = s.inputs := rfl
@[simp] theorem State.setNd_nv (s : State) (nk : Nat) (x : Node) : (s.setNd nk x).nv = s.nv := rfl
@[simp] theorem State.setNd_kvl (s : State) (nk : Nat) (x : Node) : (s.setNd nk x).kvl = s.kvl := rfl
@[simp] theorem State.setNd_dir (s : State) (nk : Nat) (x : Node) : (s.setNd nk x).dir = s.dir := rfl
@[simp] theorem State.setNd_faultSeq (s : State) (nk : Nat) (x : Node) : (s.setNd nk x).faultSeq = s.faultSeq := rfl
@[simp] theorem State.setNd_tinvs (s : State) (nk : Nat) (x : Node) : (s.setNd nk x).tinvs = s.tinvs := rfl
@[simp] theorem State.setNd_tinvNext (s : State) (nk : Nat) (x : Node) : (s.setNd nk x).tinvNext = s.tinvNext := rfl
@[simp] theorem State.setNd_tsyncs (s : State) (nk : Nat) (x : Node) : (s.setNd nk x).tsyncs = s.tsyncs := rfl
@[simp] theorem State.setNd_ksets (s : State) (nk : Nat) (x : Node) : (s.setNd nk x).ksets = s.ksets := rfl
@[simp] theorem State.setNd_tripped (s : State) (nk : Nat) (x : Node) : (s.setNd nk x).tripped = s.tripped := rfl
@[simp] theorem State.setNd_warm (s : State) (nk : Nat) (x : Node) : (s.setNd nk x).warm = s.warm := rfl
@[simp] theorem State.setNd_signed (s : State) (nk : Nat) (x : Node) : (s.setNd nk x).signed = s.signed := rfl
@[simp] theorem State.setNd_bar2 (s : State) (nk : Nat) (x : Node) : (s.setNd nk x).bar2 = s.bar2 := rfl
@[simp] theorem State.setNd_weirNext (s : State) (nk : Nat) (x : Node) : (s.setNd nk x).weirNext = s.weirNext := rfl
@[simp] theorem State.setNd_kernNext (s : State) (nk : Nat) (x : Node) : (s.setNd nk x).kernNext = s.kernNext := rfl
@[simp] theorem State.setNd_monQ (s : State) (nk : Nat) (x : Node) : (s.setNd nk x).monQ = s.monQ := rfl
@[simp] theorem State.setNd_cgrp (s : State) (nk : Nat) (x : Node) : (s.setNd nk x).cgrp = s.cgrp := rfl
@[simp] theorem State.setNd_collChip (s : State) (nk : Nat) (x : Node) : (s.setNd nk x).collChip = s.collChip := rfl
@[simp] theorem State.setNd_collBad (s : State) (nk : Nat) (x : Node) : (s.setNd nk x).collBad = s.collBad := rfl

/-! ### modNd -/

@[simp] theorem State.modNd_now (s : State) (nk : Nat) (f : Node → Node) : (s.modNd nk f).now = s.now := rfl
@[simp] theorem State.modNd_sched (s : State) (nk : Nat) (f : Node → Node) : (s.modNd nk f).sched = s.sched := rfl
@[simp] theorem State.modNd_srSeen (s : State) (nk : Nat) (f : Node → Node) : (s.modNd nk f).srSeen = s.srSeen := rfl
@[simp] theorem State.modNd_farHolds (s : State) (nk : Nat) (f : Node → Node) : (s.modNd nk f).farHolds = s.farHolds := rfl
@[simp] theorem State.modNd_storNext (s : State) (nk : Nat) (f : Node → Node) : (s.modNd nk f).storNext = s.storNext := rfl
@[simp] theorem State.modNd_weirHold (s : State) (nk : Nat) (f : Node → Node) : (s.modNd nk f).weirHold = s.weirHold := rfl
@[simp] theorem State.modNd_mem (s : State) (nk : Nat) (f : Node → Node) : (s.modNd nk f).mem = s.mem := rfl
@[simp] theorem State.modNd_memx (s : State) (nk : Nat) (f : Node → Node) : (s.modNd nk f).memx = s.memx := rfl
@[simp] theorem State.modNd_sr (s : State) (nk : Nat) (f : Node → Node) : (s.modNd nk f).sr = s.sr := rfl
@[simp] theorem State.modNd_keys (s : State) (nk : Nat) (f : Node → Node) : (s.modNd nk f).keys = s.keys := rfl
@[simp] theorem State.modNd_tlb (s : State) (nk : Nat) (f : Node → Node) : (s.modNd nk f).tlb = s.tlb := rfl
@[simp] theorem State.modNd_clusters (s : State) (nk : Nat) (f : Node → Node) : (s.modNd nk f).clusters = s.clusters := rfl
@[simp] theorem State.modNd_ports (s : State) (nk : Nat) (f : Node → Node) : (s.modNd nk f).ports = s.ports := rfl
@[simp] theorem State.modNd_inbox (s : State) (nk : Nat) (f : Node → Node) : (s.modNd nk f).inbox = s.inbox := rfl
@[simp] theorem State.modNd_routers (s : State) (nk : Nat) (f : Node → Node) : (s.modNd nk f).routers = s.routers := rfl
@[simp] theorem State.modNd_links (s : State) (nk : Nat) (f : Node → Node) : (s.modNd nk f).links = s.links := rfl
@[simp] theorem State.modNd_gates (s : State) (nk : Nat) (f : Node → Node) : (s.modNd nk f).gates = s.gates := rfl
@[simp] theorem State.modNd_gateB (s : State) (nk : Nat) (f : Node → Node) : (s.modNd nk f).gateB = s.gateB := rfl
@[simp] theorem State.modNd_gateWin (s : State) (nk : Nat) (f : Node → Node) : (s.modNd nk f).gateWin = s.gateWin := rfl
@[simp] theorem State.modNd_sluice (s : State) (nk : Nat) (f : Node → Node) : (s.modNd nk f).sluice = s.sluice := rfl
@[simp] theorem State.modNd_sluiceWin (s : State) (nk : Nat) (f : Node → Node) : (s.modNd nk f).sluiceWin = s.sluiceWin := rfl
@[simp] theorem State.modNd_islands (s : State) (nk : Nat) (f : Node → Node) : (s.modNd nk f).islands = s.islands := rfl
@[simp] theorem State.modNd_kernels (s : State) (nk : Nat) (f : Node → Node) : (s.modNd nk f).kernels = s.kernels := rfl
@[simp] theorem State.modNd_queues (s : State) (nk : Nat) (f : Node → Node) : (s.modNd nk f).queues = s.queues := rfl
@[simp] theorem State.modNd_recs (s : State) (nk : Nat) (f : Node → Node) : (s.modNd nk f).recs = s.recs := rfl
@[simp] theorem State.modNd_inputs (s : State) (nk : Nat) (f : Node → Node) : (s.modNd nk f).inputs = s.inputs := rfl
@[simp] theorem State.modNd_nv (s : State) (nk : Nat) (f : Node → Node) : (s.modNd nk f).nv = s.nv := rfl
@[simp] theorem State.modNd_kvl (s : State) (nk : Nat) (f : Node → Node) : (s.modNd nk f).kvl = s.kvl := rfl
@[simp] theorem State.modNd_dir (s : State) (nk : Nat) (f : Node → Node) : (s.modNd nk f).dir = s.dir := rfl
@[simp] theorem State.modNd_faultSeq (s : State) (nk : Nat) (f : Node → Node) : (s.modNd nk f).faultSeq = s.faultSeq := rfl
@[simp] theorem State.modNd_tinvs (s : State) (nk : Nat) (f : Node → Node) : (s.modNd nk f).tinvs = s.tinvs := rfl
@[simp] theorem State.modNd_tinvNext (s : State) (nk : Nat) (f : Node → Node) : (s.modNd nk f).tinvNext = s.tinvNext := rfl
@[simp] theorem State.modNd_tsyncs (s : State) (nk : Nat) (f : Node → Node) : (s.modNd nk f).tsyncs = s.tsyncs := rfl
@[simp] theorem State.modNd_ksets (s : State) (nk : Nat) (f : Node → Node) : (s.modNd nk f).ksets = s.ksets := rfl
@[simp] theorem State.modNd_tripped (s : State) (nk : Nat) (f : Node → Node) : (s.modNd nk f).tripped = s.tripped := rfl
@[simp] theorem State.modNd_warm (s : State) (nk : Nat) (f : Node → Node) : (s.modNd nk f).warm = s.warm := rfl
@[simp] theorem State.modNd_signed (s : State) (nk : Nat) (f : Node → Node) : (s.modNd nk f).signed = s.signed := rfl
@[simp] theorem State.modNd_bar2 (s : State) (nk : Nat) (f : Node → Node) : (s.modNd nk f).bar2 = s.bar2 := rfl
@[simp] theorem State.modNd_weirNext (s : State) (nk : Nat) (f : Node → Node) : (s.modNd nk f).weirNext = s.weirNext := rfl
@[simp] theorem State.modNd_kernNext (s : State) (nk : Nat) (f : Node → Node) : (s.modNd nk f).kernNext = s.kernNext := rfl
@[simp] theorem State.modNd_monQ (s : State) (nk : Nat) (f : Node → Node) : (s.modNd nk f).monQ = s.monQ := rfl
@[simp] theorem State.modNd_cgrp (s : State) (nk : Nat) (f : Node → Node) : (s.modNd nk f).cgrp = s.cgrp := rfl
@[simp] theorem State.modNd_collChip (s : State) (nk : Nat) (f : Node → Node) : (s.modNd nk f).collChip = s.collChip := rfl
@[simp] theorem State.modNd_collBad (s : State) (nk : Nat) (f : Node → Node) : (s.modNd nk f).collBad = s.collBad := rfl

/-! ### setKern -/

@[simp] theorem State.setKern_now (s : State) (k : Nat) (x : Kernel) : (s.setKern k x).now = s.now := rfl
@[simp] theorem State.setKern_sched (s : State) (k : Nat) (x : Kernel) : (s.setKern k x).sched = s.sched := rfl
@[simp] theorem State.setKern_srSeen (s : State) (k : Nat) (x : Kernel) : (s.setKern k x).srSeen = s.srSeen := rfl
@[simp] theorem State.setKern_farHolds (s : State) (k : Nat) (x : Kernel) : (s.setKern k x).farHolds = s.farHolds := rfl
@[simp] theorem State.setKern_storNext (s : State) (k : Nat) (x : Kernel) : (s.setKern k x).storNext = s.storNext := rfl
@[simp] theorem State.setKern_weirHold (s : State) (k : Nat) (x : Kernel) : (s.setKern k x).weirHold = s.weirHold := rfl
@[simp] theorem State.setKern_mem (s : State) (k : Nat) (x : Kernel) : (s.setKern k x).mem = s.mem := rfl
@[simp] theorem State.setKern_memx (s : State) (k : Nat) (x : Kernel) : (s.setKern k x).memx = s.memx := rfl
@[simp] theorem State.setKern_sr (s : State) (k : Nat) (x : Kernel) : (s.setKern k x).sr = s.sr := rfl
@[simp] theorem State.setKern_keys (s : State) (k : Nat) (x : Kernel) : (s.setKern k x).keys = s.keys := rfl
@[simp] theorem State.setKern_tlb (s : State) (k : Nat) (x : Kernel) : (s.setKern k x).tlb = s.tlb := rfl
@[simp] theorem State.setKern_clusters (s : State) (k : Nat) (x : Kernel) : (s.setKern k x).clusters = s.clusters := rfl
@[simp] theorem State.setKern_nodes (s : State) (k : Nat) (x : Kernel) : (s.setKern k x).nodes = s.nodes := rfl
@[simp] theorem State.setKern_ports (s : State) (k : Nat) (x : Kernel) : (s.setKern k x).ports = s.ports := rfl
@[simp] theorem State.setKern_inbox (s : State) (k : Nat) (x : Kernel) : (s.setKern k x).inbox = s.inbox := rfl
@[simp] theorem State.setKern_routers (s : State) (k : Nat) (x : Kernel) : (s.setKern k x).routers = s.routers := rfl
@[simp] theorem State.setKern_links (s : State) (k : Nat) (x : Kernel) : (s.setKern k x).links = s.links := rfl
@[simp] theorem State.setKern_gates (s : State) (k : Nat) (x : Kernel) : (s.setKern k x).gates = s.gates := rfl
@[simp] theorem State.setKern_gateB (s : State) (k : Nat) (x : Kernel) : (s.setKern k x).gateB = s.gateB := rfl
@[simp] theorem State.setKern_gateWin (s : State) (k : Nat) (x : Kernel) : (s.setKern k x).gateWin = s.gateWin := rfl
@[simp] theorem State.setKern_sluice (s : State) (k : Nat) (x : Kernel) : (s.setKern k x).sluice = s.sluice := rfl
@[simp] theorem State.setKern_sluiceWin (s : State) (k : Nat) (x : Kernel) : (s.setKern k x).sluiceWin = s.sluiceWin := rfl
@[simp] theorem State.setKern_islands (s : State) (k : Nat) (x : Kernel) : (s.setKern k x).islands = s.islands := rfl
@[simp] theorem State.setKern_queues (s : State) (k : Nat) (x : Kernel) : (s.setKern k x).queues = s.queues := rfl
@[simp] theorem State.setKern_recs (s : State) (k : Nat) (x : Kernel) : (s.setKern k x).recs = s.recs := rfl
@[simp] theorem State.setKern_inputs (s : State) (k : Nat) (x : Kernel) : (s.setKern k x).inputs = s.inputs := rfl
@[simp] theorem State.setKern_nv (s : State) (k : Nat) (x : Kernel) : (s.setKern k x).nv = s.nv := rfl
@[simp] theorem State.setKern_kvl (s : State) (k : Nat) (x : Kernel) : (s.setKern k x).kvl = s.kvl := rfl
@[simp] theorem State.setKern_dir (s : State) (k : Nat) (x : Kernel) : (s.setKern k x).dir = s.dir := rfl
@[simp] theorem State.setKern_faultSeq (s : State) (k : Nat) (x : Kernel) : (s.setKern k x).faultSeq = s.faultSeq := rfl
@[simp] theorem State.setKern_tinvs (s : State) (k : Nat) (x : Kernel) : (s.setKern k x).tinvs = s.tinvs := rfl
@[simp] theorem State.setKern_tinvNext (s : State) (k : Nat) (x : Kernel) : (s.setKern k x).tinvNext = s.tinvNext := rfl
@[simp] theorem State.setKern_tsyncs (s : State) (k : Nat) (x : Kernel) : (s.setKern k x).tsyncs = s.tsyncs := rfl
@[simp] theorem State.setKern_ksets (s : State) (k : Nat) (x : Kernel) : (s.setKern k x).ksets = s.ksets := rfl
@[simp] theorem State.setKern_tripped (s : State) (k : Nat) (x : Kernel) : (s.setKern k x).tripped = s.tripped := rfl
@[simp] theorem State.setKern_warm (s : State) (k : Nat) (x : Kernel) : (s.setKern k x).warm = s.warm := rfl
@[simp] theorem State.setKern_signed (s : State) (k : Nat) (x : Kernel) : (s.setKern k x).signed = s.signed := rfl
@[simp] theorem State.setKern_bar2 (s : State) (k : Nat) (x : Kernel) : (s.setKern k x).bar2 = s.bar2 := rfl
@[simp] theorem State.setKern_weirNext (s : State) (k : Nat) (x : Kernel) : (s.setKern k x).weirNext = s.weirNext := rfl
@[simp] theorem State.setKern_kernNext (s : State) (k : Nat) (x : Kernel) : (s.setKern k x).kernNext = s.kernNext := rfl
@[simp] theorem State.setKern_monQ (s : State) (k : Nat) (x : Kernel) : (s.setKern k x).monQ = s.monQ := rfl
@[simp] theorem State.setKern_cgrp (s : State) (k : Nat) (x : Kernel) : (s.setKern k x).cgrp = s.cgrp := rfl
@[simp] theorem State.setKern_collChip (s : State) (k : Nat) (x : Kernel) : (s.setKern k x).collChip = s.collChip := rfl
@[simp] theorem State.setKern_collBad (s : State) (k : Nat) (x : Kernel) : (s.setKern k x).collBad = s.collBad := rfl

/-! ### takeFresh -/

@[simp] theorem State.takeFresh_now (s : State) : s.takeFresh.now = s.now := rfl
@[simp] theorem State.takeFresh_srSeen (s : State) : s.takeFresh.srSeen = s.srSeen := rfl
@[simp] theorem State.takeFresh_farHolds (s : State) : s.takeFresh.farHolds = s.farHolds := rfl
@[simp] theorem State.takeFresh_storNext (s : State) : s.takeFresh.storNext = s.storNext := rfl
@[simp] theorem State.takeFresh_weirHold (s : State) : s.takeFresh.weirHold = s.weirHold := rfl
@[simp] theorem State.takeFresh_mem (s : State) : s.takeFresh.mem = s.mem := rfl
@[simp] theorem State.takeFresh_memx (s : State) : s.takeFresh.memx = s.memx := rfl
@[simp] theorem State.takeFresh_sr (s : State) : s.takeFresh.sr = s.sr := rfl
@[simp] theorem State.takeFresh_keys (s : State) : s.takeFresh.keys = s.keys := rfl
@[simp] theorem State.takeFresh_tlb (s : State) : s.takeFresh.tlb = s.tlb := rfl
@[simp] theorem State.takeFresh_clusters (s : State) : s.takeFresh.clusters = s.clusters := rfl
@[simp] theorem State.takeFresh_nodes (s : State) : s.takeFresh.nodes = s.nodes := rfl
@[simp] theorem State.takeFresh_ports (s : State) : s.takeFresh.ports = s.ports := rfl
@[simp] theorem State.takeFresh_inbox (s : State) : s.takeFresh.inbox = s.inbox := rfl
@[simp] theorem State.takeFresh_routers (s : State) : s.takeFresh.routers = s.routers := rfl
@[simp] theorem State.takeFresh_links (s : State) : s.takeFresh.links = s.links := rfl
@[simp] theorem State.takeFresh_gates (s : State) : s.takeFresh.gates = s.gates := rfl
@[simp] theorem State.takeFresh_gateB (s : State) : s.takeFresh.gateB = s.gateB := rfl
@[simp] theorem State.takeFresh_gateWin (s : State) : s.takeFresh.gateWin = s.gateWin := rfl
@[simp] theorem State.takeFresh_sluice (s : State) : s.takeFresh.sluice = s.sluice := rfl
@[simp] theorem State.takeFresh_sluiceWin (s : State) : s.takeFresh.sluiceWin = s.sluiceWin := rfl
@[simp] theorem State.takeFresh_islands (s : State) : s.takeFresh.islands = s.islands := rfl
@[simp] theorem State.takeFresh_kernels (s : State) : s.takeFresh.kernels = s.kernels := rfl
@[simp] theorem State.takeFresh_queues (s : State) : s.takeFresh.queues = s.queues := rfl
@[simp] theorem State.takeFresh_recs (s : State) : s.takeFresh.recs = s.recs := rfl
@[simp] theorem State.takeFresh_inputs (s : State) : s.takeFresh.inputs = s.inputs := rfl
@[simp] theorem State.takeFresh_nv (s : State) : s.takeFresh.nv = s.nv := rfl
@[simp] theorem State.takeFresh_kvl (s : State) : s.takeFresh.kvl = s.kvl := rfl
@[simp] theorem State.takeFresh_dir (s : State) : s.takeFresh.dir = s.dir := rfl
@[simp] theorem State.takeFresh_faultSeq (s : State) : s.takeFresh.faultSeq = s.faultSeq := rfl
@[simp] theorem State.takeFresh_tinvs (s : State) : s.takeFresh.tinvs = s.tinvs := rfl
@[simp] theorem State.takeFresh_tinvNext (s : State) : s.takeFresh.tinvNext = s.tinvNext := rfl
@[simp] theorem State.takeFresh_tsyncs (s : State) : s.takeFresh.tsyncs = s.tsyncs := rfl
@[simp] theorem State.takeFresh_ksets (s : State) : s.takeFresh.ksets = s.ksets := rfl
@[simp] theorem State.takeFresh_tripped (s : State) : s.takeFresh.tripped = s.tripped := rfl
@[simp] theorem State.takeFresh_warm (s : State) : s.takeFresh.warm = s.warm := rfl
@[simp] theorem State.takeFresh_signed (s : State) : s.takeFresh.signed = s.signed := rfl
@[simp] theorem State.takeFresh_bar2 (s : State) : s.takeFresh.bar2 = s.bar2 := rfl
@[simp] theorem State.takeFresh_weirNext (s : State) : s.takeFresh.weirNext = s.weirNext := rfl
@[simp] theorem State.takeFresh_kernNext (s : State) : s.takeFresh.kernNext = s.kernNext := rfl
@[simp] theorem State.takeFresh_monQ (s : State) : s.takeFresh.monQ = s.monQ := rfl
@[simp] theorem State.takeFresh_cgrp (s : State) : s.takeFresh.cgrp = s.cgrp := rfl
@[simp] theorem State.takeFresh_collChip (s : State) : s.takeFresh.collChip = s.collChip := rfl
@[simp] theorem State.takeFresh_collBad (s : State) : s.takeFresh.collBad = s.collBad := rfl

/-! ### idle -/

@[simp] theorem State.idle_now (s : State) : s.idle.now = s.now := rfl
@[simp] theorem State.idle_srSeen (s : State) : s.idle.srSeen = s.srSeen := rfl
@[simp] theorem State.idle_farHolds (s : State) : s.idle.farHolds = s.farHolds := rfl
@[simp] theorem State.idle_storNext (s : State) : s.idle.storNext = s.storNext := rfl
@[simp] theorem State.idle_weirHold (s : State) : s.idle.weirHold = s.weirHold := rfl
@[simp] theorem State.idle_mem (s : State) : s.idle.mem = s.mem := rfl
@[simp] theorem State.idle_memx (s : State) : s.idle.memx = s.memx := rfl
@[simp] theorem State.idle_sr (s : State) : s.idle.sr = s.sr := rfl
@[simp] theorem State.idle_keys (s : State) : s.idle.keys = s.keys := rfl
@[simp] theorem State.idle_tlb (s : State) : s.idle.tlb = s.tlb := rfl
@[simp] theorem State.idle_clusters (s : State) : s.idle.clusters = s.clusters := rfl
@[simp] theorem State.idle_nodes (s : State) : s.idle.nodes = s.nodes := rfl
@[simp] theorem State.idle_ports (s : State) : s.idle.ports = s.ports := rfl
@[simp] theorem State.idle_inbox (s : State) : s.idle.inbox = s.inbox := rfl
@[simp] theorem State.idle_routers (s : State) : s.idle.routers = s.routers := rfl
@[simp] theorem State.idle_links (s : State) : s.idle.links = s.links := rfl
@[simp] theorem State.idle_gates (s : State) : s.idle.gates = s.gates := rfl
@[simp] theorem State.idle_gateB (s : State) : s.idle.gateB = s.gateB := rfl
@[simp] theorem State.idle_gateWin (s : State) : s.idle.gateWin = s.gateWin := rfl
@[simp] theorem State.idle_sluice (s : State) : s.idle.sluice = s.sluice := rfl
@[simp] theorem State.idle_sluiceWin (s : State) : s.idle.sluiceWin = s.sluiceWin := rfl
@[simp] theorem State.idle_islands (s : State) : s.idle.islands = s.islands := rfl
@[simp] theorem State.idle_kernels (s : State) : s.idle.kernels = s.kernels := rfl
@[simp] theorem State.idle_queues (s : State) : s.idle.queues = s.queues := rfl
@[simp] theorem State.idle_recs (s : State) : s.idle.recs = s.recs := rfl
@[simp] theorem State.idle_inputs (s : State) : s.idle.inputs = s.inputs := rfl
@[simp] theorem State.idle_nv (s : State) : s.idle.nv = s.nv := rfl
@[simp] theorem State.idle_kvl (s : State) : s.idle.kvl = s.kvl := rfl
@[simp] theorem State.idle_dir (s : State) : s.idle.dir = s.dir := rfl
@[simp] theorem State.idle_faultSeq (s : State) : s.idle.faultSeq = s.faultSeq := rfl
@[simp] theorem State.idle_tinvs (s : State) : s.idle.tinvs = s.tinvs := rfl
@[simp] theorem State.idle_tinvNext (s : State) : s.idle.tinvNext = s.tinvNext := rfl
@[simp] theorem State.idle_tsyncs (s : State) : s.idle.tsyncs = s.tsyncs := rfl
@[simp] theorem State.idle_ksets (s : State) : s.idle.ksets = s.ksets := rfl
@[simp] theorem State.idle_tripped (s : State) : s.idle.tripped = s.tripped := rfl
@[simp] theorem State.idle_warm (s : State) : s.idle.warm = s.warm := rfl
@[simp] theorem State.idle_signed (s : State) : s.idle.signed = s.signed := rfl
@[simp] theorem State.idle_bar2 (s : State) : s.idle.bar2 = s.bar2 := rfl
@[simp] theorem State.idle_weirNext (s : State) : s.idle.weirNext = s.weirNext := rfl
@[simp] theorem State.idle_kernNext (s : State) : s.idle.kernNext = s.kernNext := rfl
@[simp] theorem State.idle_monQ (s : State) : s.idle.monQ = s.monQ := rfl
@[simp] theorem State.idle_cgrp (s : State) : s.idle.cgrp = s.cgrp := rfl
@[simp] theorem State.idle_collChip (s : State) : s.idle.collChip = s.collChip := rfl
@[simp] theorem State.idle_collBad (s : State) : s.idle.collBad = s.collBad := rfl

/-! ### waits -/

@[simp] theorem State.waits_now (s : State) : s.waits.now = s.now := rfl
@[simp] theorem State.waits_srSeen (s : State) : s.waits.srSeen = s.srSeen := rfl
@[simp] theorem State.waits_farHolds (s : State) : s.waits.farHolds = s.farHolds := rfl
@[simp] theorem State.waits_storNext (s : State) : s.waits.storNext = s.storNext := rfl
@[simp] theorem State.waits_weirHold (s : State) : s.waits.weirHold = s.weirHold := rfl
@[simp] theorem State.waits_mem (s : State) : s.waits.mem = s.mem := rfl
@[simp] theorem State.waits_memx (s : State) : s.waits.memx = s.memx := rfl
@[simp] theorem State.waits_sr (s : State) : s.waits.sr = s.sr := rfl
@[simp] theorem State.waits_keys (s : State) : s.waits.keys = s.keys := rfl
@[simp] theorem State.waits_tlb (s : State) : s.waits.tlb = s.tlb := rfl
@[simp] theorem State.waits_clusters (s : State) : s.waits.clusters = s.clusters := rfl
@[simp] theorem State.waits_nodes (s : State) : s.waits.nodes = s.nodes := rfl
@[simp] theorem State.waits_ports (s : State) : s.waits.ports = s.ports := rfl
@[simp] theorem State.waits_inbox (s : State) : s.waits.inbox = s.inbox := rfl
@[simp] theorem State.waits_routers (s : State) : s.waits.routers = s.routers := rfl
@[simp] theorem State.waits_links (s : State) : s.waits.links = s.links := rfl
@[simp] theorem State.waits_gates (s : State) : s.waits.gates = s.gates := rfl
@[simp] theorem State.waits_gateB (s : State) : s.waits.gateB = s.gateB := rfl
@[simp] theorem State.waits_gateWin (s : State) : s.waits.gateWin = s.gateWin := rfl
@[simp] theorem State.waits_sluice (s : State) : s.waits.sluice = s.sluice := rfl
@[simp] theorem State.waits_sluiceWin (s : State) : s.waits.sluiceWin = s.sluiceWin := rfl
@[simp] theorem State.waits_islands (s : State) : s.waits.islands = s.islands := rfl
@[simp] theorem State.waits_kernels (s : State) : s.waits.kernels = s.kernels := rfl
@[simp] theorem State.waits_queues (s : State) : s.waits.queues = s.queues := rfl
@[simp] theorem State.waits_recs (s : State) : s.waits.recs = s.recs := rfl
@[simp] theorem State.waits_inputs (s : State) : s.waits.inputs = s.inputs := rfl
@[simp] theorem State.waits_nv (s : State) : s.waits.nv = s.nv := rfl
@[simp] theorem State.waits_kvl (s : State) : s.waits.kvl = s.kvl := rfl
@[simp] theorem State.waits_dir (s : State) : s.waits.dir = s.dir := rfl
@[simp] theorem State.waits_faultSeq (s : State) : s.waits.faultSeq = s.faultSeq := rfl
@[simp] theorem State.waits_tinvs (s : State) : s.waits.tinvs = s.tinvs := rfl
@[simp] theorem State.waits_tinvNext (s : State) : s.waits.tinvNext = s.tinvNext := rfl
@[simp] theorem State.waits_tsyncs (s : State) : s.waits.tsyncs = s.tsyncs := rfl
@[simp] theorem State.waits_ksets (s : State) : s.waits.ksets = s.ksets := rfl
@[simp] theorem State.waits_tripped (s : State) : s.waits.tripped = s.tripped := rfl
@[simp] theorem State.waits_warm (s : State) : s.waits.warm = s.warm := rfl
@[simp] theorem State.waits_signed (s : State) : s.waits.signed = s.signed := rfl
@[simp] theorem State.waits_bar2 (s : State) : s.waits.bar2 = s.bar2 := rfl
@[simp] theorem State.waits_weirNext (s : State) : s.waits.weirNext = s.weirNext := rfl
@[simp] theorem State.waits_kernNext (s : State) : s.waits.kernNext = s.kernNext := rfl
@[simp] theorem State.waits_monQ (s : State) : s.waits.monQ = s.monQ := rfl
@[simp] theorem State.waits_cgrp (s : State) : s.waits.cgrp = s.cgrp := rfl
@[simp] theorem State.waits_collChip (s : State) : s.waits.collChip = s.collChip := rfl
@[simp] theorem State.waits_collBad (s : State) : s.waits.collBad = s.collBad := rfl

/-! ### srSet -/

@[simp] theorem srSet_now (s : State) (copy n : Nat) (v : W64) : (srSet s copy n v).now = s.now := rfl
@[simp] theorem srSet_sched (s : State) (copy n : Nat) (v : W64) : (srSet s copy n v).sched = s.sched := rfl
@[simp] theorem srSet_srSeen (s : State) (copy n : Nat) (v : W64) : (srSet s copy n v).srSeen = s.srSeen := rfl
@[simp] theorem srSet_farHolds (s : State) (copy n : Nat) (v : W64) : (srSet s copy n v).farHolds = s.farHolds := rfl
@[simp] theorem srSet_storNext (s : State) (copy n : Nat) (v : W64) : (srSet s copy n v).storNext = s.storNext := rfl
@[simp] theorem srSet_weirHold (s : State) (copy n : Nat) (v : W64) : (srSet s copy n v).weirHold = s.weirHold := rfl
@[simp] theorem srSet_mem (s : State) (copy n : Nat) (v : W64) : (srSet s copy n v).mem = s.mem := rfl
@[simp] theorem srSet_memx (s : State) (copy n : Nat) (v : W64) : (srSet s copy n v).memx = s.memx := rfl
@[simp] theorem srSet_keys (s : State) (copy n : Nat) (v : W64) : (srSet s copy n v).keys = s.keys := rfl
@[simp] theorem srSet_tlb (s : State) (copy n : Nat) (v : W64) : (srSet s copy n v).tlb = s.tlb := rfl
@[simp] theorem srSet_clusters (s : State) (copy n : Nat) (v : W64) : (srSet s copy n v).clusters = s.clusters := rfl
@[simp] theorem srSet_nodes (s : State) (copy n : Nat) (v : W64) : (srSet s copy n v).nodes = s.nodes := rfl
@[simp] theorem srSet_ports (s : State) (copy n : Nat) (v : W64) : (srSet s copy n v).ports = s.ports := rfl
@[simp] theorem srSet_inbox (s : State) (copy n : Nat) (v : W64) : (srSet s copy n v).inbox = s.inbox := rfl
@[simp] theorem srSet_routers (s : State) (copy n : Nat) (v : W64) : (srSet s copy n v).routers = s.routers := rfl
@[simp] theorem srSet_links (s : State) (copy n : Nat) (v : W64) : (srSet s copy n v).links = s.links := rfl
@[simp] theorem srSet_gates (s : State) (copy n : Nat) (v : W64) : (srSet s copy n v).gates = s.gates := rfl
@[simp] theorem srSet_gateB (s : State) (copy n : Nat) (v : W64) : (srSet s copy n v).gateB = s.gateB := rfl
@[simp] theorem srSet_gateWin (s : State) (copy n : Nat) (v : W64) : (srSet s copy n v).gateWin = s.gateWin := rfl
@[simp] theorem srSet_sluice (s : State) (copy n : Nat) (v : W64) : (srSet s copy n v).sluice = s.sluice := rfl
@[simp] theorem srSet_sluiceWin (s : State) (copy n : Nat) (v : W64) : (srSet s copy n v).sluiceWin = s.sluiceWin := rfl
@[simp] theorem srSet_islands (s : State) (copy n : Nat) (v : W64) : (srSet s copy n v).islands = s.islands := rfl
@[simp] theorem srSet_kernels (s : State) (copy n : Nat) (v : W64) : (srSet s copy n v).kernels = s.kernels := rfl
@[simp] theorem srSet_queues (s : State) (copy n : Nat) (v : W64) : (srSet s copy n v).queues = s.queues := rfl
@[simp] theorem srSet_recs (s : State) (copy n : Nat) (v : W64) : (srSet s copy n v).recs = s.recs := rfl
@[simp] theorem srSet_inputs (s : State) (copy n : Nat) (v : W64) : (srSet s copy n v).inputs = s.inputs := rfl
@[simp] theorem srSet_nv (s : State) (copy n : Nat) (v : W64) : (srSet s copy n v).nv = s.nv := rfl
@[simp] theorem srSet_kvl (s : State) (copy n : Nat) (v : W64) : (srSet s copy n v).kvl = s.kvl := rfl
@[simp] theorem srSet_dir (s : State) (copy n : Nat) (v : W64) : (srSet s copy n v).dir = s.dir := rfl
@[simp] theorem srSet_faultSeq (s : State) (copy n : Nat) (v : W64) : (srSet s copy n v).faultSeq = s.faultSeq := rfl
@[simp] theorem srSet_tinvs (s : State) (copy n : Nat) (v : W64) : (srSet s copy n v).tinvs = s.tinvs := rfl
@[simp] theorem srSet_tinvNext (s : State) (copy n : Nat) (v : W64) : (srSet s copy n v).tinvNext = s.tinvNext := rfl
@[simp] theorem srSet_tsyncs (s : State) (copy n : Nat) (v : W64) : (srSet s copy n v).tsyncs = s.tsyncs := rfl
@[simp] theorem srSet_ksets (s : State) (copy n : Nat) (v : W64) : (srSet s copy n v).ksets = s.ksets := rfl
@[simp] theorem srSet_tripped (s : State) (copy n : Nat) (v : W64) : (srSet s copy n v).tripped = s.tripped := rfl
@[simp] theorem srSet_warm (s : State) (copy n : Nat) (v : W64) : (srSet s copy n v).warm = s.warm := rfl
@[simp] theorem srSet_signed (s : State) (copy n : Nat) (v : W64) : (srSet s copy n v).signed = s.signed := rfl
@[simp] theorem srSet_bar2 (s : State) (copy n : Nat) (v : W64) : (srSet s copy n v).bar2 = s.bar2 := rfl
@[simp] theorem srSet_weirNext (s : State) (copy n : Nat) (v : W64) : (srSet s copy n v).weirNext = s.weirNext := rfl
@[simp] theorem srSet_kernNext (s : State) (copy n : Nat) (v : W64) : (srSet s copy n v).kernNext = s.kernNext := rfl
@[simp] theorem srSet_monQ (s : State) (copy n : Nat) (v : W64) : (srSet s copy n v).monQ = s.monQ := rfl
@[simp] theorem srSet_cgrp (s : State) (copy n : Nat) (v : W64) : (srSet s copy n v).cgrp = s.cgrp := rfl
@[simp] theorem srSet_collChip (s : State) (copy n : Nat) (v : W64) : (srSet s copy n v).collChip = s.collChip := rfl
@[simp] theorem srSet_collBad (s : State) (copy n : Nat) (v : W64) : (srSet s copy n v).collBad = s.collBad := rfl

/-! ### memPut -/

@[simp] theorem memPut_now (s : State) (k : Nat) (b : Byte) : (memPut s k b).now = s.now := rfl
@[simp] theorem memPut_sched (s : State) (k : Nat) (b : Byte) : (memPut s k b).sched = s.sched := rfl
@[simp] theorem memPut_srSeen (s : State) (k : Nat) (b : Byte) : (memPut s k b).srSeen = s.srSeen := rfl
@[simp] theorem memPut_farHolds (s : State) (k : Nat) (b : Byte) : (memPut s k b).farHolds = s.farHolds := rfl
@[simp] theorem memPut_storNext (s : State) (k : Nat) (b : Byte) : (memPut s k b).storNext = s.storNext := rfl
@[simp] theorem memPut_weirHold (s : State) (k : Nat) (b : Byte) : (memPut s k b).weirHold = s.weirHold := rfl
@[simp] theorem memPut_memx (s : State) (k : Nat) (b : Byte) : (memPut s k b).memx = s.memx := rfl
@[simp] theorem memPut_sr (s : State) (k : Nat) (b : Byte) : (memPut s k b).sr = s.sr := rfl
@[simp] theorem memPut_keys (s : State) (k : Nat) (b : Byte) : (memPut s k b).keys = s.keys := rfl
@[simp] theorem memPut_tlb (s : State) (k : Nat) (b : Byte) : (memPut s k b).tlb = s.tlb := rfl
@[simp] theorem memPut_clusters (s : State) (k : Nat) (b : Byte) : (memPut s k b).clusters = s.clusters := rfl
@[simp] theorem memPut_nodes (s : State) (k : Nat) (b : Byte) : (memPut s k b).nodes = s.nodes := rfl
@[simp] theorem memPut_ports (s : State) (k : Nat) (b : Byte) : (memPut s k b).ports = s.ports := rfl
@[simp] theorem memPut_inbox (s : State) (k : Nat) (b : Byte) : (memPut s k b).inbox = s.inbox := rfl
@[simp] theorem memPut_routers (s : State) (k : Nat) (b : Byte) : (memPut s k b).routers = s.routers := rfl
@[simp] theorem memPut_links (s : State) (k : Nat) (b : Byte) : (memPut s k b).links = s.links := rfl
@[simp] theorem memPut_gates (s : State) (k : Nat) (b : Byte) : (memPut s k b).gates = s.gates := rfl
@[simp] theorem memPut_gateB (s : State) (k : Nat) (b : Byte) : (memPut s k b).gateB = s.gateB := rfl
@[simp] theorem memPut_gateWin (s : State) (k : Nat) (b : Byte) : (memPut s k b).gateWin = s.gateWin := rfl
@[simp] theorem memPut_sluice (s : State) (k : Nat) (b : Byte) : (memPut s k b).sluice = s.sluice := rfl
@[simp] theorem memPut_sluiceWin (s : State) (k : Nat) (b : Byte) : (memPut s k b).sluiceWin = s.sluiceWin := rfl
@[simp] theorem memPut_islands (s : State) (k : Nat) (b : Byte) : (memPut s k b).islands = s.islands := rfl
@[simp] theorem memPut_kernels (s : State) (k : Nat) (b : Byte) : (memPut s k b).kernels = s.kernels := rfl
@[simp] theorem memPut_queues (s : State) (k : Nat) (b : Byte) : (memPut s k b).queues = s.queues := rfl
@[simp] theorem memPut_recs (s : State) (k : Nat) (b : Byte) : (memPut s k b).recs = s.recs := rfl
@[simp] theorem memPut_inputs (s : State) (k : Nat) (b : Byte) : (memPut s k b).inputs = s.inputs := rfl
@[simp] theorem memPut_nv (s : State) (k : Nat) (b : Byte) : (memPut s k b).nv = s.nv := rfl
@[simp] theorem memPut_kvl (s : State) (k : Nat) (b : Byte) : (memPut s k b).kvl = s.kvl := rfl
@[simp] theorem memPut_dir (s : State) (k : Nat) (b : Byte) : (memPut s k b).dir = s.dir := rfl
@[simp] theorem memPut_faultSeq (s : State) (k : Nat) (b : Byte) : (memPut s k b).faultSeq = s.faultSeq := rfl
@[simp] theorem memPut_tinvs (s : State) (k : Nat) (b : Byte) : (memPut s k b).tinvs = s.tinvs := rfl
@[simp] theorem memPut_tinvNext (s : State) (k : Nat) (b : Byte) : (memPut s k b).tinvNext = s.tinvNext := rfl
@[simp] theorem memPut_tsyncs (s : State) (k : Nat) (b : Byte) : (memPut s k b).tsyncs = s.tsyncs := rfl
@[simp] theorem memPut_ksets (s : State) (k : Nat) (b : Byte) : (memPut s k b).ksets = s.ksets := rfl
@[simp] theorem memPut_tripped (s : State) (k : Nat) (b : Byte) : (memPut s k b).tripped = s.tripped := rfl
@[simp] theorem memPut_warm (s : State) (k : Nat) (b : Byte) : (memPut s k b).warm = s.warm := rfl
@[simp] theorem memPut_signed (s : State) (k : Nat) (b : Byte) : (memPut s k b).signed = s.signed := rfl
@[simp] theorem memPut_bar2 (s : State) (k : Nat) (b : Byte) : (memPut s k b).bar2 = s.bar2 := rfl
@[simp] theorem memPut_weirNext (s : State) (k : Nat) (b : Byte) : (memPut s k b).weirNext = s.weirNext := rfl
@[simp] theorem memPut_kernNext (s : State) (k : Nat) (b : Byte) : (memPut s k b).kernNext = s.kernNext := rfl
@[simp] theorem memPut_monQ (s : State) (k : Nat) (b : Byte) : (memPut s k b).monQ = s.monQ := rfl
@[simp] theorem memPut_cgrp (s : State) (k : Nat) (b : Byte) : (memPut s k b).cgrp = s.cgrp := rfl
@[simp] theorem memPut_collChip (s : State) (k : Nat) (b : Byte) : (memPut s k b).collChip = s.collChip := rfl
@[simp] theorem memPut_collBad (s : State) (k : Nat) (b : Byte) : (memPut s k b).collBad = s.collBad := rfl

/-! ### modInv -/

@[simp] theorem State.modInv_now (s : State) (nk ws it : Nat) (f : Inv → Inv) : (s.modInv nk ws it f).now = s.now := rfl
@[simp] theorem State.modInv_sched (s : State) (nk ws it : Nat) (f : Inv → Inv) : (s.modInv nk ws it f).sched = s.sched := rfl
@[simp] theorem State.modInv_srSeen (s : State) (nk ws it : Nat) (f : Inv → Inv) : (s.modInv nk ws it f).srSeen = s.srSeen := rfl
@[simp] theorem State.modInv_farHolds (s : State) (nk ws it : Nat) (f : Inv → Inv) : (s.modInv nk ws it f).farHolds = s.farHolds := rfl
@[simp] theorem State.modInv_storNext (s : State) (nk ws it : Nat) (f : Inv → Inv) : (s.modInv nk ws it f).storNext = s.storNext := rfl
@[simp] theorem State.modInv_weirHold (s : State) (nk ws it : Nat) (f : Inv → Inv) : (s.modInv nk ws it f).weirHold = s.weirHold := rfl
@[simp] theorem State.modInv_mem (s : State) (nk ws it : Nat) (f : Inv → Inv) : (s.modInv nk ws it f).mem = s.mem := rfl
@[simp] theorem State.modInv_memx (s : State) (nk ws it : Nat) (f : Inv → Inv) : (s.modInv nk ws it f).memx = s.memx := rfl
@[simp] theorem State.modInv_sr (s : State) (nk ws it : Nat) (f : Inv → Inv) : (s.modInv nk ws it f).sr = s.sr := rfl
@[simp] theorem State.modInv_keys (s : State) (nk ws it : Nat) (f : Inv → Inv) : (s.modInv nk ws it f).keys = s.keys := rfl
@[simp] theorem State.modInv_tlb (s : State) (nk ws it : Nat) (f : Inv → Inv) : (s.modInv nk ws it f).tlb = s.tlb := rfl
@[simp] theorem State.modInv_clusters (s : State) (nk ws it : Nat) (f : Inv → Inv) : (s.modInv nk ws it f).clusters = s.clusters := rfl
@[simp] theorem State.modInv_ports (s : State) (nk ws it : Nat) (f : Inv → Inv) : (s.modInv nk ws it f).ports = s.ports := rfl
@[simp] theorem State.modInv_inbox (s : State) (nk ws it : Nat) (f : Inv → Inv) : (s.modInv nk ws it f).inbox = s.inbox := rfl
@[simp] theorem State.modInv_routers (s : State) (nk ws it : Nat) (f : Inv → Inv) : (s.modInv nk ws it f).routers = s.routers := rfl
@[simp] theorem State.modInv_links (s : State) (nk ws it : Nat) (f : Inv → Inv) : (s.modInv nk ws it f).links = s.links := rfl
@[simp] theorem State.modInv_gates (s : State) (nk ws it : Nat) (f : Inv → Inv) : (s.modInv nk ws it f).gates = s.gates := rfl
@[simp] theorem State.modInv_gateB (s : State) (nk ws it : Nat) (f : Inv → Inv) : (s.modInv nk ws it f).gateB = s.gateB := rfl
@[simp] theorem State.modInv_gateWin (s : State) (nk ws it : Nat) (f : Inv → Inv) : (s.modInv nk ws it f).gateWin = s.gateWin := rfl
@[simp] theorem State.modInv_sluice (s : State) (nk ws it : Nat) (f : Inv → Inv) : (s.modInv nk ws it f).sluice = s.sluice := rfl
@[simp] theorem State.modInv_sluiceWin (s : State) (nk ws it : Nat) (f : Inv → Inv) : (s.modInv nk ws it f).sluiceWin = s.sluiceWin := rfl
@[simp] theorem State.modInv_islands (s : State) (nk ws it : Nat) (f : Inv → Inv) : (s.modInv nk ws it f).islands = s.islands := rfl
@[simp] theorem State.modInv_kernels (s : State) (nk ws it : Nat) (f : Inv → Inv) : (s.modInv nk ws it f).kernels = s.kernels := rfl
@[simp] theorem State.modInv_queues (s : State) (nk ws it : Nat) (f : Inv → Inv) : (s.modInv nk ws it f).queues = s.queues := rfl
@[simp] theorem State.modInv_recs (s : State) (nk ws it : Nat) (f : Inv → Inv) : (s.modInv nk ws it f).recs = s.recs := rfl
@[simp] theorem State.modInv_inputs (s : State) (nk ws it : Nat) (f : Inv → Inv) : (s.modInv nk ws it f).inputs = s.inputs := rfl
@[simp] theorem State.modInv_nv (s : State) (nk ws it : Nat) (f : Inv → Inv) : (s.modInv nk ws it f).nv = s.nv := rfl
@[simp] theorem State.modInv_kvl (s : State) (nk ws it : Nat) (f : Inv → Inv) : (s.modInv nk ws it f).kvl = s.kvl := rfl
@[simp] theorem State.modInv_dir (s : State) (nk ws it : Nat) (f : Inv → Inv) : (s.modInv nk ws it f).dir = s.dir := rfl
@[simp] theorem State.modInv_faultSeq (s : State) (nk ws it : Nat) (f : Inv → Inv) : (s.modInv nk ws it f).faultSeq = s.faultSeq := rfl
@[simp] theorem State.modInv_tinvs (s : State) (nk ws it : Nat) (f : Inv → Inv) : (s.modInv nk ws it f).tinvs = s.tinvs := rfl
@[simp] theorem State.modInv_tinvNext (s : State) (nk ws it : Nat) (f : Inv → Inv) : (s.modInv nk ws it f).tinvNext = s.tinvNext := rfl
@[simp] theorem State.modInv_tsyncs (s : State) (nk ws it : Nat) (f : Inv → Inv) : (s.modInv nk ws it f).tsyncs = s.tsyncs := rfl
@[simp] theorem State.modInv_ksets (s : State) (nk ws it : Nat) (f : Inv → Inv) : (s.modInv nk ws it f).ksets = s.ksets := rfl
@[simp] theorem State.modInv_tripped (s : State) (nk ws it : Nat) (f : Inv → Inv) : (s.modInv nk ws it f).tripped = s.tripped := rfl
@[simp] theorem State.modInv_warm (s : State) (nk ws it : Nat) (f : Inv → Inv) : (s.modInv nk ws it f).warm = s.warm := rfl
@[simp] theorem State.modInv_signed (s : State) (nk ws it : Nat) (f : Inv → Inv) : (s.modInv nk ws it f).signed = s.signed := rfl
@[simp] theorem State.modInv_bar2 (s : State) (nk ws it : Nat) (f : Inv → Inv) : (s.modInv nk ws it f).bar2 = s.bar2 := rfl
@[simp] theorem State.modInv_weirNext (s : State) (nk ws it : Nat) (f : Inv → Inv) : (s.modInv nk ws it f).weirNext = s.weirNext := rfl
@[simp] theorem State.modInv_kernNext (s : State) (nk ws it : Nat) (f : Inv → Inv) : (s.modInv nk ws it f).kernNext = s.kernNext := rfl
@[simp] theorem State.modInv_monQ (s : State) (nk ws it : Nat) (f : Inv → Inv) : (s.modInv nk ws it f).monQ = s.monQ := rfl
@[simp] theorem State.modInv_cgrp (s : State) (nk ws it : Nat) (f : Inv → Inv) : (s.modInv nk ws it f).cgrp = s.cgrp := rfl
@[simp] theorem State.modInv_collChip (s : State) (nk ws it : Nat) (f : Inv → Inv) : (s.modInv nk ws it f).collChip = s.collChip := rfl
@[simp] theorem State.modInv_collBad (s : State) (nk ws it : Nat) (f : Inv → Inv) : (s.modInv nk ws it f).collBad = s.collBad := rfl

/-! ### pushTok -/

@[simp] theorem State.pushTok_now (s : State) (c : Nat) (t : Tok) : (s.pushTok c t).now = s.now := rfl
@[simp] theorem State.pushTok_sched (s : State) (c : Nat) (t : Tok) : (s.pushTok c t).sched = s.sched := rfl
@[simp] theorem State.pushTok_srSeen (s : State) (c : Nat) (t : Tok) : (s.pushTok c t).srSeen = s.srSeen := rfl
@[simp] theorem State.pushTok_farHolds (s : State) (c : Nat) (t : Tok) : (s.pushTok c t).farHolds = s.farHolds := rfl
@[simp] theorem State.pushTok_storNext (s : State) (c : Nat) (t : Tok) : (s.pushTok c t).storNext = s.storNext := rfl
@[simp] theorem State.pushTok_weirHold (s : State) (c : Nat) (t : Tok) : (s.pushTok c t).weirHold = s.weirHold := rfl
@[simp] theorem State.pushTok_mem (s : State) (c : Nat) (t : Tok) : (s.pushTok c t).mem = s.mem := rfl
@[simp] theorem State.pushTok_memx (s : State) (c : Nat) (t : Tok) : (s.pushTok c t).memx = s.memx := rfl
@[simp] theorem State.pushTok_sr (s : State) (c : Nat) (t : Tok) : (s.pushTok c t).sr = s.sr := rfl
@[simp] theorem State.pushTok_keys (s : State) (c : Nat) (t : Tok) : (s.pushTok c t).keys = s.keys := rfl
@[simp] theorem State.pushTok_tlb (s : State) (c : Nat) (t : Tok) : (s.pushTok c t).tlb = s.tlb := rfl
@[simp] theorem State.pushTok_nodes (s : State) (c : Nat) (t : Tok) : (s.pushTok c t).nodes = s.nodes := rfl
@[simp] theorem State.pushTok_ports (s : State) (c : Nat) (t : Tok) : (s.pushTok c t).ports = s.ports := rfl
@[simp] theorem State.pushTok_inbox (s : State) (c : Nat) (t : Tok) : (s.pushTok c t).inbox = s.inbox := rfl
@[simp] theorem State.pushTok_routers (s : State) (c : Nat) (t : Tok) : (s.pushTok c t).routers = s.routers := rfl
@[simp] theorem State.pushTok_links (s : State) (c : Nat) (t : Tok) : (s.pushTok c t).links = s.links := rfl
@[simp] theorem State.pushTok_gates (s : State) (c : Nat) (t : Tok) : (s.pushTok c t).gates = s.gates := rfl
@[simp] theorem State.pushTok_gateB (s : State) (c : Nat) (t : Tok) : (s.pushTok c t).gateB = s.gateB := rfl
@[simp] theorem State.pushTok_gateWin (s : State) (c : Nat) (t : Tok) : (s.pushTok c t).gateWin = s.gateWin := rfl
@[simp] theorem State.pushTok_sluice (s : State) (c : Nat) (t : Tok) : (s.pushTok c t).sluice = s.sluice := rfl
@[simp] theorem State.pushTok_sluiceWin (s : State) (c : Nat) (t : Tok) : (s.pushTok c t).sluiceWin = s.sluiceWin := rfl
@[simp] theorem State.pushTok_islands (s : State) (c : Nat) (t : Tok) : (s.pushTok c t).islands = s.islands := rfl
@[simp] theorem State.pushTok_kernels (s : State) (c : Nat) (t : Tok) : (s.pushTok c t).kernels = s.kernels := rfl
@[simp] theorem State.pushTok_queues (s : State) (c : Nat) (t : Tok) : (s.pushTok c t).queues = s.queues := rfl
@[simp] theorem State.pushTok_recs (s : State) (c : Nat) (t : Tok) : (s.pushTok c t).recs = s.recs := rfl
@[simp] theorem State.pushTok_inputs (s : State) (c : Nat) (t : Tok) : (s.pushTok c t).inputs = s.inputs := rfl
@[simp] theorem State.pushTok_nv (s : State) (c : Nat) (t : Tok) : (s.pushTok c t).nv = s.nv := rfl
@[simp] theorem State.pushTok_kvl (s : State) (c : Nat) (t : Tok) : (s.pushTok c t).kvl = s.kvl := rfl
@[simp] theorem State.pushTok_dir (s : State) (c : Nat) (t : Tok) : (s.pushTok c t).dir = s.dir := rfl
@[simp] theorem State.pushTok_faultSeq (s : State) (c : Nat) (t : Tok) : (s.pushTok c t).faultSeq = s.faultSeq := rfl
@[simp] theorem State.pushTok_tinvs (s : State) (c : Nat) (t : Tok) : (s.pushTok c t).tinvs = s.tinvs := rfl
@[simp] theorem State.pushTok_tinvNext (s : State) (c : Nat) (t : Tok) : (s.pushTok c t).tinvNext = s.tinvNext := rfl
@[simp] theorem State.pushTok_tsyncs (s : State) (c : Nat) (t : Tok) : (s.pushTok c t).tsyncs = s.tsyncs := rfl
@[simp] theorem State.pushTok_ksets (s : State) (c : Nat) (t : Tok) : (s.pushTok c t).ksets = s.ksets := rfl
@[simp] theorem State.pushTok_tripped (s : State) (c : Nat) (t : Tok) : (s.pushTok c t).tripped = s.tripped := rfl
@[simp] theorem State.pushTok_warm (s : State) (c : Nat) (t : Tok) : (s.pushTok c t).warm = s.warm := rfl
@[simp] theorem State.pushTok_signed (s : State) (c : Nat) (t : Tok) : (s.pushTok c t).signed = s.signed := rfl
@[simp] theorem State.pushTok_bar2 (s : State) (c : Nat) (t : Tok) : (s.pushTok c t).bar2 = s.bar2 := rfl
@[simp] theorem State.pushTok_weirNext (s : State) (c : Nat) (t : Tok) : (s.pushTok c t).weirNext = s.weirNext := rfl
@[simp] theorem State.pushTok_kernNext (s : State) (c : Nat) (t : Tok) : (s.pushTok c t).kernNext = s.kernNext := rfl
@[simp] theorem State.pushTok_monQ (s : State) (c : Nat) (t : Tok) : (s.pushTok c t).monQ = s.monQ := rfl
@[simp] theorem State.pushTok_cgrp (s : State) (c : Nat) (t : Tok) : (s.pushTok c t).cgrp = s.cgrp := rfl
@[simp] theorem State.pushTok_collChip (s : State) (c : Nat) (t : Tok) : (s.pushTok c t).collChip = s.collChip := rfl
@[simp] theorem State.pushTok_collBad (s : State) (c : Nat) (t : Tok) : (s.pushTok c t).collBad = s.collBad := rfl

/-! ### sendSlot -/

@[simp] theorem State.sendSlot_now (s : State) (c p ix ws it : Nat) (pt : Port) (kd : Kd) (o : Opnd) : (s.sendSlot c p ix ws it pt kd o).now = s.now := rfl
@[simp] theorem State.sendSlot_sched (s : State) (c p ix ws it : Nat) (pt : Port) (kd : Kd) (o : Opnd) : (s.sendSlot c p ix ws it pt kd o).sched = s.sched := rfl
@[simp] theorem State.sendSlot_srSeen (s : State) (c p ix ws it : Nat) (pt : Port) (kd : Kd) (o : Opnd) : (s.sendSlot c p ix ws it pt kd o).srSeen = s.srSeen := rfl
@[simp] theorem State.sendSlot_farHolds (s : State) (c p ix ws it : Nat) (pt : Port) (kd : Kd) (o : Opnd) : (s.sendSlot c p ix ws it pt kd o).farHolds = s.farHolds := rfl
@[simp] theorem State.sendSlot_storNext (s : State) (c p ix ws it : Nat) (pt : Port) (kd : Kd) (o : Opnd) : (s.sendSlot c p ix ws it pt kd o).storNext = s.storNext := rfl
@[simp] theorem State.sendSlot_weirHold (s : State) (c p ix ws it : Nat) (pt : Port) (kd : Kd) (o : Opnd) : (s.sendSlot c p ix ws it pt kd o).weirHold = s.weirHold := rfl
@[simp] theorem State.sendSlot_mem (s : State) (c p ix ws it : Nat) (pt : Port) (kd : Kd) (o : Opnd) : (s.sendSlot c p ix ws it pt kd o).mem = s.mem := rfl
@[simp] theorem State.sendSlot_memx (s : State) (c p ix ws it : Nat) (pt : Port) (kd : Kd) (o : Opnd) : (s.sendSlot c p ix ws it pt kd o).memx = s.memx := rfl
@[simp] theorem State.sendSlot_sr (s : State) (c p ix ws it : Nat) (pt : Port) (kd : Kd) (o : Opnd) : (s.sendSlot c p ix ws it pt kd o).sr = s.sr := rfl
@[simp] theorem State.sendSlot_keys (s : State) (c p ix ws it : Nat) (pt : Port) (kd : Kd) (o : Opnd) : (s.sendSlot c p ix ws it pt kd o).keys = s.keys := rfl
@[simp] theorem State.sendSlot_tlb (s : State) (c p ix ws it : Nat) (pt : Port) (kd : Kd) (o : Opnd) : (s.sendSlot c p ix ws it pt kd o).tlb = s.tlb := rfl
@[simp] theorem State.sendSlot_nodes (s : State) (c p ix ws it : Nat) (pt : Port) (kd : Kd) (o : Opnd) : (s.sendSlot c p ix ws it pt kd o).nodes = s.nodes := rfl
@[simp] theorem State.sendSlot_ports (s : State) (c p ix ws it : Nat) (pt : Port) (kd : Kd) (o : Opnd) : (s.sendSlot c p ix ws it pt kd o).ports = s.ports := rfl
@[simp] theorem State.sendSlot_inbox (s : State) (c p ix ws it : Nat) (pt : Port) (kd : Kd) (o : Opnd) : (s.sendSlot c p ix ws it pt kd o).inbox = s.inbox := rfl
@[simp] theorem State.sendSlot_routers (s : State) (c p ix ws it : Nat) (pt : Port) (kd : Kd) (o : Opnd) : (s.sendSlot c p ix ws it pt kd o).routers = s.routers := rfl
@[simp] theorem State.sendSlot_links (s : State) (c p ix ws it : Nat) (pt : Port) (kd : Kd) (o : Opnd) : (s.sendSlot c p ix ws it pt kd o).links = s.links := rfl
@[simp] theorem State.sendSlot_gates (s : State) (c p ix ws it : Nat) (pt : Port) (kd : Kd) (o : Opnd) : (s.sendSlot c p ix ws it pt kd o).gates = s.gates := rfl
@[simp] theorem State.sendSlot_gateB (s : State) (c p ix ws it : Nat) (pt : Port) (kd : Kd) (o : Opnd) : (s.sendSlot c p ix ws it pt kd o).gateB = s.gateB := rfl
@[simp] theorem State.sendSlot_gateWin (s : State) (c p ix ws it : Nat) (pt : Port) (kd : Kd) (o : Opnd) : (s.sendSlot c p ix ws it pt kd o).gateWin = s.gateWin := rfl
@[simp] theorem State.sendSlot_sluice (s : State) (c p ix ws it : Nat) (pt : Port) (kd : Kd) (o : Opnd) : (s.sendSlot c p ix ws it pt kd o).sluice = s.sluice := rfl
@[simp] theorem State.sendSlot_sluiceWin (s : State) (c p ix ws it : Nat) (pt : Port) (kd : Kd) (o : Opnd) : (s.sendSlot c p ix ws it pt kd o).sluiceWin = s.sluiceWin := rfl
@[simp] theorem State.sendSlot_islands (s : State) (c p ix ws it : Nat) (pt : Port) (kd : Kd) (o : Opnd) : (s.sendSlot c p ix ws it pt kd o).islands = s.islands := rfl
@[simp] theorem State.sendSlot_kernels (s : State) (c p ix ws it : Nat) (pt : Port) (kd : Kd) (o : Opnd) : (s.sendSlot c p ix ws it pt kd o).kernels = s.kernels := rfl
@[simp] theorem State.sendSlot_queues (s : State) (c p ix ws it : Nat) (pt : Port) (kd : Kd) (o : Opnd) : (s.sendSlot c p ix ws it pt kd o).queues = s.queues := rfl
@[simp] theorem State.sendSlot_recs (s : State) (c p ix ws it : Nat) (pt : Port) (kd : Kd) (o : Opnd) : (s.sendSlot c p ix ws it pt kd o).recs = s.recs := rfl
@[simp] theorem State.sendSlot_inputs (s : State) (c p ix ws it : Nat) (pt : Port) (kd : Kd) (o : Opnd) : (s.sendSlot c p ix ws it pt kd o).inputs = s.inputs := rfl
@[simp] theorem State.sendSlot_nv (s : State) (c p ix ws it : Nat) (pt : Port) (kd : Kd) (o : Opnd) : (s.sendSlot c p ix ws it pt kd o).nv = s.nv := rfl
@[simp] theorem State.sendSlot_kvl (s : State) (c p ix ws it : Nat) (pt : Port) (kd : Kd) (o : Opnd) : (s.sendSlot c p ix ws it pt kd o).kvl = s.kvl := rfl
@[simp] theorem State.sendSlot_dir (s : State) (c p ix ws it : Nat) (pt : Port) (kd : Kd) (o : Opnd) : (s.sendSlot c p ix ws it pt kd o).dir = s.dir := rfl
@[simp] theorem State.sendSlot_faultSeq (s : State) (c p ix ws it : Nat) (pt : Port) (kd : Kd) (o : Opnd) : (s.sendSlot c p ix ws it pt kd o).faultSeq = s.faultSeq := rfl
@[simp] theorem State.sendSlot_tinvs (s : State) (c p ix ws it : Nat) (pt : Port) (kd : Kd) (o : Opnd) : (s.sendSlot c p ix ws it pt kd o).tinvs = s.tinvs := rfl
@[simp] theorem State.sendSlot_tinvNext (s : State) (c p ix ws it : Nat) (pt : Port) (kd : Kd) (o : Opnd) : (s.sendSlot c p ix ws it pt kd o).tinvNext = s.tinvNext := rfl
@[simp] theorem State.sendSlot_tsyncs (s : State) (c p ix ws it : Nat) (pt : Port) (kd : Kd) (o : Opnd) : (s.sendSlot c p ix ws it pt kd o).tsyncs = s.tsyncs := rfl
@[simp] theorem State.sendSlot_ksets (s : State) (c p ix ws it : Nat) (pt : Port) (kd : Kd) (o : Opnd) : (s.sendSlot c p ix ws it pt kd o).ksets = s.ksets := rfl
@[simp] theorem State.sendSlot_tripped (s : State) (c p ix ws it : Nat) (pt : Port) (kd : Kd) (o : Opnd) : (s.sendSlot c p ix ws it pt kd o).tripped = s.tripped := rfl
@[simp] theorem State.sendSlot_warm (s : State) (c p ix ws it : Nat) (pt : Port) (kd : Kd) (o : Opnd) : (s.sendSlot c p ix ws it pt kd o).warm = s.warm := rfl
@[simp] theorem State.sendSlot_signed (s : State) (c p ix ws it : Nat) (pt : Port) (kd : Kd) (o : Opnd) : (s.sendSlot c p ix ws it pt kd o).signed = s.signed := rfl
@[simp] theorem State.sendSlot_bar2 (s : State) (c p ix ws it : Nat) (pt : Port) (kd : Kd) (o : Opnd) : (s.sendSlot c p ix ws it pt kd o).bar2 = s.bar2 := rfl
@[simp] theorem State.sendSlot_weirNext (s : State) (c p ix ws it : Nat) (pt : Port) (kd : Kd) (o : Opnd) : (s.sendSlot c p ix ws it pt kd o).weirNext = s.weirNext := rfl
@[simp] theorem State.sendSlot_kernNext (s : State) (c p ix ws it : Nat) (pt : Port) (kd : Kd) (o : Opnd) : (s.sendSlot c p ix ws it pt kd o).kernNext = s.kernNext := rfl
@[simp] theorem State.sendSlot_monQ (s : State) (c p ix ws it : Nat) (pt : Port) (kd : Kd) (o : Opnd) : (s.sendSlot c p ix ws it pt kd o).monQ = s.monQ := rfl
@[simp] theorem State.sendSlot_cgrp (s : State) (c p ix ws it : Nat) (pt : Port) (kd : Kd) (o : Opnd) : (s.sendSlot c p ix ws it pt kd o).cgrp = s.cgrp := rfl
@[simp] theorem State.sendSlot_collChip (s : State) (c p ix ws it : Nat) (pt : Port) (kd : Kd) (o : Opnd) : (s.sendSlot c p ix ws it pt kd o).collChip = s.collChip := rfl
@[simp] theorem State.sendSlot_collBad (s : State) (c p ix ws it : Nat) (pt : Port) (kd : Kd) (o : Opnd) : (s.sendSlot c p ix ws it pt kd o).collBad = s.collBad := rfl

/-! ### report -/

@[simp] theorem State.report_now (s : State) (i : Issue) (b : Bool) : (s.report i b).now = s.now := rfl
@[simp] theorem State.report_sched (s : State) (i : Issue) (b : Bool) : (s.report i b).sched = s.sched := rfl
@[simp] theorem State.report_srSeen (s : State) (i : Issue) (b : Bool) : (s.report i b).srSeen = s.srSeen := rfl
@[simp] theorem State.report_farHolds (s : State) (i : Issue) (b : Bool) : (s.report i b).farHolds = s.farHolds := rfl
@[simp] theorem State.report_storNext (s : State) (i : Issue) (b : Bool) : (s.report i b).storNext = s.storNext := rfl
@[simp] theorem State.report_weirHold (s : State) (i : Issue) (b : Bool) : (s.report i b).weirHold = s.weirHold := rfl
@[simp] theorem State.report_mem (s : State) (i : Issue) (b : Bool) : (s.report i b).mem = s.mem := rfl
@[simp] theorem State.report_memx (s : State) (i : Issue) (b : Bool) : (s.report i b).memx = s.memx := rfl
@[simp] theorem State.report_sr (s : State) (i : Issue) (b : Bool) : (s.report i b).sr = s.sr := rfl
@[simp] theorem State.report_keys (s : State) (i : Issue) (b : Bool) : (s.report i b).keys = s.keys := rfl
@[simp] theorem State.report_tlb (s : State) (i : Issue) (b : Bool) : (s.report i b).tlb = s.tlb := rfl
@[simp] theorem State.report_clusters (s : State) (i : Issue) (b : Bool) : (s.report i b).clusters = s.clusters := rfl
@[simp] theorem State.report_ports (s : State) (i : Issue) (b : Bool) : (s.report i b).ports = s.ports := rfl
@[simp] theorem State.report_inbox (s : State) (i : Issue) (b : Bool) : (s.report i b).inbox = s.inbox := rfl
@[simp] theorem State.report_routers (s : State) (i : Issue) (b : Bool) : (s.report i b).routers = s.routers := rfl
@[simp] theorem State.report_links (s : State) (i : Issue) (b : Bool) : (s.report i b).links = s.links := rfl
@[simp] theorem State.report_gates (s : State) (i : Issue) (b : Bool) : (s.report i b).gates = s.gates := rfl
@[simp] theorem State.report_gateB (s : State) (i : Issue) (b : Bool) : (s.report i b).gateB = s.gateB := rfl
@[simp] theorem State.report_gateWin (s : State) (i : Issue) (b : Bool) : (s.report i b).gateWin = s.gateWin := rfl
@[simp] theorem State.report_sluice (s : State) (i : Issue) (b : Bool) : (s.report i b).sluice = s.sluice := rfl
@[simp] theorem State.report_sluiceWin (s : State) (i : Issue) (b : Bool) : (s.report i b).sluiceWin = s.sluiceWin := rfl
@[simp] theorem State.report_islands (s : State) (i : Issue) (b : Bool) : (s.report i b).islands = s.islands := rfl
@[simp] theorem State.report_kernels (s : State) (i : Issue) (b : Bool) : (s.report i b).kernels = s.kernels := rfl
@[simp] theorem State.report_queues (s : State) (i : Issue) (b : Bool) : (s.report i b).queues = s.queues := rfl
@[simp] theorem State.report_recs (s : State) (i : Issue) (b : Bool) : (s.report i b).recs = s.recs := rfl
@[simp] theorem State.report_inputs (s : State) (i : Issue) (b : Bool) : (s.report i b).inputs = s.inputs := rfl
@[simp] theorem State.report_nv (s : State) (i : Issue) (b : Bool) : (s.report i b).nv = s.nv := rfl
@[simp] theorem State.report_kvl (s : State) (i : Issue) (b : Bool) : (s.report i b).kvl = s.kvl := rfl
@[simp] theorem State.report_dir (s : State) (i : Issue) (b : Bool) : (s.report i b).dir = s.dir := rfl
@[simp] theorem State.report_faultSeq (s : State) (i : Issue) (b : Bool) : (s.report i b).faultSeq = s.faultSeq := rfl
@[simp] theorem State.report_tinvs (s : State) (i : Issue) (b : Bool) : (s.report i b).tinvs = s.tinvs := rfl
@[simp] theorem State.report_tinvNext (s : State) (i : Issue) (b : Bool) : (s.report i b).tinvNext = s.tinvNext := rfl
@[simp] theorem State.report_tsyncs (s : State) (i : Issue) (b : Bool) : (s.report i b).tsyncs = s.tsyncs := rfl
@[simp] theorem State.report_ksets (s : State) (i : Issue) (b : Bool) : (s.report i b).ksets = s.ksets := rfl
@[simp] theorem State.report_tripped (s : State) (i : Issue) (b : Bool) : (s.report i b).tripped = s.tripped := rfl
@[simp] theorem State.report_warm (s : State) (i : Issue) (b : Bool) : (s.report i b).warm = s.warm := rfl
@[simp] theorem State.report_signed (s : State) (i : Issue) (b : Bool) : (s.report i b).signed = s.signed := rfl
@[simp] theorem State.report_bar2 (s : State) (i : Issue) (b : Bool) : (s.report i b).bar2 = s.bar2 := rfl
@[simp] theorem State.report_weirNext (s : State) (i : Issue) (b : Bool) : (s.report i b).weirNext = s.weirNext := rfl
@[simp] theorem State.report_kernNext (s : State) (i : Issue) (b : Bool) : (s.report i b).kernNext = s.kernNext := rfl
@[simp] theorem State.report_monQ (s : State) (i : Issue) (b : Bool) : (s.report i b).monQ = s.monQ := rfl
@[simp] theorem State.report_cgrp (s : State) (i : Issue) (b : Bool) : (s.report i b).cgrp = s.cgrp := rfl
@[simp] theorem State.report_collChip (s : State) (i : Issue) (b : Bool) : (s.report i b).collChip = s.collChip := rfl
@[simp] theorem State.report_collBad (s : State) (i : Issue) (b : Bool) : (s.report i b).collBad = s.collBad := rfl

/-! ### hold -/

@[simp] theorem State.hold_now (s : State) (i : Issue) (h : Held) : (s.hold i h).now = s.now := rfl
@[simp] theorem State.hold_sched (s : State) (i : Issue) (h : Held) : (s.hold i h).sched = s.sched := rfl
@[simp] theorem State.hold_srSeen (s : State) (i : Issue) (h : Held) : (s.hold i h).srSeen = s.srSeen := rfl
@[simp] theorem State.hold_farHolds (s : State) (i : Issue) (h : Held) : (s.hold i h).farHolds = s.farHolds := rfl
@[simp] theorem State.hold_storNext (s : State) (i : Issue) (h : Held) : (s.hold i h).storNext = s.storNext := rfl
@[simp] theorem State.hold_weirHold (s : State) (i : Issue) (h : Held) : (s.hold i h).weirHold = s.weirHold := rfl
@[simp] theorem State.hold_mem (s : State) (i : Issue) (h : Held) : (s.hold i h).mem = s.mem := rfl
@[simp] theorem State.hold_memx (s : State) (i : Issue) (h : Held) : (s.hold i h).memx = s.memx := rfl
@[simp] theorem State.hold_sr (s : State) (i : Issue) (h : Held) : (s.hold i h).sr = s.sr := rfl
@[simp] theorem State.hold_keys (s : State) (i : Issue) (h : Held) : (s.hold i h).keys = s.keys := rfl
@[simp] theorem State.hold_tlb (s : State) (i : Issue) (h : Held) : (s.hold i h).tlb = s.tlb := rfl
@[simp] theorem State.hold_clusters (s : State) (i : Issue) (h : Held) : (s.hold i h).clusters = s.clusters := rfl
@[simp] theorem State.hold_ports (s : State) (i : Issue) (h : Held) : (s.hold i h).ports = s.ports := rfl
@[simp] theorem State.hold_inbox (s : State) (i : Issue) (h : Held) : (s.hold i h).inbox = s.inbox := rfl
@[simp] theorem State.hold_routers (s : State) (i : Issue) (h : Held) : (s.hold i h).routers = s.routers := rfl
@[simp] theorem State.hold_links (s : State) (i : Issue) (h : Held) : (s.hold i h).links = s.links := rfl
@[simp] theorem State.hold_gates (s : State) (i : Issue) (h : Held) : (s.hold i h).gates = s.gates := rfl
@[simp] theorem State.hold_gateB (s : State) (i : Issue) (h : Held) : (s.hold i h).gateB = s.gateB := rfl
@[simp] theorem State.hold_gateWin (s : State) (i : Issue) (h : Held) : (s.hold i h).gateWin = s.gateWin := rfl
@[simp] theorem State.hold_sluice (s : State) (i : Issue) (h : Held) : (s.hold i h).sluice = s.sluice := rfl
@[simp] theorem State.hold_sluiceWin (s : State) (i : Issue) (h : Held) : (s.hold i h).sluiceWin = s.sluiceWin := rfl
@[simp] theorem State.hold_islands (s : State) (i : Issue) (h : Held) : (s.hold i h).islands = s.islands := rfl
@[simp] theorem State.hold_kernels (s : State) (i : Issue) (h : Held) : (s.hold i h).kernels = s.kernels := rfl
@[simp] theorem State.hold_queues (s : State) (i : Issue) (h : Held) : (s.hold i h).queues = s.queues := rfl
@[simp] theorem State.hold_recs (s : State) (i : Issue) (h : Held) : (s.hold i h).recs = s.recs := rfl
@[simp] theorem State.hold_inputs (s : State) (i : Issue) (h : Held) : (s.hold i h).inputs = s.inputs := rfl
@[simp] theorem State.hold_nv (s : State) (i : Issue) (h : Held) : (s.hold i h).nv = s.nv := rfl
@[simp] theorem State.hold_kvl (s : State) (i : Issue) (h : Held) : (s.hold i h).kvl = s.kvl := rfl
@[simp] theorem State.hold_dir (s : State) (i : Issue) (h : Held) : (s.hold i h).dir = s.dir := rfl
@[simp] theorem State.hold_faultSeq (s : State) (i : Issue) (h : Held) : (s.hold i h).faultSeq = s.faultSeq := rfl
@[simp] theorem State.hold_tinvs (s : State) (i : Issue) (h : Held) : (s.hold i h).tinvs = s.tinvs := rfl
@[simp] theorem State.hold_tinvNext (s : State) (i : Issue) (h : Held) : (s.hold i h).tinvNext = s.tinvNext := rfl
@[simp] theorem State.hold_tsyncs (s : State) (i : Issue) (h : Held) : (s.hold i h).tsyncs = s.tsyncs := rfl
@[simp] theorem State.hold_ksets (s : State) (i : Issue) (h : Held) : (s.hold i h).ksets = s.ksets := rfl
@[simp] theorem State.hold_tripped (s : State) (i : Issue) (h : Held) : (s.hold i h).tripped = s.tripped := rfl
@[simp] theorem State.hold_warm (s : State) (i : Issue) (h : Held) : (s.hold i h).warm = s.warm := rfl
@[simp] theorem State.hold_signed (s : State) (i : Issue) (h : Held) : (s.hold i h).signed = s.signed := rfl
@[simp] theorem State.hold_bar2 (s : State) (i : Issue) (h : Held) : (s.hold i h).bar2 = s.bar2 := rfl
@[simp] theorem State.hold_weirNext (s : State) (i : Issue) (h : Held) : (s.hold i h).weirNext = s.weirNext := rfl
@[simp] theorem State.hold_kernNext (s : State) (i : Issue) (h : Held) : (s.hold i h).kernNext = s.kernNext := rfl
@[simp] theorem State.hold_monQ (s : State) (i : Issue) (h : Held) : (s.hold i h).monQ = s.monQ := rfl
@[simp] theorem State.hold_cgrp (s : State) (i : Issue) (h : Held) : (s.hold i h).cgrp = s.cgrp := rfl
@[simp] theorem State.hold_collChip (s : State) (i : Issue) (h : Held) : (s.hold i h).collChip = s.collChip := rfl
@[simp] theorem State.hold_collBad (s : State) (i : Issue) (h : Held) : (s.hold i h).collBad = s.collBad := rfl

/-! ### raise -/

@[simp] theorem State.raise_now (s : State) (nk : Nat) (f : Pending) : (s.raise nk f).now = s.now := rfl
@[simp] theorem State.raise_sched (s : State) (nk : Nat) (f : Pending) : (s.raise nk f).sched = s.sched := rfl
@[simp] theorem State.raise_srSeen (s : State) (nk : Nat) (f : Pending) : (s.raise nk f).srSeen = s.srSeen := rfl
@[simp] theorem State.raise_farHolds (s : State) (nk : Nat) (f : Pending) : (s.raise nk f).farHolds = s.farHolds := rfl
@[simp] theorem State.raise_storNext (s : State) (nk : Nat) (f : Pending) : (s.raise nk f).storNext = s.storNext := rfl
@[simp] theorem State.raise_weirHold (s : State) (nk : Nat) (f : Pending) : (s.raise nk f).weirHold = s.weirHold := rfl
@[simp] theorem State.raise_mem (s : State) (nk : Nat) (f : Pending) : (s.raise nk f).mem = s.mem := rfl
@[simp] theorem State.raise_memx (s : State) (nk : Nat) (f : Pending) : (s.raise nk f).memx = s.memx := rfl
@[simp] theorem State.raise_sr (s : State) (nk : Nat) (f : Pending) : (s.raise nk f).sr = s.sr := rfl
@[simp] theorem State.raise_keys (s : State) (nk : Nat) (f : Pending) : (s.raise nk f).keys = s.keys := rfl
@[simp] theorem State.raise_tlb (s : State) (nk : Nat) (f : Pending) : (s.raise nk f).tlb = s.tlb := rfl
@[simp] theorem State.raise_clusters (s : State) (nk : Nat) (f : Pending) : (s.raise nk f).clusters = s.clusters := rfl
@[simp] theorem State.raise_ports (s : State) (nk : Nat) (f : Pending) : (s.raise nk f).ports = s.ports := rfl
@[simp] theorem State.raise_inbox (s : State) (nk : Nat) (f : Pending) : (s.raise nk f).inbox = s.inbox := rfl
@[simp] theorem State.raise_routers (s : State) (nk : Nat) (f : Pending) : (s.raise nk f).routers = s.routers := rfl
@[simp] theorem State.raise_links (s : State) (nk : Nat) (f : Pending) : (s.raise nk f).links = s.links := rfl
@[simp] theorem State.raise_gates (s : State) (nk : Nat) (f : Pending) : (s.raise nk f).gates = s.gates := rfl
@[simp] theorem State.raise_gateB (s : State) (nk : Nat) (f : Pending) : (s.raise nk f).gateB = s.gateB := rfl
@[simp] theorem State.raise_gateWin (s : State) (nk : Nat) (f : Pending) : (s.raise nk f).gateWin = s.gateWin := rfl
@[simp] theorem State.raise_sluice (s : State) (nk : Nat) (f : Pending) : (s.raise nk f).sluice = s.sluice := rfl
@[simp] theorem State.raise_sluiceWin (s : State) (nk : Nat) (f : Pending) : (s.raise nk f).sluiceWin = s.sluiceWin := rfl
@[simp] theorem State.raise_islands (s : State) (nk : Nat) (f : Pending) : (s.raise nk f).islands = s.islands := rfl
@[simp] theorem State.raise_kernels (s : State) (nk : Nat) (f : Pending) : (s.raise nk f).kernels = s.kernels := rfl
@[simp] theorem State.raise_queues (s : State) (nk : Nat) (f : Pending) : (s.raise nk f).queues = s.queues := rfl
@[simp] theorem State.raise_recs (s : State) (nk : Nat) (f : Pending) : (s.raise nk f).recs = s.recs := rfl
@[simp] theorem State.raise_inputs (s : State) (nk : Nat) (f : Pending) : (s.raise nk f).inputs = s.inputs := rfl
@[simp] theorem State.raise_nv (s : State) (nk : Nat) (f : Pending) : (s.raise nk f).nv = s.nv := rfl
@[simp] theorem State.raise_kvl (s : State) (nk : Nat) (f : Pending) : (s.raise nk f).kvl = s.kvl := rfl
@[simp] theorem State.raise_dir (s : State) (nk : Nat) (f : Pending) : (s.raise nk f).dir = s.dir := rfl
@[simp] theorem State.raise_faultSeq (s : State) (nk : Nat) (f : Pending) : (s.raise nk f).faultSeq = s.faultSeq := rfl
@[simp] theorem State.raise_tinvs (s : State) (nk : Nat) (f : Pending) : (s.raise nk f).tinvs = s.tinvs := rfl
@[simp] theorem State.raise_tinvNext (s : State) (nk : Nat) (f : Pending) : (s.raise nk f).tinvNext = s.tinvNext := rfl
@[simp] theorem State.raise_tsyncs (s : State) (nk : Nat) (f : Pending) : (s.raise nk f).tsyncs = s.tsyncs := rfl
@[simp] theorem State.raise_ksets (s : State) (nk : Nat) (f : Pending) : (s.raise nk f).ksets = s.ksets := rfl
@[simp] theorem State.raise_tripped (s : State) (nk : Nat) (f : Pending) : (s.raise nk f).tripped = s.tripped := rfl
@[simp] theorem State.raise_warm (s : State) (nk : Nat) (f : Pending) : (s.raise nk f).warm = s.warm := rfl
@[simp] theorem State.raise_signed (s : State) (nk : Nat) (f : Pending) : (s.raise nk f).signed = s.signed := rfl
@[simp] theorem State.raise_bar2 (s : State) (nk : Nat) (f : Pending) : (s.raise nk f).bar2 = s.bar2 := rfl
@[simp] theorem State.raise_weirNext (s : State) (nk : Nat) (f : Pending) : (s.raise nk f).weirNext = s.weirNext := rfl
@[simp] theorem State.raise_kernNext (s : State) (nk : Nat) (f : Pending) : (s.raise nk f).kernNext = s.kernNext := rfl
@[simp] theorem State.raise_monQ (s : State) (nk : Nat) (f : Pending) : (s.raise nk f).monQ = s.monQ := rfl
@[simp] theorem State.raise_cgrp (s : State) (nk : Nat) (f : Pending) : (s.raise nk f).cgrp = s.cgrp := rfl
@[simp] theorem State.raise_collChip (s : State) (nk : Nat) (f : Pending) : (s.raise nk f).collChip = s.collChip := rfl
@[simp] theorem State.raise_collBad (s : State) (nk : Nat) (f : Pending) : (s.raise nk f).collBad = s.collBad := rfl

/-! ### engFault -/

@[simp] theorem State.engFault_now (s : State) (nk : Nat) (f : Pending) : (s.engFault nk f).now = s.now := rfl
@[simp] theorem State.engFault_sched (s : State) (nk : Nat) (f : Pending) : (s.engFault nk f).sched = s.sched := rfl
@[simp] theorem State.engFault_srSeen (s : State) (nk : Nat) (f : Pending) : (s.engFault nk f).srSeen = s.srSeen := rfl
@[simp] theorem State.engFault_farHolds (s : State) (nk : Nat) (f : Pending) : (s.engFault nk f).farHolds = s.farHolds := rfl
@[simp] theorem State.engFault_storNext (s : State) (nk : Nat) (f : Pending) : (s.engFault nk f).storNext = s.storNext := rfl
@[simp] theorem State.engFault_weirHold (s : State) (nk : Nat) (f : Pending) : (s.engFault nk f).weirHold = s.weirHold := rfl
@[simp] theorem State.engFault_mem (s : State) (nk : Nat) (f : Pending) : (s.engFault nk f).mem = s.mem := rfl
@[simp] theorem State.engFault_memx (s : State) (nk : Nat) (f : Pending) : (s.engFault nk f).memx = s.memx := rfl
@[simp] theorem State.engFault_sr (s : State) (nk : Nat) (f : Pending) : (s.engFault nk f).sr = s.sr := rfl
@[simp] theorem State.engFault_keys (s : State) (nk : Nat) (f : Pending) : (s.engFault nk f).keys = s.keys := rfl
@[simp] theorem State.engFault_tlb (s : State) (nk : Nat) (f : Pending) : (s.engFault nk f).tlb = s.tlb := rfl
@[simp] theorem State.engFault_clusters (s : State) (nk : Nat) (f : Pending) : (s.engFault nk f).clusters = s.clusters := rfl
@[simp] theorem State.engFault_ports (s : State) (nk : Nat) (f : Pending) : (s.engFault nk f).ports = s.ports := rfl
@[simp] theorem State.engFault_inbox (s : State) (nk : Nat) (f : Pending) : (s.engFault nk f).inbox = s.inbox := rfl
@[simp] theorem State.engFault_routers (s : State) (nk : Nat) (f : Pending) : (s.engFault nk f).routers = s.routers := rfl
@[simp] theorem State.engFault_links (s : State) (nk : Nat) (f : Pending) : (s.engFault nk f).links = s.links := rfl
@[simp] theorem State.engFault_gates (s : State) (nk : Nat) (f : Pending) : (s.engFault nk f).gates = s.gates := rfl
@[simp] theorem State.engFault_gateB (s : State) (nk : Nat) (f : Pending) : (s.engFault nk f).gateB = s.gateB := rfl
@[simp] theorem State.engFault_gateWin (s : State) (nk : Nat) (f : Pending) : (s.engFault nk f).gateWin = s.gateWin := rfl
@[simp] theorem State.engFault_sluice (s : State) (nk : Nat) (f : Pending) : (s.engFault nk f).sluice = s.sluice := rfl
@[simp] theorem State.engFault_sluiceWin (s : State) (nk : Nat) (f : Pending) : (s.engFault nk f).sluiceWin = s.sluiceWin := rfl
@[simp] theorem State.engFault_islands (s : State) (nk : Nat) (f : Pending) : (s.engFault nk f).islands = s.islands := rfl
@[simp] theorem State.engFault_kernels (s : State) (nk : Nat) (f : Pending) : (s.engFault nk f).kernels = s.kernels := rfl
@[simp] theorem State.engFault_queues (s : State) (nk : Nat) (f : Pending) : (s.engFault nk f).queues = s.queues := rfl
@[simp] theorem State.engFault_recs (s : State) (nk : Nat) (f : Pending) : (s.engFault nk f).recs = s.recs := rfl
@[simp] theorem State.engFault_inputs (s : State) (nk : Nat) (f : Pending) : (s.engFault nk f).inputs = s.inputs := rfl
@[simp] theorem State.engFault_nv (s : State) (nk : Nat) (f : Pending) : (s.engFault nk f).nv = s.nv := rfl
@[simp] theorem State.engFault_kvl (s : State) (nk : Nat) (f : Pending) : (s.engFault nk f).kvl = s.kvl := rfl
@[simp] theorem State.engFault_dir (s : State) (nk : Nat) (f : Pending) : (s.engFault nk f).dir = s.dir := rfl
@[simp] theorem State.engFault_faultSeq (s : State) (nk : Nat) (f : Pending) : (s.engFault nk f).faultSeq = s.faultSeq := rfl
@[simp] theorem State.engFault_tinvs (s : State) (nk : Nat) (f : Pending) : (s.engFault nk f).tinvs = s.tinvs := rfl
@[simp] theorem State.engFault_tinvNext (s : State) (nk : Nat) (f : Pending) : (s.engFault nk f).tinvNext = s.tinvNext := rfl
@[simp] theorem State.engFault_tsyncs (s : State) (nk : Nat) (f : Pending) : (s.engFault nk f).tsyncs = s.tsyncs := rfl
@[simp] theorem State.engFault_ksets (s : State) (nk : Nat) (f : Pending) : (s.engFault nk f).ksets = s.ksets := rfl
@[simp] theorem State.engFault_tripped (s : State) (nk : Nat) (f : Pending) : (s.engFault nk f).tripped = s.tripped := rfl
@[simp] theorem State.engFault_warm (s : State) (nk : Nat) (f : Pending) : (s.engFault nk f).warm = s.warm := rfl
@[simp] theorem State.engFault_signed (s : State) (nk : Nat) (f : Pending) : (s.engFault nk f).signed = s.signed := rfl
@[simp] theorem State.engFault_bar2 (s : State) (nk : Nat) (f : Pending) : (s.engFault nk f).bar2 = s.bar2 := rfl
@[simp] theorem State.engFault_weirNext (s : State) (nk : Nat) (f : Pending) : (s.engFault nk f).weirNext = s.weirNext := rfl
@[simp] theorem State.engFault_kernNext (s : State) (nk : Nat) (f : Pending) : (s.engFault nk f).kernNext = s.kernNext := rfl
@[simp] theorem State.engFault_monQ (s : State) (nk : Nat) (f : Pending) : (s.engFault nk f).monQ = s.monQ := rfl
@[simp] theorem State.engFault_cgrp (s : State) (nk : Nat) (f : Pending) : (s.engFault nk f).cgrp = s.cgrp := rfl
@[simp] theorem State.engFault_collChip (s : State) (nk : Nat) (f : Pending) : (s.engFault nk f).collChip = s.collChip := rfl
@[simp] theorem State.engFault_collBad (s : State) (nk : Nat) (f : Pending) : (s.engFault nk f).collBad = s.collBad := rfl

/-! ### What is set -/

@[simp] theorem State.setCl_clusters (s : State) (c : Nat) (x : Cluster) : (s.setCl c x).clusters = Tab.put s.clusters c x := rfl
@[simp] theorem State.setNd_nodes (s : State) (nk : Nat) (x : Node) : (s.setNd nk x).nodes = Tab.put s.nodes nk x := rfl
@[simp] theorem State.setKern_kernels (s : State) (k : Nat) (x : Kernel) : (s.setKern k x).kernels = Tab.put s.kernels k x := rfl
@[simp] theorem memPut_mem (s : State) (k : Nat) (b : Byte) : (memPut s k b).mem = Tab.putD memDefault s.mem k b := rfl
@[simp] theorem srSet_sr (s : State) (copy n : Nat) (v : W64) :
    (srSet s copy n v).sr = Tab.putD (srReset n) s.sr (copy * 2048 + n) v := rfl
@[simp] theorem State.takeFresh_fresh (s : State) : s.takeFresh.sched.fresh = s.sched.fresh + 1 := rfl
@[simp] theorem State.takeFresh_agenda (s : State) : s.takeFresh.sched.agenda = s.sched.agenda := rfl
@[simp] theorem State.takeFresh_cur (s : State) : s.takeFresh.sched.cur = s.sched.cur := rfl
@[simp] theorem State.idle_cur (s : State) : s.idle.sched.cur = none := rfl
@[simp] theorem State.idle_agenda (s : State) : s.idle.sched.agenda = s.sched.agenda := rfl
@[simp] theorem State.idle_fresh (s : State) : s.idle.sched.fresh = s.sched.fresh := rfl
@[simp] theorem State.waits_cur (s : State) : s.waits.sched.cur = s.sched.cur.map fun i => { i with wait := true } := rfl
@[simp] theorem State.waits_agenda (s : State) : s.waits.sched.agenda = s.sched.agenda := rfl

/-! ### Clusters and nodes through their readers -/

@[simp] theorem State.cl_setCl_same (s : State) (c : Nat) (x : Cluster) : (s.setCl c x).cl c = x := by
  simp [State.cl]
theorem State.cl_setCl_other (s : State) (c d : Nat) (x : Cluster) (h : d ≠ c) : (s.setCl c x).cl d = s.cl d := by
  simp [State.cl, Tab.get_put_other _ _ _ _ _ h]
@[simp] theorem State.cl_modCl_same (s : State) (c : Nat) (f : Cluster → Cluster) : (s.modCl c f).cl c = f (s.cl c) := by
  simp [State.modCl]
theorem State.cl_modCl_other (s : State) (c d : Nat) (f : Cluster → Cluster) (h : d ≠ c) : (s.modCl c f).cl d = s.cl d := by
  simp [State.modCl, State.cl_setCl_other _ _ _ _ h]
@[simp] theorem State.nd_modCl (s : State) (c nk : Nat) (f : Cluster → Cluster) : (s.modCl c f).nd nk = s.nd nk := rfl
@[simp] theorem State.nd_setNd_same (s : State) (nk : Nat) (x : Node) : (s.setNd nk x).nd nk = x := by
  simp [State.nd]
theorem State.nd_setNd_other (s : State) (nk nj : Nat) (x : Node) (h : nj ≠ nk) : (s.setNd nk x).nd nj = s.nd nj := by
  simp [State.nd, Tab.get_put_other _ _ _ _ _ h]
@[simp] theorem State.nd_modNd_same (s : State) (nk : Nat) (f : Node → Node) : (s.modNd nk f).nd nk = f (s.nd nk) := by
  simp [State.modNd]
theorem State.nd_modNd_other (s : State) (nk nj : Nat) (f : Node → Node) (h : nj ≠ nk) : (s.modNd nk f).nd nj = s.nd nj := by
  simp [State.modNd, State.nd_setNd_other _ _ _ _ h]
@[simp] theorem State.cl_modNd (s : State) (nk c : Nat) (f : Node → Node) : (s.modNd nk f).cl c = s.cl c := rfl
@[simp] theorem State.kern_modCl (s : State) (c k : Nat) (f : Cluster → Cluster) : (s.modCl c f).kern k = s.kern k := rfl
@[simp] theorem State.kern_modNd (s : State) (nk k : Nat) (f : Node → Node) : (s.modNd nk f).kern k = s.kern k := rfl
@[simp] theorem State.kern_setKern_same (s : State) (k : Nat) (x : Kernel) : (s.setKern k x).kern k = some x := by
  simp [State.kern, Tab.find_put_same]

/-! ### System registers -/

@[simp] theorem srGet_modCl (s : State) (c : Nat) (f : Cluster → Cluster) (copy n : Nat) :
    srGet (s.modCl c f) copy n = srGet s copy n := rfl
@[simp] theorem srGet_modNd (s : State) (nk : Nat) (f : Node → Node) (copy n : Nat) :
    srGet (s.modNd nk f) copy n = srGet s copy n := rfl
@[simp] theorem srGet_memPut (s : State) (k : Nat) (b : Byte) (copy n : Nat) : srGet (memPut s k b) copy n = srGet s copy n := rfl

/-- A register reads as written. -/
theorem srGet_srSet_same (s : State) (copy n : Nat) (v : W64) :
    srGet (srSet s copy n v) copy n = v := by
  simp [srGet, Tab.get_putD_same]

/-- Writing a register leaves the others alone. -/
theorem srGet_srSet_other (s : State) (copy n copy' n' : Nat) (v : W64) (h : copy' * 2048 + n' ≠ copy * 2048 + n) :
    srGet (srSet s copy n v) copy' n' = srGet s copy' n' := by
  unfold srGet srSet Tab.putD
  dsimp only
  split
  · simp [Tab.get, Tab.find_del_other _ _ _ h]
  · simp [Tab.get, Tab.find_put_other _ _ _ _ h]

end Sys2Proof.Machine
end

