-- ==== Sys2Proof/Laws/Memory.lean ====
section
/-!
SUPPORT. Laws of memory: a read after a write, what a write leaves alone, and the canonical form, which every operation
that writes memory keeps.
-/

namespace Sys2Proof.Machine

/-! ### One byte -/

@[simp] theorem memGet_memPut_same (s : State) (k : Nat) (b : Byte) : memGet (memPut s k b) k = b := by
  simp [memGet, Tab.get_putD_same]

theorem memGet_memPut_other (s : State) (k j : Nat) (b : Byte) (h : j ≠ k) : memGet (memPut s k b) j = memGet s j := by
  simp [memGet, Tab.get_putD_other _ _ _ _ _ h]

@[simp] theorem memGet_modCl (s : State) (c : Nat) (f : Cluster → Cluster) (k : Nat) : memGet (s.modCl c f) k = memGet s k := rfl
@[simp] theorem memGet_modNd (s : State) (nk : Nat) (f : Node → Node) (k : Nat) : memGet (s.modNd nk f) k = memGet s k := rfl
@[simp] theorem memGet_srSet (s : State) (copy n : Nat) (v : W64) (k : Nat) : memGet (srSet s copy n v) k = memGet s k := rfl

/-! ### Several bytes -/

theorem memWrite_zero (s : State) (k v : Nat) : memWrite s k v 0 = s := rfl
theorem memWrite_succ (s : State) (k v n : Nat) :
    memWrite s k v (n + 1) = memWrite (memPut s k (BitVec.ofNat 8 v)) (k + 1) (v / 256) n := rfl

/-- A write leaves every byte outside it alone. -/
theorem memGet_memWrite_other (n : Nat) : ∀ (s : State) (k v j : Nat), (j < k ∨ k + n ≤ j) →
    memGet (memWrite s k v n) j = memGet s j := by
  induction n with
  | zero => intros; rfl
  | succ n ih =>
    intro s k v j h
    rw [memWrite_succ, ih _ _ _ _ (by omega), memGet_memPut_other _ _ _ _ (by omega)]

/-- A read that touches none of the written bytes is unchanged. -/
theorem memRead_memWrite_other (m n : Nat) (s : State) (k v : Nat) : ∀ j, (j + m ≤ k ∨ k + n ≤ j) →
    memRead (memWrite s k v n) j m = memRead s j m := by
  induction m with
  | zero => intros; rfl
  | succ m ih =>
    intro j h
    rw [memRead, memRead, memGet_memWrite_other n s k v j (by omega), ih (j + 1) (by omega)]

/-- A read after a write of the same bytes gives the value written, little-endian (R2). -/
theorem memRead_memWrite_same (n : Nat) : ∀ (s : State) (k v : Nat), memRead (memWrite s k v n) k n = v % 256 ^ n := by
  induction n with
  | zero => intros; simp [memRead, Nat.mod_one]
  | succ n ih =>
    intro s k v
    rw [memRead, memWrite_succ, ih, memGet_memWrite_other _ _ _ _ _ (by omega), memGet_memPut_same, BitVec.toNat_ofNat,
      show (256 : Nat) ^ (n + 1) = 256 * 256 ^ n from Nat.pow_succ', Nat.mod_mul]

@[simp] theorem memWrite_sr (n : Nat) : ∀ (s : State) (k v : Nat), (memWrite s k v n).sr = s.sr := by
  induction n with
  | zero => intros; rfl
  | succ n ih => intro s k v; rw [memWrite_succ, ih]; rfl
@[simp] theorem memWrite_memx (n : Nat) : ∀ (s : State) (k v : Nat), (memWrite s k v n).memx = s.memx := by
  induction n with
  | zero => intros; rfl
  | succ n ih => intro s k v; rw [memWrite_succ, ih]; rfl
@[simp] theorem memWrite_nodes (n : Nat) : ∀ (s : State) (k v : Nat), (memWrite s k v n).nodes = s.nodes := by
  induction n with
  | zero => intros; rfl
  | succ n ih => intro s k v; rw [memWrite_succ, ih]; rfl
@[simp] theorem memWrite_clusters (n : Nat) : ∀ (s : State) (k v : Nat), (memWrite s k v n).clusters = s.clusters := by
  induction n with
  | zero => intros; rfl
  | succ n ih => intro s k v; rw [memWrite_succ, ih]; rfl
@[simp] theorem memWrite_keys (n : Nat) : ∀ (s : State) (k v : Nat), (memWrite s k v n).keys = s.keys := by
  induction n with
  | zero => intros; rfl
  | succ n ih => intro s k v; rw [memWrite_succ, ih]; rfl

/-! ### The canonical form -/

theorem Memory.wf_reset : Memory.wf State.reset.mem = true := rfl

/-- One byte written keeps the canonical form. -/
theorem Memory.wf_memPut (s : State) (k : Nat) (b : Byte) (h : Memory.wf s.mem = true) : Memory.wf (memPut s k b).mem = true :=
  Tab.wf_putD memDefault s.mem k b h

theorem Memory.wf_memWrite (n : Nat) : ∀ (s : State) (k v : Nat), Memory.wf s.mem = true → Memory.wf (memWrite s k v n).mem = true := by
  induction n with
  | zero => intro s k v h; exact h
  | succ n ih => intro s k v h; exact ih _ _ _ (Memory.wf_memPut s k _ h)

theorem Memory.wf_memWriteBytes (bs : List Byte) : ∀ (s : State) (k : Nat), Memory.wf s.mem = true →
    Memory.wf (memWriteBytes s k bs).mem = true := by
  induction bs with
  | nil => intro s k h; exact h
  | cons b bs ih => intro s k h; exact ih _ _ (Memory.wf_memPut s k b h)

theorem Memory.wf_filter (m : List Host.Cell) (p : Host.Cell → Bool) (h : Memory.wf m = true) : Memory.wf (m.filter p) = true := by
  obtain ⟨h1, h2⟩ := (Tab.wf_iff memDefault m).1 h
  refine (Tab.wf_iff memDefault _).2 ⟨?_, fun e he => h2 e (List.mem_filter.1 he).1⟩
  clear h h2
  induction m with
  | nil => rfl
  | cons c m ih =>
    obtain ⟨j, u⟩ := c
    obtain ⟨h1, h2⟩ := (Tab.sorted_cons j u m).1 h1
    rw [List.filter_cons]
    split
    · exact (Tab.sorted_cons ..).2 ⟨fun e he => h1 e (List.mem_filter.1 he).1, ih h2⟩
    · exact ih h2

/-- A write under a key slot keeps the canonical form. -/
theorem Memory.wf_writeUnder (s : State) (k n v : Nat) (slot : Option Nat) (h : Memory.wf s.mem = true) :
    Memory.wf (writeUnder s k n v slot).mem = true := by
  unfold writeUnder
  dsimp only
  generalize (if k ≥ 2 ^ 53 || (0xffff000000000 ≤ k && k < 2 ^ 52) then 32 else 64) = sz
  generalize hs : (if n = sz then { s with memx := { s.memx with bad := s.memx.bad.filter fun b => b != granule k } } else s) = t
  have ht : Memory.wf t.mem = true := by
    rw [← hs]; split <;> exact h
  split
  · exact Memory.wf_memWrite _ _ _ _ ht
  · next sl =>
    split
    · exact Memory.wf_memWrite _ _ _ _ ht
    · apply Memory.wf_memWrite
      dsimp only
      split
      · exact ht
      · exact Memory.wf_memWrite _ _ _ _ ht

/-- Memory stays canonical through a fold whose step keeps it. -/
theorem Memory.wf_foldl {α : Type} (f : State → α → State) (hf : ∀ s a, Memory.wf s.mem = true → Memory.wf (f s a).mem = true)
    (l : List α) : ∀ s : State, Memory.wf s.mem = true → Memory.wf (l.foldl f s).mem = true := by
  induction l with
  | nil => intro s h; exact h
  | cons a l ih => intro s h; exact ih _ (hf s a h)

theorem Memory.wf_writeRunUnder (fuel : Nat) : ∀ (s : State) (k slot : Nat) (bs : List Byte), Memory.wf s.mem = true →
    Memory.wf (s.writeRunUnder k slot fuel bs).mem = true := by
  induction fuel with
  | zero => intro s k slot bs h; exact h
  | succ n ih =>
    intro s k slot bs h
    cases bs with
    | nil => exact h
    | cons b bs => exact ih _ _ _ _ (Memory.wf_writeUnder _ _ _ _ _ h)

end Sys2Proof.Machine
end

