-- ==== Sys2Proof/Laws/Access.lean ====
section
/-!
SUPPORT. What the shared operations of the network, the memory interface and the caches can do: each leaves memory alone, and
most leave the nodes or the clusters alone.
-/

namespace Sys2Proof.Machine

/-! ### Messages -/

/-- A message goes to its own place's inbox, or to its source's port. -/
theorem State.post_eq (s : State) (m : Parcel) :
    s.post m = (if m.src = m.dst then { s with inbox := s.inbox ++ [m] } else { s with ports := Tab.mod [] s.ports m.src (· ++ [m]) }) := rfl
@[simp] theorem State.post_mem (s : State) (m : Parcel) : (s.post m).mem = s.mem := by unfold State.post; split <;> rfl
@[simp] theorem State.post_nodes (s : State) (m : Parcel) : (s.post m).nodes = s.nodes := by unfold State.post; split <;> rfl
@[simp] theorem State.post_clusters (s : State) (m : Parcel) : (s.post m).clusters = s.clusters := by unfold State.post; split <;> rfl

theorem foldl_keeps {α β : Type} (g : State → β) (f : State → α → State) (hf : ∀ s a, g (f s a) = g s) (l : List α) (s : State) :
    g (l.foldl f s) = g s := by
  induction l generalizing s with
  | nil => rfl
  | cons a l ih => rw [List.foldl_cons, ih, hf]

@[simp] theorem State.postAll_mem (s : State) (m : Parcel) (l : List (Nat × Msg)) : (s.postAll m l).mem = s.mem := by
  unfold State.postAll
  split <;> simp only [State.post_mem, foldl_keeps State.mem _ (fun s (t : Nat × Msg) => State.post_mem s { m with dst := t.1, body := t.2 })]
@[simp] theorem State.postAll_nodes (s : State) (m : Parcel) (l : List (Nat × Msg)) : (s.postAll m l).nodes = s.nodes := by
  unfold State.postAll
  split <;> simp only [State.post_nodes, foldl_keeps State.nodes _ (fun s (t : Nat × Msg) => State.post_nodes s { m with dst := t.1, body := t.2 })]
@[simp] theorem State.postAll_clusters (s : State) (m : Parcel) (l : List (Nat × Msg)) : (s.postAll m l).clusters = s.clusters := by
  unfold State.postAll
  split <;>
    simp only [State.post_clusters, foldl_keeps State.clusters _ (fun s (t : Nat × Msg) => State.post_clusters s { m with dst := t.1, body := t.2 })]

/-! ### The network -/

@[simp] theorem State.modRouter_mem (s : State) (r : Nat) (f : Router → Router) : (s.modRouter r f).mem = s.mem := rfl
@[simp] theorem State.modRouter_nodes (s : State) (r : Nat) (f : Router → Router) : (s.modRouter r f).nodes = s.nodes := rfl
@[simp] theorem State.modRouter_clusters (s : State) (r : Nat) (f : Router → Router) : (s.modRouter r f).clusters = s.clusters := rfl
@[simp] theorem State.modRouter_inbox (s : State) (r : Nat) (f : Router → Router) : (s.modRouter r f).inbox = s.inbox := rfl
@[simp] theorem State.modRouter_ports (s : State) (r : Nat) (f : Router → Router) : (s.modRouter r f).ports = s.ports := rfl
@[simp] theorem State.modRouter_links (s : State) (r : Nat) (f : Router → Router) : (s.modRouter r f).links = s.links := rfl
@[simp] theorem State.modLink_mem (s : State) (p : Nat) (f : Link → Link) : (s.modLink p f).mem = s.mem := rfl
@[simp] theorem State.modLink_nodes (s : State) (p : Nat) (f : Link → Link) : (s.modLink p f).nodes = s.nodes := rfl
@[simp] theorem State.modLink_clusters (s : State) (p : Nat) (f : Link → Link) : (s.modLink p f).clusters = s.clusters := rfl
@[simp] theorem State.modLink_routers (s : State) (p : Nat) (f : Link → Link) : (s.modLink p f).routers = s.routers := rfl
@[simp] theorem State.modLink_inbox (s : State) (p : Nat) (f : Link → Link) : (s.modLink p f).inbox = s.inbox := rfl
@[simp] theorem State.enterBuf_mem (s : State) (r i n : Nat) (m : Parcel) : (s.enterBuf r i n m).mem = s.mem := rfl
@[simp] theorem State.enterBuf_nodes (s : State) (r i n : Nat) (m : Parcel) : (s.enterBuf r i n m).nodes = s.nodes := rfl
@[simp] theorem State.enterBuf_clusters (s : State) (r i n : Nat) (m : Parcel) : (s.enterBuf r i n m).clusters = s.clusters := rfl
@[simp] theorem State.flitTo_mem (s : State) (r i c : Nat) (h : RPkt) : (s.flitTo r i c h).mem = s.mem := rfl
@[simp] theorem State.flitTo_nodes (s : State) (r i c : Nat) (h : RPkt) : (s.flitTo r i c h).nodes = s.nodes := rfl
@[simp] theorem State.flitTo_clusters (s : State) (r i c : Nat) (h : RPkt) : (s.flitTo r i c h).clusters = s.clusters := rfl

/-- A packet that another of its message follows has no effect; a token enters the input stage; any other waits in the inbox. -/
theorem State.deliver_cases (s : State) (m : Parcel) :
    (m.more = true ∧ s.deliver m = s)
    ∨ (m.more = false ∧ ∃ t, m.body = .qtok t ∧ s.deliver m = s.pushTok m.dst t)
    ∨ (m.more = false ∧ (∀ t, m.body ≠ .qtok t) ∧ s.deliver m = { s with inbox := s.inbox ++ [{ m with paid := 0, to_ := [] }] }) := by
  unfold State.deliver
  cases h : m.more with
  | true => exact .inl ⟨rfl, rfl⟩
  | false =>
    refine .inr ?_
    split
    · simp_all
    · split
      · exact .inl ⟨rfl, _, ‹_›, rfl⟩
      · exact .inr ⟨rfl, fun t ht => by simp_all, rfl⟩

@[simp] theorem State.deliver_mem (s : State) (m : Parcel) : (s.deliver m).mem = s.mem := by
  obtain ⟨-, h⟩ | ⟨-, t, -, h⟩ | ⟨-, -, h⟩ := s.deliver_cases m <;> simp [h]
@[simp] theorem State.deliver_nodes (s : State) (m : Parcel) : (s.deliver m).nodes = s.nodes := by
  obtain ⟨-, h⟩ | ⟨-, t, -, h⟩ | ⟨-, -, h⟩ := s.deliver_cases m <;> simp [h]

/-! ### Commands and accesses -/

@[simp] theorem State.modCmd_mem (s : State) (c u id : Nat) (f : Cmd → Cmd) : (s.modCmd c u id f).mem = s.mem := rfl
@[simp] theorem State.modCmd_nodes (s : State) (c u id : Nat) (f : Cmd → Cmd) : (s.modCmd c u id f).nodes = s.nodes := rfl
@[simp] theorem State.finishCmd_mem (s : State) (c u : Nat) (m : Cmd) : (s.finishCmd c u m).mem = s.mem := rfl
@[simp] theorem State.finishCmd_nodes (s : State) (c u : Nat) (m : Cmd) : (s.finishCmd c u m).nodes = s.nodes := rfl
@[simp] theorem State.dropCmd_mem (s : State) (c u id : Nat) : (s.dropCmd c u id).mem = s.mem := rfl
@[simp] theorem State.dropCmd_nodes (s : State) (c u id : Nat) : (s.dropCmd c u id).nodes = s.nodes := rfl
@[simp] theorem State.sbLeave_mem (s : State) (m : Cmd) : (s.sbLeave m).mem = s.mem := by unfold State.sbLeave; split <;> rfl
@[simp] theorem State.sbLeave_clusters (s : State) (m : Cmd) : (s.sbLeave m).clusters = s.clusters := by unfold State.sbLeave; split <;> rfl
@[simp] theorem State.modAcc_mem (s : State) (nk id : Nat) (f : Acc → Acc) : (s.modAcc nk id f).mem = s.mem := rfl
@[simp] theorem State.modAcc_clusters (s : State) (nk id : Nat) (f : Acc → Acc) : (s.modAcc nk id f).clusters = s.clusters := rfl
@[simp] theorem State.sendDone_mem (s : State) (nk : Nat) (a : Acc) : (s.sendDone nk a).mem = s.mem := by unfold State.sendDone; split <;> rfl
@[simp] theorem State.sendDone_nodes (s : State) (nk : Nat) (a : Acc) : (s.sendDone nk a).nodes = s.nodes := by
  unfold State.sendDone; split <;> rfl
@[simp] theorem State.sendDone_clusters (s : State) (nk : Nat) (a : Acc) : (s.sendDone nk a).clusters = s.clusters := by
  unfold State.sendDone; split <;> rfl
@[simp] theorem State.accFault_mem (s : State) (nk : Nat) (a : Acc) (c : Cause) (x va : Nat) (ch : Option Nat) :
    (s.accFault nk a c x va ch).mem = s.mem := by simp [State.accFault]
@[simp] theorem State.accFault_clusters (s : State) (nk : Nat) (a : Acc) (c : Cause) (x va : Nat) (ch : Option Nat) :
    (s.accFault nk a c x va ch).clusters = s.clusters := by simp [State.accFault]
@[simp] theorem State.accEngFault_mem (s : State) (nk : Nat) (a : Acc) (c : Cause) (x va : Nat) (ch : Option Nat) :
    (s.accEngFault nk a c x va ch).mem = s.mem := by simp [State.accEngFault]
@[simp] theorem State.accEngFault_clusters (s : State) (nk : Nat) (a : Acc) (c : Cause) (x va : Nat) (ch : Option Nat) :
    (s.accEngFault nk a c x va ch).clusters = s.clusters := by simp [State.accEngFault]

end Sys2Proof.Machine
end

