-- ==== Sys2Proof/Laws/Lanes.lean ====
section
/-!
SUPPORT. Laws of lanes and elements: a lane of joined lanes, a scalar result extended as R182 says, and what the rule "as
operands" (R200) gives element by element.
-/

namespace Sys2Proof.Machine

theorem elem_toNat (w k : Nat) (v : Val) : (elem w k v).toNat = v.lane w k := by
  cases v <;> simp [elem, Val.lane, Nat.shiftRight_eq_div_pow]

theorem foldr_lane (w : Nat) (ls : List Nat) : ∀ k, k < ls.length →
    ls.foldr (fun x a => x % 2 ^ w + 2 ^ w * a) 0 / 2 ^ (w * k) % 2 ^ w = ls.getD k 0 % 2 ^ w := by
  induction ls with
  | nil => intro k h; simp at h
  | cons a ls ih =>
    intro k h
    cases k with
    | zero => simp
    | succ k =>
      rw [List.foldr_cons, Nat.mul_succ, Nat.add_comm (w * k) w, Nat.pow_add, ← Nat.div_div_eq_div_mul,
        Nat.add_mul_div_left _ _ (Nat.two_pow_pos w), Nat.div_eq_of_lt (Nat.mod_lt _ (Nat.two_pow_pos w)), Nat.zero_add,
        ih k (by simpa using h)]
      simp

theorem foldr_lt (w : Nat) (ls : List Nat) : ls.foldr (fun x a => x % 2 ^ w + 2 ^ w * a) 0 < 2 ^ (w * ls.length) := by
  induction ls with
  | nil => simp
  | cons a ls ih =>
    rw [List.foldr_cons, List.length_cons, Nat.mul_succ, Nat.pow_add]
    have h1 : a % 2 ^ w < 2 ^ w := Nat.mod_lt _ (Nat.two_pow_pos w)
    calc _ < 2 ^ w + 2 ^ w * _ := Nat.add_lt_add_right h1 _
      _ = 2 ^ w * (_ + 1) := by ring
      _ ≤ 2 ^ w * 2 ^ (w * ls.length) := Nat.mul_le_mul_left _ ih
      _ = _ := by ring

/-- A lane of joined lanes is the lane joined. -/
theorem lane_joinLanes (w : Nat) (ls : List Nat) (k : Nat) (hk : k < ls.length) (h : w * ls.length ≤ 512) :
    (joinLanes w ls).lane w k = ls.getD k 0 % 2 ^ w := by
  have h512 := Nat.lt_of_lt_of_le (foldr_lt w ls) (Nat.pow_le_pow_right (by decide) h)
  rw [joinLanes, Val.lane, BitVec.toNat_ofNat, Nat.mod_eq_of_lt h512, foldr_lane w ls k hk]

theorem Ty.width_mem (t : Ty) : t.width = 8 ∨ t.width = 16 ∨ t.width = 32 ∨ t.width = 64 := by
  cases t <;> simp [Ty.width]

theorem Ty.width_mul_lanes (t : Ty) : t.width * Ty.lanes t = 512 := by cases t <;> rfl

/-- The lanes that a per-lane function gives. -/
theorem lane_join_range (t : Ty) (g : Nat → Nat) (k : Nat) (hk : k < Ty.lanes t) :
    (joinLanes t.width ((List.range (Ty.lanes t)).map g)).lane t.width k = g k % 2 ^ t.width := by
  rw [lane_joinLanes _ _ _ (by simpa using hk) (by simp [Ty.width_mul_lanes])]
  simp [List.getD_eq_getElem?_getD, hk]

/-- A scalar result extended as R182 says. -/
theorem scalarOf_eq (t : Ty) (n : Nat) :
    scalarOf t n = .sc (if Ty.signed t then (BitVec.ofNat t.width n).signExtend 64 else (BitVec.ofNat t.width n).setWidth 64) := by
  rw [scalarOf]
  congr 1
  split
  · next h =>
    apply BitVec.eq_of_toNat_eq
    rw [BitVec.toNat_ofNat]
    have : t.width ≤ 64 := by cases t <;> decide
    rw [BitVec.signExtend, BitVec.toNat_ofInt]
    have h2 : sInt t.width n = (BitVec.ofNat t.width n).toInt := by
      rw [BitVec.toInt_eq_toNat_cond, BitVec.toNat_ofNat, sInt]
      have hp : 2 ^ t.width = 2 * 2 ^ (t.width - 1) := by cases t <;> rfl
      have hp' : (2 : Int) ^ t.width = 2 * 2 ^ (t.width - 1) := by cases t <;> rfl
      rw [hp', hp]; push_cast
      by_cases hc : n % (2 * 2 ^ (t.width - 1)) < 2 ^ (t.width - 1)
      · rw [if_pos hc, if_pos (by omega)]
      · rw [if_neg hc, if_neg (by omega)]
    rw [h2, wrapN]
    have h3 := Int.emod_lt_of_pos (BitVec.ofNat t.width n).toInt (b := ((2 ^ 64 : Nat) : Int)) (by decide)
    have h4 := Int.emod_nonneg (BitVec.ofNat t.width n).toInt (b := ((2 ^ 64 : Nat) : Int)) (by decide)
    rw [Nat.mod_eq_of_lt (by omega)]
  · apply BitVec.eq_of_toNat_eq
    simp [BitVec.toNat_setWidth]

/-- What `asOperands` gives, element by element. -/
theorem asOperands_elements (t : Ty) (a b c : Opnd) (useB useC : Bool) (f : Nat → Nat → Nat → Nat × Nat) :
    ElementsAre t (a.val.isVec || (useB && b.val.isVec) || (useC && c.val.isVec)) (asOperands t a b c useB useC f).1
      fun k y => y = BitVec.ofNat t.width (f (a.val.lane t.width k) (b.val.lane t.width k) (c.val.lane t.width k)).1 := by
  unfold ElementsAre asOperands
  split
  · next h =>
    simp only [h, ↓reduceIte]
    refine ⟨rfl, fun k hk => ?_⟩
    apply BitVec.eq_of_toNat_eq
    rw [elem_toNat, List.map_map, lane_join_range t _ k hk, BitVec.toNat_ofNat]
    rfl
  · next h =>
    refine ⟨_, rfl, ?_⟩
    simp only [h]
    exact scalarOf_eq t _

theorem ElementsAre.imp {t : Ty} {vec : Bool} {x : Val} {P Q : Nat → BitVec t.width → Prop} (h : ElementsAre t vec x P)
    (hPQ : ∀ k y, P k y → Q k y) : ElementsAre t vec x Q := by
  unfold ElementsAre at *
  split at h
  · next hv => simp only [hv, ↓reduceIte]; exact ⟨h.1, fun k hk => hPQ k _ (h.2 k hk)⟩
  · next hv =>
    simp only [hv]
    obtain ⟨y, hy, hx⟩ := h
    exact ⟨y, hPQ 0 y hy, hx⟩

end Sys2Proof.Machine
end

