-- ==== Sys2Proof/Laws/Fire.lean ====
section
/-!
SUPPORT. What each shared way of firing can do, said once: the G format (`gFire`, `gOwn`), the exits, the reduction elements,
the barriers, the memory interface, engine commands, and instructions that perform at once or are held to commit.
-/

namespace Sys2Proof.Machine

/-! ### Every way of firing answers a next state -/

theorem gFire_next (op : Op) (w : GWord) (t : Ty) (ids : Option (Val × Val)) (f : Nat → Opnd → Opnd → Opnd → GRes) (s : State) :
    ∃ u, gFire op w t ids f s = .next u := by
  unfold gFire
  split
  · exact ⟨_, rfl⟩
  · split
    · exact ⟨_, rfl⟩
    · dsimp only
      repeat' split
      all_goals exact ⟨_, rfl⟩

theorem gOwn_next (op : Op) (w : GWord) (eff : Bool) (f : Issue → Inv → Status → State → State) (s : State) (ab : Issue → Bool) :
    ∃ u, gOwn op w eff f s ab = .next u := by
  unfold gOwn; repeat' split
  all_goals exact ⟨_, rfl⟩

theorem exitFire_next (op : Op) (w : CWord) (needL call : Bool) (d : Node → Nat → Option Nat) (s : State) :
    ∃ u, exitFire op w needL call d s = .next u := by
  unfold exitFire; repeat' split
  all_goals exact ⟨_, rfl⟩

theorem redFire_next (op : Op) (w : GWord) (idn : Option Val) (prev : Nat → Option Nat) (last : Nat → Bool)
    (f : Nat → Nat → Red → Opnd → Bool → Except Cause (Red × Nat)) (out : Nat → Red → Opnd × Nat) (s : State) :
    ∃ u, redFire op w idn prev last f out s = .next u := by
  unfold redFire
  split
  · exact ⟨_, rfl⟩
  · split
    · exact ⟨_, rfl⟩
    · dsimp only
      split
      · exact ⟨_, rfl⟩
      · repeat' split
        all_goals exact ⟨_, rfl⟩

theorem barFire_next (op : Op) (w : GWord) (a : Bool) (f : Issue → Inv → State → State) (s : State) :
    ∃ u, barFire op w a f s = .next u := by
  unfold barFire; repeat' split
  all_goals exact ⟨_, rfl⟩

theorem memExec_next (op : Op) (ins : Instr) (w : MWord) (s : State) : ∃ u, memExec op ins w s = .next u := by
  unfold memExec; repeat' split
  all_goals exact ⟨_, rfl⟩

theorem eExec_next (op : Op) (ins : Instr) (w : EWord) (p : Ports) (chk : Issue → Inv → State → Option Cause)
    (work : Issue → Cmd → State → State) (s : State) : ∃ u, eExec op ins w p chk work s = .next u := by
  unfold eExec; repeat' split
  all_goals exact ⟨_, rfl⟩

theorem atOnce_next (op : Op) (prd : Prd) (p : Ports) (wt : Bool) (f : Issue → Inv → State → State) (s : State) :
    ∃ u, atOnce op prd p wt f s = .next u := by
  unfold atOnce; repeat' split
  all_goals exact ⟨_, rfl⟩

theorem sHeld_next (op : Op) (ins : Instr) (prd : Prd) (p : Ports) (chk : Issue → Inv → State → Option Cause) (s : State) :
    ∃ u, sHeld op ins prd p chk s = .next u := by
  unfold sHeld; split
  all_goals exact ⟨_, rfl⟩

/-! ### G format -/

/-- Everything that `gFire` can do: nothing, absorb, fault on an error operand, send nulls, or act on what `f` gives. -/
theorem gFire_cases {op : Op} {w : GWord} {t : Ty} {ids : Option (Val × Val)} {f : Nat → Opnd → Opnd → Opnd → GRes} {s u : State}
    (h : gFire op w t ids f s = .next u) :
    u = s ∨ ∃ i v, s.sched.cur = some i ∧ s.invOf i = some v ∧
      (u = s.absorb i (gEffect w) ∨ u = s.fault i op .errorOperand
        ∨ u = s.sendBoth i w (gEffect w) {} (Opnd.nullWith i.status) (Opnd.nullWith i.status)
        ∨ u = s.finish i v op w i.status
            (f v.fctl (subst (ids.map (·.1)) i.l) (subst (ids.map (·.2)) (rOperand w t i)) (subst none i.q))) := by
  unfold gFire at h
  split at h
  · exact .inl (by injection h with h; exact h.symm)
  · next i hi =>
    split at h
    · exact .inl (by injection h with h; exact h.symm)
    · next v hv =>
      refine .inr ⟨i, v, hi, hv, ?_⟩
      dsimp only at h
      repeat' split at h
      all_goals injection h with h; subst h; simp

/-- Everything that `gOwn` can do. -/
theorem gOwn_cases {op : Op} {w : GWord} {eff : Bool} {f : Issue → Inv → Status → State → State} {s u : State} {ab : Issue → Bool}
    (h : gOwn op w eff f s ab = .next u) :
    u = s ∨ ∃ i v, s.sched.cur = some i ∧ s.invOf i = some v ∧
      (u = s.absorb i eff ∨ u = s.fault i op .errorOperand ∨ u = f i v i.status s) := by
  unfold gOwn at h
  split at h
  · exact .inl (by injection h with h; exact h.symm)
  · next i hi =>
    split at h
    · exact .inl (by injection h with h; exact h.symm)
    · next v hv =>
      refine .inr ⟨i, v, hi, hv, ?_⟩
      repeat' split at h
      all_goals injection h with h; subst h; simp

/-- How `gFire` goes on operands that are not null. -/
theorem gFire_plain (op : Op) (w : GWord) (t : Ty) (ids : Option (Val × Val)) (f : Nat → Opnd → Opnd → Opnd → GRes) (s : State)
    (i : Issue) (v : Inv) (h : FiresG s i v w)
    (hn : isNull i.l = false ∧ isNull (rOperand w t i) = false ∧ isNull i.q = false) :
    gFire op w t ids f s = .next (s.finish i v op w i.status
      (f v.fctl (i.l.getD {}) ((rOperand w t i).getD {}) (i.q.getD {}))) := by
  obtain ⟨⟨h1, h2, h3⟩, hp, he⟩ := h
  unfold gFire
  rw [h1]
  dsimp only
  rw [h3]
  dsimp only
  rw [hp]
  have hany : (([i.l, rOperand w t i, i.q].filter Option.isSome).any isNull) = false := by
    rw [List.any_eq_false]
    intro x hx
    simp only [List.mem_filter, List.mem_cons, List.not_mem_nil, or_false] at hx
    rcases hx.1 with rfl | rfl | rfl <;> simp [hn]
  simp only [hany]
  have he' : (gEffect w && i.status.er) = false := by
    cases hg : gEffect w with
    | false => rfl
    | true => simp [he hg]
  simp only [he', Bool.not_true, Bool.false_and, Bool.false_eq_true, ↓reduceIte]
  have hs : ∀ (o : Option Opnd) (d : Option Val), isNull o = false → subst d o = o.getD {} := by
    intro o d ho
    cases o with
    | none => rfl
    | some x => simp [isNull] at ho; simp [subst, ho]
  rw [hs _ _ hn.1, hs _ _ hn.2.1, hs _ _ hn.2.2]

/-- How `gOwn` goes when its instruction fires. -/
theorem gOwn_plain (op : Op) (w : GWord) (eff : Bool) (f : Issue → Inv → Status → State → State) (s : State) (i : Issue) (v : Inv)
    (h : Issues s i v) (hp : predHolds w.prd i = true) (he : eff = true → i.status.er = false) (ab : Issue → Bool)
    (ha : ab i = false) : gOwn op w eff f s ab = .next (f i v i.status s) := by
  obtain ⟨h1, h2, h3⟩ := h
  have he' : (eff && i.status.er) = false := by
    cases hg : eff with
    | false => rfl
    | true => simp [he hg]
  simp [gOwn, h1, h3, hp, ha, he']

theorem trapsOn_zero (fctl : Nat) : trapsOn fctl 0 = false := by simp [trapsOn]

/-- A result without flags goes to both targets. -/
theorem finish_one (s : State) (i : Issue) (v : Inv) (op : Op) (w : GWord) (st : Status) (x : Val) :
    s.finish i v op w st (.one x) = s.sendBoth i w (gEffect w) st { val := x } { val := x } := by
  simp [GRes.one, State.finish, trapsOn_zero, State.addFlags]

theorem TakesL.notNull {i : Issue} {w : GWord} {l : Opnd} (h : TakesL i w l) (t : Ty) :
    isNull i.l = false ∧ isNull (rOperand w t i) = false ∧ isNull i.q = false := by
  obtain ⟨h1, h2, h3, h4, h5⟩ := h
  simp [h1, h2, h3, h4, rOperand, isNull, h5]

theorem TakesLR.notNull {op : Op} {i : Issue} {w : GWord} {l r : Opnd} (h : TakesLR op i w l r) :
    isNull i.l = false ∧ isNull (rOperand w (Ty.ofCode (op.immTy w.ty.code)) i) = false ∧ isNull i.q = false := by
  obtain ⟨h1, h2, h3, h4, h5⟩ := h
  simp [h1, h2, h3, isNull, h4, h5]

theorem TakesLRQ.notNull {op : Op} {i : Issue} {w : GWord} {l r q : Opnd} (h : TakesLRQ op i w l r q) :
    isNull i.l = false ∧ isNull (rOperand w (Ty.ofCode (op.immTy w.ty.code)) i) = false ∧ isNull i.q = false := by
  obtain ⟨h1, h2, h3, h4, h5, h6⟩ := h
  simp [h1, h2, h3, isNull, h4, h5, h6]

theorem Ty.ofCode_code (t : Ty) : Ty.ofCode t.code = t := by cases t <;> rfl

/-! ### Reports, effects and commands -/

/-- Everything that `heldFire` can do: absorb, fault, or hold the command and join its scoreboard count. -/
theorem heldFire_cases (op : Op) (ins : Instr) (prd : Prd) (sbs : Option (BitVec 3)) (p : Ports)
    (chk : Issue → Inv → State → Option Cause) (i : Issue) (s : State) :
    heldFire op ins prd sbs p chk i s = s ∨ heldFire op ins prd sbs p chk i s = s.report i false
      ∨ (∃ c, heldFire op ins prd sbs p chk i s = s.fault i op c)
      ∨ (∃ v, s.invOf i = some v ∧ chk i v s = none ∧
          (heldFire op ins prd sbs p chk i s = (s.hold i (.cmd i.ix ins i.l i.r i.q)).report i true
            ∨ ∃ k, heldFire op ins prd sbs p chk i s =
                ((s.hold i (.cmd i.ix ins i.l i.r i.q)).report i true).modNd i.nk fun n => { n with sb := n.sb ++ [(k, v.age, i.ix)] })) := by
  unfold heldFire
  cases hv : s.invOf i with
  | none => simp
  | some v =>
    dsimp only
    split
    · simp
    · split
      · exact .inr (.inr (.inl ⟨_, rfl⟩))
      · split
        · exact .inr (.inr (.inl ⟨_, rfl⟩))
        · cases hc : chk i v s with
          | some c => exact .inr (.inr (.inl ⟨c, rfl⟩))
          | none =>
            refine .inr (.inr (.inr ⟨v, rfl, hc, ?_⟩))
            cases sbs with
            | none => exact .inl rfl
            | some k => exact .inr ⟨_, rfl⟩

/-- An engine instruction fires on its element. -/
theorem eExec_fires (op : Op) (ins : Instr) (w : EWord) (p : Ports) (chk : Issue → Inv → State → Option Cause)
    (work : Issue → Cmd → State → State) (s : State) (i : Issue) (hc : s.sched.cur = some i) (hp : i.perform = false) :
    eExec op ins w p chk work s = .next (heldFire op ins w.prd w.sbs p chk i s) := by
  simp [eExec, hc, hp]

/-- A unit works on an engine command. -/
theorem eExec_works (op : Op) (ins : Instr) (w : EWord) (p : Ports) (chk : Issue → Inv → State → Option Cause)
    (work : Issue → Cmd → State → State) (s : State) (i : Issue) (m : Cmd) (h : Works s i m) :
    eExec op ins w p chk work s = .next (work i m s) := by
  obtain ⟨h1, h2, h3, h4⟩ := h
  have h3' : (Tab.get [] (s.cl i.c).units i.u).find? (fun x => x.id = i.k) = some m := h3
  unfold eExec
  rw [h1]
  dsimp only
  rw [h2]
  simp only [↓reduceIte, h3', h4]

/-- Everything that `atOnce` can do. -/
theorem atOnce_cases {op : Op} {prd : Prd} {p : Ports} {wt : Bool} {f : Issue → Inv → State → State} {s u : State}
    (h : atOnce op prd p wt f s = .next u) :
    u = s ∨ ∃ i v, s.sched.cur = some i ∧ s.invOf i = some v ∧
      (u = s.report i false ∨ (∃ c, u = s.fault i op c) ∨ u = s.waits ∨ u = f i v s) := by
  unfold atOnce at h
  split at h
  · exact .inl (by injection h with h; exact h.symm)
  · next i hi =>
    split at h
    · exact .inl (by injection h with h; exact h.symm)
    · next v hv =>
      refine .inr ⟨i, v, hi, hv, ?_⟩
      repeat' split at h
      all_goals injection h with h; subst h
      · exact .inl rfl
      · exact .inr (.inl ⟨_, rfl⟩)
      · exact .inr (.inl ⟨_, rfl⟩)
      · exact .inr (.inr (.inl rfl))
      · exact .inr (.inr (.inr rfl))

/-- How an instruction that performs at once goes when it fires and waits for nothing. -/
theorem atOnce_plain (op : Op) (prd : Prd) (p : Ports) (wt : Bool) (f : Issue → Inv → State → State) (s : State) (i : Issue) (v : Inv)
    (h : Issues s i v) (hp : predHolds prd i = true) (hn : p.null i = false) (he : i.status.er = false) (hk : p.ok i = true)
    (ho : wt = true → (s.nd i.nk).oldest v.age = true) : atOnce op prd p wt f s = .next (f i v s) := by
  obtain ⟨h1, h2, h3⟩ := h
  have ho' : (wt && !(s.nd i.nk).oldest v.age) = false := by
    cases hg : wt with
    | false => rfl
    | true => simp [ho hg]
  simp [atOnce, h1, h3, hp, hn, he, hk, ho']

/-! ### What sending, reporting and faulting leave alone -/

theorem State.send_cases (s : State) (i : Issue) (t : Target) (kd : Kd) (o : Opnd) :
    s.send i t kd o = s ∨ (∃ c f, s.send i t kd o = s.modCl c f) ∨ (∃ nk f, s.send i t kd o = s.modNd nk f) := by
  cases t with
  | none => exact .inl rfl
  | glob f n => exact .inl rfl
  | slot ix pt => unfold State.send State.sendSlot State.pushTok; exact .inr (.inl ⟨_, _, rfl⟩)
  | queue q => unfold State.send State.modInv; exact .inr (.inr ⟨_, _, rfl⟩)

@[simp] theorem State.send_mem (s : State) (i : Issue) (t : Target) (kd : Kd) (o : Opnd) : (s.send i t kd o).mem = s.mem := by
  cases t <;> rfl
@[simp] theorem State.send_sr (s : State) (i : Issue) (t : Target) (kd : Kd) (o : Opnd) : (s.send i t kd o).sr = s.sr := by
  cases t <;> rfl
@[simp] theorem State.sendBoth_mem (s : State) (i : Issue) (w : GWord) (eff : Bool) (st : Status) (o0 o1 : Opnd) :
    (s.sendBoth i w eff st o0 o1).mem = s.mem := by
  unfold State.sendBoth; cases eff <;> simp
@[simp] theorem State.sendBoth_sr (s : State) (i : Issue) (w : GWord) (eff : Bool) (st : Status) (o0 o1 : Opnd) :
    (s.sendBoth i w eff st o0 o1).sr = s.sr := by
  unfold State.sendBoth; cases eff <;> simp
@[simp] theorem State.absorb_mem (s : State) (i : Issue) (eff : Bool) : (s.absorb i eff).mem = s.mem := by
  cases eff <;> rfl
@[simp] theorem State.absorb_sr (s : State) (i : Issue) (eff : Bool) : (s.absorb i eff).sr = s.sr := by
  cases eff <;> rfl
@[simp] theorem State.faultOp_mem (s : State) (i : Issue) (op : Option Op) (c : Cause) (f : Pending → Pending) :
    (s.faultOp i op c f).mem = s.mem := by
  unfold State.faultOp; split <;> simp
@[simp] theorem State.faultOp_sr (s : State) (i : Issue) (op : Option Op) (c : Cause) (f : Pending → Pending) :
    (s.faultOp i op c f).sr = s.sr := by
  unfold State.faultOp; split <;> simp
@[simp] theorem State.fault_mem (s : State) (i : Issue) (op : Op) (c : Cause) (f : Pending → Pending) :
    (s.fault i op c f).mem = s.mem := State.faultOp_mem s i _ c f
@[simp] theorem State.fault_sr (s : State) (i : Issue) (op : Op) (c : Cause) (f : Pending → Pending) :
    (s.fault i op c f).sr = s.sr := State.faultOp_sr s i _ c f
@[simp] theorem State.addFlags_mem (s : State) (i : Issue) (fl : Nat) : (s.addFlags i fl).mem = s.mem := by
  unfold State.addFlags; split <;> rfl
@[simp] theorem State.addFlags_sr (s : State) (i : Issue) (fl : Nat) : (s.addFlags i fl).sr = s.sr := by
  unfold State.addFlags; split <;> rfl

end Sys2Proof.Machine
end

