-- ==== Sys2Proof/Laws/PerInstr.lean ====
section
/-!
SUPPORT. One law for each constructor of Instr: what `view` takes apart, `build` puts together again. The laws of decoding and
encoding over all instructions go through it.
-/

/-- The opcode and fields of an instruction make the same instruction; a step of the machine itself has none. -/
def Sys2Proof.Laws.Rebuild.Statement (i : Sys2Proof.Instr) : Prop :=
  match i.view with
  | none => True
  | some (op, f) => Sys2Proof.Instr.build op f = some i

theorem Sys2Proof.Laws.Rebuild.nop (w : Sys2Proof.GWord) : Sys2Proof.Laws.Rebuild.Statement (.nop w) := rfl
theorem Sys2Proof.Laws.Rebuild.const (w : Sys2Proof.GWord) : Sys2Proof.Laws.Rebuild.Statement (.const w) := rfl
theorem Sys2Proof.Laws.Rebuild.mov (w : Sys2Proof.GWord) : Sys2Proof.Laws.Rebuild.Statement (.mov w) := rfl
theorem Sys2Proof.Laws.Rebuild.read (w : Sys2Proof.GWord) : Sys2Proof.Laws.Rebuild.Statement (.read w) := rfl
theorem Sys2Proof.Laws.Rebuild.write (w : Sys2Proof.GWord) : Sys2Proof.Laws.Rebuild.Statement (.write w) := rfl
theorem Sys2Proof.Laws.Rebuild.steer (w : Sys2Proof.GWord) : Sys2Proof.Laws.Rebuild.Statement (.steer w) := rfl
theorem Sys2Proof.Laws.Rebuild.merge (w : Sys2Proof.GWord) : Sys2Proof.Laws.Rebuild.Statement (.merge w) := rfl
theorem Sys2Proof.Laws.Rebuild.pand (w : Sys2Proof.GWord) : Sys2Proof.Laws.Rebuild.Statement (.pand w) := rfl
theorem Sys2Proof.Laws.Rebuild.por (w : Sys2Proof.GWord) : Sys2Proof.Laws.Rebuild.Statement (.por w) := rfl
theorem Sys2Proof.Laws.Rebuild.pxor (w : Sys2Proof.GWord) : Sys2Proof.Laws.Rebuild.Statement (.pxor w) := rfl
theorem Sys2Proof.Laws.Rebuild.pnot (w : Sys2Proof.GWord) : Sys2Proof.Laws.Rebuild.Statement (.pnot w) := rfl
theorem Sys2Proof.Laws.Rebuild.iterid (w : Sys2Proof.GWord) : Sys2Proof.Laws.Rebuild.Statement (.iterid w) := rfl
theorem Sys2Proof.Laws.Rebuild.nullq (w : Sys2Proof.GWord) : Sys2Proof.Laws.Rebuild.Statement (.nullq w) := rfl
theorem Sys2Proof.Laws.Rebuild.nfill (w : Sys2Proof.GWord) : Sys2Proof.Laws.Rebuild.Statement (.nfill w) := rfl
theorem Sys2Proof.Laws.Rebuild.niter (w : Sys2Proof.GWord) : Sys2Proof.Laws.Rebuild.Statement (.niter w) := rfl
theorem Sys2Proof.Laws.Rebuild.bro (w : Sys2Proof.CWord) : Sys2Proof.Laws.Rebuild.Statement (.bro w) := rfl
theorem Sys2Proof.Laws.Rebuild.br (w : Sys2Proof.CWord) : Sys2Proof.Laws.Rebuild.Statement (.br w) := rfl
theorem Sys2Proof.Laws.Rebuild.callo (w : Sys2Proof.CWord) : Sys2Proof.Laws.Rebuild.Statement (.callo w) := rfl
theorem Sys2Proof.Laws.Rebuild.call (w : Sys2Proof.CWord) : Sys2Proof.Laws.Rebuild.Statement (.call w) := rfl
theorem Sys2Proof.Laws.Rebuild.ret (w : Sys2Proof.CWord) : Sys2Proof.Laws.Rebuild.Statement (.ret w) := rfl
theorem Sys2Proof.Laws.Rebuild.quit (w : Sys2Proof.CWord) : Sys2Proof.Laws.Rebuild.Statement (.quit w) := rfl
theorem Sys2Proof.Laws.Rebuild.binv (w : Sys2Proof.GWord) : Sys2Proof.Laws.Rebuild.Statement (.binv w) := rfl
theorem Sys2Proof.Laws.Rebuild.add (w : Sys2Proof.GWord) : Sys2Proof.Laws.Rebuild.Statement (.add w) := rfl
theorem Sys2Proof.Laws.Rebuild.sub (w : Sys2Proof.GWord) : Sys2Proof.Laws.Rebuild.Statement (.sub w) := rfl
theorem Sys2Proof.Laws.Rebuild.mul (w : Sys2Proof.GWord) : Sys2Proof.Laws.Rebuild.Statement (.mul w) := rfl
theorem Sys2Proof.Laws.Rebuild.mulh (w : Sys2Proof.GWord) : Sys2Proof.Laws.Rebuild.Statement (.mulh w) := rfl
theorem Sys2Proof.Laws.Rebuild.mulhn (w : Sys2Proof.GWord) : Sys2Proof.Laws.Rebuild.Statement (.mulhn w) := rfl
theorem Sys2Proof.Laws.Rebuild.div (w : Sys2Proof.GWord) : Sys2Proof.Laws.Rebuild.Statement (.div w) := rfl
theorem Sys2Proof.Laws.Rebuild.divn (w : Sys2Proof.GWord) : Sys2Proof.Laws.Rebuild.Statement (.divn w) := rfl
theorem Sys2Proof.Laws.Rebuild.rem (w : Sys2Proof.GWord) : Sys2Proof.Laws.Rebuild.Statement (.rem w) := rfl
theorem Sys2Proof.Laws.Rebuild.remn (w : Sys2Proof.GWord) : Sys2Proof.Laws.Rebuild.Statement (.remn w) := rfl
theorem Sys2Proof.Laws.Rebuild.adds (w : Sys2Proof.GWord) : Sys2Proof.Laws.Rebuild.Statement (.adds w) := rfl
theorem Sys2Proof.Laws.Rebuild.subs (w : Sys2Proof.GWord) : Sys2Proof.Laws.Rebuild.Statement (.subs w) := rfl
theorem Sys2Proof.Laws.Rebuild.madd (w : Sys2Proof.GWord) : Sys2Proof.Laws.Rebuild.Statement (.madd w) := rfl
theorem Sys2Proof.Laws.Rebuild.and (w : Sys2Proof.GWord) : Sys2Proof.Laws.Rebuild.Statement (.and w) := rfl
theorem Sys2Proof.Laws.Rebuild.or (w : Sys2Proof.GWord) : Sys2Proof.Laws.Rebuild.Statement (.or w) := rfl
theorem Sys2Proof.Laws.Rebuild.xor (w : Sys2Proof.GWord) : Sys2Proof.Laws.Rebuild.Statement (.xor w) := rfl
theorem Sys2Proof.Laws.Rebuild.andn (w : Sys2Proof.GWord) : Sys2Proof.Laws.Rebuild.Statement (.andn w) := rfl
theorem Sys2Proof.Laws.Rebuild.shl (w : Sys2Proof.GWord) : Sys2Proof.Laws.Rebuild.Statement (.shl w) := rfl
theorem Sys2Proof.Laws.Rebuild.shr (w : Sys2Proof.GWord) : Sys2Proof.Laws.Rebuild.Statement (.shr w) := rfl
theorem Sys2Proof.Laws.Rebuild.sar (w : Sys2Proof.GWord) : Sys2Proof.Laws.Rebuild.Statement (.sar w) := rfl
theorem Sys2Proof.Laws.Rebuild.rot (w : Sys2Proof.GWord) : Sys2Proof.Laws.Rebuild.Statement (.rot w) := rfl
theorem Sys2Proof.Laws.Rebuild.min (w : Sys2Proof.GWord) : Sys2Proof.Laws.Rebuild.Statement (.min w) := rfl
theorem Sys2Proof.Laws.Rebuild.max (w : Sys2Proof.GWord) : Sys2Proof.Laws.Rebuild.Statement (.max w) := rfl
theorem Sys2Proof.Laws.Rebuild.abs (w : Sys2Proof.GWord) : Sys2Proof.Laws.Rebuild.Statement (.abs w) := rfl
theorem Sys2Proof.Laws.Rebuild.neg (w : Sys2Proof.GWord) : Sys2Proof.Laws.Rebuild.Statement (.neg w) := rfl
theorem Sys2Proof.Laws.Rebuild.clz (w : Sys2Proof.GWord) : Sys2Proof.Laws.Rebuild.Statement (.clz w) := rfl
theorem Sys2Proof.Laws.Rebuild.ctz (w : Sys2Proof.GWord) : Sys2Proof.Laws.Rebuild.Statement (.ctz w) := rfl
theorem Sys2Proof.Laws.Rebuild.popc (w : Sys2Proof.GWord) : Sys2Proof.Laws.Rebuild.Statement (.popc w) := rfl
theorem Sys2Proof.Laws.Rebuild.sext (w : Sys2Proof.GWord) : Sys2Proof.Laws.Rebuild.Statement (.sext w) := rfl
theorem Sys2Proof.Laws.Rebuild.zext (w : Sys2Proof.GWord) : Sys2Proof.Laws.Rebuild.Statement (.zext w) := rfl
theorem Sys2Proof.Laws.Rebuild.lea (w : Sys2Proof.GWord) : Sys2Proof.Laws.Rebuild.Statement (.lea w) := rfl
theorem Sys2Proof.Laws.Rebuild.ceq (w : Sys2Proof.GWord) : Sys2Proof.Laws.Rebuild.Statement (.ceq w) := rfl
theorem Sys2Proof.Laws.Rebuild.cne (w : Sys2Proof.GWord) : Sys2Proof.Laws.Rebuild.Statement (.cne w) := rfl
theorem Sys2Proof.Laws.Rebuild.clt (w : Sys2Proof.GWord) : Sys2Proof.Laws.Rebuild.Statement (.clt w) := rfl
theorem Sys2Proof.Laws.Rebuild.cle (w : Sys2Proof.GWord) : Sys2Proof.Laws.Rebuild.Statement (.cle w) := rfl
theorem Sys2Proof.Laws.Rebuild.cltn (w : Sys2Proof.GWord) : Sys2Proof.Laws.Rebuild.Statement (.cltn w) := rfl
theorem Sys2Proof.Laws.Rebuild.clen (w : Sys2Proof.GWord) : Sys2Proof.Laws.Rebuild.Statement (.clen w) := rfl
theorem Sys2Proof.Laws.Rebuild.fadd (w : Sys2Proof.GWord) : Sys2Proof.Laws.Rebuild.Statement (.fadd w) := rfl
theorem Sys2Proof.Laws.Rebuild.fsub (w : Sys2Proof.GWord) : Sys2Proof.Laws.Rebuild.Statement (.fsub w) := rfl
theorem Sys2Proof.Laws.Rebuild.fmul (w : Sys2Proof.GWord) : Sys2Proof.Laws.Rebuild.Statement (.fmul w) := rfl
theorem Sys2Proof.Laws.Rebuild.fma (w : Sys2Proof.GWord) : Sys2Proof.Laws.Rebuild.Statement (.fma w) := rfl
theorem Sys2Proof.Laws.Rebuild.fnma (w : Sys2Proof.GWord) : Sys2Proof.Laws.Rebuild.Statement (.fnma w) := rfl
theorem Sys2Proof.Laws.Rebuild.fdiv (w : Sys2Proof.GWord) : Sys2Proof.Laws.Rebuild.Statement (.fdiv w) := rfl
theorem Sys2Proof.Laws.Rebuild.fsqrt (w : Sys2Proof.GWord) : Sys2Proof.Laws.Rebuild.Statement (.fsqrt w) := rfl
theorem Sys2Proof.Laws.Rebuild.frsq (w : Sys2Proof.GWord) : Sys2Proof.Laws.Rebuild.Statement (.frsq w) := rfl
theorem Sys2Proof.Laws.Rebuild.frcp (w : Sys2Proof.GWord) : Sys2Proof.Laws.Rebuild.Statement (.frcp w) := rfl
theorem Sys2Proof.Laws.Rebuild.fexp2 (w : Sys2Proof.GWord) : Sys2Proof.Laws.Rebuild.Statement (.fexp2 w) := rfl
theorem Sys2Proof.Laws.Rebuild.flog2 (w : Sys2Proof.GWord) : Sys2Proof.Laws.Rebuild.Statement (.flog2 w) := rfl
theorem Sys2Proof.Laws.Rebuild.fmin (w : Sys2Proof.GWord) : Sys2Proof.Laws.Rebuild.Statement (.fmin w) := rfl
theorem Sys2Proof.Laws.Rebuild.fmax (w : Sys2Proof.GWord) : Sys2Proof.Laws.Rebuild.Statement (.fmax w) := rfl
theorem Sys2Proof.Laws.Rebuild.fabs (w : Sys2Proof.GWord) : Sys2Proof.Laws.Rebuild.Statement (.fabs w) := rfl
theorem Sys2Proof.Laws.Rebuild.fneg (w : Sys2Proof.GWord) : Sys2Proof.Laws.Rebuild.Statement (.fneg w) := rfl
theorem Sys2Proof.Laws.Rebuild.fsgn (w : Sys2Proof.GWord) : Sys2Proof.Laws.Rebuild.Statement (.fsgn w) := rfl
theorem Sys2Proof.Laws.Rebuild.fclass (w : Sys2Proof.GWord) : Sys2Proof.Laws.Rebuild.Statement (.fclass w) := rfl
theorem Sys2Proof.Laws.Rebuild.fscale (w : Sys2Proof.GWord) : Sys2Proof.Laws.Rebuild.Statement (.fscale w) := rfl
theorem Sys2Proof.Laws.Rebuild.fceq (w : Sys2Proof.GWord) : Sys2Proof.Laws.Rebuild.Statement (.fceq w) := rfl
theorem Sys2Proof.Laws.Rebuild.fclt (w : Sys2Proof.GWord) : Sys2Proof.Laws.Rebuild.Statement (.fclt w) := rfl
theorem Sys2Proof.Laws.Rebuild.fcle (w : Sys2Proof.GWord) : Sys2Proof.Laws.Rebuild.Statement (.fcle w) := rfl
theorem Sys2Proof.Laws.Rebuild.fcun (w : Sys2Proof.GWord) : Sys2Proof.Laws.Rebuild.Statement (.fcun w) := rfl
theorem Sys2Proof.Laws.Rebuild.fcvt (w : Sys2Proof.GWord) : Sys2Proof.Laws.Rebuild.Statement (.fcvt w) := rfl
theorem Sys2Proof.Laws.Rebuild.icvtf (w : Sys2Proof.GWord) : Sys2Proof.Laws.Rebuild.Statement (.icvtf w) := rfl
theorem Sys2Proof.Laws.Rebuild.fcvti (w : Sys2Proof.GWord) : Sys2Proof.Laws.Rebuild.Statement (.fcvti w) := rfl
theorem Sys2Proof.Laws.Rebuild.qnt (w : Sys2Proof.GWord) : Sys2Proof.Laws.Rebuild.Statement (.qnt w) := rfl
theorem Sys2Proof.Laws.Rebuild.dqnt (w : Sys2Proof.GWord) : Sys2Proof.Laws.Rebuild.Statement (.dqnt w) := rfl
theorem Sys2Proof.Laws.Rebuild.gscale (w : Sys2Proof.GWord) : Sys2Proof.Laws.Rebuild.Statement (.gscale w) := rfl
theorem Sys2Proof.Laws.Rebuild.mxpack (w : Sys2Proof.GWord) : Sys2Proof.Laws.Rebuild.Statement (.mxpack w) := rfl
theorem Sys2Proof.Laws.Rebuild.mxunpk (w : Sys2Proof.GWord) : Sys2Proof.Laws.Rebuild.Statement (.mxunpk w) := rfl
theorem Sys2Proof.Laws.Rebuild.pack (w : Sys2Proof.GWord) : Sys2Proof.Laws.Rebuild.Statement (.pack w) := rfl
theorem Sys2Proof.Laws.Rebuild.unpack (w : Sys2Proof.GWord) : Sys2Proof.Laws.Rebuild.Statement (.unpack w) := rfl
theorem Sys2Proof.Laws.Rebuild.vbcast (w : Sys2Proof.GWord) : Sys2Proof.Laws.Rebuild.Statement (.vbcast w) := rfl
theorem Sys2Proof.Laws.Rebuild.vbcastLane (w : Sys2Proof.GWord) : Sys2Proof.Laws.Rebuild.Statement (.vbcastLane w) := rfl
theorem Sys2Proof.Laws.Rebuild.vext (w : Sys2Proof.GWord) : Sys2Proof.Laws.Rebuild.Statement (.vext w) := rfl
theorem Sys2Proof.Laws.Rebuild.vins (w : Sys2Proof.GWord) : Sys2Proof.Laws.Rebuild.Statement (.vins w) := rfl
theorem Sys2Proof.Laws.Rebuild.vperm (w : Sys2Proof.GWord) : Sys2Proof.Laws.Rebuild.Statement (.vperm w) := rfl
theorem Sys2Proof.Laws.Rebuild.vshuf (w : Sys2Proof.GWord) : Sys2Proof.Laws.Rebuild.Statement (.vshuf w) := rfl
theorem Sys2Proof.Laws.Rebuild.vradd (w : Sys2Proof.GWord) : Sys2Proof.Laws.Rebuild.Statement (.vradd w) := rfl
theorem Sys2Proof.Laws.Rebuild.vrmax (w : Sys2Proof.GWord) : Sys2Proof.Laws.Rebuild.Statement (.vrmax w) := rfl
theorem Sys2Proof.Laws.Rebuild.vrmin (w : Sys2Proof.GWord) : Sys2Proof.Laws.Rebuild.Statement (.vrmin w) := rfl
theorem Sys2Proof.Laws.Rebuild.vscan (w : Sys2Proof.GWord) : Sys2Proof.Laws.Rebuild.Statement (.vscan w) := rfl
theorem Sys2Proof.Laws.Rebuild.vdot (w : Sys2Proof.GWord) : Sys2Proof.Laws.Rebuild.Statement (.vdot w) := rfl
theorem Sys2Proof.Laws.Rebuild.vsel (w : Sys2Proof.GWord) : Sys2Proof.Laws.Rebuild.Statement (.vsel w) := rfl
theorem Sys2Proof.Laws.Rebuild.vcmp (w : Sys2Proof.GWord) : Sys2Proof.Laws.Rebuild.Statement (.vcmp w) := rfl
theorem Sys2Proof.Laws.Rebuild.mand (w : Sys2Proof.GWord) : Sys2Proof.Laws.Rebuild.Statement (.mand w) := rfl
theorem Sys2Proof.Laws.Rebuild.mor (w : Sys2Proof.GWord) : Sys2Proof.Laws.Rebuild.Statement (.mor w) := rfl
theorem Sys2Proof.Laws.Rebuild.mxor (w : Sys2Proof.GWord) : Sys2Proof.Laws.Rebuild.Statement (.mxor w) := rfl
theorem Sys2Proof.Laws.Rebuild.mnot (w : Sys2Proof.GWord) : Sys2Proof.Laws.Rebuild.Statement (.mnot w) := rfl
theorem Sys2Proof.Laws.Rebuild.mpopc (w : Sys2Proof.GWord) : Sys2Proof.Laws.Rebuild.Statement (.mpopc w) := rfl
theorem Sys2Proof.Laws.Rebuild.mffs (w : Sys2Proof.GWord) : Sys2Proof.Laws.Rebuild.Statement (.mffs w) := rfl
theorem Sys2Proof.Laws.Rebuild.mbit (w : Sys2Proof.GWord) : Sys2Proof.Laws.Rebuild.Statement (.mbit w) := rfl
theorem Sys2Proof.Laws.Rebuild.mtst (w : Sys2Proof.GWord) : Sys2Proof.Laws.Rebuild.Statement (.mtst w) := rfl
theorem Sys2Proof.Laws.Rebuild.radd (w : Sys2Proof.GWord) : Sys2Proof.Laws.Rebuild.Statement (.radd w) := rfl
theorem Sys2Proof.Laws.Rebuild.rmax (w : Sys2Proof.GWord) : Sys2Proof.Laws.Rebuild.Statement (.rmax w) := rfl
theorem Sys2Proof.Laws.Rebuild.rmin (w : Sys2Proof.GWord) : Sys2Proof.Laws.Rebuild.Statement (.rmin w) := rfl
theorem Sys2Proof.Laws.Rebuild.rjoin (w : Sys2Proof.GWord) : Sys2Proof.Laws.Rebuild.Statement (.rjoin w) := rfl
theorem Sys2Proof.Laws.Rebuild.kmerge (w : Sys2Proof.GWord) : Sys2Proof.Laws.Rebuild.Statement (.kmerge w) := rfl
theorem Sys2Proof.Laws.Rebuild.ld (w : Sys2Proof.MWord) : Sys2Proof.Laws.Rebuild.Statement (.ld w) := rfl
theorem Sys2Proof.Laws.Rebuild.st (w : Sys2Proof.MWord) : Sys2Proof.Laws.Rebuild.Statement (.st w) := rfl
theorem Sys2Proof.Laws.Rebuild.ldv (w : Sys2Proof.MWord) : Sys2Proof.Laws.Rebuild.Statement (.ldv w) := rfl
theorem Sys2Proof.Laws.Rebuild.stv (w : Sys2Proof.MWord) : Sys2Proof.Laws.Rebuild.Statement (.stv w) := rfl
theorem Sys2Proof.Laws.Rebuild.gath (w : Sys2Proof.MWord) : Sys2Proof.Laws.Rebuild.Statement (.gath w) := rfl
theorem Sys2Proof.Laws.Rebuild.scat (w : Sys2Proof.MWord) : Sys2Proof.Laws.Rebuild.Statement (.scat w) := rfl
theorem Sys2Proof.Laws.Rebuild.aadd (w : Sys2Proof.MWord) : Sys2Proof.Laws.Rebuild.Statement (.aadd w) := rfl
theorem Sys2Proof.Laws.Rebuild.amin (w : Sys2Proof.MWord) : Sys2Proof.Laws.Rebuild.Statement (.amin w) := rfl
theorem Sys2Proof.Laws.Rebuild.amax (w : Sys2Proof.MWord) : Sys2Proof.Laws.Rebuild.Statement (.amax w) := rfl
theorem Sys2Proof.Laws.Rebuild.aand (w : Sys2Proof.MWord) : Sys2Proof.Laws.Rebuild.Statement (.aand w) := rfl
theorem Sys2Proof.Laws.Rebuild.aor (w : Sys2Proof.MWord) : Sys2Proof.Laws.Rebuild.Statement (.aor w) := rfl
theorem Sys2Proof.Laws.Rebuild.axor (w : Sys2Proof.MWord) : Sys2Proof.Laws.Rebuild.Statement (.axor w) := rfl
theorem Sys2Proof.Laws.Rebuild.axchg (w : Sys2Proof.MWord) : Sys2Proof.Laws.Rebuild.Statement (.axchg w) := rfl
theorem Sys2Proof.Laws.Rebuild.acas (w : Sys2Proof.MWord) : Sys2Proof.Laws.Rebuild.Statement (.acas w) := rfl
theorem Sys2Proof.Laws.Rebuild.afadd (w : Sys2Proof.MWord) : Sys2Proof.Laws.Rebuild.Statement (.afadd w) := rfl
theorem Sys2Proof.Laws.Rebuild.bred (w : Sys2Proof.MWord) : Sys2Proof.Laws.Rebuild.Statement (.bred w) := rfl
theorem Sys2Proof.Laws.Rebuild.bupd (w : Sys2Proof.MWord) : Sys2Proof.Laws.Rebuild.Statement (.bupd w) := rfl
theorem Sys2Proof.Laws.Rebuild.mnop (w : Sys2Proof.MWord) : Sys2Proof.Laws.Rebuild.Statement (.mnop w) := rfl
theorem Sys2Proof.Laws.Rebuild.ldrgn (w : Sys2Proof.MWord) : Sys2Proof.Laws.Rebuild.Statement (.ldrgn w) := rfl
theorem Sys2Proof.Laws.Rebuild.acq (w : Sys2Proof.MWord) : Sys2Proof.Laws.Rebuild.Statement (.acq w) := rfl
theorem Sys2Proof.Laws.Rebuild.rel (w : Sys2Proof.MWord) : Sys2Proof.Laws.Rebuild.Statement (.rel w) := rfl
theorem Sys2Proof.Laws.Rebuild.fence (w : Sys2Proof.MWord) : Sys2Proof.Laws.Rebuild.Statement (.fence w) := rfl
theorem Sys2Proof.Laws.Rebuild.seminc (w : Sys2Proof.MWord) : Sys2Proof.Laws.Rebuild.Statement (.seminc w) := rfl
theorem Sys2Proof.Laws.Rebuild.semwait (w : Sys2Proof.MWord) : Sys2Proof.Laws.Rebuild.Statement (.semwait w) := rfl
theorem Sys2Proof.Laws.Rebuild.semrd (w : Sys2Proof.MWord) : Sys2Proof.Laws.Rebuild.Statement (.semrd w) := rfl
theorem Sys2Proof.Laws.Rebuild.sbwait (w : Sys2Proof.MWord) : Sys2Proof.Laws.Rebuild.Statement (.sbwait w) := rfl
theorem Sys2Proof.Laws.Rebuild.tgive (w : Sys2Proof.MWord) : Sys2Proof.Laws.Rebuild.Statement (.tgive w) := rfl
theorem Sys2Proof.Laws.Rebuild.ttake (w : Sys2Proof.MWord) : Sys2Proof.Laws.Rebuild.Statement (.ttake w) := rfl
theorem Sys2Proof.Laws.Rebuild.bar (w : Sys2Proof.GWord) : Sys2Proof.Laws.Rebuild.Statement (.bar w) := rfl
theorem Sys2Proof.Laws.Rebuild.bara (w : Sys2Proof.GWord) : Sys2Proof.Laws.Rebuild.Statement (.bara w) := rfl
theorem Sys2Proof.Laws.Rebuild.barw (w : Sys2Proof.GWord) : Sys2Proof.Laws.Rebuild.Statement (.barw w) := rfl
theorem Sys2Proof.Laws.Rebuild.pset (w : Sys2Proof.EWord) : Sys2Proof.Laws.Rebuild.Statement (.pset w) := rfl
theorem Sys2Proof.Laws.Rebuild.copy (w : Sys2Proof.EWord) : Sys2Proof.Laws.Rebuild.Statement (.copy w) := rfl
theorem Sys2Proof.Laws.Rebuild.copyr (w : Sys2Proof.EWord) : Sys2Proof.Laws.Rebuild.Statement (.copyr w) := rfl
theorem Sys2Proof.Laws.Rebuild.tsend (w : Sys2Proof.EWord) : Sys2Proof.Laws.Rebuild.Statement (.tsend w) := rfl
theorem Sys2Proof.Laws.Rebuild.rread (w : Sys2Proof.EWord) : Sys2Proof.Laws.Rebuild.Statement (.rread w) := rfl
theorem Sys2Proof.Laws.Rebuild.wopen (w : Sys2Proof.EWord) : Sys2Proof.Laws.Rebuild.Statement (.wopen w) := rfl
theorem Sys2Proof.Laws.Rebuild.wclose (w : Sys2Proof.EWord) : Sys2Proof.Laws.Rebuild.Statement (.wclose w) := rfl
theorem Sys2Proof.Laws.Rebuild.flopen (w : Sys2Proof.EWord) : Sys2Proof.Laws.Rebuild.Statement (.flopen w) := rfl
theorem Sys2Proof.Laws.Rebuild.flpush (w : Sys2Proof.EWord) : Sys2Proof.Laws.Rebuild.Statement (.flpush w) := rfl
theorem Sys2Proof.Laws.Rebuild.flfree (w : Sys2Proof.EWord) : Sys2Proof.Laws.Rebuild.Statement (.flfree w) := rfl
theorem Sys2Proof.Laws.Rebuild.flclose (w : Sys2Proof.EWord) : Sys2Proof.Laws.Rebuild.Statement (.flclose w) := rfl
theorem Sys2Proof.Laws.Rebuild.kvtab (w : Sys2Proof.EWord) : Sys2Proof.Laws.Rebuild.Statement (.kvtab w) := rfl
theorem Sys2Proof.Laws.Rebuild.kvgath (w : Sys2Proof.EWord) : Sys2Proof.Laws.Rebuild.Statement (.kvgath w) := rfl
theorem Sys2Proof.Laws.Rebuild.kvapp (w : Sys2Proof.EWord) : Sys2Proof.Laws.Rebuild.Statement (.kvapp w) := rfl
theorem Sys2Proof.Laws.Rebuild.kvinv (w : Sys2Proof.EWord) : Sys2Proof.Laws.Rebuild.Statement (.kvinv w) := rfl
theorem Sys2Proof.Laws.Rebuild.nvrd (w : Sys2Proof.EWord) : Sys2Proof.Laws.Rebuild.Statement (.nvrd w) := rfl
theorem Sys2Proof.Laws.Rebuild.nvwr (w : Sys2Proof.EWord) : Sys2Proof.Laws.Rebuild.Statement (.nvwr w) := rfl
theorem Sys2Proof.Laws.Rebuild.cred (w : Sys2Proof.EWord) : Sys2Proof.Laws.Rebuild.Statement (.cred w) := rfl
theorem Sys2Proof.Laws.Rebuild.cbcast (w : Sys2Proof.EWord) : Sys2Proof.Laws.Rebuild.Statement (.cbcast w) := rfl
theorem Sys2Proof.Laws.Rebuild.cgath (w : Sys2Proof.EWord) : Sys2Proof.Laws.Rebuild.Statement (.cgath w) := rfl
theorem Sys2Proof.Laws.Rebuild.wload (w : Sys2Proof.EWord) : Sys2Proof.Laws.Rebuild.Statement (.wload w) := rfl
theorem Sys2Proof.Laws.Rebuild.wswap (w : Sys2Proof.EWord) : Sys2Proof.Laws.Rebuild.Statement (.wswap w) := rfl
theorem Sys2Proof.Laws.Rebuild.mma (w : Sys2Proof.EWord) : Sys2Proof.Laws.Rebuild.Statement (.mma w) := rfl
theorem Sys2Proof.Laws.Rebuild.mrecur (w : Sys2Proof.EWord) : Sys2Proof.Laws.Rebuild.Statement (.mrecur w) := rfl
theorem Sys2Proof.Laws.Rebuild.macc (w : Sys2Proof.EWord) : Sys2Proof.Laws.Rebuild.Statement (.macc w) := rfl
theorem Sys2Proof.Laws.Rebuild.mzero (w : Sys2Proof.EWord) : Sys2Proof.Laws.Rebuild.Statement (.mzero w) := rfl
theorem Sys2Proof.Laws.Rebuild.mstat (w : Sys2Proof.EWord) : Sys2Proof.Laws.Rebuild.Statement (.mstat w) := rfl
theorem Sys2Proof.Laws.Rebuild.kcfg (w : Sys2Proof.EWord) : Sys2Proof.Laws.Rebuild.Statement (.kcfg w) := rfl
theorem Sys2Proof.Laws.Rebuild.kbias (w : Sys2Proof.EWord) : Sys2Proof.Laws.Rebuild.Statement (.kbias w) := rfl
theorem Sys2Proof.Laws.Rebuild.kmask (w : Sys2Proof.EWord) : Sys2Proof.Laws.Rebuild.Statement (.kmask w) := rfl
theorem Sys2Proof.Laws.Rebuild.kbind (w : Sys2Proof.EWord) : Sys2Proof.Laws.Rebuild.Statement (.kbind w) := rfl
theorem Sys2Proof.Laws.Rebuild.kunbind (w : Sys2Proof.EWord) : Sys2Proof.Laws.Rebuild.Statement (.kunbind w) := rfl
theorem Sys2Proof.Laws.Rebuild.klife (w : Sys2Proof.EWord) : Sys2Proof.Laws.Rebuild.Statement (.klife w) := rfl
theorem Sys2Proof.Laws.Rebuild.kqry (w : Sys2Proof.EWord) : Sys2Proof.Laws.Rebuild.Statement (.kqry w) := rfl
theorem Sys2Proof.Laws.Rebuild.kstat (w : Sys2Proof.EWord) : Sys2Proof.Laws.Rebuild.Statement (.kstat w) := rfl
theorem Sys2Proof.Laws.Rebuild.launch (w : Sys2Proof.EWord) : Sys2Proof.Laws.Rebuild.Statement (.launch w) := rfl
theorem Sys2Proof.Laws.Rebuild.garm (w : Sys2Proof.EWord) : Sys2Proof.Laws.Rebuild.Statement (.garm w) := rfl
theorem Sys2Proof.Laws.Rebuild.spawn (w : Sys2Proof.EWord) : Sys2Proof.Laws.Rebuild.Statement (.spawn w) := rfl
theorem Sys2Proof.Laws.Rebuild.tret (w : Sys2Proof.EWord) : Sys2Proof.Laws.Rebuild.Statement (.tret w) := rfl
theorem Sys2Proof.Laws.Rebuild.hreg (w : Sys2Proof.EWord) : Sys2Proof.Laws.Rebuild.Statement (.hreg w) := rfl
theorem Sys2Proof.Laws.Rebuild.hregUnreg (w : Sys2Proof.EWord) : Sys2Proof.Laws.Rebuild.Statement (.hregUnreg w) := rfl
theorem Sys2Proof.Laws.Rebuild.msend (w : Sys2Proof.EWord) : Sys2Proof.Laws.Rebuild.Statement (.msend w) := rfl
theorem Sys2Proof.Laws.Rebuild.msendTrig (w : Sys2Proof.EWord) : Sys2Proof.Laws.Rebuild.Statement (.msendTrig w) := rfl
theorem Sys2Proof.Laws.Rebuild.mrecv (w : Sys2Proof.EWord) : Sys2Proof.Laws.Rebuild.Statement (.mrecv w) := rfl
theorem Sys2Proof.Laws.Rebuild.mprobe (w : Sys2Proof.EWord) : Sys2Proof.Laws.Rebuild.Statement (.mprobe w) := rfl
theorem Sys2Proof.Laws.Rebuild.nopen (w : Sys2Proof.EWord) : Sys2Proof.Laws.Rebuild.Statement (.nopen w) := rfl
theorem Sys2Proof.Laws.Rebuild.nclose (w : Sys2Proof.EWord) : Sys2Proof.Laws.Rebuild.Statement (.nclose w) := rfl
theorem Sys2Proof.Laws.Rebuild.nbind (w : Sys2Proof.EWord) : Sys2Proof.Laws.Rebuild.Statement (.nbind w) := rfl
theorem Sys2Proof.Laws.Rebuild.nrebind (w : Sys2Proof.EWord) : Sys2Proof.Laws.Rebuild.Statement (.nrebind w) := rfl
theorem Sys2Proof.Laws.Rebuild.nunbind (w : Sys2Proof.EWord) : Sys2Proof.Laws.Rebuild.Statement (.nunbind w) := rfl
theorem Sys2Proof.Laws.Rebuild.nlook (w : Sys2Proof.EWord) : Sys2Proof.Laws.Rebuild.Statement (.nlook w) := rfl
theorem Sys2Proof.Laws.Rebuild.rdsr (w : Sys2Proof.SWord) : Sys2Proof.Laws.Rebuild.Statement (.rdsr w) := rfl
theorem Sys2Proof.Laws.Rebuild.wrsr (w : Sys2Proof.SWord) : Sys2Proof.Laws.Rebuild.Statement (.wrsr w) := rfl
theorem Sys2Proof.Laws.Rebuild.tinv (w : Sys2Proof.SWord) : Sys2Proof.Laws.Rebuild.Statement (.tinv w) := rfl
theorem Sys2Proof.Laws.Rebuild.tsync (w : Sys2Proof.SWord) : Sys2Proof.Laws.Rebuild.Statement (.tsync w) := rfl
theorem Sys2Proof.Laws.Rebuild.tprobe (w : Sys2Proof.SWord) : Sys2Proof.Laws.Rebuild.Statement (.tprobe w) := rfl
theorem Sys2Proof.Laws.Rebuild.keyset (w : Sys2Proof.SWord) : Sys2Proof.Laws.Rebuild.Statement (.keyset w) := rfl
theorem Sys2Proof.Laws.Rebuild.trap (w : Sys2Proof.SWord) : Sys2Proof.Laws.Rebuild.Statement (.trap w) := rfl
theorem Sys2Proof.Laws.Rebuild.brk (w : Sys2Proof.SWord) : Sys2Proof.Laws.Rebuild.Statement (.brk w) := rfl
theorem Sys2Proof.Laws.Rebuild.fret (w : Sys2Proof.SWord) : Sys2Proof.Laws.Rebuild.Statement (.fret w) := rfl
theorem Sys2Proof.Laws.Rebuild.frec (w : Sys2Proof.SWord) : Sys2Proof.Laws.Rebuild.Statement (.frec w) := rfl
theorem Sys2Proof.Laws.Rebuild.operandTokenArrival (c k : Nat) : Sys2Proof.Laws.Rebuild.Statement (.operandTokenArrival c k) := trivial
theorem Sys2Proof.Laws.Rebuild.doneTokenArrival (k : Nat) : Sys2Proof.Laws.Rebuild.Statement (.doneTokenArrival k) := trivial
theorem Sys2Proof.Laws.Rebuild.invocationStart (c p : Nat) : Sys2Proof.Laws.Rebuild.Statement (.invocationStart c p) := trivial
theorem Sys2Proof.Laws.Rebuild.invocationCommit (c p k : Nat) : Sys2Proof.Laws.Rebuild.Statement (.invocationCommit c p k) := trivial
theorem Sys2Proof.Laws.Rebuild.engineQueueRoom (c p : Nat) : Sys2Proof.Laws.Rebuild.Statement (.engineQueueRoom c p) := trivial
theorem Sys2Proof.Laws.Rebuild.wmTokensSet (c p : Nat) : Sys2Proof.Laws.Rebuild.Statement (.wmTokensSet c p) := trivial
theorem Sys2Proof.Laws.Rebuild.invocationDiscard (c p : Nat) : Sys2Proof.Laws.Rebuild.Statement (.invocationDiscard c p) := trivial
theorem Sys2Proof.Laws.Rebuild.drainLimitExpiry (c p : Nat) : Sys2Proof.Laws.Rebuild.Statement (.drainLimitExpiry c p) := trivial
theorem Sys2Proof.Laws.Rebuild.watchdogExpiry (c p k : Nat) : Sys2Proof.Laws.Rebuild.Statement (.watchdogExpiry c p k) := trivial
theorem Sys2Proof.Laws.Rebuild.tagPoolDeadlock (c p : Nat) : Sys2Proof.Laws.Rebuild.Statement (.tagPoolDeadlock c p) := trivial
theorem Sys2Proof.Laws.Rebuild.blockMap (c p : Nat) : Sys2Proof.Laws.Rebuild.Statement (.blockMap c p) := trivial
theorem Sys2Proof.Laws.Rebuild.blockCacheFill (c p : Nat) : Sys2Proof.Laws.Rebuild.Statement (.blockCacheFill c p) := trivial
theorem Sys2Proof.Laws.Rebuild.memoryRequestArrival (k : Nat) : Sys2Proof.Laws.Rebuild.Statement (.memoryRequestArrival k) := trivial
theorem Sys2Proof.Laws.Rebuild.streamReadAhead (c p ix it a : Nat) : Sys2Proof.Laws.Rebuild.Statement (.streamReadAhead c p ix it a) := trivial
theorem Sys2Proof.Laws.Rebuild.engineCompletion (c u : Nat) : Sys2Proof.Laws.Rebuild.Statement (.engineCompletion c u) := trivial
theorem Sys2Proof.Laws.Rebuild.engineFault (c p : Nat) : Sys2Proof.Laws.Rebuild.Statement (.engineFault c p) := trivial
theorem Sys2Proof.Laws.Rebuild.freedSlotNotice (k : Nat) : Sys2Proof.Laws.Rebuild.Statement (.freedSlotNotice k) := trivial
theorem Sys2Proof.Laws.Rebuild.flumeSlotLanding (k : Nat) : Sys2Proof.Laws.Rebuild.Statement (.flumeSlotLanding k) := trivial
theorem Sys2Proof.Laws.Rebuild.landingRingRecheck (k : Nat) : Sys2Proof.Laws.Rebuild.Statement (.landingRingRecheck k) := trivial
theorem Sys2Proof.Laws.Rebuild.kvBlockLoadCompletion (k : Nat) : Sys2Proof.Laws.Rebuild.Statement (.kvBlockLoadCompletion k) := trivial
theorem Sys2Proof.Laws.Rebuild.kbtbInvalidateAck (k : Nat) : Sys2Proof.Laws.Rebuild.Statement (.kbtbInvalidateAck k) := trivial
theorem Sys2Proof.Laws.Rebuild.nvmeCompletion (k : Nat) : Sys2Proof.Laws.Rebuild.Statement (.nvmeCompletion k) := trivial
theorem Sys2Proof.Laws.Rebuild.nvmeTimeout (k : Nat) : Sys2Proof.Laws.Rebuild.Statement (.nvmeTimeout k) := trivial
theorem Sys2Proof.Laws.Rebuild.routeTagDelivery (k : Nat) : Sys2Proof.Laws.Rebuild.Statement (.routeTagDelivery k) := trivial
theorem Sys2Proof.Laws.Rebuild.windowDelivery (k : Nat) : Sys2Proof.Laws.Rebuild.Statement (.windowDelivery k) := trivial
theorem Sys2Proof.Laws.Rebuild.rreadOwnerRead (k : Nat) : Sys2Proof.Laws.Rebuild.Statement (.rreadOwnerRead k) := trivial
theorem Sys2Proof.Laws.Rebuild.rreadAck (k : Nat) : Sys2Proof.Laws.Rebuild.Statement (.rreadAck k) := trivial
theorem Sys2Proof.Laws.Rebuild.collectiveEpisode (k : Nat) : Sys2Proof.Laws.Rebuild.Statement (.collectiveEpisode k) := trivial
theorem Sys2Proof.Laws.Rebuild.matrixTileCommit (c : Nat) : Sys2Proof.Laws.Rebuild.Statement (.matrixTileCommit c) := trivial
theorem Sys2Proof.Laws.Rebuild.kmsCommandArrival (k : Nat) : Sys2Proof.Laws.Rebuild.Statement (.kmsCommandArrival k) := trivial
theorem Sys2Proof.Laws.Rebuild.semaphoreUpdate (k : Nat) : Sys2Proof.Laws.Rebuild.Statement (.semaphoreUpdate k) := trivial
theorem Sys2Proof.Laws.Rebuild.syncObjectIncrement (k : Nat) : Sys2Proof.Laws.Rebuild.Statement (.syncObjectIncrement k) := trivial
theorem Sys2Proof.Laws.Rebuild.barrierArrival (k : Nat) : Sys2Proof.Laws.Rebuild.Statement (.barrierArrival k) := trivial
theorem Sys2Proof.Laws.Rebuild.admissionInterval (d : Nat) : Sys2Proof.Laws.Rebuild.Statement (.admissionInterval d) := trivial
theorem Sys2Proof.Laws.Rebuild.contextImageWrite (n : Nat) : Sys2Proof.Laws.Rebuild.Statement (.contextImageWrite n) := trivial
theorem Sys2Proof.Laws.Rebuild.statusWordWrite (k : Nat) : Sys2Proof.Laws.Rebuild.Statement (.statusWordWrite k) := trivial
theorem Sys2Proof.Laws.Rebuild.statusWriteRetry (k : Nat) : Sys2Proof.Laws.Rebuild.Statement (.statusWriteRetry k) := trivial
theorem Sys2Proof.Laws.Rebuild.triggerDispatch (k : Nat) : Sys2Proof.Laws.Rebuild.Statement (.triggerDispatch k) := trivial
theorem Sys2Proof.Laws.Rebuild.messageArrival (k : Nat) : Sys2Proof.Laws.Rebuild.Statement (.messageArrival k) := trivial
theorem Sys2Proof.Laws.Rebuild.messageRetry (k : Nat) : Sys2Proof.Laws.Rebuild.Statement (.messageRetry k) := trivial
theorem Sys2Proof.Laws.Rebuild.objectReclamation (k : Nat) : Sys2Proof.Laws.Rebuild.Statement (.objectReclamation k) := trivial
theorem Sys2Proof.Laws.Rebuild.freeListHeadRecheck (k : Nat) : Sys2Proof.Laws.Rebuild.Statement (.freeListHeadRecheck k) := trivial
theorem Sys2Proof.Laws.Rebuild.tinvHolderAck (k : Nat) : Sys2Proof.Laws.Rebuild.Statement (.tinvHolderAck k) := trivial
theorem Sys2Proof.Laws.Rebuild.keySlotReplace (k : Nat) : Sys2Proof.Laws.Rebuild.Statement (.keySlotReplace k) := trivial
theorem Sys2Proof.Laws.Rebuild.faultRecordDelivery (k : Nat) : Sys2Proof.Laws.Rebuild.Statement (.faultRecordDelivery k) := trivial
theorem Sys2Proof.Laws.Rebuild.monitorResolve (i mode : Nat) : Sys2Proof.Laws.Rebuild.Statement (.monitorResolve i mode) := trivial
theorem Sys2Proof.Laws.Rebuild.egressArbitration (r port : Nat) : Sys2Proof.Laws.Rebuild.Statement (.egressArbitration r port) := trivial
theorem Sys2Proof.Laws.Rebuild.ageingStep (r k : Nat) : Sys2Proof.Laws.Rebuild.Statement (.ageingStep r k) := trivial
theorem Sys2Proof.Laws.Rebuild.headgateCharge (c part : Nat) : Sys2Proof.Laws.Rebuild.Statement (.headgateCharge c part) := trivial
theorem Sys2Proof.Laws.Rebuild.headgateRefill (d : Nat) : Sys2Proof.Laws.Rebuild.Statement (.headgateRefill d) := trivial
theorem Sys2Proof.Laws.Rebuild.sluiceLeak (c : Nat) : Sys2Proof.Laws.Rebuild.Statement (.sluiceLeak c) := trivial
theorem Sys2Proof.Laws.Rebuild.linkFlitReceive (port : Nat) : Sys2Proof.Laws.Rebuild.Statement (.linkFlitReceive port) := trivial
theorem Sys2Proof.Laws.Rebuild.linkAckReceive (port : Nat) : Sys2Proof.Laws.Rebuild.Statement (.linkAckReceive port) := trivial
theorem Sys2Proof.Laws.Rebuild.laneFailure (port lane : Nat) : Sys2Proof.Laws.Rebuild.Statement (.laneFailure port lane) := trivial
theorem Sys2Proof.Laws.Rebuild.plannedWidthChange (port width : Nat) : Sys2Proof.Laws.Rebuild.Statement (.plannedWidthChange port width) := trivial
theorem Sys2Proof.Laws.Rebuild.islandDvfsChange (i setting : Nat) : Sys2Proof.Laws.Rebuild.Statement (.islandDvfsChange i setting) := trivial
theorem Sys2Proof.Laws.Rebuild.thermalThrottle (tj : Nat) : Sys2Proof.Laws.Rebuild.Statement (.thermalThrottle tj) := trivial
theorem Sys2Proof.Laws.Rebuild.thermalTrip (tj : Nat) : Sys2Proof.Laws.Rebuild.Statement (.thermalTrip tj) := trivial
theorem Sys2Proof.Laws.Rebuild.coldReset : Sys2Proof.Laws.Rebuild.Statement .coldReset := trivial
theorem Sys2Proof.Laws.Rebuild.warmReset (src : Nat) : Sys2Proof.Laws.Rebuild.Statement (.warmReset src) := trivial
theorem Sys2Proof.Laws.Rebuild.partitionReset (p src : Nat) : Sys2Proof.Laws.Rebuild.Statement (.partitionReset p src) := trivial
theorem Sys2Proof.Laws.Rebuild.sectionAbort (q rec : Nat) : Sys2Proof.Laws.Rebuild.Statement (.sectionAbort q rec) := trivial
theorem Sys2Proof.Laws.Rebuild.bootStage (fail : Nat) : Sys2Proof.Laws.Rebuild.Statement (.bootStage fail) := trivial
theorem Sys2Proof.Laws.Rebuild.attestationSign (nonce : Nat) : Sys2Proof.Laws.Rebuild.Statement (.attestationSign nonce) := trivial
theorem Sys2Proof.Laws.Rebuild.lqCfgWrite (agent q v : Nat) : Sys2Proof.Laws.Rebuild.Statement (.lqCfgWrite agent q v) := trivial
theorem Sys2Proof.Laws.Rebuild.lqTailWrite (agent q v : Nat) : Sys2Proof.Laws.Rebuild.Statement (.lqTailWrite agent q v) := trivial
theorem Sys2Proof.Laws.Rebuild.cgrpTableWrite (agent p v : Nat) : Sys2Proof.Laws.Rebuild.Statement (.cgrpTableWrite agent p v) := trivial
theorem Sys2Proof.Laws.Rebuild.slSlotBaseWrite (agent v : Nat) : Sys2Proof.Laws.Rebuild.Statement (.slSlotBaseWrite agent v) := trivial
theorem Sys2Proof.Laws.Rebuild.ptCfgWrite (agent p v : Nat) : Sys2Proof.Laws.Rebuild.Statement (.ptCfgWrite agent p v) := trivial
theorem Sys2Proof.Laws.Rebuild.safeSelWrite (agent n v : Nat) : Sys2Proof.Laws.Rebuild.Statement (.safeSelWrite agent n v) := trivial
theorem Sys2Proof.Laws.Rebuild.hostBar2Read (off n : Nat) : Sys2Proof.Laws.Rebuild.Statement (.hostBar2Read off n) := trivial
theorem Sys2Proof.Laws.Rebuild.hostBar2Write (off n v : Nat) : Sys2Proof.Laws.Rebuild.Statement (.hostBar2Write off n v) := trivial
theorem Sys2Proof.Laws.Rebuild.registerWrite (agent n v : Nat) : Sys2Proof.Laws.Rebuild.Statement (.registerWrite agent n v) := trivial
theorem Sys2Proof.Laws.Rebuild.linkRetrainComplete (port : Nat) : Sys2Proof.Laws.Rebuild.Statement (.linkRetrainComplete port) := trivial
theorem Sys2Proof.Laws.Rebuild.powerFailure : Sys2Proof.Laws.Rebuild.Statement .powerFailure := trivial
theorem Sys2Proof.Laws.Rebuild.managementCorePreemption (n : Nat) : Sys2Proof.Laws.Rebuild.Statement (.managementCorePreemption n) := trivial
end

