-- ==== Sys2Proof/Tests/Slice0.lean ====
section
/-!
SUPPORT. Tests: a word of every instruction written out from R58 to R66 and the rows of its family, terms that are not
well-formed, steps on small states, and for each statement with hypotheses a state and operands that meet them. Expected
results are the spec's, or worked out by hand from its rules.
-/

namespace Sys2Proof.Tests

open Sys2Proof.Machine

-- The kernel checks each test before the next is read: hundreds waiting at once would each hold a thread.
set_option Elab.async false

/-! ### Words (R58 to R66) -/

/-- Each word decodes, to an instruction of the row beside it. -/
def decodeTo (l : List (Nat × Op)) : Bool :=
  l.all fun e => match decodeWord e.1 0 with
    | .ok i => i.view.any fun x => x.1 = e.2
    | .error _ => false

theorem test_words_plumbing : decodeTo
  [(0x0100000000000000, .nop), (0x020C428000000000, .const), (0x0300428000000000, .mov), (0x0400428000000000, .read),
   (0x050080C000100000, .write), (0x0600428860000000, .steer), (0x0700428000000000, .merge),
   (0x0800428000000000, .pand), (0x0900428000000000, .por), (0x0A00428000000000, .pxor), (0x0B00428000000000, .pnot),
   (0x0C00428000000000, .iterid), (0x0D00428000000000, .nullq), (0x0E0C428000000000, .nfill),
   (0x0F00428000000000, .niter)] = true := by decide

theorem test_words_exits : decodeTo
  [(0x1000000000000000, .bro), (0x1101000000000000, .br), (0x1200000000000000, .callo), (0x1301000000000000, .call),
   (0x1401000000000000, .ret), (0x1500000000000000, .quit), (0x1600428000100000, .binv)] = true := by decide

theorem test_words_integer : decodeTo
  [(0x200C428000000000, .add), (0x210C428000000000, .sub), (0x220C428000000000, .mul), (0x230C428000000000, .mulh),
   (0x241C428000000000, .mulhn), (0x250C428000000000, .div), (0x261C428000000000, .divn), (0x270C428000000000, .rem),
   (0x281C428000000000, .remn), (0x290C428000000000, .adds), (0x2A0C428000000000, .subs), (0x2B0C428000000000, .madd),
   (0x2C0C428000000000, .and), (0x2D0C428000000000, .or), (0x2E0C428000000000, .xor), (0x2F0C428000000000, .andn),
   (0x300C428000000000, .shl), (0x310C428000000000, .shr), (0x320C428000000000, .sar), (0x330C428000000000, .rot),
   (0x340C428000000000, .min), (0x350C428000000000, .max), (0x360C428000000000, .abs), (0x370C428000000000, .neg),
   (0x380C428000000000, .clz), (0x390C428000000000, .ctz), (0x3A0C428000000000, .popc), (0x3B0C428000000008, .sext),
   (0x3C0C428000000008, .zext), (0x3D0C428000000000, .lea), (0x400C428000000000, .ceq), (0x410C428000000000, .cne),
   (0x420C428000000000, .clt), (0x430C428000000000, .cle), (0x440C428000000000, .cltn), (0x450C428000000000, .clen)] = true := by decide

theorem test_words_float : decodeTo
  [(0x6028428000000000, .fadd), (0x6128428000000000, .fsub), (0x6228428000000000, .fmul), (0x6328428000000000, .fma),
   (0x6428428000000000, .fnma), (0x6528428000000000, .fdiv), (0x6628428000000000, .fsqrt), (0x6728428000000000, .frsq),
   (0x6828428000000000, .frcp), (0x6928428000000000, .fexp2), (0x6A28428000000000, .flog2),
   (0x6B28428000000000, .fmin), (0x6C28428000000000, .fmax), (0x6D28428000000000, .fabs), (0x6E28428000000000, .fneg),
   (0x6F28428000000000, .fsgn), (0x7028428000000000, .fclass), (0x7128428000000000, .fscale),
   (0x7428428000000000, .fceq), (0x7528428000000000, .fclt), (0x7628428000000000, .fcle), (0x7728428000000000, .fcun)] = true := by decide

theorem test_words_conversions : decodeTo
  [(0x782842800000000B, .fcvt), (0x7928428000000002, .icvtf), (0x7A0842800000000A, .fcvti), (0x7B28428000000000, .qnt),
   (0x7C28428000000000, .dqnt), (0x7D28428000000000, .gscale), (0x7E28428000000000, .mxpack),
   (0x7F28428000000000, .mxunpk), (0x8000428000000000, .pack), (0x8104428000000000, .unpack)] = true := by decide

theorem test_words_vectors : decodeTo
  [(0x9008428000000000, .vbcast), (0x9108428000000000, .vext), (0x9208428000000000, .vins),
   (0x9308428000000000, .vperm), (0x9408428000000000, .vshuf), (0x9508428000000000, .vradd),
   (0x9608428000000000, .vrmax), (0x9708428000000000, .vrmin), (0x9808428000000000, .vscan),
   (0x9908428000000000, .vdot), (0x9A08428000000000, .vsel), (0x9B08428000000000, .vcmp),
   (0x9008428000010000, .vbcastLane), (0xA038428000000000, .mand), (0xA138428000000000, .mor),
   (0xA238428000000000, .mxor), (0xA338428000000000, .mnot), (0xA438428000000000, .mpopc), (0xA538428000000000, .mffs),
   (0xA638428000000000, .mbit), (0xA738428000000000, .mtst)] = true := by decide

theorem test_words_reductions : decodeTo
  [(0xA828428000000002, .radd), (0xA928428000000002, .rmax), (0xAA28428000000002, .rmin), (0xAB28428000000002, .rjoin),
   (0xAC28428000000102, .kmerge)] = true := by decide

theorem test_words_memory : decodeTo
  [(0xB012021480040000, .ld), (0xB112000080040000, .st), (0xB22A021480040000, .ldv), (0xB32A000080040000, .stv),
   (0xB412021480040000, .gath), (0xB512000080040000, .scat), (0xB612000080040000, .aadd), (0xB712000080040000, .amin),
   (0xB812000080040000, .amax), (0xB912000080040000, .aand), (0xBA12000080040000, .aor), (0xBB12000080040000, .axor),
   (0xBC12000080040000, .axchg), (0xBD12000080040000, .acas), (0xBE12000080040000, .afadd),
   (0xBF2A000080040000, .bred), (0xC02A000080040000, .bupd), (0xC100000080040000, .mnop), (0xC202431B80000000, .ldrgn)] = true := by decide

theorem test_words_sync : decodeTo
  [(0xD002000080040000, .acq), (0xD102000080040000, .rel), (0xD200100080040000, .fence), (0xD300100080040000, .seminc),
   (0xD400000080040000, .semwait), (0xD500021480040000, .semrd), (0xD600000080040008, .sbwait),
   (0xD700000080040000, .tgive), (0xD800000080040000, .ttake), (0xD900000000110203, .bar), (0xDA00000000110203, .bara),
   (0xDB00000000110003, .barw)] = true := by decide

theorem test_words_engines : decodeTo
  [(0xE000000000000000, .pset), (0xE100000000000000, .copy), (0xE200000000000000, .copyr), (0xE300000000000001, .tsend),
   (0xE400000000000000, .rread), (0xE500000000000000, .wopen), (0xE500000000100000, .wclose),
   (0xE600000000000000, .flopen), (0xE600000000100000, .flpush), (0xE600000000200000, .flfree),
   (0xE600000000300000, .flclose), (0xE700000000000000, .kvtab), (0xE700000000100000, .kvgath),
   (0xE700000000200000, .kvapp), (0xE700000000300000, .kvinv), (0xE800000000000000, .nvrd),
   (0xE800000000100000, .nvwr), (0xE900000000000000, .cred), (0xE900000000100000, .cbcast),
   (0xE900000000200000, .cgath)] = true := by decide

theorem test_words_array : decodeTo
  [(0xEA00000001000000, .wload), (0xEA00000000100000, .wswap), (0xEA00000000200000, .mma),
   (0xEA00000000300000, .mrecur), (0xEA00000000404000, .macc), (0xEA00000000500000, .mzero),
   (0xEA00003200600000, .mstat)] = true := by decide

theorem test_words_keymatch : decodeTo
  [(0xEB00000000000000, .kcfg), (0xEB00000000100000, .kbias), (0xEB00000000200000, .kmask),
   (0xEB00000000300000, .kbind), (0xEB00000000400000, .kunbind), (0xEB00000000500000, .klife),
   (0xEB00003200600000, .kqry), (0xEB00003200700000, .kstat)] = true := by decide

theorem test_words_tasks : decodeTo
  [(0xEC00000000000000, .launch), (0xEC00000000100000, .garm), (0xEC00003200200000, .spawn),
   (0xEC00000000300000, .tret), (0xEC00000000400000, .hreg), (0xED00000000000000, .msend),
   (0xED00003200100000, .mrecv), (0xED00003200200000, .mprobe), (0xEC00000000410000, .hregUnreg),
   (0xED00000000010000, .msendTrig)] = true := by decide

theorem test_words_names : decodeTo
  [(0xEE00003200000000, .nopen), (0xEE00000000100000, .nclose), (0xEE00000000200000, .nbind),
   (0xEE00000000300000, .nrebind), (0xEE00000000400000, .nunbind), (0xEE00003200500000, .nlook)] = true := by decide

theorem test_words_system : decodeTo
  [(0xF810A01000000000, .rdsr), (0xF900005000000000, .wrsr), (0xFA00000000010000, .tinv), (0xFB32000000000000, .tsync),
   (0xFC10A00000000000, .tprobe), (0xFD32000000000000, .keyset), (0xFE00000000000000, .trap),
   (0xFE00000040000000, .brk), (0xFE00000080000000, .fret), (0xFE10A000C0000000, .frec)] = true := by decide

/-! ### Words that are refused -/

theorem test_refused_words :
    decodeWord 0 0 = .error .unassignedOpcode ∧ decodeWord 0x1700000000000000 0 = .error .unassignedOpcode
    ∧ decodeWord 0xFF00000000000000 0 = .error .unassignedOpcode ∧ decodeWord 0xE500000000200000 0 = .error .reservedCode
    ∧ decodeWord 0x20C0000000000000 0 = .error .reservedCode ∧ decodeWord 0x0101000000000000 0 = .error .reservedFieldNonzero
    ∧ decodeWord 0xF800001000000000 0 = .error .reservedCode := by
  refine ⟨rfl, rfl, rfl, rfl, rfl, rfl, rfl⟩

/-- A literal follows its word (R53), and bytes that end before it give no instruction. -/
theorem test_decode_literal :
    decode (natLE 0x020E700000000000 8 ++ natLE 5 8 ++ [0xAA]) = .ok (.const
      { prd := .always, ty := .i64, imm := .lit64 5, t0 := .slot 96 .l, t1 := .none, rm := .rne, sat := false, nm := .pass, ir := false, mf := 0 },
      [0xAA])
    ∧ decode (natLE 0x020E700000000000 8 ++ natLE 5 7) = .error .truncated := ⟨rfl, rfl⟩

/-! ### Terms that are not well-formed -/

/-- A G word with nothing set but its type and first target. -/
def word (t : Ty) (t0 : Target := .slot 5 .l) : GWord :=
  { prd := .always, ty := t, imm := .short 0, t0 := t0, t1 := .none, rm := .rne, sat := false, nm := .pass, ir := false, mf := 0 }

/-- An M word of wave 1 of its block, without a done token on element 3. -/
def mword (sz : BitVec 3) (asp : Asp) (t0 : Target := .none) : MWord :=
  { prd := .always, sz := sz, asp := asp, mode := .rnd, scope := .nd, t0 := t0, dt := 3, seq := 1, prev := 0, next := 0, sbw := none }

def cword : CWord := { prd := .always, exn := 0, off := 0 }

def eword (sub : BitVec 4 := 0) (imm : BitVec 16 := 0) (t0 : Target := .none) (pat : BitVec 4 := 0) (unit : BitVec 3 := 0) : EWord :=
  { prd := .always, sbs := none, wm := 0, pat := pat, t0 := t0, unit := unit, sub := sub, imm := imm }

def sword (srn : BitVec 11 := 0) (imm : BitVec 16 := 0) (t0 : Target := .none) : SWord := { prd := .always, t0 := t0, srn := srn, imm := imm }

/-- Fields that a definition does not use hold something (check 4). -/
theorem test_illFormed_reservedField :
    (Instr.nop { word .i8 .none with mf := 1 }).WellFormed = false ∧ (Instr.mov { word .i8 with imm := .short 1 }).WellFormed = false
    ∧ (Instr.add { word .i8 with sat := true }).WellFormed = false ∧ (Instr.const { word .f16 with imm := .lit32 0x10000 }).WellFormed = false
    ∧ (Instr.mnop { mword 0 .sp with sbw := some 0 }).WellFormed = false ∧ (Instr.quit { cword with off := 1 }).WellFormed = false
    ∧ (Instr.mzero (eword (pat := 1))).WellFormed = false ∧ (Instr.kbind (eword (imm := 1))).WellFormed = false
    ∧ (Instr.tinv (sword 0x10 1)).WellFormed = false ∧ (Instr.ldrgn { mword 0 .sh (.slot 70 .q) with mode := .stm }).WellFormed = false := by
  decide

/-- Fields hold a reserved code or a value outside their range (check 5). -/
theorem test_illFormed_reservedCode :
    (Instr.add (word .f32)).WellFormed = false ∧ (Instr.mov (word .i8 (.glob .g 0))).WellFormed = false
    ∧ (Instr.add { word .i8 with imm := .lit32 0x100 }).WellFormed = false
    ∧ (Instr.madd { word .i8 with nm := .identity }).WellFormed = false ∧ (Instr.sext { word .i8 with imm := .short 9 }).WellFormed = false
    ∧ (Instr.ld (mword 4 .sh (.slot 5 .l))).WellFormed = false ∧ (Instr.ld (mword 3 .sh)).WellFormed = false
    ∧ (Instr.ld (mword 3 .rm (.slot 5 .l))).WellFormed = false ∧ (Instr.st { mword 3 .sh with seq := 0 }).WellFormed = false
    ∧ (Instr.cred (eword 6)).WellFormed = false ∧ (Instr.kqry (eword)).WellFormed = false ∧ (Instr.mma (eword 0 0xC000)).WellFormed = false
    ∧ (Instr.rdsr (sword 0x12 0 (.slot 5 .l))).WellFormed = false ∧ (Instr.trap (sword 0 0x4000)).WellFormed = false
    ∧ (Instr.write { word .i8 (.glob .v 16) with nm := .absorb }).WellFormed = false := by
  decide

/-- The well-formed neighbours of some of them. -/
theorem test_wellFormed :
    (Instr.nop (word .i8 .none)).WellFormed = true ∧ (Instr.add (word .i8)).WellFormed = true
    ∧ (Instr.sext { word .i8 with imm := .short 8 }).WellFormed = true ∧ (Instr.ld (mword 3 .sh (.slot 5 .l))).WellFormed = true
    ∧ (Instr.trap (sword 0 0x3FFF)).WellFormed = true ∧ (Instr.write { word .i8 (.glob .v 15) with nm := .absorb }).WellFormed = true := by
  decide

theorem witness_EncodeDecodeRoundTrip : (Instr.add (word .i8)).view ≠ none ∧ (Instr.add (word .i8)).WellFormed = true
    ∧ decode (encode (Instr.add (word .i8)) ++ [1]) = .ok (.add (word .i8), [1]) := ⟨by decide, by decide, rfl⟩

/-! ### Small states -/

/-- Invocation 4 of a node whose FCTL is 0. -/
def inv : Inv := { n := 4, ws := 0 }

/-- An operand set of element 3 of plane 0 of cluster 0. -/
def operands (l : Option Opnd := none) (r : Option Opnd := none) (q : Option Opnd := none) (p : Option Opnd := none) : Issue :=
  { c := 0, p := 0, ix := 3, ws := 0, it := 4, l := l, r := r, q := q, pr := p }

/-- The state in which that element issues `i`, with `v` in flight. -/
def fire (i : Issue) (v : Inv := inv) : State :=
  let s := State.reset.setNd 0 { invs := [v], ageNext := 8 }
  { s with sched := { cur := some i } }

def sc (x : W64) : Opnd := { val := .sc x }
def vec (x : V512) : Opnd := { val := .vec x }
def nul : Opnd := { null := true }

/-- `n` equal lanes of 32 bits and below them zeros. -/
def top (n : Nat) (x : V512) : V512 := ((List.range n).map fun k => x <<< (32 * (15 - k))).foldl (· ||| ·) 0

/-- The payload of the newest token in the input stage of cluster 0, after the instruction fired. -/
def result (ins : Instr) (i : Issue) (v : Inv := inv) : Option Val :=
  match exec ins (fire i v) with
  | .next t => (t.cl 0).input.getLast?.map (·.o.val)
  | _ => none

/-- The scalar of that token. -/
def scalar (ins : Instr) (l : W64) (r : W64 := 0) : Option Val := result ins (operands (some (sc l)) (some (sc r)))
def scalar1 (ins : Instr) (l : W64) : Option Val := result ins (operands (some (sc l)))

/-- The cause of the fault that the node has detected. -/
def faulted (o : Host.Outcome State Fault Refusal) : Option Cause :=
  match o with
  | .next t => (t.nd 0).pend.map (·.cause)
  | _ => none

/-- What a G instruction sets out from, and two operands it takes. -/
abbrev Takes2 (op : Op) (w : GWord) (l r : Opnd) : Prop :=
  FiresG (fire (operands (some l) (some r))) (operands (some l) (some r)) inv w ∧ TakesLR op (operands (some l) (some r)) w l r

abbrev Takes1 (w : GWord) (l : Opnd) : Prop :=
  FiresG (fire (operands (some l))) (operands (some l)) inv w ∧ TakesL (operands (some l)) w l

abbrev Takes3 (op : Op) (w : GWord) (l r q : Opnd) : Prop :=
  FiresG (fire (operands (some l) (some r) (some q))) (operands (some l) (some r) (some q)) inv w
    ∧ TakesLRQ op (operands (some l) (some r) (some q)) w l r q

theorem takes2 (op : Op) (t : Ty) (l r : Opnd) (h : l.null = false) (h' : r.null = false) : Takes2 op (word t) l r :=
  ⟨⟨⟨rfl, rfl, rfl⟩, rfl, fun h => Bool.noConfusion (h : false = true)⟩, rfl, rfl, rfl, h, h'⟩

theorem takes1 (t : Ty) (l : Opnd) (h : l.null = false) : Takes1 (word t) l :=
  ⟨⟨⟨rfl, rfl, rfl⟩, rfl, fun h => Bool.noConfusion (h : false = true)⟩, rfl, rfl, rfl, rfl, h⟩

theorem takes3 (op : Op) (t : Ty) (l r q : Opnd) (h : l.null = false) (h' : r.null = false) (h'' : q.null = false) :
    Takes3 op (word t) l r q :=
  ⟨⟨⟨rfl, rfl, rfl⟩, rfl, fun h => Bool.noConfusion (h : false = true)⟩, rfl, rfl, rfl, h, h', h''⟩

/-! ### Integer instructions -/

/-- The table of R206. -/
theorem test_division :
    scalar (.div (word .i32)) 7 2 = some (.sc 3) ∧ scalar (.rem (word .i32)) (-7) 2 = some (.sc (-1))
    ∧ scalar (.div (word .i32)) (-7) 2 = some (.sc (-3)) ∧ scalar (.div (word .i32)) 7 0 = some (.sc (-1))
    ∧ scalar (.rem (word .i32)) 7 0 = some (.sc 7) ∧ scalar (.divn (word .n32)) 7 0 = some (.sc 0xFFFFFFFF)
    ∧ scalar (.div (word .i32)) (-0x80000000) (-1) = some (.sc (-0x80000000))
    ∧ scalar (.rem (word .i32)) (-0x80000000) (-1) = some (.sc 0) ∧ scalar (.remn (word .n8)) 200 7 = some (.sc 4) := by
  decide

/-- R205 at the edges of the types. -/
theorem test_arithmetic :
    scalar (.add (word .i32)) 0x7FFFFFFF 1 = some (.sc (-0x80000000)) ∧ scalar (.sub (word .n8)) 0 1 = some (.sc 0xFF)
    ∧ scalar (.mul (word .i8)) 100 3 = some (.sc 44) ∧ scalar (.mulh (word .i8)) (-1) 1 = some (.sc (-1))
    ∧ scalar (.mulhn (word .n8)) 0xFF 0xFF = some (.sc 0xFE) ∧ scalar (.adds (word .i8)) 127 1 = some (.sc 127)
    ∧ scalar (.subs (word .n8)) 0 1 = some (.sc 0) ∧ scalar (.min (word .i8)) 0xFF 1 = some (.sc (-1))
    ∧ scalar (.max (word .n8)) 0xFF 1 = some (.sc 0xFF)
    ∧ result (.madd (word .n8)) (operands (some (sc 16)) (some (sc 16)) (some (sc 5))) = some (.sc 5)
    ∧ scalar1 (.abs (word .i8)) 0x80 = some (.sc (-128)) ∧ scalar1 (.abs { word .i8 with sat := true }) 0x80 = some (.sc 127)
    ∧ scalar1 (.neg (word .n8)) 1 = some (.sc 0xFF) ∧ scalar1 (.neg { word .n8 with sat := true }) 1 = some (.sc 0) := by
  decide

/-- R207, R208: shifts by the width or more, counts of zero, and the example of SEXT. -/
theorem test_bits :
    scalar (.and (word .n8)) 0xF0 0x3C = some (.sc 0x30) ∧ scalar (.or (word .n8)) 0xF0 0x3C = some (.sc 0xFC)
    ∧ scalar (.xor (word .n8)) 0xF0 0x3C = some (.sc 0xCC) ∧ scalar (.andn (word .n8)) 0xF0 0x3C = some (.sc 0xC0)
    ∧ scalar (.shl (word .n8)) 1 8 = some (.sc 0) ∧ scalar (.shr (word .i8)) 0x80 7 = some (.sc 1)
    ∧ scalar (.sar (word .n8)) 0x80 9 = some (.sc 0xFF) ∧ scalar (.rot (word .n8)) 0x81 9 = some (.sc 0x03)
    ∧ scalar1 (.clz (word .n16)) 0 = some (.sc 16) ∧ scalar1 (.ctz (word .n16)) 8 = some (.sc 3)
    ∧ scalar1 (.popc (word .i8)) 0xFF = some (.sc 8) ∧ scalar1 (.sext { word .i64 with imm := .short 8 }) 0x80 = some (.sc (-128))
    ∧ scalar1 (.zext { word .i64 with imm := .short 4 }) 0xFF = some (.sc 0xF)
    ∧ scalar (.lea { word .n64 with mf := 3 }) 0x100 2 = some (.sc 0x110) := by
  decide

/-- R209. -/
theorem test_compares :
    scalar (.ceq (word .i8)) 0x101 1 = some (.sc 1) ∧ scalar (.cne (word .i8)) 1 1 = some (.sc 0)
    ∧ scalar (.clt (word .i8)) 0xFF 0 = some (.sc 1) ∧ scalar (.cle (word .i8)) 1 0 = some (.sc 0)
    ∧ scalar (.cltn (word .i8)) 0xFF 0 = some (.sc 0) ∧ scalar (.clen (word .i8)) 0 0xFF = some (.sc 1)
    ∧ faulted (exec (.ceq (word .i8)) (fire (operands (some (vec 0)) (some (sc 0))))) = some .widthMismatch := by
  decide

/-- Lanes are computed apart, and a scalar goes to every lane (R200). -/
theorem test_lanes : (result (.add (word .n8)) (operands (some (vec 0xFF01)) (some (sc 1)))).map
    (fun x => (elem 8 0 x, elem 8 1 x, elem 8 63 x)) = some (2, 0, 1) := by decide +kernel

theorem witness_IntegerOperationsComputeR205 :
    Takes2 .add (word .i8) (sc 1) (vec 2) ∧ isInteger (word .i8).ty = true
    ∧ Takes2 .mulhn (word .n64) (sc 1) (sc 2) ∧ (isInteger (word .n64).ty && !Ty.signed (word .n64).ty) = true
    ∧ Takes2 .divn (word .n8) (sc 7) (sc 0) ∧ Takes2 .div (word .i64) (sc 7) (sc 0) ∧ Ty.signed (word .i64).ty = true
    ∧ Takes3 .madd (word .i16) (sc 1) (sc 2) (vec 3) ∧ Takes1 (word .i32) (vec 1) ∧ Takes2 .rot (word .n16) (sc 1) (sc 200) :=
  ⟨takes2 _ _ _ _ rfl rfl, rfl, takes2 _ _ _ _ rfl rfl, rfl, takes2 _ _ _ _ rfl rfl, takes2 _ _ _ _ rfl rfl, rfl,
    takes3 _ _ _ _ _ rfl rfl rfl, takes1 _ _ rfl, takes2 _ _ _ _ rfl rfl⟩

theorem witness_BitCountsAndComparesR208 :
    Takes1 { word .i8 with imm := .short 8 } (sc 1)
    ∧ (let w := { word .i8 with imm := .short 8 }; (isInteger w.ty && 1 ≤ w.imm.imm16 && w.imm.imm16 ≤ w.ty.width) = true)
    ∧ Takes2 .lea { word .n64 with mf := 7 } (sc 1) (sc 2)
    ∧ Takes2 .cltn (word .i8) (sc 1) (sc 2) ∧ Takes2 .ceq (word .i8) (sc 1) (vec 2) ∧ ((vec 2).val.isVec) = true :=
  ⟨⟨⟨⟨rfl, rfl, rfl⟩, rfl, fun h => absurd h (by decide)⟩, rfl, rfl, rfl, rfl, rfl⟩, rfl,
    ⟨⟨⟨rfl, rfl, rfl⟩, rfl, fun h => absurd h (by decide)⟩, rfl, rfl, rfl, rfl, rfl⟩,
    takes2 _ _ _ _ rfl rfl, takes2 _ _ _ _ rfl rfl, rfl⟩

/-! ### Plumbing and exits -/

/-- The G instruction that takes `i` fires, under a word without effect. -/
abbrev Fires (i : Issue) (w : GWord) (v : Inv := inv) (s : State := fire i v) : Prop := FiresG s i v w

theorem fires (i : Issue) (t : Ty) (v : Inv) (hp : i.perform = false) (hv : (fire i v).invOf i = some v) : Fires i (word t) v :=
  ⟨⟨rfl, hp, hv⟩, rfl, fun h => Bool.noConfusion (h : false = true)⟩

theorem test_const : result (.const { word .i64 with imm := .short 0xFFFF }) operands = some (.sc (-1))
    ∧ result (.const { word .n64 with imm := .short 0xFFFF }) operands = some (.sc 0xFFFF)
    ∧ result (.const { word .f32 with imm := .short 0x3F80 }) operands = some (.sc 0x3F800000) := by decide

theorem test_plumbing : scalar1 (.mov (word .i8)) 7 = some (.sc 7) ∧ result (.iterid (word .i8)) operands = some (.sc 4)
    ∧ result (.iterid { word .i8 with mf := 1 }) operands = some (.sc 0) ∧ result (.nullq (word .i8)) (operands (some nul)) = some (.sc 1)
    ∧ scalar1 (.nullq (word .i8)) 5 = some (.sc 0)
    ∧ result (.nfill { word .i64 with imm := .short 9 }) (operands (some nul)) = some (.sc 9)
    ∧ scalar1 (.nfill { word .i64 with imm := .short 9 }) 5 = some (.sc 5) ∧ scalar1 (.nop (word .i8 .none)) 5 = none := by decide

theorem test_predicates : scalar (.pand (word .i8)) 3 2 = some (.sc 0) ∧ scalar (.por (word .i8)) 2 1 = some (.sc 1)
    ∧ scalar (.pxor (word .i8)) 1 1 = some (.sc 0) ∧ scalar1 (.pnot (word .i8)) 2 = some (.sc 1) := by decide

/-- A result for port P travels as a predicate of its bit 0 (R59). -/
theorem test_predicate_token :
    (match exec (.mov (word .i8 (.slot 20 .p))) (fire (operands (some (sc 6)))) with
      | .next t => (t.cl 0).input.map fun k => (k.ix, k.pt, k.kd, k.o.val, k.it)
      | _ => []) = [(20, .p, .predicate, .sc 0, 4)] := by decide

/-- STEER names T1 on a false predicate, and MERGE its R operand. -/
theorem test_steer_merge :
    (match exec (.steer { word .i8 with t1 := .slot 6 .r }) (fire (operands (some (sc 9)) none none (some (sc 0)))) with
      | .next t => (t.cl 0).input.map fun k => (k.ix, k.pt, k.o.val)
      | _ => []) = [(6, .r, .sc 9)]
    ∧ result (.merge (word .i8)) (operands none (some (sc 8)) none (some (sc 0))) = some (.sc 8) := by decide

theorem test_niter :
    (match exec (.niter (word .i8)) (fire (operands (some (sc 9)))) with
      | .next t => (t.cl 0).input.map fun k => (k.ix, k.it, k.o.val)
      | _ => []) = [(5, 5, .sc 9)] := by decide

/-- READ finds the committed global, and WRITE leaves it to the commit. -/
theorem test_read_write :
    (match exec (.read { word .i8 with imm := .short 6 }) ((fire operands).modNd 0 fun n => { n with g := [(3, 77)] }) with
      | .next t => (t.cl 0).input.getLast?.map (·.o.val)
      | _ => none) = some (.sc 77)
    ∧ (match exec (.write { word .i8 (.glob .g 3) with nm := .absorb }) (fire (operands (some (sc 5)))) with
      | .next t => ((t.nd 0).invs.map (·.held), Tab.get 0 (t.nd 0).g 3)
      | _ => ([], 1)) = ([[.glob 3 .g 3 (.sc 5)]], 0) := by decide

/-- The node at PC 0x1000, with an exit of invocation `v`. -/
def exits (i : Issue) (v : Inv := inv) : State := (fire i v).modNd 0 fun n => { n with pc := 0x1000 }

def exitTo (ins : Instr) (i : Issue) (v : Inv := inv) : List Held :=
  match exec ins (exits i v) with
  | .next t => (t.nd 0).invs.flatMap (·.held)
  | _ => []

theorem test_exits :
    exitTo (.bro { cword with off := -1 }) operands = [.exit 3 false (some 0xFC0)]
    ∧ exitTo (.callo { cword with off := 2 }) operands = [.exit 3 true (some 0x1080)]
    ∧ exitTo (.br cword) (operands (some (sc 0x2000))) = [.exit 3 false (some 0x2000)]
    ∧ exitTo (.call cword) (operands (some (sc 0x2000))) = [.exit 3 true (some 0x2000)]
    ∧ exitTo (.ret cword) (operands (some (sc 0x2000))) = [.exit 3 false (some 0x2000)]
    ∧ exitTo (.quit cword) operands = [.exit 3 false none]
    ∧ faulted (exec (.br cword) (exits (operands (some (sc 0x2001))))) = some .badBlockAddress := by decide

/-- A state with two lines in the block cache of cluster 0 and one in that of cluster 5. -/
def cached (i : Issue) : State :=
  ((fire i).modCl 0 fun c => { c with bcache := [(0, 0x1000, []), (0, 0x2000, [])] }).modCl 5 fun c => { c with bcache := [(0, 0x1000, [])] }

def lines (ins : Instr) (i : Issue) : List (List Nat) :=
  match exec ins (cached i) with
  | .next t => [(t.cl 0).bcache.map (·.2.1), (t.cl 5).bcache.map (·.2.1)]
  | _ => []

theorem test_binv :
    lines (.binv { word .i8 with nm := .absorb }) (operands (some (sc 0x1000))) = [[0x2000], [0x1000]]
    ∧ lines (.binv { word .i8 with nm := .absorb, mf := 2 }) (operands (some (sc 0x800))) = [[0x2000], []]
    ∧ lines (.binv { word .i8 with nm := .absorb, mf := 3 }) operands = [[], []] := by decide

theorem witness_PlumbingComputesR69 :
    Fires (operands (some (sc 1))) (word .i8) ∧ gEffect (word .i8) = false ∧ TakesL (operands (some (sc 1))) (word .i8) (sc 1)
    ∧ Fires (operands (some nul)) { word .i8 with mf := 1, imm := .short 1 } ∧ isInteger Ty.i8 = true ∧ nul.null = true
    ∧ Issues (fire (operands (some nul))) (operands (some nul)) inv
    ∧ Issues (cached (operands (some (sc 0x1000)))) (operands (some (sc 0x1000))) inv ∧ lineAddress 0x1000 ∧ lineAddress 0
    ∧ lineAddress (2 ^ 52 - 64) ∧ ¬ lineAddress 0x1020 ∧ ¬ lineAddress (2 ^ 52) :=
  ⟨fires _ _ _ rfl rfl, rfl, ⟨rfl, rfl, rfl, rfl, rfl⟩, ⟨⟨rfl, rfl, rfl⟩, rfl, fun h => Bool.noConfusion (h : false = true)⟩, rfl, rfl,
    ⟨rfl, rfl, rfl⟩, ⟨rfl, rfl, rfl⟩, by unfold lineAddress; decide⟩

theorem witness_PredicatesSteerAndMergeR71 :
    Takes2 .pand (word .i8) (sc 1) (sc 3) ∧ Takes2 .pand (word .i8) (vec 1) (sc 3) ∧ Takes1 (word .i8) (sc 1)
    ∧ (let i := operands (some (sc 1)) (some (sc 2)) none (some (sc 0))
       Fires i (word .i8) ∧ i.pr = some (sc 0) ∧ (sc 0).val.bit0 = false)
    ∧ (let i := operands (some (sc 1)) none none (some (sc 1))
       Fires i { word .i8 with t0 := .queue 2 } ∧ gEffect { word .i8 with t0 := .queue 2 } = true ∧ (sc 1).val.bit0 = true) :=
  ⟨takes2 _ _ _ _ rfl rfl, takes2 _ _ _ _ rfl rfl, takes1 _ _ rfl, ⟨fires _ _ _ rfl rfl, rfl, rfl⟩,
    ⟨⟨⟨rfl, rfl, rfl⟩, rfl, fun _ => rfl⟩, rfl, rfl⟩⟩

theorem witness_ResultsAndGlobalsR59 :
    Fires operands (word .i8) ∧ ((fire operands).nd operands.nk).oldest inv.age = true ∧ ((fire operands).nd operands.nk).gErr = []
    ∧ (let v := { inv with age := 1 }
       let s := (fire operands v).modNd 0 fun n => { n with invs := n.invs ++ [{ inv with n := 3 }] }
       FiresG s operands v (word .i8) ∧ (s.nd operands.nk).oldest v.age = false)
    ∧ Issues (fire (operands (some (sc 5)))) (operands (some (sc 5))) inv ∧ (operands (some (sc 5))).status.er = false
    ∧ (sc 5).val.isVec = decide (GFile.g = .v) ∧ (vec 5).val.isVec ≠ decide (GFile.m = .v) ∧ (vec 5).val.isVec = decide (GFile.v = .v) :=
  ⟨fires _ _ _ rfl rfl, by decide, rfl, ⟨⟨⟨rfl, rfl, rfl⟩, rfl, fun h => Bool.noConfusion (h : false = true)⟩, by decide⟩, ⟨rfl, rfl, rfl⟩, rfl, rfl, by decide, rfl⟩

theorem witness_ExitsNameTheNextBlockR75 :
    Issues (exits operands) operands inv ∧ (∀ h ∈ inv.held, ∀ ix call d, h ≠ .exit ix call d)
    ∧ blockAddress 0 ∧ blockAddress (2 ^ 52 - 64) ∧ ¬ blockAddress (2 ^ 52) ∧ ¬ blockAddress 0x20
    ∧ Issues (exits (operands (some (sc 0x2000)))) (operands (some (sc 0x2000))) inv
    ∧ (let v := { inv with held := [.exit 2 false none] }
       Issues (exits operands v) operands v ∧ .exit 2 false none ∈ v.held) :=
  ⟨⟨rfl, rfl, rfl⟩, fun h hh => absurd hh (List.not_mem_nil), by unfold blockAddress; decide, by unfold blockAddress; decide,
    by unfold blockAddress; decide, by unfold blockAddress; decide, ⟨rfl, rfl, rfl⟩, ⟨rfl, rfl, rfl⟩, by decide⟩

/-! ### Float and number format instructions -/

/-- The result and the flags that its invocation has collected. -/
def flagged (ins : Instr) (i : Issue) (v : Inv := inv) : Option Val × List Nat :=
  match exec ins (fire i v) with
  | .next t => ((t.cl 0).input.getLast?.map (·.o.val), (t.nd 0).invs.map (·.flags))
  | _ => (none, [])

def fcvt (t : Ty) (rm : RM) (sat : Bool) (x : W64) : Option Val × List Nat :=
  flagged (.fcvt { word t with imm := .short 10, rm := rm, sat := sat }) (operands (some (sc x)))

/-- The table of R194, with the flags of R188: NV 1, DZ 2, OF 4, UF 8, NX 16. -/
theorem test_fcvt :
    fcvt .e4m3 .rne false 0x3F800000 = (some (.sc 0x38), [0]) ∧ fcvt .e5m2 .rne false 0x3E99999A = (some (.sc 0x35), [16])
    ∧ fcvt .e4m3 .rne false 0x43FA0000 = (some (.sc 0x7F), [20]) ∧ fcvt .e4m3 .rne true 0x43FA0000 = (some (.sc 0x7E), [20])
    ∧ fcvt .e5m2 .rtz false 0x43FA0000 = (some (.sc 0x5F), [16]) ∧ fcvt .e4m3 .rne false 0x3A83126F = (some (.sc 0x01), [24])
    ∧ fcvt .e5m2 .rne false 0x80000000 = (some (.sc 0x80), [0]) ∧ fcvt .e4m3 .rne false 0x7F800000 = (some (.sc 0x7F), [1]) := by
  decide +kernel

/-- ICVTF and FCVTI at the ends of their ranges. -/
theorem test_integer_conversions :
    flagged (.icvtf { word .f32 with imm := .short 2 }) (operands (some (sc (-3)))) = (some (.sc 0xC0400000), [0])
    ∧ flagged (.fcvti { word .i8 with imm := .short 10 }) (operands (some (sc 0x43FA0000))) = (some (.sc 127), [1])
    ∧ flagged (.fcvti { word .n8 with imm := .short 10 }) (operands (some (sc 0x3FC00000))) = (some (.sc 2), [16]) := by decide +kernel

/-- The examples of R195 and R196. -/
theorem test_quantise :
    flagged (.qnt (word .f32)) (operands (some (sc 0x405FFFFF)) (some (sc 0x14700))) = (some (.sc 1), [16])
    ∧ (result (.dqnt { word .f32 with mf := 1 }) (operands (some (sc 7)) (some (sc 0x33800)))) = some (.sc 0x40000000)
    ∧ result (.gscale { word .f32 with mf := 3 }) (operands (some (sc 0x40C00000BFC00000))) = some (.sc 0x33800) := by decide +kernel

/-- The range pair of R196 widened by one vector, and codes of R197 unpacked. -/
theorem test_ranges_and_blocks :
    result (.gscale (word .f32)) (operands (some (vec 0xBFC00000)) (some (sc 0xFF8000007F800000))) = some (.sc 0x00000000BFC00000)
    ∧ (result (.mxunpk (word .f32)) (operands (some (vec 0x4D)) (some (sc 0x79)))).map (elem 32 0) = some 0x3DD00000
    ∧ (result (.mxpack (word .b16)) (operands (some (vec 0xBF803DCD40A0)))).map (elem 32 0) = some 0xE84D7A := by decide +kernel

theorem test_pack :
    (result (.pack { word .i8 with sat := true }) (operands (some (vec 0x00C8)) (some (vec 0xFF38)))).map (fun x => (elem 8 0 x, elem 8 32 x))
      = some (0x7F, 0x80)
    ∧ (result (.unpack (word .i16)) (operands (some (vec 0x80)))).map (elem 16 0) = some 0xFF80 := by decide +kernel

/-- FSCALE of R211; sums, quotients and roots of one. -/
theorem test_float_arithmetic :
    flagged (.fscale (word .f32)) (operands (some (sc 0x3FC00000)) (some (sc (-149)))) = (some (.sc 2), [24])
    ∧ scalar (.fadd (word .f32)) 0x3F800000 0x3F800000 = some (.sc 0x40000000) ∧ scalar (.fsub (word .f32)) 0x3F800000 0x3F800000 = some (.sc 0)
    ∧ scalar (.fmul (word .f32)) 0x40000000 0x40400000 = some (.sc 0x40C00000)
    ∧ flagged (.fdiv (word .f32)) (operands (some (sc 0x3F800000)) (some (sc 0))) = (some (.sc 0x7F800000), [2])
    ∧ result (.fma (word .f32)) (operands (some (sc 0x40000000)) (some (sc 0x40400000)) (some (sc 0x3F800000))) = some (.sc 0x40E00000)
    ∧ result (.fnma (word .f32)) (operands (some (sc 0x40000000)) (some (sc 0x40400000)) (some (sc 0x3F800000))) = some (.sc 0xC0A00000)
    ∧ scalar1 (.fsqrt (word .f32)) 0x40800000 = some (.sc 0x40000000) ∧ flagged (.frcp (word .f32)) (operands (some (sc 0x40E00000)))
      = (some (.sc 0x3E124925), [16]) := by decide +kernel

/-- Rows of the table of R212. -/
theorem test_float_functions :
    flagged (.frsq (word .f32)) (operands (some (sc 0x80000000))) = (some (.sc 0xFF800000), [2])
    ∧ flagged (.frsq (word .f32)) (operands (some (sc 0x40800000))) = (some (.sc 0x3F000000), [0])
    ∧ flagged (.fexp2 (word .f32)) (operands (some (sc 0x40400000))) = (some (.sc 0x41000000), [0])
    ∧ flagged (.flog2 (word .f32)) (operands (some (sc 0x41000000))) = (some (.sc 0x40400000), [0])
    ∧ flagged (.flog2 (word .f32)) (operands (some (sc 0xBF800000))) = (some (.sc 0x7FC00000), [1]) := by decide +kernel

/-- R213 to R215. -/
theorem test_signs_and_compares :
    scalar (.fmin (word .f32)) 0x3F800000 0x7FC00000 = some (.sc 0x3F800000) ∧ scalar (.fmax (word .f32)) 0x80000000 0 = some (.sc 0)
    ∧ scalar1 (.fabs (word .f32)) 0xBF800000 = some (.sc 0x3F800000) ∧ scalar1 (.fneg (word .f32)) 0 = some (.sc 0x80000000)
    ∧ scalar (.fsgn { word .f32 with mf := 1 }) 0x3F800000 0 = some (.sc 0xBF800000) ∧ scalar1 (.fclass (word .f32)) 0x80000000 = some (.sc 8)
    ∧ flagged (.fceq (word .f32)) (operands (some (sc 0x7FC00000)) (some (sc 0))) = (some (.sc 0), [0])
    ∧ flagged (.fclt (word .f32)) (operands (some (sc 0x7FC00000)) (some (sc 0))) = (some (.sc 0), [1])
    ∧ scalar (.fcle (word .f32)) 0 0x80000000 = some (.sc 1) ∧ scalar (.fcun (word .f32)) 0x7FC00000 0 = some (.sc 1) := by decide +kernel

/-- An enabled flag faults, and the result is not sent (R189). -/
theorem test_float_exception :
    let v := { inv with fctl := 0x20 }
    let i := operands (some (sc 0x3F800000)) (some (sc 0))
    faulted (exec (.fdiv (word .f32)) (fire i v)) = some .floatException ∧ result (.fdiv (word .f32)) i v = none := by decide +kernel

theorem witness_RoundingIsCorrectR185 : RM.rne ≠ .dyn ∧ FF.e4m3 ≠ FF.e2m1 := ⟨by decide, by decide⟩

theorem witness_FloatOperandsCombineExactlyR211 :
    (0x3F800000 : Nat) < 2 ^ FF.f32.width ∧ (FF.f32.dec 0x3F800000).isFin = true ∧ (FV.fin true 0 0).isFin = true
    ∧ isFloatFormat .f16 = true ∧ RM.rup ≠ .dyn ∧ (3 : Nat) ≠ 0 ∧ (3 : Nat) < 2 ^ 53 ∧ (0 : ℝ) ≤ 2 ∧ (2 : ℝ) * 2 = ((4 : ℕ) * 2 ^ (0 : ℤ) : ℚ) :=
  ⟨by decide, by decide, by decide, by decide, by decide, by decide, by decide, by norm_num, by norm_num⟩

theorem witness_FloatArithmeticComputesR211 :
    Takes2 .fadd (word .f32) (sc 1) (vec 2) ∧ isFloat (word .f32).ty = true ∧ Takes3 .fma (word .f64) (sc 1) (sc 2) (sc 3)
    ∧ Takes1 (word .b16) (vec 4) ∧ Takes2 .fscale (word .f16) (sc 1) (sc 2) ∧ (1 : Nat) ≠ 0 ∧ 2 ^ 20 - 1 < 2 ^ 20
    ∧ ¬ Traps 0 31 ∧ Traps 0x20 2 :=
  ⟨takes2 _ _ _ _ rfl rfl, rfl, takes3 _ _ _ _ _ rfl rfl rfl, takes1 _ _ rfl, takes2 _ _ _ _ rfl rfl, by decide, by decide,
    fun ⟨b, _, h⟩ => by simp at h, ⟨1, by decide, by decide⟩⟩

theorem witness_FloatSignsClassesAndComparesR213 :
    Takes1 (word .f32) (sc 1) ∧ (FF.f32.dec 1).isNan = false ∧ (FF.f32.dec 0x7FC00000).isNan = true
    ∧ fvLt (FF.f32.dec 0x3F800000) (FF.f32.dec 0x40000000) = true ∧ floatCompares.length = 4
    ∧ Takes2 .fceq (word .f16) (sc 1) (sc 2) ∧ Takes2 .fcun (word .f16) (vec 1) (sc 2) :=
  ⟨takes1 _ _ rfl, by decide, by decide, by decide, rfl, takes2 _ _ _ _ rfl rfl, takes2 _ _ _ _ rfl rfl⟩

theorem witness_ConversionsComputeR194 :
    Takes1 { word .e4m3 with imm := .short 10, mf := 1 } (vec 1) ∧ isAnyFloat .e4m3 = true ∧ isAnyFloat (Ty.ofCode 10) = true
    ∧ (1 : Nat) < max 32 8 / min 32 8 ∧ isInteger (Ty.ofCode 7) = true ∧ (vec 1).val.isVec = true ∧ (sc 1).val.isVec = false :=
  ⟨⟨⟨⟨rfl, rfl, rfl⟩, rfl, fun h => Bool.noConfusion (h : false = true)⟩, rfl, rfl, rfl, rfl, rfl⟩, rfl, rfl, by decide, rfl, rfl, rfl⟩

theorem witness_QuantisationComputesR195 :
    (let i := operands (some (vec 1)) (some (sc 0xF4700))
     Fires i (word .f32) ∧ i.q = none ∧ isFloat Ty.f32 = true ∧ (sc 0xF4700).val.nat / 2 ^ 16 % 256 = 15
      ∧ 15 < (sc 0x104700).val.nat / 2 ^ 16 % 256)
    ∧ (FV.nan false).isNan = true ∧ RM.rne ≠ .dyn ∧ (15 : Nat) ≤ 15 ∧ (1 : Nat) ≠ 0
    ∧ Takes1 { word .f32 with mf := 3 } (sc 1) ∧ (FF.f32.dec 0x7FC00000).isNan = true :=
  ⟨⟨fires _ _ _ rfl rfl, rfl, rfl, by decide, by decide⟩, rfl, by decide, by decide, by decide,
    ⟨⟨⟨rfl, rfl, rfl⟩, rfl, fun h => Bool.noConfusion (h : false = true)⟩, rfl, rfl, rfl, rfl, rfl⟩, by decide⟩

theorem witness_BlocksAndLanesPackR197 :
    Fires (operands (some (vec 1))) (word .b16) ∧ Fires (operands (some (vec 1)) (some (vec 2))) (word .f32)
    ∧ Fires (operands (some (vec 1)) (some (sc 2))) (word .f32) ∧ Fires (operands (some (vec 1)) (some (vec 2))) (word .i8)
    ∧ Ty.i8.width ≤ 32 ∧ Takes1 (word .i16) (vec 1) ∧ Ty.i16.width / 2 * 2 = Ty.i16.width ∧ Takes1 (word .i16) (sc 1) :=
  ⟨fires _ _ _ rfl rfl, fires _ _ _ rfl rfl, fires _ _ _ rfl rfl, fires _ _ _ rfl rfl, by decide, takes1 _ _ rfl, by decide, takes1 _ _ rfl⟩

/-! ### Vectors, masks, reductions -/

/-- The case of R221: 2^24, 1, 1 and 1 in the low lanes, and what the tree and the ladder give. -/
theorem test_tree_and_ladder :
    let x := operands (some (vec 0x3F8000003F8000003F8000004B800000))
    flagged (.vradd (word .f32)) x = (some (.sc 0x4B800001), [16])
    ∧ (result (.vscan (word .f32)) x).map (fun y => (elem 32 1 y, elem 32 3 y, elem 32 4 y, elem 32 5 y))
      = some (0x4B800000, 0x4B800001, 0x4B800002, 0x4B800001) := by decide +kernel

theorem test_lane_moves :
    let x := vec 0x04030201
    (result (.vbcast (word .n8)) (operands (some (sc 7)))).map (elem 8 63) = some 7
    ∧ (result (.vbcastLane { word .n8 with mf := 1 }) (operands (some x) (some (sc 66)))).map (elem 8 5) = some 3
    ∧ result (.vext (word .n8)) (operands (some x) (some (sc 67))) = some (.sc 4)
    ∧ (result (.vins (word .n8)) (operands (some x) (some (sc 1)) (some (sc 9)))).map (elem 32 0) = some 0x04030901
    ∧ (result (.vperm (word .n8)) (operands (some x) (some (vec 0x03)))).map (elem 16 0) = some 0x0104
    ∧ (result (.vshuf { word .n8 with mf := 3 }) (operands (some x) (some x))).map (elem 16 0) = some 0x0402
    ∧ (result (.vshuf { word .n8 with mf := 5 }) (operands (some x))).map (elem 8 63) = some 1
    ∧ (result (.vsel (word .n8)) (operands (some x) (some (vec 0)) (some (sc 2)))).map (elem 32 0) = some 0x200 := by decide +kernel

theorem test_vector_results :
    let x := vec 0xFF0102
    result (.vrmax (word .i8)) (operands (some x)) = some (.sc 2) ∧ result (.vrmin (word .i8)) (operands (some x)) = some (.sc (-1))
    ∧ result (.vradd { word .i8 with mf := 1 }) (operands (some x)) = some (.sc 2)
    ∧ result (.vdot (word .i8)) (operands (some x) (some x)) = some (.sc 6)
    ∧ result (.vcmp { word .i8 with mf := 2 }) (operands (some x) (some (sc 0))) = some (.sc 4) := by decide +kernel

theorem test_masks :
    scalar (.mand (word .mask)) 6 3 = some (.sc 2) ∧ scalar (.mor (word .mask)) 6 3 = some (.sc 7) ∧ scalar (.mxor (word .mask)) 6 3 = some (.sc 5)
    ∧ scalar1 (.mnot (word .mask)) 1 = some (.sc (-2)) ∧ scalar1 (.mpopc (word .mask)) 7 = some (.sc 3) ∧ scalar1 (.mffs (word .mask)) 0 = some (.sc 64)
    ∧ scalar (.mbit { word .mask with mf := 1 }) 1 65 = some (.sc 3) ∧ scalar (.mtst (word .mask)) 6 1 = some (.sc 0) := by decide +kernel

theorem witness_LanesAndMasksMoveR217 :
    Takes1 (word .i8) (sc 1) ∧ Takes1 { word .i8 with mf := 5 } (vec 1) ∧ Takes2 .vext (word .f64) (vec 1) (sc 2)
    ∧ Takes2 .vbcastLane (word .f64) (vec 1) (sc 2) ∧ Takes2 .vperm (word .i8) (vec 1) (vec 2) ∧ Takes2 .vshuf (word .i8) (vec 1) (vec 2)
    ∧ Takes2 .vext (word .i8) (sc 1) (sc 2) ∧ Takes3 .vins (word .i8) (vec 1) (sc 2) (sc 3) ∧ Takes3 .vsel (word .i8) (vec 1) (vec 2) (sc 3)
    ∧ Takes2 .mand (word .mask) (sc 1) (sc 2) ∧ Takes1 (word .mask) (sc 1) ∧ Takes2 .mbit (word .mask) (vec 1) (sc 2) :=
  ⟨takes1 _ _ rfl, ⟨⟨⟨rfl, rfl, rfl⟩, rfl, fun h => Bool.noConfusion (h : false = true)⟩, rfl, rfl, rfl, rfl, rfl⟩, takes2 _ _ _ _ rfl rfl,
    takes2 _ _ _ _ rfl rfl, takes2 _ _ _ _ rfl rfl, takes2 _ _ _ _ rfl rfl, takes2 _ _ _ _ rfl rfl, takes3 _ _ _ _ _ rfl rfl rfl,
    takes3 _ _ _ _ _ rfl rfl rfl, takes2 _ _ _ _ rfl rfl, takes1 _ _ rfl, takes2 _ _ _ _ rfl rfl⟩

theorem witness_LanesReduceR219 :
    Takes1 (word .i8) (vec 1) ∧ isInteger Ty.i8 = true ∧ Takes1 (word .f16) (vec 1) ∧ isFloat Ty.f16 = true ∧ Takes1 (word .f32) (sc 1)
    ∧ Takes1 { word .i8 with mf := 1 } (vec 1) ∧ Takes2 .vdot (word .e4m3) (vec 1) (vec 2) ∧ (Ty.ff .e4m3).isSome = true
    ∧ Takes2 .vdot (word .i8) (vec 1) (sc 2) ∧ Takes2 .vcmp (word .n8) (vec 1) (sc 2) ∧ Takes2 .vcmp (word .f32) (vec 1) (vec 2) :=
  ⟨takes1 _ _ rfl, rfl, takes1 _ _ rfl, rfl, takes1 _ _ rfl,
    ⟨⟨⟨rfl, rfl, rfl⟩, rfl, fun h => Bool.noConfusion (h : false = true)⟩, rfl, rfl, rfl, rfl, rfl⟩, takes2 _ _ _ _ rfl rfl, rfl,
    takes2 _ _ _ _ rfl rfl, takes2 _ _ _ _ rfl rfl, takes2 _ _ _ _ rfl rfl⟩

/-- R44: a null operand passes as a null token, or counts as the identity of ADD. -/
theorem test_nulls :
    (match exec (.add (word .i8)) (fire (operands (some nul) (some (sc 5)))) with
      | .next t => (t.cl 0).input.map fun k => (k.kd, k.o.null)
      | _ => []) = [(.null, true)]
    ∧ result (.add { word .i8 with nm := .identity }) (operands (some nul) (some (sc 5))) = some (.sc 5)
    ∧ result (.add { word .i8 with nm := .absorb }) (operands (some nul) (some (sc 5))) = none
    ∧ result (.add { word .i8 with prd := .onTrue }) (operands (some (sc 1)) (some (sc 5)) none (some (sc 0))) = none := by decide +kernel

theorem witness_PredicatesNullsAndErrorsR44 :
    (.add, Instr.add) ∈ computing.map (fun e => (e.1, e.2)) ∧ Issues (fire (operands (some nul))) (operands (some nul)) inv
    ∧ predHolds .onTrue (operands (p := some (sc 0))) = false ∧ predHolds .onTrue (operands (p := some (sc 1))) = true
    ∧ someNull (operands (some nul)) (word .i8) = true ∧ gEffect (word .i8 (.queue 1)) = true
    ∧ (operands (some { sc 1 with er := true })).status.er = true ∧ Fires (operands (some nul) (some (sc 1))) { word .i8 with nm := .identity }
    ∧ (identities (word .i8)).length = 21 :=
  ⟨by simp [computing], ⟨rfl, rfl, rfl⟩, rfl, rfl, rfl, rfl, rfl, ⟨⟨rfl, rfl, rfl⟩, rfl, fun h => Bool.noConfusion (h : false = true)⟩, rfl⟩

/-- Element 3 of the node holds the running value `r` of iteration 3. -/
def running (r : Red) (i : Issue) (v : Inv := inv) : State := (fire i v).setRed 0 3 3 r

theorem test_reductions :
    (match exec (.radd { word .i32 with imm := .short 5 }) (running { any := true, v := .sc 40 } (operands (some (sc 2)))) with
      | .next t => (t.cl 0).input.map (·.o.val)
      | _ => []) = [.sc 42]
    ∧ (match exec (.rmax { word .i32 with imm := .short 5 }) (running { any := true, v := .sc 40 } (operands (some (sc 2)))) with
      | .next t => (t.cl 0).input.map (·.o.val)
      | _ => []) = [.sc 40]
    ∧ (match exec (.rmin { word .i32 with imm := .short 5 }) (running { any := true, v := .sc 40 } (operands (some (sc 2)))) with
      | .next t => (t.cl 0).input.map (·.o.val)
      | _ => []) = [.sc 2]
    ∧ (match exec (.rjoin { word .n8 with imm := .short 5 }) (running { any := true, v := .vec 0x3 } (operands (some (sc 2)))) with
      | .next t => (t.cl 0).input.map (fun k => elem 64 0 k.o.val)
      | _ => []) = [0x200000003] := by decide +kernel

/-- A first contribution waits for none, and the fold of the one before is awaited (R252). -/
theorem test_reduction_waits :
    (match exec (.radd { word .i32 with imm := .short 5 }) (fire (operands (some (sc 2)))) with
      | .next t => t.sched.cur.any (·.wait)
      | _ => false) = true
    ∧ (match exec (.radd { word .i32 with imm := .short 2 }) (fire (operands (some (sc 2)))) with
      | .next t => ((t.nd 0).redAt 3 4).map (·.v)
      | _ => none) = some (.sc 2) := by decide +kernel

/-- With `.TOPK` the last partial sends the best entries of the list (R283). -/
theorem test_kmerge_topk :
    (match exec (.kmerge { word .f32 with imm := .short 0x0105, mf := 1 })
        (running { any := true, list := [(5, 1)] } (operands (some (vec 0x4000000000000007)))) with
      | .next t => (t.cl 0).input.map fun k => (elem 64 0 k.o.val, elem 64 1 k.o.val)
      | _ => []) = [(0x4000000000000007, 0x500000001)] := by decide +kernel

theorem witness_ReductionsFoldInTagOrderR252 :
    (.radd, Instr.radd, RedOp.add) ∈ [(Op.radd, Instr.radd, RedOp.add)] ∧ Issues (fire (operands (some (sc 2)))) (operands (some (sc 2))) inv
    ∧ inv.n % 5 ≠ 0 ∧ ((fire (operands (some (sc 2)))).nd 0).redAt 3 (before inv.n 1) = none
    ∧ Issues (running {} (operands (some (sc 2)))) (operands (some (sc 2))) inv
    ∧ (((running {} (operands (some (sc 2)))).nd 0).redAt 3 (before inv.n 1)).isSome = true ∧ inv.n % 2 = 0
    ∧ Issues (running {} (operands (some (vec 2)))) (operands (some (vec 2))) inv ∧ (operands (some (vec 2))).l = some (vec 2)
    ∧ inv.n / 1 % 5 ≠ 0 ∧ inv.n % (4 * 1) = 0 :=
  ⟨by simp, ⟨rfl, rfl, rfl⟩, by decide, rfl, ⟨rfl, rfl, rfl⟩, rfl, by decide, ⟨rfl, rfl, rfl⟩, rfl, by decide, by decide⟩

/-! ### A kernel, its node, and its memory interface -/

/-- Kernel 1 of partition 0, with clusters 0 and 5 in its group 1 and cluster 7 alone in its group 2. -/
def kernel1 : Kernel :=
  { queue := 0, recno := 0, rank := 0, age := 0, part := 0, asid := 0, die := 0, x := 0, y := 0, w := 8, h := 1
    groups := [[], [0, 5], [7], [0, 100]], secs := [{ st := .armed }], nodes := [⟨0, 0, 0, 0, 0, false⟩, ⟨1, 0, 0, 1, 0, true⟩] }

def assigned : Assign := { kernel := 1, sec := 0, num := 0, part := 0, asid := 0, entry := 0 }

/-- `s` with node 0 running under kernel 1. -/
def running1 (s : State) : State :=
  ((s.setKern 1 kernel1).modNd 0 fun n => { n with asg := some assigned, st := .running, hdr := some {}, next := 5 }).modCl 0
    fun c => { c with holder := some (1, 0) }

def onGroup (g : BitVec 16) : GWord := { word .i8 with nm := .absorb, mf := 3, imm := .short (0x100 + g), ty := .i8 }

/-- The arrivals that a barrier instruction sends. -/
def arrivals (ins : Instr) (i : Issue) : List Msg :=
  match exec ins (running1 (fire i)) with
  | .next t => t.inbox.map (·.body)
  | _ => []

theorem test_barriers :
    arrivals (.bar (onGroup 1)) (operands (some (sc 1))) = [.arrive 0 1 1 0 4 3 0]
    ∧ arrivals (.bara (onGroup 1)) (operands (some (sc 1))) = [.arrive 0 1 1 0 4 3 0]
    ∧ (match exec (.barw (onGroup 1)) (running1 (fire (operands (some (sc 1))))) with
      | .next t => (t.nd 0).barWait.map fun b => (b.grp, b.ep)
      | _ => []) = [(1, some 0)]
    ∧ faulted (exec (.bara (onGroup 2)) (running1 (fire (operands (some (sc 1)))))) = some .barrierMismatch := by decide +kernel

theorem witness_BarriersArriveAndCompleteR137 :
    (let i := operands (some (sc 1))
     let s := running1 (fire i)
     Issues s i inv ∧ s.group i.nk 1 = [0, 5] ∧ i.c ∈ s.group i.nk 1 ∧ (∀ d, d ∈ s.group i.nk 1 → scopeHas .pk i.c d = true)
      ∧ i.c ∉ s.group i.nk 2 ∧ ¬ (∀ d, d ∈ s.group i.nk 3 → scopeHas .di i.c d = true)
      ∧ ((s.nd i.nk).oldest inv.age = true ∧ ∀ a, a ∈ (s.nd i.nk).mif → a.writes = true → a.held = true ∨ a.done = true ∨ a.age = inv.age)
      ∧ Tab.find (s.nd i.nk).barLast 1 = none
      ∧ Tab.find ((s.modNd 0 fun n => { n with barLast := [(1, (3, 0), some 0)] }).nd 0).barLast 1 = some ((3, 0), some 0))
    ∧ (let m : Parcel := { src := 0, dst := 0, cls := 3, body := .arrive 0 1 1 0 4 3 0 }
       let s := { running1 (fire operands) with inbox := [m] }
       s.inbox = m :: [] ∧ (Tab.get ({} : Episode) (s.cl 0).episodes 1).arrived = [] ∧ [(0, 4)].length ≠ 1 * (s.group 0 1).length
        ∧ (s.nd 0).kernel = some 1) :=
  ⟨⟨⟨rfl, rfl, rfl⟩, rfl, by decide +kernel, by decide +kernel, by decide +kernel, by decide +kernel, by decide +kernel,
    by decide +kernel, by decide +kernel⟩, ⟨rfl, by decide +kernel, by decide +kernel, by decide +kernel⟩⟩

/-! ### Memory instructions -/

/-- An operand set of memory element 70. -/
def memSet (l : Option Opnd := none) (r : Option Opnd := none) (q : Option Opnd := none) : Issue :=
  { c := 0, p := 0, ix := 70, ws := 0, it := 4, l := l, r := r, q := q }

/-- The same with a done target of its own, so that it gives no done token. -/
def mw (sz : BitVec 3) (asp : Asp) (t0 : Target := .none) : MWord := { mword sz asp t0 with dt := 70 }

/-- Node 0 under kernel 1, with the whole CSM for partition 0. -/
def memory (i : Issue) : State := srSet (running1 (fire i)) 0 0x303 0x1000000000000000

/-- What the node's interface holds after the instruction fired: effect held, predicated off, state. -/
def entries (ins : Instr) (i : Issue) : List (Bool × Bool × AccSt) :=
  match exec ins (memory i) with
  | .next t => (t.nd 0).mif.map fun a => (a.held, a.off, a.st)
  | _ => []

theorem test_memory_fires :
    entries (.ld (mw 3 .sp (.slot 5 .l))) (memSet (some (sc 8))) = [(false, false, .waiting)]
    ∧ entries (.st (mw 3 .sp)) (memSet (some (sc 8)) (some (sc 1))) = [(true, false, .waiting)]
    ∧ entries (.ldv (mw 5 .sp (.slot 5 .l))) (memSet (some (sc 64))) = [(false, false, .waiting)]
    ∧ entries (.stv (mw 5 .sp)) (memSet (some (sc 64)) (some (vec 1))) = [(true, false, .waiting)]
    ∧ entries (.gath (mw 2 .sp (.slot 5 .l))) (memSet (some (sc 64)) (some (vec 0))) = [(false, false, .waiting)]
    ∧ entries (.scat (mw 2 .sp)) (memSet (some (sc 64)) (some (vec 0)) (some (vec 0))) = [(true, false, .waiting)] := by decide +kernel

theorem test_memory_fires_more :
    entries (.aadd (mw 3 .sp)) (memSet (some (sc 8)) (some (sc 1))) = [(true, false, .waiting)]
    ∧ entries (.acas (mw 3 .sp (.slot 5 .l))) (memSet (some (sc 8)) (some (sc 1)) (some (sc 2))) = [(false, false, .waiting)]
    ∧ entries (.bred (mw 5 .sh)) (memSet (some (sc 64)) (some (vec 1))) = [(true, false, .waiting)]
    ∧ entries (.mnop (mw 0 .sp)) (memSet (some (sc 8))) = [(false, false, .performed)]
    ∧ entries (.ld (mw 3 .sp (.slot 5 .l))) (memSet (some nul)) = [(false, true, .performed)] := by decide +kernel

/-- A store outside the scratchpad, misaligned, and of a vector where a scalar belongs (R86). -/
theorem test_memory_faults :
    faulted (exec (.st (mw 3 .sp)) (memory (memSet (some (sc 0x180000)) (some (sc 1))))) = some .addressOutOfRange
    ∧ faulted (exec (.st (mw 3 .sp)) (memory (memSet (some (sc 4)) (some (sc 1))))) = some .misaligned
    ∧ faulted (exec (.st (mw 3 .sp)) (memory (memSet (some (sc 8)) (some (vec 1))))) = some .widthMismatch
    ∧ faulted (exec (.st (mw 3 .sh)) (running1 (fire (memSet (some (sc 8)) (some (sc 1)))))) = some .permission := by decide +kernel

/-- LDRGN of R92, with a descriptor of 256 bytes at 0x4000. -/
theorem test_ldrgn :
    (match exec (.ldrgn { mw 0 .sp (.slot 71 .q) with mode := .stm, seq := 0 })
        (setNodeReg (setNodeReg (memory memSet) 0 0x48 0x4000) 0 0x4c 256) with
      | .next t => ((t.nd 0).regs, (t.cl 0).input.map fun k => (k.ix, k.pt))
      | _ => ([], [])) = ([(71, 4, .sp, 0x4000, 256)], [(71, .q)]) := by decide +kernel

/-- Entry 0 of node 0's interface, the only one of invocation 4. -/
def entry (ins : Instr) (l : Option Opnd := none) (r : Option Opnd := none) (q : Option Opnd := none) : Acc :=
  { id := 0, n := 4, ws := 0, gn := 0, age := 0, ix := 70, seq := 1, prev := 0, next := 0, instr := ins, l := l, r := r, q := q }

/-- The interface goes on with `a`. -/
def turn : Issue := { c := 0, p := 0, ix := 70, ws := 0, it := 4, perform := true, k := 0 }

def interface (a : Acc) : State :=
  let s := (memory memSet).modNd 0 fun n => { n with mif := [a] }
  { s with sched := { cur := some turn } }

/-- What `a`'s interface does: the entry's state, its pieces, and the messages for this cluster. -/
def went (a : Acc) (s : State := interface a) : List (AccSt × List Nat) × List Msg :=
  match exec a.instr s with
  | .next t => ((t.nd 0).mif.map fun a => (a.st, a.loc.map (·.key)), t.inbox.map (·.body))
  | _ => ([], [])

def load : Acc := entry (.ld (mw 3 .sp (.slot 5 .l))) (some (sc 8))
def store : Acc := { entry (.st (mw 3 .sp)) (some (sc 8)) (some (sc 0x1122)) with loc := [{ key := spKey 0 8, size := 8, lane := 0, va := 8 }] }
def add : Acc := { entry (.aadd (mw 3 .sp)) (some (sc 8)) (some (sc 1)) with loc := [{ key := spKey 0 8, size := 8, lane := 0, va := 8 }] }

theorem test_accesses_leave :
    went load = ([(.sent, [spKey 0 8])], [.acc 0 0 0 0]) ∧ went store = ([(.sent, [spKey 0 8])], [.acc 0 0 0 0])
    ∧ went add = ([(.sent, [spKey 0 8])], [.acc 0 0 0 0]) := by decide +kernel

/-- The piece of a sent access is at its place, where the eight bytes from 8 hold `old`. -/
def arrival : Parcel := { src := 0, dst := 0, cls := 1, n := 8, body := .acc 0 0 0 0 }

def sentAcc (a : Acc) : Acc := { a with st := .sent, loc := [{ key := spKey 0 8, size := 8, lane := 0, va := 8 }], left := [0] }

def atPlace (a : Acc) (old : Nat) : State := { memWrite (interface (sentAcc a)) (spKey 0 8) old 8 with inbox := [arrival] }

/-- The eight bytes after the piece arrived, and what was sent to T0. -/
def acted (a : Acc) (old : Nat) : Nat × List Val :=
  match exec (.memoryRequestArrival 0) (atPlace a old) with
  | .next t => (memRead t (spKey 0 8) 8, (t.cl 0).input.map (·.o.val))
  | _ => (0, [])

def atomic (ins : MWord → Instr) (x : W64) (y : W64 := 0) (t0 : Target := .none) : Acc :=
  entry (ins (mw 3 .sp t0)) (some (sc 8)) (some (sc x)) (some (sc y))

theorem test_accesses_act :
    acted load 77 = (77, [.sc 77]) ∧ acted store 77 = (0x1122, []) ∧ acted (atomic .aadd 3) 77 = (80, [])
    ∧ acted (atomic .amin (-1)) 77 = (2 ^ 64 - 1, []) ∧ acted (atomic .amax (-1)) 77 = (77, []) ∧ acted (atomic .aand 12) 10 = (8, [])
    ∧ acted (atomic .aor 12) 10 = (14, []) ∧ acted (atomic .axor 12) 10 = (6, []) ∧ acted (atomic .axchg 5) 10 = (5, [])
    ∧ acted (atomic .acas 10 9) 10 = (9, []) ∧ acted (atomic .acas 11 9) 10 = (10, [])
    ∧ acted (atomic .afadd 0x3FF0000000000000) 0x3FF0000000000000 = (0x4000000000000000, [])
    ∧ acted (atomic .aadd 3 0 (.slot 5 .l)) 77 = (77, [.sc 77]) := by decide +kernel

/-- BRED and BUPD on one lane (R103): 1 + 2, and 2 × 3 + 1. -/
theorem test_bulk_atomics :
    rmwNew .bred 32 0x3F800000 0x40000000 0 = 0x40400000
    ∧ rmwNew .bupd 32 0x40400000 0x40000000 0x3F800000 % 2 ^ 32 = 0x40E00000 := by decide +kernel

/-- A streaming load of element 70 under a region of 64 bytes at 0x40, whose start token is there. -/
def streaming : State :=
  let s := (memory memSet).modCl 0 fun c => { c with
    ctx := [(70, { word := 0xB01842148C040000 })]
    store := [{ pl := 0, ix := 70, pt := .q, ws := 0, it := 4, kd := .data, gn := 0, o := {} }] }
  s.modNd 0 fun n => { n with regs := [(70, 4, .sp, 0x40, 64)] }

theorem test_stream_reads_ahead :
    (match exec (.streamReadAhead 0 0 70 4 0x50) streaming with
      | .next t => (t.nd 0).stmBuf.length
      | _ => 0) = 32 := by decide +kernel

theorem witness_MemoryInstructionsJoinTheChainR106 :
    (let i := memSet (some (sc 8)) (some (sc 1))
     let w := mw 3 .sp
     let s := memory i
     let a := newAcc s i inv (.st w) w false
     (.st, Instr.st) ∈ memoryOps.map (fun e => (e.1, e.2)) ∧ Issues s i inv ∧ predHolds w.prd i = true ∧ nullIn .st i.l i.r i.q = false
      ∧ opEffect .st = true ∧ i.status.er = false ∧ widthBad .st i.l i.r i.q = false ∧ syncAddrBad s i.nk a = none ∧ a.returns = false
      ∧ opAccess .st = true ∧ (∀ c x, s.accLoc i.nk a ≠ .bad c x) ∧ w.asp ≠ .kv)
    ∧ nullIn .st (some nul) none none = true ∧ widthBad .st (some (sc 8)) (some (vec 1)) none = true
    ∧ (operands (some { sc 8 with er := true })).status.er = true
    ∧ (let a := entry (.acq (mw 0 .sh)) (some (sc 0x10000000)) (some (sc 0)); syncAddrBad (memory memSet) 0 a = some .addressOutOfRange)
    ∧ (let a := entry (.st (mw 3 .sp)) (some (sc 0x200000)) (some (sc 0)); (memory memSet).accLoc 0 a = .bad .addressOutOfRange 0)
    ∧ Issues (memory memSet) memSet inv ∧ (mw 0 .sp (.slot 71 .q)).t0 = .slot 71 .q
    ∧ streaming.live (nkOf 0 0) = true ∧ streaming.streamStarted (nkOf 0 0) 70 4 = true
    ∧ ctxInstr (streaming.cl 0) 0 70 = some (.ld { mw 3 .sp (.slot 5 .l) with mode := .stm })
    ∧ locate streaming (streaming.party 0) .sp 0x40 32 0 permR = .piece [{ key := spKey 0 0x40, size := 32, lane := 0, va := 0x40 }]
    ∧ (streaming.nd 0).regs.find? (fun r => r.1 = 70 ∧ r.2.1 = 4) = some (70, 4, .sp, 0x40, 64)
    ∧ badAt streaming (spKey 0 0x40) = false ∧ keyHeld streaming none = false := by
  refine ⟨⟨by simp [memoryOps], ⟨rfl, rfl, rfl⟩, rfl, rfl, rfl, rfl, rfl, rfl, rfl, rfl, fun c x h => ?_, by decide⟩, rfl, rfl, rfl, ?_, ?_,
    ⟨rfl, rfl, rfl⟩, rfl, ?_, ?_, ?_, ?_, ?_, ?_, ?_⟩
  · have : (memory (memSet (some (sc 8)) (some (sc 1)))).accLoc 0
        (newAcc (memory (memSet (some (sc 8)) (some (sc 1)))) (memSet (some (sc 8)) (some (sc 1))) inv (.st (mw 3 .sp)) (mw 3 .sp) false)
        = .piece [{ key := spKey 0 8, size := 8, lane := 0, va := 8 }] := by decide +kernel
    exact absurd (this.symm.trans h) (by simp)
  all_goals decide +kernel

theorem proceeds (a : Acc) (h : (interface a).accOf 0 0 = some a) (h' : (interface a).accOpen 0 a = some []) :
    Proceeds (interface a) turn a [] := ⟨rfl, rfl, h, h'⟩

theorem arrives (a : Acc) (old : Nat) (h : a.id = 0) (hg : a.gn = 0) (he : (atPlace a old).accOf 0 0 = some (sentAcc a))
    (ho : engOwned (atPlace a old) (spKey 0 8) = false) :
    ArrivesAt (atPlace a old) arrival [] 0 0 (sentAcc a) { key := spKey 0 8, size := 8, lane := 0, va := 8 } where
  first := rfl
  body := by simp [arrival, sentAcc, h, hg]
  entry := by simpa [sentAcc, h] using he
  sent := rfl
  piece := rfl
  near := by decide
  owned := ho
  free := rfl
  key := fun k hk => absurd hk (by simp)
  good := rfl

theorem witness_AccessesArePerformedR99 :
    Proceeds (interface load) turn load [] ∧ opLoad .ld = true
    ∧ (interface load).accLoc 0 load = .piece [{ key := spKey 0 8, size := 8, lane := 0, va := 8 }]
    ∧ givenTile 0 [] load = false ∧ forwards [] [{ key := spKey 0 8, size := 8, lane := 0, va := 8 }] = some []
    ∧ (let a := entry (.ld (mw 3 .sp (.slot 5 .l))) (some (sc 0x180000))
       Proceeds (interface a) turn a [] ∧ (interface a).accLoc 0 a = .bad .addressOutOfRange 0)
    ∧ (let a := { atomic .aadd 3 0 (.slot 5 .l) with id := 0 }
       Proceeds (interface a) turn a [] ∧ a.returns = true ∧ ((interface a).nd 0).oldest a.age = true)
    ∧ Proceeds (interface store) turn store [] ∧ opStore .st = true ∧ store.loc ≠ []
    ∧ Proceeds (interface add) turn add [] ∧ opRmw .aadd = true ∧ add.returns = false
    ∧ ArrivesAt (atPlace load 77) arrival [] 0 0 (sentAcc load) { key := spKey 0 8, size := 8, lane := 0, va := 8 }
    ∧ ArrivesAt (atPlace store 77) arrival [] 0 0 (sentAcc store) { key := spKey 0 8, size := 8, lane := 0, va := 8 }
    ∧ ArrivesAt (atPlace add 77) arrival [] 0 0 (sentAcc add) { key := spKey 0 8, size := 8, lane := 0, va := 8 }
    ∧ (let a := atomic .aadd 3 0 (.slot 5 .l)
       ArrivesAt (atPlace a 77) arrival [] 0 0 (sentAcc a) { key := spKey 0 8, size := 8, lane := 0, va := 8 } ∧ (sentAcc a).returns = true)
    ∧ (atPlace store 77).barred 0 0 (spKey 0 8) = false
    ∧ (∀ e, e ∈ ((atPlace store 77).nd 0).mif → e.rel = false)
    ∧ (let s := atPlace store 77
       State.barred { s with memx := { s.memx with resv := [(granule (spKey 0 8), 9, 0)] } } 0 0 (spKey 0 8) = true)
    ∧ (let a := { entry (.gath (mw 2 .sp (.slot 5 .l))) with got := [(4, 7), (0, 9)] }
       a.op = .gath ∧ (a.got.map (·.1)).Nodup ∧ ∀ e, e ∈ a.got → e.2 < 2 ^ (8 * 4) ∧ ∃ k, k < 64 / 4 ∧ e.1 = k * 4) := by
  refine ⟨proceeds _ ?_ ?_, rfl, ?_, rfl, ?_, ⟨proceeds _ ?_ ?_, ?_⟩, ⟨proceeds _ ?_ ?_, rfl, ?_⟩, proceeds _ ?_ ?_, rfl, ?_,
    proceeds _ ?_ ?_, rfl, rfl, arrives _ _ rfl rfl ?_ ?_, arrives _ _ rfl rfl ?_ ?_, arrives _ _ rfl rfl ?_ ?_, ⟨arrives _ _ rfl rfl ?_ ?_, rfl⟩, ?_, ?_,
    ?_, rfl, ?_, fun e he => ?_⟩
  rotate_right
  · simp only [List.mem_cons, List.not_mem_nil, or_false] at he
    rcases he with rfl | rfl
    · exact ⟨by decide, 1, by decide, rfl⟩
    · exact ⟨by decide, 0, by decide, rfl⟩
  all_goals decide +kernel

theorem witness_AtomicsComputeR101 :
    opAtomic .afadd = true ∧ (0x3FF0 : W64).setWidth (8 * 2) = 0x3FF0 ∧ opAtomic .acas = true ∧ 4 * 15 < 64 ∧ 4 * 7 < 32 := by decide

/-- A sync object of package scope at 0x40 of the CSM whose RCNT is `n`. -/
def object (s : State) (n : Nat) : State := memWrite (memWrite s (csmKey 0x40) n 8) (csmKey 0x48) 3 8

theorem test_acquire :
    went (entry (.acq (mw 0 .sh)) (some (sc 0x40)) (some (sc 2)))
      (object (interface (entry (.acq (mw 0 .sh)) (some (sc 0x40)) (some (sc 2)))) 2) = ([(.performed, [])], [])
    ∧ went (entry (.acq (mw 0 .sh)) (some (sc 0x40)) (some (sc 3)))
      (object (interface (entry (.acq (mw 0 .sh)) (some (sc 0x40)) (some (sc 3)))) 2) = ([(.waiting, [])], []) := by decide +kernel

theorem test_synchronisation :
    went (entry (.semwait (mw 0 .sp)) (some (sc 1)) (some (sc 0))) = ([(.performed, [])], [])
    ∧ went (entry (.semwait (mw 0 .sp)) (some (sc 1)) (some (sc 1))) = ([(.waiting, [])], [])
    ∧ went (entry (.semrd (mw 0 .sp (.slot 5 .l))) (some (sc 1))) = ([(.performed, [])], [])
    ∧ went (entry (.sbwait (mw 0 .sp))) = ([(.performed, [])], []) ∧ went (entry (.fence (mw 0 .sp))) = ([(.performed, [])], []) := by
  decide +kernel

theorem test_tiles_and_semaphores :
    went (entry (.ttake (mw 0 .sp)) (some (sc 0x1000))) = ([(.performed, [])], [])
    ∧ went (entry (.tgive (mw 0 .sp)) (some (sc 0x1000))) = ([(.waiting, [])], [])
    ∧ went (entry (.seminc (mw 0 .sp)) (some (sc 1)) (some (sc 4))) = ([(.sent, [])], [.sem 0 1 4 false (some (0, 0)) false]) := by decide +kernel

/-- REL sets out for the slice of its object. -/
theorem test_release :
    (match exec (.rel (mw 0 .sh)) (object (interface (entry (.rel (mw 0 .sh)) (some (sc 0x40)))) 2) with
      | .next t => ((t.nd 0).mif.map (·.st), (Tab.get [] t.ports 0).map (·.dst))
      | _ => ([], [])) = ([.sent], [192]) := by decide +kernel

/-- One message at its place. -/
def message (s : State) (b : Msg) (src : Nat := 0) (dst : Nat := 0) : State := { s with inbox := [{ src := src, dst := dst, cls := 3, body := b }] }

/-- An increment saturates (R131), and REL adds 1 to RCNT alone (R129). -/
theorem test_signals :
    (match exec (.semaphoreUpdate 0) (message ((memory memSet).modCl 0 fun c => { c with sems := [(1, 0xFFFFFFFE)] }) (.sem 0 1 4 false none false)) with
      | .next t => t.sem 0 1
      | _ => 0) = 0xFFFFFFFF
    ∧ (let a := { entry (.rel (mw 0 .sh)) (some (sc 0x40)) with st := .sent }
      match exec (.syncObjectIncrement 0) (message (object (interface a) 2) (.rel 0 0) 0 192) with
      | .next t => (memRead t (csmKey 0x40) 8, memRead t (csmKey 0x48) 8)
      | _ => (0, 0)) = (3, 3)
    ∧ (match exec (.doneTokenArrival 0) (message (interface { load with gated := true }) (.done 0 0 4 0 70)) with
      | .next t => (t.nd 0).mif.map (·.gated)
      | _ => []) = [false] := by decide +kernel

theorem witness_SynchronisationCompletesR128 :
    (let a := entry (.acq (mw 0 .sh)) (some (sc 0x40)) (some (sc 2))
     let s := object (interface a) 2
     Proceeds s turn a [] ∧ badAt s (csmKey a.va) = false ∧ a.bound = none ∧ objCheck s 0 a.va = none ∧ memRead s (csmKey a.va) 8 = 2
      ∧ objCheck (interface a) 0 a.va = some .badSyncObject ∧ badAt { s with memx := { s.memx with bad := [granule (csmKey a.va)] } } (csmKey a.va) = true)
    ∧ (∀ ins, ins ∈ [.semwait (mw 0 .sp), .semrd (mw 0 .sp), .sbwait (mw 0 .sp), .fence (mw 0 .sp), .ttake (mw 0 .sp), .seminc (mw 0 .sp),
        .rel (mw 0 .sh), .tgive (mw 0 .sp)] → Proceeds (interface (entry ins (some (sc 0)))) turn (entry ins (some (sc 0))) [])
    ∧ (interface (entry (.ttake (mw 0 .sp)) (some (sc 0)))).tileFree 0 0 = true
    ∧ ((interface load).modCl 0 fun c => { c with flumes := [(0, {})] }).tileFree 0 0 = false
    ∧ writesMet [] = true ∧ semTurn 0 (0, 0) [] = true ∧ writesMet [store] = false
    ∧ (let s := message (memory memSet) (.sem 0 1 4 false none false); s.holds 0 0 = true ∧ (0 : Nat) ≠ 224)
    ∧ (let a := { entry (.rel (mw 0 .sh)) (some (sc 0x40)) with st := .sent }
       let s := message (object (interface a) 2) (.rel 0 0) 0 192
       s.accOf 0 0 = some a ∧ (∀ b, b ∈ (s.nd 0).mif → b.id ∈ a.cov → b.done = true) ∧ reservedBy s (csmKey 0x40) 0 0 = false
        ∧ badAt s (csmKey 0x40) = false) := by
  refine ⟨⟨⟨rfl, rfl, ?_, ?_⟩, ?_, rfl, ?_, ?_, ?_, ?_⟩, fun ins h => ?sync, ?_, ?_, rfl, rfl, ?_, ⟨?_, by decide⟩, ?_, ?_, ?_, ?_⟩
  case sync =>
    simp only [List.mem_cons, List.not_mem_nil, or_false] at h
    rcases h with rfl | rfl | rfl | rfl | rfl | rfl | rfl | rfl <;> refine proceeds _ ?_ ?_ <;> decide +kernel
  all_goals decide +kernel

/-! ### Instructions held to the commit -/

/-- Eight words, the first lowest. -/
def record (ws : List Nat) : V512 := BitVec.ofNat 512 (ws.foldr (fun w a => w + 2 ^ 64 * a) 0)

/-- A pattern of four 4-byte elements at 0x1000 of the scratchpad. -/
def pattern4 (base : Nat := 0x1000) : V512 := record [2 * 2 ^ 58 + base, 0, 0x1000100010004, 4, 0, 0, 0, 0x1000100010004]
/-- A window of one tile from 0x1000. -/
def window1 : V512 := record [0x1000, 4096]
/-- A flume of two slots of one tile from tile 4, whose source is cluster 5. -/
def flume2 : V512 := record [0x10004, 5 * 2 ^ 44 + 7]
def sequence : V512 := record [0x1000, 16, 16 * 2 ^ 48 + 16 * 2 ^ 32 + 64, 0x40, 1]
def store64 : V512 := record [64 * 2 ^ 32 + 14 * 2 ^ 24 + 2, 0, 28]
def binding : V512 := record [64 * 2 ^ 32, 0, 0x1000]
def object64 : V512 := record [9, 3 * 2 ^ 61 + 0x4000, 64]

/-- The commands that the invocation holds after the instruction fired; a fault where it detected one. -/
def holds (ins : Instr) (l : Option Opnd := none) (r : Option Opnd := none) (q : Option Opnd := none) : Nat × Option Cause :=
  match exec ins (running1 (fire (operands l r q))) with
  | .next t => (((t.nd 0).invs.flatMap (·.held)).length, (t.nd 0).pend.map (·.cause))
  | _ => (9, none)

def one : Option Opnd := some (sc 1)
def many : Option Opnd := some (sc 64)

/-- Every engine instruction on good operands is held, once. -/
theorem test_held_engines :
    [holds (.pset (eword)) (some (vec pattern4)), holds (.copy (eword)), holds (.copyr (eword)) (some (sc 0)), holds (.tsend (eword 0 1)) one,
     holds (.rread (eword)) (some (sc 0)) (some (sc 0)) many, holds (.wopen (eword)) (some (vec window1)), holds (.wclose (eword)) one,
     holds (.flopen (eword)) (some (vec flume2)), holds (.flpush (eword)) (some (sc 0)) one one, holds (.flfree (eword)) one,
     holds (.flclose (eword)) one, holds (.kvtab (eword)) (some (vec sequence)), holds (.kvgath (eword)) (some (sc 0)) one,
     holds (.kvapp (eword)) (some (sc 0)) one, holds (.kvinv (eword)) (some (sc 0)) one,
     holds (.nvrd (eword)) (some (sc (1 <<< 40))) (some (sc 0)) one, holds (.nvwr (eword)) (some (sc (1 <<< 40))) (some (sc 0)) one,
     holds (.cred (eword)) one, holds (.cbcast (eword)) one, holds (.cgath (eword)) one] = List.replicate 20 (1, none) := by decide +kernel

theorem test_held_units :
    [holds (.wload (eword (unit := 1))) (some (sc 16384)) (some (sc 0)), holds (.wswap (eword)) one, holds (.mma (eword)) one,
     holds (.mrecur (eword)) one, holds (.macc (eword 0 0x4000)) one, holds (.mzero (eword)) one, holds (.mstat (eword 0 0 (.queue 4))) one,
     holds (.kcfg (eword)) (some (vec store64)), holds (.kbias (eword)) (some (vec 0)), holds (.kmask (eword)) one,
     holds (.kbind (eword)) (some (vec binding)), holds (.kunbind (eword)) one, holds (.klife (eword 0 1)) one one,
     holds (.kqry (eword 0 0 (.queue 4))) many one, holds (.kstat (eword 0 0 (.queue 4))) one] = List.replicate 15 (1, none) := by
  decide +kernel

theorem test_held_tasks_and_names :
    [holds (.launch (eword)) (some (vec 0)), holds (.garm (eword)) one one, holds (.spawn (eword 0 0 (.queue 4))) one one, holds (.tret (eword)) one,
     holds (.hreg (eword)) one one, holds (.hregUnreg (eword 1)) one (some (sc 0)), holds (.msend (eword)) (some (sc 0)) one,
     holds (.msendTrig (eword 1)) one one, holds (.mrecv (eword 0 0 (.queue 4))) (some (sc 0)), holds (.mprobe (eword 0 0 (.queue 4))) (some (sc 0)),
     holds (.nopen (eword 0 0 (.queue 4))) one, holds (.nclose (eword)) one, holds (.nbind (eword)) (some (vec object64)),
     holds (.nrebind (eword)) many, holds (.nunbind (eword)) one, holds (.nlook (eword 0 0 (.queue 4))) one] = List.replicate 16 (1, none) := by
  decide +kernel

/-- Operands that a rule forbids. -/
theorem test_held_faults :
    [holds (.pset (eword)) (some (vec 0)), holds (.pset (eword)) one, holds (.wload (eword (unit := 1))) (some (sc 1)) (some (sc 0)),
     holds (.mma (eword)) (some (sc 0)), holds (.garm (eword)) many one, holds (.spawn (eword)) (some (sc 0)) one,
     holds (.nrebind (eword)) one, holds (.kvgath (eword)) (some (sc 0)) (some (sc 257)), holds (.cred (eword)) (some { sc 1 with er := true })]
    = [(0, some .badPattern), (0, some .widthMismatch), (0, some .reservedCode), (0, some .reservedCode), (0, some .reservedCode),
       (0, some .reservedCode), (0, some .reservedCode), (0, some .reservedCode), (0, some .errorOperand)] := by decide +kernel

/-- System instructions (R355 to R360, R406 to R410). -/
theorem test_system :
    (match exec (.rdsr (sword 0x44 0 (.slot 5 .l))) (running1 (fire (operands one))) with
      | .next t => (t.cl 0).input.map (·.o.val)
      | _ => []) = [.sc 0x100000]
    ∧ holds (.wrsr (sword 0x40)) one = (1, none) ∧ holds (.trap (sword 0 5)) one = (1, none) ∧ holds (.tsync (sword)) one = (1, none)
    ∧ holds (.tinv (sword 0 1)) (some (sc 0x1000)) (some (sc 0x10000)) = (1, none) ∧ holds (.keyset (sword)) (some (vec 1)) one = (1, none) := by
  decide +kernel

theorem test_traps :
    holds (.brk (sword 0 7)) one = (0, some .breakpoint) ∧ holds (.frec (sword 0 0 (.slot 5 .l))) one = (0, some .noFaultRecord)
    ∧ holds (.fret (sword)) one = (0, some .noFaultRecord)
    ∧ (match exec (.tprobe (sword 0 0 (.slot 5 .l))) (running1 (fire (operands (some (sc 0x1000)) (some (sc 0))))) with
      | .next t => (t.cl 0).input.length
      | _ => 0) = 1 := by decide +kernel

theorem witness_EngineCommandsAreHeldR147 :
    (let i := operands (some (vec pattern4))
     let s := running1 (fire i)
     (.pset, .pset (eword), ({ l := .vec } : Ports), patBad i.lvec = false) ∈ engineOps (eword) s i inv ∧ Issues s i inv
      ∧ ({ l := .vec } : Ports).present i ∧ predHolds .always i = true ∧ ({ l := .vec } : Ports).null i = false ∧ i.status.er = false
      ∧ ({ l := .vec } : Ports).ok i = true ∧ patBad i.lvec = false)
    ∧ ({ l := .vec } : Ports).null (operands (some nul)) = true ∧ ({ l := .vec } : Ports).ok (operands one) = false
    ∧ ¬ patBad (operands (some (vec 0))).lvec = false
    ∧ (let i := operands (some (sc 16384)) (some (sc 0))
       Issues (running1 (fire i)) i inv ∧ ({ l := .sc, r := .sc } : Ports).present i ∧ i.lv % 16384 = 0 ∧ i.lv ≤ 0x3fc000 ∧ i.rv % 64 = 0) := by
  refine ⟨⟨by simp [engineOps], ⟨rfl, rfl, rfl⟩, ?_, rfl, rfl, rfl, rfl, ?_⟩, rfl, rfl, ?_, ⟨rfl, rfl, rfl⟩, ?_, ?_, ?_, ?_⟩
  · simp [Ports.present, operands]
  · decide +kernel
  · decide +kernel
  · simp [Ports.present, operands]
  all_goals decide +kernel

/-- An invocation that serves fault record 3. -/
def serving : Inv := { inv with spawn := some { arg := {}, record := some 3 } }

def withRecord (s : State) : State := { s with recs := [(3, { val := 5, nk := 9, kernel := 1 })] }

theorem witness_SystemInstructionsFireR355 :
    (let i := operands one
     let s := running1 (fire i)
     FiresS .always { l := .any } s i inv ∧ (s.nd i.nk).oldest inv.age = true ∧ (s.nd i.nk).skip ≠ some inv.n ∧ s.served inv = none
      ∧ s.writeFault (s.nodeParty i.nk) 0x40 i.lv = none ∧ s.writeFault (s.nodeParty i.nk) 0x80 i.lv = none ∧ 2 ≤ s.privOf i.nk
      ∧ ((s.modNd 0 fun n => { n with skip := some 4 }).nd i.nk).skip = some inv.n)
    ∧ (let i := operands one
       let s := withRecord (running1 (fire i serving))
       FiresS .always { l := .any } s i serving ∧ (s.served serving).isSome = true ∧ serving.fretHeld = false)
    ∧ (let i := operands (some (sc 0x1000)) (some (sc 0))
       let s := running1 (fire i)
       FiresS .always { l := .sc, r := .sc } s i inv ∧ MayUseAsid s i.nk (i.rv % 2 ^ 16) ∧ zeros i.lv 52 12 ∧ zeros i.rv 16 48)
    ∧ (let s := srSet (running1 (fire (operands (some (vec 1)) one))) 0 0x300 0x8000000000000000
       s.privOf 0 < 2 ∧ ¬ MayUseAsid s 0 7 ∧ s.writeFault (s.nodeParty 0) 0x300 0 = some .privilege
        ∧ ({ l := .vec, r := .sc } : Ports).present (operands (some (vec 1)) one)) := by
  refine ⟨⟨⟨⟨rfl, rfl, rfl⟩, rfl, rfl, rfl, rfl, ?_⟩, ?_, ?_, rfl, ?_, ?_, ?_, ?_⟩, ⟨⟨⟨rfl, rfl, rfl⟩, rfl, rfl, rfl, rfl, ?_⟩, rfl, rfl⟩,
    ⟨⟨⟨rfl, rfl, rfl⟩, rfl, rfl, rfl, rfl, ?_⟩, .inl ?_, ?_, ?_⟩, ?_, ?_, ?_, ?_⟩
  all_goals first | decide +kernel | (simp [Ports.present, operands, one]; done) | skip
  all_goals first | (unfold MayUseAsid; decide +kernel) | (unfold zeros; decide +kernel)

/-- An instruction that fires, its view, and what it answers. -/
theorem witness_FiringLeavesTheRestR35 :
    (Instr.add (word .i8)).view = some (.add, .g (word .i8)) ∧ Issues (fire (operands one one)) (operands one one) inv
    ∧ (∃ t, exec (.add (word .i8)) (fire (operands one one)) = .next t) ∧ (mw 3 .kv).asp = .kv
    ∧ (Instr.binv (word .i8)).view = some (.binv, .g (word .i8)) := ⟨rfl, ⟨rfl, rfl, rfl⟩, ⟨_, rfl⟩, rfl, rfl⟩

/-! ### Engine units -/

/-- Command 0 of its unit, issued by node 0. -/
def command (ins : Instr) (l : Option Opnd := none) (r : Option Opnd := none) (q : Option Opnd := none) : Cmd :=
  { id := 0, instr := ins, nk := 0, kernel := 1, part := 0, asid := 0, ix := 110, n := 4, age := 0, l := l, r := r, q := q }

/-- The unit of the command goes on with it. -/
def atWork (m : Cmd) (piece : Nat := 0) : Issue :=
  { c := 0, p := 0, ix := 110, ws := 0, it := 4, perform := true, u := unitOf m.op m.w, k := 0, piece := piece }

/-- The command stands alone in its unit; tiles 0 to 15 of the cluster are the engines'. -/
def working (m : Cmd) (piece : Nat := 0) : State :=
  let s := (running1 (fire operands)).modCl 0 fun c => { c with units := [(unitOf m.op m.w, [m])], engTiles := List.range 16 }
  { s with sched := { cur := some (atWork m piece) } }

/-- What the unit made of the command: whether it is finished, or, where it failed, the cause. -/
def done (m : Cmd) (s : State := working m) : List (Bool × Option Cause) :=
  match exec m.instr s with
  | .next t => (t.unit 0 (unitOf m.op m.w)).map (fun x => (x.finished, none)) ++ (t.nd 0).engFaults.map fun f => (false, some f.cause)
  | _ => []

/-- The messages that the unit sent from cluster 0, in its own cluster and to others. -/
def sends (m : Cmd) (s : State := working m) : List Msg :=
  match exec m.instr s with
  | .next t => t.inbox.map (·.body) ++ (Tab.get [] t.ports 0).map (·.body)
  | _ => []

theorem worksOn (m : Cmd) (h : m.id = 0) (hf : m.fail = none) (s : State) (hs : s.sched.cur = some (atWork m))
    (hu : s.unit 0 (unitOf m.op m.w) = [m]) : WorksOn s (atWork m) m m.op m.instr m.w := by
  refine ⟨⟨hs, rfl, ?_, hf⟩, rfl, rfl⟩
  show List.find? _ (s.unit 0 (unitOf m.op m.w)) = _
  rw [hu]; simp [atWork, h]

theorem works (m : Cmd) (h : m.id = 0) (hf : m.fail = none) : WorksOn (working m) (atWork m) m m.op m.instr m.w :=
  worksOn m h hf _ rfl (by
    show Tab.get [] ((Tab.get {} (Tab.put _ 0 _) 0 : Cluster).units) _ = _
    rw [Tab.get_put_same]
    simp [Tab.get, Tab.find])

def cl0 (f : Cluster → Cluster) (s : State) : State := s.modCl 0 f

def open0 (f : Flume) (s : State) : State := cl0 (fun c => { c with flumes := [(0, f)] }) s

/-- The flume of `flume2`, and a command of each kind. -/
def flume : Flume := { part := 0, ring := 4, nsl := 1, tps := 0, srcChip := 0, srcCl := 5, rtn := false, sem := 7 }

def flopen : Cmd := command (.flopen (eword)) (some (vec flume2))
def flpush : Cmd := { command (.flpush (eword)) (some (sc (5 <<< 44))) (some (sc 0)) one with
  pats := [record [5 * 2 ^ 58 + 0x1000, 0, 0x1000100010040, 64, 0, 0, 0, 0x1000100010040]] }
def flfree : Cmd := command (.flfree (eword)) one
def flclose : Cmd := command (.flclose (eword)) one

theorem test_flumes :
    (done flopen, sends flopen) = ([(true, none)], [.notice 0 0 0 0 (flopen.pending .routeRefused), .notice 0 1 0 0 (flopen.pending .routeRefused)])
    ∧ done flopen (open0 flume (working flopen)) = [(false, some .flumeState)]
    ∧ (done flfree (open0 { flume with landed := 1 } (working flfree)), sends flfree (open0 { flume with landed := 1 } (working flfree)))
      = ([(true, none)], [.notice 0 2 0 0 (flfree.pending .routeRefused)])
    ∧ done flfree (open0 flume (working flfree)) = [(false, some .flumeState)]
    ∧ (done flclose (open0 flume (working flclose)), sends flclose (open0 flume (working flclose))) = ([(true, none)], [.flCancel 0 0 (flclose.pending .routeRefused)]) := by
  decide +kernel

/-- FLPUSH takes a notice, sends its slot once it is read, and ends when it has landed. -/
theorem test_flpush :
    (match exec flpush.instr (cl0 (fun c => { c with notices := [(80, [(3, 0)])] }) (working flpush)) with
      | .next t => (t.unit 0 1).map (·.aux)
      | _ => []) = [[0, 0, 3, 0]]
    ∧ sends { flpush with aux := [0, 64, 3, 0], buf := [7] } = [.slot 80 3 0 0 0 0 [7]]
    ∧ done { flpush with aux := [1], got := [(3, 0)] } = [(true, none)] := by decide +kernel

/-- One message at cluster 0 for flume 0, whose tile is of 4096 bytes. -/
theorem test_flume_messages :
    (match exec (.freedSlotNotice 0) (message (working flfree) (.notice 80 2 0 0 (flfree.pending .routeRefused))) with
      | .next t => Tab.get [] (t.cl 0).notices 80
      | _ => []) = [(2, 0)]
    ∧ (match exec (.flumeSlotLanding 0) (message (open0 flume (working flfree)) (.slot 0 0 0 5 9 0 [0xAA])) with
      | .next t => ((t.cl 0).flumes.map (·.2.landed), t.inbox.map (·.body), memGet t (spKey 0 0x4000))
      | _ => ([], [], 0)) = ([0], [.slot 0 0 0 5 9 32 []], 0xAA)
    ∧ (match exec (.flumeSlotLanding 0) (message (open0 flume (working flfree)) (.slot 0 0 0 5 9 4096 [])) with
      | .next t => ((t.cl 0).flumes.map (·.2.landed), t.sem 0 7)
      | _ => ([], 0)) = ([1], 1) := by decide +kernel

theorem witness_FlumesR152 :
    WorksOn (working flopen) (atWork flopen) flopen .flopen (.flopen (eword)) (eword) ∧ Tab.find ((working flopen).cl 0).flumes 0 = none
    ∧ WorksOn (working flpush) (atWork flpush) flpush .flpush (.flpush (eword)) (eword) ∧ flpush.aux.getD 0 0 < flpush.qv
    ∧ (working flpush).pushAhead 0 flpush = false ∧ patN (flpush.pats.getD 0 0) * patEsz (flpush.pats.getD 0 0) = 4096
    ∧ WorksOn (working flfree) (atWork flfree) flfree .flfree (.flfree (eword)) (eword)
    ∧ Tab.find ((open0 { flume with landed := 1 } (working flfree)).cl 0).flumes 0 = some { flume with landed := 1 }
    ∧ (working flfree).tileBusy 0 flfree (flume.slotTiles 0) = false
    ∧ WorksOn (working flclose) (atWork flclose) flclose .flclose (.flclose (eword)) (eword) ∧ (working flclose).flBusy 0 = false
    ∧ (let s := message (open0 flume (working flfree)) (.slot 0 0 0 5 9 0 [1])
       s.flumeSaved 0 0 = false ∧ Tab.find (s.cl 0).flumes (0 % 16) = some flume ∧ flume.srcChip = 0 ∧ flume.srcCl = 5 ∧ flume.part = 0
        ∧ (0 : Nat) = flume.landed ∧ reservedBy s (spKey 0 0x4000) (2 ^ 30) 0 = false
        ∧ reservedBy { s with memx := { s.memx with resv := [(granule (spKey 0 0x4000), 9, 0)] } } (spKey 0 0x4000) (2 ^ 30) 0 = true)
    ∧ (Tab.get [] ((working flopen).cl 0).notices 80).length < 16 := by
  refine ⟨works flopen rfl rfl, ?_, works flpush rfl rfl, ?_, ?_, ?_, works flfree rfl rfl, ?_, ?_,
    works flclose rfl rfl, ?_, ⟨?_, ?_, rfl, rfl, rfl, rfl, ?_, ?_⟩, ?_⟩
  all_goals decide +kernel

/-- A route table at 0 of the CSM whose entry 1 names element 70 of plane 1 of cluster 5, and a whitelist at 0x800 with tag 1 and chip 0. -/
def routes (s : State) : State :=
  memWrite (memWrite (memWrite (srSet s 0 0x304 0x800) (csmKey 8) (2 ^ 63 + 5 * 2 ^ 40 + 2 ^ 37 + 70 * 2 ^ 30 + 2 ^ 20) 8) (csmKey 0x800) 2 1)
    (csmKey 0x820) 1 1

def tsend : Cmd := command (.tsend (eword 0 1)) one
def wopen : Cmd := command (.wopen (eword 0 2)) (some (vec window1))
def wclose : Cmd := command (.wclose (eword 0 2)) one
def copyr : Cmd := { command (.copyr (eword)) (some (sc (5 <<< 44))) with pats := [pattern4 0x1000], aux := [16], buf := [] }
def copyr64 : Cmd := { command (.copyr (eword)) (some (sc (5 <<< 44))) with
  pats := [record [5 * 2 ^ 58 + 0x1000, 0, 0x1000100010001, 64, 0, 0, 0, 0x1000100010001]], aux := [1], buf := List.replicate 64 9 }
def rread : Cmd := command (.rread (eword)) (some (sc 0x4000)) (some (sc (6 <<< 44))) many

theorem test_fabric_commands :
    sends tsend (routes (working tsend)) = [.tok 1 70 .l 1 0 0 0 0 1 (sc 1)] ∧ done tsend = [(false, some .routeTag)]
    ∧ done wopen = [(true, none)] ∧ done wclose = [(false, some .windowState)]
    ∧ done wclose (cl0 (fun c => { c with windows := [(2, { desc := window1 })] }) (working wclose)) = [(true, none)]
    ∧ done copyr = [(false, some .patternMismatch)]
    ∧ sends copyr64 = [.win 0 0 64 0 (some (List.replicate 64 9)) 0 0 0 0]
    ∧ (sends rread).length = 1 ∧ done { rread with started := true, aux := [1], got := [(0, 0)] } = [(true, none)] := by decide +kernel

/-- Node 9, plane 1 of cluster 1, under kernel 1: a route tag's destination. -/
def routed (s : State) : State := s.modNd 9 fun n => { n with asg := some { assigned with num := 2 }, st := .running, hdr := some {} }

theorem test_fabric_messages :
    (match exec (.routeTagDelivery 0) (message (routed (working tsend)) (.tok 1 70 .l 1 0 0 0 0 1 (sc 4)) 0 1) with
      | .next t => (t.cl 1).routed.map fun r => (r.pl, r.ix, r.k, r.o.val)
      | _ => []) = [(1, 70, 0, .sc 4)]
    ∧ (match exec (.routeTagDelivery 0) ((message (routed (working tsend)) (.tok 1 70 .l 1 0 0 0 0 1 (sc 4)) 0 1).modNd 9
          fun n => { n with taken := [(280, 1)] }) with
      | .next t => ((t.cl 1).routed.length, (Tab.get [] t.ports 1).map (·.body))
      | _ => (1, [])) = (0, [.rack 0 0 0 none 0])
    ∧ (match exec (.rreadAck 0) (message (working { rread with started := true }) (.rack 0 0 0 none 0)) with
      | .next t => (t.unit 0 5).map (·.got)
      | _ => []) = [[(0, 0)]] := by decide +kernel

theorem witness_FabricR168 :
    WorksOn (working tsend) (atWork tsend) tsend .tsend (.tsend (eword 0 1)) (eword 0 1)
    ∧ routeEntry (routes (working tsend)) 0 1 = some (0, 5, 1, 70, .l, 1, 0) ∧ tagListed (routes (working tsend)) 0 1 0 = true
    ∧ tagListed (memWrite (routes (working tsend)) (csmKey 0x800) 0 1) 0 1 0 = false ∧ routeEntry (working tsend) 0 1 = none
    ∧ (routes (working tsend)).pathFlight 0 1 < 64
    ∧ WorksOn (working wopen) (atWork wopen) wopen .wopen (.wopen (eword 0 2)) (eword 0 2) ∧ Tab.find ((working wopen).cl 0).windows 2 = none
    ∧ (0x1000 + 4096 ≤ 0x180000 ∧ ∀ x : Nat, x * 4096 < 0x1000 + 4096 ∧ 0x1000 < (x + 1) * 4096 → x ∈ ((working wopen).cl 0).engTiles)
    ∧ WorksOn (working wclose) (atWork wclose) wclose .wclose (.wclose (eword 0 2)) (eword 0 2)
    ∧ WorksOn (working copyr) (atWork copyr) copyr .copyr (.copyr (eword)) (eword) ∧ patN (copyr.pats.getD 0 0) * patEsz (copyr.pats.getD 0 0) % 64 ≠ 0
    ∧ WorksOn (working copyr64) (atWork copyr64) copyr64 .copyr (.copyr (eword)) (eword)
    ∧ patN (copyr64.pats.getD 0 0) * patEsz (copyr64.pats.getD 0 0) % 64 = 0 ∧ copyr64.aux = [patN (copyr64.pats.getD 0 0)]
    ∧ WorksOn (working rread) (atWork rread) rread .rread (.rread (eword)) (eword) ∧ rread.started = false
    ∧ (let s := message (routed (working tsend)) (.tok 1 70 .l 1 0 0 0 0 1 (sc 4)) 0 1
       s.savedAt 1 0 = false ∧ (s.nd 9).asg.isSome = true ∧ (s.nd 9).part = 0 ∧ (s.nd 9).callable = false ∧ (s.nd 9).st ≠ .ended
        ∧ (s.nd 9).st ≠ .unassigned ∧ Tab.get 0 (s.nd 9).taken 280 ≤ 0)
    ∧ (let s := (message (routed (working tsend)) (.tok 1 70 .l 1 0 0 0 0 1 (sc 4)) 0 1).modNd 9 fun n => { n with taken := [(280, 1)] }
       ¬ ((∃ v, v ∈ (s.nd 9).invs ∧ (280, 0) ∈ v.takes) ∨ Tab.get 0 (s.nd 9).taken 280 ≤ 0))
    ∧ (let w := record [0x1000, 4096, 0, 1]
       let s := message (cl0 (fun c => { c with windows := [(2, { desc := w })], dlvs := [⟨0, 0, 5, 9, 0, 2, 64, 0, false, false⟩] }) (working wclose))
         (.win 2 0 64 0 (some (List.replicate 64 7)) 0 5 9 0)
       winOpenFor s 0 0 2 0 64 = some { desc := w } ∧ winSpc w = 0 ∧ winBase w % 4096 = 0 ∧ (winBase w + 0 + 0) % 64 = 0
        ∧ winBase w + winLen w ≤ 0x180000 ∧ (s.cl 0).engTiles.contains 1 = true ∧ reservedBy s (spKey 0 0x1000) (2 ^ 30) 0 = false)
    ∧ (let s := message (working { rread with started := true }) (.rack 0 0 0 none 0)
       ((s.cl 0).disp.find? fun m => m.id = 0) = none ∧ (s.unit 0 5).find? (fun x => x.id = 0) = some { rread with started := true }) := by
  refine ⟨works tsend rfl rfl, ?_, ?_, ?_, ?_, ?_, works wopen rfl rfl, ?_, ⟨by decide, fun x h => ?tiles⟩, works wclose rfl rfl,
    works copyr rfl rfl, ?_, works copyr64 rfl rfl, ?_, ?_, works rread rfl rfl, rfl, ⟨?_, ?_, ?_, ?_, ?_, ?_, ?_⟩, ?_,
    ⟨?_, ?_, ?_, ?_, ?_, ?_, ?_⟩, ?_, ?_⟩
  case tiles =>
    show x ∈ List.range 16
    exact List.mem_range.mpr (by omega)
  all_goals first | decide +kernel | rfl


/-! ### KV blocks and storage -/

/-- A leaf of a page: every permission, key 0, physical page `pg`. -/
def leaf (pg : Nat) : Nat := 2 ^ 63 + 2 ^ 61 + 7 * 2 ^ 57 + pg * 4096

/-- The cache of holder `h` translates virtual page `e.1` of ASID 0 to physical page `e.2`. -/
def mapped (h : Nat) (l : List (Nat × Nat)) (s : State) : State :=
  { s with tlb := (h, l.map fun e => { asid := 0, level := 4, vpn := e.1, pte := leaf e.2 }) :: s.tlb }

/-- Sequence 1 of partition 0: the record of `sequence`, block 0 resident at 0x10000, and its pages. -/
def blocks (s : State) : State :=
  cl0 (fun c => { c with kbtb := [(0, 1, 0, 2 ^ 61 + 0x10000), (0, 1, 9, 2 ^ 61 + 0x10000), (0, 2, 0, 2 ^ 61)] })
    (mapped 768 [(0, 0x20), (1, 0x21), (0x10, 0x30)] (memWrite s (csmKey 64) sequence.toNat 40))

/-- A stream of `n` 64-byte elements at 0x1000 of the scratchpad. -/
def stream64 (n : Nat) : V512 := record [5 * 2 ^ 58 + 0x1000, 0, 0x1000100010000 + n, 64, 0, 0, 0, 0x1000100010000 + n]

def kvtab : Cmd := command (.kvtab (eword 0 1)) (some (vec sequence))
def kvgath (n : Nat) (t : List Nat := []) : Cmd :=
  { command (.kvgath (eword)) (some (sc (1 <<< 48))) one with pats := [stream64 n, stream64 n], aux := t }
def kvapp (n : Nat) (t : List Nat := []) : Cmd := { command (.kvapp (eword)) (some (sc (1 <<< 48))) one with pats := [stream64 n], aux := t }
/-- Access `j` of a command, done, with the value that it read. -/
def accDone (j : Nat) (v : Nat := 0) : EngAcc := { j := j, addr := 0, spc := 4, ps := [], todo := [], v := v }
/-- The next KVGATH or KVAPP step has read its 64 bytes, and with `also` has written them. -/
def kvgath1 (also : Bool) : Cmd :=
  { kvgath 256 [256] with accs := accDone (2 ^ 44 + 256) 7 :: if also then [accDone (2 ^ 40)] else [] }
def kvapp1 (also : Bool) : Cmd := { kvapp 64 [1] with accs := accDone 1 9 :: if also then [accDone (2 ^ 44 + 1)] else [] }
def kvinv (sub : BitVec 4) : Cmd := command (.kvinv (eword sub)) (some (sc (1 <<< 48))) one

/-- An engine access goes on. -/
def EngRes.good (r : EngRes) : Bool := match r with | .ok _ _ => true | _ => false

theorem pair_ok {α β : Type} {p : α × β} {a : α} (h : p.1 = a) : p = (a, p.2) := by subst h; rfl

theorem good_ok {r : EngRes} (h : EngRes.good r = true) : ∃ s v, r = .ok s v := by
  cases r with
  | ok s v => exact ⟨s, v, rfl⟩
  | wait s => simp [EngRes.good] at h
  | bad s f => simp [EngRes.good] at h

theorem test_kv_commands :
    done kvtab = [(true, none)] ∧ done (kvgath 4) (blocks (working (kvgath 4))) = [(false, some .patternMismatch)]
    ∧ done (kvgath 256 [512]) (blocks (working (kvgath 256 [512]))) = [(true, none)]
    ∧ done (kvapp 4) (blocks (working (kvapp 4))) = [(false, some .patternMismatch)]
    ∧ done (kvapp 64 [64]) (blocks (working (kvapp 64 [64]))) = [(true, none)]
    ∧ sends (kvinv 0) = [.kvinv 1 0 1 0 0 none] ∧ (sends (kvinv 1)).length = 192
    ∧ done { kvinv 0 with started := true, got := [(0, 0)] } = [(true, none)] := by decide +kernel

/-- The values begin at VOFF = 16 units of the record; both move 64 bytes between the block and the first element. -/
theorem test_kv_moves :
    (sends (kvgath 256 [256]) (blocks (working (kvgath 256 [256])))).map (fun b => match b with
        | .rreq r => (r.key, r.size, decide (r.ask = Ask.load))
        | _ => (none, 0, false)) = [(some (0x30000 + 1024), 64, true)]
    ∧ (match exec (kvgath1 false).instr (blocks (working (kvgath1 false))) with
      | .next t => memGet t (spKey 0 0x1000)
      | _ => 0) = 7
    ∧ (sends (kvapp1 false) (blocks (working (kvapp1 false)))).map (fun b => match b with
        | .rreq r => (r.key, r.size, decide (r.ask = Ask.store), r.b)
        | _ => (none, 0, false, 0)) = [(some (0x30000 + 64), 64, true, 9)] := by decide +kernel

theorem witness_KvCommandsR158 :
    (WorksOn (working kvtab) (atWork kvtab) kvtab .kvtab (.kvtab (eword 0 1)) (eword 0 1)
      ∧ reservedBy (working kvtab) (kvRecord (working kvtab) 0 1) (2 ^ 30) 0 = false ∧ kvtab.lvec.toNat < 2 ^ 320 ∧ kvtab.asid < 2 ^ 16)
    ∧ (let m := kvgath1 true
       let s := blocks (working m)
       WorksOn s (atWork m) m .kvgath (.kvgath (eword)) (eword)
        ∧ patN (m.pats.getD 0 0) * patEsz (m.pats.getD 0 0) = 64 * (16 * m.rv * kvField s m 48)
        ∧ patN (m.pats.getD 1 0) * patEsz (m.pats.getD 1 0) = 64 * (16 * m.rv * kvField s m 48)
        ∧ m.aux.getD 0 0 < 2 * (16 * m.rv * kvField s m 48)
        ∧ ∃ s1 v s2 x, s.kvChunk 0 (atWork m).u m 1 0 1024 (2 ^ 44 + 256) none = .ok s1 v
          ∧ s1.patPut 0 (atWork m).u m (m.pats.getD 1 0) 0 (natLE v 64) = .ok s2 x)
    ∧ (let m := kvgath 4
       let s := blocks (working m)
       patN (m.pats.getD 0 0) * patEsz (m.pats.getD 0 0) ≠ 64 * (16 * m.rv * kvField s m 48))
    ∧ (let m := kvapp1 true
       let s := blocks (working m)
       WorksOn s (atWork m) m .kvapp (.kvapp (eword)) (eword)
        ∧ patN (m.pats.getD 0 0) * patEsz (m.pats.getD 0 0) = m.rv * kvField s m 0 * 64 ∧ m.aux.getD 0 0 < m.rv * kvField s m 0
        ∧ ∃ s1 v bs s2 x, s.patChunk 0 (atWork m).u m (m.pats.getD 0 0) 1 = (.ok s1 v, bs)
          ∧ s1.kvChunk 0 (atWork m).u m 1 0 64 (2 ^ 44 + 1) (some (leNat bs)) = .ok s2 x)
    ∧ WorksOn (working (kvinv 0)) (atWork (kvinv 0)) (kvinv 0) .kvinv (.kvinv (eword 0)) (eword 0)
    ∧ (kvinv 0).started = false := by
  refine ⟨⟨works kvtab rfl rfl, ?_, ?_, ?_⟩, ⟨worksOn _ rfl rfl _ rfl rfl, ?_, ?_, ?_, ?gath⟩, ?_, ⟨worksOn _ rfl rfl _ rfl rfl, ?_, ?_, ?app⟩,
    works (kvinv 0) rfl rfl, rfl⟩
  case gath =>
    let m := kvgath1 true
    obtain ⟨s1, v, h1⟩ := good_ok (r := (blocks (working m)).kvChunk 0 (atWork m).u m 1 0 1024 (2 ^ 44 + 256) none) (by decide +kernel)
    have g : (match (blocks (working m)).kvChunk 0 (atWork m).u m 1 0 1024 (2 ^ 44 + 256) none with
      | .ok s v => EngRes.good (s.patPut 0 (atWork m).u m (m.pats.getD 1 0) 0 (natLE v 64))
      | _ => false) = true := by decide +kernel
    rw [h1] at g
    obtain ⟨s2, x, h2⟩ := good_ok g
    exact ⟨s1, v, s2, x, h1, h2⟩
  case app =>
    let m := kvapp1 true
    obtain ⟨s1, v, h1⟩ := good_ok (r := ((blocks (working m)).patChunk 0 (atWork m).u m (m.pats.getD 0 0) 1).1) (by decide +kernel)
    have g : (match ((blocks (working m)).patChunk 0 (atWork m).u m (m.pats.getD 0 0) 1).1 with
      | .ok s _ => EngRes.good (s.kvChunk 0 (atWork m).u m 1 0 64 (2 ^ 44 + 1)
        (some (leNat ((blocks (working m)).patChunk 0 (atWork m).u m (m.pats.getD 0 0) 1).2)))
      | _ => false) = true := by decide +kernel
    rw [h1] at g
    obtain ⟨s2, x, h2⟩ := good_ok g
    exact ⟨s1, v, ((blocks (working m)).patChunk 0 (atWork m).u m (m.pats.getD 0 0) 1).2, s2, x, pair_ok h1, h2⟩
  all_goals decide +kernel

def kvMessage : State :=
  { blocks (working kvtab) with inbox := [{ src := 0, dst := 0, cls := 3, body := .kvinv 1 0 4 0 7 none }] }

/-- R163: the entry of block 0 is in the range; those of block 9 and of sequence 2 stay. -/
theorem test_kbtb :
    (match exec (.kbtbInvalidateAck 0) kvMessage with
      | .next t => ((t.cl 0).kbtb.map fun e => (e.2.1, e.2.2.1), t.inbox.map (·.body))
      | _ => ([], [])) = ([(1, 9), (2, 0)], [.rack 0 7 0 none 0]) := by decide +kernel

theorem witness_KbtbDropsTheRangeR163 :
    kvMessage.inbox = [{ src := 0, dst := 0, cls := 3, body := .kvinv 1 0 4 0 7 none }] ∧ kvUsers kvMessage 0 0 1 0 4 = []
    ∧ kvUsers { (blocks (working { kvapp 64 with started := true })) with inbox := kvMessage.inbox } 0 0 1 0 4 = [(4096, 0)] := by
  refine ⟨?_, ?_, ?_⟩ <;> decide +kernel

/-- One load of block 2 of sequence 1; HEAD is `h` and TAIL 2 at the landing ring, frame 1 is 0x10000. -/
def loading (l : KvLoad) (h : Nat) : State :=
  { memWrite (memWrite (memWrite (memWrite (blocks (working kvtab)) 0x20040 h 8) 0x20048 2 8) 0x20080 0x10000 8) 0x21010 (4 * 2 ^ 61 + 77) 8 with
    now := 5000, kvl := [(1, l)] }

def ringed : KvLoad := { c := 0, part := 0, seq := 1, b := 2, old := 77 }
def landed : KvLoad := { ringed with st := .reading, frame := 0x10000 }

/-- R160: with HEAD at TAIL the load waits on; a load that has ended makes its entry resident, or NVMe as it was. -/
theorem test_kv_loads :
    (match exec (.landingRingRecheck 0) (loading ringed 2) with
      | .next t => t.kvl.map fun e => (e.2.st, e.2.since)
      | _ => []) = [(.ring, 5000)]
    ∧ (match exec (.landingRingRecheck 0) (loading ringed 1) with
      | .next t => (memRead t 0x20040 8, t.kvl.map fun e => e.2.frame)
      | _ => (0, [])) = (2, [0x10000])
    ∧ (match exec (.kvBlockLoadCompletion 0) (loading landed 2) with
      | .next t => (memRead t 0x21010 8, t.kvl.length)
      | _ => (0, 9)) = (2 ^ 61 + 0x10000, 0)
    ∧ (match exec (.kvBlockLoadCompletion 0) (loading { landed with fail := some (.nvmeError, 0) } 2) with
      | .next t => memRead t 0x21010 8
      | _ => 0) = 3 * 2 ^ 61 + 77 := by decide +kernel

theorem witness_KvLoadsEndR160 :
    (loading ringed 1).kvl = [(1, ringed)] ∧ ringed.st = .ring ∧ ringed.since + 1024 ≤ (loading ringed 1).now
    ∧ (∀ h, h = 1 ∨ h = 2 → xlate (loading ringed h) [tlbEng 3 0, tlbDie 0] 0 0 (kvWord (loading ringed h) 0 1 3 % 2 ^ 52) (permR ||| permW) = .here 0x20040 0
      ∧ badAt (loading ringed h) 0x20040 = false ∧ (readUnder (loading ringed h) 0x20040 8 (some 0)).2 = h
      ∧ (readUnder (loading ringed h) 0x20048 8 (some 0)).2 = 2)
    ∧ xlate (writeUnder (loading ringed 1) 0x20040 8 2 (some 0)) [tlbEng 3 0, tlbDie 0] 0 0 (0x40 + 64 + 8 * (1 % 1)) permR = .here 0x20080 0
    ∧ (loading landed 2).kvl = [(1, landed)] ∧ landed.st = .reading ∧ landed.todo = [] ∧ landed.out = 0 ∧ landed.fail = none
    ∧ kvEntAddr { loading landed 2 with kvl := Tab.del (loading landed 2).kvl 1 } landed = .here 0x21010 0
    ∧ (readUnder { loading landed 2 with kvl := Tab.del (loading landed 2).kvl 1 } 0x21010 8 (some 0)).2 = kvLoading landed.old := by
  refine ⟨rfl, rfl, by decide, fun h hh => ?_, ?_, rfl, rfl, rfl, rfl, rfl, ?_, ?_⟩
  · rcases hh with rfl | rfl <;> decide +kernel
  all_goals decide +kernel

/-- 1 logical block of namespace 1 to, or from, 0x10000 on queue pair 0. -/
def nvrd : Cmd := command (.nvrd (eword)) (some (sc (1 <<< 40))) (some (sc 0x10000)) one
def nvwr : Cmd := command (.nvwr (eword 2)) (some (sc (1 <<< 40))) (some (sc 0x10000)) one
def job : NvJob := { read := false, ns := 1, lba := 3, nlb := 1, pages := [(0x30000, 0, 512)] }
/-- Queue pair 0 has 3 entries and is in use. -/
def storage (s : State) : State := srSet (mapped 0 [(0x10, 0x30)] s) 0 0x102 (2 ^ 34 + 3)

theorem test_storage :
    (match exec nvrd.instr (storage (working { nvrd with started := true, jobs := [job], aux := [1, 0] })) with
      | .next t => (t.nv.map fun v => (v.cid, v.job.lba), (t.unit 0 (unitOf .nvrd (eword))).map (·.jobs))
      | _ => ([], [])) = ([(0, 3)], [[]])
    ∧ done { nvwr with started := true, aux := [1, 1] } = [(true, none)] ∧ done { nvwr with started := true, aux := [1, 0] } = [(false, none)] := by
  decide +kernel

/-- The transfer has pages. -/
def fine {α β : Type} (r : Except α β) : Bool := match r with | .ok _ => true | .error _ => false

theorem fine_ok {α β : Type} {r : Except α β} (h : fine r = true) : ∃ x, r = .ok x := by
  cases r with
  | ok x => exact ⟨x, rfl⟩
  | error e => simp [fine] at h

theorem witness_StorageCommandsR166 :
    (∀ m : Cmd, m = nvrd ∨ m = nvwr → WorksOn (storage (working m)) (atWork m) m m.op m.instr m.w ∧ m.started = false
      ∧ ∀ lbs : Bool, ∃ ps, nvPages (storage (working m)) 0 m (m.qv * if lbs then 4096 else 512) = .ok ps)
    ∧ (∀ lbs : Bool, nvPages (working nvrd) 0 nvrd (nvrd.qv * if lbs then 4096 else 512) = .error (.translation, 0))
    ∧ (let m := { nvrd with started := true, jobs := [job], aux := [1, 0] }
       WorksOn (storage (working m)) (atWork m) m .nvrd (.nvrd (eword)) (eword) ∧ nvRoom (storage (working m)) 0 = true
        ∧ nvRoom (working m) 0 = false) := by
  refine ⟨fun m hm => ?_, fun lbs => ?_, worksOn _ rfl rfl _ rfl rfl, ?_⟩
  · rcases hm with rfl | rfl <;> refine ⟨worksOn _ rfl rfl _ rfl rfl, rfl, fun lbs => ?_⟩ <;> cases lbs <;> exact fine_ok (by decide +kernel)
  · cases lbs <;> decide +kernel
  · decide +kernel

def outstanding : NvCmd := { qp := 0, cid := 4, owner := .cmd 0 0, job := job, start := 0 }
def waitsFor : State :=
  { storage (working { nvwr with started := true, aux := [1, 0] }) with nv := [outstanding], inputs := [.nvme 0 4 2 []], now := 2 ^ 40 }

theorem test_storage_ends :
    (match exec (.nvmeCompletion 0) waitsFor with
      | .next t => (t.nv.length, (t.unit 0 (unitOf .nvrd (eword))).map fun m => (m.aux, m.fail0.map fun f => (f.cause, f.aux)))
      | _ => (9, [])) = (0, [([1, 1], some (.nvmeError, 2 * 2 ^ 48 + 2 ^ 40 + 3))])
    ∧ (match exec (.nvmeTimeout 0) waitsFor with
      | .next t => (t.nv.map (·.late), (t.unit 0 (unitOf .nvrd (eword))).map fun m => m.fail0.map (·.cause))
      | _ => ([], [])) = ([true], [some .nvmeTimeout]) := by decide +kernel

theorem witness_StorageCompletionsR167 :
    waitsFor.nv = [outstanding] ∧ outstanding ∉ ([] : List NvCmd) ∧ waitsFor.inputs = [.nvme outstanding.qp outstanding.cid 2 []]
    ∧ job.read = false ∧ outstanding.late = false ∧ outstanding.owner = .cmd 0 0 ∧ waitsFor.kvl = []
    ∧ waitsFor.nvLimit outstanding = some (1024 * 0x17d784) ∧ outstanding.start + 1024 * 0x17d784 ≤ waitsFor.now
    ∧ (waitsFor.unit 0 (unitOf .nvrd (eword))).find? (fun x => x.id = 0) = some { nvwr with started := true, aux := [1, 0] } := by
  refine ⟨rfl, by simp, rfl, rfl, rfl, rfl, rfl, ?_, ?_, ?_⟩ <;> decide +kernel

/-! ### Copies and collectives -/

/-- Four 4-byte elements from 0x1000 to 0x2000 of the scratchpad. -/
def copy (aux : List Nat) (got : List (Nat × Nat)) : Cmd :=
  { command (.copy (eword)) with pats := [pattern4 0x1000, pattern4 0x2000], aux := aux, got := got }

theorem test_copy :
    (match exec (copy [1, 1] []).instr (memWrite (working (copy [1, 1] [])) (spKey 0 0x1004) 77 4) with
      | .next t => (t.unit 0 1).map fun m => (m.aux, m.got)
      | _ => []) = [([2, 1], [(1, 77)])]
    ∧ (match exec (copy [1, 0] []).instr (working (copy [1, 0] []) 1) with
      | .next t => (t.unit 0 1).map fun m => (m.aux, m.got)
      | _ => []) = [([2, 0, 1], [])]
    ∧ (match exec (copy [4, 3] [(3, 77)]).instr (working (copy [4, 3] [(3, 77)])) with
      | .next t => (memRead t (spKey 0 0x200c) 4, (t.unit 0 1).map (·.finished))
      | _ => (0, [])) = (77, [true]) := by decide +kernel

theorem witness_CopyMovesElementsR151 :
    (let m := copy [1, 1] []
     let s := working m
     WorksOn s (atWork m) m .copy (.copy (eword)) (eword) ∧ m.copyStep (patN (m.pats.getD 0 0)) 0 = some (.read 1)
      ∧ m.copyStep (patN (m.pats.getD 0 0)) 1 = some .pass ∧ ∃ s1 v, s.readElem 0 1 m (m.pats.getD 0 0) 0 1 2 = .ok s1 v)
    ∧ (let m := copy [4, 3] [(3, 77)]
       let s := working m
       WorksOn s (atWork m) m .copy (.copy (eword)) (eword) ∧ m.copyStep (patN (m.pats.getD 0 0)) 0 = some (.write 3 77)
        ∧ ∃ s1 v, s.writeElem 0 1 m (m.pats.getD 1 0) 0 3 7 77 = .ok s1 v)
    ∧ (let m := copy [4, 4] []
       WorksOn (working m) (atWork m) m .copy (.copy (eword)) (eword) ∧ patN (m.pats.getD 0 0) ≤ m.aux.getD 1 0) := by
  refine ⟨⟨worksOn _ rfl rfl _ rfl rfl, ?_, ?_, good_ok ?_⟩, ⟨worksOn _ rfl rfl _ rfl rfl, ?_, good_ok ?_⟩,
    worksOn _ rfl rfl _ rfl rfl, ?_⟩ <;> decide +kernel

/-- R149: BASE plus each index times its stride; out of bounds at the bound. -/
theorem test_pattern_elements :
    patElem (record [2 * 2 ^ 58 + 0x1000, 0, 0x1000100030004, 4, 0x100, 0, 0, 0x1000100030002]) 0 5 = some 0x1104
    ∧ patElem (record [2 * 2 ^ 58 + 0x1000, 0, 0x1000100030004, 4, 0x100, 0, 0, 0x1000100030002]) 0 6 = none
    ∧ patElem (record [2 * 2 ^ 58 + 0x1000, 0, 0x1000100030004, 4, 0x100, 0, 0, 0x1000100030002]) (-0x1000) 0 = some 0 := by
  decide +kernel

def ended (m : Cmd) : Cmd := { m with finished := true, tiles := [3], instr := .copy { eword with sbs := some 2 } }

/-- A copy that has finished, before one that has not. -/
def finishing : State :=
  (working (copy [] [])).modCl 0 fun c => { c with units := [(1, [{ ended (copy [] []) with id := 1 }, { copy [] [] with id := 2 }])], engTiles := [2, 3] }

theorem test_completion :
    (match exec (.engineCompletion 0 1) finishing with
      | .next t => ((t.unit 0 1).map (·.id), (t.cl 0).engTiles)
      | _ => ([], [])) = ([2], [2, 3])
    ∧ exec (.engineCompletion 0 1) (working (copy [] [])) = .next (working (copy [] [])) := by
  refine ⟨?_, rfl⟩
  decide +kernel

theorem witness_CommandsSignalInOrderR146 :
    (finishing.unit 0 1 = [{ ended (copy [] []) with id := 1 }, { copy [] [] with id := 2 }] ∧ (ended (copy [] [])).aside = false
      ∧ (ended (copy [] [])).finished = true ∧ 1 ∉ [{ copy [] [] with id := 2 }].map fun m : Cmd => m.id)
    ∧ (let s := finishing.modCl 0 fun c => { c with units := [(9, [{ copy [] [] with id := 1 }, { ended (copy [] []) with id := 2 }])] }
       s.unit 0 9 = [{ copy [] [] with id := 1 }] ++ { ended (copy [] []) with id := 2 } :: [] ∧ (copy [] []).finished = false) := by
  refine ⟨⟨rfl, rfl, rfl, by decide⟩, rfl, rfl⟩

/-- A collective over group 1, whose members are clusters 0 and 5; cluster 5's command has joined too. -/
def coll (ins : Instr) (aux : List Nat) (buf : List Byte) (started : Bool := true) : Cmd :=
  { command ins one with pats := [pattern4 0x1000, pattern4 0x2000], aux := aux, buf := buf, started := started }

def fromFive (m : Cmd) (bs : Option (List Byte)) : Parcel :=
  { src := 5, dst := 0, cls := 0
    body := .coll m.collKey m.grp m.episode 5 5 0 m.collShape.1 m.collShape.2.1 m.collShape.2.2 bs }

def joined (m : Cmd) : State :=
  { working m with inbox := [fromFive m (some [9, 0, 0, 0])], clusters := (5, { ((working m).cl 5) with units := [(6, [{ m with aux := [m.stage, 0, 0], buf := [9, 0, 0, 0] }])] }) :: (working m).clusters }

def cred (a : List Nat) (b : List Byte) (st : Bool := true) : Cmd := coll (.cred (eword 3 0x10)) a b st
def cbcast (a : List Nat) (b : List Byte) (st : Bool := true) : Cmd := coll (.cbcast (eword 0 0x10)) a b st
def cgath (a : List Nat) (b : List Byte) (st : Bool := true) : Cmd := coll (.cgath (eword 0 0x10)) a b st

theorem test_collectives :
    (match exec (cred [2, 4, 0] [7, 0, 0, 0]).instr (joined (cred [2, 4, 0] [7, 0, 0, 0])) with
      | .next t => (t.unit 0 6).map (·.buf)
      | _ => []) = [[16, 0, 0, 0]]
    ∧ (match exec (cbcast [2, 4, 0] [7]).instr (joined (cbcast [2, 4, 0] [7])) with
      | .next t => (t.unit 0 6).map (·.buf)
      | _ => []) = [[9, 0, 0, 0]]
    ∧ (match exec (cgath [2, 4, 0] [7]).instr (joined (cgath [2, 4, 0] [7])) with
      | .next t => (t.unit 0 6).map (·.buf)
      | _ => []) = [[7, 9, 0, 0, 0]]
    ∧ done (cbcast [3, 4, 0] []) = [(true, none)]
    ∧ done { cbcast [] [] false with l := some (sc 2) } = [(false, some .collectiveMismatch)] := by decide +kernel

theorem witness_CollectivesR180 :
    (∀ ins : Instr, ins = .cred (eword 3 0x10) ∨ ins = .cbcast (eword 0 0x10) ∨ ins = .cgath (eword 0 0x10) →
      let m := coll ins [] [] false
      let s := working m
      WorksOn s (atWork m) m m.op ins m.w ∧ m.cg = false ∧ 0 ∈ s.collMembers m ∧ m.lv < (s.collMembers m).length
        ∧ s.collBad.contains (m.kernel, m.grp, Tab.get 0 (s.cl 0).collCount m.grp) = false)
    ∧ (let m := cred [1, 2, 0] []
       let s := working m
       WorksOn s (atWork m) m .cred (.cred (eword 3 0x10)) (eword 3 0x10) ∧ m.stage = 1 ∧ 2 < patN (m.pats.getD 0 0)
        ∧ ∃ s1 v, s.readElem 0 6 m (m.pats.getD 0 0) 0 2 2 = .ok s1 v)
    ∧ (let m := cred [2, 4, 0] [7, 0, 0, 0]
       let s := joined m
       m.stage = 2 ∧ (s.collMembers m) = [0, 5] ∧ [0, 5].Nodup ∧ (∀ d, d ∈ [0, 5] → (s.collStream 0 m d).isSome = true) ∧ State.collStream (working m) 0 m 5 = none
        ∧ WorksOn s (atWork m) m .cred (.cred (eword 3 0x10)) (eword 3 0x10))
    ∧ (let m := cred [3, 2, 0] [7, 0, 0, 0]
       let s := working m
       3 ≤ m.stage ∧ 2 < patN (m.pats.getD 1 0) ∧ ∃ s1 v, s.writeElem 0 6 m (m.pats.getD 1 0) 0 2 (2 ^ 40 + 2) 7 = .ok s1 v) := by
  refine ⟨fun ins h => ?_, ⟨works (cred [1, 2, 0] []) rfl rfl, rfl, ?_, good_ok ?_⟩, ⟨rfl, ?_, ?_, ?_, ?_, worksOn _ rfl rfl _ rfl rfl⟩, ?_, ?_,
    good_ok ?_⟩
  · rcases h with rfl | rfl | rfl <;> refine ⟨worksOn _ rfl rfl _ rfl rfl, ?_⟩ <;> decide +kernel
  all_goals decide +kernel

theorem test_episode :
    (match exec (.collectiveEpisode 0) (joined (cred [0, 0, 0] [])) with
      | .next t => (t.unit 0 6).map (·.aux) ++ (t.unit 5 6).map (·.aux)
      | _ => []) = [[1, 0, 0], [1, 0, 0]] := by decide +kernel

theorem witness_CollectiveEpisodesStartR179 :
    ((joined (cred [0, 0, 0] [])).unit 0 6).find? (fun x => x.started && x.stage = 0 && x.fail.isNone) = some (cred [0, 0, 0] [])
    ∧ (cred [0, 0, 0] []).cg = false ∧ (joined (cred [0, 0, 0] [])).collMembers (cred [0, 0, 0] []) = [0, 5]
    ∧ (∀ d, d ∈ [0, 5] → ((joined (cred [0, 0, 0] [])).collCmd d (cred [0, 0, 0] [])).isSome = true)
    ∧ (working (cred [0, 0, 0] [])).collCmd 5 (cred [0, 0, 0] []) = none := by
  refine ⟨rfl, rfl, ?_, ?_, ?_⟩ <;> decide +kernel

/-! ### The matrix array and the key-match stores -/

/-- R235: one product in the first row of K: 5 times 3 and a working value of 10; 2.0 times 1.0 and a working value of 1.0. -/
theorem test_array_entries :
    (arrEntry { valid := true, fmt := 4, w := [2, 3] } 4 .int [5] [] 1 10).1 = 25
    ∧ (arrEntry { valid := true, fmt := 0, w := [0, 0x3c] } 0 .plain [0x4000] [] 0 0x3f800000).1 = 0x40400000 := by decide +kernel

/-- An active set of integers and a valid shadow set. -/
def arrayed (s : State) : State := s.modArr 0 fun a => { a with act := { valid := true, fmt := 4 }, shad := { valid := true, fmt := 2 } }

def wload (aux : List Nat := []) (st : Bool := false) : Cmd :=
  { command (.wload (eword)) (some (sc 0)) (some (sc 0)) with aux := aux, started := st }
def wswap : Cmd := command (.wswap (eword)) one
def mma (aux : List Nat := []) (st : Bool := false) : Cmd :=
  { command (.mma (eword 0 0x400)) one with pats := [stream64 256], aux := aux, started := st, acc := [7] }
def mrecur : Cmd := { command (.mrecur (eword 0 0)) one with pats := [stream64 8] }
def macc (st : Bool) : Cmd := { command (.macc (eword 0 0x4000)) one with pats := [stream64 1024], aux := if st then [1, 0, 0, 3] else [], started := st }
def mzero : Cmd := command (.mzero (eword 0 0x1000)) one
def mstat : Cmd := command (.mstat (eword 1 0 (.queue 2))) one

theorem test_array :
    (match exec (wload [512, 0, 0] true).instr (working (wload [512, 0, 0] true)) with
      | .next t => ((t.cl 0).array.shad.valid, (t.cl 0).array.act.valid)
      | _ => (false, true)) = (true, false)
    ∧ done wswap = [(false, some .arrayFormat)]
    ∧ (match exec wswap.instr (arrayed (working wswap)) with
      | .next t => ((t.cl 0).array.act.fmt, (t.cl 0).array.shad.fmt)
      | _ => (0, 0)) = (2, 4)
    ∧ done (mma) = [(false, some .arrayFormat)]
    ∧ (match exec (.matrixTileCommit 0) (working (mma [2, 0, 0, 3] true)) with
      | .next t => ((t.cl 0).array.count, (t.cl 0).array.flags, (t.cl 0).array.acc0, (t.unit 0 7).map (·.finished))
      | _ => (0, 0, [], [])) = (1, 3, [(0, 7)], [true]) := by decide +kernel

theorem test_array_readout :
    done (macc true) = [(true, none)]
    ∧ (match exec mzero.instr ((working mzero).modArr 0 fun a => { a with acc0 := [(1, 1)], acc1 := [(1, 1)] }) with
      | .next t => ((t.cl 0).array.acc0, (t.cl 0).array.acc1)
      | _ => ([], [])) = ([(1, 1)], [])
    ∧ (match exec mstat.instr ((arrayed (working mstat)).modArr 0 fun a => { a with flags := 3, count := 6 }) with
      | .next t => ((t.nd 0).outq.filterMap fun k => k.o.map (·.val), (t.cl 0).array.flags)
      | _ => ([], 9)) = ([.sc 0x0000000600000e54], 0) := by decide +kernel

theorem triple_ok {α β γ : Type} {p : α × β × γ} {a : α} (h : p.1 = a) : p = (a, p.2.1, p.2.2) := by subst h; rfl

theorem witness_WeightSetsLoadAndSwapR244 :
    (WorksOn (working (wload)) (atWork (wload)) (wload) .wload (.wload (eword)) (eword)
      ∧ (∀ x, x ∈ (working (wload)).unit 0 7 → x.op = .wswap → x.id < (wload).id → x.finished = true) ∧ (wload).sub % 2 = 0
      ∧ (0 : Nat) + sideLen 0 0 ≤ 0x400000)
    ∧ (let m := wload [3, 0, 0] true
       WorksOn (working m) (atWork m) m .wload (.wload (eword)) (eword) ∧ 32 * 3 < 16384 + sideLen 0 0
        ∧ badAt (working m) (wsKey 0 96) = false ∧ badAt (working m) (wsKey 0 127) = false)
    ∧ (let m := wload [512, 0, 0] true
       WorksOn (working m) (atWork m) m .wload (.wload (eword)) (eword) ∧ 16384 + sideLen 0 0 ≤ 32 * 512)
    ∧ WorksOn (working wswap) (atWork wswap) wswap .wswap (.wswap (eword)) (eword)
    ∧ WorksOn (arrayed (working wswap)) (atWork wswap) wswap .wswap (.wswap (eword)) (eword)
    ∧ ((arrayed (working wswap)).cl 0).array.shad.valid = true ∧ ((working wswap).cl 0).array.shad.valid = false
    ∧ (∀ x, x ∈ (working wswap).unit 0 8 → x.id < wswap.id → x.finished = true) := by
  refine ⟨⟨works (wload) rfl rfl, ?_, ?_, ?_⟩, ⟨works (wload [3, 0, 0] true) rfl rfl, ?_, ?_, ?_⟩, ⟨works (wload [512, 0, 0] true) rfl rfl, ?_⟩,
    works wswap rfl rfl, worksOn _ rfl rfl _ rfl rfl, rfl, rfl, ?_⟩
  all_goals decide +kernel

/-- Row 5 of the tile is read, as elements 10 and 11 of its pattern. -/
def rowRead : Cmd := { mma [0, 0, 5, 0] true with accs := [accDone 10 3, accDone 11 4] }

theorem witness_TilesRunInOrderR239 :
    (let s := arrayed (working (mma))
     WorksOn s (atWork (mma)) (mma) .mma (.mma (eword 0 0x400)) (eword 0 0x400) ∧ (mma).started = false ∧ arrCheck s 0 (mma) = none
      ∧ ((working (mma)).cl 0).array.act.valid = false)
    ∧ (let s := (working mrecur).modArr 0 fun a => { a with act := { valid := true, fmt := 2 } }
       WorksOn s (atWork mrecur) mrecur .mrecur (.mrecur (eword 0 0)) (eword 0 0) ∧ arrCheck s 0 mrecur = none)
    ∧ (let m := rowRead
       let s := arrayed (working m)
       WorksOn s (atWork m) m .mma (.mma (eword 0 0x400)) (eword 0 0x400) ∧ m.aux = [0, 0, 5, 0] ++ [] ∧ 5 < mtOf (s.cl 0).array.act.fmt
        ∧ m.afmt < 5 ∧ ∃ s1 v bs out, s.arrRead 0 7 m (m.pats.getD 0 0) 0 ((0 * mtOf (s.cl 0).array.act.fmt + 5) * rbOf m.afmt) (rbOf m.afmt)
          = (.ok s1 v, bs, out))
    ∧ (let m := mma [0, 0, 128, 0] true
       m.aux = [0, 0, 128, 0] ++ [] ∧ mtOf ((arrayed (working m)).cl 0).array.act.fmt ≤ 128)
    ∧ (mma [1, 0, 0, 0] true).outMode = 0
    ∧ (let m := mma [2, 0, 0, 3] true
       (working m).unit 0 7 = [m] ∧ AllOut (mma [1, 0, 0, 0] true) ∧ ((arrayed (working m)).cl 0).array.act.err = false ∧ m.started = true ∧ m.finished = false ∧ m.op = .mma ∧ m.aux = [2, 0, 0, 3] ++ []) := by
  refine ⟨⟨worksOn _ rfl rfl _ rfl rfl, rfl, ?_, rfl⟩, ⟨worksOn _ rfl rfl _ rfl rfl, ?_⟩, ⟨worksOn _ rfl rfl _ rfl rfl, rfl, ?_, ?_, ?rd⟩, ?_, ?_,
    ⟨rfl, .inl rfl, rfl, rfl, rfl, rfl, rfl⟩⟩
  case rd =>
    let m := rowRead
    obtain ⟨s1, v, h⟩ := good_ok (r := ((arrayed (working m)).arrRead 0 7 m (m.pats.getD 0 0) 0
      ((0 * mtOf ((arrayed (working m)).cl 0).array.act.fmt + 5) * rbOf m.afmt) (rbOf m.afmt)).1) (by decide +kernel)
    exact ⟨s1, v, _, _, triple_ok h⟩
  all_goals decide +kernel

theorem witness_ArrayReadOutR248 :
    (WorksOn (working (macc false)) (atWork (macc false)) (macc false) .macc (.macc (eword 0 0x4000)) (eword 0 0x4000) ∧ (macc false).outMode = 1
      ∧ patN (macc false).outPat * patEsz (macc false).outPat = 16384 * (macc false).ob)
    ∧ WorksOn (working (macc true)) (atWork (macc true)) (macc true) .macc (.macc (eword 0 0x4000)) (eword 0 0x4000)
    ∧ WorksOn (working mzero) (atWork mzero) mzero .mzero (.mzero (eword 0 0x1000)) (eword 0 0x1000)
    ∧ WorksOn (working mstat) (atWork mstat) mstat .mstat (.mstat (eword 1 0 (.queue 2))) (eword 1 0 (.queue 2))
    ∧ ((working mstat).nd 0).queueRoom 2 = true ∧ ((working mstat).nd 0).wires.find? (fun x => x.q = 2) = none := by
  refine ⟨⟨works (macc false) rfl rfl, ?_, ?_⟩, works (macc true) rfl rfl, works mzero rfl rfl, works mstat rfl rfl, ?_, ?_⟩ <;> decide +kernel

/-- A store of one BF16 element a key and a value, top 1; and a binding of one key at position 7, whose value is at 0x1000. -/
def store1 : V512 := record [2 ^ 32 + 2 ^ 24 + 2 ^ 16, 0x3f800000, 2]
def binding1 : V512 := record [2 ^ 32, 7, 0x1000]

def kcfg : Cmd := command (.kcfg (eword)) (some (vec store1))
def kbias : Cmd := command (.kbias (eword 0 0x10)) (some (vec 5))
def kmask : Cmd := command (.kmask (eword)) (some (sc 0x2000))
def kbind : Cmd := command (.kbind (eword)) (some (vec binding1))
def kunbind : Cmd := command (.kunbind (eword)) (some (sc 3))
def klife : Cmd := command (.klife (eword 0 2)) (some (sc 0)) one
def kqry (sub : BitVec 4 := 0) : Cmd := command (.kqry (eword sub 1 (.queue 2))) (some (sc 0x2000)) (some (sc (31 <<< 36)))
def kstat : Cmd := command (.kstat (eword 0 0 (.queue 2))) one

/-- The store is configured, with the binding in slot 0. -/
def stored (s : State) : State := s.modKms 0 0 fun k => { k with cfg := store1, slots := [(0, { bindOf binding1 with tiles := [1] })] }

/-- The command arrives at store 0 of cluster 0. -/
def atStore (m : Cmd) (s : State := stored (working m)) (t : Option KScore := none) : State :=
  { s with inbox := [{ src := 0, dst := 0, cls := 0, body := .kms 0 0 0 m none store1 t }] }

/-- What the store is then, and whether its unit counts a failure. -/
def storeAfter (m : Cmd) (s : State := atStore m) : Kms × List (Option Cause) :=
  match exec (.kmsCommandArrival 0) s with
  | .next t => (t.kms 0 0, (t.unit 0 10).map fun x => x.fail0.map (·.cause))
  | _ => ({}, [])

theorem test_stores :
    ((storeAfter kcfg).1.slots, (storeAfter kcfg).1.cfg) = ([], store1)
    ∧ (storeAfter kbias).1.bias = [(16, 5)]
    ∧ (storeAfter kmask).2 = [none] ∧ ((storeAfter kbind).1.slots.map (·.1), (storeAfter kbind).2) = ([0], [none])
    ∧ ((storeAfter kunbind).1.slots.length, (storeAfter klife).1.slots.map fun e => e.2.life) = (1, [2])
    ∧ (storeAfter kbind (atStore kbind (working kbind))).2 = [some .storeState]
    ∧ (storeAfter { kunbind with l := some (sc 0) }).1.slots = []
    ∧ (storeAfter kstat).1.outs.map (fun o => o.toks.map (·.2.val)) = [[.sc 0x10001]] := by decide +kernel

/-- The query has read its row of 1.0, its only key, 2.0, and with `sel` the value 5.0. -/
def scored (sel : Bool) : KScore :=
  { rd := [(spKey 0 0x2000, 0x3f80), (wsKey 0 0, 0x4000)] ++ (if sel then [(spKey 0 0x1000, 0x40a0)] else []), sel := if sel then some [0] else none }

/-- R259, R263, R264: the only key is selected with weight 1, so the result is its value, 5.0. -/
theorem test_query :
    ((storeAfter (kqry) (atStore (kqry) (stored (working (kqry))) (some (scored true)))).1.outs.map fun o => o.toks.map (·.2.val))
      = [[.vec 0x40a00000]]
    ∧ (match exec (.kmsCommandArrival 0) (atStore (kqry) (stored (working (kqry))) (some (scored false))) with
      | .next u => u.inbox.map (·.body)
      | _ => []) = [.kms 0 0 0 (kqry) none store1 (some { scored false with sel := some [0] })]
    ∧ [3, 8, 9, 10, 511, 512].map bucketOf = [3, 8, 8, 9, 31, 31] := by decide +kernel

theorem witness_KeyMatchCommandsAreSentR271 :
    (∀ m : Cmd, m ∈ [kcfg, kbias, kmask, kbind, kunbind, klife, kqry, kstat] →
      WorksOn (working m) (atWork m) m m.op m.instr m.w ∧ m.started = false ∧ m.kgrp = false ∧ (working m).kmsTo 0 m = [0])
    ∧ (let m := kqry 1
       let s := stored (working m)
       WorksOn s (atWork m) m .kqry (.kqry (eword 1 1 (.queue 2))) (eword 1 1 (.queue 2)) ∧ m.kgrp = true ∧ s.kmsTo 0 m = [0, 5]
        ∧ (∀ x, x ∈ s.unit 0 10 → x.op = .kcfg → x.id < m.id → x.finished = true) ∧ cfgDim (cfgAhead s 0 0) ≠ 0
        ∧ m.lv % 2 ^ 21 + 2 * cfgDim (s.kms 0 0).cfg ≤ 0x180000 ∧ (∀ tile, tile ∈ rangeTiles (m.lv % 2 ^ 21) 2 → tile ∈ (s.cl 0).engTiles)
        ∧ spBad s 0 (m.lv % 2 ^ 21) 2 = false) := by
  refine ⟨fun m hm => ?_, worksOn _ rfl rfl _ rfl rfl, ?_, ?_, ?_, ?_, ?_, ?_, ?_⟩
  · simp only [List.mem_cons, List.not_mem_nil, or_false] at hm
    rcases hm with rfl | rfl | rfl | rfl | rfl | rfl | rfl | rfl <;> refine ⟨worksOn _ rfl rfl _ rfl rfl, rfl, ?_, ?_⟩ <;> decide +kernel
  all_goals decide +kernel

theorem witness_StoresTakeCommandsR273 :
    (atStore kcfg).inbox = [{ src := 0, dst := 0, cls := 0, body := .kms 0 0 0 kcfg none store1 none }] ∧ cfgDim ((atStore kcfg).kms 0 0).cfg ≠ 0
    ∧ cfgDim ((atStore kbind (working kbind)).kms 0 0).cfg = 0
    ∧ (let b := bindOf kbind.lvec
       b.nk ≤ keysPerTile store1 ∧ b.vbase + b.span store1 ≤ 0x180000 ∧ ∀ x, x ∈ b.tilesOf store1 → x ∈ ((atStore kbind).cl 0).engTiles)
    ∧ (Tab.find ((atStore klife).kms 0 0).slots (klife.lv % 64)).isSome = true
    ∧ (kmask.lv / 2 ^ 21 = 0 ∧ kmask.lv % 64 = 0 ∧ kmask.lv + 64 ≤ 0x180000 ∧ maskN (memBytes (atStore kmask) (spKey 0 kmask.lv) 64) = 0
      ∧ (∀ x, x ∈ rangeTiles kmask.lv 64 → x ∈ ((atStore kmask).cl 0).engTiles) ∧ spBad (atStore kmask) 0 kmask.lv 64 = false
      ∧ maskBad (memBytes (atStore kmask) (spKey 0 kmask.lv) 64) = false)
    ∧ (queryBad (atStore (kqry)) 0 ((atStore (kqry)).kms 0 0) (kqry) none = none ∧ (kqry).kgrp = false
      ∧ (kqry).fctl / 2 ^ 9 % 2 = 0
      ∧ (atStore (kqry)).kmsBusy 0 0 = false ∧ (atStore (kqry)).kmsAlike 0 0 (kqry) store1 = true
      ∧ (keyPieces 0 ((atStore (kqry)).kms 0 0) (kqry) none).map (·.1) = [spKey 0 0x2000, wsKey 0 0]
      ∧ (valPieces 0 ((atStore (kqry)).kms 0 0) [0]).map (·.1) = [spKey 0 0x1000]
      ∧ (scoreQuery (scored true).at_ 0 ((atStore (kqry)).kms 0 0) (queryOf 0 ((atStore (kqry)).kms 0 0) (kqry) none (scored true))).sel.map
          (·.1.i) = [0]
      ∧ badAt (atStore (kqry)) (spKey 0 0x1000) = false) := by
  refine ⟨rfl, ?_, ?_, ⟨?_, ?_, ?_⟩, ?_, ⟨?_, ?_, ?_, ?_, ?_, ?_, ?_⟩, ?_, ?_, ?_, ?_, ?_, ?_, ?_, ?_, ?_⟩ <;> decide +kernel

/-! ### Tasks, messages and names -/

def changed (f : State → State) (m : Cmd) : State := f (working m)

/-- Queue 0 is partition 0's, enabled, of 4 records at 0x10000. -/
def queued (s : State) : State := mapped 2048 [(0x10, 0x30)] (srSet (srSet s 0 (lqReg 0 1) (2 ^ 63 + 3)) 0 (lqReg 0 0) 0x10000)

/-- Names of partition 0: 5 is object 1 (with no holder), 6 the handler of node 1. -/
def obj1 : Obj := { ws := false, cl := 0, base := 0x4000, size := 128, layout := 17, wr := false, fmt := 2, sv := false, scl := 0, sem := 0, flva := 0,
                    part := 0, asid := 0, opens := 1 }
def named (s : State) : State :=
  { s with dir := { names := [(5, .obj 1), (6, .handler 1 1 70)], objs := [(1, obj1)], handles := [(0, (1, false))] } }

def launch : Cmd := command (.launch (eword)) (some (vec 9))
def garm (j : W64) : Cmd := command (.garm (eword)) (some (sc j)) many
def spawn : Cmd := { command (.spawn (eword)) one one with started := true }
def tret : Cmd := command (.tret (eword)) one
def hreg (n : W64) : Cmd := command (.hreg (eword)) (some (sc n)) (some (sc (70 * 2 ^ 11 + 1)))
def unreg (n : W64) : Cmd := command (.hregUnreg (eword)) (some (sc n))
def msend (aux : List Nat := []) (got : List (Nat × Nat) := []) : Cmd :=
  { command (.msend (eword)) (some (sc 7)) one with aux := aux, started := !aux.isEmpty, got := got }
def msendTrig : Cmd := command (.msendTrig (eword)) (some (sc 6)) one
def mrecv (acc : List Nat := []) : Cmd := { command (.mrecv (eword 0)) (some (sc 7)) with acc := acc, started := !acc.isEmpty }
def mprobe (acc : List Nat := []) : Cmd := { command (.mprobe (eword 0)) (some (sc 7)) with acc := acc, started := !acc.isEmpty }

theorem test_tasks :
    (working launch).issueCheck launch = some .permission ∧ (queued (working launch)).issueCheck launch = none ∧ done launch (queued (working launch)) = [(true, none)]
    ∧ (match exec launch.instr (queued (working launch)) with
      | .next t => (lqTail t 0, memRead t 0x30000 64)
      | _ => (0, 0)) = (1, 9)
    ∧ done (garm 5) = [(false, some .badSection)] ∧ done (garm 0) = [(false, none)] ∧ done tret = [(true, none)] ∧ done spawn = [(false, none)]
    ∧ done (hreg 5) (named (working (hreg 5))) = [(false, some .nameBound)]
    ∧ (match exec (hreg 8).instr (named (working (hreg 8))) with
      | .next t => t.nameOf 8
      | _ => none) = some (.handler 1 1 70)
    ∧ (done (unreg 6) (named (working (unreg 6))), done (unreg 5) (named (working (unreg 5))), done (unreg 9) (named (working (unreg 9))))
      = ([(true, none)], [(false, some .nameKind)], [(false, some .nameUnbound)]) := by decide +kernel

theorem witness_TaskCommandsR308 :
    (let s := queued (working launch)
     WorksOn s (atWork launch) launch .launch (.launch (eword)) (eword) ∧ launch.started = false ∧ lqEn s 0 = true ∧ lqPart s 0 = launch.part
      ∧ (wordOf launch.lvec 3).toNat / 2 ^ 20 % 64 = launch.part ∧ (lqTail s 0 + 2 ^ 32 - lqDone s 0) % 2 ^ 32 < lqEnt s 0 + 1
      ∧ sysLoc s 0 (lqAsid s 0) (lqRec s 0 0) permW = .ok (0x30000, 0) ∧ lqEn (working launch) 0 = false)
    ∧ (let s := working (garm 0)
       WorksOn s (atWork (garm 0)) (garm 0) .garm (.garm (eword)) (eword) ∧ (s.nd 0).kernel = some 1 ∧ s.kern 1 = some kernel1
        ∧ (kernel1.sec 0).st = .armed ∧ kernel1.secs.length ≤ (garm 5).lv % 64)
    ∧ WorksOn (working spawn) (atWork spawn) spawn .spawn (.spawn (eword)) (eword)
    ∧ WorksOn (working tret) (atWork tret) tret .tret (.tret (eword)) (eword)
    ∧ (let s := named (working (hreg 8))
       WorksOn s (atWork (hreg 8)) (hreg 8) .hreg (.hreg (eword)) (eword) ∧ (s.callableNum 0 1).isSome = true ∧ s.nameOf (nameKey 0 8) = none
        ∧ s.waiters (nameKey 0 8) = 0 ∧ s.nameOf (nameKey 0 5) = some (.obj 1) ∧ s.nameOf (nameKey 0 6) = some (.handler 1 1 70))
    ∧ WorksOn (named (working (unreg 6))) (atWork (unreg 6)) (unreg 6) .hregUnreg (.hregUnreg (eword)) (eword) := by
  refine ⟨⟨worksOn _ rfl rfl _ rfl rfl, rfl, ?_, ?_, ?_, ?_, ?_, ?_⟩, ⟨worksOn _ rfl rfl _ rfl rfl, ?_, rfl, rfl, ?_⟩, works spawn rfl rfl,
    works tret rfl rfl, ⟨worksOn _ rfl rfl _ rfl rfl, ?_, ?_, ?_, ?_, ?_⟩, worksOn _ rfl rfl _ rfl rfl⟩
  all_goals decide +kernel

/-- A message waits in the overflow queue for node 0 from node 0, with tag 7. -/
def overflowed (s : State) : State := cl0 (fun c => { c with overflow := [{ pl := 0, src := 0, tag := 7, o := sc 4 }] }) s

theorem test_messages :
    sends (msend) = [.mesg 0 7 0 0 0 0 (sc 1)]
    ∧ done { msend with l := some (sc (9 <<< 44)) } = [(false, some .permission)]
    ∧ done (msend [2] [(0, 0)]) = [(true, none)]
    ∧ (match exec (msend [2] [(2 ^ 21, 0)]).instr { working (msend [2] [(2 ^ 21, 0)]) with now := 30 } with
      | .next t => (t.unit 0 9).map (·.aux)
      | _ => []) = [[1, 30]]
    ∧ (sends msendTrig).length = 1
    ∧ (match exec (mrecv).instr (overflowed (working (mrecv))) with
      | .next t => ((t.cl 0).overflow.length, (t.unit 0 9).map fun m => (m.acc, m.r.map (·.val)))
      | _ => (9, [])) = (0, [([1], some (.sc 4))])
    ∧ (match exec (mrecv).instr (working (mrecv)) with
      | .next t => (t.cl 0).recvs.map fun r => (r.src, r.tag)
      | _ => []) = [(some 0, some 7)]
    ∧ done (mrecv [1]) = [(true, none)] := by decide +kernel

theorem test_probe :
    (match exec (mprobe).instr (overflowed (working (mprobe))) with
      | .next t => ((t.cl 0).overflow.length, (t.unit 0 9).map (·.acc))
      | _ => (9, [])) = (1, [[2 ^ 63 + 7]])
    ∧ done (mprobe [3]) = [(true, none)] := by decide +kernel

theorem witness_MessagesR315 :
    (let s := working (msend)
     WorksOn s (atWork (msend)) (msend) .msend (.msend (eword)) (eword) ∧ (msend).started = false ∧ s.holds 0 0 = true
      ∧ ((s.unit 0 9).any fun x => x.op = .msend && x.nk = (msend).nk && x.id < (msend).id && !x.finished && selNode x.lv = selNode (msend).lv) = false)
    ∧ (let m := msend [2] [(2 ^ 21, 0)]
       WorksOn (working m) (atWork m) m .msend (.msend (eword)) (eword) ∧ m.started = true ∧ m.aux = [2] ∧ (m.got.any fun e => e.1 = 2 ^ 21) = true)
    ∧ ((msend [2] [(0, 0)]).got.any fun e => e.1 = 2 ^ 21) = false
    ∧ WorksOn (working msendTrig) (atWork msendTrig) msendTrig .msendTrig (.msendTrig (eword)) (eword) ∧ msendTrig.started = false
    ∧ (let s := overflowed (working (mrecv))
       WorksOn s (atWork (mrecv)) (mrecv) .mrecv (.mrecv (eword 0)) (eword 0) ∧ ((s.cl 0).overMatch 0 0 (mrecv).lv).isSome = true
        ∧ ((working (mrecv)).cl 0).overMatch 0 0 (mrecv).lv = none ∧ ((working (mrecv)).cl 0).recvs.length < 64)
    ∧ WorksOn (working (mrecv [1])) (atWork (mrecv [1])) (mrecv [1]) .mrecv (.mrecv (eword 0)) (eword 0) ∧ (working (mrecv [1])).ownRoom (mrecv [1]) = true
    ∧ WorksOn (working (mprobe)) (atWork (mprobe)) (mprobe) .mprobe (.mprobe (eword 0)) (eword 0)
    ∧ WorksOn (working (mprobe [3])) (atWork (mprobe [3])) (mprobe [3]) .mprobe (.mprobe (eword 0)) (eword 0)
    ∧ (let m := msend [1, 0]
       let s : State := { working m with now := 1024 }
       m.op = .msend ∧ (0 : Nat) + 1024 ≤ s.now
        ∧ (s.unit 0 9).find? (fun m => m.op = .msend && m.aux.getD 0 0 = 1 && m.aux.getD 1 0 + 1024 ≤ s.now) = some m) := by
  refine ⟨⟨works (msend) rfl rfl, rfl, ?_, ?_⟩, ⟨works (msend [2] [(2 ^ 21, 0)]) rfl rfl, rfl, rfl, ?_⟩, ?_, works msendTrig rfl rfl, rfl,
    ⟨worksOn _ rfl rfl _ rfl rfl, ?_, ?_, ?_⟩, works (mrecv [1]) rfl rfl, rfl, works (mprobe) rfl rfl, works (mprobe [3]) rfl rfl, rfl, ?_, ?_⟩
  all_goals decide +kernel

def mesg : Msg := .mesg 0 7 0 5 0 3 (sc 4)
def trig : Trig := { c := 5, id := 3, nk := 40, o := sc 4, f := { cause := .nameKind, n := 0, ws := 0, age := 0 } }
/-- Node 1 holds the callable node of kernel 1. -/
def callable (s : State) : State :=
  s.modNd 1 fun n => { n with asg := some { assigned with num := 1, cal := true }, st := .running, hdr := some {} }

def posted (s : State) : State :=
  cl0 (fun c => { c with recvs := [{ cmd := 0, nk := 0, src := none, tag := some 7 }] }) s

/-- A message goes to the receive that it matches, else to the overflow queue; a full queue refuses it. -/
theorem test_message_arrival :
    (match exec (.messageArrival 0) (message (posted (working (mrecv))) mesg) with
      | .next t => ((t.cl 0).recvs.length, (t.cl 0).overflow.length, (t.unit 0 9).map (·.acc))
      | _ => (9, 9, [])) = (0, 0, [[1]])
    ∧ (match exec (.messageArrival 0) (message (working (mrecv)) mesg) with
      | .next t => (t.cl 0).overflow.map fun g => (g.src, g.tag)
      | _ => []) = [(40, 7)] := by decide +kernel

/-- A trigger takes a tag of the handler's node; one for no name waits. -/
theorem test_trigger :
    (match exec (.triggerDispatch 0) (message (callable (named (working (mrecv)))) (.trig 6 trig)) with
      | .next t => (t.nd 1).tags.map fun e => (e.1, e.2.ix1, e.2.arg.val)
      | _ => []) = [(0, 70, .sc 4)]
    ∧ (match exec (.triggerDispatch 0) (message (named (working (mrecv))) (.trig 9 trig)) with
      | .next t => t.dir.waits.map (·.1)
      | _ => []) = [9] := by decide +kernel

/-- A fault record of node 5 at rank 1 of the fault edge of name 6, and none. -/
def edge (v : Bool) : Rec := { val := 5, nk := 9, kernel := 1, feV := v, feName := 6 }
def recorded (v : Bool) : State :=
  message { callable (named (working (mrecv))) with recs := [(3, edge v)] } (.record 3) 0 0

theorem test_record :
    (match exec (.faultRecordDelivery 0) (recorded false) with
      | .next t => t.monQ
      | _ => []) = [3] := by decide +kernel

theorem witness_MessagesAndTriggersArriveR316 :
    (let s := message (posted (working (mrecv))) mesg
     s.holds 0 0 = true ∧ (s.cl 0).recvs = [{ cmd := 0, nk := 0, src := none, tag := some 7 }])
    ∧ ((message (working (mrecv)) mesg).cl 0).recvs = [] ∧ ((message (working (mrecv)) mesg).cl 0).overflow.length < 128
    ∧ (let s := message (callable (named (working (mrecv)))) (.trig 6 trig)
       s.handlerSaved 6 = false ∧ s.nameOf 6 = some (.handler 1 1 70) ∧ (s.nd 1).aband = false ∧ (s.nd 1).freeTag = some 0 ∧ (s.nd 1).waitSpawn = []
        ∧ s.nameOf 9 = none ∧ s.waiters 9 < 64)
    ∧ (Tab.find (recorded false).recs 3 = some (edge false) ∧ (recorded false).savedKern 1 = false ∧ (edge false).feV = false)
    ∧ (let s := recorded true
       Tab.find s.recs 3 = some (edge true) ∧ s.nameOf (nameKey 0 6) = some (.handler 1 1 70) ∧ s.kern 1 = some kernel1 ∧ kernel1.st ≠ .saved) := by
  refine ⟨⟨?_, ?_⟩, ?_, ?_, ⟨?_, ?_, ?_, ?_, ?_, ?_, ?_⟩, ⟨rfl, ?_, rfl⟩, rfl, ?_, rfl, ?_⟩ <;> decide +kernel

/-! Names -/

def nopen (sub : BitVec 4) (n : W64) (acc : List Nat := []) : Cmd :=
  { command (.nopen (eword sub)) (some (sc n)) with acc := acc, started := !acc.isEmpty }
def nlook (sub : BitVec 4) (n : W64) : Cmd := command (.nlook (eword sub)) (some (sc n))
def nclose (h : W64) : Cmd := command (.nclose (eword)) (some (sc h))
def nbind (n : Nat) : Cmd := command (.nbind (eword)) (some (vec (record [n, 3 * 2 ^ 61 + 0x4000, 64])))
def nunbind (n : W64) : Cmd := command (.nunbind (eword)) (some (sc n))

/-- The value for the place. -/
def answer (m : Cmd) : List (List Nat) :=
  match exec m.instr (named (working m)) with
  | .next t => (t.unit 0 9).map (·.acc)
  | _ => []

theorem test_names :
    answer (nopen 0 5) = [[2 * 2 ^ 56 + 2 * 2 ^ 22 + 1]] ∧ answer (nopen 1 9) = [[2 ^ 60]] ∧ answer (nopen 0 6) = [[2 ^ 61]]
    ∧ done (nopen 2 5) (named (working (nopen 2 5))) = [(false, some .permission)]
    ∧ answer (nlook 0 5) = [[2 * 2 ^ 56 + 2 * 2 ^ 22 + 1]] ∧ answer (nlook 1 5) = [[17]]
    ∧ done (nclose 0) (named (working (nclose 0))) = [(true, none)] ∧ done (nclose 1) (named (working (nclose 1))) = [(false, some .badHandle)]
    := by decide +kernel

theorem test_bindings :
    done (nbind 5) (named (working (nbind 5))) = [(false, some .nameBound)] ∧ done (nbind 9) (named (working (nbind 9))) = [(true, none)]
    ∧ done (nunbind 9) (named (working (nunbind 9))) = [(false, some .nameUnbound)]
    ∧ (match exec (nunbind 5).instr (named (working (nunbind 5))) with
      | .next t => (t.nameOf 5, t.dir.objs.map fun o => o.2.bound)
      | _ => (none, [])) = (none, [false]) := by decide +kernel

theorem witness_NamesOpenBindLookR369 :
    (let m := nopen 0 5
     let s := named (working m)
     WorksOn s (atWork m) m .nopen (.nopen (eword 0)) (eword 0) ∧ m.started = false ∧ s.openMore 0 m = false
      ∧ (s.unit 0 9).filter (fun x => x.op = .nopen && x.nk = m.nk && x.age = m.age && !x.started && x.fail.isNone) = [m]
      ∧ s.nameOf (nameKey 0 5) = some (.obj 1) ∧ Tab.find s.dir.objs 1 = some obj1 ∧ IsFree s 0 1)
    ∧ (let m := nopen 0 5 [3]
       WorksOn (working m) (atWork m) m .nopen (.nopen (eword 0)) (eword 0) ∧ m.started = true ∧ m.acc = 3 :: [] ∧ (working m).ownRoom m = true)
    ∧ WorksOn (named (working (nlook 0 5))) (atWork (nlook 0 5)) (nlook 0 5) .nlook (.nlook (eword 0)) (eword 0)
    ∧ (let s := named (working (nclose 0))
       WorksOn s (atWork (nclose 0)) (nclose 0) .nclose (.nclose (eword)) (eword) ∧ Tab.find s.dir.handles 0 = some (1, false))
    ∧ (let m := nbind 9
       let s := named (working m)
       WorksOn s (atWork m) m .nbind (.nbind (eword)) (eword) ∧ s.wroteAll m = true ∧ s.descAllowed 0 m.lvec = true
        ∧ s.nameOf (nameKey 0 (wordOf m.lvec 0).toNat) = none ∧ s.dir.names.length < 65536 ∧ s.objCount < 262144
        ∧ s.waiters (nameKey 0 (wordOf m.lvec 0).toNat) = 0)
    ∧ WorksOn (named (working (nunbind 5))) (atWork (nunbind 5)) (nunbind 5) .nunbind (.nunbind (eword)) (eword) := by
  refine ⟨⟨worksOn _ rfl rfl _ rfl rfl, rfl, ?_, ?_, ?_, rfl, ?_, ?_, ?free⟩, ⟨works (nopen 0 5 [3]) rfl rfl, rfl, rfl, ?_⟩,
    worksOn _ rfl rfl _ rfl rfl, ⟨worksOn _ rfl rfl _ rfl rfl, rfl⟩, ⟨worksOn _ rfl rfl _ rfl rfl, ?_, ?_, ?_, ?_, ?_, ?_⟩,
    worksOn _ rfl rfl _ rfl rfl⟩
  case free =>
    intro g hg
    obtain rfl : g = 0 := by omega
    decide +kernel
  all_goals decide +kernel

/-- A list of one record at 0x2000: name 9 becomes an object. -/
def nrebind : Cmd := command (.nrebind (eword)) (some (sc 0x2000))
def listed (s : State) : State :=
  memWrite (memWrite (memWrite (named s) (spKey 0 0x2000) 1 1) (spKey 0 0x2040) (9 + 2 ^ 64 * (3 * 2 ^ 61 + 0x4000)) 16) (spKey 0 0x2050) 64 1

theorem test_rebind :
    done nrebind (listed (working nrebind)) = [(true, none)] ∧ done nrebind = [(false, some .nameRecord)]
    ∧ (match exec nrebind.instr (listed (working nrebind)) with
      | .next t => t.nameOf 9
      | _ => none) = some (.obj 2) := by decide +kernel

theorem witness_RebindIsOnePointR373 :
    let s := listed (working nrebind)
    let d := memVec s (spKey 0 0x2040)
    WorksOn s (atWork nrebind) nrebind .nrebind (.nrebind (eword)) (eword) ∧ memRead s (spKey 0 0x2000) 64 = 1
    ∧ (∀ x, x ∈ rangeTiles 0x2000 128 → x ∈ (s.cl 0).engTiles)
    ∧ (∀ k, k < 2 → badAt s (spKey 0 (0x2000 + 64 * k)) = false ∧ badAt s (spKey 0 (0x2000 + 64 * k) + 32) = false) ∧ s.wroteAll nrebind = true
    ∧ s.nrebindBad 0 [d] = false ∧ s.descAllowed 0 d = true ∧ s.waiters (nameKey 0 (wordOf d 0).toNat) = 0
    ∧ (s.nrebind 0 0 [d]).dir.names.length ≤ 65536 ∧ (s.nrebind 0 0 [d]).objCount ≤ 262144 := by
  refine ⟨worksOn _ rfl rfl _ rfl rfl, ?_, ?_, ?_, ?_, ?_, ?_, ?_, ?_, ?_⟩ <;> decide +kernel

/-- Object 1 has no binding, no handle and no holder; with a free-list ring of 4 entries at 0x10000. -/
def dead1 (flva : Nat) (ring : Option Nat) : State :=
  { mapped 2048 [(0x10, 0x30)] (memWrite (working nrebind) 0x30010 4 8) with
    dir := { objs := [(1, { obj1 with opens := 0, bound := false, flva := flva, ring := ring })] }, now := 9 }

theorem test_reclaim :
    (match exec (.objectReclamation 0) (dead1 0 none) with
      | .next t => t.dir.objs.length
      | _ => 9) = 0
    ∧ (match exec (.objectReclamation 0) (dead1 0x10000 none) with
      | .next t => (t.dir.objs.length, memRead t 0x30000 8, memRead t 0x30040 8, memRead t 0x30048 8)
      | _ => (9, 0, 0, 0)) = (0, 1, 3 * 2 ^ 61 + 0x4000, 128) := by decide +kernel

theorem witness_ObjectsAreReclaimedR367 :
    (let o : Obj := { obj1 with opens := 0, bound := false }
     (dead1 0 none).dead = [(1, o)] ∧ Tab.find (dead1 0 none).dir.objs 1 = some o ∧ o.flva = 0 ∧ o.ring = none)
    ∧ (let o : Obj := { obj1 with opens := 0, bound := false, flva := 0x10000, ring := some 3 }
       let s := dead1 0x10000 (some 3)
       s.dead = [(1, o)] ∧ 3 ≤ s.now ∧ xlate s [tlbDie 0] 0 0 (0x10000 % 2 ^ 52) (permR ||| permW) = .here 0x30000 0 ∧ badAt s 0x30000 = false
        ∧ (readUnder s 0x30000 64 (some 0)).2 = 4 * 2 ^ 128
        ∧ xlate s [tlbDie 0] 0 0 ((0x10000 + 64 + 16 * (0 % 4)) % 2 ^ 52) permW = .here 0x30040 0 ∧ badAt s 0x30040 = false) := by
  refine ⟨⟨?_, ?_, rfl, rfl⟩, ?_, ?_, ?_, ?_, ?_, ?_, ?_⟩ <;> decide +kernel

/-! ### Tokens, commits and faults -/

/-- Node 0 runs, with iteration 4 in flight, under the header `h`. -/
def here (h : Header := {}) (v : Inv := inv) : State := (running1 (fire operands v)).modNd 0 fun n => { n with hdr := some h }

/-- A token for element 3, where an ADD stands. -/
def token (pt : Port) : Tok := { pl := 0, ix := 3, pt := pt, ws := 0, it := 4, kd := .data, gn := 0, o := sc 1 }
def tokens (t : Tok) (store : List Tok := []) : State :=
  (here).modCl 0 fun c => { c with ctx := [(3, { word := 0x200C428000000000 })], input := [t], store := store }

def arrived (s : State) : Nat × List (Bool × Bool) × Option Cause :=
  match exec (.operandTokenArrival 0 0) s with
  | .next t => ((t.cl 0).store.length, (t.cl 0).ready.map (fun r => (r.l.isSome, r.r.isSome)), (t.nd 0).pend.map (·.cause))
  | _ => (9, [], none)

theorem test_tokens :
    arrived (tokens (token .l)) = (1, [], none)
    ∧ arrived (tokens (token .l) [token .r]) = (0, [(true, true)], none)
    ∧ arrived (tokens (token .l) [token .l]) = (1, [], some .duplicateOperand)
    ∧ arrived (tokens (token .q)) = (0, [], some .portMismatch) := by decide +kernel

theorem test_tokens_refused :
    arrived (tokens { token .l with ix := 9 }) = (0, [], some .tokenToEmptyElement)
    ∧ arrived (tokens { token .l with gn := 3 }) = (0, [], none) ∧ arrived (tokens { token .l with it := 3 }) = (0, [], none) := by decide +kernel

theorem witness_TokensReachElementsR30 :
    (let t := token .l
     let s := tokens t [token .r]
     (s.cl 0).input = [t] ∧ s.tokWaits 0 t = false ∧ t.kd ≠ .reply ∧ (s.nd 0).asg.isSome = true ∧ t.gn = (s.nd 0).gn ∧ (s.nd 0).hdr.isSome = true
      ∧ (s.nd 0).inv t.ws t.it = some inv ∧ (ctxInstr (s.cl 0) 0 3).isSome = true
      ∧ (ctxInstr (s.cl 0) 0 3).map (fun i => (kindBad (usedPorts i) t, completePorts i (setOf s 0 t))) = some (false, some [.l, .r])
      ∧ (∀ p, p < 8 → (s.nd (nkOf 0 p)).spill = []))
    ∧ (ctxInstr ((tokens (token .q)).cl 0) 0 3).map (fun i => kindBad (usedPorts i) (token .q)) = some true
    ∧ ctxInstr ((tokens (token .l)).cl 0) 0 9 = none
    ∧ (ctxInstr ((tokens (token .l)).cl 0) 0 3).map (fun i => completePorts i (setOf (tokens (token .l)) 0 (token .l))) = some none
    ∧ (((tokens (token .l)).cl 0).inSet (token .l).set).length < 16
    ∧ (let t := { token .l with pl := 4 }
       ((tokens t).cl 0).input = [t] ∧ (tokens t).tokWaits 0 t = false ∧ ((tokens t).nd 4).asg.isNone = true)
    ∧ ((tokens { token .l with it := 3 }).nd 0).tokIter { token .l with it := 3 } = none := by
  refine ⟨⟨rfl, ?_, ?_, ?_, ?_, ?_, ?_, ?_, ?_, ?_⟩, ?_, ?_, ?_, ?_, ⟨rfl, ?_, ?_⟩, ?_⟩ <;> decide +kernel

/-- Node 0 with a window of 4 slots, and node 1 callable with tag 2 taken. -/
def starting : State := (here { win := 3 }).modNd 0 fun n => { n with okNext := true }
def streams : State := (here { win := 3, stm := true }).modNd 0 fun n => { n with tcount := 9 }
def called : State := (callable (here)).modNd 1 fun n => { n with tags := [(2, { arg := sc 1 })] }

theorem test_starts :
    (match exec (.invocationStart 0 0) starting with
      | .next t => ((t.nd 0).invs.map fun v => (v.n, v.ws), (t.nd 0).next)
      | _ => ([], 0)) = ([(4, 0), (5, 1)], 6)
    ∧ (match exec (.invocationStart 0 0) streams with
      | .next t => (t.nd 0).invs.map (·.n)
      | _ => []) = [4, 5]
    ∧ (match exec (.invocationStart 0 1) called with
      | .next t => (t.nd 1).invs.map fun v => (v.n, v.ws)
      | _ => []) = [(2, 2)] := by decide +kernel

theorem witness_InvocationsStartR37 :
    ((starting.nd 0).hdr = some { win := 3 } ∧ starting.mayStart 0 = true ∧ (starting.nd 0).callable = false ∧ (starting.nd 0).okNext = true
      ∧ ∀ v, v ∈ (starting.nd 0).invs → v.ws ≠ (starting.nd 0).next % 4)
    ∧ ((streams.nd 0).hdr = some { win := 3, stm := true } ∧ streams.mayStart 0 = true ∧ (streams.nd 0).next < (streams.nd 0).tcount)
    ∧ ((called.nd 1).hdr = some {} ∧ called.mayStart 1 = true ∧ (called.nd 1).callable = true
      ∧ (called.nd 1).tagToStart = some (2, { arg := sc 1 })) := by
  refine ⟨⟨rfl, ?_, ?_, rfl, ?_⟩, ⟨rfl, ?_, ?_⟩, ⟨rfl, ?_, ?_, ?_⟩⟩ <;> decide +kernel

/-- A complete invocation with a WRITE of g7, a pattern to set and an exit to no block. -/
def held : Inv :=
  { inv with held := [.glob 3 .g 7 (.sc 9), .cmd 110 (.pset (eword)) (some (vec pattern4)) none none, .exit 5 false none], flags := 3 }

theorem test_commit :
    (match exec (.invocationCommit 0 0 0) (here {} held) with
      | .next t => (Tab.get 0 (t.nd 0).g 7, (t.nd 0).invs.length, (nodeReg t 0 0x011).toNat, (Tab.get 0 (t.cl 0).pats 0).toNat % 2 ^ 64, (t.nd 0).st)
      | _ => (0, 9, 0, 0, .idle)) = (9, 0, 3, 2 * 2 ^ 58 + 0x1000, .ended)
    ∧ faulted (exec (.invocationCommit 0 0 0) (here)) = some .noExit := by decide +kernel

/-- The second pass of a commit is done. -/
def passes (r : Pass) : Bool := match r with | .ok _ => true | _ => false

theorem passes_ok {r : Pass} (h : passes r = true) : ∃ s, r = .ok s := by
  cases r with
  | ok s => exact ⟨s, rfl⟩
  | wait s => simp [passes] at h
  | fault s => simp [passes] at h

theorem witness_CommitsReleaseTogetherR39 :
    ((here {} held).live 0 = true ∧ ((here {} held).nd 0).acts = [] ∧ ((here {} held).commitable 0)[0]? = some held ∧ held.exitHeld = some (false, none)
      ∧ (∃ s1, (here {} held).secondPass 0 held.age = .ok s1) ∧ held.tags = []
      ∧ (heldCmds held).all (fun e => !isSpawn e.2) = true)
    ∧ ((here).commitable 0)[0]? = some inv ∧ inv.exitHeld = none ∧ ((here).nd 0).callable = false := by
  refine ⟨⟨?_, rfl, ?_, rfl, passes_ok ?_, rfl, ?_⟩, ?_, rfl, ?_⟩ <;> decide +kernel

/-- What is left of a commit. -/
def committing (a : Act) : State := (here).modNd 0 fun n => { n with acts := [a] }
def act (i : Instr) (l r : Option Opnd := none) (place : Option (Nat × Nat × Nat) := none) : Act := .issue 110 i l r none 0 4 0 place none
def goes (a : Act) (s : State := committing a) (f : State → Nat) : Nat :=
  match exec (.invocationCommit 0 0 0) s with
  | .next t => f t
  | _ => 999

theorem test_acts :
    goes (.flip 3) (f := fun t => (t.cl 0).engTiles.length) = 1
    ∧ goes (act (.wrsr (sword 0x10)) (some (sc 0x100))) (f := fun t => (nodeReg t 0 0x10).toNat) = 0x100
    ∧ goes (act (.tinv (sword)) (some (sc 0x5000)) (some (sc (2 ^ 16)))) (f := fun t => t.tinvs.length) = 1
    ∧ goes (act (.keyset (sword)) (some (vec 3)) (some (sc 5))) (f := fun t => t.ksets.length) = 1
    ∧ goes (act (.trap (sword)) (some (sc 77))) (f := fun t => (nodeReg t 0 0xd4).toNat) = 77
    ∧ goes (act (.pset (eword (pat := 2))) (some (vec 9))) (f := fun t => (Tab.get 0 (t.cl 0).pats 2).toNat) = 9
    ∧ goes (act (.copyr (eword)) (some (sc 0))) (f := fun t => (t.unit 0 5).length) = 1 := by decide +kernel

/-- A TSYNC waits for the TINVs before it. -/
theorem test_tsync : goes (act (.tsync (sword))) { committing (act (.tsync (sword))) with tinvNext := 1, tinvs := [⟨0, 0, 0, 0, none, [0]⟩] }
    (fun t => t.tsyncs.length) = 1 := by decide +kernel

theorem witness_CommitsIssueInOrderR141 :
    (committing (.flip 3)).live 0 = true ∧ ((committing (.flip 3)).nd 0).acts = [.flip 3] ∧ (committing (.flip 3)).flipReady 0 3 = true
    ∧ (∃ t, t ∈ ([⟨0, 0, 0, 0, none, [0]⟩] : List Tinv) ∧ t.nk = 0 ∧ t.id < 1)
    ∧ (Tab.find ((called.modNd 1 fun n => { n with tags := [(4, { arg := sc 1, record := some 3 })], acts := [act (.fret (sword))] }).nd 1).tags 4).bind
        (·.record) = some 3
    ∧ ((committing (act (.trap (sword)) (some (sc 77)))).nd 0).st ≠ .ended ∧ ((committing (act (.trap (sword)) (some (sc 77)))).nd 0).genFree = true
    ∧ ((committing (act (.pset (eword)) (some (vec 9)))).nd 0).wmSet (eword) 0 = true
    ∧ (let a := act (.copyr (eword)) (some (sc 0))
       let s := (committing a).modCl 0 fun c => { c with pats := [(0, record [2 * 2 ^ 61])] }
       s.unitRoom 0 5 = true ∧ patSpc (Tab.get 0 (s.cl 0).pats 0) = 2 ∧ (s.nd 0).nextCmd = some (.copyr, eword, 0))
    ∧ (let a := act (.copyr { eword with wm := 1 }) (some (sc 0))
       (((committing a).modNd 0 fun n => { n with sb := [(0, 0, 111)] }).nd 0).wmSet { eword with wm := 1 } 0 = false) := by
  refine ⟨?_, rfl, ?_, ⟨⟨0, 0, 0, 0, none, [0]⟩, by simp⟩, ?_, ?_, ?_, ?_, ⟨?_, ?_, rfl⟩, ?_⟩ <;> decide +kernel

def waiting : State := setNodeReg (here { efc := 1 } { inv with wd := 100 }) 0 0x44 100
def fault1 : Pending := { cause := .watchdog, n := 4, ws := 0, age := 0 }
def stopped (f : Pending := fault1) : State := (here { efc := 1 }).modNd 0 fun n => { n with pend := some f, stop := true }
/-- Every tag of node 1's pool is held by an invocation that waits for one of them. -/
def pool : State :=
  (callable (here)).modNd 1 fun n => { n with
    tags := (List.range 32).map fun t => (t, { arg := sc 1, ord := t })
    invs := (List.range 32).map fun t => { n := t, ws := t, age := t, held := [.cmd 110 (.spawn (eword)) one one none] } }

theorem test_waits :
    faulted (exec (.watchdogExpiry 0 0 0) waiting) = some .watchdog
    ∧ faulted (exec (.watchdogExpiry 0 0 0) (setNodeReg waiting 0 0x44 101)) = none
    ∧ (match exec (.tagPoolDeadlock 0 1) pool with
      | .next t => (t.nd 1).pend.map fun f => (f.cause, f.n)
      | _ => none) = some (.tagPoolDeadlock, 31)
    ∧ (match exec (.drainLimitExpiry 0 0) { stopped { fault1 with age := 5 } with now := 2 ^ 33 } with
      | .next t => (t.nd 0).pend.map (·.drn)
      | _ => none) = some true := by decide +kernel

theorem witness_WaitsEndInFaultsR42 :
    ((waiting.watched 0)[0]? = some { inv with wd := 100 } ∧ (nodeReg waiting 0 0x044).toNat % 2 ^ 32 = 100 ∧ (waiting.nd 0).st = .running
      ∧ (waiting.nd 0).pend = none)
    ∧ ((pool.nd 1).callable = true ∧ (pool.nd 1).freeTag = none ∧ (pool.nd 1).pend = none
      ∧ ((pool.nd 1).invs.all fun v => (pool.spawnWaits 1 v).any fun w => w.2 = 1) = true
      ∧ ((pool.nd 1).tags.all fun e => (pool.nd 1).invs.any fun v => v.n = e.1) = true)
    ∧ ((stopped).nd 0).pend = some fault1 ∧ fault1.at_ + (pkg (stopped) 0x061).toNat % 2 ^ 32 ≤ 2 ^ 33 := by
  refine ⟨⟨?_, ?_, rfl, rfl⟩, ⟨?_, ?_, ?_, ?_, ?_⟩, rfl, ?_⟩ <;> decide +kernel

theorem test_fault_taken :
    (match exec (.invocationDiscard 0 0) (stopped) with
      | .next t => ((t.nd 0).st, (t.nd 0).gn, (t.nd 0).rst, (nodeReg t 0 0xd0).toNat % 2 ^ 7, (nodeReg t 0 0xd2).toNat)
      | _ => (.idle, 0, 0, 0, 0)) = (.faulted, 1, 4, causeCode .watchdog, 2 ^ 34 + 4) := by decide +kernel

theorem witness_FaultsAreTakenR40 :
    ((stopped).nd 0).pend = some fault1 ∧ (stopped).live 0 = true ∧ ((stopped).nd 0).acts = [] ∧ ((stopped).nd 0).genFree = true
    ∧ ((stopped).nd 0).st ≠ .ended ∧ ((stopped).nd 0).callable = false ∧ (∀ v, v ∈ ((stopped).nd 0).invs → fault1.age ≤ v.age)
    ∧ fault1.map = false ∧ fault1.eng = false ∧ fault1.trp = false ∧ fault1.drn = false ∧ fault1.cause ≠ .fetchUncorrectable
    ∧ (∀ p, p < 8 → ((stopped).nd (nkOf 0 p)).spill = []) := by
  refine ⟨rfl, ?_, rfl, ?_, ?_, ?_, ?_, rfl, rfl, rfl, rfl, ?_, ?_⟩ <;> decide +kernel

/-- A commit's command before its issue: the next command of the cluster is the 7th. -/
def issuing (tiles : List Nat := []) : State := (here).modCl 0 fun c =>
  { c with cmdNext := 7, engTiles := tiles, pats := [(0, pattern4 0x1000), (2, stream64 64), (3, pattern4 0x1000 ||| (6 <<< 61))] }
def issuedOf (m : Cmd) : Cmd := { m with id := 7, pats := m.patNums.map fun k => Tab.get 0 (issuing.cl 0).pats k }
def issues (ins : Instr) (l r : Option Opnd := some (sc 0)) : Cmd := command ins l r
def failedAt (m : Cmd) : Option Cause := (((issuing).issueCmd 0 5 m).nd 0).engFaults.head?.map (·.cause)

/-- R145, R146: what the issue refuses, by the cause the rules name. -/
theorem test_issue_checks :
    failedAt (issues (.copyr (eword (pat := 3)))) = some .badHandle ∧ failedAt (issues (.rread (eword (sub := 2)))) = some .groupOverflow
    ∧ failedAt (issues (.copy (eword (imm := 2)))) = some .patternMismatch ∧ failedAt (issues (.flopen (eword)) (some (vec 384))) = some .addressOutOfRange
    ∧ failedAt (issues (.copyr (eword))) = some .ownerViolation
    ∧ (((issuing [1]).issueCmd 0 5 (issues (.copyr (eword)))).unit 0 5).map (fun m => (m.id, m.tiles)) = [(7, [1])] := by decide +kernel

theorem witness_CommandsAreCheckedAtIssueR145 :
    (∀ y, y ∈ (issuing).unit 0 5 → y.id ≠ ((issuing).cl 0).cmdNext) ∧ (issues (.copyr (eword))).place = none
    ∧ (issuing).resolve 0 (issuedOf (issues (.copyr (eword (pat := 3))))).handleNums = none
    ∧ (∀ m : Cmd, m = issues (.rread (eword (sub := 2))) ∨ m = issues (.copy (eword (imm := 2))) ∨ m = issues (.flopen (eword)) (some (vec 384))
        ∨ m = issues (.wopen (eword)) (some (vec (0x180000 + (64 <<< 64)))) ∨ m = issues (.copyr (eword)) →
      (issuing).resolve 0 (issuedOf m).handleNums = some [])
    ∧ ((issuedOf (issues (.rread (eword (sub := 2))))).chipGrp.isSome = true ∧ (partReg (issuing) 0 0x052).toNat.testBit 63 = false)
    ∧ (let m1 := issuedOf (issues (.copy (eword (imm := 2)))); patEsz (m1.pats.getD 0 0) ≠ patEsz (m1.pats.getD 1 0))
    ∧ (let f := flOf (issuedOf (issues (.flopen (eword)) (some (vec 384)))).lvec 0; 384 < f.ring + (f.nsl + 1) * (f.tps + 1))
    ∧ (let v := (issuedOf (issues (.wopen (eword)) (some (vec (0x180000 + (64 <<< 64)))))).lvec; winSpc v = 0 ∧ 0x180000 < winBase v + winLen v)
    ∧ (let m := issuedOf (issues (.copyr (eword)))
       (issuing).issueCheck m = none ∧ (issuing).touches 0 m = [(0, 1)] ∧ 1 ∉ ((issuing).cl 0).engTiles ∧ 1 ∈ ((issuing [1]).cl 0).engTiles
        ∧ (issuing [1]).issueCheck m = none ∧ (issuing [1]).touches 0 m = [(0, 1)]) := by
  refine ⟨?_, rfl, ?_, ?_, ⟨?_, ?_⟩, ?_, ?_, ⟨?_, ?_⟩, ?_, ?_, ?_, ?_, ?_, ?_⟩
  all_goals first | decide +kernel | (rintro m (rfl | rfl | rfl | rfl | rfl) <;> decide +kernel)

def engFault : State := (here { efc := 1 }).modNd 0 fun n => { n with engFaults := [{ fault1 with eng := true, cause := .badHandle }] }

theorem test_engine_fault :
    (match exec (.engineFault 0 0) engFault with
      | .next t => ((t.nd 0).st, (t.nd 0).engFaults.length, (t.nd 0).rst, (nodeReg t 0 0xd0).toNat / 2 ^ 16 % 2)
      | _ => (.idle, 9, 0, 0)) = (.faulted, 0, 4, 1) := by decide +kernel

theorem witness_EngineFaultsAreTakenR144 :
    (engFault.nd 0).engFaults = { fault1 with eng := true, cause := .badHandle } :: [] ∧ engFault.live 0 = true ∧ (engFault.nd 0).acts = []
    ∧ engFault.commitable 0 = [] ∧ (engFault.nd 0).pend = none ∧ (engFault.nd 0).st ≠ .faulted ∧ (engFault.nd 0).genFree = true
    ∧ (engFault.nd 0).st ≠ .ended ∧ (∀ v, v ∈ (engFault.nd 0).invs → v.n < 2 ^ 32)
    ∧ (∀ p, p < 8 → (engFault.nd (nkOf 0 p)).spill = []) := by
  refine ⟨rfl, ?_, rfl, ?_, rfl, ?_, ?_, ?_, ?_, ?_⟩ <;> decide +kernel

/-- Node 0 has faulted; its record waits for the monitor. -/
def unresolved : State :=
  { (stopped).modNd 0 fun n => { n with st := .faulted, pend := none, invs := [], rst := 4 } with
    recs := [(3, { val := 5, nk := 0, kernel := 1 })], monQ := [3] }

/-- The management core runs. -/
def booted (s : State) : State := srSet s 0 0x0a1 0x20

theorem test_resolve :
    (match exec (.monitorResolve 0 0) (booted unresolved) with
      | .next t => ((t.nd 0).st, (t.nd 0).next, t.recs.length, t.monQ)
      | _ => (.idle, 0, 9, [])) = (.running, 4, 0, [])
    ∧ ((unresolved.resolveRec 3 1 false).nd 0).st = .ended ∧ (Tab.get {} (unresolved.resolveRec 3 2 false).queues 0).status = [(0, 0x508, 0)] := by decide +kernel

theorem witness_ResolutionsR409 :
    Tab.find unresolved.recs 3 = some { val := 5, nk := 0, kernel := 1 } ∧ unresolved.kern 1 = some kernel1 ∧ kernel1.st = .running
    ∧ (unresolved.nd 0).st = .faulted ∧ (unresolved.monQ.take 256)[0]? = some 3 ∧ mgmtRuns (booted unresolved) = true := by
  refine ⟨rfl, rfl, rfl, rfl, rfl, ?_⟩; decide +kernel

/-! ### Mapping, translations, admission and pre-emption -/

/-- A line that holds a block of one instruction, the word `w` on element 3, with the magic `mg`. -/
def block1 (w : Nat) (mg : Nat := 0xb1) : List Byte :=
  natLE (mg * 2 ^ 56 + 2 ^ 52 + 2 ^ 44) 8 ++ natLE 8 8 ++ List.replicate 16 0 ++ natLE w 8 ++ List.replicate 24 0

/-- Node 0 is to map the block at 0x10400, whose line the cache holds or not. -/
def mapping (l : List (Nat × Nat × List Byte)) : State :=
  ((running1 (fire operands)).modNd 0 fun n => { n with st := .mapping, invs := [], moveTo := some 0x10400, hdr := none }).modCl 0
    fun c => { c with bcache := l }

def mapped1 (l : List (Nat × Nat × List Byte)) : NodeSt × List Nat × Nat :=
  match exec (.blockMap 0 0) (mapping l) with
  | .next t => ((t.nd 0).st, (t.cl 0).ctx.map (·.1), (nodeReg t 0 0xd0).toNat % 2 ^ 7)
  | _ => (.ended, [], 0)

theorem test_block_map :
    mapped1 [(0, 0x10400, block1 0x0100000000000000)] = (.running, [3], 0)
    ∧ mapped1 [(0, 0x10400, block1 0x0100000000000000 0xb2)] = (.faulted, [], causeCode .badBlockHeader)
    ∧ mapped1 [(0, 0x10400, block1 0x1700000000000000)] = (.faulted, [], causeCode .unassignedOpcode)
    ∧ mapped1 [(0, 0x10400, block1 0x200C428000000000)] = (.faulted, [], causeCode .tokenToEmptyElement) := by decide +kernel

theorem test_block_fill :
    (match exec (.blockCacheFill 0 0) (mapped 0 [(0x10, 0x30)] (memWrite (mapping []) 0x30400 7 1)) with
      | .next t => (t.cl 0).bcache.map fun e => (e.2.1, e.2.2.headD 0)
      | _ => []) = [(0x10400, 7)]
    ∧ (match exec (.blockCacheFill 0 0) (mapping []) with
      | .next t => ((t.nd 0).st, (nodeReg t 0 0xd0).toNat % 2 ^ 7)
      | _ => (.ended, 0)) = (.faulted, causeCode .fetchTranslation) := by decide +kernel

theorem witness_BlocksMapR56 :
    (let s := mapped 0 [(0x10, 0x30)] (mapping [])
     s.mayMap 0 = true ∧ s.missing 0 = some 0x10400 ∧ (s.cl 0).line 0 0x10400 = none
      ∧ xlate s [tlbCl 0, tlbDie 0] 0 0 0x10400 permX = .here 0x30400 0 ∧ keyHeld s (some 0) = false ∧ badAt s 0x30400 = false
      ∧ (∀ p, p < 8 → (s.nd (nkOf 0 p)).spill = []))
    ∧ xlate (mapping []) [tlbCl 0, tlbDie 0] 0 0 0x10400 permX = .bad .translation 0
    ∧ (let line := block1 0x0100000000000000
       let s := mapping [(0, 0x10400, line)]
       let h := headerOf line
       let ps := placeAll ((s.cl 0).blockBytes 0 0x10400 0 ((h.len + 63) / 64)) h.len 32 h.elems
       (s.cl 0).line 0 0x10400 = some line ∧ headerBad line false = false ∧ s.missing 0 = none ∧ streamCheck h [] (waves ps) ps = none
        ∧ countsBad h (waves ps) ps = false)
    ∧ headerBad (block1 0 0xb2) false = true
    ∧ (let line := block1 0x1700000000000000
       let h := headerOf line
       let ps := placeAll (((mapping [(0, 0x10400, line)]).cl 0).blockBytes 0 0x10400 0 ((h.len + 63) / 64)) h.len 32 h.elems
       streamCheck h [] (waves ps) ps = some (.unassignedOpcode, 3, 0x1700000000000000)) := by
  refine ⟨⟨?_, ?_, ?_, ?_, ?_, ?_, ?_⟩, ?_, ⟨?_, ?_, ?_, ?_, ?_⟩, ?_, ?_⟩ <;> decide +kernel

/-- A TINV of page 0x10 at one holder, which caches pages 0x10 and 0x11. -/
def tinv1 : Tinv := ⟨0, 0, 0, 0, some (0x10, 1), [0]⟩
def invalidating : State := { mapped 0 [(0x10, 0x30), (0x11, 0x31)] (here) with tinvs := [tinv1] }
def keyed : State := { (here) with ksets := [{ nk := 0, age := 0, place := none, slot := 5, val := some 3, o := sc 1 }] }

theorem test_holders :
    (match exec (.tinvHolderAck 0) invalidating with
      | .next t => ((Tab.get [] t.tlb 0).map (·.vpn), t.tinvs.length)
      | _ => ([], 9)) = ([0x11], 0)
    ∧ (match exec (.keySlotReplace 0) keyed with
      | .next t => (Tab.find t.keys 5, t.ksets.length)
      | _ => (none, 9)) = (some (some 3), 0) := by decide +kernel

theorem witness_TranslationsAndKeysChangeR348 :
    (invalidating.tinvs.flatMap fun t => t.left.map fun h => (t, h))[0]? = some (tinv1, 0)
    ∧ (invalidating.tinvDrop tinv1 0).tinvUsed tinv1 0 = false ∧ invalidating.tsyncs = []
    ∧ keyed.ksets[0]? = some { nk := 0, age := 0, place := none, slot := 5, val := some 3, o := sc 1 } ∧ keyed.slotUsed 5 = false := by
  refine ⟨?_, ?_, rfl, rfl, ?_⟩ <;> decide +kernel

/-- Queue 0 with one record at 0x10000: SEQ 1 and KVA 0x10100, with `w3` as word 3; partition 0 is valid. -/
def launching (w3 : Nat) (kernel : Bool := true) (extra : State → State := id) : State :=
  let s := srSet (srSet (srSet (mapped 2048 [(0x10, 0x30)] State.reset) 0 (lqReg 0 1) (2 ^ 63 + 3)) 0 (lqReg 0 0) 0x10000) 0 0x300 (2 ^ 63)
  let s := srSet (extra s) 0 (lqReg 0 2) 1
  let put (s : State) (o v : Nat) : State := memWrite s (0x30000 + o) v 8
  let s := put (put (put s 0 1) 8 0x10100) 24 w3
  if kernel then
    -- a header, one section of one node, and the node, on plane 2, whose entry block is at 0x10400
    put (put (put (put (put (put (put s 0x100 (0xc6 * 2 ^ 56 + 2 ^ 52 + 2 ^ 16 + 1)) 0x108 0x10200) 0x110 0x10300) 0x210 (2 ^ 16)) 0x218 1) 0x300 0x10400)
      0x308 0x200
  else s

/-- TAKEN and the status owed after an interval of die 0; kernels admitted with their nodes' entries. -/
def admitted (s : State) : (Nat × List Nat) × List Nat :=
  match exec (.admissionInterval 0) s with
  | .next t => ((lqTaken t 0, (Tab.get {} t.queues 0).status.map (·.2.1)), t.nodes.map fun e => (e.2.moveTo).getD 0)
  | _ => ((9, []), [])

theorem test_admission :
    admitted (launching 0x50000) = ((1, []), [0x10400]) ∧ admitted (launching 0x50000 false) = ((1, [3]), [])
    ∧ admitted (launching 0x5000c) = ((1, [2]), []) ∧ admitted (launching 0x150000) = ((1, [6]), []) := by decide +kernel

theorem witness_HeadsAreAnsweredR293 :
    (let s := launching 0x5000c
     (bootErr s = 0 ∧ s.tripped = false ∧ Tab.get 0 s.weirNext 0 ≤ s.now) ∧ (∀ j, j < 64 → j ≠ 0 → lqEn s j = false) ∧ lqEn s 0 = true
      ∧ (Tab.get ({} : LQueue) s.queues 0).resume = [] ∧ lqTail s 0 = (lqTaken s 0 + 1) % 2 ^ 32
      ∧ (∃ n, sysRead s 0 (lqAsid s 0) (lqRec s 0 (lqTaken s 0)) 64 = .ok n) ∧ lqPart s 0 = 0 ∧ partValid s 0 = true)
    ∧ (match sysRead (launching 0x5000c) 0 0 0x10000 64 with | .ok n => recordBad (BitVec.ofNat 512 n) | _ => false) = true
    ∧ (match sysRead (launching 0x50000) 0 0 0x10000 64 with | .ok n => recordBad (BitVec.ofNat 512 n) | _ => true) = false
    ∧ fine (sysRead (launching 0x50000 false fun s => { s with tlb := [] }) 0 0 0x10000 64) = false := by
  refine ⟨⟨⟨?_, ?_, ?_⟩, ?_, ?_, ?_, ?_, fine_ok ?_, ?_, ?_⟩, ?_, ?_, ?_⟩ <;> decide +kernel

/-- The head of the queue, and the clusters of a die of which all are held. -/
def head1 (bypass : Nat := 0) : Head :=
  { q := 0, rank := 5, at_ := 0, bypass := bypass, w := 1, h := 1, v := record [1, 0x10100, 0, 0x50000] }

/-- Every cluster of die 0 belongs to a kernel of rank 1, which has a context slot for each of its clusters. -/
def full (b : Nat) (s : State) : State :=
  let s := srSet { s with clusters := (List.range 96).map fun c => (c, { holder := some (7, 0) })
                          kernels := [(7, { kernel1 with rank := 1, w := 12, h := 8, nodes := [] })]
                          queues := [(0, { bypass := b })] } 4096 0x063 96
  s

theorem test_bypass :
    (match exec (.admissionInterval 0) (launching 0x50000 true (full 255)) with
      | .next t => t.kernels.map (·.2.st)
      | _ => []) = [.preempting]
    ∧ (match exec (.admissionInterval 0) (launching 0x50000 true (full 0)) with
      | .next t => t.kernels.map (·.2.st)
      | _ => []) = [.running] := by decide +kernel

theorem witness_AdmissionsFollowTheOrderR300 :
    (let s := launching 0x50000
     (bootErr s = 0 ∧ s.tripped = false ∧ Tab.get 0 s.weirNext 0 ≤ s.now)
      ∧ (answered s 0).heads 0 = [head1] ∧ (head1).bypass < (pkg (answered s 0) 0x060).toNat % 2 ^ 8 ∧ (answered s 0).fits 0 (head1) = some (0, 0))
    ∧ (let u := answered (launching 0x50000 true (full 255)) 0
       u.heads 0 = [head1 255] ∧ (pkg u 0x060).toNat % 2 ^ 8 ≤ (head1 255).bypass ∧ u.fits 0 (head1 255) = none
        ∧ (head1 255).places[0]? = some (0, 0) ∧ (u.takeOver 0 (head1 255) (0, 0)).isSome = true)
    ∧ (match (answered (launching 0x50000) 0).readKernel (head1) 0 0 0 with
      | .ok r => (r.nodes.length, ((List.range r.nodes.length).zip r.nodes |>.map fun e => nkOf (nodeCl r.secs 0 0 0 e.1 e.2) e.2.pl))
      | .error _ => (0, [])) = (1, [2])
    ∧ fine ((answered (launching 0x50000 false) 0).readKernel (head1) 0 0 0) = false := by
  refine ⟨⟨⟨?_, ?_, ?_⟩, ?_, ?_, ?_⟩, ⟨?_, ?_, ?_, ?_, ?_⟩, ?_, ?_⟩ <;> decide +kernel

/-- Kernel 1 with eight free context slots; and at rest, pre-empted, with its slots. -/
def slotted (x : Kernel) : State :=
  srSet (srSet ((((running1 (fire operands)).modNd 0 fun n => { n with invs := [] })).setKern 1 x) 4096 0x063 8) 0 0x0a1 0x20
def preempted : Kernel := { kernel1 with st := .preempting, slots := List.range 8 }

theorem test_preemption :
    (match exec (.managementCorePreemption 1) (slotted kernel1) with
      | .next t => t.kernels.map fun e => (e.2.st, e.2.slots.length)
      | _ => []) = [(.preempting, 8)]
    ∧ (match exec (.contextImageWrite 1) (slotted preempted) with
      | .next t => (t.kernels.map (·.2.st), (Tab.get {} t.queues 0).resume, (t.cl 0).holder, (t.nd 0).st)
      | _ => ([], [], none, .idle)) = ([.saved], [1], none, .unassigned) := by decide +kernel

theorem witness_PreemptionSavesAKernelR400 :
    (slotted kernel1).kern 1 = some kernel1 ∧ 2 ≤ bootStageOf (slotted kernel1) ∧ bootErr (slotted kernel1) = 0 ∧ kernel1.st = .running
    ∧ kernel1.w * kernel1.h ≤ ((slotted kernel1).slotsFree kernel1.part).length
    ∧ (slotted preempted).kern 1 = some preempted ∧ preempted.st = .preempting ∧ (slotted preempted).atRest 1 preempted = true
    ∧ (slotted preempted).slotsFail preempted = false := by
  refine ⟨rfl, ?_, ?_, rfl, ?_, rfl, rfl, ?_, ?_⟩ <;> decide +kernel

/-- The status of record 0 is owed, first tried now or again. -/
def owing (again : Bool) : State :=
  { launching 0x50000 false with now := 5000, queues := [(0, { status := [(0, 3, if again then 1024 else 0)] })] }

theorem test_status :
    (match exec (.statusWordWrite 0) (owing false) with
      | .next t => (memRead t 0x30038 8, memRead t 0x30030 8, lqDone t 0, (Tab.get {} t.queues 0).status.length)
      | _ => (0, 0, 0, 9)) = (3, 1, 1, 0)
    ∧ (match exec (.statusWriteRetry 0) { owing true with tlb := [] } with
      | .next t => (Tab.get {} t.queues 0).status
      | _ => []) = [(0, 3, 6024)] := by decide +kernel

theorem witness_StatusWordsR418 :
    (∀ again, ((Tab.get ({} : LQueue) (owing again).queues 0).status.find? fun e => e.2.2 ≤ (owing again).now && (e.2.2 != 0) = again)
        = some (0, 3, if again then 1024 else 0)
      ∧ sysLoc (owing again) (lqPart (owing again) 0) (lqAsid (owing again) 0) (lqRec (owing again) 0 0) permW = .ok (0x30000, 0))
    ∧ sysLoc { owing true with tlb := [] } 0 0 0x10000 permW = .error .translation := by
  refine ⟨fun a => ?_, ?_⟩
  · cases a <;> decide +kernel
  · decide +kernel

/-! ### The network and the links -/

/-- A packet for cluster 0, whose router is 1 and port 12. -/
def lost : Pending := { cause := .routeRefused, n := 0, ws := 0, age := 0 }
def packet (cls : Nat := 1) (at_ : Nat := 0) (left : Nat := 2) (dst : Nat := 0) : RPkt :=
  { m := { src := 7, dst := dst, cls := cls, body := .notice 5 0 0 0 lost }, at_ := at_, len := 2, inn := 2, last := at_, out := 2 - left }

def router1 (bufs : List (Nat × List RPkt)) (opens : List Nat := []) (now : Nat := 8) : State :=
  { State.reset with routers := [(1, { bufs := bufs, opens := if opens = [] then [] else [(12, opens)] })], now := now }

/-- The flits left at the inputs 3 and 5, and what has left the network. -/
def flits (o : Host.Outcome State Fault Refusal) : List (List Nat) × Nat :=
  match o with
  | .next t => ([3, 5].map fun i => (Tab.get [] (t.router 1).bufs i).map fun h => h.len - h.out, t.inbox.length)
  | _ => ([], 9)

/-- R327: the higher class first; then it goes on, but a waiting packet of a higher class interrupts it. -/
theorem test_egress :
    flits (exec (.egressArbitration 1 12) (router1 [(3, [packet 1]), (5, [packet 2])])) = ([[2], [1]], 0)
    ∧ flits (exec (.egressArbitration 1 12) (router1 [(3, [packet 1]), (5, [packet 1])])) = ([[1], [2]], 0)
    ∧ flits (exec (.egressArbitration 1 12) (router1 [(3, [packet 1 0 1]), (5, [packet 1])] [3])) = ([[], [2]], 1)
    ∧ flits (exec (.egressArbitration 1 12) (router1 [(3, [packet 1 0 1]), (5, [packet 2])] [3])) = ([[1], [1]], 0) := by decide +kernel

theorem test_ageing :
    (match exec (.ageingStep 1 0) (router1 [(3, [packet])] [] 16) with
      | .next t => (Tab.get [] (t.router 1).bufs 3).map (·.cnt)
      | _ => []) = [1] := by decide +kernel

theorem witness_EgressPortsChooseR327 :
    (let s := router1 [(3, [packet 1])]
     Tab.get 0 (s.router 1).last 12 ≤ s.now ∧ Tab.get [] (s.router 1).bufs 3 = packet 1 :: [] ∧ s.goesBy 1 12 3 (packet 1).m = true
      ∧ s.slotOwner 1 12 = none ∧ Tab.get [] (s.router 1).opens 12 = [] ∧ (packet 1).out = 0 ∧ (packet 1).ready s.now = true)
    ∧ (let h := packet 1 0 1
       let s := router1 [(3, [h])] [3]
       Tab.get [] (s.router 1).opens 12 = 3 :: [] ∧ Tab.get [] (s.router 1).bufs 3 = h :: [])
    ∧ Precedes 8 5 3 (packet 2) (packet 1 0 1)
    ∧ (let s := router1 [(3, [packet])] [] 16
       ((s.router 1).heads fun _ _ => true)[0]? = some (3, packet) ∧ packet.cnt < 255 ∧ packet.at_ + 16 * (packet.cnt + 1) ≤ s.now) := by
  refine ⟨⟨?_, ?_, ?_, ?_, ?_, rfl, ?_⟩, ⟨?_, ?_⟩, Or.inr ⟨?_, ?_, Or.inl ?_⟩, ⟨?_, ?_, ?_⟩⟩ <;> decide +kernel

/-- A packet of class 1 of 2048 bytes at the port of cluster 0; the gates are on, and partition 0's level is `l`. -/
def parcel0 : Parcel := { src := 0, dst := 5, cls := 1, n := 2048, body := .notice 5 0 0 0 lost }
def gated (l : Int) : State := { State.reset with ports := [(0, [parcel0])], gates := [(0, { level := l })], gateB := [(0, 1000)] }

theorem test_headgate :
    (match exec (.headgateCharge 0 0) (gated 5) with
      | .next t => ((t.gate 0).level, (Tab.get [] t.ports 0).map (·.paid))
      | _ => (0, [])) = (-11, [1024])
    ∧ exec (.headgateCharge 0 0) (gated 0) = .next (gated 0)
    ∧ (match exec (.headgateCharge 0 0) { gated 0 with gateB := [] } with
      | .next t => ((Tab.get [] t.ports 0).length, (Tab.get [] (t.router 128).bufs 0).length)
      | _ => (9, 9)) = (1, 1) := by
  refine ⟨?_, rfl, ?_⟩ <;> decide +kernel

/-- R352: alone, a demanding partition of share 64 has its quarter of 1000 and what is left. -/
theorem test_refill :
    (match exec (.headgateRefill 0) (srSet (srSet (gated (-11)) 0 0x300 (2 ^ 63 + 64)) 0 0x0c0 1000) with
      | .next t => (t.gate 0).level
      | _ => 0) = 989 := by decide +kernel

theorem witness_HeadgatesMeterPortsR351 :
    (Tab.get [] (gated 5).ports 0).find? (fun m => m.part = 0) = some parcel0 ∧ parcel0.cls < 2 ∧ Tab.get 0 (gated 5).gateB (0 / 96) ≠ 0
    ∧ 1 ≤ ((gated 5).gate 0).level ∧ ((gated 0).gate 0).level < 1 ∧ Tab.get 0 (gated 5).gateWin 0 ≤ (gated 5).now / 1024
    ∧ partValid (srSet (gated 5) 0 0x300 (2 ^ 63 + 64)) 0 = true := by
  refine ⟨rfl, ?_, ?_, ?_, ?_, ?_, ?_⟩ <;> decide +kernel

/-- A flit at the ingress of cluster 0, whose Sluice has LEVEL `l`, DEPTH 4 and RATE 2. -/
def sluiced (l : Nat) : State :=
  srSet { State.reset with routers := [(128, { bufs := [(0, [packet])] })] } 8 0x068 (BitVec.ofNat 64 (l * 2 ^ 32 + 4 * 2 ^ 16 + 2))

theorem test_sluice :
    (match exec (.egressArbitration 128 0) (sluiced 3) with
      | .next t => ((srGet t 8 0x068).toNat / 2 ^ 32, (Tab.get [] (t.router 128).bufs 0).map fun h => h.len - h.out)
      | _ => (0, [])) = (4, [1])
    ∧ (match exec (.egressArbitration 128 0) (sluiced 4) with
      | .next t => ((srGet t 8 0x068).toNat / 2 ^ 32, (Tab.get [] (t.router 128).bufs 0).map fun h => h.len - h.out)
      | _ => (0, [])) = (4, [2])
    ∧ (match exec (.sluiceLeak 0) (sluiced 3) with
      | .next t => ((srGet t 8 0x068).toNat / 2 ^ 32, Tab.get 0 t.sluiceWin 0)
      | _ => (0, 0)) = (1, 1) := by decide +kernel

theorem witness_TheSluiceHoldsFlitsR333 :
    Tab.get [] ((sluiced 3).router 128).bufs 0 = packet :: [] ∧ Tab.get 0 ((sluiced 3).router 128).last 0 ≤ (sluiced 3).now
    ∧ (srGet (sluiced 3) 8 0x068).toNat / 2 ^ 32 % 2 ^ 16 < (srGet (sluiced 3) 8 0x068).toNat / 2 ^ 16 % 2 ^ 16
    ∧ (srGet (sluiced 3) 8 0x068).toNat % 2 ^ 9 ≠ 256
    ∧ (srGet (sluiced 4) 8 0x068).toNat / 2 ^ 16 % 2 ^ 16 ≤ (srGet (sluiced 4) 8 0x068).toNat / 2 ^ 32 % 2 ^ 16
    ∧ (sluiced 4).slotOwner (routerOf 0).1 (egressOf (routerOf 0).1 0) ≠ some (routerOf 0).2
    ∧ Tab.get 0 (sluiced 3).sluiceWin 0 ≤ (sluiced 3).now / 256 := by
  refine ⟨rfl, ?_, ?_, ?_, ?_, ?_, ?_⟩ <;> decide +kernel

/-- Link port 2 is up at full width; chip 9 lies behind it. -/
def linked (l : Link) (inputs : List Input := []) : State :=
  let s : State := { State.reset with links := [(2, l)], inputs := inputs, routers := [(64, { bufs := [(31 * 2 ^ 24 + 2816, [packet 1 0 2 2816])] })] }
  memWrite (srSet s 0 0x082 0xa0ff) (csmKey 18) 0x8002 2

theorem test_link_sends :
    (match exec (.egressArbitration 64 2) (linked { tx := 1023 }) with
      | .next t => ((t.link 2).tx, (t.link 2).retry.map (·.seq), (Tab.get [] (t.router 64).bufs (31 * 2 ^ 24 + 2816)).length)
      | _ => (9, [], 9)) = (0, [1023], 1)
    ∧ (match exec (.egressArbitration 64 2) (linked { replay := 1, retry := [{ seq := 8, ch := 3, pay := 5 }] }) with
      | .next t => ((t.link 2).replay, (t.link 2).wire)
      | _ => (9, none)) = (0, some (linkWord 5 3 0 8)) := by decide +kernel

theorem test_link_receives :
    (match exec (.linkFlitReceive 2) (linked {} [.flit 2 (linkWord 0 0 0 0) none]) with
      | .next t => ((t.link 2).rx, (t.link 2).acks)
      | _ => (9, [])) = (1, [(false, 0)])
    ∧ (match exec (.linkFlitReceive 2) (linked { rx := 4 } [.flit 2 (linkWord 0 0 0 6) none]) with
      | .next t => ((t.link 2).rx, (t.link 2).acks)
      | _ => (9, [])) = (4, [(true, 4)])
    ∧ (match exec (.linkFlitReceive 2) (linked { rx := 4 } [.flit 2 (linkWord 0 0 0 3) none]) with
      | .next t => ((t.link 2).rx, (t.link 2).acks)
      | _ => (9, [])) = (4, [(false, 3)])
    ∧ (match exec (.linkFlitReceive 2) (linked { rx := 4 } [.flit 2 (linkWord 0 0 0 4 ^^^ 1) none]) with
      | .next t => ((t.link 2).rx, (t.link 2).acks)
      | _ => (9, [])) = (4, [(true, 4)]) := by decide +kernel

theorem witness_LinksDeliverInOrderR330 :
    (let s := linked {}
     Tab.get 0 (s.router 64).last 2 ≤ s.now ∧ (pkg s (0x080 + 2)).toNat / 2 ^ 14 % 4 = 2 ∧ (s.link 2).acks = [] ∧ (s.link 2).replay = 0
      ∧ (s.link 2).retry.length < 512 ∧ Tab.get [] (s.router 64).bufs (31 * 2 ^ 24 + 2816) = packet 1 0 2 2816 :: []
      ∧ 512 ≤ (packet 1 0 2 2816).m.dst ∧ fwdPort s (((packet 1 0 2 2816).m.dst - 512) / 256) = some 2
      ∧ (packet 1 0 2 2816).out = 0 ∧ (packet 1 0 2 2816).ready s.now = true ∧ Tab.get [] (s.router 64).opens 2 = [])
    ∧ (let s := linked { rx := 4 } [.flit 2 (linkWord 0 0 0 6) none]
       s.inputs.find? (Input.isFlit 2) = some (.flit 2 (linkWord 0 0 0 6) none) ∧ flitGood (linkWord 0 0 0 6) = true ∧ (s.link 2).rx < 1024
        ∧ (pkg s (0x080 + 2)).toNat / 2 ^ 14 % 4 = 2) := by
  refine ⟨⟨?_, ?_, ?_, ?_, ?_, ?_, ?_, ?_, ?_, ?_, ?_⟩, ⟨?_, ?_, ?_, ?_⟩⟩ <;> decide +kernel

def kept (k : Nat) : LFlit := { seq := k, ch := 0, pay := 0 }
def unacked : Link := { tx := 7, retry := [kept 4, kept 5, kept 6], rx := 2 }

theorem test_link_recovers :
    (match exec (.linkAckReceive 2) (linked unacked [.flit 2 (linkWord 0 0 1 5) none]) with
      | .next t => ((t.link 2).retry.map (·.seq), (t.link 2).replay)
      | _ => ([], 9)) = ([6], 0)
    ∧ (match exec (.linkAckReceive 2) (linked unacked [.flit 2 (linkWord 0 0 2 5) none]) with
      | .next t => ((t.link 2).retry.map (·.seq), (t.link 2).replay)
      | _ => ([], 9)) = ([5, 6], 2)
    ∧ (match exec (.laneFailure 2 3) (linked unacked) with
      | .next t => ((pkg t 0x082).toNat, (t.link 2).replay)
      | _ => (0, 9)) = (0x50f7, 3) := by decide +kernel

theorem test_link_width :
    (match exec (.plannedWidthChange 2 0) (linked unacked) with
      | .next t => (pkg t 0x082).toNat
      | _ => 0) = 0x80ff
    ∧ (match exec (.linkRetrainComplete 2) (srSet (linked unacked) 0 0x082 0x50f7) with
      | .next t => (pkg t 0x082).toNat
      | _ => 0) = 0x90f7 := by decide +kernel

theorem witness_LinksRecoverR332 :
    (linked unacked [.flit 2 (linkWord 0 0 1 5) none]).inputs.find? (Input.isAck 2) = some (.flit 2 (linkWord 0 0 1 5) none)
    ∧ ((linked unacked).link 2).retry = [kept 4] ++ kept 5 :: [kept 6] ∧ (∀ e, e ∈ [kept 4] → e.seq ≠ 5)
    ∧ ((pkg (linked unacked) (0x080 + 2)).toNat % 2 ^ 8).testBit 3 = true ∧ (pkg (linked unacked) (0x080 + 2)).toNat / 2 ^ 14 % 4 = 2
    ∧ ((∀ ch, ch ∈ ((linked unacked).link 2).rxOpen → 3 ≤ ch) ∧ Tab.get [] ((linked unacked).router 64).opens 2 = []) ∧ (pkg (srSet (linked unacked) 0 0x082 0x50f7) (0x080 + 2)).toNat / 2 ^ 14 % 4 = 1 := by
  refine ⟨?_, ?_, ?_, ?_, ?_, ?_, ?_⟩ <;> decide +kernel

/-! ### Power, resets, boot and registers -/

theorem test_heat :
    (match exec (.islandDvfsChange 3 77) State.reset with
      | .next t => Tab.get 0 t.islands 3
      | _ => 0) = 77
    ∧ (match exec (.thermalThrottle (64 * 94)) State.reset with
      | .next t => ((pkg t 0x0a3).toNat, t.sluice.length)
      | _ => (0, 9)) = (64 * 94, 192) := by decide +kernel

theorem test_trip :
    (match exec (.thermalTrip (64 * 115)) (running1 State.reset) with
      | .next t => t.tripped
      | _ => false) = true
    ∧ (match exec (.thermalTrip (64 * 115)) (running1 State.reset) with
      | .next t => (t.kern 1).isNone
      | _ => false) = true := by
  refine ⟨?_, ?_⟩ <;> decide +kernel

theorem witness_HeatAndPowerR425 :
    State.reset.tripped = false ∧ 64 * ((pkg State.reset 0x0a4).toNat / 2 ^ 8 % 2 ^ 8) ≤ 64 * 115 % 65536
    ∧ 64 * ((pkg State.reset 0x0a4).toNat % 2 ^ 8) ≤ 64 * 115 % 65536 := by
  refine ⟨rfl, ?_, ?_⟩ <;> decide +kernel

/-- R419, R420: the status after each level of reset; a partition's own status. -/
theorem test_resets :
    (match exec (.warmReset 2) (booted (running1 State.reset)) with
      | .next t => ((pkg t 0x0a1).toNat, t.kernels.length)
      | _ => (0, 9)) = (0x1210, 0)
    ∧ (match exec (.partitionReset 0 2) (booted (running1 State.reset)) with
      | .next t => ((pkg t 0x0a1).toNat, t.kernels.length, (Tab.get {} t.queues 0).status)
      | _ => (0, 9, [])) = (0x2220, 0, [(0, 7, 0)])
    ∧ (match exec (.sectionAbort 0 0) (booted (running1 State.reset)) with
      | .next t => ((pkg t 0x0a1).toNat, t.kernels.length)
      | _ => (0, 9)) = (0x3220, 0) := by decide +kernel

theorem test_cold :
    (match exec .coldReset (srSet (booted (running1 State.reset)) 0 0x0a6 (BitVec.ofNat 64 (16 * 2 ^ 32 + 3))) with
      | .next t => ((pkg t 0x0a1).toNat, (pkg t 0x0a6).toNat, t.kernels.length)
      | _ => (9, 0, 9)) = (0, 16 * 2 ^ 32 + 16, 0)
    ∧ (match exec .powerFailure (booted (running1 State.reset)) with
      | .next t => t.kernels.length
      | _ => 9) = 0 := by decide +kernel

theorem witness_ResetLevelsR420 :
    mgmtRuns (booted State.reset) = true ∧ (booted State.reset).tripped = false ∧ partPriv (srSet State.reset 0 0x300 (2 ^ 63)) 0 = 0
    ∧ partPriv (srSet State.reset 0 0x300 (2 ^ 61)) 0 = 1
    ∧ (booted (running1 State.reset)).kernels.find? (fun e => e.2.queue = 0 && e.2.recno = 0 && e.2.st != .ended) = some (1, kernel1) := by
  refine ⟨?_, rfl, ?_, ?_, ?_⟩ <;> decide +kernel

theorem test_boot :
    (match exec (.bootStage 0) (srSet (srSet State.reset 0 0x0a1 0x10) 0 0x0a6 (BitVec.ofNat 64 (48 * 2 ^ 32 + 35))) with
      | .next t => ((pkg t 0x0a1).toNat, (pkg t 0x0a6).toNat)
      | _ => (0, 9)) = (0x20, 48 * 2 ^ 32 + 48)
    ∧ (match exec (.bootStage 2) (srSet State.reset 0 0x0a1 0x20) with
      | .next t => (pkg t 0x0a1).toNat
      | _ => 0) = 0x22
    ∧ (match exec (.bootStage 0) (srSet State.reset 0 0x0a1 0x40) with
      | .next t => ((pkg t 0x0a1).toNat, (pkg t 0x087).toNat)
      | _ => (0, 9)) = (0x50, 0x60ff) := by decide +kernel

theorem test_attestation :
    (match exec (.attestationSign 5) (srSet State.reset 0 0x0a1 0x30) with
      | .next t => (pkg t 0x0a6).toNat
      | _ => 0) = 16 * 2 ^ 32 + 1
    ∧ (match exec (.attestationSign 5) (srSet State.reset 0 0x0a1 0x30) with
      | .next t => t.signed.take 1
      | _ => []) = [5] := by
  refine ⟨?_, ?_⟩ <;> decide +kernel

theorem witness_BootAndAttestationR422 :
    bootErr State.reset = 0 ∧ State.reset.tripped = false ∧ bootStageOf State.reset < 6 ∧ 3 ≤ bootStageOf (srSet State.reset 0 0x0a1 0x30)
    ∧ (pkg State.reset 0x0a6).toNat % 2 ^ 21 < 2 ^ 20 ∧ (pkg State.reset 0x0a6).toNat / 2 ^ 32 % 2 ^ 21 ≤ 2 ^ 20 := by
  refine ⟨?_, rfl, ?_, ?_, ?_, ?_⟩ <;> decide +kernel

def written (n : Nat) (o : Host.Outcome State Fault Refusal) : Nat :=
  match o with
  | .next t => (srGet t (if n = 0x063 then 4096 else 0) n).toNat
  | _ => 0

theorem test_registers :
    written 0x0a0 (exec (.registerWrite 1 0x0a0 0x123) (booted State.reset)) = 0x123 ∧ written 0x0a0 (exec (.registerWrite 0 0x0a0 0x123) (booted State.reset)) = 0 ∧ written 0x060 (exec (.registerWrite 1 0x060 0x10a) (booted State.reset)) = 0x0a ∧ written 0x063 (exec (.registerWrite 1 0x063 7) (booted State.reset)) = 7
    ∧ written 0x0a4 (exec (.registerWrite 1 0x0a4 (100 * 256 + 110)) (booted State.reset)) = 100 * 256 + 110 ∧ written 0x0a1 (exec (.registerWrite 1 0x0a1 0) (booted State.reset)) = 0x20 ∧ written 0x0a4 (exec (.registerWrite 1 0x0a4 (20 * 256 + 110)) (booted State.reset)) = (pkg State.reset 0x0a4).toNat := by
  decide +kernel

theorem witness_RegisterWritesR431 :
    agentRuns (booted State.reset) 1 = true ∧ agentRuns State.reset 1 = false ∧ PlainReg 0x0a0 ∧ NeedsM 0x0a0
    ∧ regValueBad (booted State.reset) ((booted State.reset).agent 1) 0x0a0 0x123 = false ∧ (booted State.reset).slotsUsed 0 = []
    ∧ regRO 0x0a1 = true ∧ OfNodeClusterOrDie 0x10 := by
  refine ⟨?_, ?_, by unfold PlainReg; decide, by unfold NeedsM; decide, ?_, ?_, ?_, by unfold OfNodeClusterOrDie; decide⟩ <;> decide +kernel

/-- Partition 0 is a user's. -/
def user (s : State) : State := srSet s 0 0x300 (2 ^ 63)

theorem test_queues :
    (match exec (.lqCfgWrite 0 3 (2 ^ 63 + 7)) (srSet (user State.reset) 0 (lqReg 3 2) 9) with
      | .next t => (lqEn t 3, lqEnt t 3, lqTaken t 3, lqDone t 3)
      | _ => (false, 0, 0, 0)) = (true, 7, 9, 9)
    ∧ (match exec (.lqTailWrite 0 0 4) (queued State.reset) with
      | .next t => lqTail t 0
      | _ => 0) = 4
    ∧ (match exec (.lqTailWrite 0 0 5) (queued State.reset) with
      | .next t => lqTail t 0
      | _ => 9) = 0 := by decide +kernel

theorem witness_LaunchQueuesR291 :
    agentRuns (user State.reset) 0 = true ∧ lqEn (user State.reset) 3 = false ∧ (2 ^ 63 + 7) / 2 ^ 63 = 1 ∧ partPriv (user State.reset) ((2 ^ 63 + 7) / 2 ^ 48 % 2 ^ 6) = 0
    ∧ lqEn (queued State.reset) 0 = true ∧ (4 + 2 ^ 32 - lqDone (queued State.reset) 0) % 2 ^ 32 ≤ lqEnt (queued State.reset) 0 + 1 := by
  refine ⟨?_, ?_, ?_, ?_, ?_, ?_⟩ <;> decide +kernel

theorem test_tables :
    (match exec (.ptCfgWrite 1 2 (2 ^ 63 + 9)) (booted State.reset) with
      | .next t => (pkg t 0x310).toNat
      | _ => 0) = 2 ^ 63 + 9
    ∧ (match exec (.ptCfgWrite 0 2 (2 ^ 63 + 9)) State.reset with
      | .next t => (pkg t 0x310).toNat
      | _ => 0) = 9
    ∧ (match exec (.safeSelWrite 1 0x5a0 (2 ^ 63 + 7)) (srSet (booted State.reset) 0 0x5a1 44) with
      | .next t => ((pkg t 0x5a0).toNat, (pkg t 0x5a1).toNat)
      | _ => (0, 9)) = (2 ^ 63 + 7, 0) := by decide +kernel

/-- One entry of port 0's table is for slot 5, from input 3 to port 2; a second one with the same slot and output refuses the table. -/
theorem test_slot_tables :
    (match exec (.slSlotBaseWrite 1 0) (memWrite (memWrite (booted State.reset) (csmKey 0) 1 8) (csmKey 64) (5 * 2 ^ 56 + 3 * 2 ^ 51 + 2 * 2 ^ 46) 8) with
      | .next t => ((t.link 0).tabNew.map fun e => (e.1, e.2.length), (pkg t 0x080).toNat / 2 ^ 8 % 2)
      | _ => (none, 9)) = (some (256, 1), 0) := by decide +kernel

theorem witness_TablesAreLoadedR329 :
    agentRuns (booted State.reset) 1 = true ∧ (pkg (booted State.reset) 0x0ca).toNat % 2 ^ 6 = 0
    ∧ Memory.wf (booted State.reset).mem = true
    ∧ (∀ c, c < 4096 → ((List.range 256).filter fun k => chipBit (booted State.reset) 0 k c).length ≤ 4)
    ∧ (booted State.reset).memx.bad = []
    ∧ (pkg (booted State.reset) 0x5a0).toNat / 2 ^ 63 = 0 := by
  refine ⟨?_, ?_, ?_, fun c _ => ?_, rfl, ?_⟩
  case refine_4 =>
    have : ((List.range 256).filter fun k => chipBit (booted State.reset) 0 k c) = [] := by
      apply List.filter_eq_nil_iff.mpr
      intro k _
      show ¬ (memGet (booted State.reset) (csmKey (0 + 512 * k + c / 8))).getLsbD (c % 8) = true
      rw [show memGet (booted State.reset) (csmKey (0 + 512 * k + c / 8)) = 0 from rfl]
      simp
    rw [this]; simp
  all_goals decide +kernel

theorem test_host_memory :
    (match exec (.hostBar2Read 0x1000 2) (memWrite State.reset 0x1000 0x1234 2) with
      | .next t => t.bar2
      | _ => none) = some [0x34, 0x12]
    ∧ (match exec (.hostBar2Read 64000000000 2) State.reset with
      | .next t => t.bar2
      | _ => some []) = none
    ∧ (match exec (.hostBar2Write 0x1000 2 0x1234) State.reset with
      | .next t => memRead t 0x1000 4
      | _ => 0) = 0x1234 := by decide +kernel

theorem witness_TheHostReachesMemoryR416 :
    keyHeld State.reset (some 0) = false ∧ (∀ i, i < 2 → 0x1000 + i < 2 ^ 46 ∧ memKind State.reset (0x1000 + i) = some .hbm)
    ∧ (∀ i, i < 2 → badAt State.reset (0x1000 + i) = false ∧ reservedBy State.reset (0x1000 + i) (2 ^ 30) 0 = false)
    ∧ (∀ i, i < 2 → Tab.get none State.reset.memx.gkey (granule (0x1000 + i)) = slotMaterial State.reset 0)
    ∧ memKind State.reset 64000000000 = none := by
  refine ⟨?_, ?_, ?_, ?_, ?_⟩ <;> decide +kernel

/-! ### The step -/

/-- Nothing but CONST 5 is placed; it sends to element 96. -/
def placed : State := State.reset.withFetchWord 96 (5 * 2 ^ 64 + 0x020E700000000000)
def placedSet : Ready := { pl := 0, ix := 0, ws := 0, it := 0 }

/-- Cluster 0's unit holds one command, and its turn is next. -/
def unitTurn : State := { working flfree with sched := { agenda := [.unit 0 (unitOf flfree.op flfree.w) 0 0] } }

/-- The interface of node 0 holds one load, and its turn is next. -/
def accessTurn : State := { interface load with sched := { agenda := [.release 0 0 0] } }

def answers (o : Host.Outcome State Fault Refusal) : Bool :=
  match o with
  | .next t => !t.sched.cur.any (·.wait)
  | _ => false

theorem answers_ok {o : Host.Outcome State Fault Refusal} (h : answers o = true) : ∃ t, o = .next t ∧ t.sched.cur.any (·.wait) = false := by
  cases o with
  | next t => exact ⟨t, rfl, by simpa [answers] using h⟩
  | fault => cases h
  | refused => cases h

/-- The operand set has left the ready queue, and is being run. -/
def running5 : State :=
  let s' := { placed with sched := { placed.sched with agenda := [] } }.dropReady 0 placedSet
  { s' with sched := { s'.sched with cur := some (placedSet.issue 0) } }

def const5 : Instr := .const { word .i64 (.slot 96 .l) with imm := .lit64 5 }

/-- R50: the word is fetched from the element's context and its result is in the cluster's input; the set is gone. -/
theorem test_step :
    (match step placed with
      | .next t => ((t.cl 0).ready.length, (t.cl 0).input.map (·.o.val), t.sched.agenda.length, t.sched.cur.isNone)
      | _ => (9, [], 9, false)) = (0, [.sc 5], 0, true) := by decide +kernel

theorem witness_StepRunsIssuedInstruction :
    placed.sched.agenda = .issue 0 0 :: [] ∧ ((placed.cl 0).ready.filter fun r => r.ix = 0) = placedSet :: [] ∧ placed.live (nkOf 0 0) = true
    ∧ (placed.cl 0).ctxErr.contains (0 * 128 + 0) = false ∧ Tab.find (placed.cl 0).ctx (0 * 128 + 0) = some { word := 0x020E700000000000, lit := 5 }
    ∧ decodeWord 0x020E700000000000 5 = .ok const5 ∧ placed.roomFor (nkOf 0 0) const5 = true
    ∧ ∃ t, exec const5 running5 = .next t ∧ t.sched.cur.any (·.wait) = false := by
  refine ⟨?_, ?_, ?_, ?_, ?_, ?_, ?_, answers_ok ?_⟩ <;> decide +kernel

theorem witness_StepRunsEventsAndPerformers :
    (let s : State := { State.reset with sched := { agenda := [.event (.islandDvfsChange 3 77)] } }
     s.sched.agenda = .event (.islandDvfsChange 3 77) :: [] ∧ ∃ t, exec (.islandDvfsChange 3 77) { s with sched := { s.sched with agenda := [], cur := none } } = .next t)
    ∧ (workable (unitOf flfree.op flfree.w) (unitTurn.unit 0 (unitOf flfree.op flfree.w)))[0]? = some flfree
    ∧ unitTurn.heldKern flfree.kernel = false
    ∧ (accessTurn.nd (nkOf 0 0)).mif[0]? = some load ∧ ((accessTurn.nd (nkOf 0 0)).kernel.map accessTurn.heldKern).getD false = false := by
  refine ⟨⟨rfl, _, rfl⟩, ?_, ?_, ?_, ?_⟩ <;> decide +kernel

/-- A step keeps the form of memory: a store is performed. -/
theorem witness_MemoryStaysCanonical :
    Canonical { placed with sched := { agenda := [.advance 8] } } ∧ ∃ t, step { placed with sched := { agenda := [.advance 8] } } = .next t :=
  ⟨by unfold Canonical; decide +kernel, _, rfl⟩

theorem witness_UnassignedOpcodesAreRefusedR66 : subsAssigned (0xE5 * 2 ^ 56 / 2 ^ 56 % 256) ≤ (0xE5 * 2 ^ 56 + 2 ^ 21) / 2 ^ 20 % 16 := by decide

theorem witness_PatternElementsR149 : ∃ (p : V512) (a : Nat), patElem p 0 0 = some a ∧ patSpc p ≠ 4 := by
  have h : patSpc (pattern4 0x1000) ≠ 4 ∧ (patElem (pattern4 0x1000) 0 0).isSome = true := by decide +kernel
  obtain ⟨a, ha⟩ := Option.isSome_iff_exists.mp h.2
  exact ⟨_, a, ha, h.1⟩

theorem witness_RoutesReachTheirPlaceR322 : (3 : Nat) / 32 = (routerOf 7).1 / 32 ∧ (3 : Nat) % 8 ≠ (routerOf 7).1 % 8 := by decide

/-- The one key of the store's one binding may be selected. -/
theorem witness_QueriesSelectTheBestKeysR262 :
    ((candidates ((stored State.reset).kms 0 0) { row := [], pos := 9, head := 0, a := 31 }).1.map (·.x)) = [0]
    ∧ (2 : Nat) ^ 3 ≤ 9 ∧ (9 : Nat) < 2 ^ (3 + 1) := by decide +kernel
end Sys2Proof.Tests
end

