-- ==== Sys2Proof/Proofs/MemoryFrame.lean ====
section
/-!
SUPPORT. The operations that leave memory as it is: one lemma each, in the order of the model, whose
files the headings name. A fold of such a step leaves it alone as well (`foldl_mem`).
-/

namespace Sys2Proof.Machine

/-- A step that a fold repeats leaves memory alone. -/
def KeepsMem {α : Type} (f : State → α → State) : Prop := ∀ s a, (f s a).mem = s.mem

@[simp] theorem keepsMem_iff {α : Type} (f : State → α → State) : KeepsMem f ↔ ∀ s a, (f s a).mem = s.mem := Iff.rfl
@[simp] theorem foldl_mem {α : Type} (f : State → α → State) (l : List α) (s : State) (hf : KeepsMem f) :
    (l.foldl f s).mem = s.mem := foldl_keeps State.mem f hf l s
@[simp] theorem ite_mem (c : Prop) [Decidable c] (a b : State) : (if c then a else b).mem = if c then a.mem else b.mem :=
  apply_ite State.mem c a b

/-! ### Ops -/

@[simp] theorem setNodeReg_mem (s : State) (nk n : Nat) (v : W64) : (setNodeReg s nk n v).mem = s.mem := rfl
@[simp] theorem countAt_mem (s : State) (part : Nat) (copies : List Nat) (ev amt : Nat) :
    (countAt s part copies ev amt).mem = s.mem := by simp [countAt]
@[simp] theorem countEvent_mem (s : State) (part c ev amt : Nat) : (countEvent s part c ev amt).mem = s.mem := by simp [countEvent]
@[simp] theorem State.modKern_mem (s : State) (k : Nat) (f : Kernel → Kernel) : (s.modKern k f).mem = s.mem := by
  unfold State.modKern; split <;> rfl
@[simp] theorem State.engFaultOf_mem (s : State) (nk : Nat) (f : Pending) : (s.engFaultOf nk f).mem = s.mem := by
  unfold State.engFaultOf; split <;> simp
@[simp] theorem State.formRecord_mem (s : State) (nk : Nat) (f : Pending) (rst blk : Nat) :
    (s.formRecord nk f rst blk).mem = s.mem := by simp [State.formRecord]
@[simp] theorem State.poolReturn_mem (s : State) (nk t : Nat) : (s.poolReturn nk t).mem = s.mem := rfl
@[simp] theorem State.untag_mem (s : State) (nk : Nat) (v : Inv) : (s.untag nk v).mem = s.mem := by simp [State.untag]
@[simp] theorem State.outAdd_mem (s : State) (nk gn : Nat) : (s.outAdd nk gn).mem = s.mem := rfl
@[simp] theorem State.outSub_mem (s : State) (nk gn : Nat) : (s.outSub nk gn).mem = s.mem := rfl
@[simp] theorem State.dropReplies_mem (s : State) (c : Nat) (ts : List Tok) : (s.dropReplies c ts).mem = s.mem := by
  simp [State.dropReplies]
@[simp] theorem State.discardFrom_mem (s : State) (nk a : Nat) : (s.discardFrom nk a).mem = s.mem := by simp [State.discardFrom]
@[simp] theorem State.dropEarly_mem (s : State) (nk : Nat) (count : Bool) : (s.dropEarly nk count).mem = s.mem := by
  simp [State.dropEarly]
@[simp] theorem State.takeFault_mem (s : State) (nk : Nat) : (s.takeFault nk).mem = s.mem := by
  unfold State.takeFault; dsimp only; split
  · rfl
  · rw [State.modNd_mem, State.formRecord_mem]; simp
@[simp] theorem State.resumeNode_mem (s : State) (nk : Nat) (skip : Bool) : (s.resumeNode nk skip).mem = s.mem := rfl

/-! ### Operands -/

@[simp] theorem State.finish_mem (s : State) (i : Issue) (v : Inv) (op : Op) (w : GWord) (st : Status) (a : GRes) :
    (s.finish i v op w st a).mem = s.mem := by unfold State.finish; split <;> simp

/-! ### Xlate -/

@[simp] theorem readUnder_fst (s : State) (k n : Nat) (slot : Option Nat) : (readUnder s k n slot).1 = s := by
  unfold readUnder; split
  · rfl
  · dsimp only; split <;> rfl
@[simp] theorem State.fillTlb_mem (s : State) (hs : List Nat) (part asid va : Nat) : (s.fillTlb hs part asid va).mem = s.mem := by
  unfold State.fillTlb; split <;> simp
@[simp] theorem State.putKbtb_mem (s : State) (c part seq b loc : Nat) : (s.putKbtb c part seq b loc).mem = s.mem := by
  simp [State.putKbtb]
@[simp] theorem State.fillKbtb_mem (s : State) (c part seq b : Nat) : (s.fillKbtb c part seq b).mem = s.mem := by
  unfold State.fillKbtb; split <;> simp
@[simp] theorem State.touch_mem (s : State) (p : Party) (asp : Asp) (addr : Nat) : (s.touch p asp addr).mem = s.mem := by
  unfold State.touch; dsimp only; repeat' split
  all_goals simp

/-! ### KvLoad -/

@[simp] theorem State.nvAsk_mem (s : State) (q cid part : Nat) (ps : List (Nat × Nat × Nat × Nat)) (w : Option (List Byte)) :
    (s.nvAsk q cid part ps w).mem = s.mem := by simp [State.nvAsk]
@[simp] theorem State.kvSend_mem (s : State) (id : Nat) (l : KvLoad) (chip va : Nat) (perm : Option Nat)
    (fwd : Nat) (ask : Ask) (op : Op) (b b2 : Nat) :
    (s.kvSend id l chip va perm fwd ask op b b2).mem = s.mem := by simp [State.kvSend]
@[simp] theorem State.kvFail_mem (s : State) (part seq b : Nat) (c : Cause) (aux x : Nat) :
    (s.kvFail part seq b c aux x).mem = s.mem := by simp [State.kvFail]
@[simp] theorem State.kvSet_mem (s : State) (id : Nat) (l : KvLoad) : (s.kvSet id l).mem = s.mem := rfl
@[simp] theorem State.kvStop_mem (s : State) (id : Nat) (l : KvLoad) (c : Cause) (a : Nat) : (s.kvStop id l c a).mem = s.mem := rfl
@[simp] theorem State.kvWake_mem (s : State) (part seq b : Nat) : (s.kvWake part seq b).mem = s.mem := rfl
@[simp] theorem State.kvDone_mem (s : State) (id : Nat) (l : KvLoad) (swapped : Bool) : (s.kvDone id l swapped).mem = s.mem := by
  unfold State.kvDone; split <;> simp

/-! ### Mem -/

@[simp] theorem State.accTouch_mem (s : State) (nk : Nat) (a : Acc) : (s.accTouch nk a).mem = s.mem := by simp [State.accTouch]
@[simp] theorem State.accReply_mem (s : State) (nk : Nat) (a : Acc) (v : Val) : (s.accReply nk a v).mem = s.mem := by
  unfold State.accReply; split <;> simp
@[simp] theorem State.accDone_mem (s : State) (nk : Nat) (a : Acc) : (s.accDone nk a).mem = s.mem := by simp [State.accDone]
@[simp] theorem State.pruneAccs_mem (s : State) (nk : Nat) : (s.pruneAccs nk).mem = s.mem := rfl
@[simp] theorem State.addAcc_mem (s : State) (nk : Nat) (a : Acc) : (s.addAcc nk a).mem = s.mem := rfl
@[simp] theorem State.sendPieces_mem (s : State) (nk : Nat) (a : Acc) (ps : List Piece) : (s.sendPieces nk a ps).mem = s.mem := by
  unfold State.sendPieces
  exact foldl_mem _ _ _ fun s j => by split <;> simp
@[simp] theorem State.goWrite_mem (s : State) (nk : Nat) (a : Acc) : (s.goWrite nk a).mem = s.mem := by simp [State.goWrite]
@[simp] theorem State.semMet_mem (s : State) (nk : Nat) (a : Acc) : (s.semMet nk a).mem = s.mem := by simp [State.semMet]

/-! ### MemAt -/

@[simp] theorem State.unreserve_mem (s : State) (nk id : Nat) : (s.unreserve nk id).mem = s.mem := rfl
@[simp] theorem State.dropAhead_mem (s : State) (nk k : Nat) : (s.dropAhead nk k).mem = s.mem := rfl
@[simp] theorem State.readDone_mem (s : State) (nk : Nat) (a : Acc) : (s.readDone nk a).mem = s.mem := by simp [State.readDone]
@[simp] theorem State.staleReply_mem (s : State) (nk : Nat) : (s.staleReply nk).mem = s.mem := by simp [State.staleReply]
@[simp] theorem State.accLost_mem (s : State) (nk : Nat) (a : Acc) (c : Cause) (aux va : Nat) (chip : Option Nat) :
    (s.accLost nk a c aux va chip).mem = s.mem := by simp [State.accLost]
@[simp] theorem State.farHold_mem (s : State) (r : Rreq) (pa slot : Nat) :
    (s.farHold r pa slot).mem = s.mem := by simp [State.farHold]
@[simp] theorem State.farFree_mem (s : State) (r : Rreq) : (s.farFree r).mem = s.mem := rfl
@[simp] theorem State.rreqTell_mem (s : State) (at_ : Nat) (r : Rreq) (v : Nat) (bad : Option (Cause × Nat × Nat)) :
    (s.rreqTell at_ r v bad).mem = s.mem := by simp [State.rreqTell]
@[simp] theorem State.cmdAnswer_mem (s : State) (c id j v : Nat) (bad : Option (Cause × Nat × Nat)) (chip : Nat) :
    (s.cmdAnswer c id j v bad chip).mem = s.mem := rfl

/-! ### Barrier -/

@[simp] theorem State.arrive_mem (s : State) (i : Issue) (v : Inv) (w : GWord) :
    (s.arrive i v w).mem = s.mem := by simp [State.arrive]
@[simp] theorem State.barSend_mem (s : State) (nk : Nat) (b : BarWait) (num : Nat) : (s.barSend nk b num).mem = s.mem := by
  unfold State.barSend; dsimp only; repeat' split
  all_goals simp
@[simp] theorem State.barWaitFor_mem (s : State) (i : Issue) (v : Inv) (w : GWord) (arr : Nat × Nat) (ep : Option Nat) :
    (s.barWaitFor i v w arr ep).mem = s.mem := by unfold State.barWaitFor; split <;> simp

/-! ### Engine -/

@[simp] theorem State.semApply_mem (s : State) (c k amt : Nat) (set flag : Bool) : (s.semApply c k amt set flag).mem = s.mem := by
  unfold State.semApply; dsimp only
  rw [foldl_mem]
  · simp
  · exact fun s e => foldl_mem _ _ _ fun s a => by split <;> simp
@[simp] theorem State.reserve_mem (s : State) (nk q k : Nat) : (s.reserve nk q k).1.mem = s.mem := rfl
@[simp] theorem State.carryTok_mem (s : State) (nk to_ : Nat) (t : Tok) :
    (s.carryTok nk to_ t).mem = s.mem := by simp [State.carryTok]
@[simp] theorem State.deliverQ_mem (s : State) (nk q : Nat) : (s.deliverQ nk q).mem = s.mem := by
  unfold State.deliverQ; split
  · rfl
  · exact foldl_mem _ _ _ fun s t => by split <;> simp
@[simp] theorem State.fillPlace_mem (s : State) (nk q place : Nat) (kd : Kd) (o : Opnd) :
    (s.fillPlace nk q place kd o).mem = s.mem := by simp [State.fillPlace]
@[simp] theorem State.fillOwn_mem (s : State) (m : Cmd) (o : Opnd) : (s.fillOwn m o).mem = s.mem := by
  unfold State.fillOwn; split <;> simp
@[simp] theorem State.fillRest_mem (s : State) (m : Cmd) : (s.fillRest m).mem = s.mem := by unfold State.fillRest; split <;> simp
@[simp] theorem State.failCmd_mem (s : State) (c u : Nat) (m : Cmd) (f : Pending) : (s.failCmd c u m f).mem = s.mem := by
  simp [State.failCmd]
@[simp] theorem State.failWith_mem (s : State) (c u : Nat) (m : Cmd) (cz : Cause) (aux va spc : Nat) :
    (s.failWith c u m cz aux va spc).mem = s.mem := by simp [State.failWith]
@[simp] theorem State.signalCmd_mem (s : State) (c u : Nat) (m : Cmd) : (s.signalCmd c u m).mem = s.mem := by
  unfold State.signalCmd; repeat' split
  all_goals simp
@[simp] theorem State.engAsk_mem (s : State) (c : Nat) (m : Cmd) (addr j : Nat) (write : Option Nat) (p : Piece) :
    (s.engAsk c m addr j write p).mem = s.mem := by simp [State.engAsk]
@[simp] theorem State.holdTr_mem (s : State) (c u : Nat) (m : Cmd) (pat : V512) (a : Nat) : (s.holdTr c u m pat a).mem = s.mem := by
  unfold State.holdTr; dsimp only; repeat' split
  all_goals simp
@[simp] theorem State.issueCmd_mem (s : State) (c u : Nat) (m0 : Cmd) : (s.issueCmd c u m0).mem = s.mem := by
  unfold State.issueCmd; dsimp only; repeat' split
  all_goals simp
@[simp] theorem State.psetIssue_mem (s : State) (c : Nat) (m : Cmd) : (s.psetIssue c m).mem = s.mem := by simp [State.psetIssue]

/-! ### Flume -/

@[simp] theorem State.flPost_mem (s : State) (c part chip dc cls n : Nat) (b : Msg) :
    (s.flPost c part chip dc cls n b).mem = s.mem := by simp [State.flPost]
@[simp] theorem flopenWork_mem (i : Issue) (m : Cmd) (s : State) : (flopenWork i m s).mem = s.mem := by simp [flopenWork]
@[simp] theorem flfreeWork_mem (i : Issue) (m : Cmd) (s : State) : (flfreeWork i m s).mem = s.mem := by
  unfold flfreeWork; dsimp only; split <;> simp
@[simp] theorem flcloseWork_mem (i : Issue) (m : Cmd) (s : State) : (flcloseWork i m s).mem = s.mem := by
  unfold flcloseWork; dsimp only; split <;> simp
@[simp] theorem State.noticeArrive_mem (s : State) (c : Nat) (b : Msg) : (s.noticeArrive c b).mem = s.mem := by
  unfold State.noticeArrive; split <;> rfl

/-! ### Fabric -/

@[simp] theorem tsendWork_mem (i : Issue) (m : Cmd) (s : State) : (tsendWork i m s).mem = s.mem := by
  unfold tsendWork; dsimp only; repeat' split
  all_goals simp
@[simp] theorem State.tell_mem (s : State) (c part chip dc id j : Nat) (bad : Option (Cause × Nat × Nat)) :
    (s.tell c part chip dc id j bad).mem = s.mem := by simp [State.tell]
@[simp] theorem State.tellRouted_mem (s : State) (c : Nat) (r : Routed) : (s.tellRouted c r).mem = s.mem := by
  unfold State.tellRouted; split <;> simp
@[simp] theorem State.deliverRouted_mem (s : State) (c : Nat) : (s.deliverRouted c).mem = s.mem := by
  unfold State.deliverRouted
  refine foldl_mem _ _ _ fun s r => ?_
  dsimp only; split
  · rfl
  · split <;> simp
@[simp] theorem State.tokArrive_mem (s : State) (c part : Nat) (b : Msg) : (s.tokArrive c part b).mem = s.mem := by
  unfold State.tokArrive; split <;> simp
@[simp] theorem wopenWork_mem (i : Issue) (m : Cmd) (s : State) : (wopenWork i m s).mem = s.mem := by simp [wopenWork]
@[simp] theorem wcloseWork_mem (i : Issue) (m : Cmd) (s : State) : (wcloseWork i m s).mem = s.mem := by simp [wcloseWork]
@[simp] theorem State.dlvEnd_mem (s : State) (c part n : Nat) :
    (s.dlvEnd c part n).mem = s.mem := by unfold State.dlvEnd; split <;> simp
@[simp] theorem State.dlvRefuse_mem (s : State) (c part n : Nat) : (s.dlvRefuse c part n).mem = s.mem := by
  unfold State.dlvRefuse; split <;> simp
@[simp] theorem State.dlvAnswer_mem (s : State) (c n : Nat) (bad : Bool) :
    (s.dlvAnswer c n bad).mem = s.mem := by simp [State.dlvAnswer]
@[simp] theorem State.finishDisp_mem (s : State) (c u : Nat) (m : Cmd) :
    (s.finishDisp c u m).mem = s.mem := by simp [State.finishDisp]
@[simp] theorem rreadWork_mem (i : Issue) (m : Cmd) (s : State) : (rreadWork i m s).mem = s.mem := by simp [rreadWork]
@[simp] theorem State.rreadStep_mem (s : State) (r : Rread) : (s.rreadStep r).1.mem = s.mem := by
  unfold State.rreadStep; extract_lets r' send report next
  have hsend (s : State) (bs : Option (List Byte)) : (send s bs).mem = s.mem := State.postAll_mem ..
  have hreport (s : State) (j : Nat) (bad : Option (Cause × Nat × Nat)) : (report s j bad).mem = s.mem := State.tell_mem ..
  have hnext (s : State) (bad : Bool) : (next s bad).1.mem = s.mem := by
    dsimp only [next]; split
    · split
      · exact hreport ..
      · rfl
    · rfl
  split
  · rfl
  · split
    · rw [hnext, hsend]
    · dsimp only; split
      · rw [hnext, hsend, hreport]
      · rw [hnext, State.post_mem]
      · split
        · rw [hnext, hsend, hreport]
        · rw [hnext, hsend, readUnder_fst]
@[simp] theorem State.rreadStop_mem (s : State) (chip c id j : Nat) : (s.rreadStop chip c id j).mem = s.mem := rfl
@[simp] theorem State.rackArrive_mem (s : State) (c id j : Nat) (bad : Option (Cause × Nat × Nat)) (chip : Nat) :
    (s.rackArrive c id j bad chip).mem = s.mem := by
  unfold State.rackArrive; repeat' split
  all_goals simp

/-! ### Kv -/

@[simp] theorem kvinvWork_mem (i : Issue) (m : Cmd) (s : State) : (kvinvWork i m s).mem = s.mem := by simp [kvinvWork]
@[simp] theorem State.kvinvStep_mem (s : State) (c part : Nat) (b : Msg) : (s.kvinvStep c part b).1.mem = s.mem := by
  unfold State.kvinvStep; split
  · dsimp only; split <;> simp
  · split <;> simp
  · rfl
@[simp] theorem State.nvEnded_mem (s : State) (c id : Nat) (bad : Option NvBad) : (s.nvEnded c id bad).mem = s.mem := rfl
@[simp] theorem State.nvTell_mem (s : State) (v : NvCmd) (bad : Option NvBad) : (s.nvTell v bad).mem = s.mem := by
  unfold State.nvTell; repeat' split
  all_goals simp

/-! ### Coll -/

@[simp] theorem State.collDrop_mem (s : State) (c : Nat) (m : Cmd) (data : Bool) : (s.collDrop c m data).mem = s.mem := rfl
@[simp] theorem State.collSend_mem (s : State) (c : Nat) (m : Cmd) (bs : Option (List Byte)) : (s.collSend c m bs).mem = s.mem := by
  simp [State.collSend]
@[simp] theorem State.collFail_mem (s : State) (m : Cmd) : (s.collFail m).mem = s.mem := rfl
@[simp] theorem collLost_mem (i : Issue) (m : Cmd) (f : Pending) (s : State) : (collLost i m f s).mem = s.mem := by simp [collLost]
@[simp] theorem State.collCombine_mem (s : State) (c : Nat) (m : Cmd) :
    (s.collCombine c m).mem = s.mem := by simp [State.collCombine]
@[simp] theorem State.collRun_mem (s : State) (c : Nat) : (s.collRun c).mem = s.mem := by
  unfold State.collRun; split
  · rfl
  · dsimp only; split
    · split
      · rfl
      · split <;> simp
    · split
      · rfl
      · exact foldl_mem _ _ _ fun s e => by split <;> simp

/-! ### Matrix -/

@[simp] theorem State.modArr_mem (s : State) (c : Nat) (f : Array → Array) : (s.modArr c f).mem = s.mem := rfl
@[simp] theorem State.arrFail_mem (s : State) (c u : Nat) (m : Cmd) (f : Pending) (row : Option Nat) :
    (s.arrFail c u m f row).mem = s.mem := by simp [State.arrFail]
@[simp] theorem arrLost_mem (i : Issue) (m : Cmd) (f : Pending) (s : State) : (arrLost i m f s).mem = s.mem := by simp [arrLost]
@[simp] theorem State.enqueue_mem (s : State) (nk q : Nat) (o : Opnd) (kd : Kd) : (s.enqueue nk q o kd).mem = s.mem := by
  unfold State.enqueue State.reserve; simp
@[simp] theorem State.wloadIssue_mem (s : State) (c : Nat) : (s.wloadIssue c).mem = s.mem := by
  unfold State.wloadIssue; repeat' split
  all_goals simp
@[simp] theorem wloadWork_mem (i : Issue) (m : Cmd) (s : State) : (wloadWork i m s).mem = s.mem := by
  unfold wloadWork; repeat' split
  all_goals simp
@[simp] theorem wswapWork_mem (i : Issue) (m : Cmd) (s : State) : (wswapWork i m s).mem = s.mem := by simp [wswapWork]
@[simp] theorem State.tileCommit_mem (s : State) (c : Nat) :
    (s.tileCommit c).mem = s.mem := by unfold State.tileCommit; split <;> rfl
@[simp] theorem mzeroWork_mem (i : Issue) (m : Cmd) (s : State) : (mzeroWork i m s).mem = s.mem := rfl
@[simp] theorem mstatWork_mem (i : Issue) (m : Cmd) (s : State) : (mstatWork i m s).mem = s.mem := by simp [mstatWork]

/-! ### Reduce -/

@[simp] theorem State.setRed_mem (s : State) (nk ix n : Nat) (r : Red) : (s.setRed nk ix n r).mem = s.mem := rfl

/-! ### KeyMatch -/

@[simp] theorem State.modKms_mem (s : State) (c st : Nat) (f : Kms → Kms) : (s.modKms c st f).mem = s.mem := rfl
@[simp] theorem State.kmsDone_mem (s : State) (m : Cmd) (c0 st : Nat) (bad : Option Pending) :
    (s.kmsDone m c0 st bad).mem = s.mem := rfl
@[simp] theorem State.kmsOut_mem (s : State) (c st : Nat) (o : KOut) : (s.kmsOut c st o).mem = s.mem := rfl
@[simp] theorem State.kmsFail_mem (s : State) (c st : Nat) (m : Cmd) (j c0 : Nat) (cfg : V512) (f : Pending) (ns : Bool) :
    (s.kmsFail c st m j c0 cfg f ns).mem = s.mem := rfl
@[simp] theorem State.kmsQuery_mem (s : State) (c st : Nat) (m : Cmd) (j c0 : Nat) (q : Query) (rd : Nat → Nat → Nat) :
    (s.kmsQuery c st m j c0 q rd).mem = s.mem := by simp [State.kmsQuery]
@[simp] theorem State.kmsScore_mem (s : State) (c st : Nat) (m : Cmd) (j c0 : Nat) (row : Option (List Byte)) (t : Option KScore) :
    (s.kmsScore c st m j c0 row t).1.mem = s.mem := by
  unfold State.kmsScore; dsimp only; split
  · split <;> simp
  · split
    · split
      · simp
      · split <;> simp
    · split <;> simp
@[simp] theorem State.kmsTake_mem (s : State) (c st j c0 : Nat) (m : Cmd) (cfg : V512) :
    (s.kmsTake c st j c0 m cfg).mem = s.mem := by
  unfold State.kmsTake; dsimp only
  split
  · split <;> simp
  · split
    case h_6 => split <;> simp
    all_goals simp
theorem State.kmsArrive_mem {s : State} {c st j c0 : Nat} {m : Cmd} {row : Option (List Byte)} {cfg : V512} {t : Option KScore}
    {x : State × Option KScore} (h : s.kmsArrive c st j c0 m row cfg t = some x) : x.1.mem = s.mem := by
  unfold State.kmsArrive at h
  split at h
  · cases h
  · split at h <;> cases h
    · exact State.kmsScore_mem ..
    · exact State.kmsTake_mem ..
@[simp] theorem State.kmsSend_mem (s : State) (c st : Nat) (m : Cmd) (d : Nat) (o : KOut) : (s.kmsSend c st m d o).mem = s.mem := by
  unfold State.kmsSend; repeat' split
  all_goals simp
@[simp] theorem kmsWork_mem (i : Issue) (m : Cmd) (s : State) : (kmsWork i m s).mem = s.mem := by
  unfold kmsWork; dsimp only; repeat' split
  all_goals simp

/-! ### Plumb -/

@[simp] theorem State.forward_mem (s : State) (i : Issue) (w : GWord) (o : Opnd) : (s.forward i w o).mem = s.mem := by
  simp [State.forward]
@[simp] theorem State.exitTo_mem (s : State) (i : Issue) (v : Inv) (op : Op) (call : Bool) (d : Option Nat) :
    (s.exitTo i v op call d).mem = s.mem := by simp [State.exitTo]
@[simp] theorem State.binv_mem (s : State) (c : Nat) (pk : Bool) (a : Option Nat) :
    (s.binv c pk a).mem = s.mem := by simp [State.binv]

/-! ### Dir -/

@[simp] theorem State.poolTake_mem (s : State) (nk : Nat) (sp : Spawn) : (s.poolTake nk sp).mem = s.mem := rfl
@[simp] theorem State.toMonitor_mem (s : State) (id : Nat) :
    (s.toMonitor id).mem = s.mem := by unfold State.toMonitor; split <;> rfl
@[simp] theorem State.recMeets_mem (s : State) (id : Nat) (b : NameB) : (s.recMeets id b).mem = s.mem := by
  unfold State.recMeets; split <;> simp
@[simp] theorem State.addWait_mem (s : State) (key : Nat) (w : WaitFor) : (s.addWait key w).mem = s.mem := rfl
@[simp] theorem State.modObj_mem (s : State) (id : Nat) (f : Obj → Obj) : (s.modObj id f).mem = s.mem := by
  unfold State.modObj; split <;> rfl
@[simp] theorem State.modNamed_mem (s : State) (c id : Nat) (f : Cmd → Cmd) : (s.modNamed c id f).mem = s.mem := by
  unfold State.modNamed; repeat' split
  all_goals simp
@[simp] theorem State.failNamed_mem (s : State) (c : Nat) (m : Cmd) (cz : Cause) : (s.failNamed c m cz).mem = s.mem := by
  simp [State.failNamed]
@[simp] theorem State.dirAnswer_mem (s : State) (c : Nat) (m : Cmd) (v : Nat) : (s.dirAnswer c m v).mem = s.mem := by
  simp [State.dirAnswer]
@[simp] theorem State.dirFill_mem (s : State) (c : Nat) (m : Cmd) :
    (s.dirFill c m).mem = s.mem := by unfold State.dirFill; split <;> simp
@[simp] theorem State.openObj_mem (s : State) (c : Nat) (m : Cmd) (ob : Nat) : (s.openObj c m ob).mem = s.mem := by
  unfold State.openObj
  split
  · simp
  · split <;> simp
@[simp] theorem State.openMeets_mem (s : State) (c : Nat) (m : Cmd) (a : NameB) : (s.openMeets c m a).mem = s.mem := by
  unfold State.openMeets; split <;> simp
@[simp] theorem State.openName_mem (s : State) (c : Nat) (m : Cmd) : (s.openName c m).mem = s.mem := by
  unfold State.openName; dsimp only; split <;> simp
@[simp] theorem State.trigFail_mem (s : State) (t : Trig) (cz : Cause) : (s.trigFail t cz).mem = s.mem := by
  unfold State.trigFail; split <;> simp
@[simp] theorem State.trigMeets_mem (s : State) (t : Trig) (a : NameB) : (s.trigMeets t a).mem = s.mem := by
  unfold State.trigMeets; split <;> simp
@[simp] theorem State.trigAt_mem (s : State) (key : Nat) (t : Trig) : (s.trigAt key t).mem = s.mem := by
  unfold State.trigAt; split <;> simp
@[simp] theorem State.wake_mem (s : State) (key : Nat) : (s.wake key).mem = s.mem := by
  unfold State.wake; split
  · rfl
  · dsimp only; rw [foldl_mem]
    intro s w
    dsimp only; split
    · split <;> simp
    · simp
    · simp
@[simp] theorem State.unbind_mem (s : State) (key : Nat) : (s.unbind key).mem = s.mem := by unfold State.unbind; split <;> simp
@[simp] theorem State.bindObj_mem (s : State) (part asid : Nat) (d : V512) : (s.bindObj part asid d).mem = s.mem := by
  simp [State.bindObj]
@[simp] theorem nopenWork_mem (i : Issue) (m : Cmd) (s : State) : (nopenWork i m s).mem = s.mem := by simp [nopenWork]
@[simp] theorem ncloseWork_mem (i : Issue) (m : Cmd) (s : State) : (ncloseWork i m s).mem = s.mem := by
  unfold ncloseWork; dsimp only; split <;> simp
@[simp] theorem nbindWork_mem (i : Issue) (m : Cmd) (s : State) : (nbindWork i m s).mem = s.mem := by simp [nbindWork]
@[simp] theorem State.nrebind_mem (s : State) (part asid : Nat) (ds : List V512) : (s.nrebind part asid ds).mem = s.mem := by
  simp [State.nrebind]
@[simp] theorem nrebindWork_mem (i : Issue) (m : Cmd) (s : State) : (nrebindWork i m s).mem = s.mem := by simp [nrebindWork]
@[simp] theorem nunbindWork_mem (i : Issue) (m : Cmd) (s : State) : (nunbindWork i m s).mem = s.mem := by
  unfold nunbindWork; dsimp only; split <;> simp
@[simp] theorem nlookWork_mem (i : Issue) (m : Cmd) (s : State) : (nlookWork i m s).mem = s.mem := by simp [nlookWork]
@[simp] theorem State.reclaimEnd_mem (s : State) (ob : Nat) (o : Obj) (bad : Bool) : (s.reclaimEnd ob o bad).mem = s.mem := by
  simp [State.reclaimEnd]

/-! ### Seq -/

@[simp] theorem State.modSec_mem (s : State) (k i : Nat) (f : Section → Section) :
    (s.modSec k i f).mem = s.mem := by simp [State.modSec]
@[simp] theorem State.armNode_mem (s : State) (nk t : Nat) : (s.armNode nk t).mem = s.mem := rfl
@[simp] theorem State.armSection_mem (s : State) (k i t : Nat) : (s.armSection k i t).mem = s.mem := by
  unfold State.armSection; split <;> simp
@[simp] theorem State.armPending_mem (s : State) (k i : Nat) (a : Arming) : (s.armPending k i a).mem = s.mem := by
  unfold State.armPending; split <;> simp
@[simp] theorem State.lowerCount_mem (s : State) (k i : Nat) : (s.lowerCount k i).mem = s.mem := by
  unfold State.lowerCount; split <;> simp
@[simp] theorem State.expire_mem (s : State) (k i : Nat) : (s.expire k i).mem = s.mem := by
  unfold State.expire; repeat' split
  all_goals simp
@[simp] theorem State.endCallables_mem (s : State) (k i : Nat) : (s.endCallables k i).mem = s.mem := by
  unfold State.endCallables; split <;> simp
@[simp] theorem State.sectionCheck_mem (s : State) (k : Nat) : (s.sectionCheck k).mem = s.mem := by
  unfold State.sectionCheck; split <;> simp
@[simp] theorem State.endNode_mem (s : State) (nk : Nat) : (s.endNode nk).mem = s.mem := by
  unfold State.endNode; dsimp only; split <;> simp
@[simp] theorem State.escalate_mem (s : State) (id k : Nat) :
    (s.escalate id k).mem = s.mem := by unfold State.escalate; split <;> rfl
@[simp] theorem State.dropWaits_mem (s : State) (ws : List Spawn) : (s.dropWaits ws).mem = s.mem := by
  unfold State.dropWaits
  exact foldl_mem _ _ _ fun s sp => by split <;> simp
@[simp] theorem State.dropTags_mem (s : State) (nk : Nat) : (s.dropTags nk).mem = s.mem := by
  unfold State.dropTags; dsimp only
  rw [State.dropWaits_mem, foldl_mem, State.modNd_mem]
  intro s e
  dsimp only; split <;> split <;> split <;> simp
@[simp] theorem State.stampHead_mem (s : State) (q : Nat) : (s.stampHead q).mem = s.mem := by simp [State.stampHead]
@[simp] theorem State.owe_mem (s : State) (q recno code cause : Nat) : (s.owe q recno code cause).mem = s.mem := rfl
@[simp] theorem State.clearNodeRegs_mem (s : State) (nk : Nat) : (s.clearNodeRegs nk).mem = s.mem := rfl
@[simp] theorem State.freeKernel_mem (s : State) (k : Nat) (x : Kernel) :
    (s.freeKernel k x).mem = s.mem := by simp [State.freeKernel]
@[simp] theorem State.kernelCheck_mem (s : State) (k : Nat) :
    (s.kernelCheck k).mem = s.mem := by unfold State.kernelCheck; split <;> simp
@[simp] theorem State.kernelsCheck_mem (s : State) : (s.kernelsCheck).mem = s.mem := by simp [State.kernelsCheck]
@[simp] theorem State.completeKernels_mem (s : State) (mine : Kernel → Bool) : (s.completeKernels mine).mem = s.mem := by
  unfold State.completeKernels
  exact foldl_mem _ _ _ fun s e => by split <;> simp
@[simp] theorem State.endKernel_mem (s : State) (k code cause : Nat) : (s.endKernel k code cause).mem = s.mem := by
  unfold State.endKernel; split
  · rfl
  · split
    · dsimp only; split
      all_goals
        simp only [State.owe_mem, State.stampHead_mem]
        refine foldl_mem _ _ _ fun s e => ?_
        rw [State.dropWaits_mem]
        exact foldl_mem _ _ _ fun s t => by split <;> simp
    · dsimp only; split <;> split <;> simp

/-! ### Task -/

@[simp] theorem State.setTail_mem (s : State) (q t : Nat) : (s.setTail q t).mem = s.mem := by simp [State.setTail]
@[simp] theorem garmWork_mem (i : Issue) (m : Cmd) (s : State) : (garmWork i m s).mem = s.mem := by
  unfold garmWork; repeat' split
  all_goals simp
@[simp] theorem State.spawnIssue_mem (s : State) (c : Nat) (m : Cmd) (tag : Option (Nat × Nat)) :
    (s.spawnIssue c m tag).mem = s.mem := by unfold State.spawnIssue; dsimp only; split <;> simp
@[simp] theorem State.tagEnd_mem (s : State) (nk t : Nat) (sp : Spawn) (ret : Option Opnd) :
    (s.tagEnd nk t sp ret).mem = s.mem := by
  unfold State.tagEnd; repeat' split
  all_goals simp
@[simp] theorem hregWork_mem (i : Issue) (m : Cmd) (s : State) : (hregWork i m s).mem = s.mem := by
  unfold hregWork; dsimp only; repeat' split
  all_goals simp
@[simp] theorem hregUnregWork_mem (i : Issue) (m : Cmd) (s : State) : (hregUnregWork i m s).mem = s.mem := by
  unfold hregUnregWork; dsimp only; split <;> simp
@[simp] theorem State.msendGo_mem (s : State) (c : Nat) (m : Cmd) : (s.msendGo c m).mem = s.mem := by simp [State.msendGo]
@[simp] theorem msendWork_mem (i : Issue) (m : Cmd) (s : State) : (msendWork i m s).mem = s.mem := by
  unfold msendWork; repeat' split
  all_goals simp
@[simp] theorem msendTrigWork_mem (i : Issue) (m : Cmd) (s : State) : (msendTrigWork i m s).mem = s.mem := by simp [msendTrigWork]
@[simp] theorem mrecvWork_mem (i : Issue) (m : Cmd) (s : State) : (mrecvWork i m s).mem = s.mem := by
  unfold mrecvWork; dsimp only; repeat' split
  all_goals simp
@[simp] theorem mprobeWork_mem (i : Issue) (m : Cmd) (s : State) : (mprobeWork i m s).mem = s.mem := by simp [mprobeWork]
@[simp] theorem State.mesgArrive_mem (s : State) (c part : Nat) (b : Msg) : (s.mesgArrive c part b).mem = s.mem := by
  unfold State.mesgArrive; dsimp only; repeat' split
  all_goals simp
theorem State.mesgRetry_mem {s t : State} {c : Nat} (h : s.mesgRetry c = some t) : t.mem = s.mem := by
  unfold State.mesgRetry at h
  split at h <;> cases h
  exact State.msendGo_mem ..

/-! ### Net -/

@[simp] theorem State.refuse_mem (s : State) (m : Parcel) (d : Nat) (b : Msg) (cz : Cause) : (s.refuse m d b cz).mem = s.mem := by
  unfold State.refuse; repeat' split
  all_goals simp
@[simp] theorem State.refuseAt_mem (s : State) (m : Parcel) (cz : Cause) : (s.refuseAt m cz).mem = s.mem := by simp [State.refuseAt]
@[simp] theorem State.toIdie_mem (s : State) (inp : Nat) (m : Parcel) : (s.toIdie inp m).mem = s.mem := by
  unfold State.toIdie
  exact foldl_mem _ _ _ fun s g => by dsimp only; split <;> simp
theorem State.sendFlit_mem {s t : State} {r port i : Nat} {circ : Bool} {o : Option (RPkt × Bool)}
    (h : s.sendFlit r port i circ = (t, o)) : t.mem = s.mem := by
  unfold State.sendFlit at h; dsimp only at h
  split at h <;> cases h <;> rfl
@[simp] theorem State.leave_mem (s : State) (r port : Nat) (h : RPkt) (tail : Bool) : (s.leave r port h tail).mem = s.mem := by
  unfold State.leave; split <;> simp
@[simp] theorem State.replicate_mem (s : State) (r : Nat) : (s.replicate r).mem = s.mem := by
  unfold State.replicate
  refine foldl_mem _ _ _ fun s i => ?_
  dsimp only; split
  · rfl
  · split
    · rfl
    · split <;> rfl
@[simp] theorem State.modGate_mem (s : State) (k : Nat) (f : Headgate → Headgate) : (s.modGate k f).mem = s.mem := rfl
theorem State.passPort_mem {s t : State} {c part : Nat} (h : s.passPort c part = some t) : t.mem = s.mem := by
  revert t
  unfold State.passPort; dsimp only
  repeat' split
  all_goals simp
@[simp] theorem setSluice_mem (s : State) (c level depth rate : Nat) : (setSluice s c level depth rate).mem = s.mem := by
  rw [setSluice, srSet_mem]
@[simp] theorem State.ingress_mem (s : State) (c : Nat) : (s.ingress c).mem = s.mem := by
  unfold State.ingress; split
  · rfl
  · split
    · next h => exact State.sendFlit_mem h
    · next s' h tail hs =>
      have levels (level depth rate : Nat) : (if 192 ≤ c then s' else setSluice s' c level depth rate).mem = s.mem := by
        split
        · exact State.sendFlit_mem hs
        · rw [setSluice_mem, State.sendFlit_mem hs]
      dsimp only; split
      · rw [State.flitTo_mem, levels]
      · split
        · rw [State.toIdie_mem, levels]
        · exact levels ..
@[simp] theorem setSlPort_mem (s : State) (p st width err lanes : Nat) : (setSlPort s p st width err lanes).mem = s.mem := rfl
@[simp] theorem State.onWire_mem (s : State) (p : Nat) (w : BitVec 256) : (s.onWire p w).mem = s.mem := rfl
@[simp] theorem State.linkSend_mem (s : State) (p : Nat) : (s.linkSend p).mem = s.mem := by
  unfold State.linkSend; dsimp only
  split
  · rfl
  · split
    · simp
    · split
      · split <;> simp
      · split
        · rfl
        · split
          · rfl
          · split
            · next h => exact State.sendFlit_mem h
            · next h => simp [State.sendFlit_mem h]
@[simp] theorem State.refuseStale_mem (s : State) : (s.refuseStale).mem = s.mem := by
  unfold State.refuseStale
  exact foldl_mem _ _ _ fun s e => by split <;> simp
@[simp] theorem State.arbitrate_mem (s : State) (r port : Nat) : (s.arbitrate r port).mem = s.mem := by
  unfold State.arbitrate
  split
  · exact State.ingress_mem ..
  · split
    · rfl
    · split
      · exact State.linkSend_mem ..
      · split
        · exact State.refuseStale_mem ..
        · split
          · dsimp only; split
            · rfl
            · split
              · next h => simp [State.sendFlit_mem h]
              · next h => exact State.sendFlit_mem h
          · dsimp only; split
            · simp
            · split
              · next h => simp [State.sendFlit_mem h]
              · next h => simp [State.sendFlit_mem h]
@[simp] theorem State.ageStep_mem (s : State) (r k : Nat) : (s.ageStep r k).mem = s.mem := by unfold State.ageStep; split <;> simp
@[simp] theorem State.flitIn_mem (s : State) (p : Nat) (w : BitVec 256) (pkt : Option Parcel) : (s.flitIn p w pkt).mem = s.mem := by
  unfold State.flitIn; repeat' split
  all_goals simp
@[simp] theorem State.ackIn_mem (s : State) (p seq : Nat) (nack : Bool) : (s.ackIn p seq nack).mem = s.mem := rfl
@[simp] theorem State.dropOpen_mem (s : State) (p : Nat) : (s.dropOpen p).1.mem = s.mem := by
  unfold State.dropOpen
  refine List.foldlRecOn (motive := fun (a : State × List Parcel) => a.1.mem = s.mem) _ _ rfl fun a ha e _ => ?_
  split
  · split
    · exact ha
    · exact ha
  · exact ha
@[simp] theorem State.laneFail_mem (s : State) (p lane : Nat) : (s.laneFail p lane).mem = s.mem := by
  unfold State.laneFail; dsimp only; split
  · rw [State.modLink_mem, setSlPort_mem]
  · rw [foldl_mem, State.modLink_mem, State.dropOpen_mem, setSlPort_mem]
    intro s m
    dsimp only; split
    · rfl
    · exact State.refuseAt_mem ..
@[simp] theorem State.refill_mem (s : State) (d : Nat) : (s.refill d).mem = s.mem := by simp [State.refill]
@[simp] theorem State.leak_mem (s : State) (c : Nat) : (s.leak c).mem = s.mem := by rw [State.leak, setSluice_mem]

/-! ### Reset -/

@[simp] theorem State.statusDone_mem (s : State) (q recno : Nat) : (s.statusDone q recno).mem = s.mem := by
  rw [State.statusDone, srSet_mem]
@[simp] theorem State.sortOwed_mem (s : State) : (s.sortOwed).mem = s.mem := rfl
@[simp] theorem State.machineFault_mem (s : State) (cz : Cause) (part kernel : Nat) :
    (s.machineFault cz part kernel).mem = s.mem := by simp [State.machineFault]
@[simp] theorem setResetStatus_mem (s : State) (last src stage berr : Nat) :
    (setResetStatus s last src stage berr).mem = s.mem := rfl
@[simp] theorem setLast_mem (s : State) (last src : Nat) : (setLast s last src).mem = s.mem := rfl
@[simp] theorem State.disableQueues_mem (s : State) (p : Nat → Bool) :
    (s.disableQueues p).mem = s.mem := by simp [State.disableQueues]
/-- A cold reset empties memory. -/
@[simp] theorem State.coldReset_mem (s : State) : s.coldReset.mem = [] := by
  rw [State.coldReset, setResetStatus_mem, srSet_mem]
  rfl
@[simp] theorem State.clearNames_mem (s : State) (p : Nat) : (s.clearNames p).mem = s.mem := rfl
@[simp] theorem State.partReset_mem (s : State) (p src : Nat) : (s.partReset p src).mem = s.mem := by
  unfold State.partReset; dsimp only
  rw [setLast_mem, State.clearNames_mem, State.disableQueues_mem]
  exact foldl_mem _ _ _ fun s k => by split <;> simp
@[simp] theorem State.abort_mem (s : State) (q recno src : Nat) : (s.abort q recno src).mem = s.mem := by
  unfold State.abort; split <;> simp
@[simp] theorem State.boot_mem (s : State) (fail : Nat) : (s.boot fail).mem = s.mem := by
  unfold State.boot; dsimp only
  split
  · rfl
  · split
    · exact setResetStatus_mem ..
    · split
      · rfl
      · split
        · rw [srSet_mem, setResetStatus_mem]
        · rw [srSet_mem]; split
          · rw [setResetStatus_mem]
          · rw [srSet_mem, State.takeFresh_mem, setResetStatus_mem]
        · split
          · rw [setResetStatus_mem]
          · rw [foldl_mem, setResetStatus_mem]; exact fun _ _ => rfl
        · split
          · rw [setResetStatus_mem]
          · rw [foldl_mem, setResetStatus_mem]; exact fun _ _ => setSlPort_mem ..
        · rw [setResetStatus_mem]
        · rw [setResetStatus_mem]
@[simp] theorem State.sign_mem (s : State) (nonce : Nat) : (s.sign nonce).mem = s.mem := by simp [State.sign]
@[simp] theorem State.setSluices_mem (s : State) (throttling : Bool) :
    (s.setSluices throttling).mem = s.mem := by simp [State.setSluices]
@[simp] theorem State.throttle_mem (s : State) (tj : Nat) : (s.throttle tj).mem = s.mem := by simp [State.throttle]

/-! ### Regs -/

@[simp] theorem State.regTake_mem (s : State) (w : Party0) (n : Nat) : (s.regTake w n).mem = s.mem := by
  unfold State.regTake; split <;> rfl
@[simp] theorem State.regClose_mem (s : State) (w : Party0) (n : Nat) : (s.regClose w n).mem = s.mem := by
  unfold State.regClose; split <;> simp
@[simp] theorem State.writeCgrp_mem (s : State) (part v : Nat) : (s.writeCgrp part v).mem = s.mem := by simp [State.writeCgrp]
@[simp] theorem State.writeSlots_mem (s : State) (v : Nat) : (s.writeSlots v).mem = s.mem := by simp [State.writeSlots]
@[simp] theorem State.writeLqCfg_mem (s : State) (w : Party0) (q v : Nat) : (s.writeLqCfg w q v).mem = s.mem := by
  unfold State.writeLqCfg; dsimp only
  split
  · rw [srSet_mem]
  · split
    · rw [srSet_mem]
    · split
      · rfl
      · rw [srSet_mem, srSet_mem, srSet_mem]
@[simp] theorem State.writeLqTail_mem (s : State) (q v : Nat) : (s.writeLqTail q v).mem = s.mem := by simp [State.writeLqTail]
@[simp] theorem State.writePtCfg_mem (s : State) (w : Party0) (n v : Nat) :
    (s.writePtCfg w n v).mem = s.mem := by simp [State.writePtCfg]
@[simp] theorem State.writeSel_mem (s : State) (w : Party0) (copy n v : Nat) : (s.writeSel w copy n v).mem = s.mem := by
  unfold State.writeSel; dsimp only; rw [srSet_mem]; split
  · rw [srSet_mem]
  · rfl

/-! ### Isol -/

@[simp] theorem State.answerSlot_mem (s : State) (i : Issue) (t : Target) (n : Nat) : (s.answerSlot i t n).mem = s.mem := by
  simp [State.answerSlot]
@[simp] theorem State.tinvIssue_mem (s : State) (nk : Nat) (w : SWord) (l r : Option Opnd) :
    (s.tinvIssue nk w l r).mem = s.mem := rfl
@[simp] theorem State.tinvDrop_mem (s : State) (t : Tinv) (h : Nat) : (s.tinvDrop t h).mem = s.mem := by simp [State.tinvDrop]
@[simp] theorem State.tsyncCheck_mem (s : State) : (s.tsyncCheck).mem = s.mem := by
  unfold State.tsyncCheck; dsimp only
  rw [foldl_mem]
  exact fun s x => by split <;> simp
@[simp] theorem State.tinvAck_mem (s : State) (k : Nat) : (s.tinvAck k).mem = s.mem := by unfold State.tinvAck; split <;> simp
@[simp] theorem State.tsyncIssue_mem (s : State) (nk age : Nat) (l : Option Opnd) (place : Option (Nat × Nat)) :
    (s.tsyncIssue nk age l place).mem = s.mem := by simp [State.tsyncIssue]
@[simp] theorem State.keysetIssue_mem (s : State) (nk age : Nat) (l r : Option Opnd) (place : Option (Nat × Nat)) :
    (s.keysetIssue nk age l r place).mem = s.mem := rfl
@[simp] theorem State.keyReplace_mem (s : State) (k : Nat) : (s.keyReplace k).mem = s.mem := by
  unfold State.keyReplace; repeat' split
  all_goals simp

/-! ### Trap -/

@[simp] theorem State.resolveRec_mem (s : State) (id mode : Nat) (skip : Bool) : (s.resolveRec id mode skip).mem = s.mem := by
  unfold State.resolveRec; repeat' split
  all_goals simp
@[simp] theorem State.fretIssue_mem (s : State) (nk tag : Nat) (w : SWord) : (s.fretIssue nk tag w).mem = s.mem := by
  unfold State.fretIssue; split <;> simp
@[simp] theorem State.trapTake_mem (s : State) (nk ix n ws age aux x : Nat) : (s.trapTake nk ix n ws age aux x).mem = s.mem := by
  unfold State.trapTake; dsimp only; split
  · rw [State.formRecord_mem]
  · rw [State.modNd_mem, State.formRecord_mem, State.discardFrom_mem]

/-! ### Token -/

@[simp] theorem State.tokFault_mem (s : State) (c : Nat) (t : Tok) (cz : Cause) (aux va spc : Nat) :
    (s.tokFault c t cz aux va spc).mem = s.mem := by unfold State.tokFault; dsimp only; split <;> simp
@[simp] theorem State.unspillOne_mem (s : State) (c : Nat) (t : Tok) : (s.unspillOne c t).mem = s.mem := by
  unfold State.unspillOne; dsimp only; repeat' split
  all_goals simp
@[simp] theorem State.unspill_mem (s : State) (c : Nat) : (s.unspill c).mem = s.mem := by simp [State.unspill]
@[simp] theorem State.idleFault_mem (s : State) (nk : Nat) (t : Tok) : (s.idleFault nk t).mem = s.mem := by
  unfold State.idleFault; split <;> rfl
@[simp] theorem State.doneArrive_mem (s : State) (nk ws it gn ix : Nat) : (s.doneArrive nk ws it gn ix).mem = s.mem := by
  simp [State.doneArrive]

/-! ### Invoc -/

@[simp] theorem State.deliverTo_mem (s : State) (nk : Nat) : (s.deliverTo nk).mem = s.mem := by simp [State.deliverTo]
@[simp] theorem State.sendArgs_mem (s : State) (c p t : Nat) (sp : Spawn) : (s.sendArgs c p t sp).mem = s.mem := by
  unfold State.sendArgs; split <;> rfl
theorem State.takeTags_mem (nk : Nat) (hs : List Held) : ∀ (s : State) (old : List (Nat × Nat)),
    (s.takeTags nk old hs).s.mem = s.mem := by
  induction hs with
  | nil => intro s old; rfl
  | cons h hs ih =>
    intro s old
    unfold State.takeTags; split
    · next heq => cases heq
    · next heq =>
      cases heq
      split
      · exact ih ..
      · split
        · exact ih ..
        · split
          · rfl
          · exact ih ..
    · next hs' _ heq => cases heq; exact ih ..
theorem State.commitActs_mem (nk : Nat) (v : Inv) (tags : List (Nat × Nat × Nat)) (hs : List Held) :
    ∀ (s : State) (cfgs : List (Nat × V512)), (s.commitActs nk v tags cfgs hs).1.mem = s.mem := by
  induction hs with
  | nil => intro s cfgs; rfl
  | cons h hs ih =>
    intro s cfgs
    cases h
    case cmd ix i l r q =>
      rw [State.commitActs]; dsimp only; rw [ih]
      split <;> rfl
    all_goals exact ih s cfgs
@[simp] theorem State.freeTakes_mem (s : State) (nk : Nat) (v : Inv) : (s.freeTakes nk v).mem = s.mem := rfl
@[simp] theorem State.freeOperands_mem (s : State) (nk : Nat) (v : Inv) : (s.freeOperands nk v).mem = s.mem := by
  simp [State.freeOperands]
@[simp] theorem State.flipDo_mem (s : State) (nk t : Nat) : (s.flipDo nk t).mem = s.mem := by simp [State.flipDo]
@[simp] theorem State.dropGroups_mem (s : State) (nk n : Nat) : (s.dropGroups nk n).mem = s.mem := by simp [State.dropGroups]
theorem State.exitNode_mem {s t : State} {nk n age : Nat} {ex : Option (Bool × Option Nat)}
    (h : s.exitNode nk ex n age = some t) : t.mem = s.mem := by
  revert t
  unfold State.exitNode; dsimp only
  repeat' split
  all_goals simp
@[simp] theorem State.exitCallable_mem (s : State) (nk : Nat) (a : Option (Bool × Option Nat)) :
    (s.exitCallable nk a).mem = s.mem := by unfold State.exitCallable; split <;> simp
theorem State.exitAct_mem {s t : State} {nk n age : Nat} {ex : Option (Bool × Option Nat)} {tag : Option Spawn}
    {ret : Option Opnd} (h : s.exitAct nk ex n age tag ret = some t) : t.mem = s.mem := by
  unfold State.exitAct at h
  split at h
  · dsimp only at h; split at h <;> cases h <;> simp
  · obtain ⟨u, hu, rfl⟩ := Option.map_eq_some_iff.1 h
    simp [State.exitNode_mem hu]

/-! ### Map -/

@[simp] theorem State.clearCtx_mem (s : State) (nk : Nat) : (s.clearCtx nk).mem = s.mem := rfl
@[simp] theorem State.clearPlane_mem (s : State) (nk : Nat) : (s.clearPlane nk).mem = s.mem := by simp [State.clearPlane]
@[simp] theorem State.mapFault_mem (s : State) (nk : Nat) (cz : Cause) (aux : Nat) (ix : Option Nat) (word : Nat) :
    (s.mapFault nk cz aux ix word).mem = s.mem := by
  rw [State.mapFault, State.modNd_mem, State.formRecord_mem, State.modNd_mem, State.clearPlane_mem]

/-! ### Weir -/

@[simp] theorem State.take_mem (s : State) (q : Nat) (v : Option V512) (seq : Bool) : (s.take q v seq).mem = s.mem := by
  unfold State.take; dsimp only; split
  · rw [srSet_mem, srSet_mem]
  · rw [srSet_mem]
@[simp] theorem State.answer_mem (s : State) (q code : Nat) (v : Option V512) (seq : Bool) :
    (s.answer q code v seq).mem = s.mem := by unfold State.answer; simp
@[simp] theorem State.answerHead_mem (s : State) (d q : Nat) : (s.answerHead d q).mem = s.mem := by
  unfold State.answerHead; split
  · rfl
  · exact State.answer_mem ..
  · split
    · rfl
    · split
      · rfl
      · exact State.answer_mem ..
@[simp] theorem State.preempt_mem (s : State) (k : Nat) : (s.preempt k).mem = s.mem := by unfold State.preempt; split <;> simp
theorem State.takeOver_mem {s t : State} {d : Nat} {a : Head} {p : Nat × Nat} (h : s.takeOver d a p = some t) : t.mem = s.mem := by
  unfold State.takeOver at h; dsimp only at h
  split at h
  · cases h
    exact foldl_mem _ _ _ fun s c => by split <;> simp
  · cases h
@[simp] theorem State.preemptFor_mem (s : State) (d : Nat) (a : Head) : (s.preemptFor d a).mem = s.mem := by
  unfold State.preemptFor
  cases h : a.places.findSome? fun p => s.takeOver d a p with
  | none => rfl
  | some t =>
    obtain ⟨p, -, hp⟩ := List.exists_of_findSome?_eq_some h
    exact State.takeOver_mem hp
@[simp] theorem State.applyFret_mem (s : State) (k : Nat) (f : Nat × Nat × Bool) : (s.applyFret k f).mem = s.mem := by
  unfold State.applyFret; split <;> simp
@[simp] theorem State.passOver_mem (s : State) (a : Head) : (s.passOver a).mem = s.mem := by unfold State.passOver; split <;> simp

/-! ### Arrive -/

@[simp] theorem State.semArrive_mem (s : State) (m : Parcel) (c sem amt : Nat) (set : Bool) (acc : Option (Nat × Nat))
    (flag : Bool) :
    (s.semArrive m c sem amt set acc flag).mem = s.mem := by
  unfold State.semArrive; dsimp only; repeat' split
  all_goals simp
@[simp] theorem State.epEnd_mem (s : State) (k grp num : Nat) : (s.epEnd k grp num).mem = s.mem := by simp [State.epEnd]
@[simp] theorem State.barArrive_mem (s : State) (c grp cnt nk n ix age : Nat) :
    (s.barArrive c grp cnt nk n ix age).mem = s.mem := by
  unfold State.barArrive; dsimp only; repeat' split
  all_goals simp
theorem State.recArrive_mem {s t : State} {id : Nat} (h : s.recArrive id = some t) : t.mem = s.mem := by
  revert t
  unfold State.recArrive; dsimp only
  repeat' split
  all_goals simp
@[simp] theorem State.unbox_mem (s : State) (m : Parcel) : (s.unbox m).mem = s.mem := rfl
@[simp] theorem State.rebox_mem (s : State) (m : Parcel) (b : Msg) : (s.rebox m b).mem = s.mem := rfl
@[simp] theorem State.picking_mem (s : State) (k : Nat) : (s.picking k).mem = s.mem := rfl
@[simp] theorem State.readAhead_mem (s : State) (nk ix n a : Nat) : (s.readAhead nk ix n a).mem = s.mem := by
  unfold State.readAhead; extract_lets loads
  split
  · rfl
  · dsimp only; split
    · rfl
    · split
      · split
        · rfl
        · simp
      · rfl

/-! ### Outside -/

@[simp] theorem readRun0_mem (fuel : Nat) : ∀ (s : State) (k n : Nat), (readRun0 s fuel k n).1.mem = s.mem := by
  induction fuel with
  | zero => intro s k n; rfl
  | succ fuel ih =>
    intro s k n
    unfold readRun0; split
    · rfl
    · dsimp only; rw [ih, readUnder_fst]

/-! ### Step -/

@[simp] theorem State.dropReady_mem (s : State) (c : Nat) (r : Ready) : (s.dropReady c r).mem = s.mem := rfl
@[simp] theorem State.countCycles_mem (s : State) (n : Nat) : (s.countCycles n).mem = s.mem := by simp [State.countCycles]
@[simp] theorem State.watch_mem (s : State) (nk n : Nat) : (s.watch nk n).mem = s.mem := by simp [State.watch]

end Sys2Proof.Machine
end

