-- ==== Sys2Proof/Proofs/MemoryForm.lean ====
section
/-!
SUPPORT. The operations that write memory keep its canonical form (assumption 4): each write goes through `memPut`.
The headings name the model's files.
-/

namespace Sys2Proof.Machine

@[simp] theorem Memory.wf_ite (c : Prop) [Decidable c] (a b : List Host.Cell) :
    Memory.wf (if c then a else b) = true ↔ (c → Memory.wf a = true) ∧ (¬ c → Memory.wf b = true) := by
  split <;> simp [*]
theorem Memory.wf_of_ite {c : Prop} [Decidable c] {a b : State} (ha : Memory.wf a.mem = true) (hb : Memory.wf b.mem = true) :
    Memory.wf (if c then a else b).mem = true := by
  split
  · exact ha
  · exact hb

/-! ### Ops -/

/-- Bytes of free choice, one taken for each index of a list, keep the canonical form. -/
theorem Memory.wf_freeBytes (l : List Nat) (s : State) (k : Nat) (hwf : Memory.wf s.mem = true) :
    Memory.wf (l.foldl (fun s i => memPut s.takeFresh (k + i) (Config.freeByte s.sched.fresh)) s).mem = true := by
  refine Memory.wf_foldl _ (fun s i h => ?_) l s hwf
  exact Memory.wf_memPut _ _ _ h

/-! ### KvLoad -/

@[simp] theorem Memory.wf_nvSubmit (s : State) (q : Nat) (owner : NvOwner) (j : NvJob) (hwf : Memory.wf s.mem = true) :
    Memory.wf (s.nvSubmit q owner j).mem = true := by
  unfold State.nvSubmit; dsimp only
  rw [State.nvAsk_mem]; dsimp only; rw [srSet_mem]
  iterate 7 apply Memory.wf_memWrite
  split <;> exact hwf
@[simp] theorem Memory.wf_kvSwap (s : State) (l : KvLoad) (old new : Nat) (hwf : Memory.wf s.mem = true) :
    Memory.wf (s.kvSwap l old new).1.mem = true := by
  unfold State.kvSwap; split
  · dsimp only; split
    · exact Memory.wf_writeUnder _ _ _ _ _ (by simpa using hwf)
    · simpa using hwf
  · exact hwf
@[simp] theorem Memory.wf_kvPump (s : State) (id : Nat) (hwf : Memory.wf s.mem = true) :
    Memory.wf (s.kvPump id).mem = true := by
  unfold State.kvPump; split
  · exact hwf
  · refine Memory.wf_foldl _ (fun s j h => ?_) _ _ hwf
    split
    · exact h
    · split
      · exact Memory.wf_nvSubmit _ _ _ _ h
      · exact h
@[simp] theorem Memory.wf_kvRead (s : State) (id frame : Nat) (hwf : Memory.wf s.mem = true) :
    Memory.wf (s.kvRead id frame).mem = true := by
  unfold State.kvRead; dsimp only; repeat' split
  all_goals simp [hwf]
@[simp] theorem Memory.wf_kvSlot (s : State) (id : Nat) (l : KvLoad) (head : Nat) (hwf : Memory.wf s.mem = true) :
    Memory.wf (s.kvSlot id l head).mem = true := by
  unfold State.kvSlot; dsimp only; split <;> simp [hwf]
@[simp] theorem Memory.wf_kvRing (s : State) (id : Nat) (hwf : Memory.wf s.mem = true) :
    Memory.wf (s.kvRing id).mem = true := by
  unfold State.kvRing; repeat' split
  all_goals simp [Memory.wf_writeUnder, hwf]
@[simp] theorem Memory.wf_kvClaim (s : State) (id : Nat) (l : KvLoad) (hwf : Memory.wf s.mem = true) :
    Memory.wf (s.kvClaim id l).mem = true := by
  unfold State.kvClaim; split
  · simp [hwf]
  · simp [hwf]
  · have h := Memory.wf_kvSwap s l (kvNvme l.old) (kvLoading l.old) hwf
    dsimp only; split
    · exact Memory.wf_kvRing _ _ (by simp [h])
    · exact h
@[simp] theorem Memory.wf_kvAsk (s : State) (c part seq b : Nat) (hwf : Memory.wf s.mem = true) :
    Memory.wf (s.kvAsk c part seq b).mem = true := by
  unfold State.kvAsk; repeat' split
  all_goals simp [hwf]
@[simp] theorem Memory.wf_kvEnd (s : State) (id : Nat) (hwf : Memory.wf s.mem = true) :
    Memory.wf (s.kvEnd id).mem = true := by
  unfold State.kvEnd; split
  · exact hwf
  · split
    · exact hwf
    · split <;> simp [hwf]
@[simp] theorem Memory.wf_kvFound (s : State) (id : Nat) (l : KvLoad) (w : Nat) (hwf : Memory.wf s.mem = true) :
    Memory.wf (s.kvFound id l w).mem = true := by
  unfold State.kvFound; split <;> simp [hwf]
@[simp] theorem Memory.wf_kvAnswer (s : State) (id v : Nat) (bad : Option (Cause × Nat × Nat)) (hwf : Memory.wf s.mem = true) :
    Memory.wf (s.kvAnswer id v bad).mem = true := by
  unfold State.kvAnswer; split
  · exact hwf
  · split
    · split <;> simp [hwf]
    · split
      case h_2 => split <;> simp [hwf]
      case h_3 => split <;> simp [hwf]
      case h_4 =>
        split
        · simp [hwf]
        · split <;> simp [hwf]
      all_goals simp [hwf]
@[simp] theorem Memory.wf_stopLoads (s : State) (hwf : Memory.wf s.mem = true) :
    Memory.wf (s.stopLoads).mem = true := by
  unfold State.stopLoads
  refine Memory.wf_foldl _ (fun s e h => ?_) _ _ hwf
  split <;> simp [h]

/-! ### Mem -/

@[simp] theorem Memory.wf_memFire (op : Op) (ins : Instr) (w : MWord) (i : Issue) (v : Inv) (s : State)
    (hwf : Memory.wf s.mem = true) :
    Memory.wf (memFire op ins w i v s).mem = true := by
  unfold memFire; dsimp only; repeat' split
  all_goals simp [hwf]
@[simp] theorem Memory.wf_goRead (s : State) (nk : Nat) (a : Acc) (bs : List Acc) (hwf : Memory.wf s.mem = true) :
    Memory.wf (s.goRead nk a bs).mem = true := by
  unfold State.goRead; dsimp only; repeat' split
  all_goals simp [hwf]
@[simp] theorem Memory.wf_memPerform (i : Issue) (s : State) (hwf : Memory.wf s.mem = true) :
    Memory.wf (memPerform i s).mem = true := by
  unfold memPerform; dsimp only; repeat' split
  all_goals simp [hwf]

/-! ### MemAt -/

@[simp] theorem Memory.wf_endReserve (s : State) (nk : Nat) (a : Acc) (hwf : Memory.wf s.mem = true) :
    Memory.wf (s.endReserve nk a).mem = true := by
  have ends (l : List Piece) (v : Nat) : Memory.wf (l.foldl (fun s p =>
      (writeUnder s p.key p.size v p.slot).dropAhead nk p.key) s).mem = true :=
    Memory.wf_foldl _ (fun s p h => by simp [Memory.wf_writeUnder, h]) _ _ hwf
  unfold State.endReserve; dsimp only
  split
  · simp [ends]
  · rw [foldl_mem]
    · simp [ends]
    · intro s j; dsimp only; split <;> simp
@[simp] theorem Memory.wf_endBlocked (s : State) (nk : Nat) (hwf : Memory.wf s.mem = true) :
    Memory.wf (s.endBlocked nk).mem = true := by
  unfold State.endBlocked
  exact Memory.wf_foldl _ (fun s e h => by split <;> simp [h]) _ _ hwf
@[simp] theorem Memory.wf_writeDone (s : State) (nk : Nat) (a : Acc) (hwf : Memory.wf s.mem = true) :
    Memory.wf (s.writeDone nk a).mem = true := by simp [State.writeDone, hwf]
@[simp] theorem Memory.wf_pieceDone (s : State) (nk : Nat) (a : Acc) (j : Nat) (v : Option (Nat × Nat))
    (hwf : Memory.wf s.mem = true) :
    Memory.wf (s.pieceDone nk a j v).mem = true := by simp [State.pieceDone, hwf]
theorem Memory.wf_accPlace {s t : State} {nk id j : Nat} (hwf : Memory.wf s.mem = true) (h : s.accPlace nk id j = some t) :
    Memory.wf t.mem = true := by
  revert t
  unfold State.accPlace; dsimp only
  repeat' split
  all_goals simp [Memory.wf_writeUnder, hwf]
theorem Memory.wf_accArrive {s t : State} {nk id gn j : Nat} (hwf : Memory.wf s.mem = true)
    (h : s.accArrive nk id gn j = some t) : Memory.wf t.mem = true := by
  obtain ⟨u, hu, rfl⟩ := Option.map_eq_some_iff.1 h
  simp [Memory.wf_accPlace hwf hu]
theorem Memory.wf_rreqDo {s t : State} {at_ pa : Nat} {r : Rreq} {slot : Option Nat} (hwf : Memory.wf s.mem = true)
    (h : s.rreqDo at_ r pa slot = some t) : Memory.wf t.mem = true := by
  revert t
  unfold State.rreqDo; dsimp only
  repeat' split
  all_goals simp [Memory.wf_writeUnder, hwf]
theorem Memory.wf_rreqArrive {s t : State} {at_ : Nat} {r : Rreq} (hwf : Memory.wf s.mem = true)
    (h : s.rreqArrive at_ r = some t) : Memory.wf t.mem = true := by
  unfold State.rreqArrive at h; dsimp only at h
  split at h
  · exact Memory.wf_rreqDo hwf h
  · split at h
    · cases h; simp [hwf]
    · cases h; simp [hwf]
    · exact Memory.wf_rreqDo hwf h
@[simp] theorem Memory.wf_rrepArrive (s : State) (nk id j gn v : Nat) (bad : Option (Cause × Nat × Nat)) (chip : Nat)
    (hwf : Memory.wf s.mem = true) :
    Memory.wf (s.rrepArrive nk id j gn v bad chip).mem = true := by
  unfold State.rrepArrive; dsimp only; repeat' split
  all_goals simp [hwf]
/-- The state that a pass over the held accesses leaves has canonical memory. -/
def Pass.Wf : Pass → Prop
  | .ok s | .wait s | .fault s => Memory.wf s.mem = true

theorem Pass.wf_passOne (s : State) (nk : Nat) (a : Acc) (hwf : Memory.wf s.mem = true) : (s.passOne nk a).Wf := by
  unfold State.passOne; dsimp only; split
  · split
    · simp [Pass.Wf, hwf]
    · simp [Pass.Wf, hwf]
    · split
      · simp [Pass.Wf, hwf]
      · split
        · simp [Pass.Wf, hwf]
        · split
          · simp [Pass.Wf, hwf]
          · split
            · simp [Pass.Wf, hwf]
            · simp only [Pass.Wf]
              rw [foldl_mem]
              · simp [hwf]
              · intro s j; dsimp only; split <;> simp
  · repeat' split
    all_goals simp [Pass.Wf, hwf]
theorem Pass.wf_secondPass (s : State) (nk age : Nat) (hwf : Memory.wf s.mem = true) : (s.secondPass nk age).Wf := by
  unfold State.secondPass
  refine List.foldlRecOn (motive := Pass.Wf) _ _ hwf fun r hr k _ => ?_
  split
  · exact hr
  all_goals
    next t =>
    dsimp only; split
    · exact hr
    · next a _ =>
      have h := Pass.wf_passOne t nk a hr
      split
      · next ht => rw [ht] at h; exact h
      · exact h
@[simp] theorem Memory.wf_releaseAccs (s : State) (nk age : Nat) (hwf : Memory.wf s.mem = true) :
    Memory.wf (s.releaseAccs nk age).mem = true := by
  unfold State.releaseAccs
  refine Memory.wf_foldl _ (fun s a h => ?_) _ _ hwf
  split
  · exact h
  · simp [h]

/-! ### Engine -/

/-- Whatever an engine's access comes to, it leaves canonical memory. -/
def EngRes.Wf : EngRes → Prop
  | .ok s _ | .wait s | .bad s _ => Memory.wf s.mem = true

theorem EngRes.wf_engPiece (s : State) (p : Piece) (write : Option Nat) (hwf : Memory.wf s.mem = true) :
    (s.engPiece p write).Wf := by
  unfold State.engPiece
  repeat' split
  all_goals simp [EngRes.Wf, Memory.wf_writeUnder, hwf]
theorem EngRes.wf_engAccess (s : State) (c u : Nat) (m : Cmd) (loc : LocRes) (addr spc j : Nat) (write : Option Nat)
    (hwf : Memory.wf s.mem = true) : (s.engAccess c u m loc addr spc j write).Wf := by
  unfold State.engAccess; extract_lets upd own
  have hown (s : State) (a : EngAcc) (h : Memory.wf s.mem = true) : (own s a).Wf := by
    dsimp only [own]
    split
    · split <;> exact h
    · next p _ =>
      have hp := EngRes.wf_engPiece s p write h
      split
      · split <;> simp_all [EngRes.Wf, upd]
      · simp_all [EngRes.Wf]
      · simp_all [EngRes.Wf]
  split
  · exact hown _ _ hwf
  · split
    · exact hwf
    · simp [EngRes.Wf, hwf]
    · split
      · exact hwf
      · apply hown
        simp [upd, hwf]
theorem EngRes.wf_readElem (s : State) (c u : Nat) (m : Cmd) (pat : V512) (add : Int) (e j : Nat)
    (hwf : Memory.wf s.mem = true) : (s.readElem c u m pat add e j).Wf := by
  unfold State.readElem; split
  · exact hwf
  · exact EngRes.wf_engAccess _ _ _ _ _ _ _ _ _ (by simp [hwf])
theorem EngRes.wf_writeElem (s : State) (c u : Nat) (m : Cmd) (pat : V512) (add : Int) (e j v : Nat)
    (hwf : Memory.wf s.mem = true) : (s.writeElem c u m pat add e j v).Wf := by
  unfold State.writeElem; split
  · exact hwf
  · exact EngRes.wf_engAccess _ _ _ _ _ _ _ _ _ (by simp [hwf])
/-- What goes on from an access leaves canonical memory, if its continuation keeps it. -/
theorem EngRes.Wf.andThen {r : EngRes} {c u : Nat} {m : Cmd} {k : State → Nat → State} (hr : r.Wf)
    (hk : ∀ s v, Memory.wf s.mem = true → Memory.wf (k s v).mem = true) : Memory.wf (r.andThen c u m k).mem = true := by
  cases r with
  | ok s v => exact hk s v hr
  | wait s => exact hr
  | bad s f => exact (State.failCmd_mem ..).symm ▸ hr
theorem EngRes.wf_readStream (c u : Nat) (m : Cmd) (pat : V512) (add : Int) (j cnt : Nat) : ∀ (s : State) (e : Nat),
    Memory.wf s.mem = true → (s.readStream c u m pat add j e cnt).1.Wf := by
  induction cnt with
  | zero => intro s e h; exact h
  | succ n ih =>
    intro s e hwf
    have h := EngRes.wf_readElem s c u m pat add e (j + e) hwf
    rw [State.readStream]
    split
    · simp_all [EngRes.Wf]
    · simp_all
theorem EngRes.wf_writeStream (c u : Nat) (m : Cmd) (pat : V512) (add : Int) (cnt : Nat) : ∀ (s : State) (e : Nat)
    (bs : List Byte), Memory.wf s.mem = true → (s.writeStream c u m pat add e cnt bs).Wf := by
  induction cnt with
  | zero => intro s e bs h; exact h
  | succ n ih =>
    intro s e bs hwf
    have h := EngRes.wf_writeElem s c u m pat add e (2 ^ 40 + e) (leNat (bs.take (patEsz pat))) hwf
    rw [State.writeStream]
    split
    · simp_all [EngRes.Wf]
    · simp_all
@[simp] theorem Memory.wf_copyWork (i : Issue) (m : Cmd) (s : State) (hwf : Memory.wf s.mem = true) :
    Memory.wf (copyWork i m s).mem = true := by
  unfold copyWork; dsimp only; split
  · simp [hwf]
  · split
    · exact hwf
    · exact hwf
    · exact (EngRes.wf_readElem _ _ _ _ _ _ _ _ hwf).andThen fun _ _ h => h
    · exact (EngRes.wf_writeElem _ _ _ _ _ _ _ _ _ hwf).andThen fun _ _ h => h

/-! ### Flume -/

@[simp] theorem Memory.wf_flpushWork (i : Issue) (m : Cmd) (s : State) (hwf : Memory.wf s.mem = true) :
    Memory.wf (flpushWork i m s).mem = true := by
  unfold flpushWork; dsimp only; split
  · split <;> simp [hwf]
  · split
    · split
      · exact hwf
      · split
        · exact hwf
        · split <;> simp [hwf]
    · split
      · exact (EngRes.wf_readElem _ _ _ _ _ _ _ _ hwf).andThen fun _ _ h => h
      · simp [hwf]
theorem Memory.wf_slotArrive {s : State} {c part : Nat} {b : Msg} {x : State × Option Msg} (hwf : Memory.wf s.mem = true)
    (h : s.slotArrive c part b = some x) : Memory.wf x.1.mem = true := by
  revert x
  unfold State.slotArrive; dsimp only
  repeat' split
  all_goals simp [Memory.wf_writeUnder, hwf]

/-! ### Fabric -/

theorem Memory.wf_winArrive {s t : State} {c part src : Nat} {b : Msg} (hwf : Memory.wf s.mem = true)
    (h : s.winArrive c part src b = some t) : Memory.wf t.mem = true := by
  revert t
  unfold State.winArrive; split
  · extract_lets known ok n d opened refused s'
    have hs' : s'.mem = s.mem := by
      clear_value known ok
      dsimp only [s']; split
      · rfl
      · split <;> simp [opened, refused]
    clear_value s'
    split
    · simp [hs', hwf]
    · split
      · simp [hs', hwf]
      · dsimp only; split
        · simp [hs', hwf]
        · simp [hs', hwf]
        · split
          · split
            · simp
            · rintro t ⟨rfl⟩
              rw [State.dlvEnd_mem, State.modCl_mem, foldl_mem _ _ _ fun s p => State.post_mem ..]
              exact Memory.wf_foldl _ (fun s p h => Memory.wf_writeUnder _ _ _ _ _ h) _ _ (hs' ▸ hwf)
          · simp [hs', hwf]
  · simp [hwf]
@[simp] theorem Memory.wf_copyrWork (i : Issue) (m : Cmd) (s : State) (hwf : Memory.wf s.mem = true) :
    Memory.wf (copyrWork i m s).mem = true := by
  unfold copyrWork; dsimp only; split
  · simp [hwf]
  · split
    · exact (EngRes.wf_readElem _ _ _ _ _ _ _ _ hwf).andThen fun _ _ h => h
    · simp [hwf]

/-! ### Kv -/

@[simp] theorem Memory.wf_kvtabWork (i : Issue) (m : Cmd) (s : State) (hwf : Memory.wf s.mem = true) :
    Memory.wf (kvtabWork i m s).mem = true := by
  unfold kvtabWork; dsimp only; split
  · exact hwf
  · rw [State.finishCmd_mem]; exact Memory.wf_writeUnder _ _ _ _ _ hwf
theorem EngRes.wf_kvChunk (s : State) (c u : Nat) (m : Cmd) (seq pos off j : Nat) (write : Option Nat)
    (hwf : Memory.wf s.mem = true) : (s.kvChunk c u m seq pos off j write).Wf :=
  EngRes.wf_engAccess _ _ _ _ _ _ _ _ _ (by simp [hwf])
theorem EngRes.wf_patChunk (s : State) (c u : Nat) (m : Cmd) (p : V512) (k : Nat) (hwf : Memory.wf s.mem = true) :
    (s.patChunk c u m p k).1.Wf := EngRes.wf_readStream _ _ _ _ _ _ _ _ _ hwf
theorem EngRes.wf_patPut (s : State) (c u : Nat) (m : Cmd) (p : V512) (k : Nat) (bs : List Byte) (hwf : Memory.wf s.mem = true) :
    (s.patPut c u m p k bs).Wf := EngRes.wf_writeStream _ _ _ _ _ _ _ _ _ hwf
@[simp] theorem Memory.wf_kvgathWork (i : Issue) (m : Cmd) (s : State) (hwf : Memory.wf s.mem = true) :
    Memory.wf (kvgathWork i m s).mem = true := by
  unfold kvgathWork; dsimp only; split
  · simp [hwf]
  · split
    · simp [hwf]
    · refine (EngRes.wf_kvChunk _ _ _ _ _ _ _ _ _ hwf).andThen fun _ _ h => ?_
      exact (EngRes.wf_patPut _ _ _ _ _ _ _ h).andThen fun _ _ h => h
@[simp] theorem Memory.wf_kvappWork (i : Issue) (m : Cmd) (s : State) (hwf : Memory.wf s.mem = true) :
    Memory.wf (kvappWork i m s).mem = true := by
  unfold kvappWork; dsimp only; split
  · simp [hwf]
  · split
    · simp [hwf]
    · refine (EngRes.wf_patChunk _ _ _ _ _ _ hwf).andThen fun _ _ h => ?_
      exact (EngRes.wf_kvChunk _ _ _ _ _ _ _ _ _ h).andThen fun _ _ h => h
@[simp] theorem Memory.wf_nvWork (i : Issue) (m : Cmd) (s : State) (hwf : Memory.wf s.mem = true) :
    Memory.wf (nvWork i m s).mem = true := by
  unfold nvWork; dsimp only; repeat' split
  all_goals simp [hwf]
@[simp] theorem Memory.wf_pumpLoads (s : State) (hwf : Memory.wf s.mem = true) :
    Memory.wf (s.pumpLoads).mem = true := by
  unfold State.pumpLoads
  exact Memory.wf_foldl _ (fun s id h => Memory.wf_kvPump s id h) _ _ hwf
@[simp] theorem Memory.wf_nvEnd (s : State) (v : NvCmd) (hwf : Memory.wf s.mem = true) :
    Memory.wf (s.nvEnd v).mem = true := by
  unfold State.nvEnd; split <;> simp [hwf]
@[simp] theorem Memory.wf_nvAnswer (s : State) (qc : Nat) (bad : Option NvBad) (hwf : Memory.wf s.mem = true) :
    Memory.wf (s.nvAnswer qc bad).mem = true := by
  unfold State.nvAnswer; split <;> simp [hwf]
@[simp] theorem Memory.wf_repArrive (s : State) (nk id j gn v : Nat) (bad : Option (Cause × Nat × Nat)) (chip : Nat)
    (hwf : Memory.wf s.mem = true) :
    Memory.wf (s.repArrive nk id j gn v bad chip).mem = true := by simp [State.repArrive, hwf]

/-! ### Coll -/

@[simp] theorem Memory.wf_collWork (i : Issue) (m : Cmd) (s : State) (hwf : Memory.wf s.mem = true) :
    Memory.wf (collWork i m s).mem = true := by
  unfold collWork; dsimp only; split
  · split
    · simp [hwf]
    · split
      · simp [hwf]
      · split <;> simp [hwf]
  · split
    · exact hwf
    · split
      · have h := EngRes.wf_readElem s i.c i.u m (m.pats.getD 0 0) 0 (m.aux.getD 1 0) (m.aux.getD 1 0) hwf
        split <;> simp_all [EngRes.Wf]
      · simp [hwf]
    · simp [hwf]
    · split
      · exact (EngRes.wf_writeElem _ _ _ _ _ _ _ _ _ hwf).andThen fun _ _ h => h
      · simp [hwf]

/-! ### Matrix -/

theorem Memory.wf_arrOut (s : State) (i : Issue) (m : Cmd) (ws : List Nat) (nw base : Nat) (isInt : Bool) (out : Nat → Bool)
    (done : State → State) (hdone : ∀ s, Memory.wf s.mem = true → Memory.wf (done s).mem = true) (hwf : Memory.wf s.mem = true) :
    Memory.wf (s.arrOut i m ws nw base isInt out done).mem = true := by
  unfold State.arrOut; dsimp only; split
  · split
    · exact hdone s hwf
    · generalize hx : s.writeElem i.c i.u m m.outPat 0 _ _ _ = x
      have h : x.Wf := hx ▸ EngRes.wf_writeElem _ _ _ _ _ _ _ _ _ hwf
      cases x <;> simpa [EngRes.Wf] using h
  · split
    · exact hdone s hwf
    · split <;> simp [hwf]
  · exact hdone s hwf
theorem EngRes.wf_arrRead (s : State) (c u : Nat) (m : Cmd) (p : V512) (j b n : Nat) (hwf : Memory.wf s.mem = true) :
    (s.arrRead c u m p j b n).1.Wf := EngRes.wf_readStream _ _ _ _ _ _ _ _ _ hwf
@[simp] theorem Memory.wf_streamWork (i : Issue) (m : Cmd) (s : State) (hwf : Memory.wf s.mem = true) :
    Memory.wf (streamWork i m s).mem = true := by
  unfold streamWork; extract_lets a nw mt rb r r' outs len
  split
  · split <;> simp [hwf]
  · split
    · split
      · have hr : r.1.Wf := EngRes.wf_arrRead _ _ _ _ _ _ _ _ hwf
        split
        · next h => rw [h] at hr; exact hr
        · next h => rw [h] at hr; rw [State.arrFail_mem]; exact hr
        · next t _ h =>
          rw [h] at hr
          extract_lets q
          have hq : q.1.Wf := by
            dsimp only [q]; split
            · exact EngRes.wf_arrRead _ _ _ _ _ _ _ _ hr
            · exact hr
          split
          · next h => rw [h] at hq; exact hq
          · next h => rw [h] at hq; rw [State.arrFail_mem]; exact hq
          · next h => rw [h] at hq; exact hq
      · split <;> simp [hwf]
    · exact Memory.wf_arrOut _ _ _ _ _ _ _ _ _ (fun _ h => h) hwf
    · exact hwf
@[simp] theorem Memory.wf_maccWork (i : Issue) (m : Cmd) (s : State) (hwf : Memory.wf s.mem = true) :
    Memory.wf (maccWork i m s).mem = true := by
  unfold maccWork; dsimp only; split
  · split <;> simp [hwf]
  · exact Memory.wf_arrOut _ _ _ _ _ _ _ _ _ (fun _ h => by simp [h]) hwf

/-! ### Dir -/

@[simp] theorem Memory.wf_reclaim (s : State) (ob : Nat) (o : Obj) (hwf : Memory.wf s.mem = true) :
    Memory.wf (s.reclaim ob o).mem = true := by
  unfold State.reclaim; dsimp only; repeat' split
  all_goals simp [Memory.wf_writeUnder, hwf]

/-! ### Task -/

@[simp] theorem Memory.wf_launchWork (i : Issue) (m : Cmd) (s : State) (hwf : Memory.wf s.mem = true) :
    Memory.wf (launchWork i m s).mem = true := by
  unfold launchWork; dsimp only; repeat' split
  all_goals simp [Memory.wf_writeUnder, hwf]

/-! ### Reset -/

@[simp] theorem Memory.wf_statusWrite (s : State) (q : Nat) (retry : Bool) (hwf : Memory.wf s.mem = true) :
    Memory.wf (s.statusWrite q retry).mem = true := by
  unfold State.statusWrite; dsimp only; repeat' split
  all_goals simp [Memory.wf_writeUnder, hwf]
@[simp] theorem Memory.wf_statusAll (s : State) (hwf : Memory.wf s.mem = true) :
    Memory.wf (s.statusAll).mem = true := by
  unfold State.statusAll; dsimp only
  exact Memory.wf_foldl _ (fun s q h => Memory.wf_statusWrite s q false h) _ _ (by simp [hwf])
@[simp] theorem Memory.wf_warmReset (s : State) (src : Nat) (hwf : Memory.wf s.mem = true) :
    Memory.wf (s.warmReset src).mem = true := by
  unfold State.warmReset; split
  · exact hwf
  · dsimp only; rw [setResetStatus_mem]
    refine Memory.wf_stopLoads _ ?_
    rw [State.disableQueues_mem]
    exact Memory.wf_statusAll _ (by simp [hwf])
@[simp] theorem Memory.wf_trip (s : State) (tj : Nat) (hwf : Memory.wf s.mem = true) :
    Memory.wf (s.trip tj).mem = true := by simp [State.trip, hwf]

/-! ### Regs -/

@[simp] theorem Memory.wf_writeReset (s : State) (w : Party0) (v : Nat) (hwf : Memory.wf s.mem = true) :
    Memory.wf (s.writeReset w v).mem = true := by
  unfold State.writeReset; dsimp only; split <;> simp [hwf]
@[simp] theorem Memory.wf_regWrite (s : State) (w : Party0) (n v : Nat) (hwf : Memory.wf s.mem = true) :
    Memory.wf (s.regWrite w n v).mem = true := by
  unfold State.regWrite; split
  · exact hwf
  · extract_lets old set q
    have hset (x : Nat) : Memory.wf (set x).mem = true := by rw [show (set x).mem = s.mem from srSet_mem ..]; exact hwf
    refine Memory.wf_of_ite hwf <| Memory.wf_of_ite (hset _) <| Memory.wf_of_ite (hset _) <| Memory.wf_of_ite (hset _) <|
      Memory.wf_of_ite (by simp [hwf]) <|
      Memory.wf_of_ite (Memory.wf_of_ite hwf (hset _)) <| Memory.wf_of_ite (Memory.wf_of_ite (hset _) hwf) <|
      Memory.wf_of_ite (by simp [hwf]) <|
      Memory.wf_of_ite (hset _) <| Memory.wf_of_ite (Memory.wf_writeReset _ _ _ hwf) <| Memory.wf_of_ite ?queue <|
      Memory.wf_of_ite (by simp [hwf]) <|
      Memory.wf_of_ite (by simp [hwf]) (hset _)
    clear_value q
    split
    · exact Memory.wf_of_ite hwf (hset _)
    · simp [hwf]
    · simp [hwf]
@[simp] theorem Memory.wf_agentWrite (s : State) (a n v : Nat) (hwf : Memory.wf s.mem = true) :
    Memory.wf (s.agentWrite a n v).mem = true := by
  unfold State.agentWrite; dsimp only; repeat' split
  all_goals simp [hwf]

/-! ### Isol -/

@[simp] theorem Memory.wf_wrsrIssue (s : State) (nk : Nat) (w : SWord) (l : Option Opnd) (hwf : Memory.wf s.mem = true) :
    Memory.wf (s.wrsrIssue nk w l).mem = true := by simp [State.wrsrIssue, hwf]

/-! ### Token -/

@[simp] theorem Memory.wf_spillTok (s : State) (c : Nat) (t : Tok) (hwf : Memory.wf s.mem = true) :
    Memory.wf (s.spillTok c t).mem = true := by
  unfold State.spillTok; extract_lets nk n e put limit room again
  have hput (s : State) (h : Memory.wf s.mem = true) : Memory.wf (put s).mem = true := by
    dsimp only [put]; split
    · simp [h]
    · rw [State.modNd_mem]
      exact Memory.wf_freeBytes _ _ _ h
  have hagain (s : State) (h : Memory.wf s.mem = true) : Memory.wf (again s).mem = true := by
    dsimp only [again]; split
    · simp [h]
    · split
      · exact hput _ (by simp [h])
      · simp [h]
  split
  · exact hput s hwf
  · split
    · simp [hwf]
    · split
      · exact hagain s hwf
      · split
        · exact hput s hwf
        · exact hagain s hwf
@[simp] theorem Memory.wf_storeTok (s : State) (c : Nat) (t : Tok) (hwf : Memory.wf s.mem = true) :
    Memory.wf (s.storeTok c t).mem = true := by simp [State.storeTok, hwf]
@[simp] theorem Memory.wf_tokMatch (s : State) (c : Nat) (t : Tok) (i : Instr) (hwf : Memory.wf s.mem = true) :
    Memory.wf (s.tokMatch c t i).mem = true := by
  unfold State.tokMatch; dsimp only; repeat' split
  all_goals simp [hwf]
@[simp] theorem Memory.wf_tokenArrive (s : State) (c : Nat) (t : Tok) (hwf : Memory.wf s.mem = true) :
    Memory.wf (s.tokenArrive c t).mem = true := by
  unfold State.tokenArrive; dsimp only; repeat' split
  all_goals simp [hwf]

/-! ### Invoc -/

@[simp] theorem Memory.wf_matchWaiting (s : State) (c p ws it : Nat) (is : List (Nat × Instr)) (hwf : Memory.wf s.mem = true) :
    Memory.wf (s.matchWaiting c p ws it is).mem = true := by
  unfold State.matchWaiting
  refine Memory.wf_foldl _ (fun s e h => ?_) _ _ hwf
  dsimp only; split
  · exact h
  · split <;> simp [h]
@[simp] theorem Memory.wf_foldWake (s : State) (c p ix n : Nat) (i : Instr) (hwf : Memory.wf s.mem = true) :
    Memory.wf (s.foldWake c p ix n i).mem = true := by
  unfold State.foldWake; split
  · exact Memory.wf_foldl _ (fun s v h => Memory.wf_matchWaiting _ _ _ _ _ _ h) _ _ hwf
  · exact hwf
@[simp] theorem Memory.wf_startInv (s : State) (nk n ws : Nat) (sp : Option Spawn) (hwf : Memory.wf s.mem = true) :
    Memory.wf (s.startInv nk n ws sp).mem = true := by
  unfold State.startInv; split <;> simp [hwf]
@[simp] theorem Memory.wf_releaseInv (s : State) (nk : Nat) (v : Inv) (tags : List (Nat × Nat × Nat))
    (hwf : Memory.wf s.mem = true) :
    Memory.wf (s.releaseInv nk v tags).mem = true := by
  unfold State.releaseInv; dsimp only
  rw [State.pruneAccs_mem, State.freeOperands_mem, State.freeTakes_mem, State.modNd_mem, State.commitActs_mem]
  refine Memory.wf_releaseAccs _ _ _ ?_
  rw [foldl_mem]
  · split
    · rw [State.modNd_mem, foldl_mem]
      · simp [hwf]
      · intro s h; dsimp only; split <;> simp
    · rw [foldl_mem]
      · simp [hwf]
      · intro s h; dsimp only; split <;> simp
  · intro s h; dsimp only; split <;> simp
theorem Memory.wf_issueAct {s t : State} {nk ix age n fctl : Nat} {i : Instr} {l r q : Option Opnd}
    {place : Option (Nat × Nat × Nat)} {tag : Option Nat} (hwf : Memory.wf s.mem = true)
    (h : s.issueAct nk ix i l r q age n fctl place tag = some t) : Memory.wf t.mem = true := by
  revert t
  unfold State.issueAct; dsimp only
  split
  case h_1 => split <;> simp [hwf]
  case h_6 => split <;> simp [hwf]
  case h_7 =>
    split
    · split
      · simp
      · repeat' split
        all_goals simp [hwf]
    · simp [hwf]
  all_goals simp [hwf]
theorem Memory.wf_doAct {s t : State} {nk : Nat} {a : Act} (hwf : Memory.wf s.mem = true) (h : s.doAct nk a = some t) :
    Memory.wf t.mem = true := by
  cases a with
  | flip tile =>
    rw [State.doAct] at h
    split at h <;> cases h
    simp [hwf]
  | issue ix i l r q age n fctl place tag => exact Memory.wf_issueAct hwf h
  | exit ex n age tag ret => exact (State.exitAct_mem h).symm ▸ hwf
theorem Memory.wf_runActs (fuel : Nat) : ∀ (s : State) (nk : Nat), Memory.wf s.mem = true →
    Memory.wf (s.runActs nk fuel).mem = true := by
  induction fuel with
  | zero => intro s nk h; exact h
  | succ n ih =>
    intro s nk hwf
    unfold State.runActs; split
    · simp [hwf]
    · split
      · exact hwf
      · next h => exact ih _ _ (by simp [Memory.wf_doAct hwf h])
@[simp] theorem Memory.wf_goOn (s : State) (nk : Nat) (hwf : Memory.wf s.mem = true) :
    Memory.wf (s.goOn nk).mem = true := by
  unfold State.goOn; exact Memory.wf_runActs _ _ _ hwf
@[simp] theorem Memory.wf_commitInv (s : State) (nk : Nat) (v : Inv) (hwf : Memory.wf s.mem = true) :
    Memory.wf (s.commitInv nk v).mem = true := by
  unfold State.commitInv; dsimp only; split
  · simp [hwf]
  · have h := Pass.wf_secondPass s nk v.age hwf
    split
    · next ht => rw [ht] at h; exact h
    · next ht => rw [ht] at h; exact h
    · next t ht =>
      rw [ht] at h
      have hx : Memory.wf (t.takeTags nk v.tags v.sorted).s.mem = true := by rw [State.takeTags_mem]; exact h
      split
      · exact hx
      · exact Memory.wf_goOn _ _ (Memory.wf_releaseInv _ _ _ _ (by simp [hx]))
@[simp] theorem Memory.wf_commitNext (s : State) (nk k : Nat) (hwf : Memory.wf s.mem = true) :
    Memory.wf (s.commitNext nk k).mem = true := by
  unfold State.commitNext; split <;> simp [hwf]

/-! ### Weir -/

@[simp] theorem Memory.wf_giveCluster (s : State) (c k part : Nat) (hwf : Memory.wf s.mem = true) :
    Memory.wf (s.giveCluster c k part).mem = true := by
  unfold State.giveCluster; dsimp only
  rw [State.modCl_mem]; split
  · exact hwf
  · exact Memory.wf_filter _ _ hwf
@[simp] theorem Memory.wf_applyReg (s : State) (nk e : Nat) (hwf : Memory.wf s.mem = true) :
    Memory.wf (s.applyReg nk e).mem = true := by
  unfold State.applyReg; dsimp only; split <;> simp [hwf]
@[simp] theorem Memory.wf_admitKernel (s : State) (a : Head) (d x y : Nat) (r : KernRec) (hwf : Memory.wf s.mem = true) :
    Memory.wf (s.admitKernel a d x y r).mem = true := by
  unfold State.admitKernel; dsimp only
  rw [foldl_mem, State.take_mem, foldl_mem]
  · refine Memory.wf_foldl _ (fun s e h => ?_) _ _ ?_
    · refine Memory.wf_foldl _ (fun s v h => Memory.wf_applyReg _ _ _ h) _ _ ?_
      refine Memory.wf_foldl _ (fun s v h => Memory.wf_applyReg _ _ _ h) _ _ ?_
      rw [State.clearNodeRegs_mem, State.setNd_mem]
      exact h
    · exact Memory.wf_foldl _ (fun s c h => Memory.wf_giveCluster _ _ _ _ h) _ _ hwf
  · intro s e; dsimp only; split <;> simp
  · intro s i; dsimp only; split <;> simp
@[simp] theorem Memory.wf_resumeKernel (s : State) (k q : Nat) (hwf : Memory.wf s.mem = true) :
    Memory.wf (s.resumeKernel k q).mem = true := by
  unfold State.resumeKernel; split
  · exact hwf
  · next x _ =>
    extract_lets l s1 s2 s3 s4 s5 mine s6 s7 s8 s9 s10
    have h1 : Memory.wf s1.mem = true := by simp [s1, hwf]
    split
    · simp [h1]
    · have h6 : Memory.wf s6.mem = true := by
        have h2 : Memory.wf s2.mem = true := Memory.wf_foldl _ (fun s c h => Memory.wf_giveCluster _ _ _ _ h) _ _ h1
        have h3 : s3.mem = s2.mem := foldl_mem _ _ _ fun s c => by split <;> simp
        have h4 : s4.mem = s3.mem := foldl_mem _ _ _ fun s d => by split <;> simp
        simp [s6, s5, h4, h3, h2]
      have h8 : Memory.wf s8.mem = true := by
        have put (l : List Host.Cell) (t : State) (h : Memory.wf t.mem = true) :
            Memory.wf (l.foldr (fun e s => memPut s e.1 e.2) t).mem = true := by
          induction l with
          | nil => exact h
          | cons e l ih => exact Memory.wf_memPut _ _ _ ih
        exact put _ _ (Memory.wf_filter _ _ h6)
      have h10 : s10.mem = s8.mem := by simp [s10, s9]
      rw [foldl_mem _ _ _ fun s f => State.applyFret_mem .., h10]
      exact h8
@[simp] theorem Memory.wf_admitHead (s : State) (d : Nat) (a : Head) (p : Nat × Nat) (hwf : Memory.wf s.mem = true) :
    Memory.wf (s.admitHead d a p).mem = true := by
  unfold State.admitHead; repeat' split
  all_goals simp [hwf]
@[simp] theorem Memory.wf_weir (s : State) (d : Nat) (hwf : Memory.wf s.mem = true) :
    Memory.wf (s.weir d).mem = true := by
  unfold State.weir; dsimp only; repeat' split
  all_goals simp [hwf]
@[simp] theorem Memory.wf_drainOut (s : State) (nk : Nat) (hwf : Memory.wf s.mem = true) :
    Memory.wf (s.drainOut nk).mem = true := by simp [State.drainOut, hwf]
@[simp] theorem Memory.wf_saveKernel (s : State) (k : Nat) (x : Kernel) (hwf : Memory.wf s.mem = true) :
    Memory.wf (s.saveKernel k x).mem = true := by simp [State.saveKernel, hwf]

/-! ### Arrive -/

theorem Memory.wf_relArrive {s t : State} {nk id : Nat} (hwf : Memory.wf s.mem = true) (h : s.relArrive nk id = some t) :
    Memory.wf t.mem = true := by
  revert t
  unfold State.relArrive; dsimp only
  repeat' split
  all_goals simp [Memory.wf_writeUnder, hwf]
theorem Memory.wf_msgDo {s t : State} {m : Parcel} (hwf : Memory.wf s.mem = true) (h : s.msgDo m = some t) :
    Memory.wf t.mem = true := by
  have hu : Memory.wf (s.unbox m).mem = true := hwf
  revert t
  unfold State.msgDo; dsimp only
  split
  case h_1 => intro t; exact Memory.wf_accArrive hu
  case h_2 => intro t; exact Memory.wf_rreqArrive hu
  case h_3 => split <;> simp [hwf]
  case h_5 => intro t; exact Memory.wf_relArrive hu
  case h_12 =>
    split
    · simp
    · intro t h
      obtain ⟨x, hx, rfl⟩ := Option.map_eq_some_iff.1 h
      have := Memory.wf_slotArrive hwf hx
      split <;> simp [this]
  case h_13 => split <;> simp [hwf]
  case h_14 => intro t; exact Memory.wf_winArrive hu
  case h_15 =>
    split
    · simp
    · split <;> simp [hwf]
  case h_18 =>
    split
    · simp [hwf]
    · split <;> simp [hwf]
  case h_19 =>
    intro t h
    obtain ⟨x, hx, rfl⟩ := Option.map_eq_some_iff.1 h
    split <;> simp [State.kmsArrive_mem hx, hwf]
  case h_20 => split <;> simp [hwf]
  case h_22 => intro t h; exact (State.recArrive_mem h).symm ▸ hu
  all_goals simp [hwf]
@[simp] theorem Memory.wf_arriveAt (s : State) (k : Nat) (kind : Msg → Bool) (hwf : Memory.wf s.mem = true) :
    Memory.wf (s.arriveAt k kind).mem = true := by
  unfold State.arriveAt; dsimp only; split
  · simp [hwf]
  · next m _ =>
    rw [State.kernelsCheck_mem]
    cases h : (s.picking k).msgDo m with
    | none => exact hwf
    | some t => exact Memory.wf_msgDo (s := s.picking k) hwf h

/-! ### Units -/

theorem Memory.wf_nvData (ps : List (Nat × Nat × Nat)) : ∀ (s : State) (bs : List Byte), Memory.wf s.mem = true →
    Memory.wf (s.nvData ps bs).mem = true := by
  induction ps with
  | nil => intro s bs h; exact h
  | cons p ps ih =>
    intro s bs h
    refine ih _ _ ?_
    split
    · exact h
    · exact Memory.wf_writeRunUnder _ _ _ _ _ h
@[simp] theorem Memory.wf_cqStep (s : State) (qp : Nat) (hwf : Memory.wf s.mem = true) :
    Memory.wf (s.cqStep qp).mem = true := by
  unfold State.cqStep; dsimp only; rw [srSet_mem]
  exact Memory.wf_freeBytes _ _ _ hwf
@[simp] theorem Memory.wf_nvComplete (s : State) (qp cid status : Nat) (data : List Byte) (hwf : Memory.wf s.mem = true) :
    Memory.wf (s.nvComplete qp cid status data).mem = true := by
  unfold State.nvComplete; split
  · exact hwf
  · apply Memory.wf_nvEnd
    rw [State.nvAsk_mem]
    simp [Memory.wf_nvData, hwf]

/-! ### Outside -/

@[simp] theorem Memory.wf_agentDoes (s : State) (a n v : Nat) (hwf : Memory.wf s.mem = true) :
    Memory.wf (s.agentDoes a n v).mem = true := by simp [State.agentDoes, hwf]

end Sys2Proof.Machine
end

