-- ==== Sys2Proof/Proofs/MemoryAnswers.lean ====
section
/-!
SUPPORT. Whatever an instruction or a step of the machine answers next has memory in canonical form.
-/

namespace Sys2Proof.Machine

/-- What a meaning answers next has canonical memory. -/
def NextWf (o : Out) : Prop := ∀ t, o = .next t → Memory.wf t.mem = true

@[simp] theorem nextWf_next (t : State) : NextWf (.next t) ↔ Memory.wf t.mem = true :=
  ⟨fun h => h t rfl, fun h _ ht => by cases ht; exact h⟩
@[simp] theorem nextWf_fault (r : Fault) : NextWf (.fault r) := fun _ ht => by cases ht

/-! ### The shared ways of firing -/

@[simp] theorem heldFire_mem (op : Op) (ins : Instr) (prd : Prd) (sbs : Option (BitVec 3)) (p : Ports)
    (chk : Issue → Inv → State → Option Cause) (i : Issue) (s : State) : (heldFire op ins prd sbs p chk i s).mem = s.mem := by
  obtain h | h | ⟨c, h⟩ | ⟨v, -, -, h | ⟨k, h⟩⟩ := heldFire_cases op ins prd sbs p chk i s <;> simp [h]

theorem nextWf_gFire {op : Op} {w : GWord} {t : Ty} {ids : Option (Val × Val)} {f : Nat → Opnd → Opnd → Opnd → GRes} {s : State}
    (hwf : Memory.wf s.mem = true) : NextWf (gFire op w t ids f s) := fun u hu => by
  obtain rfl | ⟨i, v, -, -, rfl | rfl | rfl | rfl⟩ := gFire_cases hu <;> simp [hwf]

theorem nextWf_gOwn {op : Op} {w : GWord} {eff : Bool} {f : Issue → Inv → Status → State → State} {s : State} {ab : Issue → Bool}
    (hwf : Memory.wf s.mem = true) (hf : ∀ i v st, (f i v st s).mem = s.mem) : NextWf (gOwn op w eff f s ab) := fun u hu => by
  obtain rfl | ⟨i, v, -, -, rfl | rfl | rfl⟩ := gOwn_cases hu <;> simp [hf, hwf]

theorem nextWf_atOnce {op : Op} {prd : Prd} {p : Ports} {wt : Bool} {f : Issue → Inv → State → State} {s : State}
    (hwf : Memory.wf s.mem = true) (hf : ∀ i v, (f i v s).mem = s.mem) : NextWf (atOnce op prd p wt f s) := fun u hu => by
  obtain rfl | ⟨i, v, -, -, rfl | ⟨c, rfl⟩ | rfl | rfl⟩ := atOnce_cases hu <;> simp [hf, hwf]

theorem nextWf_exitFire {op : Op} {w : CWord} {needL call : Bool} {dest : Node → Nat → Option Nat} {s : State}
    (hwf : Memory.wf s.mem = true) : NextWf (exitFire op w needL call dest s) := by
  unfold exitFire
  repeat' split
  all_goals simp [hwf]

theorem nextWf_redFire {op : Op} {w : GWord} {idn : Option Val} {prev : Nat → Option Nat} {last : Nat → Bool}
    {f : Nat → Nat → Red → Opnd → Bool → Except Cause (Red × Nat)} {out : Nat → Red → Opnd × Nat} {s : State}
    (hwf : Memory.wf s.mem = true) : NextWf (redFire op w idn prev last f out s) := by
  unfold redFire; split
  · simp [hwf]
  · split
    · simp [hwf]
    · extract_lets nd n r0 folded
      clear_value folded
      split
      · simp [hwf]
      · split
        · simp [hwf]
        · extract_lets sent flags
          clear_value sent flags
          split
          · simp [hwf]
          · next t _ => split <;> simp [t, hwf]

theorem nextWf_barFire {op : Op} {w : GWord} {a : Bool} {f : Issue → Inv → State → State} {s : State}
    (hwf : Memory.wf s.mem = true) (hf : ∀ i v, (f i v s).mem = s.mem) : NextWf (barFire op w a f s) := by
  unfold barFire
  repeat' split
  all_goals simp [hf, hwf]

theorem nextWf_sHeld {op : Op} {ins : Instr} {prd : Prd} {p : Ports} {chk : Issue → Inv → State → Option Cause} {s : State}
    (hwf : Memory.wf s.mem = true) : NextWf (sHeld op ins prd p chk s) := by
  unfold sHeld; split <;> simp [hwf]

theorem nextWf_memExec {op : Op} {ins : Instr} {w : MWord} {s : State} (hwf : Memory.wf s.mem = true) :
    NextWf (memExec op ins w s) := by
  unfold memExec
  repeat' split
  all_goals simp [hwf]

theorem nextWf_eExec {op : Op} {ins : Instr} {w : EWord} {p : Ports} {chk : Issue → Inv → State → Option Cause}
    {work : Issue → Cmd → State → State} {s : State} {lost : Issue → Cmd → Pending → State → State}
   
    (hwf : Memory.wf s.mem = true) (hwork : ∀ i m, Memory.wf (work i m s).mem = true) (hlost : ∀ i m f, (lost i m f s).mem = s.mem) :
    NextWf (eExec op ins w p chk work s lost) := by
  unfold eExec
  repeat' split
  all_goals simp [hwf, hwork, hlost]

/-! ### Instructions and steps of their own form -/

theorem nextWf_execLdrgn (w : MWord) (s : State) (hwf : Memory.wf s.mem = true) : NextWf (execLdrgn w s) := by
  unfold execLdrgn; dsimp only; repeat' split
  all_goals simp [hwf]
theorem nextWf_execRead (w : GWord) (s : State) (hwf : Memory.wf s.mem = true) : NextWf (execRead w s) := by
  unfold execRead; dsimp only; repeat' split
  all_goals simp [hwf]
theorem nextWf_execOperandTokenArrival (c k : Nat) (s : State) (hwf : Memory.wf s.mem = true) :
    NextWf (execOperandTokenArrival c k s) := by
  unfold execOperandTokenArrival; split <;> simp [hwf]
theorem nextWf_execInvocationStart (c p : Nat) (s : State) (hwf : Memory.wf s.mem = true) : NextWf (execInvocationStart c p s) := by
  unfold execInvocationStart; dsimp only; repeat' split
  all_goals simp [hwf]
theorem nextWf_execInvocationCommit (c p k : Nat) (s : State) (hwf : Memory.wf s.mem = true) :
    NextWf (execInvocationCommit c p k s) := by
  unfold execInvocationCommit; dsimp only; repeat' split
  all_goals simp [hwf]
theorem nextWf_execEngineQueueRoom (c p : Nat) (s : State) (hwf : Memory.wf s.mem = true) : NextWf (execEngineQueueRoom c p s) := by
  unfold execEngineQueueRoom; dsimp only; repeat' split
  all_goals simp [hwf]
theorem nextWf_execWmTokensSet (c p : Nat) (s : State) (hwf : Memory.wf s.mem = true) : NextWf (execWmTokensSet c p s) := by
  unfold execWmTokensSet; dsimp only; repeat' split
  all_goals simp [hwf]
theorem nextWf_execInvocationDiscard (c p : Nat) (s : State) (hwf : Memory.wf s.mem = true) :
    NextWf (execInvocationDiscard c p s) := by
  unfold execInvocationDiscard; dsimp only; repeat' split
  all_goals simp [hwf]
theorem nextWf_execWatchdogExpiry (c p k : Nat) (s : State) (hwf : Memory.wf s.mem = true) :
    NextWf (execWatchdogExpiry c p k s) := by
  unfold execWatchdogExpiry; dsimp only; repeat' split
  all_goals simp [hwf]
theorem nextWf_execTagPoolDeadlock (c p : Nat) (s : State) (hwf : Memory.wf s.mem = true) : NextWf (execTagPoolDeadlock c p s) := by
  unfold execTagPoolDeadlock; dsimp only; repeat' split
  all_goals simp [hwf]
theorem nextWf_execEngineFault (c p : Nat) (s : State) (hwf : Memory.wf s.mem = true) : NextWf (execEngineFault c p s) := by
  unfold execEngineFault; dsimp only; split
  · exact (nextWf_next _).2 hwf
  · split
    · exact (nextWf_next _).2 hwf
    · split
      · exact (nextWf_next _).2 (by rwa [State.formRecord_mem, State.modNd_mem])
      · exact (nextWf_next _).2 (by
          rwa [State.unspill_mem, State.modNd_mem, State.formRecord_mem, State.discardFrom_mem, State.modNd_mem])
theorem nextWf_execBlockCacheFill (c p : Nat) (s : State) (hwf : Memory.wf s.mem = true) : NextWf (execBlockCacheFill c p s) := by
  unfold execBlockCacheFill; dsimp only; repeat' split
  all_goals simp [hwf]
theorem nextWf_execBlockMap (c p : Nat) (s : State) (hwf : Memory.wf s.mem = true) : NextWf (execBlockMap c p s) := by
  unfold execBlockMap; dsimp only; repeat' split
  all_goals simp [hwf]
theorem nextWf_execAdmissionInterval (d : Nat) (s : State) (hwf : Memory.wf s.mem = true) : NextWf (execAdmissionInterval d s) := by
  unfold execAdmissionInterval; split <;> simp [hwf]
theorem nextWf_execDrainLimitExpiry (c p : Nat) (s : State) (hwf : Memory.wf s.mem = true) :
    NextWf (execDrainLimitExpiry c p s) := by
  unfold execDrainLimitExpiry; dsimp only; repeat' split
  all_goals simp [hwf]
theorem nextWf_execContextImageWrite (n : Nat) (s : State) (hwf : Memory.wf s.mem = true) : NextWf (execContextImageWrite n s) := by
  unfold execContextImageWrite; repeat' split
  all_goals simp [hwf]
theorem nextWf_execManagementCorePreemption (n : Nat) (s : State) (hwf : Memory.wf s.mem = true) :
    NextWf (execManagementCorePreemption n s) := by
  unfold execManagementCorePreemption; split <;> simp [hwf]
theorem nextWf_execStatusWordWrite (k : Nat) (s : State) (hwf : Memory.wf s.mem = true) : NextWf (execStatusWordWrite k s) := by
  simp [execStatusWordWrite, hwf]
theorem nextWf_execStatusWriteRetry (k : Nat) (s : State) (hwf : Memory.wf s.mem = true) : NextWf (execStatusWriteRetry k s) := by
  simp [execStatusWriteRetry, hwf]
theorem nextWf_execMessageRetry (k : Nat) (s : State) (hwf : Memory.wf s.mem = true) : NextWf (execMessageRetry k s) := by
  unfold execMessageRetry
  cases h : s.mesgRetry k with
  | none => simpa using hwf
  | some t => simp [State.mesgRetry_mem h, hwf]
theorem nextWf_execCollectiveEpisode (k : Nat) (s : State) (hwf : Memory.wf s.mem = true) : NextWf (execCollectiveEpisode k s) := by
  simp [execCollectiveEpisode, hwf]
theorem nextWf_execStreamReadAhead (c p ix it a : Nat) (s : State) (hwf : Memory.wf s.mem = true) :
    NextWf (execStreamReadAhead c p ix it a s) := by
  unfold execStreamReadAhead; split <;> simp [hwf]
theorem nextWf_execEngineCompletion (c u : Nat) (s : State) (hwf : Memory.wf s.mem = true) :
    NextWf (execEngineCompletion c u s) := by
  unfold execEngineCompletion; repeat' split
  all_goals simp [hwf]
theorem nextWf_execMatrixTileCommit (c : Nat) (s : State) (hwf : Memory.wf s.mem = true) : NextWf (execMatrixTileCommit c s) := by
  simp [execMatrixTileCommit, hwf]
theorem nextWf_execLandingRingRecheck (k : Nat) (s : State) (hwf : Memory.wf s.mem = true) :
    NextWf (execLandingRingRecheck k s) := by
  unfold execLandingRingRecheck; split <;> simp [hwf]
theorem nextWf_execKvBlockLoadCompletion (k : Nat) (s : State) (hwf : Memory.wf s.mem = true) :
    NextWf (execKvBlockLoadCompletion k s) := by
  unfold execKvBlockLoadCompletion; split <;> simp [hwf]
theorem nextWf_execNvmeCompletion (k : Nat) (s : State) (hwf : Memory.wf s.mem = true) : NextWf (execNvmeCompletion k s) := by
  unfold execNvmeCompletion; split
  · simp [hwf]
  · split
    · split <;> simp [hwf]
    · simp [hwf]
theorem nextWf_execNvmeTimeout (k : Nat) (s : State) (hwf : Memory.wf s.mem = true) : NextWf (execNvmeTimeout k s) := by
  unfold execNvmeTimeout; dsimp only; split <;> simp [hwf]
theorem nextWf_execObjectReclamation (k : Nat) (s : State) (hwf : Memory.wf s.mem = true) : NextWf (execObjectReclamation k s) := by
  unfold execObjectReclamation; split <;> simp [hwf]
theorem nextWf_execFreeListHeadRecheck (k : Nat) (s : State) (hwf : Memory.wf s.mem = true) :
    NextWf (execFreeListHeadRecheck k s) := by
  unfold execFreeListHeadRecheck; split <;> simp [hwf]
theorem nextWf_execTinvHolderAck (k : Nat) (s : State) (hwf : Memory.wf s.mem = true) : NextWf (execTinvHolderAck k s) := by
  simp [execTinvHolderAck, hwf]
theorem nextWf_execKeySlotReplace (k : Nat) (s : State) (hwf : Memory.wf s.mem = true) : NextWf (execKeySlotReplace k s) := by
  simp [execKeySlotReplace, hwf]
theorem nextWf_execMonitorResolve (i mode : Nat) (s : State) (hwf : Memory.wf s.mem = true) :
    NextWf (execMonitorResolve i mode s) := by
  unfold execMonitorResolve; dsimp only; repeat' split
  all_goals simp [hwf]
theorem nextWf_execEgressArbitration (r port : Nat) (s : State) (hwf : Memory.wf s.mem = true) :
    NextWf (execEgressArbitration r port s) := by
  simp [execEgressArbitration, hwf]
theorem nextWf_execAgeingStep (r k : Nat) (s : State) (hwf : Memory.wf s.mem = true) : NextWf (execAgeingStep r k s) := by
  simp [execAgeingStep, hwf]
theorem nextWf_execHeadgateCharge (c part : Nat) (s : State) (hwf : Memory.wf s.mem = true) :
    NextWf (execHeadgateCharge c part s) := by
  unfold execHeadgateCharge
  cases h : s.passPort c part with
  | none => simpa using hwf
  | some t => simp [State.passPort_mem h, hwf]
theorem nextWf_execHeadgateRefill (d : Nat) (s : State) (hwf : Memory.wf s.mem = true) : NextWf (execHeadgateRefill d s) := by
  unfold execHeadgateRefill; split <;> simp [hwf]
theorem nextWf_execSluiceLeak (c : Nat) (s : State) (hwf : Memory.wf s.mem = true) : NextWf (execSluiceLeak c s) := by
  unfold execSluiceLeak; split <;> simp [hwf]
theorem nextWf_execLinkFlitReceive (port : Nat) (s : State) (hwf : Memory.wf s.mem = true) :
    NextWf (execLinkFlitReceive port s) := by
  unfold execLinkFlitReceive; dsimp only; repeat' split
  all_goals simp [hwf]
theorem nextWf_execLinkAckReceive (port : Nat) (s : State) (hwf : Memory.wf s.mem = true) : NextWf (execLinkAckReceive port s) := by
  unfold execLinkAckReceive; dsimp only; repeat' split
  all_goals simp [hwf]
theorem nextWf_execLaneFailure (port lane : Nat) (s : State) (hwf : Memory.wf s.mem = true) :
    NextWf (execLaneFailure port lane s) := by
  unfold execLaneFailure; split <;> simp [hwf]
theorem nextWf_execPlannedWidthChange (port width : Nat) (s : State) (hwf : Memory.wf s.mem = true) :
    NextWf (execPlannedWidthChange port width s) := by
  unfold execPlannedWidthChange; dsimp only; repeat' split
  all_goals simp [hwf]
theorem nextWf_execLinkRetrainComplete (port : Nat) (s : State) (hwf : Memory.wf s.mem = true) :
    NextWf (execLinkRetrainComplete port s) := by
  unfold execLinkRetrainComplete; dsimp only; split <;> simp [hwf]
theorem nextWf_execIslandDvfsChange (i setting : Nat) (s : State) (hwf : Memory.wf s.mem = true) :
    NextWf (execIslandDvfsChange i setting s) := by
  unfold execIslandDvfsChange; split <;> simp [hwf]
theorem nextWf_execThermalThrottle (tj : Nat) (s : State) (hwf : Memory.wf s.mem = true) : NextWf (execThermalThrottle tj s) := by
  simp [execThermalThrottle, hwf]
theorem nextWf_execThermalTrip (tj : Nat) (s : State) (hwf : Memory.wf s.mem = true) : NextWf (execThermalTrip tj s) := by
  simp [execThermalTrip, hwf]
theorem nextWf_execPowerFailure (s : State) : NextWf (execPowerFailure s) :=
  (nextWf_next _).2 (by rw [State.coldReset_mem]; rfl)
theorem nextWf_execColdReset (s : State) : NextWf (execColdReset s) :=
  (nextWf_next _).2 (by rw [State.coldReset_mem]; rfl)
theorem nextWf_execWarmReset (src : Nat) (s : State) (hwf : Memory.wf s.mem = true) : NextWf (execWarmReset src s) := by
  unfold execWarmReset; repeat' split
  all_goals simp [hwf]
theorem nextWf_execPartitionReset (p src : Nat) (s : State) (hwf : Memory.wf s.mem = true) :
    NextWf (execPartitionReset p src s) := by
  unfold execPartitionReset; repeat' split
  all_goals simp [hwf]
theorem nextWf_execSectionAbort (q rec : Nat) (s : State) (hwf : Memory.wf s.mem = true) : NextWf (execSectionAbort q rec s) := by
  unfold execSectionAbort; split <;> simp [hwf]
theorem nextWf_execBootStage (fail : Nat) (s : State) (hwf : Memory.wf s.mem = true) : NextWf (execBootStage fail s) := by
  simp [execBootStage, hwf]
theorem nextWf_execAttestationSign (nonce : Nat) (s : State) (hwf : Memory.wf s.mem = true) :
    NextWf (execAttestationSign nonce s) := by
  simp [execAttestationSign, hwf]
theorem nextWf_execRegisterWrite (agent n v : Nat) (s : State) (hwf : Memory.wf s.mem = true) :
    NextWf (execRegisterWrite agent n v s) := by
  simp [execRegisterWrite, hwf]
theorem nextWf_execLqCfgWrite (agent q v : Nat) (s : State) (hwf : Memory.wf s.mem = true) :
    NextWf (execLqCfgWrite agent q v s) := by
  unfold execLqCfgWrite; split <;> simp [hwf]
theorem nextWf_execLqTailWrite (agent q v : Nat) (s : State) (hwf : Memory.wf s.mem = true) :
    NextWf (execLqTailWrite agent q v s) := by
  unfold execLqTailWrite; split <;> simp [hwf]
theorem nextWf_execCgrpTableWrite (agent p v : Nat) (s : State) (hwf : Memory.wf s.mem = true) :
    NextWf (execCgrpTableWrite agent p v s) := by
  unfold execCgrpTableWrite; split <;> simp [hwf]
theorem nextWf_execSlSlotBaseWrite (agent v : Nat) (s : State) (hwf : Memory.wf s.mem = true) :
    NextWf (execSlSlotBaseWrite agent v s) := by
  simp [execSlSlotBaseWrite, hwf]
theorem nextWf_execPtCfgWrite (agent p v : Nat) (s : State) (hwf : Memory.wf s.mem = true) :
    NextWf (execPtCfgWrite agent p v s) := by
  unfold execPtCfgWrite; split <;> simp [hwf]
theorem nextWf_execSafeSelWrite (agent n v : Nat) (s : State) (hwf : Memory.wf s.mem = true) :
    NextWf (execSafeSelWrite agent n v s) := by
  unfold execSafeSelWrite; split <;> simp [hwf]
theorem nextWf_execHostBar2Read (off n : Nat) (s : State) (hwf : Memory.wf s.mem = true) : NextWf (execHostBar2Read off n s) := by
  unfold execHostBar2Read; repeat' split
  all_goals simp [hwf]
theorem nextWf_execHostBar2Write (off n v : Nat) (s : State) (hwf : Memory.wf s.mem = true) :
    NextWf (execHostBar2Write off n v s) := by
  unfold execHostBar2Write
  repeat' split
  all_goals simp [Memory.wf_writeRunUnder, hwf]

/-! ### Every instruction -/

theorem nextWf_exec (i : Instr) (s : State) (hwf : Memory.wf s.mem = true) : NextWf (exec i s) := by
  cases i
  case fclass | fcvt | icvtf | fcvti | qnt | dqnt | gscale | mxpack | mxunpk | pack | unpack | pnot | add | sub | mul |
      mulh | mulhn | div | divn | rem | remn | adds | subs | madd | min | max | abs | neg | lea | and | or | xor | andn |
      shl | shr | sar | rot | clz | ctz | popc | sext | zext | ceq | cne | clt | cle | cltn | clen | fadd | fsub | fmul |
      fma | fnma | fdiv | fsqrt | frsq | frcp | fexp2 | flog2 | fmin | fmax | fabs | fneg | fsgn | fscale | fceq | fclt |
      fcle | fcun | vbcast | vbcastLane | vext | vins | vperm | vshuf | vradd | vrmax | vrmin | vscan | vdot | vsel | vcmp
      | mand | mor | mxor | mnot | mpopc | mffs | mbit | mtst | pand | por | pxor =>
    dsimp only [exec, execFclass, execFcvt, execIcvtf, execFcvti, execQnt, execDqnt, execGscale, execMxpack, execMxunpk,
      execPack, execUnpack, execPnot, execAdd, execSub, execMul, execMulh, execMulhn, execDiv, execDivn, execRem, execRemn,
      execAdds, execSubs, execMadd, execMin, execMax, execAbs, execNeg, execLea, execAnd, execOr, execXor, execAndn, execShl,
      execShr, execSar, execRot, execClz, execCtz, execPopc, execSext, execZext, execCeq, execCne, execClt, execCle, execCltn,
      execClen, execFadd, execFsub, execFmul, execFma, execFnma, execFdiv, execFsqrt, execFrsq, execFrcp, execFexp2,
      execFlog2, execFmin, execFmax, execFabs, execFneg, execFsgn, execFscale, execFceq, execFclt, execFcle, execFcun,
      execVbcast, execVbcastLane, execVext, execVins, execVperm, execVshuf, execVradd, execVrmax, execVrmin, execVscan,
      execVdot, execVsel, execVcmp, execMand, execMor, execMxor, execMnot, execMpopc, execMffs, execMbit, execMtst, execPand,
      execPor, execPxor, intOp, bitsOp, cmpOp, fltOp, fcmpOp, vecOp, maskOp, bitOp]
    exact nextWf_gFire hwf
  case nop =>
    dsimp only [exec, execNop]
    exact nextWf_gOwn hwf fun _ _ _ => rfl
  case const | iterid | nullq =>
    dsimp only [exec, execConst, execIterid, execNullq]
    exact nextWf_gOwn hwf fun i v st => by simp
  case mov | write | steer | merge | nfill | niter | binv =>
    dsimp only [exec, execMov, execWrite, execSteer, execMerge, execNfill, execNiter, execBinv]
    exact nextWf_gOwn hwf fun i v st => by
      repeat' split
      all_goals simp
  case bro | br | callo | call | ret | quit =>
    dsimp only [exec, execBro, execBr, execCallo, execCall, execRet, execQuit]
    exact nextWf_exitFire hwf
  case radd | rmax | rmin | rjoin =>
    dsimp only [exec, execRadd, execRmax, execRmin, execRjoin, redArith]
    exact nextWf_redFire hwf
  case kmerge =>
    dsimp only [exec, execKmerge]
    split
    · exact nextWf_redFire hwf
    · exact nextWf_redFire hwf
  case bar | bara =>
    dsimp only [exec, execBar, execBara]
    exact nextWf_barFire hwf fun i v => by simp
  case barw =>
    dsimp only [exec, execBarw]
    exact nextWf_barFire hwf fun i v => by split <;> simp
  case ld | st | ldv | stv | gath | scat | aadd | amin | amax | aand | aor | axor | axchg | acas | afadd | bred | bupd |
      mnop | acq | rel | fence | seminc | semwait | semrd | sbwait | tgive | ttake =>
    dsimp only [exec, execLd, execSt, execLdv, execStv, execGath, execScat, execAadd, execAmin, execAmax, execAand, execAor,
      execAxor, execAxchg, execAcas, execAfadd, execBred, execBupd, execMnop, execAcq, execRel, execFence, execSeminc,
      execSemwait, execSemrd, execSbwait, execTgive, execTtake]
    exact nextWf_memExec hwf
  case pset | copy | flopen | flpush | flfree | flclose | tsend | wopen | wclose | copyr | rread | kvtab | kvgath | kvapp
      | kvinv | nvrd | nvwr | cred | cbcast | cgath | wload | wswap | mma | mrecur | macc | mzero | mstat | kcfg | kbias |
      kmask | kbind | kunbind | klife | kqry | kstat | nopen | nclose | nbind | nrebind | nunbind | nlook | launch | garm
      | spawn | tret | hreg | hregUnreg | msend | msendTrig | mrecv | mprobe =>
    dsimp only [exec, execPset, execCopy, execFlopen, execFlpush, execFlfree, execFlclose, execTsend, execWopen, execWclose,
      execCopyr, execRread, execKvtab, execKvgath, execKvapp, execKvinv, execNvrd, execNvwr, execCred, execCbcast, execCgath,
      execWload, execWswap, execMma, execMrecur, execMacc, execMzero, execMstat, execKcfg, execKbias, execKmask, execKbind,
      execKunbind, execKlife, execKqry, execKstat, execNopen, execNclose, execNbind, execNrebind, execNunbind, execNlook,
      execLaunch, execGarm, execSpawn, execTret, execHreg, execHregUnreg, execMsend, execMsendTrig, execMrecv, execMprobe]
    exact nextWf_eExec hwf (fun i m => by simp [hwf]) fun i m f => by simp
  case rdsr =>
    dsimp only [exec, execRdsr]
    exact nextWf_atOnce hwf fun i v => by simp
  case tprobe | brk | frec =>
    dsimp only [exec, execTprobe, execBrk, execFrec]
    exact nextWf_atOnce hwf fun i v => by
      repeat' split
      all_goals simp
  case wrsr | tinv | tsync | keyset | trap | fret =>
    dsimp only [exec, execWrsr, execTinv, execTsync, execKeyset, execTrap, execFret]
    exact nextWf_sHeld hwf
  case memoryRequestArrival | doneTokenArrival | freedSlotNotice | flumeSlotLanding | kbtbInvalidateAck | routeTagDelivery |
      windowDelivery | rreadOwnerRead | rreadAck | kmsCommandArrival | semaphoreUpdate | syncObjectIncrement | barrierArrival |
      triggerDispatch | messageArrival | faultRecordDelivery => exact (nextWf_next _).2 (Memory.wf_arriveAt _ _ _ hwf)
  case ldrgn => exact nextWf_execLdrgn _ _ hwf
  case read => exact nextWf_execRead _ _ hwf
  case operandTokenArrival => exact nextWf_execOperandTokenArrival _ _ _ hwf
  case invocationStart => exact nextWf_execInvocationStart _ _ _ hwf
  case invocationCommit => exact nextWf_execInvocationCommit _ _ _ _ hwf
  case engineQueueRoom => exact nextWf_execEngineQueueRoom _ _ _ hwf
  case wmTokensSet => exact nextWf_execWmTokensSet _ _ _ hwf
  case invocationDiscard => exact nextWf_execInvocationDiscard _ _ _ hwf
  case watchdogExpiry => exact nextWf_execWatchdogExpiry _ _ _ _ hwf
  case tagPoolDeadlock => exact nextWf_execTagPoolDeadlock _ _ _ hwf
  case engineFault => exact nextWf_execEngineFault _ _ _ hwf
  case blockCacheFill => exact nextWf_execBlockCacheFill _ _ _ hwf
  case blockMap => exact nextWf_execBlockMap _ _ _ hwf
  case admissionInterval => exact nextWf_execAdmissionInterval _ _ hwf
  case drainLimitExpiry => exact nextWf_execDrainLimitExpiry _ _ _ hwf
  case contextImageWrite => exact nextWf_execContextImageWrite _ _ hwf
  case managementCorePreemption => exact nextWf_execManagementCorePreemption _ _ hwf
  case statusWordWrite => exact nextWf_execStatusWordWrite _ _ hwf
  case statusWriteRetry => exact nextWf_execStatusWriteRetry _ _ hwf
  case messageRetry => exact nextWf_execMessageRetry _ _ hwf
  case collectiveEpisode => exact nextWf_execCollectiveEpisode _ _ hwf
  case streamReadAhead => exact nextWf_execStreamReadAhead _ _ _ _ _ _ hwf
  case engineCompletion => exact nextWf_execEngineCompletion _ _ _ hwf
  case matrixTileCommit => exact nextWf_execMatrixTileCommit _ _ hwf
  case landingRingRecheck => exact nextWf_execLandingRingRecheck _ _ hwf
  case kvBlockLoadCompletion => exact nextWf_execKvBlockLoadCompletion _ _ hwf
  case nvmeCompletion => exact nextWf_execNvmeCompletion _ _ hwf
  case nvmeTimeout => exact nextWf_execNvmeTimeout _ _ hwf
  case objectReclamation => exact nextWf_execObjectReclamation _ _ hwf
  case freeListHeadRecheck => exact nextWf_execFreeListHeadRecheck _ _ hwf
  case tinvHolderAck => exact nextWf_execTinvHolderAck _ _ hwf
  case keySlotReplace => exact nextWf_execKeySlotReplace _ _ hwf
  case monitorResolve => exact nextWf_execMonitorResolve _ _ _ hwf
  case egressArbitration => exact nextWf_execEgressArbitration _ _ _ hwf
  case ageingStep => exact nextWf_execAgeingStep _ _ _ hwf
  case headgateCharge => exact nextWf_execHeadgateCharge _ _ _ hwf
  case headgateRefill => exact nextWf_execHeadgateRefill _ _ hwf
  case sluiceLeak => exact nextWf_execSluiceLeak _ _ hwf
  case linkFlitReceive => exact nextWf_execLinkFlitReceive _ _ hwf
  case linkAckReceive => exact nextWf_execLinkAckReceive _ _ hwf
  case laneFailure => exact nextWf_execLaneFailure _ _ _ hwf
  case plannedWidthChange => exact nextWf_execPlannedWidthChange _ _ _ hwf
  case linkRetrainComplete => exact nextWf_execLinkRetrainComplete _ _ hwf
  case islandDvfsChange => exact nextWf_execIslandDvfsChange _ _ _ hwf
  case thermalThrottle => exact nextWf_execThermalThrottle _ _ hwf
  case thermalTrip => exact nextWf_execThermalTrip _ _ hwf
  case powerFailure => exact nextWf_execPowerFailure _
  case coldReset => exact nextWf_execColdReset _
  case warmReset => exact nextWf_execWarmReset _ _ hwf
  case partitionReset => exact nextWf_execPartitionReset _ _ _ hwf
  case sectionAbort => exact nextWf_execSectionAbort _ _ _ hwf
  case bootStage => exact nextWf_execBootStage _ _ hwf
  case attestationSign => exact nextWf_execAttestationSign _ _ hwf
  case registerWrite => exact nextWf_execRegisterWrite _ _ _ _ hwf
  case lqCfgWrite => exact nextWf_execLqCfgWrite _ _ _ _ hwf
  case lqTailWrite => exact nextWf_execLqTailWrite _ _ _ _ hwf
  case cgrpTableWrite => exact nextWf_execCgrpTableWrite _ _ _ _ hwf
  case slSlotBaseWrite => exact nextWf_execSlSlotBaseWrite _ _ _ hwf
  case ptCfgWrite => exact nextWf_execPtCfgWrite _ _ _ _ hwf
  case safeSelWrite => exact nextWf_execSafeSelWrite _ _ _ _ hwf
  case hostBar2Read => exact nextWf_execHostBar2Read _ _ _ hwf
  case hostBar2Write => exact nextWf_execHostBar2Write _ _ _ _ hwf

end Sys2Proof.Machine
end

