-- ==== Sys2Proof/Proofs/MemoryStays.lean ====
section
/-!
PROOF. Every step keeps the canonical form of memory (O6).
-/

namespace Sys2Proof.Machine

/-! ### The items of the agenda and the step -/

theorem nextWf_settle {o : Out} (h : NextWf o) : NextWf (settle o) := by
  cases o with
  | next s => exact (nextWf_next _).2 (h s rfl)
  | _ => exact fun _ ht => by cases ht

theorem nextWf_runAs (i : Instr) (x : Issue) (s : State) (hwf : Memory.wf s.mem = true) : NextWf (runAs i x s) :=
  nextWf_exec i _ hwf

theorem nextWf_issueSet {s : State} {c : Nat} {r : Ready} {o : Out} (h : issueSet s c r = some o)
    (hwf : Memory.wf s.mem = true) : NextWf o := by
  unfold issueSet at h
  dsimp only at h
  split at h
  · cases h; simp [hwf]
  · split at h
    · cases h; simp
    · next i _ =>
      split at h
      · cases h
      · have hrun := nextWf_runAs i (r.issue c) (s.dropReady c r) (by simpa using hwf)
        split at h
        · next u hu =>
          have hmem := hrun u hu
          split at h
          · cases h
          · split at h <;> cases h <;> simp [hmem]
        · cases h; exact hrun

theorem nextWf_issueFirst (s : State) (c : Nat) (l : List Ready) (hwf : Memory.wf s.mem = true) : NextWf (issueFirst s c l) := by
  induction l with
  | nil => exact (nextWf_next _).2 hwf
  | cons r rs ih =>
    unfold issueFirst
    split
    · exact ih
    · split
      · next h => exact nextWf_issueSet h hwf
      · exact ih

theorem nextWf_stepUnit (c u k piece : Nat) (s : State) (hwf : Memory.wf s.mem = true) : NextWf (stepUnit c u k piece s) := by
  unfold stepUnit
  split
  · exact (nextWf_next _).2 hwf
  · split
    · exact (nextWf_next _).2 hwf
    · exact nextWf_runAs _ _ _ hwf

theorem nextWf_stepRelease (c p k : Nat) (s : State) (hwf : Memory.wf s.mem = true) : NextWf (stepRelease c p k s) := by
  unfold stepRelease
  dsimp only
  split
  · exact (nextWf_next _).2 hwf
  · split
    · exact (nextWf_next _).2 hwf
    · exact nextWf_runAs _ _ _ hwf

theorem nextWf_stepAdvance (n : Nat) (s : State) (hwf : Memory.wf s.mem = true) : NextWf (stepAdvance n s) := by
  unfold stepAdvance
  simp [hwf]

theorem nextWf_stepEvict (what c k : Nat) (s : State) (hwf : Memory.wf s.mem = true) : NextWf (stepEvict what c k s) := by
  unfold stepEvict
  split <;> simp [hwf]

theorem nextWf_stepInput (x : Input) (s : State) (hwf : Memory.wf s.mem = true) : NextWf (stepInput x s) := by
  cases x with
  | nvme | flit | globalError | storeError | spillError | ctxError | lineError | latchError => simp [stepInput, hwf]
  | softError key => unfold stepInput; dsimp only; split <;> simp [hwf]
  | metaError k => unfold stepInput; dsimp only; split <;> simp [hwf]

theorem nextWf_doItem (a : Sched) (s : State) (hwf : Memory.wf s.mem = true) : NextWf (doItem a s) := by
  cases a with
  | event i => exact nextWf_exec i _ hwf
  | issue c ix => exact nextWf_issueFirst s c _ hwf
  | unit c u k piece => exact nextWf_stepUnit c u k piece s hwf
  | release c p k => exact nextWf_stepRelease c p k s hwf
  | advance n => exact nextWf_stepAdvance n s hwf
  | evict what c k => exact nextWf_stepEvict what c k s hwf
  | input x => exact nextWf_stepInput x s hwf

theorem nextWf_step (s : State) (hwf : Memory.wf s.mem = true) : NextWf (step s) := by
  unfold step
  split
  · exact nextWf_settle (nextWf_doItem _ _ hwf)
  · exact nextWf_settle (nextWf_doItem _ _ hwf)

/-- Settles O6: whatever the agenda names next, what it does writes memory through `memPut`, or not at all. -/
theorem memoryStaysCanonical : Obligations.MemoryStaysCanonical :=
  fun s t hs ht => nextWf_step s hs t ht

end Sys2Proof.Machine
end

