-- ==== Sys2Proof/Proofs/MemoryReads.lean ====
section
/-!
PROOF. What a write leaves in memory (O8).
-/

namespace Sys2Proof.Machine

/-- Byte `j` of a write is digit `j` of the value in base 256. -/
theorem memGet_memWrite_digit (s : State) (k v n j : Nat) (hj : j < n) :
    memGet (memWrite s k v n) (k + j) = BitVec.ofNat 8 (v / 256 ^ j) := by
  induction j generalizing s k v n with
  | zero =>
    obtain ⟨n, rfl⟩ : ∃ m, n = m + 1 := ⟨n - 1, by omega⟩
    rw [memWrite_succ, memGet_memWrite_other _ _ _ _ _ (by omega), Nat.add_zero, memGet_memPut_same]
    simp
  | succ j ih =>
    obtain ⟨n, rfl⟩ : ∃ m, n = m + 1 := ⟨n - 1, by omega⟩
    rw [memWrite_succ, show k + (j + 1) = k + 1 + j by omega, ih _ _ _ _ (by omega), Nat.div_div_eq_div_mul, Nat.pow_succ']

/-- Settles O8: the laws of memory, and the digit that each byte of a write holds. -/
theorem memoryReadsBackWhatWasWrittenR2 : Obligations.MemoryReadsBackWhatWasWrittenR2 := fun s k v n =>
  ⟨by rw [memRead_memWrite_same, Nat.pow_mul], fun a ha => memGet_memWrite_other n s k v a ha,
    fun j hj => memGet_memWrite_digit s k v n j hj⟩

end Sys2Proof.Machine
end

