-- ==== Sys2Proof/Proofs/RegisterWrites.lean ====
section
/-!
PROOF. A register write from outside the nodes: whether it comes, what it sets, and REGISTER_WRITE (R431).
-/

namespace Sys2Proof.Machine

/-! ### Fields of a word -/

theorem bits_low (v n : Nat) : bits v 0 n = v % 2 ^ n := by
  rw [bits, Nat.pow_zero, Nat.div_one]

theorem bits_and (v m lo n : Nat) : bits (v &&& m) lo n = bits v lo n &&& bits m lo n := by
  simp only [bits, Nat.and_div_two_pow, Nat.and_mod_two_pow]

/-- A field that the mask covers is kept. -/
theorem bits_and_covered {m lo n : Nat} (v : Nat) (h : bits m lo n = 2 ^ n - 1) : bits (v &&& m) lo n = bits v lo n := by
  rw [bits_and, h, Nat.and_two_pow_sub_one_eq_mod, bits, Nat.mod_mod]

/-- A field that the mask leaves out is 0. -/
theorem bits_and_cleared {m lo n : Nat} (v : Nat) (h : bits m lo n = 0) : bits (v &&& m) lo n = 0 := by
  rw [bits_and, h, Nat.and_zero]

theorem toNat_ofNat_word {x : Nat} (h : x < 2 ^ 64) : (BitVec.ofNat 64 x).toNat = x := by
  rw [BitVec.toNat_ofNat, Nat.mod_eq_of_lt h]

theorem rbits_ofNat {x : Nat} (h : x < 2 ^ 64) (lo n : Nat) : rbits (BitVec.ofNat 64 x) lo n = bits x lo n := by
  rw [rbits, toNat_ofNat_word h]

/-! ### One register is written -/

theorem pkg_srSet_same (s : State) (n : Nat) (v : W64) : pkg (srSet s 0 n v) n = v := srGet_srSet_same s 0 n v

theorem pkg_srSet_other (s : State) (n m : Nat) (v : W64) (h : m ≠ n) : pkg (srSet s 0 n v) m = pkg s m :=
  srGet_srSet_other s 0 n 0 m v (by omega)

/-- The state with another record of the accesses of this cycle (R431). -/
def State.seen (s : State) (x : Tab (Nat × Nat)) : State := { s with srSeen := x }

@[simp] theorem srGet_seen (s : State) (x : Tab (Nat × Nat)) (c n : Nat) : srGet (s.seen x) c n = srGet s c n := rfl
@[simp] theorem pkg_seen (s : State) (x : Tab (Nat × Nat)) (n : Nat) : pkg (s.seen x) n = pkg s n := rfl
@[simp] theorem seen_mem (s : State) (x : Tab (Nat × Nat)) : (s.seen x).mem = s.mem := rfl

/-- A write to one register of a state changes only that register, whatever accesses are recorded. -/
theorem onlyReg_srSet (s : State) (x : Tab (Nat × Nat)) (copy n : Nat) (v : W64) (hn : n < 2048) :
    OnlyReg s (srSet (s.seen x) copy n v) copy n v := by
  refine ⟨rfl, srGet_srSet_same _ _ _ _, fun c m hm hne => ?_⟩
  rw [srGet_srSet_other _ _ _ _ _ _ (fun h => hne (by rw [Prod.mk.injEq]; omega)), srGet_seen]

/-! ### A writer outside the nodes (R416, R421, R430) -/

@[simp] theorem agent_nk (s : State) (a : Nat) : (s.agent a).nk = none := rfl
@[simp] theorem agent_part (s : State) (a : Nat) : (s.agent a).part = (pkg s 0x0ca).toNat % 2 ^ 6 := by
  simp [State.agent, rbits, bits]
@[simp] theorem agent_priv (s : State) (a : Nat) : (s.agent a).priv = if a = 1 then 2 else 1 := rfl
@[simp] theorem agent_host (s : State) (a : Nat) : (s.agent a).host = decide (a = 0) := rfl

theorem le_two_of_agentRuns {s : State} {a : Nat} (h : agentRuns s a = true) : a ≤ 2 := by
  simp only [agentRuns, Bool.or_eq_true, Bool.and_eq_true, decide_eq_true_eq] at h
  omega

/-- The copy of a register that a writer outside the nodes reaches. -/
theorem copyFor_agent (s : State) (a n : Nat) :
    s.copyFor (s.agent a) n = match heldPer n with
      | .package => some 0
      | .partition => some (4096 + (pkg s 0x0ca).toNat % 2 ^ 6)
      | _ => none := by
  unfold State.copyFor
  rw [agent_nk, agent_part]
  cases heldPer n <;> rfl

theorem copyFor_of_package {s : State} {a n : Nat} (h : heldPer n = .package) : s.copyFor (s.agent a) n = some 0 := by
  rw [copyFor_agent, h]

theorem copyFor_of_partition {s : State} {a n : Nat} (h : heldPer n = .partition) :
    s.copyFor (s.agent a) n = some (4096 + (pkg s 0x0ca).toNat % 2 ^ 6) := by
  rw [copyFor_agent, h]

theorem regKey_of_copyFor {s : State} {w : Party0} {n copy : Nat} (h : s.copyFor w n = some copy) :
    s.regKey w n = some (copy * 2048 + n) := by
  rw [State.regKey, h]; rfl

/-- Only the record of accesses changes as a write takes its turn. -/
theorem regTake_eq_seen (s : State) (w : Party0) (n : Nat) : s.regTake w n = s.seen (s.regTake w n).srSeen := by
  unfold State.regTake; split <;> rfl

theorem find_regTake {s : State} {w : Party0} {n k : Nat} (h : s.regKey w n = some k) :
    Tab.find (s.regTake w n).srSeen k = some (s.now, regRank w) := by
  simp only [State.regTake, h, Tab.find_put_same]

/-- A register without a copy for the writer is not written, and no turn of it passes. -/
theorem regWrite_regTake_of_none {s : State} {w : Party0} {n : Nat} (h : s.copyFor w n = none) (v : Nat) :
    (s.regTake w n).regWrite w n v = s := by
  have hkey : s.regKey w n = none := by rw [State.regKey, h]; rfl
  rw [State.regTake, hkey]
  simp only [State.regWrite, h]

/-- What an agent's write does: it comes when the agent runs, nothing forbids it, and its turn has not passed. -/
theorem agentDoes_eq (s : State) (a : Nat) {n v : Nat} (hn : n < 2048) (hv : v < 2 ^ 64) :
    s.agentDoes a n v =
      if agentRuns s a = true ∧ s.writeFault (s.agent a) n v = none ∧ s.regTurn (s.agent a) n = true
      then (s.regTake (s.agent a) n).regWrite (s.agent a) n v else s := by
  unfold State.agentDoes
  split
  · next hruns =>
    have ha := le_two_of_agentRuns hruns
    simp only [State.agentWrite, Nat.mod_eq_of_lt hv]
    rw [if_neg (by simp; omega)]
    cases hf : s.writeFault (s.agent a) n v <;> simp [hruns]
  · next hruns => rw [if_neg fun h => hruns h.1]

theorem agentDoes_of_not_mayWrite {s : State} {a n v : Nat} (hn : n < 2048) (hv : v < 2 ^ 64) (h : ¬ MayWrite s a n) :
    s.agentDoes a n v = s := by
  rw [agentDoes_eq s a hn hv, if_neg fun hw => h ⟨hw.1, hw.2.2⟩]

theorem agentDoes_of_fault {s : State} {a n v : Nat} (hn : n < 2048) (hv : v < 2 ^ 64)
    (h : s.writeFault (s.agent a) n v ≠ none) : s.agentDoes a n v = s := by
  rw [agentDoes_eq s a hn hv, if_neg fun hw => h hw.2.1]

theorem agentDoes_of_mayWrite {s : State} {a n v : Nat} (hn : n < 2048) (hv : v < 2 ^ 64) (h : MayWrite s a n)
    (hf : s.writeFault (s.agent a) n v = none) :
    s.agentDoes a n v = (s.regTake (s.agent a) n).regWrite (s.agent a) n v := by
  rw [agentDoes_eq s a hn hv, if_pos ⟨h.1, hf, h.2⟩]

/-! ### What forbids a write -/

theorem writeFault_of_privilege {s : State} {w : Party0} {n v : Nat} (hro : regRO n = false) (h : w.priv < regNeed s n v) :
    s.writeFault w n v ≠ none := by
  simp [State.writeFault, hro, h]

theorem writeFault_of_badValue {s : State} {w : Party0} {n v : Nat} (hro : regRO n = false) (h : regValueBad s w n v = true) :
    s.writeFault w n v ≠ none := by
  unfold State.writeFault
  rw [if_neg (by simp [hro])]
  split
  · simp
  · rw [ne_eq, ite_eq_iff]; simp

/-- A register that is no counter's selector is forbidden for its privilege or for the value alone. -/
theorem writeFault_eq_none {s : State} {w : Party0} {n v : Nat} (hsel : isSel n = false) (hneed : regNeed s n v ≤ w.priv)
    (hval : regValueBad s w n v = false) : s.writeFault w n v = none := by
  simp [State.writeFault, Nat.not_lt.2 hneed, hsel, hval]

/-! ### What a register number says -/

/-- The registers that no access writes (R429). -/
theorem regRO_eq_false_iff (n : Nat) : regRO n = false ↔
    srAssigned n = true ∧ n ≠ 0x068 ∧ ¬ (0x080 ≤ n ∧ n ≤ 0x097) ∧ n ≠ 0x0a1 ∧ n ≠ 0x0a2 ∧ n ≠ 0x0a3 ∧ n ≠ 0x0a6 ∧ n ≠ 0x0c9
      ∧ ¬ (0x0d0 ≤ n ∧ n ≤ 0x0d7) ∧ ¬ (0x100 ≤ n ∧ n ≤ 0x2ff ∧ n % 4 = 3) ∧ ¬ (0x500 ≤ n ∧ n ≤ 0x5df ∧ n % 2 = 1)
      ∧ ¬ (0x680 ≤ n ∧ n ≤ 0x6bf) := by
  by_cases hs : srAssigned n = true
  · simp only [regRO, isCnt, hs, Bool.or_eq_false_iff, Bool.and_eq_false_iff, Bool.not_true, decide_eq_false_iff_not,
      eq_self, true_and, and_true]
    omega
  · simp [regRO, hs]

theorem srAssigned_of_table {n : Nat} (h : (0x100 ≤ n ∧ n ≤ 0x2ff) ∨ (0x300 ≤ n ∧ n ≤ 0x4ff ∧ n % 8 < 5) ∨ (0x500 ≤ n ∧ n ≤ 0x5df)
    ∨ (0x600 ≤ n ∧ n ≤ 0x6bf)) : srAssigned n = true := by
  simp only [srAssigned, Bool.or_eq_true, Bool.and_eq_true, decide_eq_true_eq]
  omega

theorem heldPer_eq_package {n : Nat} (h : 0x052 < n ∧ ¬ (0x0d0 ≤ n ∧ n ≤ 0x0d7) ∧ n ≠ 0x0c9 ∧ n ≠ 0x062 ∧ n ≠ 0x063 ∧ n ≠ 0x068
    ∧ ¬ (0x500 ≤ n ∧ n ≤ 0x59f)) : heldPer n = .package := by
  unfold heldPer
  rw [if_neg (by simp; omega), if_neg (by simp; omega), if_neg (by simp; omega), if_neg (by simp; omega), if_neg (by simp; omega)]

/-- The registers that are written in a way of their own. -/
def OwnWay (n : Nat) : Prop :=
  n = 0x010 ∨ n = 0x011 ∨ n = 0x041 ∨ n = 0x052 ∨ n = 0x060 ∨ n = 0x061 ∨ n = 0x063 ∨ n = 0x071 ∨ n = 0x0a4 ∨ n = 0x0a7

/-- A register of a launch queue's row is written (R291). -/
def State.writeRow (s : State) (w : Party0) (copy n v : Nat) : State :=
  if n % 4 = 0 then
    if rbits (pkg s (n + 1)) 63 1 = 1 then s else srSet s copy n (BitVec.ofNat 64 (v &&& regMask n))
  else if n % 4 = 1 then s.writeLqCfg w ((n - 0x200) / 4) v
  else s.writeLqTail ((n - 0x200) / 4) v

/-- A register of a table, or one that holds what is written to it. -/
def State.writeTable (s : State) (w : Party0) (copy n v : Nat) : State :=
  if 0x200 ≤ n ∧ n ≤ 0x2ff then s.writeRow w copy n v
  else if 0x300 ≤ n ∧ n ≤ 0x4ff ∧ n % 8 = 0 then s.writePtCfg w n v
  else if isSel n = true then s.writeSel w copy n v
  else srSet s copy n (BitVec.ofNat 64 (v &&& regMask n))

theorem regWrite_eq_writeTable {n : Nat} (hro : regRO n = false) (hown : ¬ OwnWay n) {s : State} {w : Party0} {copy : Nat}
    (hc : s.copyFor w n = some copy) (v : Nat) : s.regWrite w n v = s.writeTable w copy n v := by
  unfold OwnWay at hown
  unfold State.regWrite State.writeTable
  rw [hc]
  dsimp only
  rw [hro, if_neg Bool.false_ne_true, if_neg (by omega), if_neg (by omega), if_neg (by omega), if_neg (by omega),
    if_neg (by simp; omega), if_neg (by omega), if_neg (by omega), if_neg (by omega), if_neg (by omega)]
  simp only [Bool.and_eq_true, decide_eq_true_eq, and_assoc]
  refine if_congr Iff.rfl ?_ rfl
  unfold State.writeRow
  split
  · next h0 => rw [if_pos h0]
  · next h1 => rw [if_neg (by omega), if_pos h1]
  · next h0 h1 => rw [if_neg h0, if_neg h1]

/-! ### The registers that hold what is written to them -/

theorem regRO_of_plain {n : Nat} (h : PlainReg n) : regRO n = false := by
  unfold PlainReg at h
  refine (regRO_eq_false_iff n).2 ⟨?_, by omega⟩
  simp only [srAssigned, Bool.or_eq_true, Bool.and_eq_true, decide_eq_true_eq]
  omega

theorem isSel_of_plain {n : Nat} (h : PlainReg n) : isSel n = false := by
  unfold PlainReg at h
  simp only [isSel, Bool.and_eq_false_iff, decide_eq_false_iff_not]
  omega

theorem heldPer_of_plain {n : Nat} (h : PlainReg n) :
    heldPer n = if n = 0x050 ∨ n = 0x051 ∨ n = 0x062 ∨ n = 0x063 then .partition else .package := by
  unfold PlainReg at h
  split
  · next hp => rcases hp with rfl | rfl | rfl | rfl <;> rfl
  · exact heldPer_eq_package (by omega)

theorem regNeed_of_needsM {n : Nat} (h : PlainReg n) (hm : NeedsM n) (s : State) (v : Nat) : regNeed s n v = 2 := by
  unfold PlainReg at h
  unfold NeedsM at hm
  rcases hm with rfl | rfl | rfl | hm
  · rfl
  · rfl
  · rfl
  · unfold regNeed
    rw [if_neg (by simp [isSel]; omega), if_neg (by simp; omega), if_neg (by omega), if_pos (by simp; omega), if_neg (by omega)]

theorem regNeed_of_plain {n : Nat} (h : PlainReg n) (hm : ¬ NeedsM n) (s : State) (v : Nat) : regNeed s n v = 1 := by
  unfold PlainReg at h
  unfold NeedsM at hm
  unfold regNeed
  rw [if_neg (by simp [isSel]; omega), if_neg (by simp; omega), if_neg (by omega), if_neg (by simp; omega), if_neg (by simp; omega)]

theorem regWrite_of_plain {n : Nat} (h : PlainReg n) {s : State} {w : Party0} {copy : Nat} (hc : s.copyFor w n = some copy)
    (v : Nat) : s.regWrite w n v = srSet s copy n (BitVec.ofNat 64 (v &&& regMask n)) := by
  have hro := regRO_of_plain h
  have hsel := isSel_of_plain h
  unfold PlainReg at h
  rw [regWrite_eq_writeTable hro (by unfold OwnWay; omega) hc, State.writeTable, if_neg (by omega), if_neg (by omega), hsel,
    if_neg Bool.false_ne_true]

/-! ### Writes that change one register, or none -/

theorem regTurn_eq_false_iff {s : State} {w : Party0} {n k : Nat} (hk : s.regKey w n = some k) :
    s.regTurn w n = false ↔ ∃ r, Tab.find s.srSeen k = some (s.now, r) ∧ regRank w < r := by
  rw [State.regTurn, hk, Option.bind_some]
  cases h : Tab.find s.srSeen k with
  | none => simp
  | some e =>
    obtain ⟨t, r⟩ := e
    simp only [Bool.or_eq_false_iff, bne_eq_false_iff_eq, decide_eq_false_iff_not, Nat.not_le, Option.some.injEq, Prod.mk.injEq]
    exact ⟨fun ⟨ht, hr⟩ => ⟨r, ⟨ht, rfl⟩, hr⟩, fun ⟨_, ⟨ht, hq⟩, hr⟩ => ⟨ht, hq ▸ hr⟩⟩

theorem copyFor_of_plain {n : Nat} (h : PlainReg n) (s : State) (a : Nat) :
    s.copyFor (s.agent a) n =
      some (if n = 0x050 ∨ n = 0x051 ∨ n = 0x062 ∨ n = 0x063 then 4096 + (pkg s 0x0ca).toNat % 2 ^ 6 else 0) := by
  have hp := heldPer_of_plain h
  split <;> rename_i hc
  · exact copyFor_of_partition (by rw [hp, if_pos hc])
  · exact copyFor_of_package (by rw [hp, if_neg hc])

theorem unchanged_self (s : State) : Unchanged s (.next s) := ⟨s, rfl, rfl⟩

theorem unchanged_seen (s : State) (x : Tab (Nat × Nat)) : Unchanged s (.next (s.seen x)) := ⟨_, rfl, rfl⟩

/-- A write that comes to nothing changes no register. -/
theorem unchanged_of_regWrite {s : State} {a n v : Nat} (hn : n < 2048) (hv : v < 2 ^ 64)
    (h : (s.regTake (s.agent a) n).regWrite (s.agent a) n v = s.regTake (s.agent a) n) :
    Unchanged s (.next (s.agentDoes a n v)) := by
  rw [agentDoes_eq s a hn hv]
  split
  · rw [h, regTake_eq_seen]
    exact unchanged_seen s _
  · exact unchanged_self s

theorem unchanged_of_fault {s : State} {a n v : Nat} (hn : n < 2048) (hv : v < 2 ^ 64)
    (h : s.writeFault (s.agent a) n v ≠ none) : Unchanged s (.next (s.agentDoes a n v)) := by
  rw [agentDoes_of_fault hn hv h]
  exact unchanged_self s

theorem copyFor_of_outer {n : Nat} (h : OfNodeClusterOrDie n) (s : State) (a : Nat) : s.copyFor (s.agent a) n = none := by
  have hp : heldPer n = .node ∨ heldPer n = .cluster ∨ heldPer n = .die := by
    unfold OfNodeClusterOrDie at h
    rcases h with h | h | rfl | rfl | h
    · exact .inl (by rw [heldPer, if_pos (by simp; omega)])
    · exact .inl (by rw [heldPer, if_pos (by simp; omega)])
    · exact .inl rfl
    · exact .inr (.inl rfl)
    · unfold heldPer
      rw [if_neg (by simp; omega), if_neg (by simp; omega), if_neg (by simp; omega)]
      split
      · exact .inr (.inl rfl)
      · next hc =>
        simp only [Bool.or_eq_true, Bool.and_eq_true, decide_eq_true_eq] at hc
        exact .inr (.inr (by rw [if_pos (by simp; omega)]))
  rw [copyFor_agent]
  rcases hp with hp | hp | hp <;> rw [hp]

/-- A register that is read only, or has no copy outside the nodes, stays as it is. -/
theorem unchanged_of_unreached {s : State} {a n v : Nat} (hn : n < 2048) (hv : v < 2 ^ 64)
    (h : agentRuns s a = false ∨ regRO n = true ∨ OfNodeClusterOrDie n) : Unchanged s (.next (s.agentDoes a n v)) := by
  rcases h with h | h | h
  · rw [agentDoes_of_not_mayWrite hn hv fun ⟨hruns, _⟩ => by simp [h] at hruns]
    exact unchanged_self s
  · refine unchanged_of_regWrite hn hv ?_
    unfold State.regWrite
    split
    · rfl
    · rw [if_pos h]
  · rw [agentDoes_eq s a hn hv]
    split
    · rw [regWrite_regTake_of_none (copyFor_of_outer h s a)]
      exact unchanged_self s
    · exact unchanged_self s

/-- The write sets its register to `x`, nothing else, and its turn is recorded. -/
def SetsReg (s : State) (a n v copy x : Nat) : Prop :=
  ∃ t, s.agentDoes a n v = t ∧ OnlyReg s t copy n (BitVec.ofNat 64 x)
    ∧ Tab.find t.srSeen (copy * 2048 + n) = some (s.now, regRank (s.agent a))

theorem sets_of_regWrite {s : State} {a n v copy x : Nat} (hn : n < 2048) (hv : v < 2 ^ 64) (hm : MayWrite s a n)
    (hf : s.writeFault (s.agent a) n v = none) (hc : s.copyFor (s.agent a) n = some copy)
    (h : (s.regTake (s.agent a) n).regWrite (s.agent a) n v = srSet (s.regTake (s.agent a) n) copy n (BitVec.ofNat 64 x)) :
    SetsReg s a n v copy x := by
  refine ⟨_, agentDoes_of_mayWrite hn hv hm hf, ?_, ?_⟩
  · rw [h, regTake_eq_seen]
    exact onlyReg_srSet s _ copy n x hn
  · rw [h, srSet_srSeen]
    exact find_regTake (regKey_of_copyFor hc)

/-! ### REGISTER_WRITE (R431) -/

theorem regMask_060 (v : Nat) : v &&& regMask 0x060 = v % 2 ^ 8 := Nat.and_two_pow_sub_one_eq_mod v 8
theorem regMask_061 (v : Nat) : v &&& regMask 0x061 = v % 2 ^ 32 := Nat.and_two_pow_sub_one_eq_mod v 32
theorem regMask_063 (v : Nat) : v &&& regMask 0x063 = v % 2 ^ 16 := Nat.and_two_pow_sub_one_eq_mod v 16

/-! The registers that are written in a way of their own. -/

theorem regWrite_060 (s : State) (w : Party0) (v : Nat) :
    s.regWrite w 0x060 v = if v % 2 ^ 8 = 0 then s else srSet s 0 0x060 (BitVec.ofNat 64 (v % 2 ^ 8)) := by
  rw [← regMask_060]; rfl
theorem regWrite_061 (s : State) (w : Party0) (v : Nat) :
    s.regWrite w 0x061 v = if v % 2 ^ 32 = 0 then s else srSet s 0 0x061 (BitVec.ofNat 64 (v % 2 ^ 32)) := by
  rw [← regMask_061]; rfl
theorem regWrite_063 (s : State) (w : Party0) (v : Nat) :
    s.regWrite w 0x063 v =
      if (s.slotsUsed w.part).isEmpty then srSet s (4096 + w.part) 0x063 (BitVec.ofNat 64 (v % 2 ^ 16)) else s := by
  rw [← regMask_063]; rfl
theorem regWrite_0a4 (s : State) (w : Party0) (v : Nat) :
    s.regWrite w 0x0a4 v = srSet s 0 0x0a4 (BitVec.ofNat 64 (v / 2 ^ 8 % 2 ^ 8 * 2 ^ 8
      + (if v / 2 ^ 8 % 2 ^ 8 + 5 ≤ v % 2 ^ 8 ∧ v % 2 ^ 8 ≤ 115 then v % 2 ^ 8 else (pkg s 0x0a4).toNat % 2 ^ 8))) := by
  have hbits : s.regWrite w 0x0a4 v = srSet s 0 0x0a4 (BitVec.ofNat 64 (bits v 8 8 * 256
      + (if bits v 8 8 + 5 ≤ bits v 0 8 && bits v 0 8 ≤ 115 then bits v 0 8 else (pkg s 0x0a4).toNat % 256))) := rfl
  simpa [bits] using hbits

theorem one_le_agent_priv (s : State) (a : Nat) : 1 ≤ (s.agent a).priv := by
  rw [agent_priv]; split <;> omega

/-- A register that every writer outside the nodes may write, with any value. -/
theorem writeFault_agent_eq_none {s : State} {a n v : Nat} (hsel : isSel n = false) (hneed : regNeed s n v = 1)
    (hval : regValueBad s (s.agent a) n v = false) : s.writeFault (s.agent a) n v = none :=
  writeFault_eq_none hsel (hneed ▸ one_le_agent_priv s a) hval

theorem plain_unchanged {s : State} {a n v : Nat} (hn : n < 2048) (hv : v < 2 ^ 64) (hp : PlainReg n)
    (h : (NeedsM n ∧ a ≠ 1) ∨ regValueBad s (s.agent a) n v = true) : Unchanged s (.next (s.agentDoes a n v)) := by
  refine unchanged_of_fault hn hv ?_
  rcases h with ⟨hm, ha⟩ | h
  · exact writeFault_of_privilege (regRO_of_plain hp) (by rw [agent_priv, if_neg ha, regNeed_of_needsM hp hm]; decide)
  · exact writeFault_of_badValue (regRO_of_plain hp) h

theorem plain_sets {s : State} {a n v : Nat} (hn : n < 2048) (hv : v < 2 ^ 64) (hw : MayWrite s a n) (hp : PlainReg n)
    (hm : ¬ (NeedsM n ∧ a ≠ 1)) (hval : regValueBad s (s.agent a) n v = false) :
    let copy := if n = 0x050 ∨ n = 0x051 ∨ n = 0x062 ∨ n = 0x063 then 4096 + (pkg s 0x0ca).toNat % 2 ^ 6 else 0
    SetsReg s a n v copy (v &&& regMask n) := by
  have hc := copyFor_of_plain hp s a
  have hneed : regNeed s n v ≤ (s.agent a).priv := by
    by_cases h : NeedsM n
    · rw [regNeed_of_needsM hp h, agent_priv, if_pos (by tauto)]
    · rw [regNeed_of_plain hp h]; exact one_le_agent_priv s a
  refine sets_of_regWrite hn hv hw (writeFault_eq_none (isSel_of_plain hp) hneed hval) hc ?_
  rw [regTake_eq_seen]
  exact regWrite_of_plain hp (s := s.seen (s.regTake (s.agent a) n).srSeen) hc v

/-! The registers of the package and of a partition that are written in a way of their own. -/

theorem reg060_written {s : State} {a v : Nat} (hv : v < 2 ^ 64) (hw : MayWrite s a 0x060) :
    (v % 2 ^ 8 = 0 → Unchanged s (.next (s.agentDoes a 0x060 v))) ∧ (v % 2 ^ 8 ≠ 0 → SetsReg s a 0x060 v 0 (v % 2 ^ 8)) := by
  refine ⟨fun h => unchanged_of_regWrite (by decide) hv ?_,
    fun h => sets_of_regWrite (by decide) hv hw (writeFault_agent_eq_none rfl rfl rfl) rfl ?_⟩
  · rw [regWrite_060, if_pos h]
  · rw [regWrite_060, if_neg h]

theorem reg061_written {s : State} {a v : Nat} (hv : v < 2 ^ 64) (hw : MayWrite s a 0x061) :
    (v % 2 ^ 32 = 0 → Unchanged s (.next (s.agentDoes a 0x061 v))) ∧ (v % 2 ^ 32 ≠ 0 → SetsReg s a 0x061 v 0 (v % 2 ^ 32)) := by
  refine ⟨fun h => unchanged_of_regWrite (by decide) hv ?_,
    fun h => sets_of_regWrite (by decide) hv hw (writeFault_agent_eq_none rfl rfl rfl) rfl ?_⟩
  · rw [regWrite_061, if_pos h]
  · rw [regWrite_061, if_neg h]

theorem slotsUsed_regTake (s : State) (w : Party0) (n part : Nat) : (s.regTake w n).slotsUsed part = s.slotsUsed part := by
  rw [regTake_eq_seen]; rfl

theorem reg063_written {s : State} {a v : Nat} (hv : v < 2 ^ 64) (hw : MayWrite s a 0x063) :
    let part := (pkg s 0x0ca).toNat % 2 ^ 6
    (s.slotsUsed part ≠ [] → Unchanged s (.next (s.agentDoes a 0x063 v)))
      ∧ (s.slotsUsed part = [] → SetsReg s a 0x063 v (4096 + part) (v % 2 ^ 16)) := by
  refine ⟨fun h => unchanged_of_regWrite (by decide) hv ?_,
    fun h => sets_of_regWrite (by decide) hv hw (writeFault_agent_eq_none rfl rfl rfl) (copyFor_of_partition rfl) ?_⟩
  · rw [regWrite_063, slotsUsed_regTake, agent_part, if_neg (by simpa using h)]
  · rw [regWrite_063, slotsUsed_regTake, agent_part, if_pos (by simpa using h)]

theorem reg0a4_needs_management {s : State} {a v : Nat} (hv : v < 2 ^ 64) (ha : a ≠ 1) :
    Unchanged s (.next (s.agentDoes a 0x0a4 v)) := by
  refine unchanged_of_fault (by decide) hv (writeFault_of_privilege rfl ?_)
  rw [agent_priv, if_neg ha]
  exact Nat.one_lt_two

theorem regValueBad_0a4 (s : State) (w : Party0) (v : Nat) :
    regValueBad s w 0x0a4 v = true ↔ v / 2 ^ 8 % 2 ^ 8 < 60 ∨ 105 < v / 2 ^ 8 % 2 ^ 8 := by
  have hbad : regValueBad s w 0x0a4 v = !(60 ≤ bits v 8 8 && bits v 8 8 ≤ 105) := rfl
  rw [hbad, Bool.not_eq_true', Bool.and_eq_false_iff, decide_eq_false_iff_not, decide_eq_false_iff_not, Nat.not_le, Nat.not_le]
  rfl

theorem reg0a4_written {s : State} {a v : Nat} (hv : v < 2 ^ 64) (hw : MayWrite s a 0x0a4) (ha : a = 1) :
    let thr := v / 2 ^ 8 % 2 ^ 8
    let trip := v % 2 ^ 8
    (thr < 60 ∨ 105 < thr → Unchanged s (.next (s.agentDoes a 0x0a4 v)))
      ∧ (60 ≤ thr → thr ≤ 105 → SetsReg s a 0x0a4 v 0
        (thr * 2 ^ 8 + (if thr + 5 ≤ trip ∧ trip ≤ 115 then trip else (pkg s 0x0a4).toNat % 2 ^ 8))) := by
  intro thr trip
  refine ⟨fun h => unchanged_of_fault (by decide) hv (writeFault_of_badValue rfl ((regValueBad_0a4 _ _ _).2 h)), fun h1 h2 => ?_⟩
  have hval : regValueBad s (s.agent a) 0x0a4 v = false := by
    rw [← Bool.not_eq_true, regValueBad_0a4]; omega
  have hneed : regNeed s 0x0a4 v ≤ (s.agent a).priv := by rw [agent_priv, if_pos ha]; exact Nat.le_refl 2
  refine sets_of_regWrite (by decide) hv hw (writeFault_eq_none rfl hneed hval) rfl ?_
  rw [regWrite_0a4, regTake_eq_seen, pkg_seen]

theorem registerWritesR431 : RegisterWritesR431 := by
  intro s a n v hn hv part copy same sets
  have sets_of {x : Nat} (h : SetsReg s a n v copy x) : sets x := by
    obtain ⟨t, ht, hreg, hseen⟩ := h
    exact ⟨t, congrArg Host.Outcome.next ht, hreg, hseen⟩
  have hsame (h : Unchanged s (.next (s.agentDoes a n v))) : same := h
  refine ⟨⟨rfl, rfl, rfl⟩, fun h => ?_, fun hp => ?_, fun h => hsame (unchanged_of_unreached hn hv h), fun hw => ⟨?_, ?_, ?_, ?_, ?_, ?_⟩⟩
  · exact congrArg Host.Outcome.next (agentDoes_of_not_mayWrite hn hv fun ⟨_, hturn⟩ => by simp [h] at hturn)
  · exact regTurn_eq_false_iff (regKey_of_copyFor (copyFor_of_plain hp s a))
  · exact fun hp h => hsame (plain_unchanged hn hv hp h)
  · intro hp hm hval
    exact sets_of (plain_sets hn hv hw hp hm hval)
  · rintro rfl
    obtain ⟨hzero, hset⟩ := reg060_written hv hw
    exact ⟨fun h => hsame (hzero h), fun h => sets_of (hset h)⟩
  · rintro rfl
    obtain ⟨hzero, hset⟩ := reg061_written hv hw
    exact ⟨fun h => hsame (hzero h), fun h => sets_of (hset h)⟩
  · rintro rfl
    obtain ⟨hused, hset⟩ := reg063_written hv hw
    exact ⟨fun h => hsame (hused h), fun h => sets_of (hset h)⟩
  · rintro rfl
    refine ⟨fun ha => hsame (reg0a4_needs_management hv ha), fun ha => ?_⟩
    obtain ⟨hout, hset⟩ := reg0a4_written hv hw ha
    exact ⟨fun h => hsame (hout h), fun h1 h2 => sets_of (hset h1 h2)⟩

end Sys2Proof.Machine
end

