-- ==== Sys2Proof/Proofs/LaunchQueues.lean ====
section
/-!
PROOF. LQ_CFG and LQ_TAIL (R291).
-/

namespace Sys2Proof

theorem Tab.find_map {α β : Type} (f : α → β) (t : Tab α) (k : Nat) :
    Tab.find (t.map fun e => (e.1, f e.2)) k = (Tab.find t k).map f := by
  induction t with
  | nil => rfl
  | cons e t ih =>
    obtain ⟨j, u⟩ := e
    rw [List.map_cons, Tab.find, Tab.find]
    split <;> simp [ih]

end Sys2Proof

namespace Sys2Proof.Machine

/-! ### The registers of a launch queue (R291) -/

theorem bits_top {v : Nat} (hv : v < 2 ^ 64) : bits v 63 1 = v / 2 ^ 63 := by
  unfold bits; omega

theorem lqReg_range {q j : Nat} (hq : q < 64) (hj : j < 4) :
    0x200 ≤ lqReg q j ∧ lqReg q j ≤ 0x2ff ∧ lqReg q j % 4 = j ∧ (lqReg q j - 0x200) / 4 = q := by
  unfold lqReg; omega

theorem lqReg_lt {q j : Nat} (hq : q < 64) (hj : j < 4) : lqReg q j < 2048 := by
  have := lqReg_range hq hj; omega

theorem isSel_lqReg {q j : Nat} (hq : q < 64) (hj : j < 4) : isSel (lqReg q j) = false := by
  have := lqReg_range hq hj
  simp only [isSel, Bool.and_eq_false_iff, decide_eq_false_iff_not]
  omega

theorem heldPer_lqReg {q j : Nat} (hq : q < 64) (hj : j < 4) : heldPer (lqReg q j) = .package := by
  have := lqReg_range hq hj
  exact heldPer_eq_package (by omega)

theorem regRO_lqReg {q j : Nat} (hq : q < 64) (hj : j < 3) : regRO (lqReg q j) = false := by
  have := lqReg_range hq (j := j) (by omega)
  exact (regRO_eq_false_iff _).2 ⟨srAssigned_of_table (by omega), by omega⟩

theorem regValueBad_lqReg {q j : Nat} (hq : q < 64) (hj : j < 4) (s : State) (w : Party0) (v : Nat) :
    regValueBad s w (lqReg q j) v = false := by
  have hsel := isSel_lqReg hq hj
  have := lqReg_range hq hj
  unfold regValueBad
  rw [hsel, if_neg (by omega), if_neg (by omega), if_neg (by omega), if_neg (by omega), if_neg (by omega), if_neg (by omega),
    if_neg (by omega), if_neg (by omega), if_neg (by simp; omega), if_neg (by simp; omega), if_neg Bool.false_ne_true,
    if_neg (by simp; omega)]

theorem lqEn_eq_false_iff (s : State) (q : Nat) : lqEn s q = false ↔ rbits (pkg s (lqReg q 1)) 63 1 = 0 := by
  rw [lqEn, decide_eq_false_iff_not]
  unfold rbits bits
  omega

/-- LQ_CFG needs privilege M where it enables a queue for a partition of privilege M. -/
theorem regNeed_lqCfg {q : Nat} (hq : q < 64) (s : State) (v : Nat) :
    regNeed s (lqReg q 1) v = if bits v 63 1 = 1 ∧ lqEn s q = false ∧ partPriv s (bits v 48 6) = 2 then 2 else 1 := by
  have hsel := isSel_lqReg hq (j := 1) (by decide)
  have := lqReg_range hq (j := 1) (by decide)
  unfold regNeed
  rw [hsel, if_neg (by simp; omega), if_neg (by simp; omega), if_neg (by omega), if_neg (by simp; omega), if_pos (by simp; omega)]
  simp only [Bool.and_eq_true, decide_eq_true_eq, lqEn_eq_false_iff, and_assoc]

theorem regNeed_lqTail {q : Nat} (hq : q < 64) (s : State) (v : Nat) : regNeed s (lqReg q 2) v = 1 := by
  have hsel := isSel_lqReg hq (j := 2) (by decide)
  have := lqReg_range hq (j := 2) (by decide)
  unfold regNeed
  rw [hsel, if_neg (by simp; omega), if_neg (by simp; omega), if_neg (by omega), if_neg (by simp; omega), if_neg (by simp; omega)]

theorem copyFor_lqReg {q j : Nat} (hq : q < 64) (hj : j < 4) (s : State) (a : Nat) : s.copyFor (s.agent a) (lqReg q j) = some 0 :=
  copyFor_of_package (heldPer_lqReg hq hj)

/-- What is written to register `j` of the row of a queue. -/
def State.writeLq (s : State) (w : Party0) (q j v : Nat) : State := s.writeRow w 0 (lqReg q j) v

theorem writeLq_cfg {q : Nat} (hq : q < 64) (s : State) (w : Party0) (v : Nat) : s.writeLq w q 1 v = s.writeLqCfg w q v := by
  obtain ⟨-, -, h4, hrow⟩ := lqReg_range hq (j := 1) (by decide)
  rw [State.writeLq, State.writeRow, if_neg (by omega), if_pos h4, hrow]
theorem writeLq_tail {q : Nat} (hq : q < 64) (s : State) (w : Party0) (v : Nat) : s.writeLq w q 2 v = s.writeLqTail q v := by
  obtain ⟨-, -, h4, hrow⟩ := lqReg_range hq (j := 2) (by decide)
  rw [State.writeLq, State.writeRow, if_neg (by omega), if_neg (by omega), hrow]

theorem regWrite_lqReg {q j : Nat} (hq : q < 64) (hj : j < 3) {s : State} {w : Party0} (hc : s.copyFor w (lqReg q j) = some 0)
    (v : Nat) : s.regWrite w (lqReg q j) v = s.writeLq w q j v := by
  have := lqReg_range hq (j := j) (by omega)
  rw [regWrite_eq_writeTable (regRO_lqReg hq hj) (by unfold OwnWay; omega) hc, State.writeTable, if_pos (by omega), State.writeLq]

/-- A write of LQ_CFG or LQ_TAIL that nothing forbids. -/
theorem agentDoes_lqReg {s : State} {a q v j : Nat} (hq : q < 64) (hv : v < 2 ^ 64) (hj : j < 3) (hw : MayWrite s a (lqReg q j))
    (hneed : regNeed s (lqReg q j) v ≤ (s.agent a).priv) :
    let u := s.seen (s.regTake (s.agent a) (lqReg q j)).srSeen
    s.agentDoes a (lqReg q j) v = u.writeLq (s.agent a) q j v := by
  have hj4 : j < 4 := by omega
  rw [agentDoes_of_mayWrite (lqReg_lt hq hj4) hv hw
    (writeFault_eq_none (isSel_lqReg hq hj4) hneed (regValueBad_lqReg hq hj4 _ _ _)), ← regTake_eq_seen]
  exact regWrite_lqReg (s := s.regTake (s.agent a) (lqReg q j)) hq hj (copyFor_lqReg hq hj4 s a) v

/-! ### LQ_CFG -/

@[simp] theorem partPriv_seen (s : State) (x : Tab (Nat × Nat)) (p : Nat) : partPriv (s.seen x) p = partPriv s p := rfl

theorem lqCfg_unchanged {s : State} {a q v : Nat} (hq : q < 64) (hv : v < 2 ^ 64) (hen : lqEn s q = false) (hv1 : v / 2 ^ 63 = 1)
    (h : (partPriv s (bits v 48 6) = 2 ∧ a ≠ 1) ∨ (partPriv s (bits v 48 6) = 1 ∧ a = 0)) :
    Unchanged s (.next (s.agentDoes a (lqReg q 1) v)) := by
  have hn := lqReg_lt hq (j := 1) (by decide)
  have hbit : bits v 63 1 = 1 := by rw [bits_top hv, hv1]
  rcases h with ⟨hp, ha⟩ | ⟨hp, ha⟩
  · refine unchanged_of_fault hn hv (writeFault_of_privilege (regRO_lqReg hq (by decide)) ?_)
    rw [regNeed_lqCfg hq, if_pos ⟨hbit, hen, hp⟩, agent_priv, if_neg ha]
    decide
  · refine unchanged_of_regWrite hn hv ?_
    rw [regTake_eq_seen, regWrite_lqReg (s := s.seen (s.regTake (s.agent a) (lqReg q 1)).srSeen) hq (by decide)
      (copyFor_lqReg hq (by decide) s a), writeLq_cfg hq]
    have hoff : ¬ rbits (pkg s (lqReg q 1)) 63 1 = 1 := by rw [(lqEn_eq_false_iff s q).1 hen]; decide
    unfold State.writeLqCfg
    dsimp only
    rw [pkg_seen, if_neg hoff, if_neg (by omega), if_pos (by simp [hp, ha])]

theorem agentDoes_lqCfg {s : State} {a q v : Nat} (hq : q < 64) (hv : v < 2 ^ 64) (hw : MayWrite s a (lqReg q 1))
    (h : bits v 63 1 = 1 → lqEn s q = false → partPriv s (bits v 48 6) = 2 → a = 1) :
    s.agentDoes a (lqReg q 1) v = (s.seen (s.regTake (s.agent a) (lqReg q 1)).srSeen).writeLqCfg (s.agent a) q v := by
  refine (agentDoes_lqReg hq hv (by decide) hw ?_).trans (writeLq_cfg hq _ _ _)
  rw [regNeed_lqCfg hq]
  split
  · next hc =>
    obtain ⟨hbit, hen, hp⟩ := hc
    rw [agent_priv, if_pos (h hbit hen hp)]
  · exact one_le_agent_priv s a

theorem lqCfg_of_enabled {s : State} {a q v : Nat} (hq : q < 64) (hv : v < 2 ^ 64) (hw : MayWrite s a (lqReg q 1))
    (hen : lqEn s q = true) :
    OnlyReg s (s.agentDoes a (lqReg q 1) v) 0 (lqReg q 1)
      (BitVec.ofNat 64 ((pkg s (lqReg q 1)).toNat % 2 ^ 63 + v / 2 ^ 63 * 2 ^ 63)) := by
  have hon : rbits (pkg s (lqReg q 1)) 63 1 = 1 := by simpa [lqEn] using hen
  rw [agentDoes_lqCfg hq hv hw (by simp [hen])]
  unfold State.writeLqCfg
  dsimp only
  rw [pkg_seen, if_pos hon, bits_top hv]
  exact onlyReg_srSet s _ 0 _ _ (lqReg_lt hq (by decide))

theorem lqCfg_of_disabled {s : State} {a q v : Nat} (hq : q < 64) (hv : v < 2 ^ 64) (hw : MayWrite s a (lqReg q 1))
    (hen : lqEn s q = false) (hv0 : v / 2 ^ 63 = 0) :
    OnlyReg s (s.agentDoes a (lqReg q 1) v) 0 (lqReg q 1) (BitVec.ofNat 64 (v &&& regMask 0x201)) := by
  have hoff : ¬ rbits (pkg s (lqReg q 1)) 63 1 = 1 := by rw [(lqEn_eq_false_iff s q).1 hen]; decide
  rw [agentDoes_lqCfg hq hv hw fun h => by rw [bits_top hv, hv0] at h; cases h]
  unfold State.writeLqCfg
  dsimp only
  rw [pkg_seen, if_neg hoff, if_pos (by rw [bits_top hv, hv0])]
  exact onlyReg_srSet s _ 0 _ _ (lqReg_lt hq (by decide))

/-! A queue that is enabled afresh. -/

/-- The registers of a queue that starts at TAIL. -/
def State.startRegs (s : State) (q v : Nat) : State :=
  let s := srSet s 0 (lqReg q 1) (BitVec.ofNat 64 (v &&& regMask 0x201))
  let t := lqTail s q
  let s := srSet s 0 (lqReg q 3) (BitVec.ofNat 64 (t * 2 ^ 32 + t))
  srSet s 0 (0x680 + q) 0

/-- The end of a kernel of the queue is not told. -/
def noteQueue (q : Nat) (x : Kernel) : Kernel := if x.queue = q then { x with noStatus := true } else x

/-- A queue without a history: nothing is awaited, and what its kernels end with is not told. -/
def State.dropHistory (s : State) (q : Nat) : State :=
  let l := Tab.get {} s.queues q
  { s with
    queues := Tab.put s.queues q { l with expect := none, headAt := none, bypass := 0, status := [], done := [] }
    kernels := s.kernels.map fun (e : Nat × Kernel) => (e.1, noteQueue q e.2) }

/-- What `writeLqCfg` makes of a queue that it enables. -/
def State.startQueue (s : State) (q v : Nat) : State := (s.startRegs q v).dropHistory q

@[simp] theorem pkg_dropHistory (s : State) (q n : Nat) : pkg (s.dropHistory q) n = pkg s n := rfl
@[simp] theorem dropHistory_mem (s : State) (q : Nat) : (s.dropHistory q).mem = s.mem := rfl
theorem dropHistory_kern (s : State) (q k : Nat) :
    (s.dropHistory q).kern k = (s.kern k).map (noteQueue q) :=
  Tab.find_map (noteQueue q) s.kernels k
theorem dropHistory_queues (s : State) (q : Nat) :
    (s.dropHistory q).queues = Tab.put s.queues q
      { Tab.get ({} : LQueue) s.queues q with expect := none, headAt := none, bypass := 0, status := [], done := [] } := rfl
theorem startRegs_queues (s : State) (q v : Nat) : (s.startRegs q v).queues = s.queues := by
  rw [State.startRegs, srSet_queues, srSet_queues, srSet_queues]
theorem startRegs_kern (s : State) (q v k : Nat) : (s.startRegs q v).kern k = s.kern k := by
  rw [State.kern, State.startRegs, srSet_kernels, srSet_kernels, srSet_kernels, State.kern]
theorem startRegs_mem (s : State) (q v : Nat) : (s.startRegs q v).mem = s.mem := by
  rw [State.startRegs, srSet_mem, srSet_mem, srSet_mem]

theorem writeLqCfg_enables {s : State} {w : Party0} {q v : Nat} (hoff : ¬ rbits (pkg s (lqReg q 1)) 63 1 = 1) (hv : bits v 63 1 = 1)
    (hp : ¬ (w.host = true ∧ partPriv s (bits v 48 6) ≠ 0)) : s.writeLqCfg w q v = s.startQueue q v := by
  unfold State.writeLqCfg
  dsimp only
  rw [if_neg hoff, if_neg (by omega), if_neg (by simpa using hp)]
  rfl

theorem pkg_startQueue (s : State) (q v n : Nat) :
    pkg (s.startQueue q v) n =
      if n = 0x680 + q then 0
      else if n = lqReg q 3 then BitVec.ofNat 64 (lqTail s q * 2 ^ 32 + lqTail s q)
      else if n = lqReg q 1 then BitVec.ofNat 64 (v &&& regMask 0x201) else pkg s n := by
  have htail : lqTail (srSet s 0 (lqReg q 1) (BitVec.ofNat 64 (v &&& regMask 0x201))) q = lqTail s q := by
    unfold lqTail
    rw [pkg_srSet_other _ _ _ _ (by unfold lqReg; omega)]
  rw [State.startQueue, pkg_dropHistory, State.startRegs, htail]
  split
  · next h => rw [h, pkg_srSet_same]
  · next h =>
    rw [pkg_srSet_other _ _ _ _ h]
    split
    · next h3 => rw [h3, pkg_srSet_same]
    · next h3 =>
      rw [pkg_srSet_other _ _ _ _ h3]
      split
      · next h1 => rw [h1, pkg_srSet_same]
      · next h1 => rw [pkg_srSet_other _ _ _ _ h1]

theorem lqCfg_startQueue {q : Nat} (hq : q < 64) (s : State) (v : Nat) :
    pkg (s.startQueue q v) (lqReg q 1) = BitVec.ofNat 64 (v &&& regMask 0x201) := by
  rw [pkg_startQueue, if_neg (by unfold lqReg; omega), if_neg (by unfold lqReg; omega), if_pos rfl]

theorem lqTail_startQueue {q : Nat} (hq : q < 64) (s : State) (v : Nat) : lqTail (s.startQueue q v) q = lqTail s q := by
  unfold lqTail
  rw [pkg_startQueue, if_neg (by unfold lqReg; omega), if_neg (by unfold lqReg; omega), if_neg (by unfold lqReg; omega)]

/-- The heads that are taken and done both start at TAIL. -/
theorem lqHead_startQueue {q : Nat} (hq : q < 64) (s : State) (v : Nat) :
    lqTaken (s.startQueue q v) q = lqTail s q ∧ lqDone (s.startQueue q v) q = lqTail s q := by
  have ht : lqTail s q < 2 ^ 32 := Nat.mod_lt _ (by decide)
  unfold lqTaken lqDone
  rw [pkg_startQueue, if_neg (by unfold lqReg; omega), if_pos rfl, rbits_ofNat (by omega), rbits_ofNat (by omega)]
  generalize lqTail s q = t at ht ⊢
  constructor
  · rw [bits_low, Nat.mul_add_mod_self_right, Nat.mod_eq_of_lt ht]
  · rw [bits, Nat.add_comm, Nat.add_mul_div_right _ _ (by decide), Nat.div_eq_of_lt ht, Nat.zero_add, Nat.mod_eq_of_lt ht]

/-- The fields of the queue's row that LQ_CFG sets. -/
theorem lqFields_startQueue {q v : Nat} (hq : q < 64) (hv : v < 2 ^ 64) (s : State) :
    rbits (pkg (s.startQueue q v) (lqReg q 1)) 63 1 = bits v 63 1 ∧ lqPart (s.startQueue q v) q = bits v 48 6
      ∧ lqAsid (s.startQueue q v) q = bits v 32 16 ∧ lqEnt (s.startQueue q v) q = bits v 0 16 := by
  unfold lqPart lqAsid lqEnt
  have hlt : v &&& regMask 0x201 < 2 ^ 64 := Nat.lt_of_le_of_lt Nat.and_le_left hv
  rw [lqCfg_startQueue hq]
  simp only [rbits_ofNat hlt]
  exact ⟨bits_and_covered v (by decide), bits_and_covered v (by decide), bits_and_covered v (by decide), bits_and_covered v (by decide)⟩

theorem kern_startQueue {s : State} {q v k : Nat} {x : Kernel} (hk : s.kern k = some x) (hx : x.queue = q) :
    ∃ y, (s.startQueue q v).kern k = some y ∧ y.noStatus = true ∧ y.st = x.st := by
  have hnoted : (s.startQueue q v).kern k = some { x with noStatus := true } := by
    rw [State.startQueue, dropHistory_kern, startRegs_kern, hk, Option.map_some, noteQueue, if_pos hx]
  exact ⟨_, hnoted, rfl, rfl⟩

theorem queue_startQueue (s : State) (q v : Nat) :
    Tab.get ({} : LQueue) (s.startQueue q v).queues q =
      { Tab.get ({} : LQueue) s.queues q with expect := none, headAt := none, bypass := 0, status := [], done := [] } := by
  rw [State.startQueue, dropHistory_queues, startRegs_queues, Tab.get_put_same]

theorem agentDoes_starts_queue {s : State} {a q v : Nat} (hq : q < 64) (hv : v < 2 ^ 64) (hw : MayWrite s a (lqReg q 1))
    (hen : lqEn s q = false) (hv1 : v / 2 ^ 63 = 1)
    (hp : partPriv s (bits v 48 6) = 0 ∨ (partPriv s (bits v 48 6) = 1 ∧ a ≠ 0) ∨ (partPriv s (bits v 48 6) = 2 ∧ a = 1)) :
    s.agentDoes a (lqReg q 1) v = (s.seen (s.regTake (s.agent a) (lqReg q 1)).srSeen).startQueue q v := by
  have hoff : ¬ rbits (pkg s (lqReg q 1)) 63 1 = 1 := by rw [(lqEn_eq_false_iff s q).1 hen]; decide
  rw [agentDoes_lqCfg hq hv hw (fun _ _ h2 => by omega)]
  refine writeLqCfg_enables hoff (by rw [bits_top hv, hv1]) fun ⟨hhost, hpriv⟩ => ?_
  have ha : a = 0 := by simpa using hhost
  have hpriv : partPriv s (bits v 48 6) ≠ 0 := hpriv
  omega

/-! ### LQ_TAIL -/

theorem agentDoes_lqTail {s : State} {a q v : Nat} (hq : q < 64) (hv : v < 2 ^ 64) (hw : MayWrite s a (lqReg q 2)) :
    s.agentDoes a (lqReg q 2) v = (s.seen (s.regTake (s.agent a) (lqReg q 2)).srSeen).writeLqTail q v :=
  (agentDoes_lqReg hq hv (by decide) hw (by rw [regNeed_lqTail hq]; exact one_le_agent_priv s a)).trans (writeLq_tail hq _ _ _)

/-- Counting an event changes counters alone. -/
theorem countAt_eq_sr (s : State) (part : Nat) (copies : List Nat) (ev amt : Nat) :
    countAt s part copies ev amt = { s with sr := (countAt s part copies ev amt).sr } := by
  have hkeep : ({ countAt s part copies ev amt with sr := [] } : State) = { s with sr := [] } :=
    foldl_keeps (fun s => ({ s with sr := [] } : State)) _ (fun s e => by dsimp only; split <;> rfl) _ _
  exact congrArg (fun t : State => { t with sr := (countAt s part copies ev amt).sr }) hkeep

theorem pkg_countAt_lqReg (s : State) (part : Nat) (copies : List Nat) (ev amt : Nat) {q j : Nat} (hq : q < 64) (hj : j < 4) :
    pkg (countAt s part copies ev amt) (lqReg q j) = pkg s (lqReg q j) := by
  have hreg := lqReg_range hq hj
  refine foldl_keeps (fun s => pkg s (lqReg q j)) _ (fun s e => ?_) _ _
  dsimp only
  split
  · next hc =>
    simp only [Bool.and_eq_true, decide_eq_true_eq] at hc
    exact srGet_srSet_other _ _ _ _ _ _ (by omega)
  · rfl

/-- The queue's head waits from now on, where there is one that did not. -/
theorem stampHead_fresh {s : State} {q : Nat} (hen : lqEn s q = true) (hres : (Tab.get ({} : LQueue) s.queues q).resume = [])
    (hhead : (Tab.get ({} : LQueue) s.queues q).headAt = none) (htail : lqTail s q ≠ lqTaken s q) :
    (Tab.get ({} : LQueue) (s.stampHead q).queues q).headAt = some s.now := by
  simp [State.stampHead, hen, hres, hhead, htail]

theorem stampHead_eq_queues (s : State) (q : Nat) : s.stampHead q = { s with queues := (s.stampHead q).queues } := by
  unfold State.stampHead
  extract_lets l is at_
  split <;> rfl

@[simp] theorem pkg_stampHead (s : State) (q n : Nat) : pkg (s.stampHead q) n = pkg s n := by
  rw [stampHead_eq_queues]; rfl

/-- A TAIL that overruns the ring is refused. -/
theorem lqTail_overrun {s : State} {q v : Nat} (hq : q < 64) (h : lqEnt s q + 1 < (v % 2 ^ 32 + 2 ^ 32 - lqDone s q) % 2 ^ 32) :
    s.writeLqTail q v = { s with sr := (s.writeLqTail q v).sr } ∧ lqTail (s.writeLqTail q v) q = lqTail s q := by
  have hw : s.writeLqTail q v = countAt s (lqPart s q) [0] 9 1 := by
    unfold State.writeLqTail
    dsimp only
    rw [if_pos (by simpa [bits] using h)]
  rw [hw]
  exact ⟨countAt_eq_sr _ _ _ _ _, by rw [lqTail, pkg_countAt_lqReg _ _ _ _ _ hq (by decide), lqTail]⟩

theorem lqReg_others {s u : State} {q v : Nat} (hu : ∀ n, pkg u n = pkg (srSet s 0 (lqReg q 2) (BitVec.ofNat 64 v)) n) (hv : v < 2 ^ 32) :
    lqTail u q = v ∧ ∀ n, n ≠ lqReg q 2 → pkg u n = pkg s n := by
  refine ⟨?_, fun n hn => by rw [hu, pkg_srSet_other _ _ _ _ hn]⟩
  rw [lqTail, hu, pkg_srSet_same, rbits_ofNat (by omega), bits_low, Nat.mod_eq_of_lt hv]

/-- A TAIL within the ring is taken; the head of an enabled queue waits from now on, where there was none. -/
theorem lqTail_accepted {s : State} {q v : Nat} (h : (v % 2 ^ 32 + 2 ^ 32 - lqDone s q) % 2 ^ 32 ≤ lqEnt s q + 1) :
    let u := s.writeLqTail q v
    let l := Tab.get ({} : LQueue) s.queues q
    u = { s with sr := u.sr, queues := u.queues } ∧ lqTail u q = v % 2 ^ 32 ∧ (∀ n, n ≠ lqReg q 2 → pkg u n = pkg s n)
      ∧ (lqEn s q = true → l.resume = [] → l.headAt = none → v % 2 ^ 32 ≠ lqTaken s q →
        (Tab.get ({} : LQueue) u.queues q).headAt = some s.now) := by
  have hlt : v % 2 ^ 32 < 2 ^ 32 := Nat.mod_lt _ (by decide)
  have hbits : bits v 0 32 = v % 2 ^ 32 := by rw [bits_low]
  intro u l
  by_cases hen : lqEn s q = true
  · have hu : u = (srSet s 0 (lqReg q 2) (BitVec.ofNat 64 (v % 2 ^ 32))).stampHead q := by
      unfold u State.writeLqTail
      dsimp only
      rw [hbits, if_neg (by omega), if_pos hen, State.setTail, Nat.mod_mod]
    obtain ⟨htail, hothers⟩ := lqReg_others (s := s) (u := u) (q := q) (fun n => by rw [hu, pkg_stampHead]) hlt
    refine ⟨?_, htail, hothers, fun _ hres hhead hne => ?_⟩
    · rw [hu, stampHead_eq_queues]; rfl
    · rw [hu]
      obtain ⟨htail', hothers'⟩ := lqReg_others (s := s) (q := q) (fun n => rfl) hlt
      refine stampHead_fresh ?_ hres hhead ?_
      · rw [lqEn, hothers' _ (by unfold lqReg; omega)]; exact hen
      · rw [htail', lqTaken, hothers' _ (by unfold lqReg; omega)]; exact hne
  · have hu : u = srSet s 0 (lqReg q 2) (BitVec.ofNat 64 (v % 2 ^ 32)) := by
      unfold u State.writeLqTail
      dsimp only
      rw [hbits, if_neg (by omega), if_neg hen]
    obtain ⟨htail, hothers⟩ := lqReg_others (s := s) (u := u) (q := q) (fun n => by rw [hu]) hlt
    exact ⟨by rw [hu]; rfl, htail, hothers, fun h => absurd h hen⟩

/-! ### LQ_CFG_WRITE and LQ_TAIL_WRITE (R291) -/

theorem lqEnt_seen (s : State) (x : Tab (Nat × Nat)) (q : Nat) : lqEnt (s.seen x) q = lqEnt s q := rfl
theorem lqDone_seen (s : State) (x : Tab (Nat × Nat)) (q : Nat) : lqDone (s.seen x) q = lqDone s q := rfl

theorem exec_lqCfgWrite {q : Nat} (hq : q < 64) (a v : Nat) (s : State) :
    exec (.lqCfgWrite a q v) s = .next (s.agentDoes a (lqReg q 1) v) := if_pos hq

theorem exec_lqTailWrite {q : Nat} (hq : q < 64) (a v : Nat) (s : State) :
    exec (.lqTailWrite a q v) s = .next (s.agentDoes a (lqReg q 2) v) := if_pos hq

theorem exec_lqCfgWrite_of_not_mayWrite {s : State} {a q v : Nat} (hv : v < 2 ^ 64) (h : 64 ≤ q ∨ ¬ MayWrite s a (lqReg q 1)) :
    exec (.lqCfgWrite a q v) s = .next s := by
  by_cases hq : q < 64
  · rw [exec_lqCfgWrite hq, agentDoes_of_not_mayWrite (lqReg_lt hq (by decide)) hv (h.resolve_left (Nat.not_le.2 hq))]
  · exact if_neg hq

theorem exec_lqTailWrite_of_not_mayWrite {s : State} {a q v : Nat} (hv : v < 2 ^ 64) (h : 64 ≤ q ∨ ¬ MayWrite s a (lqReg q 2)) :
    exec (.lqTailWrite a q v) s = .next s := by
  by_cases hq : q < 64
  · rw [exec_lqTailWrite hq, agentDoes_of_not_mayWrite (lqReg_lt hq (by decide)) hv (h.resolve_left (Nat.not_le.2 hq))]
  · exact if_neg hq

theorem eq_sr_of_seen {s u : State} {x : Tab (Nat × Nat)} (h : u = { s.seen x with sr := u.sr }) :
    u = { s with sr := u.sr, srSeen := u.srSeen } := by
  have hx : u.srSeen = x := congrArg State.srSeen h
  rw [hx]
  exact h

theorem eq_sr_queues_of_seen {s u : State} {x : Tab (Nat × Nat)} (h : u = { s.seen x with sr := u.sr, queues := u.queues }) :
    u = { s with sr := u.sr, srSeen := u.srSeen, queues := u.queues } := by
  have hx : u.srSeen = x := congrArg State.srSeen h
  rw [hx]
  exact h

theorem lqCfg_enables {s : State} {a q v : Nat} (hq : q < 64) (hv : v < 2 ^ 64) (hw : MayWrite s a (lqReg q 1))
    (hen : lqEn s q = false) (hv1 : v / 2 ^ 63 = 1)
    (hp : partPriv s (bits v 48 6) = 0 ∨ (partPriv s (bits v 48 6) = 1 ∧ a ≠ 0) ∨ (partPriv s (bits v 48 6) = 2 ∧ a = 1)) :
    let t := s.agentDoes a (lqReg q 1) v
    let l := Tab.get ({} : LQueue) t.queues q
    t.mem = s.mem ∧ lqEn t q = true ∧ lqPart t q = bits v 48 6 ∧ lqAsid t q = bits v 32 16 ∧ lqEnt t q = bits v 0 16
      ∧ lqTail t q = lqTail s q ∧ lqTaken t q = lqTail s q ∧ lqDone t q = lqTail s q ∧ pkg t (0x680 + q) = 0
      ∧ l.expect = none ∧ l.status = [] ∧ l.resume = (Tab.get ({} : LQueue) s.queues q).resume
      ∧ ∀ k x, s.kern k = some x → x.queue = q → ∃ y, t.kern k = some y ∧ y.noStatus = true ∧ y.st = x.st := by
  intro t l
  have ht : t = (s.seen (s.regTake (s.agent a) (lqReg q 1)).srSeen).startQueue q v := agentDoes_starts_queue hq hv hw hen hv1 hp
  unfold l
  rw [ht]
  generalize (s.regTake (s.agent a) (lqReg q 1)).srSeen = x
  obtain ⟨hbit, hpart, hasid, hent⟩ := lqFields_startQueue hq hv (s.seen x)
  obtain ⟨htaken, hdone⟩ := lqHead_startQueue hq (s.seen x) v
  refine ⟨?_, ?_, hpart, hasid, hent, lqTail_startQueue hq _ v, htaken, hdone, ?_, ?_, ?_, ?_, fun k x hk hx => ?_⟩
  · rw [State.startQueue, dropHistory_mem, startRegs_mem, seen_mem]
  · rw [lqEn, hbit, bits_top hv, hv1]; rfl
  · rw [pkg_startQueue, if_pos rfl]
  · rw [queue_startQueue]
  · rw [queue_startQueue]
  · rw [queue_startQueue]; rfl
  · exact kern_startQueue (s := s.seen _) hk hx

theorem launchQueuesR291 : LaunchQueuesR291 := by
  intro s a q v hv
  refine ⟨exec_lqCfgWrite_of_not_mayWrite hv, exec_lqTailWrite_of_not_mayWrite hv, fun hq hw1 hw2 => ?_⟩
  rw [exec_lqCfgWrite hq, exec_lqTailWrite hq]
  refine ⟨fun hen => ⟨_, rfl, lqCfg_of_enabled hq hv hw1 hen⟩, fun hen hv0 => ⟨_, rfl, lqCfg_of_disabled hq hv hw1 hen hv0⟩,
    fun hen hv1 hp => lqCfg_unchanged hq hv hen hv1 hp, fun hen hv1 hp => ?_, fun hover => ?_, fun hin => ?_⟩
  · obtain ⟨hmem, hon, hpart, hasid, hent, hrest⟩ := lqCfg_enables hq hv hw1 hen hv1 hp
    refine ⟨_, rfl, hmem, hon, hpart, hasid, ?_, hrest⟩
    rw [hent, bits_low]
  · rw [agentDoes_lqTail hq hv hw2]
    generalize (s.regTake (s.agent a) (lqReg q 2)).srSeen = x
    obtain ⟨hsr, htail⟩ := lqTail_overrun (s := s.seen x) (v := v) hq (by rwa [lqDone_seen, lqEnt_seen])
    exact ⟨_, rfl, eq_sr_of_seen hsr, htail⟩
  · rw [agentDoes_lqTail hq hv hw2]
    generalize (s.regTake (s.agent a) (lqReg q 2)).srSeen = x
    obtain ⟨heq, htail, hothers, hhead⟩ := lqTail_accepted (s := s.seen x) (v := v) (q := q) (by rwa [lqDone_seen, lqEnt_seen])
    exact ⟨_, rfl, eq_sr_queues_of_seen heq, htail, fun n hn => .inl (hothers n hn), hhead⟩

end Sys2Proof.Machine
end

