-- ==== Sys2Proof/Proofs/PartitionTables.lean ====
section
/-!
PROOF. PT_CFG (R339) and the selectors of the package's counters (R354).
-/

namespace Sys2Proof.Machine

/-! ### PT_CFG_WRITE (R339) -/

theorem ptCfg_package {p : Nat} (hp : p < 64) : heldPer (0x300 + 8 * p) = .package :=
  heldPer_eq_package (by omega)

theorem isSel_ptCfg {p : Nat} (hp : p < 64) : isSel (0x300 + 8 * p) = false := by
  simp only [isSel, Bool.and_eq_false_iff, decide_eq_false_iff_not]
  omega

theorem regRO_ptCfg {p : Nat} (hp : p < 64) : regRO (0x300 + 8 * p) = false :=
  (regRO_eq_false_iff _).2 ⟨srAssigned_of_table (by omega), by omega⟩

theorem regNeed_ptCfg {p : Nat} (hp : p < 64) (s : State) (v : Nat) : regNeed s (0x300 + 8 * p) v = 1 := by
  have hsel := isSel_ptCfg hp
  unfold regNeed
  rw [hsel, if_neg (by simp; omega), if_neg (by simp; omega), if_neg (by omega), if_pos (by simp; omega), if_pos (by omega)]

/-- PRIV 3 is a value outside the column of PT_CFG, where the writer may set it. -/
theorem regValueBad_ptCfg {p : Nat} (hp : p < 64) (s : State) (w : Party0) (v : Nat) :
    regValueBad s w (0x300 + 8 * p) v = (w.priv = 2 && bits v 61 2 = 3) := by
  have h8 : (0x300 + 8 * p) % 8 = 0 := by omega
  unfold regValueBad
  rw [if_neg (by omega), if_neg (by omega), if_neg (by omega), if_neg (by omega), if_neg (by omega), if_neg (by omega),
    if_neg (by omega), if_neg (by omega), if_neg (by simp; omega), if_pos (by simp; omega), h8]
  rfl

theorem regWrite_ptCfg {p : Nat} (hp : p < 64) {s : State} {w : Party0} (hc : s.copyFor w (0x300 + 8 * p) = some 0) (v : Nat) :
    s.regWrite w (0x300 + 8 * p) v = s.writePtCfg w (0x300 + 8 * p) v := by
  rw [regWrite_eq_writeTable (regRO_ptCfg hp) (by unfold OwnWay; omega) hc, State.writeTable, if_neg (by omega), if_pos (by omega)]

theorem exec_ptCfgWrite {p : Nat} (hp : p < 64) (a v : Nat) (s : State) :
    exec (.ptCfgWrite a p v) s = .next (s.agentDoes a (0x300 + 8 * p) v) := if_pos hp

theorem exec_ptCfgWrite_of_not_mayWrite {s : State} {a p v : Nat} (hv : v < 2 ^ 64) (h : 64 ≤ p ∨ ¬ MayWrite s a (0x300 + 8 * p)) :
    exec (.ptCfgWrite a p v) s = .next s := by
  by_cases hp : p < 64
  · rw [exec_ptCfgWrite hp, agentDoes_of_not_mayWrite (by omega) hv (h.resolve_left (Nat.not_le.2 hp))]
  · exact if_neg hp

theorem agentDoes_ptCfg {s : State} {a p v : Nat} (hp : p < 64) (hv : v < 2 ^ 64) (hw : MayWrite s a (0x300 + 8 * p))
    (hval : a = 1 → v / 2 ^ 61 % 4 ≠ 3) :
    s.agentDoes a (0x300 + 8 * p) v = (s.seen (s.regTake (s.agent a) (0x300 + 8 * p)).srSeen).writePtCfg (s.agent a) (0x300 + 8 * p) v := by
  have hbad : regValueBad s (s.agent a) (0x300 + 8 * p) v = false := by
    rw [regValueBad_ptCfg hp, agent_priv]
    by_cases ha : a = 1
    · exact Bool.and_eq_false_iff.2 (.inr (decide_eq_false (hval ha)))
    · simp [ha]
  rw [agentDoes_of_mayWrite (by omega) hv hw (writeFault_agent_eq_none (isSel_ptCfg hp) (regNeed_ptCfg hp s v) hbad), ← regTake_eq_seen]
  exact regWrite_ptCfg (s := s.regTake (s.agent a) (0x300 + 8 * p)) hp (copyFor_of_package (s := s) (ptCfg_package hp)) v

/-- All the fields of PT_CFG: DIE, PRIV and SHARE. -/
theorem and_regMask_300 {v : Nat} (hv : v < 2 ^ 64) : v &&& regMask 0x300 = v / 2 ^ 61 * 2 ^ 61 + v % 2 ^ 8 := by
  have hlt : v &&& regMask 0x300 < 2 ^ 64 := Nat.lt_of_le_of_lt Nat.and_le_left hv
  have htop : bits (v &&& regMask 0x300) 61 3 = bits v 61 3 := bits_and_covered v (by decide)
  have hmid : bits (v &&& regMask 0x300) 8 53 = 0 := bits_and_cleared v (by decide)
  have hlow : bits (v &&& regMask 0x300) 0 8 = bits v 0 8 := bits_and_covered v (by decide)
  generalize v &&& regMask 0x300 = x at *
  unfold bits at htop hmid hlow
  omega

theorem ptCfg_written {s : State} {a p v : Nat} (hp : p < 64) (hv : v < 2 ^ 64) (hw : MayWrite s a (0x300 + 8 * p)) :
    (a ≠ 1 → OnlyReg s (s.agentDoes a (0x300 + 8 * p) v) 0 (0x300 + 8 * p)
        (BitVec.ofNat 64 ((pkg s (0x300 + 8 * p)).toNat / 2 ^ 8 * 2 ^ 8 + v % 2 ^ 8)))
      ∧ (a = 1 → v / 2 ^ 61 % 4 = 3 → s.agentDoes a (0x300 + 8 * p) v = s)
      ∧ (a = 1 → v / 2 ^ 61 % 4 ≠ 3 → OnlyReg s (s.agentDoes a (0x300 + 8 * p) v) 0 (0x300 + 8 * p)
        (BitVec.ofNat 64 (v / 2 ^ 61 * 2 ^ 61 + v % 2 ^ 8))) := by
  refine ⟨fun ha => ?_, fun ha h3 => ?_, fun ha h3 => ?_⟩
  · rw [agentDoes_ptCfg hp hv hw (fun h => absurd h ha), State.writePtCfg, agent_priv, if_neg ha, if_neg (by decide)]
    exact onlyReg_srSet s _ 0 _ _ (by omega)
  · refine agentDoes_of_fault (by omega) hv (writeFault_of_badValue (regRO_ptCfg hp) ?_)
    rw [regValueBad_ptCfg hp, agent_priv]
    exact Bool.and_eq_true_iff.2 ⟨decide_eq_true (if_pos ha), decide_eq_true h3⟩
  · rw [agentDoes_ptCfg hp hv hw (fun _ => h3), State.writePtCfg, agent_priv, if_pos ha, if_pos rfl, and_regMask_300 hv]
    exact onlyReg_srSet s _ 0 _ _ (by omega)

/-! ### SAFE_SEL_WRITE (R354) -/

theorem selector_bounds {n : Nat} (h : isSel n = true) : 0x500 ≤ n ∧ n ≤ 0x5df ∧ n % 2 = 0 := by
  simpa [isSel, and_assoc] using h

theorem regRO_sel {n : Nat} (h : isSel n = true) : regRO n = false := by
  have := selector_bounds h
  exact (regRO_eq_false_iff n).2 ⟨srAssigned_of_table (by omega), by omega⟩

theorem regNeed_sel {n : Nat} (h : isSel n = true) (s : State) (v : Nat) : regNeed s n v = 0 := by
  unfold regNeed
  rw [if_pos (by simp [h])]

theorem regValueBad_sel {n : Nat} (h : isSel n = true) (s : State) (w : Party0) (v : Nat) :
    regValueBad s w n v = decide (16 < bits v 0 8) := by
  have := selector_bounds h
  unfold regValueBad
  rw [if_neg (by omega), if_neg (by omega), if_neg (by omega), if_neg (by omega), if_neg (by omega), if_neg (by omega),
    if_neg (by omega), if_neg (by omega), if_neg (by simp; omega), if_neg (by simp; omega), if_pos h]

theorem regWrite_sel {n : Nat} (h : isSel n = true) {s : State} {w : Party0} {copy : Nat} (hc : s.copyFor w n = some copy)
    (v : Nat) : s.regWrite w n v = s.writeSel w copy n v := by
  have := selector_bounds h
  rw [regWrite_eq_writeTable (regRO_sel h) (by unfold OwnWay; omega) hc, State.writeTable, if_neg (by omega), if_neg (by omega),
    if_pos h]

theorem sel_package {n : Nat} (h : isSel n = true) (hlo : 0x5a0 ≤ n) : heldPer n = .package := by
  have := selector_bounds h
  exact heldPer_eq_package (by omega)

/-- An enabled counter of another partition is out of reach below privilege M. -/
theorem writeFault_sel {n : Nat} (h : isSel n = true) (hlo : 0x5a0 ≤ n) (s : State) (a v : Nat) :
    s.writeFault (s.agent a) n v = none ↔
      v % 2 ^ 8 ≤ 16 ∧ (a = 1 ∨ (pkg s n).toNat / 2 ^ 63 = 0 ∨ (pkg s n).toNat / 2 ^ 50 % 2 ^ 6 = (pkg s 0x0ca).toNat % 2 ^ 6) := by
  have hlt := (pkg s n).isLt
  have hbit : rbits (srGet s 0 n) 63 1 = (pkg s n).toNat / 2 ^ 63 := bits_top hlt
  have hown : rbits (srGet s 0 n) 50 6 = (pkg s n).toNat / 2 ^ 50 % 2 ^ 6 := rfl
  have hval : bits v 0 8 = v % 2 ^ 8 := by rw [bits_low]
  have hpriv : (s.agent a).priv < 2 ↔ a ≠ 1 := by
    rw [agent_priv]; split <;> omega
  unfold State.writeFault
  rw [regRO_sel h, regNeed_sel h, regValueBad_sel h, copyFor_of_package (sel_package h hlo), h, if_neg Bool.false_ne_true,
    if_neg (Nat.not_lt_zero _), hval]
  dsimp only
  split
  · next hc =>
    simp only [Bool.true_and, Bool.and_eq_true, decide_eq_true_eq, hpriv, bne_iff_ne, hbit, hown, agent_part] at hc
    obtain ⟨ha, h1, hne⟩ := hc
    simp only [reduceCtorEq, false_iff, not_and_or, not_or]
    exact .inr ⟨ha, by omega, hne⟩
  · next hc =>
    simp only [Bool.true_and, Bool.and_eq_true, decide_eq_true_eq, hpriv, bne_iff_ne, hbit, hown, agent_part, not_and_or, not_not] at hc
    rw [ite_eq_right_iff]
    simp only [decide_eq_true_eq, reduceCtorEq, imp_false, Nat.not_lt]
    omega

theorem exec_safeSelWrite {n : Nat} (h : isSel n = true) (a v : Nat) (s : State) :
    exec (.safeSelWrite a n v) s = .next (s.agentDoes a n v) := if_pos h

theorem exec_safeSelWrite_of_not_sel {n : Nat} (h : ¬ isSel n = true) (a v : Nat) (s : State) :
    exec (.safeSelWrite a n v) s = .next s := if_neg h

/-- What a selector of the package takes: EN and the event from the value, the owner and the grant from privilege M. -/
def selWord (a v old part : Nat) : Nat :=
  v / 2 ^ 63 * 2 ^ 63 + (if a = 1 then v / 2 ^ 50 % 2 ^ 6 else part) * 2 ^ 50
    + (if a = 1 then v / 2 ^ 49 % 2 else old / 2 ^ 49 % 2) * 2 ^ 49 + v % 2 ^ 8

theorem writeSel_agent (u s : State) (a n : Nat) {v : Nat} (hv : v < 2 ^ 64) :
    u.writeSel (s.agent a) 0 n v =
      srSet (if (pkg u n).toNat / 2 ^ 63 = 0 ∧ v / 2 ^ 63 = 1 then srSet u 0 (n + 1) 0 else u) 0 n
        (BitVec.ofNat 64 (selWord a v (pkg u n).toNat ((pkg s 0x0ca).toNat % 2 ^ 6))) := by
  have hold : rbits (srGet u 0 n) 63 1 = (pkg u n).toNat / 2 ^ 63 := bits_top (pkg u n).isLt
  have hgrant : rbits (srGet u 0 n) 49 1 = (pkg u n).toNat / 2 ^ 49 % 2 := rfl
  have hpriv : (s.agent a).priv = 2 ↔ a = 1 := by
    rw [agent_priv]; split <;> omega
  unfold State.writeSel
  dsimp only
  simp only [hold, hgrant, hpriv, agent_part, bits_top hv, Bool.and_eq_true, decide_eq_true_eq, selWord]
  simp only [bits, Nat.pow_zero, Nat.div_one, Nat.pow_one]

/-- Nothing but the registers and the record of their accesses differs. -/
def SameButRegs (s t : State) : Prop := t = { s with sr := t.sr, srSeen := t.srSeen }

theorem sameButRegs_seen (s : State) (x : Tab (Nat × Nat)) : SameButRegs s (s.seen x) := rfl

theorem sameButRegs_srSet {s u : State} (h : SameButRegs s u) (copy n : Nat) (v : W64) : SameButRegs s (srSet u copy n v) := by
  have hsr : srSet u copy n v = { s with sr := (srSet u copy n v).sr, srSeen := u.srSeen } :=
    congrArg (fun w : State => { w with sr := (srSet u copy n v).sr }) h
  rw [SameButRegs, srSet_srSeen]
  exact hsr

theorem sel_written {s : State} {a n v : Nat} (h : isSel n = true) (hlo : 0x5a0 ≤ n) (hv : v < 2 ^ 64) (hw : MayWrite s a n)
    (hf : s.writeFault (s.agent a) n v = none) :
    let t := s.agentDoes a n v
    let old := (pkg s n).toNat
    SameButRegs s t
      ∧ pkg t n = BitVec.ofNat 64 (selWord a v old ((pkg s 0x0ca).toNat % 2 ^ 6))
      ∧ pkg t (n + 1) = if old / 2 ^ 63 = 0 ∧ v / 2 ^ 63 = 1 then 0 else pkg s (n + 1) := by
  have hn := selector_bounds h
  have hc := copyFor_of_package (s := s) (a := a) (sel_package h hlo)
  intro t old
  have ht : t = (s.seen (s.regTake (s.agent a) n).srSeen).writeSel (s.agent a) 0 n v := by
    unfold t
    rw [agentDoes_of_mayWrite (by omega) hv hw hf, ← regTake_eq_seen]
    exact regWrite_sel (s := s.regTake (s.agent a) n) h hc v
  rw [ht, writeSel_agent _ _ _ _ hv, pkg_seen]
  generalize (s.regTake (s.agent a) n).srSeen = x
  refine ⟨?_, pkg_srSet_same _ _ _, ?_⟩
  · refine sameButRegs_srSet ?_ _ _ _
    split
    · exact sameButRegs_srSet (sameButRegs_seen s x) _ _ _
    · exact sameButRegs_seen s x
  · rw [pkg_srSet_other _ _ _ _ (by omega)]
    split
    · exact pkg_srSet_same _ _ _
    · exact pkg_seen s x (n + 1)

theorem exec_safeSelWrite_refused {s : State} {a n v : Nat} (hv : v < 2 ^ 64)
    (h : n % 2 = 1 ∨ n < 0x5a0 ∨ 0x5df < n ∨ ¬ MayWrite s a n ∨ 16 < v % 2 ^ 8
      ∨ ¬ (a = 1 ∨ (pkg s n).toNat / 2 ^ 63 = 0 ∨ (pkg s n).toNat / 2 ^ 50 % 2 ^ 6 = (pkg s 0x0ca).toNat % 2 ^ 6)) :
    exec (.safeSelWrite a n v) s = .next s := by
  by_cases hsel : isSel n = true
  · have hn := selector_bounds hsel
    rw [exec_safeSelWrite hsel]
    congr 1
    by_cases hlo : 0x5a0 ≤ n
    · by_cases hw : MayWrite s a n
      · refine agentDoes_of_fault (by omega) hv fun hf => ?_
        obtain ⟨hval, hmay⟩ := (writeFault_sel hsel hlo s a v).1 hf
        rcases h with h | h | h | h | h | h
        · omega
        · omega
        · omega
        · exact h hw
        · omega
        · exact h hmay
      · exact agentDoes_of_not_mayWrite (by omega) hv hw
    · have hc : s.copyFor (s.agent a) n = none := copyFor_of_outer (.inr (.inr (.inr (.inr ⟨hn.1, by omega⟩)))) s a
      rw [agentDoes_eq s a (by omega) hv]
      split
      · exact regWrite_regTake_of_none hc v
      · rfl
  · exact exec_safeSelWrite_of_not_sel hsel a v s

end Sys2Proof.Machine
end

