-- ==== Sys2Proof/Proofs/SlotTables.lean ====
section
/-!
PROOF. The slot tables of the link ports (R329).
-/

namespace Sys2Proof.Machine

/-! ### SL_SLOT_BASE_WRITE (R329) -/

theorem regWrite_071 (s : State) (w : Party0) (v : Nat) : s.regWrite w 0x071 v = s.writeSlots v := by
  have hc : s.copyFor w 0x071 = some 0 := rfl
  unfold State.regWrite
  rw [hc]
  rfl

theorem regValueBad_071 (s : State) (w : Party0) (v : Nat) : regValueBad s w 0x071 v = decide (v % 4096 ≠ 0) := by
  have hbad : regValueBad s w 0x071 v = (bits v 0 28 % 4096 != 0) := rfl
  have hbits : bits v 0 28 % 4096 = v % 4096 := by unfold bits; omega
  rw [hbad, hbits]
  rw [Bool.eq_iff_iff, bne_iff_ne, decide_eq_true_eq]

theorem exec_slSlotBaseWrite_refused {s : State} {a v : Nat} (hv : v < 2 ^ 64) (h : ¬ MayWrite s a 0x071 ∨ v % 4096 ≠ 0) :
    exec (.slSlotBaseWrite a v) s = .next s := by
  refine congrArg Host.Outcome.next ?_
  rcases h with h | h
  · exact agentDoes_of_not_mayWrite (by decide) hv h
  · exact agentDoes_of_fault (by decide) hv (writeFault_of_badValue rfl (by rw [regValueBad_071]; exact decide_eq_true h))

theorem agentDoes_071 {s : State} {a v : Nat} (hv : v < 2 ^ 64) (hw : MayWrite s a 0x071) (h : v % 4096 = 0) :
    s.agentDoes a 0x071 v = (s.seen (s.regTake (s.agent a) 0x071).srSeen).writeSlots v := by
  rw [agentDoes_of_mayWrite (by decide) hv hw (writeFault_agent_eq_none rfl rfl (by rw [regValueBad_071]; simp [h])), regWrite_071,
    ← regTake_eq_seen]

/-! The slot table that a port reads in CSM. -/

/-- A word of the slot table of a port. -/
def slWord (s : State) (base p o : Nat) : Nat := memRead s (csmKey (base + 4096 * p + o)) 8

/-- The entries of the slot table of a port, as many as its first word says. -/
def slEntries (s : State) (base p : Nat) : List Nat := (List.range (slWord s base p 0)).map fun e => slWord s base p (64 + 8 * e)

/-- The port that a slot sends to. -/
def slOut (e : Nat) : Nat := e / 2 ^ 46 % 2 ^ 5

/-- A port of the package: a link port, or the local one. -/
def SlPort (k : Nat) : Prop := k < 24 ∨ k = 31

/-- A slot table that a port takes (R329). -/
def SlotTableGood (s : State) (base p : Nat) : Prop :=
  slWord s base p 0 ≤ 256 ∧ (∀ k, k < 7 → slWord s base p (8 * (k + 1)) = 0)
    ∧ (∀ e, e ∈ slEntries s base p → e % 2 ^ 46 = 0 ∧ SlPort (e / 2 ^ 51 % 2 ^ 5) ∧ SlPort (slOut e))
    ∧ ((slEntries s base p).map fun e => (e / 2 ^ 56 % 2 ^ 8, slOut e)).Nodup
    ∧ ∀ e, e ∈ slEntries s base p → ((slEntries s base p).filter fun x => slOut x = slOut e).length ≤ 192

theorem memRead_lt (s : State) (k n : Nat) : memRead s k n < 256 ^ n := by
  induction n generalizing k with
  | zero => exact Nat.zero_lt_one
  | succ n ih =>
    have hbyte := (memGet s k).isLt
    have hrest := ih (k + 1)
    rw [memRead, Nat.pow_succ]
    omega

theorem slEntries_lt {s : State} {base p e : Nat} (h : e ∈ slEntries s base p) : e < 2 ^ 64 := by
  obtain ⟨i, -, rfl⟩ := List.mem_map.1 h
  exact memRead_lt s _ 8

theorem rbits_slOut {s : State} {base p e : Nat} (h : e ∈ slEntries s base p) : rbits (BitVec.ofNat 64 e) 46 5 = slOut e :=
  rbits_ofNat (slEntries_lt h) 46 5

/-- The table as the port holds it. -/
def slWords (s : State) (base p : Nat) : List W64 := (slEntries s base p).map (BitVec.ofNat 64)

theorem slWords_slots (s : State) (base p : Nat) :
    (slWords s base p).map (fun e => (rbits e 56 8, rbits e 46 5)) = (slEntries s base p).map fun e => (e / 2 ^ 56 % 2 ^ 8, slOut e) := by
  rw [slWords, List.map_map]
  refine List.map_congr_left fun e he => ?_
  rw [Function.comp, rbits_slOut he, rbits_ofNat (slEntries_lt he), bits]

theorem slWords_count {s : State} {base p e : Nat} (he : e ∈ slEntries s base p) :
    ((slWords s base p).filter fun x => rbits x 46 5 = rbits (BitVec.ofNat 64 e) 46 5).length
      = ((slEntries s base p).filter fun x => slOut x = slOut e).length := by
  rw [slWords, List.filter_map, List.length_map]
  refine congrArg List.length (List.filter_congr fun x hx => ?_)
  rw [Function.comp, rbits_slOut hx, rbits_slOut he]

theorem slWords_any (s : State) (base p : Nat) (f : W64 → Bool) :
    (slWords s base p).any f = true ↔ ∃ e, e ∈ slEntries s base p ∧ f (BitVec.ofNat 64 e) = true := by
  simp [slWords]

theorem slTable_def (s : State) (base p : Nat) :
    slTable s base p =
      if 256 < slWord s base p 0 || (List.range 7).any fun k => slWord s base p (8 * (k + 1)) != 0 then none
      else if (slWords s base p).any fun e => rbits e 0 46 != 0 || !(rbits e 51 5 < 24 || rbits e 51 5 = 31)
          || !(rbits e 46 5 < 24 || rbits e 46 5 = 31) then none
      else if !decide ((slWords s base p).map fun e => (rbits e 56 8, rbits e 46 5)).Nodup then none
      else if (slWords s base p).any fun e => 192 < ((slWords s base p).filter fun x => rbits x 46 5 = rbits e 46 5).length then none
      else some (slWords s base p) := by
  have hword (o : Nat) : memRead s (csmKey (base + 4096 * p + o)) 8 = slWord s base p o := by rw [slWord]
  have hwords : ((List.range (slWord s base p 0)).map fun e => BitVec.ofNat 64 (slWord s base p (64 + 8 * e))) = slWords s base p := by
    rw [slWords, slEntries, List.map_map]
    exact List.map_congr_left fun e _ => rfl
  unfold slTable
  simp only [hword, hwords]

theorem slHeader_iff (s : State) (base p : Nat) :
    (256 < slWord s base p 0 || (List.range 7).any fun k => slWord s base p (8 * (k + 1)) != 0) = true ↔
      ¬ (slWord s base p 0 ≤ 256 ∧ ∀ k, k < 7 → slWord s base p (8 * (k + 1)) = 0) := by
  simp only [Bool.or_eq_true, decide_eq_true_eq, List.any_eq_true, List.mem_range, bne_iff_ne, not_and_or, Nat.not_le, not_forall,
    exists_prop]

theorem slFields_iff (s : State) (base p : Nat) :
    ((slWords s base p).any fun e => rbits e 0 46 != 0 || !(rbits e 51 5 < 24 || rbits e 51 5 = 31)
        || !(rbits e 46 5 < 24 || rbits e 46 5 = 31)) = true ↔
      ¬ ∀ e, e ∈ slEntries s base p → e % 2 ^ 46 = 0 ∧ SlPort (e / 2 ^ 51 % 2 ^ 5) ∧ SlPort (slOut e) := by
  rw [slWords_any]
  simp only [not_forall, exists_prop]
  refine exists_congr fun e => and_congr_right fun he => ?_
  have h0 : rbits (BitVec.ofNat 64 e) 0 46 = e % 2 ^ 46 := by rw [rbits_ofNat (slEntries_lt he), bits_low]
  have h51 : rbits (BitVec.ofNat 64 e) 51 5 = e / 2 ^ 51 % 2 ^ 5 := rbits_ofNat (slEntries_lt he) 51 5
  rw [h0, h51, rbits_slOut he]
  simp only [SlPort, Bool.or_eq_true, bne_iff_ne, Bool.not_eq_true', Bool.or_eq_false_iff, decide_eq_false_iff_not, not_and_or,
    not_or, or_assoc]

theorem slCounts_iff (s : State) (base p : Nat) :
    ((slWords s base p).any fun e => 192 < ((slWords s base p).filter fun x => rbits x 46 5 = rbits e 46 5).length) = true ↔
      ¬ ∀ e, e ∈ slEntries s base p → ((slEntries s base p).filter fun x => slOut x = slOut e).length ≤ 192 := by
  rw [slWords_any]
  simp only [not_forall, exists_prop]
  refine exists_congr fun e => and_congr_right fun he => ?_
  rw [decide_eq_true_eq, slWords_count he, Nat.not_le]

/-- A port takes the table, or refuses it whole. -/
theorem slTable_spec (s : State) (base p : Nat) :
    (SlotTableGood s base p → slTable s base p = some (slWords s base p)) ∧ (¬ SlotTableGood s base p → slTable s base p = none) := by
  rw [slTable_def]
  constructor
  · rintro ⟨hlen, hhead, hfields, hnodup, hcount⟩
    rw [if_neg fun h => (slHeader_iff s base p).1 h ⟨hlen, hhead⟩, if_neg fun h => (slFields_iff s base p).1 h hfields,
      if_neg (by rw [slWords_slots]; simpa using hnodup), if_neg fun h => (slCounts_iff s base p).1 h hcount]
  · intro hbad
    rw [ite_eq_left_iff]
    intro h1
    rw [ite_eq_left_iff]
    intro h2
    rw [ite_eq_left_iff]
    intro h3
    rw [ite_eq_left_iff]
    intro h4
    rw [slHeader_iff, not_not] at h1
    rw [slFields_iff, not_not] at h2
    rw [slWords_slots, Bool.not_eq_true, Bool.not_eq_false', decide_eq_true_eq] at h3
    rw [slCounts_iff, not_not] at h4
    exact absurd ⟨h1.1, h1.2, h2, h3, h4⟩ hbad

/-! Every port reads its own table. -/

/-- One port reads its table and applies it from its next slot 0: a step of `writeSlots`. -/
def State.slotStep (base : Nat) (s : State) (p : Nat) : State :=
  let t := slTable s base p
  let w := slPort s p
  let s := setSlPort s p (rbits w 14 2) (rbits w 12 2) t.isNone.toNat (rbits w 0 8)
  s.modLink p fun l =>
    let old := match l.tabNew with | some (t, x) => if t ≤ s.now then x else l.tab | none => l.tab
    { l with tab := old, tabNew := some ((s.now / 256 + 1) * 256, t.getD []) }

theorem writeSlots_eq (s : State) (v : Nat) :
    s.writeSlots v = (List.range 24).foldl (State.slotStep (bits v 0 28)) (srSet s 0 0x071 (BitVec.ofNat 64 (bits v 0 28))) := by
  unfold State.writeSlots State.slotStep
  rfl

theorem memRead_congr {s t : State} (h : t.mem = s.mem) (k n : Nat) : memRead t k n = memRead s k n := by
  induction n generalizing k with
  | zero => rfl
  | succ n ih => rw [memRead, memRead, ih, memGet, memGet, h]

theorem slTable_congr {s t : State} (h : t.mem = s.mem) (base p : Nat) : slTable t base p = slTable s base p := by
  unfold slTable
  simp only [memRead_congr h]

@[simp] theorem pkg_modLink (s : State) (p : Nat) (f : Link → Link) (n : Nat) : pkg (s.modLink p f) n = pkg s n := rfl
@[simp] theorem modLink_now (s : State) (p : Nat) (f : Link → Link) : (s.modLink p f).now = s.now := rfl

theorem slotStep_mem (base : Nat) (s : State) (p : Nat) : (s.slotStep base p).mem = s.mem := by
  rw [State.slotStep, State.modLink_mem, setSlPort_mem]

theorem slotStep_now (base : Nat) (s : State) (p : Nat) : (s.slotStep base p).now = s.now := by
  rw [State.slotStep, modLink_now, setSlPort, srSet_now]

theorem pkg_slotStep_other (base : Nat) (s : State) {p n : Nat} (h : n ≠ 0x080 + p) : pkg (s.slotStep base p) n = pkg s n := by
  rw [State.slotStep, pkg_modLink, setSlPort, pkg_srSet_other _ _ _ _ h]

/-- The port's state, width and lanes stay; its error says that the table was refused. -/
theorem pkg_slotStep_same (base : Nat) (s : State) (p : Nat) :
    pkg (s.slotStep base p) (0x080 + p) = BitVec.ofNat 64 (rbits (slPort s p) 14 2 * 2 ^ 14 + rbits (slPort s p) 12 2 * 2 ^ 12
      + (slTable s base p).isNone.toNat * 2 ^ 8 + rbits (slPort s p) 0 8) := by
  rw [State.slotStep, pkg_modLink, setSlPort, pkg_srSet_same]

theorem link_modLink_same (s : State) (p : Nat) (f : Link → Link) : (s.modLink p f).link p = f (s.link p) := Tab.get_mod_same _ _ _ _
theorem link_modLink_other (s : State) {p q : Nat} (f : Link → Link) (h : q ≠ p) : (s.modLink p f).link q = s.link q :=
  Tab.get_mod_other _ _ _ _ _ h

theorem link_setSlPort (s : State) (p st width err lanes q : Nat) : (setSlPort s p st width err lanes).link q = s.link q := by
  rw [State.link, setSlPort, srSet_links, State.link]

theorem link_slotStep_other (base : Nat) (s : State) {p q : Nat} (h : q ≠ p) : (s.slotStep base p).link q = s.link q := by
  rw [State.slotStep, link_modLink_other _ _ h, link_setSlPort]

theorem tabNew_slotStep_same (base : Nat) (s : State) (p : Nat) :
    ((s.slotStep base p).link p).tabNew = some ((s.now / 256 + 1) * 256, (slTable s base p).getD []) := by
  rw [State.slotStep, link_modLink_same]
  dsimp only
  rw [setSlPort, srSet_now]

/-- What a port reads and applies does not depend on the ports before it. -/
theorem foldl_slotStep (base : Nat) {l : List Nat} (hl : l.Nodup) (s : State) :
    (∀ n, (∀ p, p ∈ l → n ≠ 0x080 + p) → pkg (l.foldl (State.slotStep base) s) n = pkg s n)
    ∧ (∀ q, q ∉ l → (l.foldl (State.slotStep base) s).link q = s.link q)
    ∧ ∀ p, p ∈ l → pkg (l.foldl (State.slotStep base) s) (0x080 + p) = pkg (s.slotStep base p) (0x080 + p)
      ∧ ((l.foldl (State.slotStep base) s).link p).tabNew = ((s.slotStep base p).link p).tabNew := by
  induction l generalizing s with
  | nil => exact ⟨fun _ _ => rfl, fun _ _ => rfl, fun _ hp => absurd hp List.not_mem_nil⟩
  | cons q l ih =>
    obtain ⟨hq, hl⟩ := List.nodup_cons.1 hl
    obtain ⟨hregs, hlinks, hown⟩ := ih hl (s.slotStep base q)
    simp only [List.foldl_cons]
    refine ⟨fun n hn => ?_, fun r hr => ?_, fun p hp => ?_⟩
    · rw [hregs n fun p hp => hn p (List.mem_cons_of_mem _ hp), pkg_slotStep_other base s (hn q List.mem_cons_self)]
    · obtain ⟨hrq, hrl⟩ := not_or.1 (mt List.mem_cons.2 hr)
      rw [hlinks r hrl, link_slotStep_other base s hrq]
    · rcases List.mem_cons.1 hp with rfl | hp
      · exact ⟨hregs _ fun r hr h => hq (by rwa [show p = r by omega]), by rw [hlinks p hq]⟩
      · have hne : p ≠ q := fun h => hq (h ▸ hp)
        have hport : slPort (s.slotStep base q) p = slPort s p := pkg_slotStep_other base s (by omega)
        obtain ⟨hreg, htab⟩ := hown p hp
        rw [hreg, htab, pkg_slotStep_same, pkg_slotStep_same, tabNew_slotStep_same, tabNew_slotStep_same, hport,
          slTable_congr (slotStep_mem base s q), slotStep_now]
        exact ⟨rfl, rfl⟩

/-- The fields of a port's register as the port reads its table. -/
theorem slPort_fields (w : W64) {e : Nat} (he : e < 2) :
    let y := (BitVec.ofNat 64 (rbits w 14 2 * 2 ^ 14 + rbits w 12 2 * 2 ^ 12 + e * 2 ^ 8 + rbits w 0 8)).toNat
    y / 2 ^ 8 % 2 = e ∧ y % 2 ^ 8 = w.toNat % 2 ^ 8 ∧ y / 2 ^ 12 % 2 ^ 4 = w.toNat / 2 ^ 12 % 2 ^ 4 := by
  unfold rbits bits
  rw [toNat_ofNat_word (by omega)]
  omega

theorem slots_written {s : State} {a v : Nat} (hv : v < 2 ^ 64) (hw : MayWrite s a 0x071) (h : v % 4096 = 0) :
    let base := v % 2 ^ 28
    let t := s.agentDoes a 0x071 v
    t.mem = s.mem ∧ pkg t 0x071 = BitVec.ofNat 64 base
      ∧ ∀ p, p < 24 →
        (SlotTableGood s base p → (pkg t (0x080 + p)).toNat / 2 ^ 8 % 2 = 0
          ∧ (t.link p).tabNew = some ((s.now / 256 + 1) * 256, slWords s base p))
        ∧ (¬ SlotTableGood s base p → (pkg t (0x080 + p)).toNat / 2 ^ 8 % 2 = 1
          ∧ (t.link p).tabNew = some ((s.now / 256 + 1) * 256, []))
        ∧ (pkg t (0x080 + p)).toNat % 2 ^ 8 = (pkg s (0x080 + p)).toNat % 2 ^ 8
        ∧ (pkg t (0x080 + p)).toNat / 2 ^ 12 % 2 ^ 4 = (pkg s (0x080 + p)).toNat / 2 ^ 12 % 2 ^ 4 := by
  intro base t
  have hbase : bits v 0 28 = base := by rw [bits_low]
  have ht : t = (s.seen (s.regTake (s.agent a) 0x071).srSeen).writeSlots v := agentDoes_071 hv hw h
  generalize (s.regTake (s.agent a) 0x071).srSeen = x at ht
  obtain ⟨hregs, -, hports⟩ := foldl_slotStep base (List.nodup_range (n := 24)) (srSet (s.seen x) 0 0x071 (BitVec.ofNat 64 base))
  rw [← hbase, ← writeSlots_eq, hbase, ← ht] at hregs hports
  refine ⟨by rw [ht, State.writeSlots_mem, seen_mem], by rw [hregs _ (by omega), pkg_srSet_same], fun p hp => ?_⟩
  obtain ⟨hreg, htab⟩ := hports p (List.mem_range.2 hp)
  have hport : slPort (srSet (s.seen x) 0 0x071 (BitVec.ofNat 64 base)) p = pkg s (0x080 + p) := by
    rw [slPort, pkg_srSet_other _ _ _ _ (by omega), pkg_seen]
  have hmem : (srSet (s.seen x) 0 0x071 (BitVec.ofNat 64 base)).mem = s.mem := by rw [srSet_mem, seen_mem]
  have hnow : (srSet (s.seen x) 0 0x071 (BitVec.ofNat 64 base)).now = s.now := by rw [srSet_now]; rfl
  rw [pkg_slotStep_same, hport, slTable_congr hmem] at hreg
  rw [tabNew_slotStep_same, hnow, slTable_congr hmem] at htab
  obtain ⟨herr, hlanes, hstate⟩ := slPort_fields (pkg s (0x080 + p)) (slTable s base p).isNone.toNat_lt
  rw [← hreg] at herr hlanes hstate
  refine ⟨fun hgood => ?_, fun hbad => ?_, hlanes, hstate⟩
  · rw [(slTable_spec s base p).1 hgood, Option.isNone_some, Bool.toNat_false] at herr
    rw [(slTable_spec s base p).1 hgood, Option.getD_some] at htab
    exact ⟨herr, htab⟩
  · rw [(slTable_spec s base p).2 hbad, Option.isNone_none, Bool.toNat_true] at herr
    rw [(slTable_spec s base p).2 hbad, Option.getD_none] at htab
    exact ⟨herr, htab⟩

end Sys2Proof.Machine
end

