-- ==== Sys2Proof/Proofs/ChipGroups.lean ====
section
/-!
PROOF. The chip-group table of a partition (R48).
-/

namespace Sys2Proof

/-! ### Sorted tables as lists -/

theorem Tab.sorted_iff_pairwise {α : Type} (t : Tab α) : Tab.sorted t = true ↔ List.Pairwise (fun a b : Nat × α => a.1 < b.1) t := by
  induction t with
  | nil => simp [Tab.sorted]
  | cons e t ih =>
    obtain ⟨j, u⟩ := e
    rw [Tab.sorted_cons, List.pairwise_cons, ih]

theorem Tab.mem_iff_find {α : Type} {t : Tab α} (h : Tab.sorted t = true) (k : Nat) (v : α) : (k, v) ∈ t ↔ Tab.find t k = some v := by
  induction t with
  | nil => simp
  | cons e t ih =>
    obtain ⟨j, u⟩ := e
    obtain ⟨hlt, hs⟩ := (Tab.sorted_cons j u t).1 h
    rw [List.mem_cons, Tab.find, Prod.mk.injEq, ih hs]
    split
    · next hj =>
      subst hj
      have hnone : Tab.find t j ≠ some v := fun hf => absurd (hlt _ ((ih hs).2 hf)) (Nat.lt_irrefl j)
      simp [hnone, eq_comm]
    · next hj => simp [Ne.symm hj]

theorem Tab.get_of_mem {α : Type} {t : Tab α} (h : Tab.sorted t = true) (d : α) {e : Nat × α} (he : e ∈ t) : Tab.get d t e.1 = e.2 := by
  rw [Tab.get, (Tab.mem_iff_find h e.1 e.2).1 he, Option.getD_some]

end Sys2Proof

namespace Sys2Proof.Machine

/-! ### The chip-group table in CSM (R48) -/

/-- The chips that a byte of the table names. -/
def cellChips (off : Nat) (e : Host.Cell) : List Nat :=
  ((List.range 8).filter fun b => e.2.getLsbD b).map fun b => (e.1 - csmKey off) % 512 * 8 + b

/-- The entry of the table that a byte belongs to. -/
def cellEntry (off : Nat) (e : Host.Cell) : Nat := (e.1 - csmKey off) / 512

/-- The bytes of the table that are not 0. -/
def cgrpCells (s : State) (off : Nat) : List Host.Cell :=
  s.mem.filter fun (e : Host.Cell) => csmKey off ≤ e.1 && e.1 < csmKey off + 0x20000

/-- A byte of the table is read. -/
def addCell (off : Nat) (t : Tab (List Nat)) (e : Host.Cell) : Tab (List Nat) :=
  Tab.mod [] t (cellEntry off e) fun l => l ++ cellChips off e

theorem cgrpRead_eq (s : State) (off : Nat) : cgrpRead s off = (cgrpCells s off).foldl (addCell off) [] := rfl

theorem mem_cellChips {off c : Nat} {e : Host.Cell} :
    c ∈ cellChips off e ↔ c / 8 = (e.1 - csmKey off) % 512 ∧ e.2.getLsbD (c % 8) = true := by
  rw [cellChips, List.mem_map]
  constructor
  · rintro ⟨b, hb, rfl⟩
    obtain ⟨hb8, hbit⟩ := List.mem_filter.1 hb
    rw [List.mem_range] at hb8
    rw [show ((e.1 - csmKey off) % 512 * 8 + b) % 8 = b by omega]
    exact ⟨by omega, hbit⟩
  · rintro ⟨hc, hbit⟩
    exact ⟨c % 8, List.mem_filter.2 ⟨List.mem_range.2 (by omega), hbit⟩, by omega⟩

theorem pairwise_cellChips (off : Nat) (e : Host.Cell) : (cellChips off e).Pairwise (· < ·) := by
  rw [cellChips, List.pairwise_map]
  exact (List.pairwise_lt_range.filter _).imp fun h => by omega

theorem mem_cgrpCells {s : State} {off : Nat} {e : Host.Cell} :
    e ∈ cgrpCells s off ↔ e ∈ s.mem ∧ csmKey off ≤ e.1 ∧ e.1 < csmKey off + 0x20000 := by
  simp [cgrpCells, List.mem_filter]

theorem get_foldl_addCell (off : Nat) (l : List Host.Cell) (t : Tab (List Nat)) (k : Nat) :
    Tab.get [] (l.foldl (addCell off) t) k = Tab.get [] t k ++ (l.filter fun e => cellEntry off e = k).flatMap (cellChips off) := by
  induction l generalizing t with
  | nil => simp
  | cons e l ih =>
    rw [List.foldl_cons, ih]
    by_cases hk : cellEntry off e = k
    · rw [List.filter_cons_of_pos (by simpa using hk), List.flatMap_cons, ← List.append_assoc, addCell, hk, Tab.get_mod_same]
    · rw [List.filter_cons_of_neg (by simpa using hk), addCell, Tab.get_mod_other _ _ _ _ _ (Ne.symm hk)]

theorem sorted_foldl_addCell (off : Nat) (l : List Host.Cell) {t : Tab (List Nat)} (ht : Tab.sorted t = true) :
    Tab.sorted (l.foldl (addCell off) t) = true := by
  induction l generalizing t with
  | nil => exact ht
  | cons e l ih => exact ih (Tab.sorted_put _ _ _ ht)

theorem key_foldl_addCell (off : Nat) (l : List Host.Cell) {t : Tab (List Nat)} {e : Nat × List Nat} (he : e ∈ l.foldl (addCell off) t) :
    e ∈ t ∨ ∃ x, x ∈ l ∧ e.1 = cellEntry off x := by
  induction l generalizing t with
  | nil => exact .inl he
  | cons x l ih =>
    rcases ih he with h | ⟨y, hy, hkey⟩
    · rcases Tab.mem_put _ _ _ _ h with h | h
      · exact .inr ⟨x, List.mem_cons_self, congrArg Prod.fst h⟩
      · exact .inl h
    · exact .inr ⟨y, List.mem_cons_of_mem _ hy, hkey⟩

theorem get_cgrpRead (s : State) (off k : Nat) :
    Tab.get [] (cgrpRead s off) k = ((cgrpCells s off).filter fun e => cellEntry off e = k).flatMap (cellChips off) := by
  rw [cgrpRead_eq, get_foldl_addCell]
  exact List.nil_append _

theorem sorted_cgrpRead (s : State) (off : Nat) : Tab.sorted (cgrpRead s off) = true :=
  sorted_foldl_addCell off _ rfl

theorem key_cgrpRead_lt {s : State} {off : Nat} {e : Nat × List Nat} (he : e ∈ cgrpRead s off) : e.1 < 256 := by
  rcases key_foldl_addCell off _ he with h | ⟨x, hx, hkey⟩
  · exact absurd h List.not_mem_nil
  · obtain ⟨-, hlo, hhi⟩ := mem_cgrpCells.1 hx
    rw [hkey, cellEntry]
    omega

/-- A chip is in an entry as read when its bit is set in CSM. -/
theorem mem_cgrpRead_iff {s : State} (hwf : Memory.wf s.mem = true) {off k c : Nat} (hk : k < 256) (hc : c < 4096) :
    c ∈ Tab.get [] (cgrpRead s off) k ↔ chipBit s off k c = true := by
  obtain ⟨hsorted, -⟩ := (Tab.wf_iff _ _).1 hwf
  have hkey : csmKey (off + 512 * k + c / 8) = csmKey off + (512 * k + c / 8) := by unfold csmKey; omega
  rw [get_cgrpRead, chipBit, memGet, Tab.get, hkey]
  simp only [List.mem_flatMap, List.mem_filter, mem_cgrpCells, mem_cellChips, decide_eq_true_eq]
  unfold cellEntry
  constructor
  · rintro ⟨e, ⟨⟨hmem, hlo, hhi⟩, hent⟩, hbyte, hbit⟩
    have he : e.1 = csmKey off + (512 * k + c / 8) := by omega
    rw [← he, (Tab.mem_iff_find hsorted e.1 e.2).1 hmem]
    exact hbit
  · cases hf : Tab.find s.mem (csmKey off + (512 * k + c / 8)) with
    | none => intro h; simp [memDefault] at h
    | some b =>
      intro hbit
      exact ⟨(_, b), ⟨⟨(Tab.mem_iff_find hsorted _ _).2 hf, by dsimp only; omega, by dsimp only; omega⟩, by dsimp only; omega⟩,
        by dsimp only; omega, hbit⟩

/-- The chips of an entry ascend. -/
theorem pairwise_cgrpRead {s : State} (hwf : Memory.wf s.mem = true) (off k : Nat) :
    (Tab.get [] (cgrpRead s off) k).Pairwise (· < ·) := by
  obtain ⟨hsorted, -⟩ := (Tab.wf_iff _ _).1 hwf
  rw [get_cgrpRead, List.pairwise_flatMap]
  refine ⟨fun e _ => pairwise_cellChips off e, ?_⟩
  refine List.Pairwise.imp_of_mem (fun {a b} ha hb hab x hx y hy => ?_) ((((Tab.sorted_iff_pairwise _).1 hsorted).filter _).filter _)
  obtain ⟨hca, hka⟩ := List.mem_filter.1 ha
  obtain ⟨hcb, hkb⟩ := List.mem_filter.1 hb
  obtain ⟨-, hla, -⟩ := mem_cgrpCells.1 hca
  obtain ⟨-, hlb, -⟩ := mem_cgrpCells.1 hcb
  obtain ⟨hxb, -⟩ := mem_cellChips.1 hx
  obtain ⟨hyb, -⟩ := mem_cellChips.1 hy
  rw [decide_eq_true_eq, cellEntry] at hka hkb
  omega

theorem chip_lt_of_mem {s : State} {off k c : Nat} (h : c ∈ Tab.get [] (cgrpRead s off) k) : c < 4096 := by
  rw [get_cgrpRead] at h
  obtain ⟨e, -, hc⟩ := List.mem_flatMap.1 h
  obtain ⟨hb, -⟩ := mem_cellChips.1 hc
  omega

/-! In how many entries a chip is. -/

theorem length_filter_eq_of_nodup {l : List Nat} (h : l.Nodup) (c : Nat) : (l.filter (· = c)).length = if c ∈ l then 1 else 0 := by
  have hcount : (l.filter (· = c)).length = l.count c := by
    rw [List.count, List.countP_eq_length_filter]
    refine congrArg List.length (List.filter_congr fun x _ => ?_)
    rw [Bool.eq_iff_iff, decide_eq_true_eq, beq_iff_eq]
  rw [hcount]
  split
  · next hc => exact List.count_eq_one_of_mem h hc
  · next hc => exact List.count_eq_zero.2 hc

theorem length_filter_flatMap {t : Tab (List Nat)} (h : ∀ e, e ∈ t → e.2.Nodup) (c : Nat) :
    ((t.flatMap fun e => e.2).filter (· = c)).length = (t.filter fun e => c ∈ e.2).length := by
  induction t with
  | nil => rfl
  | cons e t ih =>
    rw [List.flatMap_cons, List.filter_append, List.length_append, ih fun x hx => h x (List.mem_cons_of_mem _ hx),
      length_filter_eq_of_nodup (h e List.mem_cons_self)]
    by_cases hc : c ∈ e.2
    · rw [if_pos hc, List.filter_cons_of_pos (by simpa using hc), List.length_cons, Nat.add_comm]
    · rw [if_neg hc, List.filter_cons_of_neg (by simpa using hc), Nat.zero_add]

/-- The listed entries that hold a chip are the entries of all 256 that hold it. -/
theorem length_filter_entries (s : State) (off c : Nat) :
    ((cgrpRead s off).filter fun e => c ∈ e.2).length
      = ((List.range 256).filter fun k => c ∈ Tab.get [] (cgrpRead s off) k).length := by
  have hsorted := sorted_cgrpRead s off
  have hnodup : (((cgrpRead s off).filter fun e => c ∈ e.2).map Prod.fst).Nodup :=
    List.pairwise_map.2 ((((Tab.sorted_iff_pairwise _).1 hsorted).filter _).imp fun h => Nat.ne_of_lt h)
  rw [← List.length_map (f := Prod.fst)]
  refine List.Perm.length_eq ((List.perm_ext_iff_of_nodup hnodup (List.nodup_range.filter _)).2 fun k => ?_)
  simp only [List.mem_map, List.mem_filter, List.mem_range, decide_eq_true_eq]
  constructor
  · rintro ⟨e, ⟨he, hc⟩, rfl⟩
    exact ⟨key_cgrpRead_lt he, by rwa [Tab.get_of_mem hsorted [] he]⟩
  · rintro ⟨-, hc⟩
    cases hf : Tab.find (cgrpRead s off) k with
    | none => rw [Tab.get, hf] at hc; exact absurd hc List.not_mem_nil
    | some l =>
      rw [Tab.get, hf] at hc
      exact ⟨(k, l), ⟨(Tab.mem_iff_find hsorted k l).2 hf, hc⟩, rfl⟩

theorem length_filter_all {s : State} (hwf : Memory.wf s.mem = true) (off : Nat) {c : Nat} (hc : c < 4096) :
    (((cgrpRead s off).flatMap fun e => e.2).filter (· = c)).length = ((List.range 256).filter fun k => chipBit s off k c).length := by
  have hnodup (e : Nat × List Nat) (he : e ∈ cgrpRead s off) : e.2.Nodup := by
    rw [← Tab.get_of_mem (sorted_cgrpRead s off) [] he]
    exact (pairwise_cgrpRead hwf off e.1).imp fun h => Nat.ne_of_lt h
  rw [length_filter_flatMap hnodup, length_filter_entries]
  refine congrArg List.length (List.filter_congr fun k hk => ?_)
  rw [Bool.eq_iff_iff, decide_eq_true_eq, mem_cgrpRead_iff hwf (List.mem_range.1 hk) hc]

/-- The fabric unit takes a table with no chip in more than four entries that it can read (R48). -/
theorem cgrpGood_iff {s : State} (hwf : Memory.wf s.mem = true) (off : Nat) :
    cgrpGood s off (cgrpRead s off) = true ↔
      (∀ c, c < 4096 → ((List.range 256).filter fun k => chipBit s off k c).length ≤ 4)
        ∧ ∀ g, g ∈ s.memx.bad → g < csmKey off ∨ csmKey off + 0x20000 ≤ g := by
  rw [cgrpGood, Bool.and_eq_true]
  refine and_congr ?_ ?_
  · rw [List.all_eq_true]
    constructor
    · intro h c hc
      rw [← length_filter_all hwf off hc]
      by_cases hmem : c ∈ (cgrpRead s off).flatMap fun e => e.2
      · simpa using h c hmem
      · rw [List.filter_eq_nil_iff.2 fun x hx => by rw [decide_eq_true_eq]; rintro rfl; exact hmem hx]
        exact Nat.zero_le _
    · intro h c hmem
      obtain ⟨e, he, hc⟩ := List.mem_flatMap.1 hmem
      rw [← Tab.get_of_mem (sorted_cgrpRead s off) [] he] at hc
      have hlt := chip_lt_of_mem hc
      rw [decide_eq_true_eq, length_filter_all hwf off hlt]
      exact h c hlt
  · simp only [Bool.not_eq_true', List.any_eq_false, Bool.and_eq_true, decide_eq_true_eq, not_and_or, Nat.not_le, Nat.not_lt]

/-! ### CGRP_TABLE_WRITE (R48) -/

theorem regWrite_052 (s : State) (w : Party0) (v : Nat) : s.regWrite w 0x052 v = s.writeCgrp w.part v := by
  have hc : s.copyFor w 0x052 = some (4096 + w.part) := rfl
  unfold State.regWrite
  rw [hc]
  rfl

theorem regValueBad_052 (s : State) (w : Party0) (v : Nat) : regValueBad s w 0x052 v = decide (v % 0x20000 ≠ 0) := by
  have hbad : regValueBad s w 0x052 v = (bits v 0 28 % 0x20000 != 0) := rfl
  have hbits : bits v 0 28 % 0x20000 = v % 0x20000 := by unfold bits; omega
  rw [hbad, hbits, Bool.eq_iff_iff, bne_iff_ne, decide_eq_true_eq]

theorem exec_cgrpTableWrite {s : State} {p : Nat} (hp : p = (pkg s 0x0ca).toNat % 2 ^ 6) (a v : Nat) :
    exec (.cgrpTableWrite a p v) s = .next (s.agentDoes a 0x052 v) :=
  if_pos (by rw [hp, rbits, bits_low])

theorem exec_cgrpTableWrite_refused {s : State} {a p v : Nat} (hv : v < 2 ^ 64)
    (h : p ≠ (pkg s 0x0ca).toNat % 2 ^ 6 ∨ ¬ MayWrite s a 0x052 ∨ v % 0x20000 ≠ 0) : exec (.cgrpTableWrite a p v) s = .next s := by
  by_cases hp : p = (pkg s 0x0ca).toNat % 2 ^ 6
  · rw [exec_cgrpTableWrite hp]
    refine congrArg Host.Outcome.next ?_
    rcases h with h | h | h
    · exact absurd hp h
    · exact agentDoes_of_not_mayWrite (by decide) hv h
    · exact agentDoes_of_fault (by decide) hv (writeFault_of_badValue rfl (by rw [regValueBad_052]; exact decide_eq_true h))
  · exact if_neg fun h => hp (by rw [← h, rbits, bits_low])

theorem agentDoes_052 {s : State} {a v : Nat} (hv : v < 2 ^ 64) (hw : MayWrite s a 0x052) (h : v % 0x20000 = 0) :
    s.agentDoes a 0x052 v = (s.seen (s.regTake (s.agent a) 0x052).srSeen).writeCgrp ((pkg s 0x0ca).toNat % 2 ^ 6) v := by
  rw [agentDoes_of_mayWrite (by decide) hv hw (writeFault_agent_eq_none rfl rfl (by rw [regValueBad_052]; simp [h])), regWrite_052,
    agent_part, ← regTake_eq_seen]

/-- The table that the fabric unit takes is the partition's from now on. -/
theorem writeCgrp_good {s : State} {p v : Nat} (h : cgrpGood s (v % 2 ^ 28) (cgrpRead s (v % 2 ^ 28)) = true) :
    (s.writeCgrp p v).mem = s.mem ∧ partReg (s.writeCgrp p v) p 0x052 = BitVec.ofNat 64 (2 ^ 63 + v % 2 ^ 28)
      ∧ ∀ k, chipGroup (s.writeCgrp p v) p k = Tab.get [] (cgrpRead s (v % 2 ^ 28)) k := by
  have hoff : bits v 0 28 = v % 2 ^ 28 := by rw [bits_low]
  have hw : s.writeCgrp p v = { srSet s (4096 + p) 0x052 (BitVec.ofNat 64 (2 ^ 63 + v % 2 ^ 28)) with
      cgrp := Tab.put s.cgrp p (cgrpRead s (v % 2 ^ 28)) } := by
    rw [State.writeCgrp, hoff, if_pos h]
  refine ⟨State.writeCgrp_mem _ _ _, ?_, fun k => ?_⟩
  · rw [hw]; exact srGet_srSet_same s _ _ _
  · rw [hw]; exact congrArg (fun t => Tab.get [] t k) (Tab.get_put_same _ _ _ _)

theorem writeCgrp_bad {s : State} {p v : Nat} (h : ¬ cgrpGood s (v % 2 ^ 28) (cgrpRead s (v % 2 ^ 28)) = true) :
    s.writeCgrp p v = srSet s (4096 + p) 0x052 (BitVec.ofNat 64 (v % 2 ^ 28)) := by
  have hoff : bits v 0 28 = v % 2 ^ 28 := by rw [bits_low]
  rw [State.writeCgrp, hoff, if_neg h]

theorem cgrpRead_seen (s : State) (x : Tab (Nat × Nat)) (off : Nat) : cgrpRead (s.seen x) off = cgrpRead s off := rfl
theorem cgrpGood_seen (s : State) (x : Tab (Nat × Nat)) (off : Nat) (t : Tab (List Nat)) :
    cgrpGood (s.seen x) off t = cgrpGood s off t := rfl

theorem cgrp_written {s : State} {a p v : Nat} (hv : v < 2 ^ 64) (hp : p = (pkg s 0x0ca).toNat % 2 ^ 6) (hw : MayWrite s a 0x052)
    (h : v % 0x20000 = 0) (hwf : Memory.wf s.mem = true) :
    let off := v % 2 ^ 28
    let t := s.agentDoes a 0x052 v
    let few : Prop := ∀ c, c < 4096 → ((List.range 256).filter fun k => chipBit s off k c).length ≤ 4
    let clean : Prop := ∀ g, g ∈ s.memx.bad → g < csmKey off ∨ csmKey off + 0x20000 ≤ g
    (few → clean → t.mem = s.mem ∧ partReg t p 0x052 = BitVec.ofNat 64 (2 ^ 63 + off)
        ∧ (∀ k c, k < 256 → c < 4096 → (c ∈ chipGroup t p k ↔ chipBit s off k c = true)) ∧ ∀ k, (chipGroup t p k).Pairwise (· < ·))
      ∧ (¬ (few ∧ clean) → OnlyReg s t (4096 + p) 0x052 (BitVec.ofNat 64 off)) := by
  intro off t few clean
  have ht : t = (s.seen (s.regTake (s.agent a) 0x052).srSeen).writeCgrp p v := by rw [hp]; exact agentDoes_052 hv hw h
  generalize (s.regTake (s.agent a) 0x052).srSeen = x at ht
  have hgood : cgrpGood (s.seen x) off (cgrpRead (s.seen x) off) = true ↔ few ∧ clean := by
    rw [cgrpGood_seen, cgrpRead_seen]; exact cgrpGood_iff hwf off
  rw [ht]
  refine ⟨fun hfew hclean => ?_, fun hbad => ?_⟩
  · obtain ⟨hmem, hreg, hgroup⟩ := writeCgrp_good (p := p) (hgood.2 ⟨hfew, hclean⟩)
    refine ⟨by rw [hmem, seen_mem], hreg, fun k c hk hc => ?_, fun k => ?_⟩
    · rw [hgroup, cgrpRead_seen]; exact mem_cgrpRead_iff hwf hk hc
    · rw [hgroup, cgrpRead_seen]; exact pairwise_cgrpRead hwf off k
  · rw [writeCgrp_bad fun hg => hbad (hgood.1 hg)]
    exact onlyReg_srSet s x _ _ _ (by decide)

end Sys2Proof.Machine
end

