-- ==== Sys2Proof/Proofs/RegistersAreWritten.lean ====
section
/-!
PROOF. Registers and tables written from outside the nodes (O59).
-/

namespace Sys2Proof.Machine

/-! ### The tables together -/

theorem tablesAreLoadedR329 : TablesAreLoadedR329 := by
  intro s a v hv part
  refine ⟨fun p => ⟨exec_ptCfgWrite_of_not_mayWrite hv, fun hp hw => ?_⟩, fun p => ⟨exec_cgrpTableWrite_refused hv, fun hp hw h hwf => ?_⟩,
    exec_slSlotBaseWrite_refused hv, fun hw h => ?_, fun n => ⟨exec_safeSelWrite_refused hv, fun heven hlo hhi hw hval hmay => ?_⟩⟩
  · rw [exec_ptCfgWrite hp]
    obtain ⟨hshare, hbad, hall⟩ := ptCfg_written hp hv hw
    exact ⟨fun ha => ⟨_, rfl, hshare ha⟩, fun ha h3 => by rw [hbad ha h3], fun ha h3 => ⟨_, rfl, hall ha h3⟩⟩
  · rw [exec_cgrpTableWrite hp]
    obtain ⟨hgood, hbad⟩ := cgrp_written hv hp hw h hwf
    exact ⟨fun hfew hclean => ⟨_, rfl, hgood hfew hclean⟩, fun h => ⟨_, rfl, hbad h⟩⟩
  · exact ⟨_, rfl, slots_written hv hw h⟩
  · have hsel : isSel n = true := by simp [isSel, heven, hhi]; omega
    rw [exec_safeSelWrite hsel]
    exact ⟨_, rfl, sel_written hsel hlo hv hw ((writeFault_sel hsel hlo s a v).2 ⟨hval, hmay⟩)⟩

/-- Settles O59: what each write of a register does, by the register's own meaning. -/
theorem registersAreWrittenR431 : Obligations.RegistersAreWrittenR431 :=
  ⟨registerWritesR431, launchQueuesR291, tablesAreLoadedR329⟩

end Sys2Proof.Machine
end

