-- ==== Sys2Proof/Proofs/StrayQueueStatus.lean ====
section
/-!
PROOF. The warm reset in a state that lists a launch queue with a number past the 64 of R291 (refutes O58).

A warm reset writes every status that is owed (R420), and answering a record of queue `q` sets LQ_HEAD of `q`, register
`0x200 + 4 q + 3` (R291). For the queues that exist this is one of 0x203 to 0x2ff. The statement ranges over every state, and a
state may owe a status under the number 64: the register is then 0x303, word 3 of partition 0's description (R339), which the
statement says a warm reset leaves as it is. No rule of the spec is at stake, for no launch queue has the number 64.
-/

namespace Sys2Proof.Machine

/-- LQ_HEAD of a queue 64 would be word 3 of partition 0's description. -/
theorem lqReg_64_head : lqReg 64 3 = 0x300 + 8 * 0 + 3 := rfl

/-- The management core runs, and a status is owed for record 0 of a queue 64. The ring's page at address 0 under ASID 0, which
may be written, is in the first die's translation cache: a leaf of level 4 with W at physical address 0, in HBM. -/
def strayStatus : State :=
  srSet { State.reset with
    tlb := [(tlbDie 0, [{ asid := 0, level := 4, vpn := 0, pte := 2 ^ 61 + 2 ^ 58 }])]
    queues := [(64, { status := [(0, statusWord 7 0, 0)] })] } 0 0x0a1 0x20

theorem mgmtRuns_strayStatus : mgmtRuns strayStatus = true := by decide +kernel

theorem lqHead_strayStatus : pkg strayStatus (lqReg 64 3) = 0 := by decide +kernel

/-- The reset answers the record: DONE, the high half of LQ_HEAD, steps to 1. -/
theorem lqHead_warmReset_strayStatus : pkg (strayStatus.warmReset 2) (lqReg 64 3) = 2 ^ 32 := by decide +kernel

theorem exec_warmReset_of_mgmtRuns {s : State} (h : mgmtRuns s = true) : exec (.warmReset 2) s = .next (s.warmReset 2) := by
  show execWarmReset 2 s = _
  simp [execWarmReset, h]

/-- The statement of the reset levels fails at its clause on the partitions' registers under a warm reset. -/
theorem not_resetLevelsR420 : ¬ ResetLevelsR420 := by
  intro hlevels
  obtain ⟨-, -, -, -, hwarm, -⟩ := hlevels strayStatus
  obtain ⟨t, ht, -, -, -, -, -, -, -, hpt⟩ := hwarm rfl mgmtRuns_strayStatus
  rw [exec_warmReset_of_mgmtRuns mgmtRuns_strayStatus] at ht
  obtain rfl := Host.Outcome.next.inj ht
  have hkept : pkg (strayStatus.warmReset 2) (lqReg 64 3) = pkg strayStatus (lqReg 64 3) := by
    rw [lqReg_64_head]
    exact hpt 0 3 (by decide) (by decide)
  rw [lqHead_warmReset_strayStatus, lqHead_strayStatus] at hkept
  exact absurd hkept (by decide)

/-- Refutes O58: a warm reset that writes a status owed under the queue number 64, which no queue has but a state may list,
changes a register of partition 0's description. -/
theorem not_resetsBootAndHeatR420 : ¬ Obligations.ResetsBootAndHeatR420 := by
  rintro ⟨-, hlevels, -⟩
  exact not_resetLevelsR420 hlevels

end Sys2Proof.Machine
end

