-- ==== Sys2Proof/Proofs/Answers.lean ====
section
/-!
PROOF. Every instruction and every event answers a next state (O5): the shared ways of firing do, and the events answer one in
each of their branches.
-/

namespace Sys2Proof.Machine

theorem eExec_answers (op : Op) (ins : Instr) (w : EWord) (p : Ports) (chk : Issue → Inv → State → Option Cause)
    (work : Issue → Cmd → State → State) (s : State) (lost : Issue → Cmd → Pending → State → State) :
    ∃ t, eExec op ins w p chk work s lost = .next t := by
  unfold eExec; repeat' split
  all_goals exact ⟨_, rfl⟩

/-- Settles O5: every way of firing answers a next state, and so does each branch of an event. -/
theorem everyInstructionAnswersANextState : Obligations.EveryInstructionAnswersANextState := by
  intro i s
  cases i
  case fclass | fcvt | icvtf | fcvti | qnt | dqnt | gscale | mxpack | mxunpk | pack | unpack | pnot | add | sub | mul |
      mulh | mulhn | div | divn | rem | remn | adds | subs | madd | min | max | abs | neg | lea | and | or | xor | andn |
      shl | shr | sar | rot | clz | ctz | popc | sext | zext | ceq | cne | clt | cle | cltn | clen | fadd | fsub | fmul |
      fma | fnma | fdiv | fsqrt | frsq | frcp | fexp2 | flog2 | fmin | fmax | fabs | fneg | fsgn | fscale | fceq | fclt |
      fcle | fcun | vbcast | vbcastLane | vext | vins | vperm | vshuf | vradd | vrmax | vrmin | vscan | vdot | vsel | vcmp
      | mand | mor | mxor | mnot | mpopc | mffs | mbit | mtst | pand | por | pxor =>
    dsimp only [exec, execFclass, execFcvt, execIcvtf, execFcvti, execQnt, execDqnt, execGscale, execMxpack, execMxunpk,
      execPack, execUnpack, execPnot, execAdd, execSub, execMul, execMulh, execMulhn, execDiv, execDivn, execRem, execRemn,
      execAdds, execSubs, execMadd, execMin, execMax, execAbs, execNeg, execLea, execAnd, execOr, execXor, execAndn, execShl,
      execShr, execSar, execRot, execClz, execCtz, execPopc, execSext, execZext, execCeq, execCne, execClt, execCle, execCltn,
      execClen, execFadd, execFsub, execFmul, execFma, execFnma, execFdiv, execFsqrt, execFrsq, execFrcp, execFexp2,
      execFlog2, execFmin, execFmax, execFabs, execFneg, execFsgn, execFscale, execFceq, execFclt, execFcle, execFcun,
      execVbcast, execVbcastLane, execVext, execVins, execVperm, execVshuf, execVradd, execVrmax, execVrmin, execVscan,
      execVdot, execVsel, execVcmp, execMand, execMor, execMxor, execMnot, execMpopc, execMffs, execMbit, execMtst, execPand,
      execPor, execPxor, intOp, bitsOp, cmpOp, fltOp, fcmpOp, vecOp, maskOp, bitOp]
    exact gFire_next ..
  case nop | const | iterid | nullq | mov | write | steer | merge | nfill | niter | binv =>
    dsimp only [exec, execNop, execConst, execIterid, execNullq, execMov, execWrite, execSteer, execMerge, execNfill, execNiter,
      execBinv]
    exact gOwn_next ..
  case bro | br | callo | call | ret | quit =>
    dsimp only [exec, execBro, execBr, execCallo, execCall, execRet, execQuit]
    exact exitFire_next ..
  case radd | rmax | rmin | rjoin =>
    dsimp only [exec, execRadd, execRmax, execRmin, execRjoin, redArith]
    exact redFire_next ..
  case kmerge =>
    dsimp only [exec, execKmerge]
    split
    · exact redFire_next ..
    · exact redFire_next ..
  case bar | bara | barw =>
    dsimp only [exec, execBar, execBara, execBarw]
    exact barFire_next ..
  case ld | st | ldv | stv | gath | scat | aadd | amin | amax | aand | aor | axor | axchg | acas | afadd | bred | bupd |
      mnop | acq | rel | fence | seminc | semwait | semrd | sbwait | tgive | ttake =>
    dsimp only [exec, execLd, execSt, execLdv, execStv, execGath, execScat, execAadd, execAmin, execAmax, execAand, execAor,
      execAxor, execAxchg, execAcas, execAfadd, execBred, execBupd, execMnop, execAcq, execRel, execFence, execSeminc,
      execSemwait, execSemrd, execSbwait, execTgive, execTtake]
    exact memExec_next ..
  case pset | copy | flopen | flpush | flfree | flclose | tsend | wopen | wclose | copyr | rread | kvtab | kvgath | kvapp
      | kvinv | nvrd | nvwr | cred | cbcast | cgath | wload | wswap | mma | mrecur | macc | mzero | mstat | kcfg | kbias |
      kmask | kbind | kunbind | klife | kqry | kstat | nopen | nclose | nbind | nrebind | nunbind | nlook | launch | garm
      | spawn | tret | hreg | hregUnreg | msend | msendTrig | mrecv | mprobe =>
    dsimp only [exec, execPset, execCopy, execFlopen, execFlpush, execFlfree, execFlclose, execTsend, execWopen, execWclose,
      execCopyr, execRread, execKvtab, execKvgath, execKvapp, execKvinv, execNvrd, execNvwr, execCred, execCbcast, execCgath,
      execWload, execWswap, execMma, execMrecur, execMacc, execMzero, execMstat, execKcfg, execKbias, execKmask, execKbind,
      execKunbind, execKlife, execKqry, execKstat, execNopen, execNclose, execNbind, execNrebind, execNunbind, execNlook,
      execLaunch, execGarm, execSpawn, execTret, execHreg, execHregUnreg, execMsend, execMsendTrig, execMrecv, execMprobe]
    exact eExec_answers ..
  case rdsr | tprobe | brk | frec =>
    dsimp only [exec, execRdsr, execTprobe, execBrk, execFrec]
    exact atOnce_next ..
  case wrsr | tinv | tsync | keyset | trap | fret =>
    dsimp only [exec, execWrsr, execTinv, execTsync, execKeyset, execTrap, execFret]
    exact sHeld_next ..
  case ldrgn | read | operandTokenArrival | invocationStart | invocationCommit | engineQueueRoom | wmTokensSet |
      invocationDiscard | drainLimitExpiry | watchdogExpiry | tagPoolDeadlock | blockMap | blockCacheFill |
      streamReadAhead | engineCompletion | engineFault | landingRingRecheck | kvBlockLoadCompletion | nvmeCompletion |
      nvmeTimeout | admissionInterval | contextImageWrite | objectReclamation | freeListHeadRecheck | monitorResolve |
      headgateRefill | sluiceLeak | linkFlitReceive | linkAckReceive | laneFailure | plannedWidthChange | islandDvfsChange
      | warmReset | partitionReset | sectionAbort | lqCfgWrite | lqTailWrite | cgrpTableWrite | ptCfgWrite | safeSelWrite
      | hostBar2Read | hostBar2Write | linkRetrainComplete | managementCorePreemption =>
    dsimp only [exec, execLdrgn, execRead, execOperandTokenArrival, execInvocationStart, execInvocationCommit,
      execEngineQueueRoom, execWmTokensSet, execInvocationDiscard, execDrainLimitExpiry, execWatchdogExpiry,
      execTagPoolDeadlock, execBlockMap, execBlockCacheFill, execStreamReadAhead, execEngineCompletion, execEngineFault,
      execLandingRingRecheck, execKvBlockLoadCompletion, execNvmeCompletion, execNvmeTimeout, execAdmissionInterval,
      execContextImageWrite, execObjectReclamation, execFreeListHeadRecheck, execMonitorResolve, execHeadgateRefill,
      execSluiceLeak, execLinkFlitReceive, execLinkAckReceive, execLaneFailure, execPlannedWidthChange,
      execIslandDvfsChange, execWarmReset, execPartitionReset, execSectionAbort, execLqCfgWrite, execLqTailWrite,
      execCgrpTableWrite, execPtCfgWrite, execSafeSelWrite, execHostBar2Read, execHostBar2Write, execLinkRetrainComplete,
      execManagementCorePreemption]
    repeat' split
    all_goals exact ⟨_, rfl⟩
  all_goals exact ⟨_, rfl⟩

end Sys2Proof.Machine
end

