-- ==== Sys2Proof/Proofs/StepRuns.lean ====
section
/-!
PROOF. A step runs what the agenda names (O4). What an item reads of the state does not see the agenda, so each clause goes
through one equation for the item: the set that issues, the command of a unit, the access of a memory interface.
-/

namespace Sys2Proof.Machine

theorem step_cons {s : State} {a : Sched} {rest : List Sched} (h : s.sched.agenda = a :: rest) :
    step s = settle (doItem a { s with sched := { s.sched with agenda := rest } }) := by
  unfold step; rw [h]

theorem ctxInstr_of_decodeWord {y : Cluster} {p ix : Nat} {x : Ctx} {i : Instr} (hx : Tab.find y.ctx (p * 128 + ix) = some x)
    (hd : decodeWord x.word.toNat x.lit.toNat = .ok i) : ctxInstr y p ix = some i := by
  simp [ctxInstr, hx, hd]

/-- The set issues: its context word is good, its targets have room, and its instruction waits for nothing. -/
theorem issueSet_runs {s t : State} {c : Nat} {r : Ready} {i : Instr} (hok : (s.cl c).ctxErr.contains (r.pl * 128 + r.ix) = false)
    (hi : ctxInstr (s.cl c) r.pl r.ix = some i) (hroom : s.roomFor (nkOf c r.pl) i = true)
    (hrun : runAs i (r.issue c) (s.dropReady c r) = .next t) (hgo : t.sched.cur.any (·.wait) = false) :
    issueSet s c r = some (.next (match s.invOf (r.issue c) with
      | none => t
      | some v => t.foldWake c r.pl r.ix v.n i)) := by
  unfold issueSet
  simp only [hok, hi, hroom, hrun, hgo, Bool.not_true, Bool.false_eq_true, ↓reduceIte]
  cases s.invOf (r.issue c) <;> rfl

theorem issueFirst_cons {s : State} {c : Nat} {r : Ready} {rs : List Ready} {o : Out} (hl : s.live (nkOf c r.pl) = true)
    (h : issueSet s c r = some o) : issueFirst s c (r :: rs) = o := by
  simp [issueFirst, hl, h]

theorem stepRunsIssuedInstruction : StepRunsIssuedInstruction := by
  intro s t c ix rest r rs x i hag hready hlive hok hx hd hroom s' hrun hgo
  let s₀ : State := { s with sched := { s.sched with agenda := rest } }
  have hset : issueSet s₀ c r = some (.next (match s.invOf (r.issue c) with
      | none => t
      | some v => t.foldWake c r.pl r.ix v.n i)) :=
    issueSet_runs hok (ctxInstr_of_decodeWord hx hd) hroom hrun hgo
  have hfirst : stepIssue c ix s₀ = _ := (congrArg (issueFirst s₀ c) hready).trans (issueFirst_cons hlive hset)
  rw [step_cons hag]
  exact congrArg settle hfirst

theorem stepUnit_runs {s : State} {c u k piece : Nat} {m : Cmd}
    (hm : (workable u (if u = 4 then s.storCmds else s.unit c u))[k]? = some m) (hk : s.heldKern m.kernel = false) :
    stepUnit c u k piece s = runAs m.instr
      { c := m.nk / 8, p := m.nk % 8, ix := m.ix, ws := m.ws, it := m.n % 65536, perform := true, u := u, k := m.id, piece := piece }
      s := by
  simp [stepUnit, hm, hk]

theorem stepRelease_runs {s : State} {c p k : Nat} {a : Acc} (ha : (s.nd (nkOf c p)).mif[k]? = some a)
    (hk : ((s.nd (nkOf c p)).kernel.map s.heldKern).getD false = false) :
    stepRelease c p k s = runAs a.instr
      { c := c, p := p, ix := a.ix, ws := a.ws, it := a.n % 65536, perform := true, k := a.id } s := by
  simp only [stepRelease, ha, hk, Bool.false_eq_true, ↓reduceIte]

theorem stepRunsEventsAndPerformers : StepRunsEventsAndPerformers := by
  refine ⟨fun s t i rest hag hrun => ?_, fun s t c u k piece m rest hag hm hk hrun => ?_,
    fun s t c p k a rest hag ha hk hrun => ?_⟩
  · rw [step_cons hag]
    exact congrArg settle hrun
  · have hwork := stepUnit_runs (s := { s with sched := { s.sched with agenda := rest } }) (c := c) (piece := piece) hm hk
    rw [step_cons hag]
    exact congrArg settle (hwork.trans hrun)
  · have hwork := stepRelease_runs (s := { s with sched := { s.sched with agenda := rest } }) (c := c) (p := p) ha hk
    rw [step_cons hag]
    exact congrArg settle (hwork.trans hrun)

/-- Settles O4: the agenda is not among what an item reads. -/
theorem stepRunsWhatIsNext : Obligations.StepRunsWhatIsNext := ⟨stepRunsIssuedInstruction, stepRunsEventsAndPerformers⟩

end Sys2Proof.Machine
end

