-- ==== Sys2Proof/Proofs/InvocationRules.lean ====
section
/-!
SUPPORT. The rules of the table of invocations: what one reads after `modInv`, `hold` and `report`, and what an update of a node
or a cluster leaves as it was.
-/

namespace Sys2Proof.Machine

/-- The first element that satisfies `p` is found again after an update that keeps `p`. -/
theorem find?_modFirst {α : Type} {p : α → Bool} {f : α → α} (hf : ∀ a, p a = true → p (f a) = true) (l : List α) :
    (modFirst p f l).find? p = (l.find? p).map f := by
  induction l with
  | nil => rfl
  | cons a l ih =>
    cases ha : p a with
    | true => simp [modFirst, ha, hf a ha]
    | false => simp [modFirst, ha, ih]

/-- An invocation keeps its place: its iteration and window slot. -/
def KeepsPlace (f : Inv → Inv) : Prop := ∀ v, (f v).ws = v.ws ∧ (f v).it = v.it

theorem Node.inv_modFirst {f : Inv → Inv} (hf : KeepsPlace f) (n : Node) (ws it : Nat) :
    (modFirst (fun v : Inv => v.ws = ws && v.it = it) f n.invs).find? (fun v => v.ws = ws && v.it = it) = (n.inv ws it).map f :=
  find?_modFirst (fun v hv => by simpa only [(hf v).1, (hf v).2] using hv) _

theorem State.invOf_modInv {f : Inv → Inv} (hf : KeepsPlace f) (s : State) (i : Issue) :
    (s.modInv i.nk i.ws i.it f).invOf i = (s.invOf i).map f := by
  unfold State.invOf State.modInv
  rw [State.nd_modNd_same]
  exact Node.inv_modFirst hf _ _ _

@[simp] theorem State.invOf_hold (s : State) (i : Issue) (h : Held) :
    (s.hold i h).invOf i = (s.invOf i).map fun v => { v with held := v.held ++ [h] } :=
  State.invOf_modInv (by intro; exact ⟨rfl, rfl⟩) s i

@[simp] theorem State.invOf_report (s : State) (i : Issue) (b : Bool) :
    (s.report i b).invOf i = (s.invOf i).map fun v => { v with reports := v.reports ++ [(i.ix, b)] } :=
  State.invOf_modInv (by intro; exact ⟨rfl, rfl⟩) s i

/-! ### What an update leaves alone -/

theorem SameOutside.modNd (s : State) (nk : Nat) (f : Node → Node) : SameOutside s (s.modNd nk f) := by
  constructor <;> rfl

theorem SameOutside.modInv (s : State) (nk ws it : Nat) (f : Inv → Inv) : SameOutside s (s.modInv nk ws it f) := by
  constructor <;> rfl

theorem SameOutside.modCl (s : State) (c : Nat) (f : Cluster → Cluster) : SameOutside s (s.modCl c f) := by
  constructor <;> rfl

theorem SameOutside.refl (s : State) : SameOutside s s := by
  constructor <;> rfl

theorem SameOutside.trans {s t u : State} (h : SameOutside s t) (g : SameOutside t u) : SameOutside s u where
  mem := g.mem.trans h.mem
  memx := g.memx.trans h.memx
  sr := g.sr.trans h.sr
  keys := g.keys.trans h.keys
  tlb := g.tlb.trans h.tlb
  kernels := g.kernels.trans h.kernels
  queues := g.queues.trans h.queues
  recs := g.recs.trans h.recs
  dir := g.dir.trans h.dir
  faultSeq := g.faultSeq.trans h.faultSeq
  tinvs := g.tinvs.trans h.tinvs
  tsyncs := g.tsyncs.trans h.tsyncs
  ksets := g.ksets.trans h.ksets
  links := g.links.trans h.links
  routers := g.routers.trans h.routers
  nv := g.nv.trans h.nv
  kvl := g.kvl.trans h.kvl
  now := g.now.trans h.now
  agenda := g.agenda.trans h.agenda
  monQ := g.monQ.trans h.monQ
  cgrp := g.cgrp.trans h.cgrp

theorem SameOutside.hold (s : State) (i : Issue) (h : Held) : SameOutside s (s.hold i h) := SameOutside.modInv ..

theorem SameOutside.report (s : State) (i : Issue) (b : Bool) : SameOutside s (s.report i b) := SameOutside.modInv ..

/-- An update of a node that keeps what waits for the commit. -/
structure KeepsNode (f : Node → Node) (n : Node) : Prop where
  g : (f n).g = n.g
  v : (f n).v = n.v
  m : (f n).m = n.m
  pc : (f n).pc = n.pc
  gn : (f n).gn = n.gn
  asg : (f n).asg = n.asg
  hdr : (f n).hdr = n.hdr
  outq : (f n).outq = n.outq
  tags : (f n).tags = n.tags
  acts : (f n).acts = n.acts

theorem SameNodes.modNd {f : Node → Node} (s : State) (nk : Nat) (h : KeepsNode f (s.nd nk)) : SameNodes s (s.modNd nk f) nk where
  other nj hj := State.nd_modNd_other s nk nj f hj
  g := by rw [State.nd_modNd_same, h.g]
  v := by rw [State.nd_modNd_same, h.v]
  m := by rw [State.nd_modNd_same, h.m]
  pc := by rw [State.nd_modNd_same, h.pc]
  gn := by rw [State.nd_modNd_same, h.gn]
  asg := by rw [State.nd_modNd_same, h.asg]
  hdr := by rw [State.nd_modNd_same, h.hdr]
  outq := by rw [State.nd_modNd_same, h.outq]
  tags := by rw [State.nd_modNd_same, h.tags]
  acts := by rw [State.nd_modNd_same, h.acts]

theorem SameNodes.modInv (s : State) (nk ws it : Nat) (f : Inv → Inv) : SameNodes s (s.modInv nk ws it f) nk :=
  SameNodes.modNd s nk (by constructor <;> rfl)

theorem SameNodes.trans {s t u : State} {nk : Nat} (h : SameNodes s t nk) (g : SameNodes t u nk) : SameNodes s u nk where
  other nj hj := (g.other nj hj).trans (h.other nj hj)
  g := g.g.trans h.g
  v := g.v.trans h.v
  m := g.m.trans h.m
  pc := g.pc.trans h.pc
  gn := g.gn.trans h.gn
  asg := g.asg.trans h.asg
  hdr := g.hdr.trans h.hdr
  outq := g.outq.trans h.outq
  tags := g.tags.trans h.tags
  acts := g.acts.trans h.acts

theorem SameNodes.hold (s : State) (i : Issue) (h : Held) : SameNodes s (s.hold i h) i.nk := SameNodes.modInv ..

theorem SameNodes.report (s : State) (i : Issue) (b : Bool) : SameNodes s (s.report i b) i.nk := SameNodes.modInv ..

end Sys2Proof.Machine
end

