-- ==== Sys2Proof/Proofs/GlobalsAndSending.lean ====
section
/-!
PROOF. READ and WRITE wait for their turn and for the commit, and sending a result does one thing (O13).
-/

namespace Sys2Proof.Machine

/-- READ once its predicate holds and no error operand reaches a queue: what is left is whose turn it is, and the global. -/
theorem execRead_plain {s : State} {i : Issue} {v : Inv} {w : GWord} (h : FiresG s i v w) :
    exec (.read w) s = .next (if !(s.nd i.nk).oldest v.age then s.waits
      else if (s.nd i.nk).gErr.contains (globalIndex (bits w.imm.imm16 7 2) (bits w.imm.imm16 1 6)) then
        s.fault i .read .uncorrectableError fun p => { p with aux := 6 }
      else s.sendBoth i w (gEffect w) i.status { val := (s.nd i.nk).global (bits w.imm.imm16 7 2) (bits w.imm.imm16 1 6) }
        { val := (s.nd i.nk).global (bits w.imm.imm16 7 2) (bits w.imm.imm16 1 6) }) := by
  obtain ⟨⟨hcur, _, hinv⟩, hp, he⟩ := h
  have her : (gEffect w && i.status.er) = false := by
    rw [Bool.and_eq_false_iff]
    cases hg : gEffect w with
    | false => exact .inl rfl
    | true => exact .inr (he hg)
  show execRead w s = _
  simp only [execRead, hcur, hinv, hp, her, Bool.not_true, Bool.false_eq_true, ↓reduceIte]
  split
  · rfl
  · split <;> rfl

theorem Node.global_eq (n : Node) (file num : Nat) : n.global file num =
    if file = 0 then .sc (Tab.get 0 n.g num) else if file = 1 then .vec (Tab.get 0 n.v num) else .sc (Tab.get 0 n.m num) := by
  unfold Node.global
  split <;> simp_all

/-- WRITE on an operand that is not null holds its value, or faults where the value is not of the global's width. -/
theorem execWrite_plain {s : State} {i : Issue} {v : Inv} {w : GWord} {l : Opnd} {file : GFile} {num : BitVec 6}
    (h : Issues s i v) (hp : predHolds w.prd i = true) (hl : i.l = some l) (ht : w.t0 = .glob file num)
    (he : i.status.er = false) (hn : l.null = false) :
    exec (.write w) s = .next (if l.val.isVec != decide (file = .v) then s.fault i .write .widthMismatch
      else (s.hold i (.glob i.ix file num.toNat l.val)).report i true) := by
  dsimp only [exec, execWrite]
  rw [gOwn_plain _ _ _ _ _ i v h hp (fun _ => he) _ (by simp [hl, isNull, hn])]
  simp only [hl, ht]

theorem execWrite_null {s : State} {i : Issue} {v : Inv} {w : GWord} {l : Opnd} (h : Issues s i v) (hl : i.l = some l)
    (hn : l.null = true) : exec (.write w) s = .next (s.report i false) := by
  obtain ⟨hcur, _, hinv⟩ := h
  dsimp only [exec, execWrite]
  simp [gOwn, hcur, hinv, hl, isNull, hn, State.absorb]

theorem globalsAreReadAndWrittenAtCommitR70 : GlobalsAreReadAndWrittenAtCommitR70 := by
  refine ⟨fun s i v w hf => ?_, fun s i v w l file num hi hp hl ht => ⟨execWrite_null hi hl, fun he hn hw => ?_, fun he hn hw => ?_⟩⟩
  · dsimp only
    unfold Sends
    rw [execRead_plain hf]
    refine ⟨fun ho => by simp [ho], fun ho hg => ?_, fun ho hg => by simp [ho, hg]⟩
    rw [if_neg (by simp [ho]), if_neg (by simpa using hg), Node.global_eq]
  · rw [execWrite_plain hi hp hl ht he hn]
    have hinv := hi.2.2
    refine ⟨_, rfl, ?_⟩
    rw [if_neg (by simp [hw])]
    refine ⟨(SameOutside.hold s i _).trans (SameOutside.report _ i true), by simp [hinv], ?_⟩
    have hk := (SameNodes.hold s i (.glob i.ix file num.toNat l.val)).trans (SameNodes.report _ i true)
    exact ⟨hk.g, hk.v, hk.m⟩
  · rw [execWrite_plain hi hp hl ht he hn, if_pos (by simpa using hw)]

theorem sendingPutsOneTokenR59 : SendingPutsOneTokenR59 := by
  refine fun s i kd o => ⟨fun ix pt => ⟨_, rfl, rfl, rfl, rfl, rfl, rfl, rfl, ?_⟩, fun q v hv => ⟨?_, rfl, rfl, ?_⟩, rfl⟩
  · refine ⟨fun hn => by simp [arriveAs, hn], fun hn hp => by simp [arriveAs, hn, hp], fun hn hp => by simp [arriveAs, hn, hp]⟩
  · exact (State.invOf_modInv (by intro; exact ⟨rfl, rfl⟩) s i).trans (congrArg (Option.map _) hv)
  · exact (SameNodes.modInv s i.nk i.ws i.it _).outq

/-- Settles O13: READ waits for its turn, WRITE holds its value, and a target takes one token. -/
theorem resultsAndGlobalsR59 : Obligations.ResultsAndGlobalsR59 := ⟨globalsAreReadAndWrittenAtCommitR70, sendingPutsOneTokenR59⟩

end Sys2Proof.Machine
end

