-- ==== Sys2Proof/Proofs/NullModes.lean ====
section
/-!
PROOF. Predicates, null operands and error operands of the computing instructions (O24). All of them fire by `gFire`, so each
clause is one lemma about `gFire`; an identity in place of a null leaves everything but the operand as it was.
-/

namespace Sys2Proof.Machine

/-! ### Which instructions fire by `gFire` -/

def FiresAsG (op : Op) (w : GWord) (ins : Instr) : Prop :=
  ∃ t ids f, ∀ s, exec ins s = gFire op w t ids f s

theorem firesAsG_of_computing (w : GWord) : ∀ p ∈ computing, FiresAsG p.1 w (p.2 w) := by
  simp only [computing, List.forall_mem_cons, List.not_mem_nil, IsEmpty.forall_iff, implies_true, and_true]
  dsimp only [FiresAsG, exec, execFclass, execFcvt, execIcvtf, execFcvti, execQnt, execDqnt, execGscale, execMxpack, execMxunpk,
    execPack, execUnpack, execPnot, execAdd, execSub, execMul, execMulh, execMulhn, execDiv, execDivn, execRem, execRemn,
    execAdds, execSubs, execMadd, execMin, execMax, execAbs, execNeg, execLea, execAnd, execOr, execXor, execAndn, execShl,
    execShr, execSar, execRot, execClz, execCtz, execPopc, execSext, execZext, execCeq, execCne, execClt, execCle, execCltn,
    execClen, execFadd, execFsub, execFmul, execFma, execFnma, execFdiv, execFsqrt, execFrsq, execFrcp, execFexp2,
    execFlog2, execFmin, execFmax, execFabs, execFneg, execFsgn, execFscale, execFceq, execFclt, execFcle, execFcun,
    execVbcast, execVbcastLane, execVext, execVins, execVperm, execVshuf, execVradd, execVrmax, execVrmin, execVscan,
    execVdot, execVsel, execVcmp, execMand, execMor, execMxor, execMnot, execMpopc, execMffs, execMbit, execMtst, execPand,
    execPor, execPxor, intOp, bitsOp, cmpOp, fltOp, fcmpOp, vecOp, maskOp, bitOp]
  repeat' apply And.intro
  all_goals exact ⟨_, _, _, fun _ => rfl⟩

/-! ### Null and error operands -/

theorem isNull_rOperand (w : GWord) (t : Ty) (i : Issue) : isNull (rOperand w t i) = (!w.ir && isNull i.r) := by
  unfold rOperand
  cases w.ir <;> rfl

/-- The nulls among the ports that have a token. -/
theorem any_isNull (a b c : Option Opnd) :
    ([a, b, c].filter Option.isSome).any isNull = (isNull a || isNull b || isNull c) := by
  cases a <;> cases b <;> cases c <;> simp [isNull, Bool.or_assoc]

theorem any_isNull_eq_someNull (w : GWord) (t : Ty) (i : Issue) :
    ([i.l, rOperand w t i, i.q].filter Option.isSome).any isNull = someNull i w := by
  rw [any_isNull, isNull_rOperand, someNull]

section
variable {s : State} {i : Issue} {v : Inv} {w : GWord} (op : Op) (t : Ty) (ids : Option (Val × Val))
  (f : Nat → Opnd → Opnd → Opnd → GRes)

/-- What `gFire` does once it has its invocation. -/
theorem gFire_issues (h : Issues s i v) : gFire op w t ids f s =
    if predHolds w.prd i = false then .next (s.absorb i (gEffect w))
    else if (someNull i w && w.nm = .absorb) = true then .next (s.absorb i (gEffect w))
    else if (gEffect w && i.status.er) = true then .next (s.fault i op .errorOperand)
    else if (someNull i w && (w.nm = .pass || ([i.l, rOperand w t i, i.q].filter Option.isSome).all isNull)) = true then
      .next (s.sendBoth i w (gEffect w) {} (Opnd.nullWith i.status) (Opnd.nullWith i.status))
    else .next (s.finish i v op w i.status
      (f v.fctl (subst (ids.map (·.1)) i.l) (subst (ids.map (·.2)) (rOperand w t i)) (subst none i.q))) := by
  obtain ⟨hcur, -, hinv⟩ := h
  simp only [gFire, hcur, hinv, any_isNull_eq_someNull, Bool.not_eq_true']

theorem gFire_of_not_predHolds (h : Issues s i v) (hp : predHolds w.prd i = false) :
    gFire op w t ids f s = .next (s.absorb i (gEffect w)) := by
  rw [gFire_issues op t ids f h, if_pos hp]

theorem gFire_absorbs_null (h : Issues s i v) (hp : predHolds w.prd i = true) (hn : someNull i w = true) (hm : w.nm = .absorb) :
    gFire op w t ids f s = .next (s.absorb i (gEffect w)) := by
  simp [gFire_issues op t ids f h, hp, hn, hm]

theorem gFire_errorOperand (h : Issues s i v) (hp : predHolds w.prd i = true) (hn : someNull i w = true → w.nm ≠ .absorb)
    (he : gEffect w = true) (her : i.status.er = true) : gFire op w t ids f s = .next (s.fault i op .errorOperand) := by
  have habs : ¬ (someNull i w && w.nm = .absorb) = true := by simpa using hn
  rw [gFire_issues op t ids f h, if_neg (by simp [hp]), if_neg habs, if_pos (by simp [he, her])]

/-- Nulls pass: the mode says so, or no operand is left. -/
theorem gFire_passes_null (h : FiresG s i v w) (hn : someNull i w = true) (hm : w.nm ≠ .absorb)
    (hall : w.nm = .pass ∨ ([i.l, rOperand w t i, i.q].filter Option.isSome).all isNull = true) :
    gFire op w t ids f s = .next (s.sendBoth i w (gEffect w) {} (Opnd.nullWith i.status) (Opnd.nullWith i.status)) := by
  obtain ⟨hi, hp, he⟩ := h
  rw [gFire_issues op t ids f hi, if_neg (by simp [hp]), if_neg (by simp [hm]), if_neg (by simpa using he),
    if_pos (by simpa [hn] using hall)]

/-- Under mode identity, with an operand left that is not null, what is null counts as its identity. -/
theorem gFire_identity (h : FiresG s i v w) (hm : w.nm = .identity)
    (hall : someNull i w = true → ([i.l, rOperand w t i, i.q].filter Option.isSome).all isNull = false) :
    gFire op w t ids f s = .next (s.finish i v op w i.status
      (f v.fctl (subst (ids.map (·.1)) i.l) (subst (ids.map (·.2)) (rOperand w t i)) (subst none i.q))) := by
  obtain ⟨hi, hp, he⟩ := h
  rw [gFire_issues op t ids f hi, if_neg (by simp [hp]), if_neg (by simp [hm]), if_neg (by simpa using he), if_neg]
  rw [Bool.and_eq_true]
  rintro ⟨hn, hd⟩
  simp [hm, hall hn] at hd

end

theorem nullsPassAbsorbOrFault : PredicatesNullsAndErrorsR44 := by
  intro s i v w op ins hmem hi
  obtain ⟨t, ids, f, hfire⟩ := firesAsG_of_computing w _ hmem
  simp only [hfire]
  exact ⟨gFire_of_not_predHolds op t ids f hi, gFire_absorbs_null op t ids f hi, gFire_errorOperand op t ids f hi,
    fun hf hn hm => gFire_passes_null op t ids f hf hn (by simp [hm]) (.inl hm)⟩

/-! ### Identities -/

/-- The state as it runs issue `j`. -/
def State.runs (s : State) (j : Issue) : State := { s with sched := { s.sched with cur := some j } }

/-! What an instruction does with its result depends on the place of its issue, not on its operands. -/

section
variable (s : State) (i : Issue) (a b : Option Opnd)

theorem State.send_runs (t : Target) (kd : Kd) (o : Opnd) :
    (s.runs { i with l := a, r := b }).send { i with l := a, r := b } t kd o = (s.send i t kd o).runs { i with l := a, r := b } := by
  cases t <;> rfl

theorem State.sendBoth_runs (w : GWord) (eff : Bool) (st : Status) (o0 o1 : Opnd) :
    (s.runs { i with l := a, r := b }).sendBoth { i with l := a, r := b } w eff st o0 o1
      = (s.sendBoth i w eff st o0 o1).runs { i with l := a, r := b } := by
  unfold State.sendBoth
  rw [State.send_runs, State.send_runs]
  cases eff <;> rfl

theorem State.addFlags_runs (fl : Nat) :
    (s.runs { i with l := a, r := b }).addFlags { i with l := a, r := b } fl = (s.addFlags i fl).runs { i with l := a, r := b } := by
  unfold State.addFlags
  split <;> rfl

theorem State.fault_runs (op : Op) (c : Cause) (p : Pending → Pending) :
    (s.runs { i with l := a, r := b }).fault { i with l := a, r := b } op c p = (s.fault i op c p).runs { i with l := a, r := b } := by
  have hinv : (s.runs { i with l := a, r := b }).invOf { i with l := a, r := b } = s.invOf i := rfl
  unfold State.fault State.faultOp
  rw [hinv]
  cases s.invOf i <;> rfl

theorem State.finish_runs (v : Inv) (op : Op) (w : GWord) (st : Status) (g : GRes) :
    (s.runs { i with l := a, r := b }).finish { i with l := a, r := b } v op w st g
      = (s.finish i v op w st g).runs { i with l := a, r := b } := by
  cases g with
  | fault c => exact State.fault_runs ..
  | res o0 o1 fl =>
    dsimp only [State.finish]
    split
    · exact State.fault_runs ..
    · rw [State.addFlags_runs, State.sendBoth_runs]

@[simp] theorem State.send_sched (t : Target) (kd : Kd) (o : Opnd) : (s.send i t kd o).sched = s.sched := by
  cases t <;> rfl

@[simp] theorem State.sendBoth_sched (w : GWord) (eff : Bool) (st : Status) (o0 o1 : Opnd) :
    (s.sendBoth i w eff st o0 o1).sched = s.sched := by
  cases eff <;> simp [State.sendBoth]

@[simp] theorem State.addFlags_sched (fl : Nat) : (s.addFlags i fl).sched = s.sched := by
  unfold State.addFlags
  split <;> rfl

@[simp] theorem State.fault_sched (op : Op) (c : Cause) (p : Pending → Pending) : (s.fault i op c p).sched = s.sched := by
  unfold State.fault State.faultOp
  cases s.invOf i <;> rfl

theorem State.finish_sched (v : Inv) (op : Op) (w : GWord) (st : Status) (g : GRes) : (s.finish i v op w st g).sched = s.sched := by
  cases g with
  | fault c => exact State.fault_sched ..
  | res o0 o1 fl =>
    dsimp only [State.finish]
    split <;> simp

end

theorem State.runs_restore {s u : State} (h : u.sched = s.sched) (j : Issue) : { u.runs j with sched := s.sched } = u := by
  rw [← h]
  rfl

section
variable {s t : State} {i : Issue} {v : Inv} {w : GWord} {op : Op} {ty : Ty} {ids : Option (Val × Val)}
  {f : Nat → Opnd → Opnd → Opnd → GRes}

/-- An operand set in which no null is left does the same as one whose nulls count as these operands. -/
theorem gFire_identity_replaces {a b : Option Opnd} (h : FiresG s i v w) (hm : w.nm = .identity)
    (hall : ([i.l, rOperand w ty i, i.q].filter Option.isSome).all isNull = false)
    (hst : ({ i with l := a, r := b } : Issue).status = i.status) (hn : someNull { i with l := a, r := b } w = false)
    (hl : subst (ids.map (·.1)) a = subst (ids.map (·.1)) i.l)
    (hr : subst (ids.map (·.2)) (rOperand w ty { i with l := a, r := b }) = subst (ids.map (·.2)) (rOperand w ty i))
    (hrun : gFire op w ty ids f (s.runs { i with l := a, r := b }) = .next t) :
    gFire op w ty ids f s = .next { t with sched := s.sched } := by
  have hfires : FiresG (s.runs { i with l := a, r := b }) { i with l := a, r := b } v w := by
    obtain ⟨⟨-, hperf, hinv⟩, hp, he⟩ := h
    exact ⟨⟨rfl, hperf, hinv⟩, hp, fun hg => by rw [hst]; exact he hg⟩
  rw [gFire_identity op ty ids f hfires hm (by simp [hn]), hl, hr, hst] at hrun
  injection hrun with ht
  rw [gFire_identity op ty ids f h hm fun _ => hall, ← ht, State.finish_runs, State.runs_restore (State.finish_sched ..)]

end

theorem wrapN_eq_ofInt (n : Nat) (z : Int) : wrapN n z = (BitVec.ofInt n z).toNat := by
  rw [BitVec.toNat_ofInt]; rfl

theorem FF.zero_true (f : FF) : f.zero true = 2 ^ (f.width - 1) := Nat.one_mul _

theorem FF.infPat_false (f : FF) : f.infPat false = (2 ^ f.eb - 1) * 2 ^ f.mb := by simp [FF.infPat]

theorem FF.infPat_true (f : FF) : f.infPat true = 2 ^ (f.width - 1) + (2 ^ f.eb - 1) * 2 ^ f.mb := by simp [FF.infPat]

theorem gFire_of_identities (w : GWord) : ∀ p ∈ identities w, ∃ op t f, ∀ s, exec p.1 s = gFire op w t (some p.2) f s := by
  simp only [identities, List.forall_mem_cons, List.not_mem_nil, IsEmpty.forall_iff, implies_true, and_true, ← wrapN_eq_ofInt]
  dsimp only [exec, execAdd, execSub,
    execAdds, execSubs, execMul, execAnd, execOr, execXor, execMin, execMax, execFadd, execFsub, execFmul, execFmin, execFmax,
    execMand, execMor, execMxor, execPand, execPor, execPxor, intOp, bitsOp, fltOp, maskOp, bitOp, Option.map_some]
  simp only [FF.zero_true, FF.infPat_false, FF.infPat_true]
  repeat' apply And.intro
  all_goals exact ⟨_, _, _, fun _ => rfl⟩

/-- An identity in place of a null keeps the status bits. -/
theorem status_of_identity_l {i : Issue} {l : Opnd} (hl : i.l = some l) (b : Bool) (x : Val) :
    ({ i with l := some { l with null := b, val := x } } : Issue).status = i.status := by
  simp [Issue.status, statusOf, hl, Opnd.status]

theorem status_of_identity_r {i : Issue} {r : Opnd} (hr : i.r = some r) (b : Bool) (x : Val) :
    ({ i with r := some { r with null := b, val := x } } : Issue).status = i.status := by
  simp [Issue.status, statusOf, hr, Opnd.status]

theorem subst_of_null {o : Opnd} (h : o.null = true) (x : Val) :
    subst (some x) (some { o with null := false, val := x }) = subst (some x) (some o) := by
  simp [subst, h]

theorem identitiesReplaceNullsR202 : IdentitiesReplaceNullsR202 := by
  intro s t i v w ins idL idR l r hmem hf hl hq hm
  obtain ⟨op, ty, f, hfire⟩ := gFire_of_identities w _ hmem
  simp only [hfire]
  refine ⟨fun hir hr hln hrn => ?_, fun hir hr hln => ?_, fun hir hr hln hrn => ?_, fun hir hr hln hrn => ?_⟩
  · refine gFire_identity_replaces (b := i.r) hf hm ?_ (status_of_identity_l hl false idL) ?_ ?_ rfl
    · simp [hl, hr, hq, rOperand, hir, isNull, hrn]
    · simp [someNull, hr, hq, isNull, hrn]
    · rw [hl]
      exact subst_of_null hln idL
  · refine gFire_identity_replaces (b := i.r) hf hm ?_ (status_of_identity_l hl false idL) ?_ ?_ rfl
    · simp [hl, hq, rOperand, hir, isNull]
    · simp [someNull, hr, hq, isNull]
    · rw [hl]
      exact subst_of_null hln idL
  · refine gFire_identity_replaces (a := i.l) hf hm ?_ (status_of_identity_r hr false idR) ?_ rfl ?_
    · simp [hl, hr, hq, rOperand, hir, isNull, hln]
    · simp [someNull, hl, hq, isNull, hln]
    · simp only [rOperand, hir, hr]
      exact subst_of_null hrn idR
  · refine gFire_passes_null op ty _ f hf (by simp [someNull, hl, isNull, hln]) (by simp [hm]) (.inr ?_)
    simp [hl, hr, hq, rOperand, hir, isNull, hln, hrn]

/-- Settles O24: each mode is a branch of `gFire`. -/
theorem predicatesNullsAndErrorsR44 : Obligations.PredicatesNullsAndErrorsR44 :=
  ⟨nullsPassAbsorbOrFault, identitiesReplaceNullsR202⟩

end Sys2Proof.Machine
end

