-- ==== Sys2Proof/Proofs/EngineCommands.lean ====
section
/-!
PROOF. Engine commands are held to the commit (O31). All of them fire by `heldFire`; what differs is the check of the operands,
and each check decides the ranges of its rule.
-/

namespace Sys2Proof.Machine

/-! ### How a command that is held fires -/

/-- What passes every check is held; with a scoreboard token it joins its count. -/
theorem heldTo_of_heldFire {op : Op} {ins : Instr} {prd : Prd} {sbs : Option (BitVec 3)} {p : Ports}
    {chk : Issue → Inv → State → Option Cause} {s : State} {i : Issue} {v : Inv} (hinv : s.invOf i = some v)
    (hexec : exec ins s = .next (heldFire op ins prd sbs p chk i s)) (hp : predHolds prd i = true) (hn : p.null i = false)
    (he : i.status.er = false) (hok : p.ok i = true) (hchk : chk i v s = none) : HeldTo ins sbs s i v := by
  have hout := (SameOutside.hold s i (.cmd i.ix ins i.l i.r i.q)).trans (SameOutside.report _ i true)
  have hnodes := (SameNodes.hold s i (.cmd i.ix ins i.l i.r i.q)).trans (SameNodes.report _ i true)
  have hsb : (((s.hold i (.cmd i.ix ins i.l i.r i.q)).report i true).nd i.nk).sb = (s.nd i.nk).sb := by
    simp [State.hold, State.report, State.modInv]
  cases sbs with
  | none =>
    simp only [heldFire, hinv, hp, hn, he, hok, hchk, Bool.not_true, Bool.or_self, Bool.false_eq_true, ↓reduceIte] at hexec
    exact ⟨_, hexec, hout, hnodes, rfl, by simp [hinv], by simp [hsb]⟩
  | some k =>
    simp only [heldFire, hinv, hp, hn, he, hok, hchk, Bool.not_true, Bool.or_self, Bool.false_eq_true, ↓reduceIte] at hexec
    have hkeep : ∀ u : State, (u.modNd i.nk fun n => { n with sb := n.sb ++ [(k.toNat, v.age, i.ix)] }).invOf i = u.invOf i :=
      fun u => by simp [State.invOf, Node.inv]
    refine ⟨_, hexec, hout.trans (SameOutside.modNd ..), hnodes.trans (SameNodes.modNd _ _ (by constructor <;> rfl)), rfl, ?_,
      by simp [hsb]⟩
    rw [hkeep]
    simp [hinv]

/-- A check says `c` where the operands are not good, and nothing where they are. -/
def Decides (o : Option Cause) (good : Prop) (c : Cause) : Prop := (good → o = none) ∧ (¬ good → o = some c)

theorem decides_none {good : Prop} {c : Cause} : Decides none good c ↔ good := by
  simp [Decides]

theorem decides_ite {b good : Prop} [Decidable b] {c : Cause} : Decides (if b then some c else none) good c ↔ (good ↔ ¬ b) := by
  by_cases hb : b <;> simp [Decides, hb]

/-- A check of a destination cluster `x` (R27), and of the rest after it; `b` knows that 255 is no cluster here. -/
theorem decides_destination {x : Nat} (hx : x < 256) {b : Bool} {good : Prop} (h : good ↔ x ≤ 191 ∧ ¬ b = true)
    (hb : x = 255 → b = true) :
    Decides (if clReserved x then some .badDestination else if b then some .reservedCode else none) good
      (if (192 ≤ x && x ≤ 254) = true then .badDestination else .reservedCode) := by
  by_cases hres : 192 ≤ x ∧ x ≤ 254
  · have hgood : ¬ good := fun hg => by have := (h.1 hg).1; omega
    have hne : x ≠ 255 := by omega
    simp [Decides, clReserved, hres, hgood, hne]
  · have hok : clReserved x = false := by simp [clReserved]; omega
    have hcause : ¬ (192 ≤ x && x ≤ 254) = true := by simpa using hres
    rw [if_neg (by simp [hok]), if_neg hcause, decides_ite, h, and_iff_right_iff_imp]
    intro hnb
    have hne : x ≠ 255 := fun hx => hnb (hb hx)
    omega

/-- The instruction fires as `eExec` does, with a check that decides `good`. -/
def FiresChecked (op : Op) (ins : Instr) (w : EWord) (p : Ports) (good : Prop) (c : Cause) (s : State) (i : Issue) (v : Inv) : Prop :=
  ∃ chk work lost, exec ins s = eExec op ins w p chk work s lost ∧ (p.ok i = true → Decides (chk i v s) good c)

theorem firesHeld_of_firesChecked {op : Op} {ins : Instr} {w : EWord} {p : Ports} {good : Prop} {c : Cause} {s : State} {i : Issue}
    {v : Inv} (h : FiresChecked op ins w p good c s i v) (hi : Issues s i v) : FiresHeld op ins w.prd w.sbs p good c s i v := by
  obtain ⟨chk, work, lost, hexec, hchk⟩ := h
  obtain ⟨hcur, hperf, hinv⟩ := hi
  have hfire : exec ins s = .next (heldFire op ins w.prd w.sbs p chk i s) := by
    rw [hexec]
    simp [eExec, hcur, hperf]
  refine ⟨fun habs => ?_, fun hp hn => ⟨fun he => ?_, fun he hok => ?_, fun he hok hg => ?_, fun he hok hg => ?_⟩⟩
  · rw [hfire, heldFire, hinv]
    rcases habs with h | h <;> simp [h]
  · simp [hfire, heldFire, hinv, hp, hn, he]
  · simp [hfire, heldFire, hinv, hp, hn, he, hok]
  · simp [hfire, heldFire, hinv, hp, hn, he, hok, (hchk hok).2 hg]
  · exact heldTo_of_heldFire hinv hfire hp hn he hok ((hchk hok).1 hg)

/-! ### The checks -/

theorem getLsbD_eq_bits {n : Nat} (x : BitVec n) (k : Nat) : x.getLsbD k = decide (bits x.toNat k 1 = 1) :=
  Nat.testBit_eq_decide_div_mod_eq

theorem zeros_iff (v lo n : Nat) : zeros v lo n ↔ bits v lo n = 0 := Iff.rfl

theorem bits_lt (v lo n : Nat) : bits v lo n < 2 ^ n := Nat.mod_lt _ (Nat.two_pow_pos n)

section
variable (s : State) (i : Issue) (v : Inv) (w : EWord)

theorem firesChecked_pset (hp : ({ l := .vec } : Ports).present i) :
    FiresChecked .pset (.pset w) w { l := .vec } (patBad i.lvec = false) (engineCause .pset i) s i v := by
  dsimp only [FiresChecked, exec, execPset]
  refine ⟨_, _, _, rfl, fun hok => ?_⟩
  obtain ⟨o, ho⟩ := Option.isSome_iff_exists.1 (hp.1 (by decide))
  obtain ⟨x, hx⟩ : ∃ x, o.val = .vec x := by
    have hvec : o.val.isVec = true := by simpa [Ports.ok, portOk, ho] using hok
    cases hval : o.val with
    | sc a => simp [hval, Val.isVec] at hvec
    | vec x => exact ⟨x, rfl⟩
  obtain ⟨null, val, ns, em, er⟩ := o
  obtain rfl : val = .vec x := hx
  simp only [ho, Issue.lvec, engineCause, decides_ite, Bool.not_eq_true]

theorem firesChecked_copyr : FiresChecked .copyr (.copyr w) w { l := .sc }
    (zeros i.lv 24 16 ∧ i.lv / 2 ^ 44 % 256 ≤ 191 ∧ i.lv % 2 ^ 24 % 64 = 0) (engineCause .copyr i) s i v := by
  dsimp only [FiresChecked, exec, execCopyr]
  refine ⟨_, _, _, rfl, fun _ => decides_destination (bits_lt i.lv 44 8) ?_ fun h255 => by simp [h255]⟩
  simp only [Bool.or_eq_true, decide_eq_true_eq, bne_iff_ne]
  simp only [zeros, bits]
  omega

theorem firesChecked_rread : FiresChecked .rread (.rread w) w { l := .sc, r := .sc, q := .sc }
    ((if w.sub.getLsbD 0 then i.lv % 2 ^ 40 else i.lv % 2 ^ 52) % 64 = 0 ∧ zeros i.rv 24 16 ∧ i.rv / 2 ^ 44 % 256 ≤ 191
      ∧ i.rv % 2 ^ 24 % 64 = 0 ∧ (w.sub.getLsbD 1 = true → zeros i.rv 60 4) ∧ 64 ≤ i.qv ∧ i.qv ≤ 2 ^ 24 ∧ i.qv % 64 = 0)
    (engineCause .rread i) s i v := by
  dsimp only [FiresChecked, exec, execRread]
  refine ⟨_, _, _, rfl, fun _ => decides_destination (bits_lt i.rv 44 8) ?_ fun h255 => by simp [h255]⟩
  simp only [getLsbD_eq_bits, Bool.or_eq_true, Bool.and_eq_true, decide_eq_true_eq, bne_iff_ne, bits_low]
  generalize (if w.sub.toNat % 2 ^ 1 = 1 then i.lv % 2 ^ 40 else i.lv % 2 ^ 52) = addr
  generalize bits w.sub.toNat 1 1 = under
  simp only [zeros, bits]
  omega

theorem firesChecked_flpush : FiresChecked .flpush (.flpush w) w { l := .sc, r := .sc, q := .sc }
    (i.lv % 2 ^ 40 = 0 ∧ i.lv / 2 ^ 44 % 256 ≤ 191 ∧ 1 ≤ i.qv ∧ i.qv < 2 ^ 32) (engineCause .flpush i) s i v := by
  dsimp only [FiresChecked, exec, execFlpush]
  refine ⟨_, _, _, rfl, fun _ => decides_ite.2 ?_⟩
  simp only [Bool.or_eq_true, decide_eq_true_eq, bne_iff_ne]
  simp only [bits]
  omega

theorem firesChecked_kvapp : FiresChecked .kvapp (.kvapp w) w { l := .sc, r := .sc }
    (zeros i.lv 0 16 ∧ 1 ≤ i.rv ∧ i.lv / 2 ^ 16 % 16 + i.rv ≤ 16) (engineCause .kvapp i) s i v := by
  dsimp only [FiresChecked, exec, execKvapp]
  refine ⟨_, _, _, rfl, fun _ => decides_ite.2 ?_⟩
  simp only [Bool.or_eq_true, decide_eq_true_eq, bne_iff_ne]
  simp only [zeros, bits]
  omega

theorem nvBad_iff : (zeros i.lv 48 16 ∧ ¬ zeros i.lv 40 8 ∧ (w.sub.getLsbD 0 = false → zeros i.rv 52 12) ∧ 1 ≤ i.qv ∧ i.qv ≤ 65536)
    ↔ ¬ nvBad w i = true := by
  simp only [nvBad, getLsbD_eq_bits, Bool.or_eq_true, Bool.and_eq_true, decide_eq_true_eq, bne_iff_ne, decide_eq_false_iff_not]
  simp only [zeros, bits]
  omega

theorem firesChecked_spawn : FiresChecked .spawn (.spawn w) w
    { l := .sc, r := .any, q := if w.sub.getLsbD 0 then .any else .no }
    (i.lv < 2 ^ 11 ∧ (s.callableNum i.nk i.lv).isSome = true) (engineCause .spawn i) s i v := by
  simp only [FiresChecked, exec, execSpawn, getLsbD_eq_bits, decide_eq_true_eq]
  refine ⟨_, _, _, rfl, fun _ => decides_ite.2 ?_⟩
  rw [Bool.or_eq_true, decide_eq_true_eq, not_or, Nat.not_le]
  refine and_congr_right fun hlt => ?_
  rw [Nat.mod_eq_of_lt hlt]
  cases s.callableNum i.nk i.lv <;> simp

theorem firesChecked_nvrd : FiresChecked .nvrd (.nvrd w) w { l := .sc, r := .sc, q := .sc }
    (zeros i.lv 48 16 ∧ ¬ zeros i.lv 40 8 ∧ (w.sub.getLsbD 0 = false → zeros i.rv 52 12) ∧ 1 ≤ i.qv ∧ i.qv ≤ 65536)
    (engineCause .nvrd i) s i v := by
  dsimp only [FiresChecked, exec, execNvrd]
  exact ⟨_, _, _, rfl, fun _ => decides_ite.2 (nvBad_iff i w)⟩

theorem firesChecked_nvwr : FiresChecked .nvwr (.nvwr w) w { l := .sc, r := .sc, q := .sc }
    (zeros i.lv 48 16 ∧ ¬ zeros i.lv 40 8 ∧ (w.sub.getLsbD 0 = false → zeros i.rv 52 12) ∧ 1 ≤ i.qv ∧ i.qv ≤ 65536)
    (engineCause .nvwr i) s i v := by
  dsimp only [FiresChecked, exec, execNvwr]
  exact ⟨_, _, _, rfl, fun _ => decides_ite.2 (nvBad_iff i w)⟩

/-- MSEND looks at the selector before the cluster. -/
theorem firesChecked_msend : FiresChecked .msend (.msend w) w { l := .sc, r := .any }
    (zeros i.lv 32 9 ∧ (i.lv / 2 ^ 44 % 256 ≤ 191 ∨ i.lv / 2 ^ 44 % 256 = 255)) (engineCause .msend i) s i v := by
  dsimp only [FiresChecked, exec, execMsend]
  refine ⟨_, _, _, rfl, fun _ => ?_⟩
  have hlt := bits_lt i.lv 44 8
  change Decides (selBad i.lv) (bits i.lv 32 9 = 0 ∧ (bits i.lv 44 8 ≤ 191 ∨ bits i.lv 44 8 = 255)) _
  have hcause : engineCause .msend i =
      if bits i.lv 32 9 = 0 ∧ 192 ≤ bits i.lv 44 8 ∧ bits i.lv 44 8 ≤ 254 then .badDestination else .reservedCode :=
    if_congr (by rw [Bool.and_eq_true, decide_eq_true_eq, decide_eq_true_eq]; rfl) rfl rfl
  rw [hcause, selBad]
  generalize bits i.lv 44 8 = x at hlt ⊢
  generalize bits i.lv 32 9 = sel
  by_cases hsel : sel = 0
  · by_cases hx : 192 ≤ x ∧ x ≤ 254
    · have hne : x ≠ 255 := by omega
      have hgt : ¬ x ≤ 191 := by omega
      simp [Decides, hsel, hx, hne, hgt]
    · have hgood : x ≤ 191 ∨ x = 255 := by omega
      have hchk : ¬ ((192 ≤ x && x != 255) = true) := by simp; omega
      simp [Decides, hsel, hgood, hchk]
  · simp [Decides, hsel]

end

theorem firesChecked_of_engineOps (s : State) (i : Issue) (v : Inv) (w : EWord) : ∀ e ∈ engineOps w s i v,
    e.2.2.1.present i → FiresChecked e.1 e.2.1 w e.2.2.1 e.2.2.2 (engineCause e.1 i) s i v := by
  simp only [engineOps, List.forall_mem_cons, List.not_mem_nil, IsEmpty.forall_iff, implies_true, and_true, true_and,
    firesChecked_copyr, firesChecked_rread, firesChecked_flpush,
    firesChecked_kvapp, firesChecked_nvrd, firesChecked_nvwr, firesChecked_spawn, firesChecked_msend]
  refine ⟨firesChecked_pset s i v w, ?_⟩
  simp only [getLsbD_eq_bits, decide_eq_true_eq]
  dsimp only [exec, FiresChecked, execCopy, execFlopen, execFlfree, execFlclose, execTsend, execWopen, execWclose,
      execKvtab, execKvgath, execKvinv, execCred, execCbcast, execCgath,
      execWswap, execMma, execMrecur, execMacc, execMzero, execMstat, execKcfg, execKbias, execKmask, execKbind,
      execKunbind, execKlife, execKqry, execKstat, execNopen, execNclose, execNbind, execNrebind, execNunbind, execNlook,
      execLaunch, execGarm, execTret, execHreg, execHregUnreg, execMsendTrig, execMrecv, execMprobe, engineCause]
  simp only [bits_low]
  repeat' apply And.intro
  all_goals refine fun hp => ⟨_, _, _, rfl, fun hok => ?_⟩
  all_goals simp only [decides_none, decides_ite, zeros_iff, bits_low, Bool.or_eq_true, Bool.and_eq_true, decide_eq_true_eq,
    bne_iff_ne, ne_eq, not_or, not_not, Nat.not_le, Bool.not_eq_true, Option.isSome_iff_ne_none, Option.isNone_iff_eq_none]
  all_goals omega

/-- The formats that have side data: quantised with scales, or microscaled. -/
theorem sideLen_ne_zero : ∀ fmt < 16, ∀ g < 4, sideLen fmt g ≠ 0 ↔ fmt = 5 ∨ fmt = 6 ∨ (7 ≤ fmt ∧ fmt ≤ 15) := by
  decide

theorem wloadIsHeldR244 : WloadIsHeldR244 := by
  intro s i v w hi hp hnd fmt side
  refine firesHeld_of_firesChecked ?_ hi
  have hside : sideLen (bits w.imm.toNat 0 4) (bits w.imm.toNat 4 2) ≠ 0 ↔ side := by
    have hfmt : bits w.imm.toNat 0 4 = fmt := bits_low w.imm.toNat 4
    rw [sideLen_ne_zero _ (bits_lt w.imm.toNat 0 4) _ (bits_lt w.imm.toNat 4 2), hfmt]
  have hhnd : w.sub.toNat % 2 ^ 1 = 1 ↔ hnd = true := by
    rw [show hnd = decide (bits w.sub.toNat 0 1 = 1) from getLsbD_eq_bits w.sub 0, bits_low, decide_eq_true_iff]
  dsimp only [FiresChecked, exec, execWload]
  refine ⟨_, _, _, rfl, fun _ => decides_ite.2 ?_⟩
  rw [← hside]
  simp only [Bool.or_eq_true, Bool.and_eq_true, decide_eq_true_eq, bne_iff_ne, Bool.not_eq_true', decide_eq_false_iff_not, bits_low,
    zeros_iff, hhnd]
  cases hnd with
  | true => simp only [↓reduceIte, not_true_eq_false, false_and, or_false, true_and]; omega
  | false => simp only [Bool.false_eq_true, ↓reduceIte, not_false_eq_true, true_and, false_and, or_false]; omega

/-- Settles O31: every check decides the ranges of its rule. -/
theorem engineCommandsAreHeldR147 : Obligations.EngineCommandsAreHeldR147 :=
  ⟨fun s i v w _ _ _ _ hmem hi hp => firesHeld_of_firesChecked (firesChecked_of_engineOps s i v w _ hmem hp) hi, wloadIsHeldR244⟩

end Sys2Proof.Machine
end

