-- ==== Sys2Proof/Proofs/StrayBarrierWait.lean ====
section
/-!
PROOF. A barrier wait that is issued for a plane past the eight of a cluster (refutes O33).

BARW on an episode that is complete sends its number at once (R137), to cluster `nk / 8` of its node's key `nk`. The key of the node
on plane `p` of cluster `c` is `8 c + p`, so for planes 0 to 7 (R23) this is the issue's own cluster `c`. The statement ranges over
every issue: for plane 8 of cluster 0 the key is that of plane 0 of cluster 1, and the token goes there. No rule of the spec is at
stake, for a cluster has no plane 8.
-/

namespace Sys2Proof.Machine

/-- BARW on group 0 to element 1, port L. -/
def strayWait : GWord where
  prd := .always
  ty := .i64
  imm := .short 0
  t0 := .slot 1 .l
  t1 := .none
  rm := .rne
  sat := false
  nm := .pass
  ir := false
  mf := 0

/-- Element 0, plane 8 of cluster 0, iteration 0. -/
def strayIssue : Issue := { c := 0, p := 8, ix := 0, ws := 0, it := 0 }

/-- The kernel of the node lists cluster 0 as its barrier group 0, whose episode 0 is complete; the node waits for that one. -/
def strayBarrier : State :=
  { State.reset with
    kernels := [(0, { queue := 0, recno := 0, rank := 0, age := 0, part := 0, asid := 0, die := 0, x := 0, y := 0, w := 1, h := 1,
                      groups := [[0]] })]
    nodes := [(8, { asg := some { kernel := 0, sec := 0, num := 0, part := 0, asid := 0, entry := 0 }
                    invs := [{ n := 0, ws := 0 }], barLast := [(0, ((0, 0), some 0))] })]
    clusters := [(0, { episodes := [(0, { num := 1 })] })]
    sched := { cur := some strayIssue } }

/-- The state after BARW. -/
def strayBarrierNext : State :=
  strayBarrier.barSend 8 { grp := 0, ix := 0, n := 0, ws := 0, age := 0, t0 := .slot 1 .l, t1 := .none, o := {}, ep := some 0 } 0

theorem exec_barw_strayBarrier : exec (.barw strayWait) strayBarrier = .next strayBarrierNext := by
  rfl

theorem input_strayBarrier : (strayBarrier.cl 1).input.length = 0 := by decide +kernel

theorem input_strayBarrierNext : (strayBarrierNext.cl 1).input.length = 1 := by decide +kernel

/-- Refutes O33: the answer of a barrier wait goes to the cluster of the node key, and the statement's issue may name a node key
of another cluster. -/
theorem not_firingLeavesTheRestR35 : ¬ Obligations.FiringLeavesTheRestR35 := by
  intro h
  obtain ⟨-, -, hclusters, -⟩ := h strayBarrier strayBarrierNext strayIssue { n := 0, ws := 0 } (.barw strayWait) .barw (.g strayWait) rfl
    ⟨rfl, rfl, rfl⟩ exec_barw_strayBarrier
  have hsame := (hclusters (by rintro ⟨w, hw, -⟩; cases hw) (by decide)).other 1 (by decide)
  have hlen := congrArg (fun x : Cluster => x.input.length) hsame
  simp only [input_strayBarrier, input_strayBarrierNext] at hlen
  exact absurd hlen (by decide)

end Sys2Proof.Machine
end

