-- ==== Sys2Proof/Proofs/StrayNodeTable.lean ====
section
/-!
PROOF. A reply to a plane without a node, in a state whose table of nodes is not in the order of its keys (refutes O47).

A token for a plane without a node faults the node whose output queue leads there (R24); of several, the model takes the first of
its table. A reply first counts off an outstanding request of its plane, which writes the plane's entry of the table, and a write
finds its place by the order of the keys. In a table in that order, as every write leaves it, the first node stays the first. The
statement ranges over every state: where node 5 is listed before node 3, the write for plane 3 puts an entry before both, and it is
plane 3 that faults. No rule of the spec is at stake, for the table's order is the model's own.
-/

namespace Sys2Proof.Machine

/-- An output queue that leads to port L of element 0, plane 3 of cluster 0. -/
def strayWire : Wire := { q := 0, nk := 3, ix := 0, pt := .l }

/-- A reply for that port, where no node is. -/
def strayReply : Tok := { pl := 3, ix := 0, pt := .l, ws := 0, it := 0, kd := .reply, gn := 0, o := {} }

def strayNode : Node := { wires := [strayWire] }

/-- Two entries whose queues lead to the plane, not in the order of their keys; the reply waits in the input stage. -/
def strayTable : State :=
  { State.reset with
    nodes := [(5, strayNode), (3, strayNode)]
    clusters := [(0, { input := [strayReply] })] }

theorem tokEligible_strayTable : (strayTable.tokEligible 0 [] (strayTable.cl 0).input)[0]? = some strayReply := by decide +kernel

theorem asg_strayTable : ((strayTable.outSub 3 0).nd 3).asg = none := by decide +kernel

/-- The state after the token has reached its element. -/
def strayTableNext : State := (strayTable.modCl 0 fun x => { x with input := x.input.erase strayReply }).tokenArrive 0 strayReply

theorem exec_operandTokenArrival_strayTable : exec (.operandTokenArrival 0 0) strayTable = .next strayTableNext := by
  show execOperandTokenArrival 0 0 strayTable = _
  rw [execOperandTokenArrival, tokEligible_strayTable]
  rfl

/-- Node 5, the first of the table, is not faulted. -/
theorem pend_strayTableNext : (strayTableNext.nd 5).pend = none := by decide +kernel

theorem not_tokensReachElementsR30 : ¬ TokensReachElementsR30 := by
  intro h
  obtain ⟨hidle, -, -⟩ := h strayTable 0 0 strayReply tokEligible_strayTable
  obtain ⟨u, hu, -, -, hfault⟩ := hidle asg_strayTable
  rw [exec_operandTokenArrival_strayTable] at hu
  obtain rfl := Host.Outcome.next.inj hu
  obtain ⟨f, hf, -⟩ := hfault (5, strayNode) rfl rfl rfl
  rw [pend_strayTableNext] at hf
  exact absurd hf (by simp)

/-- Refutes O47: a node table out of order, in which counting off a reply's request changes which node is the first. -/
theorem not_invocationsStartOnTokensR30 : ¬ Obligations.InvocationsStartOnTokensR30 := by
  rintro ⟨htokens, -⟩
  exact not_tokensReachElementsR30 htokens

end Sys2Proof.Machine
end

