-- ==== Sys2Proof/Proofs/StrayInvocations.lean ====
section
/-!
PROOF. A node that lists one invocation twice (refutes O49).

The watchdog counts for each invocation that it watches (R42), and the model finds the one to count for by window slot and
iteration. The invocations of a node in flight have window slots of their own (R37), so each is found once. The statement asks that
no other invocation has the slot and iteration of the one it speaks of, which does not say that this one is listed once: of two
equal entries the first is found twice and counts two cycles, the second counts none, and neither counts one. No rule of the spec
is at stake, for a node has an invocation in flight once.
-/

namespace Sys2Proof.Machine

def strayInv : Inv := { n := 0, ws := 0 }

/-- Node 0 runs, with the invocation twice; it has no block, so the invocation is not complete, and it waits for nothing. -/
def strayTwice : State :=
  { State.reset with nodes := [(0, { st := .running, invs := [strayInv, strayInv] })] }

/-- The state one reference cycle later. -/
def strayTwiceNext : State :=
  match doItem (.advance 1) strayTwice with
  | .next t => t
  | _ => strayTwice

theorem watched_strayTwice : strayTwice.watched 0 = [strayInv, strayInv] := by decide +kernel

theorem invWaits_strayTwice : strayTwice.invWaits 0 strayInv = false := by decide +kernel

theorem doItem_strayTwice : doItem (.advance 1) strayTwice = .next strayTwiceNext := rfl

/-- One of the two has counted twice, the other not at all. -/
theorem invs_strayTwiceNext : (strayTwiceNext.nd 0).invs.map Inv.wd = [2, 0] := by decide +kernel

theorem not_waitsEndInFaultsR42 : ¬ WaitsEndInFaultsR42 := by
  intro h
  obtain ⟨hcounts, -⟩ := h strayTwice 0 0
  have honly : ∀ u, u ∈ (strayTwice.nd (nkOf 0 0)).invs → u.ws = strayInv.ws → u.it = strayInv.it → u = strayInv := by
    intro u hu _ _
    have hu : u ∈ [strayInv, strayInv] := hu
    simpa using hu
  obtain ⟨t, w, ht, -, hw, -, hwd⟩ := hcounts 1 strayInv
    (by rw [show nkOf 0 0 = 0 from rfl, watched_strayTwice]; exact List.mem_cons_self) (.inl rfl) (by decide) honly
  rw [doItem_strayTwice] at ht
  obtain rfl := Host.Outcome.next.inj ht
  have hmem : w.wd ∈ (strayTwiceNext.nd 0).invs.map Inv.wd := List.mem_map_of_mem hw
  rw [show nkOf 0 0 = 0 from rfl, invWaits_strayTwice] at hwd
  rw [invs_strayTwiceNext, hwd] at hmem
  exact absurd hmem (by decide)

/-- Refutes O49: of an invocation that is listed twice, no entry counts one cycle when one passes. -/
theorem not_waitsAndFaultsR40 : ¬ Obligations.WaitsAndFaultsR40 := by
  rintro ⟨hwaits, -⟩
  exact not_waitsEndInFaultsR42 hwaits

end Sys2Proof.Machine
end

