-- ==== Sys2Proof/Proofs/NodeParts.lean ====
section
/-!
SUPPORT. What a node keeps while its commits are at work, in two parts: its front, which decides the commit that goes on
(`Node.front`), and its core, which no release, delivery or fault of an invocation changes (`Node.core`). One lemma for each operation
that keeps a part of every node, in the order of the model, whose files the headings name.
-/

namespace Sys2Proof.Machine

/-- What decides which commit of a node goes on, and with what; and the generation. -/
structure NodeFront where
  asg : Option Assign
  acts : List Act
  parked : List (List Act)
  gn : Nat

@[simp] def Node.front (n : Node) : NodeFront := { asg := n.asg, acts := n.acts, parked := n.parked, gn := n.gn }

/-- What a release of held effects leaves of a node, its globals, its window and its acts apart. -/
structure NodeCore where
  front : NodeFront
  invs : List Inv
  g : Tab W64
  hdr : Option Header
  pc : Nat
  rst : Nat

@[simp] def Node.core (n : Node) : NodeCore := { front := n.front, invs := n.invs, g := n.g, hdr := n.hdr, pc := n.pc, rst := n.rst }

/-- A part of every node of a table. -/
def partsOf {β : Type} (π : Node → β) (t : Tab Node) (k : Nat) : β := π (Tab.get {} t k)

/-- A step that a fold repeats leaves the nodes alone. -/
def KeepsNodes {α : Type} (f : State → α → State) : Prop := ∀ s a, (f s a).nodes = s.nodes

@[simp] theorem keepsNodes_iff {α : Type} (f : State → α → State) : KeepsNodes f ↔ ∀ s a, (f s a).nodes = s.nodes := Iff.rfl

@[simp] theorem foldl_nodes {α : Type} (f : State → α → State) (l : List α) (s : State) (hf : KeepsNodes f) :
    (l.foldl f s).nodes = s.nodes := foldl_keeps State.nodes f hf l s

@[simp] theorem ite_nodes (c : Prop) [Decidable c] (a b : State) :
    (if c then a else b).nodes = if c then a.nodes else b.nodes := apply_ite State.nodes c a b

section
variable {β : Type} (π : Node → β)

theorem State.part_nd (s : State) (k : Nat) : π (s.nd k) = partsOf π s.nodes k := rfl

/-- A step that a fold repeats keeps the part. -/
def KeepsParts {α : Type} (f : State → α → State) : Prop := ∀ s a, partsOf π (f s a).nodes = partsOf π s.nodes

@[simp] theorem keepsParts_iff {α : Type} (f : State → α → State) :
    KeepsParts π f ↔ ∀ s a, partsOf π (f s a).nodes = partsOf π s.nodes := Iff.rfl

@[simp] theorem foldl_parts {α : Type} (f : State → α → State) (l : List α) (s : State) (hf : KeepsParts π f) :
    partsOf π (l.foldl f s).nodes = partsOf π s.nodes := foldl_keeps (fun s => partsOf π s.nodes) f hf l s

@[simp] theorem ite_parts (c : Prop) [Decidable c] (a b : Tab Node) :
    partsOf π (if c then a else b) = if c then partsOf π a else partsOf π b := apply_ite (partsOf π) c a b

/-- An update keeps the part of a node. -/
def KeepsPart (f : Node → Node) : Prop := ∀ n, π (f n) = π n

@[simp] theorem keepsPart_iff (f : Node → Node) : KeepsPart π f ↔ ∀ n, π (f n) = π n := Iff.rfl

@[simp] theorem State.modNd_parts (s : State) (k : Nat) (f : Node → Node) (hf : KeepsPart π f) :
    partsOf π (s.modNd k f).nodes = partsOf π s.nodes := by
  funext j
  rw [← State.part_nd, ← State.part_nd]
  by_cases hj : j = k
  · rw [hj, State.nd_modNd_same, hf _]
  · rw [State.nd_modNd_other _ _ _ _ hj]

@[simp] theorem map_parts (t : Tab Node) (f : Node → Node) (hf : KeepsPart π f) :
    partsOf π (t.map fun (e : Nat × Node) => (e.1, f e.2)) = partsOf π t := by
  funext k
  unfold partsOf Tab.get
  rw [Tab.find_map]
  cases Tab.find t k with
  | none => rfl
  | some n => exact hf n

end

/-- The front is a part of the core. -/
theorem fronts_of_cores {s t : Tab Node} (h : partsOf Node.core t = partsOf Node.core s) :
    partsOf Node.front t = partsOf Node.front s :=
  funext fun k => congrArg NodeCore.front (congrFun h k)

/-! ### Ops -/

@[simp] theorem countAt_nodes (s : State) (part : Nat) (copies : List Nat) (ev amt : Nat) :
    (countAt s part copies ev amt).nodes = s.nodes := by
  unfold countAt
  exact foldl_keeps State.nodes _ (fun s e => by dsimp only; split <;> rfl) _ _
@[simp] theorem countEvent_nodes (s : State) (part c ev amt : Nat) : (countEvent s part c ev amt).nodes = s.nodes := countAt_nodes ..
@[simp] theorem setNodeReg_nodes (s : State) (nk n : Nat) (v : W64) : (setNodeReg s nk n v).nodes = s.nodes := rfl
@[simp] theorem State.modKern_nodes (s : State) (k : Nat) (f : Kernel → Kernel) : (s.modKern k f).nodes = s.nodes := by
  unfold State.modKern; split <;> rfl
@[simp] theorem State.raise_cores (s : State) (nk : Nat) (f : Pending) :
    partsOf Node.core (s.raise nk f).nodes = partsOf Node.core s.nodes := by
  refine State.modNd_parts _ s nk _ fun n => ?_
  dsimp only; split
  · rfl
  · split <;> rfl
@[simp] theorem State.raise_fronts (s : State) (nk : Nat) (f : Pending) :
    partsOf Node.front (s.raise nk f).nodes = partsOf Node.front s.nodes :=
  fronts_of_cores (State.raise_cores ..)
@[simp] theorem State.engFault_cores (s : State) (nk : Nat) (f : Pending) :
    partsOf Node.core (s.engFault nk f).nodes = partsOf Node.core s.nodes := by
  simp [State.engFault]
@[simp] theorem State.engFault_fronts (s : State) (nk : Nat) (f : Pending) :
    partsOf Node.front (s.engFault nk f).nodes = partsOf Node.front s.nodes :=
  fronts_of_cores (State.engFault_cores ..)
@[simp] theorem State.engFaultOf_fronts (s : State) (nk : Nat) (f : Pending) :
    partsOf Node.front (s.engFaultOf nk f).nodes = partsOf Node.front s.nodes := by
  unfold State.engFaultOf; split <;> simp
@[simp] theorem State.formRecord_nodes (s : State) (nk : Nat) (f : Pending) (rst blk : Nat) :
    (s.formRecord nk f rst blk).nodes = s.nodes := by
  simp [State.formRecord]
@[simp] theorem Node.takeTag_front (n : Node) (sp : Spawn) : (n.takeTag sp).front = n.front := by
  unfold Node.takeTag; split <;> rfl
@[simp] theorem State.poolReturn_fronts (s : State) (nk t : Nat) :
    partsOf Node.front (s.poolReturn nk t).nodes = partsOf Node.front s.nodes := by
  refine State.modNd_parts _ s nk _ fun n => ?_
  dsimp only; split
  · rfl
  · rw [Node.takeTag_front]; rfl
@[simp] theorem State.untag_fronts (s : State) (nk : Nat) (v : Inv) :
    partsOf Node.front (s.untag nk v).nodes = partsOf Node.front s.nodes := by
  unfold State.untag; dsimp only
  rw [foldl_parts _ _ _ _ (by simp)]
  split
  · rfl
  · exact State.modNd_parts _ _ _ _ fun n => by split <;> rfl
@[simp] theorem State.outAdd_cores (s : State) (nk gn : Nat) : partsOf Node.core (s.outAdd nk gn).nodes = partsOf Node.core s.nodes := by
  simp [State.outAdd]
@[simp] theorem State.outAdd_fronts (s : State) (nk gn : Nat) : partsOf Node.front (s.outAdd nk gn).nodes = partsOf Node.front s.nodes :=
  fronts_of_cores (State.outAdd_cores ..)
@[simp] theorem State.outSub_cores (s : State) (nk gn : Nat) : partsOf Node.core (s.outSub nk gn).nodes = partsOf Node.core s.nodes := by
  simp [State.outSub]
@[simp] theorem State.outSub_fronts (s : State) (nk gn : Nat) : partsOf Node.front (s.outSub nk gn).nodes = partsOf Node.front s.nodes :=
  fronts_of_cores (State.outSub_cores ..)
@[simp] theorem State.dropReplies_cores (s : State) (c : Nat) (ts : List Tok) :
    partsOf Node.core (s.dropReplies c ts).nodes = partsOf Node.core s.nodes := by
  simp [State.dropReplies]
@[simp] theorem State.dropReplies_fronts (s : State) (c : Nat) (ts : List Tok) :
    partsOf Node.front (s.dropReplies c ts).nodes = partsOf Node.front s.nodes :=
  fronts_of_cores (State.dropReplies_cores ..)
@[simp] theorem State.discardFrom_fronts (s : State) (nk a : Nat) :
    partsOf Node.front (s.discardFrom nk a).nodes = partsOf Node.front s.nodes := by
  unfold State.discardFrom
  extract_lets n c p gone dropped mine first accGone ids stale redlv s1 mx s2 ends s3 s4 s5
  have h3 : s3.nodes = s.nodes := by dsimp only [s3]; split <;> rfl
  have h4 : partsOf Node.front s4.nodes = partsOf Node.front s3.nodes := map_parts _ s3.nodes (fun n => n.undeliver nk dropped) fun _ => rfl
  have h5 : partsOf Node.front s5.nodes = partsOf Node.front s4.nodes := foldl_parts _ _ _ _ (by simp)
  rw [State.modNd_parts, h5, h4, h3]
  exact fun _ => rfl
@[simp] theorem State.dropEarly_fronts (s : State) (nk : Nat) (count : Bool) :
    partsOf Node.front (s.dropEarly nk count).nodes = partsOf Node.front s.nodes := by
  unfold State.dropEarly; dsimp only; split
  · rfl
  · refine (State.modNd_parts _ _ _ _ (by intro; rfl)).trans ?_
    rw [State.modCl_nodes]
    split <;> simp
@[simp] theorem State.resumeNode_fronts (s : State) (nk : Nat) (skip : Bool) :
    partsOf Node.front (s.resumeNode nk skip).nodes = partsOf Node.front s.nodes :=
  State.modNd_parts _ _ _ _ fun n => by split <;> rfl

/-! ### KvLoad -/

@[simp] theorem writeUnder_nodes (s : State) (k n v : Nat) (slot : Option Nat) : (writeUnder s k n v slot).nodes = s.nodes := by
  unfold writeUnder; dsimp only
  repeat' split
  all_goals simp
@[simp] theorem State.kvSend_nodes (s : State) (id : Nat) (l : KvLoad) (chip va : Nat) (perm : Option Nat) (fwd : Nat) (ask : Ask)
    (op : Op) (b b2 : Nat) : (s.kvSend id l chip va perm fwd ask op b b2).nodes = s.nodes := by simp [State.kvSend]
@[simp] theorem State.kvSwap_nodes (s : State) (l : KvLoad) (old new : Nat) : (s.kvSwap l old new).1.nodes = s.nodes := by
  unfold State.kvSwap; dsimp only
  repeat' split
  all_goals simp
@[simp] theorem State.stopLoads_nodes (s : State) : s.stopLoads.nodes = s.nodes := by
  unfold State.stopLoads
  exact foldl_keeps State.nodes _ (fun s e => by split <;> simp) _ _

/-! ### Mem -/

@[simp] theorem State.modAcc_cores (s : State) (nk id : Nat) (f : Acc → Acc) :
    partsOf Node.core (s.modAcc nk id f).nodes = partsOf Node.core s.nodes := by
  simp [State.modAcc]
@[simp] theorem State.modAcc_fronts (s : State) (nk id : Nat) (f : Acc → Acc) :
    partsOf Node.front (s.modAcc nk id f).nodes = partsOf Node.front s.nodes :=
  fronts_of_cores (State.modAcc_cores ..)
@[simp] theorem State.accDone_cores (s : State) (nk : Nat) (a : Acc) :
    partsOf Node.core (s.accDone nk a).nodes = partsOf Node.core s.nodes := by
  simp [State.accDone]
@[simp] theorem State.accDone_fronts (s : State) (nk : Nat) (a : Acc) :
    partsOf Node.front (s.accDone nk a).nodes = partsOf Node.front s.nodes :=
  fronts_of_cores (State.accDone_cores ..)
@[simp] theorem State.pruneAccs_cores (s : State) (nk : Nat) : partsOf Node.core (s.pruneAccs nk).nodes = partsOf Node.core s.nodes := by
  simp [State.pruneAccs]

@[simp] theorem State.pruneAccs_fronts (s : State) (nk : Nat) : partsOf Node.front (s.pruneAccs nk).nodes = partsOf Node.front s.nodes :=
  fronts_of_cores (State.pruneAccs_cores ..)

/-! ### Engine -/

@[simp] theorem State.sbLeave_fronts (s : State) (m : Cmd) : partsOf Node.front (s.sbLeave m).nodes = partsOf Node.front s.nodes := by
  unfold State.sbLeave; split <;> simp
@[simp] theorem State.carryTok_nodes (s : State) (nk to_ : Nat) (t : Tok) : (s.carryTok nk to_ t).nodes = s.nodes := by
  unfold State.carryTok; split <;> simp
@[simp] theorem State.deliverQ_cores (s : State) (nk q : Nat) : partsOf Node.core (s.deliverQ nk q).nodes = partsOf Node.core s.nodes := by
  unfold State.deliverQ; split
  · rfl
  · refine foldl_parts _ _ _ _ fun s t => ?_
    dsimp only; split
    · simp
    · repeat' split
      all_goals simp
    · rfl
@[simp] theorem State.deliverQ_fronts (s : State) (nk q : Nat) : partsOf Node.front (s.deliverQ nk q).nodes = partsOf Node.front s.nodes :=
  fronts_of_cores (State.deliverQ_cores ..)
@[simp] theorem State.fillPlace_cores (s : State) (nk q place : Nat) (kd : Kd) (o : Opnd) :
    partsOf Node.core (s.fillPlace nk q place kd o).nodes = partsOf Node.core s.nodes := by simp [State.fillPlace]
@[simp] theorem State.fillPlace_fronts (s : State) (nk q place : Nat) (kd : Kd) (o : Opnd) :
    partsOf Node.front (s.fillPlace nk q place kd o).nodes = partsOf Node.front s.nodes :=
  fronts_of_cores (State.fillPlace_cores ..)
@[simp] theorem State.fillOwn_fronts (s : State) (m : Cmd) (o : Opnd) :
    partsOf Node.front (s.fillOwn m o).nodes = partsOf Node.front s.nodes := by
  unfold State.fillOwn; split <;> simp
@[simp] theorem State.fillRest_fronts (s : State) (m : Cmd) : partsOf Node.front (s.fillRest m).nodes = partsOf Node.front s.nodes := by
  unfold State.fillRest; split <;> simp
@[simp] theorem State.failCmd_fronts (s : State) (c u : Nat) (m : Cmd) (f : Pending) :
    partsOf Node.front (s.failCmd c u m f).nodes = partsOf Node.front s.nodes := by simp [State.failCmd]
@[simp] theorem State.failWith_fronts (s : State) (c u : Nat) (m : Cmd) (cz : Cause) (aux va spc : Nat) :
    partsOf Node.front (s.failWith c u m cz aux va spc).nodes = partsOf Node.front s.nodes := by simp [State.failWith]
@[simp] theorem State.issueCmd_fronts (s : State) (c u : Nat) (m0 : Cmd) :
    partsOf Node.front (s.issueCmd c u m0).nodes = partsOf Node.front s.nodes := by
  unfold State.issueCmd; dsimp only
  repeat' split
  all_goals simp
@[simp] theorem State.psetIssue_fronts (s : State) (c : Nat) (m : Cmd) :
    partsOf Node.front (s.psetIssue c m).nodes = partsOf Node.front s.nodes := by
  simp [State.psetIssue]
@[simp] theorem State.modArr_nodes (s : State) (c : Nat) (f : Array → Array) : (s.modArr c f).nodes = s.nodes := rfl
@[simp] theorem State.wloadIssue_nodes (s : State) (c : Nat) : (s.wloadIssue c).nodes = s.nodes := by
  unfold State.wloadIssue; repeat' split
  all_goals rfl

/-! ### Seq -/

@[simp] theorem State.toMonitor_nodes (s : State) (id : Nat) : (s.toMonitor id).nodes = s.nodes := by
  unfold State.toMonitor; split <;> rfl
@[simp] theorem State.modSec_nodes (s : State) (k i : Nat) (f : Section → Section) : (s.modSec k i f).nodes = s.nodes := by
  simp [State.modSec]
@[simp] theorem State.armNode_fronts (s : State) (nk t : Nat) : partsOf Node.front (s.armNode nk t).nodes = partsOf Node.front s.nodes := by
  unfold State.armNode; dsimp only
  exact State.modNd_parts _ _ _ _ fun n => by split <;> rfl
@[simp] theorem State.armSection_fronts (s : State) (k i t : Nat) :
    partsOf Node.front (s.armSection k i t).nodes = partsOf Node.front s.nodes := by
  unfold State.armSection; split <;> simp
@[simp] theorem State.armPending_fronts (s : State) (k i : Nat) (a : Arming) :
    partsOf Node.front (s.armPending k i a).nodes = partsOf Node.front s.nodes := by
  unfold State.armPending; dsimp only; split <;> simp
@[simp] theorem State.lowerCount_fronts (s : State) (k i : Nat) :
    partsOf Node.front (s.lowerCount k i).nodes = partsOf Node.front s.nodes := by
  unfold State.lowerCount; split <;> simp
@[simp] theorem State.expire_fronts (s : State) (k i : Nat) : partsOf Node.front (s.expire k i).nodes = partsOf Node.front s.nodes := by
  unfold State.expire; split
  · rfl
  · split <;> simp
@[simp] theorem State.endCallables_fronts (s : State) (k i : Nat) :
    partsOf Node.front (s.endCallables k i).nodes = partsOf Node.front s.nodes := by
  unfold State.endCallables; split <;> simp
@[simp] theorem State.sectionCheck_fronts (s : State) (k : Nat) :
    partsOf Node.front (s.sectionCheck k).nodes = partsOf Node.front s.nodes := by
  unfold State.sectionCheck; split <;> simp
@[simp] theorem State.endNode_fronts (s : State) (nk : Nat) : partsOf Node.front (s.endNode nk).nodes = partsOf Node.front s.nodes := by
  unfold State.endNode; dsimp only; split <;> simp
@[simp] theorem State.escalate_nodes (s : State) (id k : Nat) : (s.escalate id k).nodes = s.nodes := by
  unfold State.escalate; split <;> rfl
@[simp] theorem State.dropWaits_fronts (s : State) (ws : List Spawn) :
    partsOf Node.front (s.dropWaits ws).nodes = partsOf Node.front s.nodes := by
  unfold State.dropWaits
  exact foldl_parts _ _ _ _ fun s sp => by split <;> simp
@[simp] theorem State.dropTags_fronts (s : State) (nk : Nat) : partsOf Node.front (s.dropTags nk).nodes = partsOf Node.front s.nodes := by
  unfold State.dropTags
  extract_lets n k s1 s2 s3
  have h1 : partsOf Node.front s1.nodes = partsOf Node.front s.nodes := State.modNd_parts _ _ _ _ (by intro; rfl)
  have h2 : partsOf Node.front s2.nodes = partsOf Node.front s1.nodes :=
    map_parts _ s1.nodes (fun n => { n with invs := n.invs.map fun v => { v with tags := v.tags.filter fun t => t.1 != nk } })
      fun _ => rfl
  have h3 : partsOf Node.front s3.nodes = partsOf Node.front s2.nodes := by
    refine foldl_parts _ _ _ _ fun s e => ?_
    dsimp only
    repeat' split
    all_goals simp
  rw [State.dropWaits_fronts, h3, h2, h1]
@[simp] theorem State.stampHead_nodes (s : State) (q : Nat) : (s.stampHead q).nodes = s.nodes := by
  unfold State.stampHead; extract_lets l is h; split <;> rfl
@[simp] theorem State.owe_nodes (s : State) (q recno code cause : Nat) : (s.owe q recno code cause).nodes = s.nodes := rfl
@[simp] theorem State.clearNodeRegs_nodes (s : State) (nk : Nat) : (s.clearNodeRegs nk).nodes = s.nodes := rfl

/-! ### Task -/

@[simp] theorem State.setTail_nodes (s : State) (q t : Nat) : (s.setTail q t).nodes = s.nodes := by simp [State.setTail]
@[simp] theorem State.spawnIssue_fronts (s : State) (c : Nat) (m : Cmd) (tag : Option (Nat × Nat)) :
    partsOf Node.front (s.spawnIssue c m tag).nodes = partsOf Node.front s.nodes := by
  unfold State.spawnIssue; dsimp only; split
  · simp
  · exact State.modNd_parts _ _ _ _ fun n => by split <;> rfl
@[simp] theorem State.tagEnd_fronts (s : State) (nk t : Nat) (sp : Spawn) (ret : Option Opnd) :
    partsOf Node.front (s.tagEnd nk t sp ret).nodes = partsOf Node.front s.nodes := by
  unfold State.tagEnd; dsimp only
  repeat' split
  all_goals simp

/-! ### Reset and Regs -/

@[simp] theorem setSlPort_nodes (s : State) (p st width err lanes : Nat) : (setSlPort s p st width err lanes).nodes = s.nodes :=
  srSet_nodes ..
@[simp] theorem State.statusDone_nodes (s : State) (q recno : Nat) : (s.statusDone q recno).nodes = s.nodes := by
  rw [State.statusDone, srSet_nodes]
@[simp] theorem State.statusWrite_nodes (s : State) (q : Nat) (retry : Bool) : (s.statusWrite q retry).nodes = s.nodes := by
  unfold State.statusWrite; dsimp only
  repeat' split
  all_goals simp
@[simp] theorem State.statusAll_nodes (s : State) : s.statusAll.nodes = s.nodes := by
  unfold State.statusAll; dsimp only
  rw [foldl_keeps State.nodes _ (by simp)]
  rfl
@[simp] theorem setResetStatus_nodes (s : State) (last src stage berr : Nat) : (setResetStatus s last src stage berr).nodes = s.nodes :=
  srSet_nodes ..
@[simp] theorem setLast_nodes (s : State) (last src : Nat) : (setLast s last src).nodes = s.nodes := setResetStatus_nodes ..
@[simp] theorem State.disableQueues_nodes (s : State) (p : Nat → Bool) : (s.disableQueues p).nodes = s.nodes := by
  simp [State.disableQueues]
@[simp] theorem State.clearNames_nodes (s : State) (p : Nat) : (s.clearNames p).nodes = s.nodes := rfl
@[simp] theorem State.regTake_nodes (s : State) (w : Party0) (n : Nat) : (s.regTake w n).nodes = s.nodes := by
  unfold State.regTake; split <;> rfl
@[simp] theorem State.writeCgrp_nodes (s : State) (part v : Nat) : (s.writeCgrp part v).nodes = s.nodes := by
  simp [State.writeCgrp]
@[simp] theorem State.writeSlots_nodes (s : State) (v : Nat) : (s.writeSlots v).nodes = s.nodes := by simp [State.writeSlots]
@[simp] theorem State.writeLqCfg_nodes (s : State) (w : Party0) (q v : Nat) : (s.writeLqCfg w q v).nodes = s.nodes := by
  unfold State.writeLqCfg; dsimp only
  split
  · rw [srSet_nodes]
  · split
    · rw [srSet_nodes]
    · split
      · rfl
      · rw [srSet_nodes, srSet_nodes, srSet_nodes]
@[simp] theorem State.writeLqTail_nodes (s : State) (q v : Nat) : (s.writeLqTail q v).nodes = s.nodes := by
  simp [State.writeLqTail]
@[simp] theorem State.writePtCfg_nodes (s : State) (w : Party0) (n v : Nat) : (s.writePtCfg w n v).nodes = s.nodes := by
  simp [State.writePtCfg]
@[simp] theorem State.writeSel_nodes (s : State) (w : Party0) (copy n v : Nat) : (s.writeSel w copy n v).nodes = s.nodes := by
  rw [State.writeSel, srSet_nodes, ite_nodes, srSet_nodes, ite_self]

/-! ### Isol, Trap, Token and Invoc -/

@[simp] theorem State.tinvIssue_nodes (s : State) (nk : Nat) (w : SWord) (l r : Option Opnd) :
    (s.tinvIssue nk w l r).nodes = s.nodes := rfl
@[simp] theorem State.tsyncCheck_fronts (s : State) : partsOf Node.front s.tsyncCheck.nodes = partsOf Node.front s.nodes := by
  unfold State.tsyncCheck; dsimp only
  rw [foldl_parts]
  exact fun s x => by split <;> simp
@[simp] theorem State.tsyncIssue_fronts (s : State) (nk age : Nat) (l : Option Opnd) (place : Option (Nat × Nat)) :
    partsOf Node.front (s.tsyncIssue nk age l place).nodes = partsOf Node.front s.nodes := by simp [State.tsyncIssue]
@[simp] theorem State.keysetIssue_nodes (s : State) (nk age : Nat) (l r : Option Opnd) (place : Option (Nat × Nat)) :
    (s.keysetIssue nk age l r place).nodes = s.nodes := rfl
@[simp] theorem State.tokFault_cores (s : State) (c : Nat) (t : Tok) (cz : Cause) (aux va spc : Nat) :
    partsOf Node.core (s.tokFault c t cz aux va spc).nodes = partsOf Node.core s.nodes := by
  unfold State.tokFault; dsimp only; split <;> simp
@[simp] theorem State.tokFault_fronts (s : State) (c : Nat) (t : Tok) (cz : Cause) (aux va spc : Nat) :
    partsOf Node.front (s.tokFault c t cz aux va spc).nodes = partsOf Node.front s.nodes :=
  fronts_of_cores (State.tokFault_cores ..)
@[simp] theorem State.unspillOne_cores (s : State) (c : Nat) (t : Tok) :
    partsOf Node.core (s.unspillOne c t).nodes = partsOf Node.core s.nodes := by
  unfold State.unspillOne; dsimp only
  repeat' split
  all_goals simp
@[simp] theorem State.unspillOne_fronts (s : State) (c : Nat) (t : Tok) :
    partsOf Node.front (s.unspillOne c t).nodes = partsOf Node.front s.nodes :=
  fronts_of_cores (State.unspillOne_cores ..)
@[simp] theorem State.unspill_cores (s : State) (c : Nat) : partsOf Node.core (s.unspill c).nodes = partsOf Node.core s.nodes := by
  simp [State.unspill]
@[simp] theorem State.unspill_fronts (s : State) (c : Nat) : partsOf Node.front (s.unspill c).nodes = partsOf Node.front s.nodes :=
  fronts_of_cores (State.unspill_cores ..)
@[simp] theorem State.dropGroups_fronts (s : State) (nk n : Nat) :
    partsOf Node.front (s.dropGroups nk n).nodes = partsOf Node.front s.nodes := by
  simp [State.dropGroups]
@[simp] theorem State.flipDo_fronts (s : State) (nk t : Nat) : partsOf Node.front (s.flipDo nk t).nodes = partsOf Node.front s.nodes := by
  simp [State.flipDo]

end Sys2Proof.Machine
end

