-- ==== Sys2Proof/Proofs/CommitsGoOn.lean ====
section
/-!
SUPPORT. A commit that goes on (R134, R141, R143, R310). No act of a commit, and no check of a kernel, gives a node an assignment or
acts that it did not have (`State.Calms`), so a node whose last act was done has none left, unless another commit was set aside.
-/

namespace Sys2Proof.Machine

/-- Of the front of a node each part is kept or gone. -/
structure NodeFront.Calms (a b : NodeFront) : Prop where
  asg : b.asg = a.asg ∨ b.asg = none
  acts : b.acts = a.acts ∨ b.acts = []
  parked : b.parked = a.parked ∨ b.parked = []

theorem NodeFront.Calms.refl (a : NodeFront) : a.Calms a := ⟨.inl rfl, .inl rfl, .inl rfl⟩

/-- What is kept or gone, and then kept or gone again, is kept or gone. -/
theorem kept_or_gone_trans {α : Type} {x y z e : α} (h : y = x ∨ y = e) (g : z = y ∨ z = e) : z = x ∨ z = e := by
  rcases g with rfl | rfl
  · exact h
  · exact .inr rfl

theorem NodeFront.Calms.trans {a b c : NodeFront} (h : a.Calms b) (g : b.Calms c) : a.Calms c :=
  ⟨kept_or_gone_trans h.asg g.asg, kept_or_gone_trans h.acts g.acts, kept_or_gone_trans h.parked g.parked⟩

/-- No node has a new assignment or new acts in `t`. -/
structure State.Calms (s t : State) : Prop where
  fronts : ∀ k, (partsOf Node.front s.nodes k).Calms (partsOf Node.front t.nodes k)

theorem State.Calms.of_fronts {s t : State} (h : partsOf Node.front t.nodes = partsOf Node.front s.nodes) : s.Calms t where
  fronts k := by rw [h]; exact NodeFront.Calms.refl _

theorem State.Calms.of_nodes {s t : State} (h : t.nodes = s.nodes) : s.Calms t := .of_fronts (congrArg (partsOf Node.front) h)

theorem State.Calms.refl (s : State) : s.Calms s := .of_fronts rfl

theorem State.Calms.trans {s t u : State} (h : s.Calms t) (g : t.Calms u) : s.Calms u :=
  ⟨fun k => (h.fronts k).trans (g.fronts k)⟩

theorem State.Calms.modNd {f : Node → Node} (s : State) (k : Nat) (hf : (s.nd k).front.Calms (f (s.nd k)).front) :
    s.Calms (s.modNd k f) := by
  refine ⟨fun j => ?_⟩
  rw [← State.part_nd Node.front, ← State.part_nd Node.front]
  by_cases hj : j = k
  · rw [hj, State.nd_modNd_same]; exact hf
  · rw [State.nd_modNd_other _ _ _ _ hj]; exact NodeFront.Calms.refl _

theorem State.Calms.foldl {α : Type} {f : State → α → State} (hf : ∀ (s : State) (a : α), s.Calms (f s a)) (l : List α) (s : State) :
    s.Calms (l.foldl f s) := by
  induction l generalizing s with
  | nil => exact .refl s
  | cons a l ih => exact (hf s a).trans (ih _)

theorem State.Calms.ite {s a b : State} (c : Prop) [Decidable c] (ha : s.Calms a) (hb : s.Calms b) :
    s.Calms (if c then a else b) := by
  split
  · exact ha
  · exact hb

/-! ### Kernels that end -/

theorem Node.calms_freed (n : Node) : n.front.Calms n.freed.front := ⟨.inr rfl, .inr rfl, .inr rfl⟩

theorem State.calms_freeKernel (s : State) (k : Nat) (x : Kernel) : s.Calms (s.freeKernel k x) := by
  unfold State.freeKernel
  extract_lets nks cls s1 s2 s3 s4 gone mine dir s5
  have h1 : s.Calms s1 := .of_fronts (by simp [s1])
  have h2 : s1.Calms s2 := .of_fronts (by simp [s2])
  have h3 : s2.Calms s3 := .foldl (fun s nk =>
    (State.Calms.modNd s nk (Node.calms_freed _)).trans (.of_nodes (State.clearNodeRegs_nodes (s.modNd nk Node.freed) nk))) _ _
  have h4 : s3.Calms s4 := .of_nodes (by simp [s4])
  have h5 : s4.Calms s5 := .of_nodes rfl
  have h : s.Calms s5 := h1.trans (h2.trans (h3.trans (h4.trans h5)))
  exact .ite _ h (h.trans (.of_nodes (State.owe_nodes ..)))

theorem State.calms_kernelCheck (s : State) (k : Nat) : s.Calms (s.kernelCheck k) := by
  unfold State.kernelCheck
  split
  · exact .refl s
  · exact .ite _ (.ite _ (State.calms_freeKernel ..) (.refl s)) (.ite _ (.of_fronts (State.sectionCheck_fronts ..)) (.refl s))

theorem State.calms_kernelsCheck (s : State) : s.Calms s.kernelsCheck := .foldl State.calms_kernelCheck _ _

/-- What is left of a node's front when its kernel ends. -/
def Node.dropped (n : Node) : Node :=
  { n.stepGen with st := .ended, stop := true, acts := [], parked := [], pend := none, engFaults := [], tags := [], waitSpawn := [] }

theorem State.calms_endKernel (s : State) (k code cause : Nat) : s.Calms (s.endKernel k code cause) := by
  unfold State.endKernel
  split
  · exact .refl s
  · split
    · extract_lets s1 mine dir s2 l s3 s4
      have h1 : s.Calms s1 := .of_fronts (foldl_parts _ _ _ _ fun s e => by
        dsimp only
        rw [State.dropWaits_fronts, foldl_nodes]
        exact fun s t => by split <;> simp)
      have h4 : s.Calms s4 := h1.trans (.of_nodes (State.stampHead_nodes ..))
      exact .ite _ h4 (h4.trans (.of_nodes (State.owe_nodes ..)))
    · extract_lets s1 s2 s3
      have h1 : s.Calms s1 := .foldl (fun s d => by
        dsimp only
        exact (State.Calms.of_fronts (by simp)).trans (.modNd (f := Node.dropped) _ _ ⟨.inl rfl, .inr rfl, .inr rfl⟩)) _ _
      have h2 : s1.Calms s2 := .of_nodes (by simp [s2])
      have h3 : s2.Calms s3 := .of_nodes (by simp [s3])
      have h : s.Calms s3 := h1.trans (h2.trans h3)
      exact .ite _ h (h.trans ((State.Calms.of_nodes (State.modKern_nodes ..)).trans (State.calms_kernelCheck ..)))

/-! ### Registers that end kernels -/

theorem State.calms_warmReset (s : State) (src : Nat) : s.Calms (s.warmReset src) := by
  unfold State.warmReset
  split
  · exact .refl s
  · extract_lets s1 s2 s3
    have h1 : s.Calms s1 := .foldl (fun s k => State.calms_endKernel s k 7 0) _ _
    exact h1.trans (.of_nodes (by simp [s2, s3]))

theorem State.calms_partReset (s : State) (p src : Nat) : s.Calms (s.partReset p src) := by
  unfold State.partReset
  extract_lets s1 s2
  have h1 : s.Calms s1 := .foldl (fun s k => by
    split
    · exact .ite _ (State.calms_endKernel ..) (.refl s)
    · exact .refl s) _ _
  exact h1.trans (.of_nodes (by simp [s2]))

theorem State.calms_abort (s : State) (q recno src : Nat) : s.Calms (s.abort q recno src) := by
  unfold State.abort
  split
  · exact .refl s
  · exact (State.calms_endKernel ..).trans (.of_nodes (setLast_nodes ..))

theorem State.calms_writeReset (s : State) (w : Party0) (v : Nat) : s.Calms (s.writeReset w v) := by
  unfold State.writeReset; dsimp only
  split
  · exact State.calms_warmReset ..
  · exact State.calms_partReset ..
  · exact State.calms_abort ..
  · exact .refl s

theorem State.calms_regWrite (s : State) (w : Party0) (n v : Nat) : s.Calms (s.regWrite w n v) := by
  unfold State.regWrite
  split
  · exact .refl s
  · extract_lets old set
    have hset (x : Nat) : s.Calms (set x) := .of_nodes (srSet_nodes ..)
    refine .ite _ (.refl s) (.ite _ (hset _) (.ite _ (hset _) (.ite _ (hset _) (.ite _ (.of_nodes (State.writeCgrp_nodes ..))
      (.ite _ (.ite _ (.refl s) (hset _)) (.ite _ (.ite _ (hset _) (.refl s)) (.ite _ (.of_nodes (State.writeSlots_nodes ..))
      (.ite _ (hset _) (.ite _ (State.calms_writeReset ..) (.ite _ ?_ (.ite _ (.of_nodes (State.writePtCfg_nodes ..))
      (.ite _ (.of_nodes (State.writeSel_nodes ..)) (hset _)))))))))))))
    split
    · exact .ite _ (.refl s) (hset _)
    · exact .of_nodes (State.writeLqCfg_nodes ..)
    · exact .of_nodes (State.writeLqTail_nodes ..)

theorem State.calms_wrsrIssue (s : State) (nk : Nat) (w : SWord) (l : Option Opnd) : s.Calms (s.wrsrIssue nk w l) :=
  (State.Calms.of_nodes (State.regTake_nodes ..)).trans (State.calms_regWrite ..)

/-! ### Records that are resolved -/

theorem State.calms_resolveRec (s : State) (id mode : Nat) (skip : Bool) : s.Calms (s.resolveRec id mode skip) := by
  unfold State.resolveRec
  split
  · exact .refl s
  · extract_lets gone s1 s2
    have hgone (u : State) : u.Calms (gone u) := .of_nodes rfl
    split
    · exact hgone s
    · refine .ite _ (.refl s) (.ite _ (hgone s) (.ite _ ((State.Calms.of_nodes (State.modKern_nodes ..)).trans (hgone _)) ?_))
      refine (hgone s).trans (?_ : s1.Calms _)
      split
      · exact (State.Calms.of_fronts (State.resumeNode_fronts ..)).trans (State.calms_kernelsCheck _)
      · refine .ite _ (State.calms_kernelsCheck _) ?_
        have h2 : s1.Calms s2 := .of_fronts (by simp [s2])
        exact h2.trans ((State.Calms.of_fronts (State.endNode_fronts ..)).trans (State.calms_kernelsCheck _))
      · exact State.calms_endKernel ..

theorem State.calms_fretIssue (s : State) (nk tag : Nat) (w : SWord) : s.Calms (s.fretIssue nk tag w) := by
  unfold State.fretIssue
  split
  · exact .refl s
  · exact State.calms_resolveRec ..

/-! ### Acts -/

theorem State.calms_trapTake (s : State) (nk ix n ws age aux x : Nat) : s.Calms (s.trapTake nk ix n ws age aux x) := by
  unfold State.trapTake
  extract_lets nd f ended rst s1 s2
  have h1 : s.Calms s1 := .ite _ (.refl s) (.of_fronts (State.discardFrom_fronts ..))
  have h2 : s.Calms s2 := h1.trans (.of_nodes (State.formRecord_nodes ..))
  exact .ite _ h2 (h2.trans (.modNd _ _ ⟨.inl rfl, .inl rfl, .inl rfl⟩))

theorem State.calms_issueAct {s u : State} {nk ix : Nat} {i : Instr} {l r q : Option Opnd} {age n fctl : Nat}
    {place : Option (Nat × Nat × Nat)} {tag : Option Nat} (h : s.issueAct nk ix i l r q age n fctl place tag = some u) :
    s.Calms u := by
  revert u
  unfold State.issueAct
  extract_lets c m pl
  split
  · split
    · rintro _ ⟨⟩; exact State.calms_wrsrIssue ..
    · rintro _ ⟨⟩
  · rintro _ ⟨⟩; exact .of_nodes (State.tinvIssue_nodes ..)
  · rintro _ ⟨⟩; exact .of_fronts (State.tsyncIssue_fronts ..)
  · rintro _ ⟨⟩; exact .of_nodes (State.keysetIssue_nodes ..)
  · rintro _ ⟨⟩; exact State.calms_fretIssue ..
  · split
    · rintro _ ⟨⟩
    · rintro _ ⟨⟩; exact (State.calms_trapTake ..).trans (.of_fronts (State.unspill_fronts ..))
  · split
    · extract_lets un
      split
      · rintro _ ⟨⟩
      · repeat' split
        all_goals rintro _ ⟨⟩
        all_goals exact .of_fronts (by simp)
    · rintro _ ⟨⟩; exact .refl s

theorem Node.calms_stepGen (n : Node) : n.front.Calms n.stepGen.front := ⟨.inl rfl, .inl rfl, .inl rfl⟩

theorem State.calms_exitNode {s u : State} {nk n age : Nat} {ex : Option (Bool × Option Nat)}
    (h : s.exitNode nk ex n age = some u) : s.Calms u := by
  have hend (s : State) : s.Calms ((s.dropGroups nk n).endNode nk) := .of_fronts (by simp)
  revert u
  unfold State.exitNode
  extract_lets nd stm s1
  split
  · split
    · rintro _ ⟨⟩; exact hend s
    · rintro _ ⟨⟩; exact .refl s
  · have h1 : s.Calms s1 :=
      .ite _ ((State.Calms.of_fronts (by simp)).trans (.modNd _ _ (Node.calms_stepGen _))) (.refl s)
    clear_value s1
    have hgroups (f : Node → Node) (hf : KeepsPart Node.front f) : s1.Calms ((s1.dropGroups nk n).modNd nk f) :=
      .of_fronts (by rw [State.modNd_parts _ _ _ _ hf, State.dropGroups_fronts])
    split
    · rintro _ ⟨⟩
    · split
      · rintro _ ⟨⟩; exact h1.trans (hend s1)
      · repeat' split
        · rintro _ ⟨⟩; exact h1.trans (hgroups _ fun _ => rfl)
        · rintro _ ⟨⟩; exact h1
        · rintro _ ⟨⟩; exact h1.trans (hgroups _ fun _ => rfl)

theorem State.calms_exitCallable (s : State) (nk : Nat) (ex : Option (Bool × Option Nat)) : s.Calms (s.exitCallable nk ex) := by
  unfold State.exitCallable
  split
  · exact .refl s
  · exact .of_fronts (by simp)
  · exact .ite _ (.refl s) (.of_fronts (State.modNd_parts _ _ _ _ (by intro; rfl)))

theorem State.calms_exitAct {s u : State} {nk n age : Nat} {ex : Option (Bool × Option Nat)} {tag : Option Spawn}
    {ret : Option Opnd} (h : s.exitAct nk ex n age tag ret = some u) : s.Calms u := by
  revert u
  unfold State.exitAct
  split
  · next sp =>
    extract_lets k s1
    have h1 : s.Calms s1 := (State.Calms.of_fronts (State.tagEnd_fronts ..)).trans (State.calms_exitCallable ..)
    split
    · rintro _ ⟨⟩; exact h1.trans (.of_fronts (State.unspill_fronts ..))
    · rintro _ ⟨⟩; exact h1.trans (.of_fronts (by simp))
  · intro u h
    obtain ⟨t, ht, rfl⟩ := Option.map_eq_some_iff.1 h
    exact (State.calms_exitNode ht).trans (.of_fronts (State.unspill_fronts ..))

theorem State.calms_doAct {s u : State} {nk : Nat} {a : Act} (h : s.doAct nk a = some u) : s.Calms u := by
  cases a with
  | flip t =>
    simp only [State.doAct] at h
    split at h
    · cases h; exact .of_fronts (State.flipDo_fronts ..)
    · cases h
  | issue => exact State.calms_issueAct h
  | exit => exact State.calms_exitAct h

/-! ### The acts of a commit, one by one -/

theorem State.runActs_nil {s : State} {nk : Nat} (ha : (s.nd nk).acts = []) (fuel : Nat) :
    s.runActs nk (fuel + 1) = (s.modNd nk Node.unpark).kernelsCheck := by
  rw [State.runActs, ha]

theorem State.runActs_waits {s : State} {nk : Nat} {a : Act} {as : List Act} (ha : (s.nd nk).acts = a :: as)
    (h : s.doAct nk a = none) (fuel : Nat) : s.runActs nk (fuel + 1) = s := by
  simp only [State.runActs, ha, h]

theorem State.runActs_acts {s u : State} {nk : Nat} {a : Act} {as : List Act} (ha : (s.nd nk).acts = a :: as)
    (h : s.doAct nk a = some u) (fuel : Nat) :
    s.runActs nk (fuel + 1) = (u.modNd nk fun n => { n with acts := n.acts.drop 1 }).runActs nk fuel := by
  simp only [State.runActs, ha, h]

/-- A list that is kept or gone is gone, when it was empty. -/
theorem gone_of_nil {α : Type} {x y : List α} (h : y = x ∨ y = []) (hx : x = []) : y = [] := by
  rcases h with rfl | rfl
  · exact hx
  · rfl

theorem State.Calms.acts_nil {s t : State} {nk : Nat} (h : s.Calms t) (hs : (s.nd nk).acts = []) : (t.nd nk).acts = [] :=
  gone_of_nil (h.fronts nk).acts hs

theorem State.Calms.parked_nil {s t : State} {nk : Nat} (h : s.Calms t) (hs : (s.nd nk).parked = []) : (t.nd nk).parked = [] :=
  gone_of_nil (h.fronts nk).parked hs

theorem State.Calms.callable {s t : State} {nk : Nat} (h : s.Calms t) (hs : (s.nd nk).callable = false) :
    (t.nd nk).callable = false := by
  have e : (t.nd nk).asg = (s.nd nk).asg ∨ (t.nd nk).asg = none := (h.fronts nk).asg
  unfold Node.callable at *
  rcases e with e | e <;> rw [e]
  · exact hs
  · rfl

/-- A node that is not callable stays so while its commit goes on. -/
theorem State.runActs_callable {nk : Nat} (fuel : Nat) : ∀ {s : State}, (s.nd nk).callable = false →
    ((s.runActs nk fuel).nd nk).callable = false := by
  induction fuel with
  | zero => exact id
  | succ fuel ih =>
    intro s hs
    cases ha : (s.nd nk).acts with
    | nil =>
      rw [State.runActs_nil ha]
      refine (State.calms_kernelsCheck _).callable ?_
      rw [State.nd_modNd_same]
      unfold Node.unpark
      split <;> exact hs
    | cons a as =>
      cases hd : s.doAct nk a with
      | none => rw [State.runActs_waits ha hd]; exact hs
      | some u =>
        rw [State.runActs_acts ha hd]
        refine ih ?_
        rw [State.nd_modNd_same]
        exact (State.calms_doAct hd).callable hs

theorem State.goOn_callable {s : State} {nk : Nat} (hs : (s.nd nk).callable = false) : ((s.goOn nk).nd nk).callable = false :=
  State.runActs_callable _ hs

/-! ### The last act of a commit -/

/-- What the node's last act leaves when it is done, and whatever commit was set aside comes next. -/
def State.afterLast (u : State) (nk : Nat) : State :=
  ((u.modNd nk fun n => { n with acts := n.acts.drop 1 }).modNd nk Node.unpark).kernelsCheck

section
variable {s u : State} {nk : Nat} {a : Act} (ha : (s.nd nk).acts = [a])
include ha

theorem State.goOn_last_waits (h : s.doAct nk a = none) : s.goOn nk = s := by
  rw [State.goOn, State.runActs_waits ha h]

theorem State.drop_last_acts (hc : s.Calms u) : (u.nd nk).acts.drop 1 = [] := by
  have e : (u.nd nk).acts = (s.nd nk).acts ∨ (u.nd nk).acts = [] := (hc.fronts nk).acts
  rcases e with e | e <;> simp [e, ha]

theorem State.goOn_last (h : s.doAct nk a = some u) (hc : s.Calms u) : s.goOn nk = u.afterLast nk := by
  rw [State.goOn, State.runActs_acts ha h, ha, List.length_singleton, State.runActs_nil]
  · rfl
  · rw [State.nd_modNd_same]
    exact State.drop_last_acts ha hc

/-- With no commit set aside, or for a node that is not callable, nothing is left to be set aside. -/
theorem State.afterLast_over (hc : s.Calms u) (h : (s.nd nk).callable = false ∨ (s.nd nk).parked = []) :
    ((u.afterLast nk).nd nk).acts = [] ∨ ((u.afterLast nk).nd nk).callable = false := by
  have hk := State.calms_kernelsCheck ((u.modNd nk fun n => { n with acts := n.acts.drop 1 }).modNd nk Node.unpark)
  rcases h with h | h
  · refine .inr (hk.callable ?_)
    rw [State.nd_modNd_same, State.nd_modNd_same]
    unfold Node.unpark
    split <;> exact hc.callable h
  · refine .inl (hk.acts_nil ?_)
    rw [State.nd_modNd_same, State.nd_modNd_same]
    unfold Node.unpark
    have hp := hc.parked_nil h
    simp [hp, State.drop_last_acts ha hc]

end

end Sys2Proof.Machine
end

