-- ==== Sys2Proof/Proofs/ReleaseFrame.lean ====
section
/-!
SUPPORT. What the release of a commit leaves alone (R39): the cores of the nodes, and the node registers below the counters.
-/

namespace Sys2Proof.Machine

/-! ### The node registers below the counters (R354, R429) -/

/-- A node register below the counters. -/
def lowRegs (t : Tab W64) (nk n : Nat) : W64 := if n < 0x500 then Tab.get (srReset n) t ((256 + nk) * 2048 + n) else 0

theorem nodeReg_eq_lowRegs (s : State) (nk : Nat) {n : Nat} (hn : n < 0x500) : nodeReg s nk n = lowRegs s.sr nk n :=
  (if_pos hn).symm

@[simp] theorem ite_sr (c : Prop) [Decidable c] (a b : State) : (if c then a else b).sr = if c then a.sr else b.sr :=
  apply_ite State.sr c a b

@[simp] theorem ite_lowRegs (c : Prop) [Decidable c] (a b : Tab W64) :
    lowRegs (if c then a else b) = if c then lowRegs a else lowRegs b := apply_ite lowRegs c a b

/-- A step that a fold repeats leaves the system registers alone. -/
def KeepsSr {α : Type} (f : State → α → State) : Prop := ∀ s a, (f s a).sr = s.sr

@[simp] theorem keepsSr_iff {α : Type} (f : State → α → State) : KeepsSr f ↔ ∀ s a, (f s a).sr = s.sr := Iff.rfl

@[simp] theorem foldl_sr {α : Type} (f : State → α → State) (l : List α) (s : State) (hf : KeepsSr f) :
    (l.foldl f s).sr = s.sr := foldl_keeps State.sr f hf l s

/-- A counter is written at the odd number after its selector, from 0x501. -/
@[simp] theorem countAt_lowRegs (s : State) (part : Nat) (copies : List Nat) (ev amt : Nat) :
    lowRegs (countAt s part copies ev amt).sr = lowRegs s.sr := by
  unfold countAt
  refine foldl_keeps (fun s => lowRegs s.sr) _ (fun s e => ?_) _ _
  funext nk n
  dsimp only
  split
  · next hc =>
    simp only [Bool.and_eq_true, decide_eq_true_eq] at hc
    unfold lowRegs
    split
    · exact srGet_srSet_other s _ _ (256 + nk) n _ (by omega)
    · rfl
  · rfl

@[simp] theorem countEvent_lowRegs (s : State) (part c ev amt : Nat) : lowRegs (countEvent s part c ev amt).sr = lowRegs s.sr :=
  countAt_lowRegs ..
@[simp] theorem State.post_sr (s : State) (m : Parcel) : (s.post m).sr = s.sr := by unfold State.post; split <;> rfl
@[simp] theorem State.outAdd_sr (s : State) (nk gn : Nat) : (s.outAdd nk gn).sr = s.sr := rfl
@[simp] theorem State.outSub_sr (s : State) (nk gn : Nat) : (s.outSub nk gn).sr = s.sr := rfl
@[simp] theorem State.dropReplies_sr (s : State) (c : Nat) (ts : List Tok) : (s.dropReplies c ts).sr = s.sr := by
  simp [State.dropReplies]
@[simp] theorem State.modAcc_sr (s : State) (nk id : Nat) (f : Acc → Acc) : (s.modAcc nk id f).sr = s.sr := rfl
@[simp] theorem State.sendDone_sr (s : State) (nk : Nat) (a : Acc) : (s.sendDone nk a).sr = s.sr := by
  unfold State.sendDone; split <;> rfl
@[simp] theorem State.accDone_sr (s : State) (nk : Nat) (a : Acc) : (s.accDone nk a).sr = s.sr := by simp [State.accDone]
@[simp] theorem writeUnder_sr (s : State) (k n v : Nat) (slot : Option Nat) : (writeUnder s k n v slot).sr = s.sr := by
  unfold writeUnder; dsimp only
  repeat' split
  all_goals simp
@[simp] theorem State.carryTok_sr (s : State) (nk to_ : Nat) (t : Tok) : (s.carryTok nk to_ t).sr = s.sr := by
  simp [State.carryTok]
@[simp] theorem State.deliverQ_lowRegs (s : State) (nk q : Nat) : lowRegs (s.deliverQ nk q).sr = lowRegs s.sr := by
  unfold State.deliverQ; split
  · rfl
  · refine foldl_keeps (fun s => lowRegs s.sr) _ (fun s t => ?_) _ _
    dsimp only; split
    · simp
    · repeat' split
      all_goals simp
    · rfl
@[simp] theorem State.tokFault_sr (s : State) (c : Nat) (t : Tok) (cz : Cause) (aux va spc : Nat) :
    (s.tokFault c t cz aux va spc).sr = s.sr := by
  unfold State.tokFault; dsimp only; split <;> rfl
@[simp] theorem State.unspillOne_sr (s : State) (c : Nat) (t : Tok) : (s.unspillOne c t).sr = s.sr := by
  unfold State.unspillOne; dsimp only
  repeat' split
  all_goals simp
@[simp] theorem State.unspill_sr (s : State) (c : Nat) : (s.unspill c).sr = s.sr := by simp [State.unspill]

/-! ### The release of held effects (R39, R46, R97, R189) -/

@[simp] theorem State.enqueue_cores (s : State) (nk q : Nat) (o : Opnd) (kd : Kd) :
    partsOf Node.core (s.enqueue nk q o kd).nodes = partsOf Node.core s.nodes := by
  simp [State.enqueue, State.reserve]
@[simp] theorem State.enqueue_lowRegs (s : State) (nk q : Nat) (o : Opnd) (kd : Kd) :
    lowRegs (s.enqueue nk q o kd).sr = lowRegs s.sr := by
  simp [State.enqueue, State.reserve, State.fillPlace]
@[simp] theorem State.dropAhead_cores (s : State) (nk k : Nat) : partsOf Node.core (s.dropAhead nk k).nodes = partsOf Node.core s.nodes := by
  simp [State.dropAhead]
@[simp] theorem State.endReserve_cores (s : State) (nk : Nat) (a : Acc) :
    partsOf Node.core (s.endReserve nk a).nodes = partsOf Node.core s.nodes := by
  have hfar (s : State) (l : List Nat) (f : State → Nat → State)
      (hf : ∀ s j, partsOf Node.core (f s j).nodes = partsOf Node.core s.nodes) :
      partsOf Node.core (l.foldl f s).nodes = partsOf Node.core s.nodes := foldl_parts _ f l s hf
  unfold State.endReserve
  extract_lets far nw s1 s2 s3
  have h1 : partsOf Node.core s1.nodes = partsOf Node.core s.nodes := foldl_parts _ _ _ _ (by simp)
  split
  · rw [State.accDone_cores]; exact h1
  · rw [foldl_parts, State.modAcc_cores]
    · exact h1
    · intro s j
      dsimp only; split
      · rfl
      · simp
@[simp] theorem State.endReserve_sr (s : State) (nk : Nat) (a : Acc) : (s.endReserve nk a).sr = s.sr := by
  unfold State.endReserve
  extract_lets far nw s1 s2 s3
  have h1 : s1.sr = s.sr := foldl_sr _ _ _ (by simp [State.dropAhead])
  split
  · rw [State.accDone_sr]; exact h1
  · rw [foldl_sr, State.modAcc_sr]
    · exact h1
    · intro s j
      dsimp only; split
      · rfl
      · simp
@[simp] theorem State.releaseAccs_cores (s : State) (nk age : Nat) :
    partsOf Node.core (s.releaseAccs nk age).nodes = partsOf Node.core s.nodes := by
  unfold State.releaseAccs
  refine foldl_parts _ _ _ _ fun s a => ?_
  dsimp only
  repeat' split
  all_goals simp
@[simp] theorem State.releaseAccs_sr (s : State) (nk age : Nat) : (s.releaseAccs nk age).sr = s.sr := by
  unfold State.releaseAccs
  refine foldl_sr _ _ _ fun s a => ?_
  dsimp only
  repeat' split
  all_goals simp

theorem State.commitActs_cores (nk : Nat) (v : Inv) (tags : List (Nat × Nat × Nat)) (hs : List Held) :
    ∀ (s : State) (cfgs : List (Nat × V512)),
      partsOf Node.core (s.commitActs nk v tags cfgs hs).1.nodes = partsOf Node.core s.nodes := by
  induction hs with
  | nil => intro s cfgs; rfl
  | cons h hs ih =>
    intro s cfgs
    cases h
    case cmd ix i l r q =>
      rw [State.commitActs]; dsimp only; rw [ih]
      split
      · rfl
      · simp [State.reserve]
    all_goals exact ih s cfgs

theorem State.commitActs_sr (nk : Nat) (v : Inv) (tags : List (Nat × Nat × Nat)) (hs : List Held) :
    ∀ (s : State) (cfgs : List (Nat × V512)), (s.commitActs nk v tags cfgs hs).1.sr = s.sr := by
  induction hs with
  | nil => intro s cfgs; rfl
  | cons h hs ih =>
    intro s cfgs
    cases h
    case cmd ix i l r q =>
      rw [State.commitActs]; dsimp only; rw [ih]
      split <;> rfl
    all_goals exact ih s cfgs

@[simp] theorem State.freeTakes_cores (s : State) (nk : Nat) (v : Inv) :
    partsOf Node.core (s.freeTakes nk v).nodes = partsOf Node.core s.nodes := by
  unfold State.freeTakes
  extract_lets taken
  rw [State.modCl_nodes]
  exact map_parts _ s.nodes (fun n => { n with outq := n.outq.filter fun t =>
    !(t.o.isSome && n.wires.any fun w => w.q = t.q && w.nk = nk && taken w.ix w.pt t.place) }) fun _ => rfl
@[simp] theorem State.freeTakes_sr (s : State) (nk : Nat) (v : Inv) : (s.freeTakes nk v).sr = s.sr := rfl
@[simp] theorem State.freeOperands_cores (s : State) (nk : Nat) (v : Inv) :
    partsOf Node.core (s.freeOperands nk v).nodes = partsOf Node.core s.nodes := by
  simp [State.freeOperands]
@[simp] theorem State.freeOperands_lowRegs (s : State) (nk : Nat) (v : Inv) :
    lowRegs (s.freeOperands nk v).sr = lowRegs s.sr := by
  simp [State.freeOperands]
@[simp] theorem State.pruneAccs_sr (s : State) (nk : Nat) : (s.pruneAccs nk).sr = s.sr := rfl

end Sys2Proof.Machine
end

