-- ==== Sys2Proof/Proofs/CommitsRelease.lean ====
section
/-!
PROOF. A commit releases what its invocation held at one point (R38, R39, R41, R189): what a released invocation leaves of its node,
part by part, and what is left to be issued.
-/

namespace Sys2Proof.Machine

/-! ### Sorted lists -/

theorem mem_insertBy {α : Type} (lt : α → α → Bool) (x y : α) (l : List α) : y ∈ insertBy lt x l ↔ y = x ∨ y ∈ l := by
  induction l with
  | nil => simp [insertBy]
  | cons a l ih =>
    unfold insertBy
    split
    · simp
    · simp only [List.mem_cons, ih]
      exact or_left_comm

theorem mem_sortBy {α : Type} (lt : α → α → Bool) (y : α) (l : List α) : y ∈ sortBy lt l ↔ y ∈ l := by
  have hfold (l a : List α) : y ∈ l.foldl (fun a x => insertBy lt x a) a ↔ y ∈ a ∨ y ∈ l := by
    induction l generalizing a with
    | nil => simp
    | cons x l ih =>
      rw [List.foldl_cons, ih, mem_insertBy, List.mem_cons, or_comm (a := y = x), or_assoc]
  exact (hfold l []).trans (by simp)

theorem Inv.mem_sorted (v : Inv) (h : Held) : h ∈ v.sorted ↔ h ∈ v.held := mem_sortBy ..

/-! ### Globals (R36, R75) -/

/-- A held write of a global register takes effect at the commit. -/
def Node.putHeld (n : Node) : Held → Node
  | .glob _ f k x => n.putGlobal f k x
  | _ => n

/-- The globals that a commit writes: the held ones, and the link of a CALL. -/
def Node.putLink (n : Node) : Option (Bool × Option Nat) → Node
  | some (true, _) => n.putGlobal .g 63 (sc64 n.linkAddr)
  | _ => n

theorem Node.putGlobal_g_same (n : Node) (k : Nat) (x : W64) : Tab.get 0 (n.putGlobal .g k (.sc x)).g k = x := by
  simp [Node.putGlobal, Tab.get_putD_same]

theorem Node.putGlobal_g_other (n : Node) {f : GFile} {k num : Nat} (y : Val) (h : f = .g → k ≠ num) :
    Tab.get 0 (n.putGlobal f k y).g num = Tab.get 0 n.g num := by
  unfold Node.putGlobal
  dsimp only
  split
  · exact Tab.get_putD_other _ _ _ _ _ (Ne.symm (h rfl))
  · rfl
  · rfl
  · rfl

/-- A global that no held effect writes keeps its value. -/
theorem Node.foldl_putHeld_g_other (hs : List Held) (n : Node) {num : Nat} (h : ∀ ix y, Held.glob ix .g num y ∉ hs) :
    Tab.get 0 (hs.foldl Node.putHeld n).g num = Tab.get 0 n.g num := by
  induction hs generalizing n with
  | nil => rfl
  | cons e hs ih =>
    rw [List.foldl_cons, ih _ fun ix y hm => h ix y (List.mem_cons_of_mem _ hm)]
    cases e with
    | glob ix f k y =>
      refine Node.putGlobal_g_other n y fun hf hk => h ix y ?_
      rw [← hf, ← hk]
      exact List.mem_cons_self
    | qtok | cmd | exit => rfl

/-- A global that the held effects write, all with one value, has it. -/
theorem Node.foldl_putHeld_g_same (hs : List Held) (n : Node) {num : Nat} {x : W64}
    (hall : ∀ ix y, Held.glob ix .g num y ∈ hs → y = .sc x) (h : (∃ ix y, Held.glob ix .g num y ∈ hs) ∨ Tab.get 0 n.g num = x) :
    Tab.get 0 (hs.foldl Node.putHeld n).g num = x := by
  induction hs generalizing n with
  | nil => simpa using h
  | cons e hs ih =>
    rw [List.foldl_cons]
    refine ih _ (fun ix y hm => hall ix y (List.mem_cons_of_mem _ hm)) ?_
    by_cases hm : ∃ ix y, Held.glob ix .g num y ∈ hs
    · exact .inl hm
    refine .inr ?_
    have hn : (∃ ix y, Held.glob ix .g num y = e) ∨ Tab.get 0 n.g num = x := by
      rcases h with ⟨ix, y, h⟩ | h
      · rcases List.mem_cons.1 h with h | h
        · exact .inl ⟨ix, y, h⟩
        · exact absurd ⟨ix, y, h⟩ hm
      · exact .inr h
    cases e with
    | glob ix f k y =>
      by_cases hk : f = .g ∧ k = num
      · obtain ⟨rfl, rfl⟩ := hk
        obtain rfl := hall ix y List.mem_cons_self
        exact Node.putGlobal_g_same ..
      · refine (Node.putGlobal_g_other n y fun hf hn => hk ⟨hf, hn⟩).trans (hn.resolve_left ?_)
        rintro ⟨jx, z, ⟨⟩⟩
        exact hk ⟨rfl, rfl⟩
    | qtok | cmd | exit => exact hn.resolve_left (by rintro ⟨_, _, ⟨⟩⟩)

/-- What a write of globals leaves alone. -/
structure SamePlan (m n : Node) : Prop where
  front : n.front = m.front
  invs : n.invs = m.invs
  hdr : n.hdr = m.hdr
  pc : n.pc = m.pc

theorem SamePlan.refl (n : Node) : SamePlan n n := ⟨rfl, rfl, rfl, rfl⟩

theorem SamePlan.trans {l m n : Node} (h : SamePlan l m) (g : SamePlan m n) : SamePlan l n :=
  ⟨g.front.trans h.front, g.invs.trans h.invs, g.hdr.trans h.hdr, g.pc.trans h.pc⟩

theorem SamePlan.linkAddr {m n : Node} (h : SamePlan m n) : n.linkAddr = m.linkAddr := by
  unfold Node.linkAddr; rw [h.hdr, h.pc]

theorem SamePlan.putGlobal (n : Node) (f : GFile) (k : Nat) (y : Val) : SamePlan n (n.putGlobal f k y) := by
  unfold Node.putGlobal; dsimp only
  split <;> exact ⟨rfl, rfl, rfl, rfl⟩

theorem SamePlan.putHeld (n : Node) (h : Held) : SamePlan n (n.putHeld h) := by
  cases h with
  | glob ix f k y => exact .putGlobal ..
  | qtok | cmd | exit => exact .refl n

theorem SamePlan.foldl_putHeld (hs : List Held) (n : Node) : SamePlan n (hs.foldl Node.putHeld n) := by
  induction hs generalizing n with
  | nil => exact .refl n
  | cons h hs ih => exact (SamePlan.putHeld n h).trans (ih _)

theorem SamePlan.putLink (n : Node) (ex : Option (Bool × Option Nat)) : SamePlan n (n.putLink ex) := by
  unfold Node.putLink
  split
  · exact .putGlobal ..
  · exact .refl n

/-- The node whose globals the commit of `v` has written. -/
def Node.putGlobals (n : Node) (v : Inv) : Node := (v.sorted.foldl Node.putHeld n).putLink v.exitHeld

theorem SamePlan.putGlobals (n : Node) (v : Inv) : SamePlan n (n.putGlobals v) :=
  (SamePlan.foldl_putHeld ..).trans (SamePlan.putLink ..)

theorem Node.putLink_g_other (n : Node) {ex : Option (Bool × Option Nat)} {num : Nat} (h : num = 63 → ∀ d, ex ≠ some (true, d)) :
    Tab.get 0 (n.putLink ex).g num = Tab.get 0 n.g num := by
  unfold Node.putLink
  split
  · exact Node.putGlobal_g_other _ _ fun _ hn => h hn.symm _ rfl
  · rfl

theorem Node.putGlobals_g_held (n : Node) {v : Inv} {ix num : Nat} {x : W64} (hm : Held.glob ix .g num (.sc x) ∈ v.held)
    (hall : ∀ jx y, Held.glob jx .g num y ∈ v.held → y = .sc x) (hl : num = 63 → ∀ d, v.exitHeld ≠ some (true, d)) :
    Tab.get 0 (n.putGlobals v).g num = x := by
  rw [Node.putGlobals, Node.putLink_g_other _ hl]
  exact Node.foldl_putHeld_g_same _ _ (fun jx y h => hall jx y ((v.mem_sorted _).1 h)) (.inl ⟨ix, _, (v.mem_sorted _).2 hm⟩)

theorem Node.putGlobals_g_kept (n : Node) {v : Inv} {num : Nat} (hn : ∀ jx y, Held.glob jx .g num y ∉ v.held)
    (hl : num = 63 → ∀ d, v.exitHeld ≠ some (true, d)) : Tab.get 0 (n.putGlobals v).g num = Tab.get 0 n.g num := by
  rw [Node.putGlobals, Node.putLink_g_other _ hl]
  exact Node.foldl_putHeld_g_other _ _ fun jx y h => hn jx y ((v.mem_sorted _).1 h)

theorem Node.putGlobals_g_link (n : Node) {v : Inv} {d : Option Nat} (h : v.exitHeld = some (true, d)) :
    Tab.get 0 (n.putGlobals v).g 63 = BitVec.ofNat 64 (n.putGlobals v).linkAddr := by
  rw [Node.putGlobals, (SamePlan.putLink _ v.exitHeld).linkAddr, h]
  exact Node.putGlobal_g_same ..

/-! ### What is left to be issued (R41, R189) -/

/-- The command that a held effect is. -/
def Held.cmdOf : Held → Option (Nat × Instr)
  | .cmd ix i _ _ _ => some (ix, i)
  | _ => none

theorem heldCmds_eq (v : Inv) : heldCmds v = v.sorted.filterMap Held.cmdOf := rfl

theorem State.commitActs_acts (nk : Nat) (v : Inv) (tags : List (Nat × Nat × Nat)) (hs : List Held) :
    ∀ (s : State) (cfgs : List (Nat × V512)), (s.commitActs nk v tags cfgs hs).2.map actCmd = (hs.filterMap Held.cmdOf).map some := by
  induction hs with
  | nil => intro s cfgs; rfl
  | cons h hs ih =>
    intro s cfgs
    cases h
    case cmd ix i l r q =>
      rw [State.commitActs]; dsimp only
      rw [List.map_cons, ih]
      rfl
    all_goals exact ih s cfgs

/-- The act issues a TRAP. -/
def Act.traps (a : Act) : Bool := (actCmd a).any fun e => isTrap e.2

/-- The acts of a commit whose commands are `cs`: the flips, the other commands, the exit, and one TRAP. -/
def actsFrom (flips cs : List Act) (exit : Act) : List Act :=
  flips ++ cs.filter (fun a => !a.traps) ++ [exit] ++ (cs.filter Act.traps).take 1

section
variable {cs : List Act} {es : List (Nat × Instr)} (h : cs.map actCmd = es.map some)
include h

theorem filterMap_of_map_some : cs.filterMap actCmd = es := by
  have := congrArg (List.filterMap id) h
  simpa [List.filterMap_map] using this

theorem map_filter_of_map_some (p : Option (Nat × Instr) → Bool) :
    (cs.filter (p ∘ actCmd)).map actCmd = (es.filter (p ∘ some)).map some := by
  rw [← List.filter_map, ← List.filter_map, h]

end

theorem actsFrom_cmds {flips cs : List Act} {es : List (Nat × Instr)} {exit : Act} (hf : ∀ a, a ∈ flips → actCmd a = none)
    (hx : actCmd exit = none) (h : cs.map actCmd = es.map some) :
    (actsFrom flips cs exit).filterMap actCmd = es.filter (fun e => !isTrap e.2) ++ (es.filter fun e => isTrap e.2).take 1 := by
  have hflips : flips.filterMap actCmd = [] := List.filterMap_eq_nil_iff.2 hf
  have hothers : (cs.filter fun a => !a.traps).map actCmd = (es.filter fun e => !isTrap e.2).map some :=
    map_filter_of_map_some h fun o => !o.any fun (e : Nat × Instr) => isTrap e.2
  have htraps : (cs.filter Act.traps).map actCmd = (es.filter fun e => isTrap e.2).map some :=
    map_filter_of_map_some h fun o => o.any fun (e : Nat × Instr) => isTrap e.2
  have htrap : ((cs.filter Act.traps).take 1).map actCmd = ((es.filter fun e => isTrap e.2).take 1).map some := by
    rw [List.map_take, List.map_take, htraps]
  simp [actsFrom, hflips, hx, filterMap_of_map_some hothers, filterMap_of_map_some htrap]

theorem State.actCmd_flipsOf (s : State) (nk age : Nat) (a : Act) (h : a ∈ s.flipsOf nk age) : actCmd a = none := by
  obtain ⟨b, -, rfl⟩ := List.mem_map.1 h
  rfl

theorem State.flip_mem_flipsOf {s : State} {nk age : Nat} {a : Acc} (h : a ∈ (s.nd nk).accsOf age) (ho : a.op = .tgive)
    (hoff : a.off = false) : .flip a.tile ∈ s.flipsOf nk age :=
  List.mem_map.2 ⟨a, List.mem_filter.2 ⟨h, by simp [ho, hoff]⟩, rfl⟩

/-! ### The release (R39, R189) -/

/-- The exit that a commit has still to act on. -/
def Inv.exitAct (v : Inv) : Act :=
  .exit v.exitHeld v.n v.age (v.spawn.map fun sp => if v.fretHeld then { sp with record := none } else sp) v.retHeld

theorem State.nd_foldl_putHeld (nk : Nat) (hs : List Held) : ∀ s : State,
    (hs.foldl (fun s h => match h with | .glob _ f k x => s.modNd nk fun n => n.putGlobal f k x | _ => s) s).nd nk =
      hs.foldl Node.putHeld (s.nd nk) := by
  induction hs with
  | nil => intro s; rfl
  | cons h hs ih =>
    intro s
    rw [List.foldl_cons, ih, List.foldl_cons]
    cases h with
    | glob ix f k x => dsimp only; rw [State.nd_modNd_same]; rfl
    | qtok | cmd | exit => rfl

theorem State.nd_putLink (s : State) (nk : Nat) (ex : Option (Bool × Option Nat)) :
    (match ex with | some (true, _) => s.modNd nk fun n => n.putGlobal .g 63 (sc64 n.linkAddr) | _ => s).nd nk =
      (s.nd nk).putLink ex := by
  rcases ex with _ | ⟨_ | _, d⟩
  · rfl
  · rfl
  · exact State.nd_modNd_same ..

theorem Act.traps_eq (a : Act) : a.traps = match a with | .issue _ (.trap _) _ _ _ _ _ _ _ _ => true | _ => false := by
  split
  · rfl
  · next h =>
    cases a with
    | issue ix i =>
      change isTrap i = false
      unfold isTrap
      split
      · exact (h _ _ _ _ _ _ _ _ _ _ rfl).elim
      · rfl
    | flip | exit => rfl

theorem Act.not_traps_eq (a : Act) : (!a.traps) = match a with | .issue _ (.trap _) _ _ _ _ _ _ _ _ => false | _ => true := by
  rw [Act.traps_eq]
  split <;> rfl

/-- The parts of the released invocation's node, its globals written: the invocation has left the window, and its acts are to come. -/
def Node.releasedCore (n : Node) (v : Inv) (acts : List Act) : NodeCore :=
  { (n.putGlobals v).core with
    front := { n.front with acts := acts }, invs := n.invs.filter fun u => u.age != v.age }

theorem Node.core_released {w n : Node} {v : Inv} (hw : w.core = (n.putGlobals v).core) (acts : List Act) :
    ({ w with invs := w.invs.filter fun u => u.age != v.age, acts := acts } : Node).core = n.releasedCore v acts := by
  have hp := SamePlan.putGlobals n v
  have hfront : w.front = n.front := (congrArg NodeCore.front hw).trans hp.front
  have hinvs : w.invs = n.invs := (congrArg NodeCore.invs hw).trans hp.invs
  have hrest : ({ w.core with front := { n.front with acts := acts }, invs := n.invs.filter fun u => u.age != v.age } : NodeCore) =
      n.releasedCore v acts := by rw [hw]; rfl
  rw [← hrest, ← hfront, ← hinvs]
  rfl

theorem State.releaseInv_core (s : State) (nk : Nat) (v : Inv) (tags : List (Nat × Nat × Nat)) :
    ∃ cs : List Act, cs.map actCmd = (heldCmds v).map some
      ∧ ((s.releaseInv nk v tags).nd nk).core = (s.nd nk).releasedCore v (actsFrom (s.flipsOf nk v.age) cs v.exitAct) := by
  unfold State.releaseInv
  extract_lets hs flips s1 s2 s3 s4 s5 ca traps others tag s6
  refine ⟨ca.2, State.commitActs_acts .., ?_⟩
  have h1 : s1.nd nk = s.nd nk := by dsimp only [s1]; split <;> rfl
  have h2 : s2.nd nk = hs.foldl Node.putHeld (s.nd nk) := (State.nd_foldl_putHeld ..).trans (by rw [h1])
  have h3 : s3.nd nk = (s.nd nk).putGlobals v := by
    rw [Node.putGlobals, ← h2]; exact State.nd_putLink ..
  have h4 : partsOf Node.core s4.nodes = partsOf Node.core s3.nodes :=
    foldl_parts _ _ _ _ fun s h => by split <;> simp
  have hca : partsOf Node.core ca.1.nodes = partsOf Node.core s3.nodes := by
    rw [State.commitActs_cores, State.releaseAccs_cores, h4]
  have hca : (ca.1.nd nk).core = ((s.nd nk).putGlobals v).core := by
    rw [← h3]; exact congrFun hca nk
  have hend : ((((s6.freeTakes nk v).freeOperands nk v).pruneAccs nk).nd nk).core = (s6.nd nk).core := by
    refine congrFun (?_ : partsOf Node.core _ = partsOf Node.core s6.nodes) nk
    rw [State.pruneAccs_cores, State.freeOperands_cores, State.freeTakes_cores]
  have htraps : traps = ca.2.filter Act.traps := List.filter_congr fun a _ => (Act.traps_eq a).symm
  have hothers : others = ca.2.filter fun a => !a.traps := List.filter_congr fun a _ => (Act.not_traps_eq a).symm
  have hacts : flips ++ others ++ [.exit v.exitHeld v.n v.age tag v.retHeld] ++ traps.take 1 = actsFrom flips ca.2 v.exitAct := by
    rw [htraps, hothers]; rfl
  rw [hend, State.nd_modNd_same, hacts]
  exact Node.core_released hca _

/-- FSTAT takes the flags of the invocation (R41). -/
theorem State.releaseInv_fstat (s : State) (nk : Nat) (v : Inv) (tags : List (Nat × Nat × Nat)) :
    (nodeReg (s.releaseInv nk v tags) nk 0x011).toNat = (nodeReg s nk 0x011).toNat ||| v.flags % 2 ^ 64 := by
  unfold State.releaseInv
  extract_lets hs flips s1 s2 s3 s4 s5 ca traps others tag s6
  have h1 : (nodeReg s1 nk 0x011).toNat = (nodeReg s nk 0x011).toNat ||| v.flags % 2 ^ 64 := by
    dsimp only [s1]
    split
    · next hf => rw [hf, Nat.zero_mod, Nat.or_zero]
    · unfold setNodeReg nodeReg
      rw [srGet_srSet_same, BitVec.toNat_ofNat, Nat.or_mod_two_pow, Nat.mod_eq_of_lt (BitVec.isLt _)]
  have h2 : s2.sr = s1.sr := foldl_sr _ _ _ fun s h => by split <;> rfl
  have h3 : s3.sr = s2.sr := by dsimp only [s3]; split <;> rfl
  have h4 : lowRegs s4.sr = lowRegs s3.sr := foldl_keeps (fun s => lowRegs s.sr) _ (fun s h => by split <;> simp) _ _
  have h6 : s6.sr = s4.sr := (State.commitActs_sr ..).trans (State.releaseAccs_sr ..)
  have hend : lowRegs ((((s6.freeTakes nk v).freeOperands nk v).pruneAccs nk)).sr = lowRegs s6.sr := by simp
  rw [nodeReg_eq_lowRegs _ _ (by decide), hend, h6, h4, h3, h2, ← nodeReg_eq_lowRegs _ _ (by decide), h1]

/-! ### The commit (R39) -/

/-- A node with no fault pending detects the one that is raised. -/
theorem State.detects_raise (s : State) (nk : Nat) (f : Pending) : Detects s (s.raise nk f) nk f.cause f.n f.ws := by
  intro hp
  refine ⟨{ f with at_ := s.now }, ?_, rfl, rfl, rfl, rfl, ?_⟩ <;> rw [State.raise, State.nd_modNd_same] <;> simp only [hp]

theorem State.mem_commitable (s : State) (nk : Nat) (v : Inv) :
    v ∈ s.commitable nk ↔ v ∈ s.completed nk ∧ s.setsLeft nk v = false ∧ s.outputHeld nk = false := by
  unfold State.commitable
  split
  · next h => simp [h]
  · next h => simp [h]

section
variable {s : State} {c p : Nat} (hlive : s.live (nkOf c p) = true) (hacts : (s.nd (nkOf c p)).acts = [])
include hlive hacts

theorem exec_invocationCommit_none {k : Nat} (hk : (s.commitable (nkOf c p))[k]? = none) :
    exec (.invocationCommit c p k) s = .next ((s.modNd (nkOf c p) Node.unpark).goOn (nkOf c p)) := by
  change execInvocationCommit c p k s = _
  simp [execInvocationCommit, hlive, hacts, hk]

theorem exec_invocationCommit_some {k : Nat} {v : Inv} (hk : (s.commitable (nkOf c p))[k]? = some v) :
    exec (.invocationCommit c p k) s = .next (s.commitInv (nkOf c p) v) := by
  change execInvocationCommit c p k s = _
  simp [execInvocationCommit, State.commitNext, hlive, hacts, hk]

end

section
variable {s : State} {nk : Nat} {v : Inv}
  (hexit : (s.nd nk).callable = true ∨ ((s.nd nk).hdr.map (·.stm)).getD false = true ∨ v.exitHeld ≠ none)

theorem State.commitInv_noExit (hcal : (s.nd nk).callable = false) (hstm : ((s.nd nk).hdr.map (·.stm)).getD false = false)
    (hx : v.exitHeld = none) : s.commitInv nk v = s.raise nk { cause := .noExit, n := v.n, ws := v.ws, age := v.age } := by
  unfold State.commitInv
  extract_lets n stm
  exact if_pos (by simp [n, stm, hcal, hstm, hx])

include hexit

theorem State.commitInv_stops {u : State} (h : s.secondPass nk v.age = .fault u ∨ s.secondPass nk v.age = .wait u) :
    s.commitInv nk v = u := by
  unfold State.commitInv
  extract_lets n stm
  rw [if_neg (by rcases hexit with h | h | h <;> simp [n, stm, h])]
  rcases h with h | h <;> rw [h]

theorem State.commitInv_passes {s1 : State} (h : s.secondPass nk v.age = .ok s1) :
    let x := s1.takeTags nk v.tags v.sorted
    s.commitInv nk v = if x.waits.isSome then
        x.s.modNd nk fun n => { n with invs := n.invs.map fun u =>
          if u.age = v.age then { u with tags := x.taken.map (·.2) ++ x.rest } else u }
      else ((x.rest.foldl (fun s t => s.poolReturn t.1 t.2) x.s).releaseInv nk v x.taken).goOn nk := by
  intro x
  unfold State.commitInv
  extract_lets n stm
  rw [if_neg (by rcases hexit with h | h | h <;> simp [n, stm, h])]
  rw [h]

end

/-- R39, R41, R75, R134: what a released invocation leaves of its node. -/
theorem State.releaseInv_releases (s : State) (nk : Nat) (v : Inv) (tags : List (Nat × Nat × Nat)) :
    let u := s.releaseInv nk v tags
    (u.nd nk).invs = (s.nd nk).invs.filter (fun x => x.age != v.age)
    ∧ (∀ num, Tab.get 0 (u.nd nk).g num = Tab.get 0 ((s.nd nk).putGlobals v).g num)
    ∧ (u.nd nk).linkAddr = ((s.nd nk).putGlobals v).linkAddr
    ∧ ∃ cs : List Act, cs.map actCmd = (heldCmds v).map some ∧ (u.nd nk).acts = actsFrom (s.flipsOf nk v.age) cs v.exitAct := by
  intro u
  obtain ⟨cs, hcs, hcore⟩ := s.releaseInv_core nk v tags
  have hcore : (u.nd nk).core = (s.nd nk).releasedCore v (actsFrom (s.flipsOf nk v.age) cs v.exitAct) := hcore
  clear_value u
  have hhdr : (u.nd nk).hdr = ((s.nd nk).putGlobals v).hdr := congrArg NodeCore.hdr hcore
  have hpc : (u.nd nk).pc = ((s.nd nk).putGlobals v).pc := congrArg NodeCore.pc hcore
  refine ⟨congrArg NodeCore.invs hcore, fun num => ?_, ?_, cs, hcs, congrArg (fun x : NodeCore => x.front.acts) hcore⟩
  · exact congrArg (fun x : NodeCore => Tab.get 0 x.g num) hcore
  · unfold Node.linkAddr; rw [hhdr, hpc]

theorem commitsReleaseTogetherR39 : CommitsReleaseTogetherR39 := by
  intro s c p nk n stm
  refine ⟨s.mem_commitable nk, fun k hl ha hk => exec_invocationCommit_none hl ha hk, fun k v hl ha hk => ?_⟩
  rw [exec_invocationCommit_some hl ha hk]
  refine ⟨fun hcal hstm hx => ?_, fun hexit => ⟨fun u hu => by rw [State.commitInv_stops hexit hu], fun s1 hs1 => ?_⟩⟩
  · rw [State.commitInv_noExit hcal hstm hx]
    exact ⟨_, rfl, rfl, State.detects_raise s nk _⟩
  · intro x s2
    rw [State.commitInv_passes hexit hs1]
    refine ⟨fun w hw => by simp only [x] at hw ⊢; simp [hw], fun hw => ?_⟩
    obtain ⟨hinvs, hg, hlink, cs, hcs, hacts⟩ := State.releaseInv_releases s2 nk v x.taken
    refine ⟨s2.releaseInv nk v x.taken, ?_, hinvs, State.releaseInv_fstat .., fun ix num y hm hall hl => ?_, fun num hn hl => ?_,
      fun d hd => ?_, ?_, fun a ham ho hoff => ?_, ?_⟩
    · simp only [x] at hw ⊢; simp [hw]; rfl
    · rw [hg]; exact Node.putGlobals_g_held _ hm hall hl
    · rw [hg]; exact Node.putGlobals_g_kept _ hn hl
    · rw [hg, hlink]; exact Node.putGlobals_g_link _ hd
    · rw [hacts]; exact actsFrom_cmds (s2.actCmd_flipsOf nk v.age) rfl hcs
    · rw [hacts]; simp [actsFrom, State.flip_mem_flipsOf ham ho hoff]
    · rw [hacts]; simp [actsFrom, Inv.exitAct]

end Sys2Proof.Machine
end

