-- ==== Sys2Proof/Proofs/CommitsIssue.lean ====
section
/-!
PROOF. What is left of a commit happens in its turn (R134, R141, R143, R150, R311, R356 to R360, R407, R409): what each act leaves, and
when it waits.
-/

namespace Sys2Proof.Machine

theorem nkOf_div_eight (c : Nat) {p : Nat} (hp : p < 8) : nkOf c p / 8 = c := by unfold nkOf; omega

/-! ### Flips (R134) -/

theorem mem_setIns (n x : Nat) (l : List Nat) : x ∈ setIns n l ↔ x ∈ l ∨ x = n := by
  induction l with
  | nil => simp [setIns]
  | cons m ms ih =>
    unfold setIns
    split
    · rw [List.mem_cons, or_comm]
    · split
      · next h => subst h; simp +contextual
      · rw [List.mem_cons, ih, List.mem_cons, or_assoc]

@[simp] theorem State.accDone_clusters (s : State) (nk : Nat) (a : Acc) : (s.accDone nk a).clusters = s.clusters := by
  unfold State.accDone State.sendDone
  dsimp only
  repeat' split
  all_goals rfl

theorem State.flipDo_engTiles (s : State) (nk t x : Nat) :
    x ∈ ((s.flipDo nk t).cl (nk / 8)).engTiles ↔ x ∈ (s.cl (nk / 8)).engTiles ∨ x = t := by
  have hcl : (s.flipDo nk t).clusters = (s.modCl (nk / 8) fun x => { x with engTiles := setIns t x.engTiles }).clusters :=
    foldl_keeps State.clusters _ (fun s a => s.accDone_clusters nk a) _ _
  have hcl : (s.flipDo nk t).cl (nk / 8) = (s.modCl (nk / 8) fun x => { x with engTiles := setIns t x.engTiles }).cl (nk / 8) :=
    congrArg (fun y : Tab Cluster => Tab.get {} y (nk / 8)) hcl
  rw [hcl, State.cl_modCl_same]
  exact mem_setIns ..

/-! ### TRAP (R386, R389, R409) -/

/-- A node that is faulted or ended stays so. -/
structure State.Settles (s t : State) : Prop where
  st : ∀ k, (s.nd k).st = .faulted ∨ (s.nd k).st = .ended → (t.nd k).st = (s.nd k).st

theorem State.Settles.refl (s : State) : s.Settles s := ⟨fun _ _ => rfl⟩

theorem State.Settles.trans {s t u : State} (h : s.Settles t) (g : t.Settles u) : s.Settles u where
  st k hk := (g.st k (by rw [h.st k hk]; exact hk)).trans (h.st k hk)

theorem State.Settles.foldl {α : Type} {f : State → α → State} (hf : ∀ (s : State) (a : α), s.Settles (f s a)) (l : List α)
    (s : State) : s.Settles (l.foldl f s) := by
  induction l generalizing s with
  | nil => exact .refl s
  | cons a l ih => exact (hf s a).trans (ih _)

theorem State.Settles.modNd {f : Node → Node} (s : State) (k : Nat)
    (hf : ∀ n : Node, n.st = .faulted ∨ n.st = .ended → (f n).st = n.st) : s.Settles (s.modNd k f) where
  st j hj := by
    by_cases hk : j = k
    · subst hk; rw [State.nd_modNd_same]; exact hf _ hj
    · rw [State.nd_modNd_other _ _ _ _ hk]

theorem State.settles_raise (s : State) (nk : Nat) (f : Pending) : s.Settles (s.raise nk f) :=
  .modNd s nk fun n hn => by
    dsimp only
    split
    · rcases hn with hn | hn <;> simp [hn]
    · split <;> rfl

theorem State.settles_tokFault (s : State) (c : Nat) (t : Tok) (cz : Cause) (aux va spc : Nat) :
    s.Settles (s.tokFault c t cz aux va spc) := by
  unfold State.tokFault; dsimp only
  split <;> exact State.settles_raise ..

theorem State.settles_unspillOne (s : State) (c : Nat) (t : Tok) : s.Settles (s.unspillOne c t) := by
  unfold State.unspillOne; dsimp only
  split
  · exact .refl s
  · split
    · split
      · exact .refl s
      · exact State.settles_tokFault ..
    · exact (State.Settles.modNd (f := fun n => { n with spill := n.spill.erase t }) s _ fun _ _ => rfl).trans ⟨fun _ _ => rfl⟩

theorem State.settles_unspill (s : State) (c : Nat) : s.Settles (s.unspill c) := by
  unfold State.unspill; dsimp only
  split
  · exact .refl s
  · exact .foldl (fun s t => s.settles_unspillOne c t) _ _

theorem nodeReg_setNodeRegs (g : Nat → W64) (nk : Nat) (s : State) {k m : Nat} (hm : k < m) :
    nodeReg ((List.range m).foldl (fun s k => setNodeReg s nk (0xd0 + k) (g k)) s) nk (0xd0 + k) = g k := by
  induction m with
  | zero => omega
  | succ m ih =>
    rw [List.range_succ, List.foldl_append]
    by_cases h : k = m
    · rw [h]; exact srGet_srSet_same ..
    · exact (srGet_srSet_other _ _ _ _ _ _ (by omega)).trans (ih (by omega))

theorem State.formRecord_sr (s : State) (nk : Nat) (f : Pending) (rst blk : Nat) : (s.formRecord nk f rst blk).sr =
    ((List.range 8).foldl (fun s' k => setNodeReg s' nk (0xd0 + k)
      (BitVec.ofNat 64 ((recordWords s nk f rst blk (Tab.get 0 s.faultSeq (s.nd nk).part)).getD k 0))) s).sr := by
  rw [State.formRecord]

theorem nodeReg_congr {s t : State} (h : s.sr = t.sr) (nk n : Nat) : nodeReg s nk n = nodeReg t nk n :=
  congrArg (fun r => Tab.get (srReset n) r ((256 + nk) * 2048 + n)) h

/-- The node's fault registers hold the words of its record (R388). -/
theorem nodeReg_formRecord (s : State) (nk : Nat) (f : Pending) (rst blk : Nat) {k : Nat} (hk : k < 8) :
    nodeReg (s.formRecord nk f rst blk) nk (0xd0 + k) =
      BitVec.ofNat 64 ((recordWords s nk f rst blk (Tab.get 0 s.faultSeq (s.nd nk).part)).getD k 0) := by
  rw [nodeReg_congr (s.formRecord_sr nk f rst blk)]
  generalize recordWords s nk f rst blk (Tab.get 0 s.faultSeq (s.nd nk).part) = ws
  exact nodeReg_setNodeRegs (fun k => BitVec.ofNat 64 (ws.getD k 0)) nk s hk

/-- The flag of a TRAP in the first word of its record (R386). -/
theorem recordWords_trp (s : State) (nk : Nat) (f : Pending) (rst blk seq : Nat) (ht : f.trp = true) (hd : f.drn = false)
    (hs : f.spc = 7) (hc : f.cause = .trap) : (recordWords s nk f rst blk seq).getD 0 0 / 2 ^ 14 % 2 = 1 := by
  simp only [recordWords, List.getD_cons_zero, ht, hd, hs, hc, causeCode, Bool.toNat_true, Bool.toNat_false]
  omega

/-- What a TRAP leaves of its node. -/
structure TrapTaken (s u : State) (nk num lv : Nat) : Prop where
  aux : (nodeReg u nk 0xd4).toNat = lv % 2 ^ 64
  trp : (nodeReg u nk 0xd0).toNat / 2 ^ 14 % 2 = 1
  ended : (s.nd nk).st = .ended → (u.nd nk).st = .ended
  taken : (s.nd nk).st ≠ .ended → (u.nd nk).st = .faulted ∧ (u.nd nk).gn = ((s.nd nk).gn + 1) % 16
    ∧ (u.nd nk).rst = (if (s.nd nk).next = 0 then 0 else (num + 1) % 2 ^ 32)

theorem State.trapTake_taken (s : State) (nk ix n ws age aux x : Nat) : TrapTaken s (s.trapTake nk ix n ws age aux x) nk n aux := by
  unfold State.trapTake
  extract_lets nd f ended rst s1 s2
  have hword {k : Nat} (hk : k < 8) : ∃ r b q, nodeReg s2 nk (0xd0 + k) = BitVec.ofNat 64 ((recordWords s1 nk f r b q).getD k 0) :=
    ⟨_, _, _, nodeReg_formRecord _ _ _ _ _ hk⟩
  have haux : (nodeReg s2 nk 0xd4).toNat = aux % 2 ^ 64 := by
    obtain ⟨r, b, q, h⟩ := hword (k := 4) (by decide)
    rw [h]
    exact BitVec.toNat_ofNat ..
  have htrp : (nodeReg s2 nk 0xd0).toNat / 2 ^ 14 % 2 = 1 := by
    obtain ⟨r, b, q, h⟩ := hword (k := 0) (by decide)
    rw [h, BitVec.toNat_ofNat]
    have := recordWords_trp s1 nk f r b q rfl rfl rfl rfl
    omega
  have hnd2 : s2.nd nk = s1.nd nk := congrArg (fun t : Tab Node => Tab.get ({} : Node) t nk) (State.formRecord_nodes s1 nk f _ _)
  have hgn : (s1.nd nk).gn = (s.nd nk).gn := by
    dsimp only [s1]
    split
    · rfl
    · exact congrArg NodeFront.gn (congrFun (State.discardFrom_fronts s nk (age + 1)) nk)
  split
  · next he =>
    have h1 : s1 = s := if_pos he
    exact ⟨haux, htrp, fun _ => by rw [hnd2, h1]; exact he, fun h => absurd he h⟩
  · next he =>
    refine ⟨by rw [nodeReg, srGet_modNd]; exact haux, by rw [nodeReg, srGet_modNd]; exact htrp, fun h => absurd h he, fun _ => ?_⟩
    rw [State.nd_modNd_same]
    refine ⟨rfl, ?_, rfl⟩
    change ((s2.nd nk).gn + 1) % 16 = _
    rw [hnd2, hgn]

theorem TrapTaken.unspill {s u : State} {nk num lv : Nat} (h : TrapTaken s u nk num lv) (c : Nat) :
    TrapTaken s (u.unspill c) nk num lv := by
  have hreg (n : Nat) : nodeReg (u.unspill c) nk n = nodeReg u nk n :=
    nodeReg_congr (u.unspill_sr c) nk n
  have hcore : ((u.unspill c).nd nk).core = (u.nd nk).core := congrFun (u.unspill_cores c) nk
  have hgn : ((u.unspill c).nd nk).gn = (u.nd nk).gn := congrArg (fun x : NodeCore => x.front.gn) hcore
  have hrst : ((u.unspill c).nd nk).rst = (u.nd nk).rst := congrArg NodeCore.rst hcore
  have hst := (u.settles_unspill c).st nk
  refine ⟨by rw [hreg]; exact h.aux, by rw [hreg]; exact h.trp, fun he => ?_, fun he => ?_⟩
  · have hu := h.ended he
    exact (hst (.inr hu)).trans hu
  · obtain ⟨hu, hg, hr⟩ := h.taken he
    exact ⟨(hst (.inl hu)).trans hu, hgn.trans hg, hrst.trans hr⟩

/-! ### The acts of a commit -/

section
variable {s : State} {c p : Nat} (hlive : s.live (nkOf c p) = true)
include hlive

section
variable {op : Op} {w : EWord} {age : Nat} (hcmd : (s.nd (nkOf c p)).nextCmd = some (op, w, age))
include hcmd

theorem exec_engineQueueRoom_goesOn (hr : s.unitRoom c (unitOf op w) = true) :
    exec (.engineQueueRoom c p) s = .next (s.goOn (nkOf c p)) := by
  change execEngineQueueRoom c p s = _
  simp [execEngineQueueRoom, hcmd, hlive, hr]

theorem exec_wmTokensSet_goesOn (hw : (s.nd (nkOf c p)).wmSet w age = true) :
    exec (.wmTokensSet c p) s = .next (s.goOn (nkOf c p)) := by
  change execWmTokensSet c p s = _
  simp [execWmTokensSet, hcmd, hlive, hw]

end

section
variable (hacts : (s.nd (nkOf c p)).acts ≠ []) (k : Nat)
include hacts

theorem exec_invocationCommit_goesOn (h : ((s.goOn (nkOf c p)).nd (nkOf c p)).acts = [] ∨
    ((s.goOn (nkOf c p)).nd (nkOf c p)).callable = false) :
    exec (.invocationCommit c p k) s = .next (s.goOn (nkOf c p)) := by
  change execInvocationCommit c p k s = _
  rcases h with h | h <;> simp [execInvocationCommit, hlive, hacts, h]

/-- A callable node sets a commit that waits aside, for another invocation's or for the next that was (R310). -/
theorem exec_invocationCommit_setsAside (ha : ((s.goOn (nkOf c p)).nd (nkOf c p)).acts ≠ [])
    (hc : ((s.goOn (nkOf c p)).nd (nkOf c p)).callable = true) :
    let h := (s.goOn (nkOf c p)).modNd (nkOf c p) fun n => { n with acts := [], parked := n.parked ++ [n.acts] }
    exec (.invocationCommit c p k) s =
      .next (if (h.commitable (nkOf c p))[k]?.isSome then h.commitNext (nkOf c p) k else h.modNd (nkOf c p) Node.unpark) := by
  intro h
  change execInvocationCommit c p k s = _
  unfold execInvocationCommit
  extract_lets nk g n g'
  rw [if_neg (by simp [nk, hlive]), if_neg (by simp [nk, hacts]), if_neg (by simp [n, g, nk, ha, hc])]
  exact (apply_ite _ _ _ _).symm

end

variable {a : Act} (hacts : (s.nd (nkOf c p)).acts = [a])
include hacts

theorem actsBy {u : State} {P : State → Prop} (h : s.doAct (nkOf c p) a = some u) (hc : s.Calms u) (hP : P u) : ActsBy s c p P := by
  intro hover
  refine ⟨u, hP, fun k => ?_⟩
  have hgo := State.goOn_last hacts h hc
  rw [exec_invocationCommit_goesOn hlive (by simp [hacts]) k (by rw [hgo]; exact State.afterLast_over hacts hc hover), hgo]
  rfl

theorem actWaits (h : s.doAct (nkOf c p) a = none) : ActWaits s c p := by
  have hgo := State.goOn_last_waits hacts h
  exact ⟨hgo, fun k hcal => by
    rw [exec_invocationCommit_goesOn hlive (by simp [hacts]) k (.inr (by rw [hgo]; exact hcal)), hgo]⟩

end

/-- An engine command `m` of a commit is issued, or must still wait (R141, R143, R311). -/
def State.issueEngine (s : State) (c : Nat) (op : Op) (w : EWord) (age : Nat) (m : Cmd) (tag : Option Nat) : Option State :=
  if !(s.nd m.nk).wmSet w age then none
  else
    match op with
    | .pset => some (s.psetIssue c m)
    | .tret => some (s.sbLeave m)
    | .spawn => if s.unitRoom c 9 then some (s.spawnIssue c m (tag.map fun t => (t / 32, t % 32))) else none
    | .wload => if s.unitRoom c (unitOf op w) then some ((s.issueCmd c (unitOf op w) m).wloadIssue c) else none
    | _ => if s.unitRoom c (unitOf op w) then some (s.issueCmd c (unitOf op w) m) else none

theorem State.issueAct_engine {i : Instr} {op : Op} {w : EWord} (hv : i.view = some (op, .e w)) (s : State) (nk ix : Nat)
    (l r q : Option Opnd) (age n fctl : Nat) (place : Option (Nat × Nat × Nat)) (tag : Option Nat) :
    s.issueAct nk ix i l r q age n fctl place tag =
      s.issueEngine (nk / 8) op w age (s.cmdOf nk ix i l r q age n fctl place) tag := by
  unfold State.issueAct
  split
  case h_7 => rw [hv]; rfl
  all_goals cases hv

section
variable {s : State} {c : Nat} {op : Op} {w : EWord} {age : Nat} {m : Cmd} {tag : Option Nat}

theorem State.issueEngine_waits_tokens (h : (s.nd m.nk).wmSet w age = false) : s.issueEngine c op w age m tag = none := by
  unfold State.issueEngine
  rw [h]; rfl

variable (h : (s.nd m.nk).wmSet w age = true)
include h

theorem State.issueEngine_pset : s.issueEngine c .pset w age m tag = some (s.psetIssue c m) := by
  simp [State.issueEngine, h]

theorem State.issueEngine_tret : s.issueEngine c .tret w age m tag = some (s.sbLeave m) := by
  simp [State.issueEngine, h]

theorem State.issueEngine_waits_room (hp : op ≠ .pset) (ht : op ≠ .tret) (hr : s.unitRoom c (unitOf op w) = false) :
    s.issueEngine c op w age m tag = none := by
  unfold State.issueEngine
  rw [h]
  split
  · contradiction
  · split
    · contradiction
    · contradiction
    · exact if_neg (by rw [show unitOf .spawn w = 9 from rfl] at hr; simp [hr])
    · exact if_neg (by simp [hr])
    · exact if_neg (by simp [hr])

theorem State.issueEngine_spawn (hr : s.unitRoom c (unitOf .spawn w) = true) :
    s.issueEngine c .spawn w age m tag = some (s.spawnIssue c m (tag.map fun t => (t / 32, t % 32))) := by
  have hr : s.unitRoom c 9 = true := hr
  simp [State.issueEngine, h, hr]

theorem State.issueEngine_wload (hr : s.unitRoom c (unitOf .wload w) = true) :
    s.issueEngine c .wload w age m tag = some ((s.issueCmd c (unitOf .wload w) m).wloadIssue c) := by
  simp [State.issueEngine, h, hr]

theorem State.issueEngine_other (hp : op ≠ .pset) (ht : op ≠ .tret) (hs : op ≠ .spawn) (hw : op ≠ .wload)
    (hr : s.unitRoom c (unitOf op w) = true) : s.issueEngine c op w age m tag = some (s.issueCmd c (unitOf op w) m) := by
  unfold State.issueEngine
  rw [h]
  split
  · contradiction
  · split
    · contradiction
    · contradiction
    · contradiction
    · contradiction
    · rfl

end

/-- PSET gives its pattern register the vector of its operand (R150). -/
theorem State.psetIssue_pats (s : State) (nk ix : Nat) {i : Instr} {w : EWord} {op : Op} (hv : i.view = some (op, .e w))
    (l r q : Option Opnd) (age n fctl : Nat) (place : Option (Nat × Nat × Nat)) (c : Nat) :
    Tab.get 0 ((s.psetIssue c (s.cmdOf nk ix i l r q age n fctl place)).cl c).pats w.pat.toNat =
      (s.cmdOf nk ix i l r q age n fctl place).lvec := by
  have hw : (s.cmdOf nk ix i l r q age n fctl place).w = w := by
    unfold Cmd.w State.cmdOf; dsimp only; rw [hv]
  unfold State.psetIssue State.cl
  rw [State.sbLeave_clusters]
  change Tab.get 0 (State.cl _ c).pats _ = _
  rw [State.cl_modCl_same, hw]
  exact Tab.get_put_same ..

theorem State.tsyncIssue_waits {s : State} {nk age : Nat} {l : Option Opnd} {place : Option (Nat × Nat)}
    (ht : ∃ t, t ∈ s.tinvs ∧ t.nk = nk ∧ t.id < s.tinvNext) (hs : s.tsyncs = []) :
    (s.tsyncIssue nk age l place).tsyncs =
      [{ nk := nk, age := age, place := place, o := (Opnd.ofNat 1).plus (statusOf [l]), upto := s.tinvNext }] := by
  obtain ⟨t, ht, hnk, hid⟩ := ht
  have hany : (s.tinvs.any fun t => t.nk = nk && t.id < s.tinvNext) = true := List.any_eq_true.2 ⟨t, ht, by simp [hnk, hid]⟩
  simp [State.tsyncIssue, State.tsyncCheck, hs, hany]

theorem commitsIssueInOrderR141 : CommitsIssueInOrderR141 := by
  intro s c p nk n hp hl
  have hc : nk / 8 = c := nkOf_div_eight c hp
  refine ⟨fun k ha => ?_, fun t ha => ⟨fun hf => ?_, fun hf => ?_⟩, fun ix l r q age num fctl place tag => ?_⟩
  · intro g
    refine ⟨fun hcal => exec_invocationCommit_goesOn hl ha k (.inr (State.goOn_callable hcal)),
      fun hg => exec_invocationCommit_goesOn hl ha k (.inl hg), fun hg hcal => exec_invocationCommit_setsAside hl ha k hg hcal,
      fun op w age hcmd => ⟨fun hr => ?_, fun hw => ?_⟩⟩
    · exact exec_engineQueueRoom_goesOn hl hcmd hr
    · exact exec_wmTokensSet_goesOn hl hcmd hw
  · exact actWaits hl ha (if_neg (by rw [hf]; decide))
  · refine actsBy hl ha (u := s.flipDo nk t) (if_pos hf) (.of_fronts (State.flipDo_fronts ..)) ⟨State.flipDo_mem .., fun x => ?_⟩
    have := s.flipDo_engTiles nk t x
    rwa [hc] at this
  · intro lv rv pl act
    have issued {i : Instr} {u : State} {P : State → Prop} (ha : act i)
        (hu : s.issueAct nk ix i l r q age num fctl place tag = some u) (hP : P u) : ActsBy s c p P :=
      actsBy hl ha hu (State.calms_issueAct hu) hP
    have waits {i : Instr} (ha : act i) (hu : s.issueAct nk ix i l r q age num fctl place tag = none) : ActWaits s c p :=
      actWaits hl ha hu
    refine ⟨fun w ha => ⟨fun ht => ?_, fun ht => ?_⟩, fun w ha => ?_, fun w ha ht hs => ?_, fun w x o ha hlo hx => ?_,
      fun w id ha hid => ?_, fun w ha => ⟨fun hst hg => ?_, fun h => ?_⟩, fun w op i ha hv hw => ?_, fun w op i ha hv hw => ?_⟩
    · exact waits ha (if_neg (by rw [ht]; decide))
    · exact issued ha (if_pos ht) rfl
    · refine issued ha rfl ⟨rfl, _, rfl, rfl, ?_, ?_, ?_⟩
      · exact bits_low ..
      · rfl
      · rw [hc]; exact congrArg (tinvHolders c) (bits_low _ 3)
    · exact issued ha rfl (State.tsyncIssue_waits ht hs)
    · subst hlo
      refine issued ha rfl ⟨rfl, rfl, ?_⟩
      obtain ⟨_, _⟩ := o
      subst hx
      rw [State.keysetIssue, bits_low]; rfl
    · refine issued ha rfl ?_
      rw [State.fretIssue, hid, bits_low]
      rfl
    · exact waits ha (if_pos (by rw [show (s.nd nk).genFree = false from hg]; simpa using hst))
    · have hgo : ¬ ((s.nd nk).st != .ended && !(s.nd nk).genFree) = true := by
        rcases h with h | h
        · rw [show (s.nd nk).st = .ended from h]; simp
        · rw [show (s.nd nk).genFree = true from h]; simp
      have htaken := (s.trapTake_taken nk ix num (s.cmdOf nk ix (.trap w) l r q age num fctl place).ws age lv
        (bits w.imm.toNat 0 14)).unspill (nk / 8)
      exact issued ha (if_neg hgo) ⟨by rw [State.unspill_mem, State.trapTake_mem], htaken.aux, htaken.trp, htaken.ended, htaken.taken⟩
    · refine waits ha ?_
      rw [State.issueAct_engine hv]
      exact State.issueEngine_waits_tokens hw
    · intro m u
      have hm : m.nk = nk := rfl
      have run {t : State} {P : State → Prop} (ht : s.issueEngine c op w age m tag = some t) (hP : P t) : ActsBy s c p P :=
        issued ha (by rw [State.issueAct_engine hv, hc]; exact ht) hP
      refine ⟨?_, ?_, fun hnp hnt hr => ?_, fun hr => ⟨?_, ?_, fun hnp hnt hns hnw => ?_⟩⟩
      · rintro rfl
        refine run (State.issueEngine_pset hw) ⟨State.psetIssue_mem .., State.psetIssue_pats s nk ix hv l r q age num fctl place c⟩
      · rintro rfl
        exact run (State.issueEngine_tret hw) rfl
      · refine waits ha ?_
        rw [State.issueAct_engine hv, hc]
        exact State.issueEngine_waits_room hw hnp hnt hr
      · rintro rfl
        exact run (State.issueEngine_spawn hw hr) rfl
      · rintro rfl
        exact run (State.issueEngine_wload hw hr) rfl
      · exact run (State.issueEngine_other hw hnp hnt hns hnw hr) rfl

end Sys2Proof.Machine
end

