-- ==== Sys2Proof/Proofs/CommandsSignal.lean ====
section
/-!
PROOF. A unit signals its commands in issue order (R142, R146, R151, R166, R241): the returned tiles, the semaphore, the scoreboard count
and the unit's queue.
-/

namespace Sys2Proof.Machine

/-- What the waiters of a semaphore leave of a cluster: they send tokens and no more. -/
structure ClusterWork where
  units : Tab (List Cmd)
  engTiles : List Nat
  sems : Tab (BitVec 32)

def Cluster.work (x : Cluster) : ClusterWork := { units := x.units, engTiles := x.engTiles, sems := x.sems }

def State.works (s : State) (c : Nat) : ClusterWork := (s.cl c).work

theorem State.works_congr {s t : State} (h : s.clusters = t.clusters) : s.works = t.works :=
  congrArg (fun (x : Tab Cluster) c => (Tab.get ({} : Cluster) x c).work) h

theorem State.pushTok_works (s : State) (c : Nat) (t : Tok) : (s.pushTok c t).works = s.works := by
  funext d
  unfold State.works State.pushTok
  by_cases h : d = c
  · rw [h, State.cl_modCl_same]; rfl
  · rw [State.cl_modCl_other _ _ _ _ h]

theorem State.accReply_works (s : State) (nk : Nat) (a : Acc) (v : Val) : (s.accReply nk a v).works = s.works := by
  unfold State.accReply
  split
  · rw [State.pushTok_works]
    refine State.works_congr ?_
    split <;> rfl
  · rfl

theorem State.semMet_works (s : State) (nk : Nat) (a : Acc) : (s.semMet nk a).works = s.works := by
  unfold State.semMet
  extract_lets t a'
  exact (State.works_congr (State.accDone_clusters (s.accReply nk a' _) nk a)).trans (State.accReply_works ..)

@[simp] theorem countEvent_clusters (s : State) (part c ev amt : Nat) : (countEvent s part c ev amt).clusters = s.clusters := by
  unfold countEvent countAt
  exact foldl_keeps State.clusters _ (fun s e => by dsimp only; split <;> rfl) _ _

/-- An increment of a semaphore changes that number alone, saturating (R131, R170). -/
theorem State.semApply_works (s : State) (c k amt : Nat) :
    (s.semApply c k amt false false).works = (s.modCl c fun x => { x with
      sems := Tab.putD 0 x.sems k (BitVec.ofNat 32 (min (s.sem c k + amt) 0xffffffff)) }).works := by
  unfold State.semApply
  extract_lets old v part s1 s2
  have h1 : s1.clusters = s.clusters := by dsimp only [s1]; split <;> simp
  have h2 : (s.modCl c fun x => { x with
      sems := Tab.putD 0 x.sems k (BitVec.ofNat 32 (min (s.sem c k + amt) 0xffffffff)) }).works = s2.works := by
    refine State.works_congr ?_
    dsimp only [s2, State.modCl, State.setCl, State.cl]
    rw [h1]
    rfl
  rw [h2]
  refine foldl_keeps State.works _ (fun s e => foldl_keeps State.works _ (fun s a => ?_) _ _) _ _
  split
  · rfl
  · split
    · exact State.semMet_works ..
    · rfl

/-- The commands signal in turn: the tiles go back, the semaphore steps, the scoreboard count and the queue lose the command. -/
theorem State.signalCmd_works (s : State) (c u : Nat) (m : Cmd) : ∃ t : State, s.signalCmd c u m = (t.sbLeave m).dropCmd c u m.id
    ∧ (t.works c).units = (s.works c).units
    ∧ (∀ x, x ∈ (t.works c).engTiles ↔ x ∈ (s.works c).engTiles ∧ ¬ (m.returns = true ∧ x ∈ m.tiles))
    ∧ ∀ k, t.sem c k = if m.semOf = some k then min (s.sem c k + 1) 0xffffffff else s.sem c k := by
  unfold State.signalCmd
  extract_lets s1 s2
  have h1 : (s1.works c).units = (s.works c).units ∧ s1.sem c = s.sem c
      ∧ ∀ x, x ∈ (s1.works c).engTiles ↔ x ∈ (s.works c).engTiles ∧ ¬ (m.returns = true ∧ x ∈ m.tiles) := by
    dsimp only [s1]
    split
    · next hr =>
      refine ⟨by rw [State.works, State.cl_modCl_same]; rfl, ?_, fun x => ?_⟩
      · funext k; rw [State.sem, State.cl_modCl_same]; rfl
      · rw [State.works, State.cl_modCl_same]
        simp [Cluster.work, hr, State.works]
    · next hr => exact ⟨rfl, rfl, fun x => by simp [hr]⟩
  obtain ⟨hu1, hs1, ht1⟩ := h1
  refine ⟨s2, rfl, ?_⟩
  clear_value s1
  dsimp only [s2]
  cases hm : m.semOf with
  | none => exact ⟨hu1, ht1, fun k => by rw [hs1, if_neg (by simp)]⟩
  | some k =>
    have hw := congrFun (s1.semApply_works c k 1) c
    rw [State.works, State.works, State.cl_modCl_same] at hw
    have hsems : ((s1.semApply c k 1 false false).cl c).sems = Tab.putD 0 (s1.cl c).sems k (BitVec.ofNat 32 (min (s1.sem c k + 1) 0xffffffff)) :=
      congrArg ClusterWork.sems hw
    refine ⟨(congrArg ClusterWork.units hw).trans hu1, fun x => ?_, fun j => ?_⟩
    · have htiles : ((s1.semApply c k 1 false false).cl c).engTiles = (s1.cl c).engTiles := congrArg ClusterWork.engTiles hw
      exact (Iff.of_eq (congrArg (x ∈ ·) htiles)).trans (ht1 x)
    · rw [State.sem, hsems]
      by_cases hj : j = k
      · subst hj
        rw [Tab.get_putD_same, if_pos rfl, BitVec.toNat_ofNat, hs1, Nat.mod_eq_of_lt (by omega)]
      · rw [Tab.get_putD_other _ _ _ _ _ hj, if_neg (by simpa using Ne.symm hj), ← hs1]
        rfl

theorem State.sbLeave_sb (s : State) (m : Cmd) {k : BitVec 3} (hk : m.w.sbs = some k) {e : Nat × Nat × Nat}
    (he : e ∈ ((s.sbLeave m).nd m.nk).sb) : e ≠ (k.toNat, m.age, m.ix) := by
  unfold State.sbLeave at he
  rw [hk] at he
  rw [State.nd_modNd_same] at he
  simpa using (List.mem_filter.1 he).2

theorem State.mem_unit_dropCmd (s : State) (c u id : Nat) (x : Cmd) :
    x ∈ (s.dropCmd c u id).unit c u ↔ x ∈ s.unit c u ∧ x.id ≠ id := by
  unfold State.dropCmd State.unit
  rw [State.cl_modCl_same, Tab.get_mod_same, List.mem_filter]
  simp

/-- The first of the commands that a unit goes by (R142). -/
theorem find?_signals {u : Nat} {m : Cmd} {before rest : List Cmd} (hm : u ≠ 9 → m.aside = false)
    (hb : ∀ x, x ∈ before → if u = 9 then x.finished = false else x.aside = true) (h9 : u = 9 → m.finished = true) :
    (before ++ m :: rest).find? (fun m => if u = 9 then m.finished else !m.aside) = some m := by
  rw [List.find?_append, List.find?_eq_none.2, Option.none_or, List.find?_cons_of_pos]
  · by_cases h : u = 9
    · rw [if_pos h]; exact h9 h
    · rw [if_neg h, hm h]; rfl
  · intro x hx
    have := hb x hx
    by_cases h : u = 9
    · rw [if_pos h] at this ⊢; simp [this]
    · rw [if_neg h] at this ⊢; simp [this]

theorem commandsSignalInOrderR146 : CommandsSignalInOrderR146 := by
  intro s k u m before rest c hunit hm hb
  have hqueue : (if u = 4 then s.storCmds else s.unit k u) = before ++ m :: rest := by
    rcases hunit with ⟨hu, h⟩ | ⟨hu, hk, h⟩
    · rw [if_pos hu]; exact h
    · rw [if_neg hu, hk]; exact h
  have hexec (h9 : u = 9 → m.finished = true) : exec (.engineCompletion k u) s =
      if m.finished then .next (s.signalCmd c u m).kernelsCheck else .next s := by
    change execEngineCompletion k u s = _
    unfold execEngineCompletion
    rw [hqueue, find?_signals hm hb h9]
  refine ⟨fun hu hf => ?_, fun hf => ?_⟩
  · rw [hexec fun h => absurd h hu, hf]; rfl
  · obtain ⟨t, ht, hunits, htiles, hsem⟩ := s.signalCmd_works c u m
    have hcl : (t.sbLeave m).cl c = t.cl c := congrArg (fun x : Tab Cluster => Tab.get ({} : Cluster) x c) (State.sbLeave_clusters ..)
    refine ⟨s.signalCmd c u m, by rw [hexec fun _ => hf, if_pos hf], State.signalCmd_mem .., fun x => ?_, fun x => ?_, fun j => ?_,
      fun j e he hj => ?_⟩
    · have hunit : (t.sbLeave m).unit c u = s.unit c u := by
        unfold State.unit; rw [hcl]; exact congrArg (fun y => Tab.get [] y u) hunits
      rw [ht, State.mem_unit_dropCmd, hunit]
    · rw [ht, State.dropCmd, State.cl_modCl_same, hcl]
      exact htiles x
    · rw [ht, State.dropCmd, State.sem, State.cl_modCl_same, hcl]
      exact hsem j
    · rw [ht] at he
      exact State.sbLeave_sb _ _ hj he

end Sys2Proof.Machine
end

