-- ==== Sys2Proof/Proofs/CommandsChecked.lean ====
section
/-!
PROOF. A command is checked as it enters its unit (R141, R144, R145, R150, R151, R363, R387): the steps of its issue, how a failed check
undoes them, and what an issue that passes leaves.
-/

namespace Sys2Proof.Machine

/-! ### What the checks read -/

/-- The state with other clusters and another number for the storage unit: what the numbering of a command changes. -/
def State.withClusters (s : State) (cs : Tab Cluster) (k : Nat) : State := { s with clusters := cs, storNext := k }

/-- The walk from the word at `a`, the table entry of the ASID. Apart from `walk`, since the kernel is slow to compute with the
address as it is written there. -/
def walkAt (s : State) (part asid va a : Nat) : Walk :=
  match tableWord s a with
  | .none => .fail 3 0
  | .unc => .unc 0 a
  | .ok e =>
    if bits e 63 1 = 0 || bits e 52 6 != part || !asidIn s part asid then .fail 3 0
    else walkFrom s va 5 0 (bits e 7 45 * 128)

theorem walk_eq (s : State) (part asid va : Nat) :
    walk s part asid va = walkAt s part asid va (rbits (pkg s 0x0c8) 20 32 * 2 ^ 20 + 16 * asid) := rfl

section
variable (s : State) (cs : Tab Cluster) (k : Nat)

theorem State.withClusters_mem : (s.withClusters cs k).mem = s.mem := rfl
theorem pkg_withClusters (n : Nat) : pkg (s.withClusters cs k) n = pkg s n := rfl
theorem chipId_withClusters : chipId (s.withClusters cs k) = chipId s := rfl
theorem memKind_withClusters (a : Nat) : memKind (s.withClusters cs k) a = memKind s a := rfl
theorem badAt_withClusters (a : Nat) : badAt (s.withClusters cs k) a = badAt s a := rfl
theorem memAux_withClusters (a : Nat) : memAux (s.withClusters cs k) a = memAux s a := rfl
theorem keyIn_withClusters (part key : Nat) : keyIn (s.withClusters cs k) part key = keyIn s part key := rfl
theorem slotLoaded_withClusters (slot : Nat) : slotLoaded (s.withClusters cs k) slot = slotLoaded s slot := rfl
theorem asidIn_withClusters (part asid : Nat) : asidIn (s.withClusters cs k) part asid = asidIn s part asid := rfl
theorem tlbFind_withClusters (h asid va : Nat) : tlbFind (s.withClusters cs k) h asid va = tlbFind s h asid va := rfl

theorem tableWord_withClusters (a : Nat) : tableWord (s.withClusters cs k) a = tableWord s a := by
  unfold tableWord
  rw [memKind_withClusters, badAt_withClusters, memRead_congr (State.withClusters_mem s cs k)]

theorem walkFrom_withClusters (va fuel : Nat) : ∀ level table,
    walkFrom (s.withClusters cs k) va fuel level table = walkFrom s va fuel level table := by
  induction fuel with
  | zero => intro _ _; rfl
  | succ fuel ih => intro level table; simp only [walkFrom, tableWord_withClusters, ih]

theorem walkAt_withClusters (part asid va a : Nat) : walkAt (s.withClusters cs k) part asid va a = walkAt s part asid va a := by
  unfold walkAt
  rw [tableWord_withClusters, asidIn_withClusters]
  simp only [walkFrom_withClusters]

theorem walk_withClusters (part asid va : Nat) : walk (s.withClusters cs k) part asid va = walk s part asid va := by
  rw [walk_eq, walk_eq, pkg_withClusters, walkAt_withClusters]

theorem lookup_withClusters (hs : List Nat) (part asid va : Nat) :
    lookup (s.withClusters cs k) hs part asid va = lookup s hs part asid va := by
  unfold lookup
  rw [asidIn_withClusters, walk_withClusters]
  simp only [tlbFind_withClusters]

theorem leafRes_withClusters (part va level pte : Nat) (ws : Bool) :
    leafRes (s.withClusters cs k) part va level pte ws = leafRes s part va level pte ws := by
  unfold leafRes
  dsimp only
  rw [keyIn_withClusters, memKind_withClusters, slotLoaded_withClusters]

theorem xlateFrom_withClusters (hs : List Nat) (part need : Nat) (ws : Bool) (fuel : Nat) : ∀ asid va perm met first,
    xlateFrom (s.withClusters cs k) hs part need ws fuel asid va perm met first = xlateFrom s hs part need ws fuel asid va perm met first := by
  induction fuel with
  | zero => intros; rfl
  | succ fuel ih =>
    intros
    simp only [xlateFrom, lookup_withClusters, leafRes_withClusters, memAux_withClusters, chipId_withClusters, pkg_withClusters, ih]

theorem State.issueLookup_withClusters (p : Party) (pat : V512) (add : Int) (write : Bool) :
    (s.withClusters cs k).issueLookup p pat add write = s.issueLookup p pat add write := by
  unfold State.issueLookup xlate
  simp only [xlateFrom_withClusters, lookup_withClusters]

theorem State.resolve_withClusters (asid : Nat) (hs : List Nat) : (s.withClusters cs k).resolve asid hs = s.resolve asid hs := by
  induction hs with
  | nil => rfl
  | cons h hs ih => unfold State.resolve; rw [ih]; rfl

theorem State.issueCheck_withClusters (m : Cmd) : (s.withClusters cs k).issueCheck m = s.issueCheck m := by rfl

end

/-! ### The steps of an issue -/

/-- The command with its number and its copies of the patterns and of its chip group. -/
def Cmd.numbered (m : Cmd) (s : State) (c : Nat) : Cmd :=
  { m with
    id := (s.cl c).cmdNext, no := s.storNext, pats := m.patNums.map fun k => Tab.get 0 (s.cl c).pats k
    chips := (m.chipGrp.map (chipGroup s m.part)).getD [] }

/-- The tiles that a command touches. -/
def State.touched (s : State) (c : Nat) (m : Cmd) : List (Nat × Nat) := (s.touches c m).filter fun t => t.2 < 384

/-- The command with the tiles that it holds. -/
def Cmd.holding (m : Cmd) (c : Nat) (ts : List (Nat × Nat)) : Cmd :=
  { m with tiles := (ts.filter fun t => t.1 = c).map (·.2), far := ts.filter fun t => t.1 != c }

/-- The state once a command has taken its numbers. -/
def State.numbering (s : State) (c u : Nat) : State :=
  s.withClusters (s.modCl c fun x => { x with cmdNext := x.cmdNext + 1 }).clusters (if u = 4 then s.storNext + 1 else s.storNext)

/-- The command joins its unit. -/
def State.enterCmd (s : State) (c u : Nat) (m : Cmd) : State :=
  s.modCl c fun x => { x with units := Tab.mod [] x.units u (· ++ [m]) }

theorem State.numbering_eq (s : State) (c u : Nat) :
    (if u = 4 then { (s.modCl c fun x => { x with cmdNext := x.cmdNext + 1 }) with
        storNext := (s.modCl c fun x => { x with cmdNext := x.cmdNext + 1 }).storNext + 1 }
      else s.modCl c fun x => { x with cmdNext := x.cmdNext + 1 }) = s.numbering c u := by
  unfold State.numbering
  split <;> rfl

theorem State.numbering_engTiles (s : State) (c u d : Nat) : ((s.numbering c u).cl d).engTiles = (s.cl d).engTiles := by
  change ((s.modCl c fun x => { x with cmdNext := x.cmdNext + 1 }).cl d).engTiles = _
  by_cases h : d = c
  · rw [h, State.cl_modCl_same]
  · rw [State.cl_modCl_other _ _ _ _ h]

theorem State.numbering_unit (s : State) (c u v : Nat) : (s.numbering c u).unit c v = s.unit c v := by
  change Tab.get [] ((s.modCl c fun x => { x with cmdNext := x.cmdNext + 1 }).cl c).units v = _
  rw [State.cl_modCl_same]
  rfl

theorem State.enterCmd_unit (s : State) (c u : Nat) (m : Cmd) : (s.enterCmd c u m).unit c u = s.unit c u ++ [m] := by
  unfold State.enterCmd State.unit
  rw [State.cl_modCl_same, Tab.get_mod_same]

/-- A lookup for each pattern of a COPY or of an FLPUSH (R411). -/
def State.lookups (s : State) (c u : Nat) (m : Cmd) : List (Option Pending × List TEnt) :=
  (List.range m.pats.length).map fun k => s.issueLookup (s.engParty c u m) (m.pats.getD k 0) (m.baseAdd k) (k = 1)

/-- The command that an issue checks: numbered, with its tiles and its handles. -/
def Cmd.checked (m : Cmd) (s : State) (c : Nat) (hs : List (Nat × Nat × Bool)) : Cmd :=
  { (m.numbered s c).holding c (s.touched c (m.numbered s c)) with hnds := hs }

/-- An issue in terms of the state before it. -/
theorem State.issueCmd_eq (s : State) (c u : Nat) (m : Cmd) : s.issueCmd c u m =
    (match s.resolve m.asid (m.numbered s c).handleNums with
    | none =>
      let m2 := (m.numbered s c).holding c (s.touched c (m.numbered s c))
      ((s.numbering c u).enterCmd c u m2).failWith c u m2 .badHandle m2.issueAux
    | some hs =>
      let m3 := m.checked s c hs
      let r := (s.numbering c u).enterCmd c u m3
      match s.issueCheck (m.numbered s c) with
      | some cz => r.failWith c u m3 cz m3.issueAux
      | none =>
        if (s.touched c (m.numbered s c)).any fun t => !(s.cl t.1).engTiles.contains t.2 then r.failWith c u m3 .ownerViolation m3.issueAux
        else if m3.op = .copy || m3.op = .flpush then
          match (s.lookups c u (m.numbered s c)).findSome? (·.1) with
          | some f => r.failCmd c u m3 f
          | none => (s.numbering c u).enterCmd c u { m3 with trs := (s.lookups c u (m.numbered s c)).flatMap (·.2) }
        else r) := by
  unfold State.issueCmd
  extract_lets x m1 ts m2 s1 s2 enter
  have hs2 : s2 = s.numbering c u := State.numbering_eq s c u
  have hr : s2.resolve m2.asid m2.handleNums = s.resolve m.asid (m.numbered s c).handleNums := by
    rw [hs2]
    exact State.resolve_withClusters ..
  have hc : ∀ hs, s2.issueCheck { m2 with hnds := hs } = s.issueCheck (m.numbered s c) := fun hs => by
    rw [hs2]
    exact State.issueCheck_withClusters ..
  have ht : (ts.any fun t => !(s2.cl t.1).engTiles.contains t.2)
      = (s.touched c (m.numbered s c)).any fun t => !(s.cl t.1).engTiles.contains t.2 := by
    rw [hs2]
    simp only [State.numbering_engTiles]
    rfl
  have hl : ∀ hs, ((List.range m2.pats.length).map fun k =>
      s2.issueLookup (s2.engParty c u { m2 with hnds := hs }) (m2.pats.getD k 0) (Cmd.baseAdd { m2 with hnds := hs } k) (k = 1))
      = s.lookups c u (m.numbered s c) := fun hs => by
    rw [hs2]
    unfold State.numbering
    simp only [State.issueLookup_withClusters]
    rfl
  rw [hr]
  cases s.resolve m.asid (m.numbered s c).handleNums with
  | none => rw [← hs2]; rfl
  | some hs =>
    dsimp only
    rw [hc hs, ht, hl hs, ← hs2]
    cases s.issueCheck (m.numbered s c) <;> rfl

/-! ### A failed check -/

/-- An issue that fails its check leaves memory and the unit as they were, and its node an engine fault (R144). -/
structure State.IssueFails (s t : State) (c u : Nat) (m : Cmd) (cz : Cause) : Prop where
  mem : t.mem = s.mem
  unit : t.unit c u = s.unit c u
  fault : ∃ f, (t.nd m.nk).engFaults = (s.nd m.nk).engFaults ++ [f] ∧ f.cause = cz ∧ f.eng = true ∧ f.ix = some m.ix ∧ f.n = m.n

theorem State.sbLeave_engFaults (s : State) (m : Cmd) (nk : Nat) : ((s.sbLeave m).nd nk).engFaults = (s.nd nk).engFaults := by
  unfold State.sbLeave
  split
  · rfl
  · by_cases h : nk = m.nk
    · rw [h, State.nd_modNd_same]
    · rw [State.nd_modNd_other _ _ _ _ h]

theorem State.fillRest_none (s : State) {m : Cmd} (h : m.place = none) : s.fillRest m = s := by
  unfold State.fillRest
  rw [h]

/-- The command leaves the unit that it has just entered. -/
theorem State.dropCmd_entered_unit (s : State) (c u : Nat) (m : Cmd) (hid : ∀ y, y ∈ s.unit c u → y.id ≠ m.id) :
    ((s.enterCmd c u m).dropCmd c u m.id).unit c u = s.unit c u := by
  have h : ((s.enterCmd c u m).dropCmd c u m.id).unit c u = ((s.enterCmd c u m).unit c u).filter fun y => y.id != m.id := by
    unfold State.dropCmd
    generalize s.enterCmd c u m = t
    unfold State.unit
    rw [State.cl_modCl_same, Tab.get_mod_same]
  rw [h, State.enterCmd_unit, List.filter_append, List.filter_eq_self.2 fun y hy => by simpa using hid y hy]
  simp

theorem State.failCmd_entered {s : State} {c u : Nat} {m : Cmd} (f : Pending) (hid : ∀ y, y ∈ s.unit c u → y.id ≠ m.id)
    (hp : m.place = none) : s.IssueFails ((s.enterCmd c u m).failCmd c u m f) c u m f.cause where
  mem := State.failCmd_mem ..
  unit := by
    unfold State.failCmd
    rw [State.fillRest_none _ hp]
    exact (congrArg (fun x : Tab Cluster => Tab.get [] (Tab.get ({} : Cluster) x c).units u) (State.sbLeave_clusters _ m)).trans
      (State.dropCmd_entered_unit s c u m hid)
  fault := by
    unfold State.failCmd
    rw [State.fillRest_none _ hp]
    unfold State.engFault
    rw [State.nd_modNd_same]
    exact ⟨_, congrArg (· ++ _) (State.sbLeave_engFaults ..), rfl, rfl, rfl, rfl⟩

section
variable {s : State} {c u : Nat} {m : Cmd} (hid : ∀ y, y ∈ s.unit c u → y.id ≠ (s.cl c).cmdNext) (hp : m.place = none)
include hid hp

/-- A command under the numbers of its issue fails it. -/
theorem State.failCmd_issuing {m' : Cmd} (f : Pending) (hm : m'.id = (s.cl c).cmdNext) (hq : m'.place = m.place) (hnk : m'.nk = m.nk)
    (hix : m'.ix = m.ix) (hn : m'.n = m.n) :
    s.IssueFails (((s.numbering c u).enterCmd c u m').failCmd c u m' f) c u m f.cause := by
  have hunit := s.numbering_unit c u u
  have h := State.failCmd_entered (s := s.numbering c u) (c := c) (u := u) (m := m') f (by rw [hunit, hm]; exact hid) (hq.trans hp)
  obtain ⟨g, hg, hcz, heng, hgix, hgn⟩ := h.fault
  rw [hnk] at hg
  exact ⟨h.mem, h.unit.trans hunit, g, hg, hcz, heng, hgix.trans (congrArg some hix), hgn.trans hn⟩

theorem State.issueCmd_badHandle (hr : s.resolve m.asid (m.numbered s c).handleNums = none) :
    s.IssueFails (s.issueCmd c u m) c u m .badHandle := by
  rw [State.issueCmd_eq, hr]
  exact State.failCmd_issuing hid hp _ rfl rfl rfl rfl rfl

variable {hs : List (Nat × Nat × Bool)} (hr : s.resolve m.asid (m.numbered s c).handleNums = some hs)
include hr

theorem State.issueCmd_refused {cz : Cause} (hc : s.issueCheck (m.numbered s c) = some cz) :
    s.IssueFails (s.issueCmd c u m) c u m cz := by
  rw [State.issueCmd_eq, hr]
  dsimp only
  rw [hc]
  exact State.failCmd_issuing hid hp _ rfl rfl rfl rfl rfl

theorem State.issueCmd_notEngine (hc : s.issueCheck (m.numbered s c) = none)
    (ht : ∃ e, e ∈ s.touched c (m.numbered s c) ∧ e.2 ∉ (s.cl e.1).engTiles) : s.IssueFails (s.issueCmd c u m) c u m .ownerViolation := by
  obtain ⟨e, he, hn⟩ := ht
  have hany : ((s.touched c (m.numbered s c)).any fun t => !(s.cl t.1).engTiles.contains t.2) = true :=
    List.any_eq_true.2 ⟨e, he, by simpa using hn⟩
  rw [State.issueCmd_eq, hr]
  dsimp only
  rw [hc, hany]
  exact State.failCmd_issuing hid hp _ rfl rfl rfl rfl rfl

end

/-! ### The checks of one unit (R48, R86, R151, R153, R175, R308) -/

section
variable {s : State} {m : Cmd}

theorem State.issueCheck_chipGroup (h : m.chipGrp.isSome = true) (hb : (partReg s m.part 0x052).toNat.testBit 63 = false) :
    s.issueCheck m = some .groupOverflow := by
  have hg : cgrpOk s m.part = false := by
    rw [Nat.testBit_eq_decide_div_mod_eq] at hb
    exact hb
  unfold State.issueCheck
  rw [h, hg]
  rfl

theorem State.issueCheck_copy (h : m.op = .copy)
    (hb : patEsz (m.pats.getD 0 0) ≠ patEsz (m.pats.getD 1 0) ∨ patN (m.pats.getD 0 0) ≠ patN (m.pats.getD 1 0)) :
    s.issueCheck m = some .patternMismatch := by
  have hg : m.chipGrp = none := by simp [Cmd.chipGrp, h]
  unfold State.issueCheck
  rw [hg, h]
  refine (if_neg (by simp)).trans (if_pos ?_)
  simpa only [Bool.or_eq_true, bne_iff_ne] using hb

theorem State.issueCheck_launch (h : m.op = .launch)
    (hb : rbits (pkg s (0x201 + 4 * (m.imm % 64))) 63 1 = 0 ∨ rbits (pkg s (0x201 + 4 * (m.imm % 64))) 48 6 ≠ m.part
          ∨ (wordOf m.lvec 3).toNat / 2 ^ 20 % 64 ≠ m.part) :
    s.issueCheck m = some .permission := by
  have hg : m.chipGrp = none := by simp [Cmd.chipGrp, h]
  unfold State.issueCheck
  rw [hg, h]
  refine (if_neg (by simp)).trans (if_pos ?_)
  rw [bits_low m.imm 6]
  simp only [Bool.or_eq_true, bne_iff_ne, decide_eq_true_eq, or_assoc]
  exact hb

theorem State.issueCheck_flopen (h : m.op = .flopen)
    (hb : 384 < (flOf m.lvec m.part).ring + ((flOf m.lvec m.part).nsl + 1) * ((flOf m.lvec m.part).tps + 1)) :
    s.issueCheck m = some .addressOutOfRange := by
  have hg : m.chipGrp = none := by simp [Cmd.chipGrp, h]
  unfold State.issueCheck
  rw [hg, h]
  exact (if_neg (by simp)).trans (if_pos hb)

theorem State.issueCheck_wopen (h : m.op = .wopen) (hs : winSpc m.lvec = 0) (hb : 0x180000 < winBase m.lvec + winLen m.lvec) :
    s.issueCheck m = some .addressOutOfRange := by
  have hg : m.chipGrp = none := by simp [Cmd.chipGrp, h]
  unfold State.issueCheck
  rw [hg, h]
  refine (if_neg (by simp)).trans (if_pos ?_)
  simpa using And.intro hs hb

end

/-! ### An issue that passes -/

theorem State.enterCmd_numbering (s : State) (c u : Nat) (m : Cmd) : ((s.numbering c u).enterCmd c u m).unit c u = s.unit c u ++ [m] := by
  rw [State.enterCmd_unit, State.numbering_unit]

/-- No lookup of a COPY or of an FLPUSH fails. -/
theorem State.lookups_pass {s : State} {c u : Nat} {m : Cmd}
    (h : ∀ k, k < m.pats.length → (s.issueLookup (s.engParty c u m) (m.pats.getD k 0) (m.baseAdd k) (decide (k = 1))).1 = none) :
    (s.lookups c u m).findSome? (·.1) = none := by
  refine List.findSome?_eq_none_iff.2 fun e he => ?_
  obtain ⟨k, hk, rfl⟩ := List.mem_map.1 he
  exact h k (List.mem_range.1 hk)

theorem State.issueCmd_enters {s : State} {c u : Nat} {m : Cmd} {hs : List (Nat × Nat × Bool)}
    (hr : s.resolve m.asid (m.numbered s c).handleNums = some hs) (hc : s.issueCheck (m.numbered s c) = none)
    (ht : ∀ e, e ∈ s.touched c (m.numbered s c) → e.2 ∈ (s.cl e.1).engTiles)
    (hl : m.op = .copy ∨ m.op = .flpush → (s.lookups c u (m.numbered s c)).findSome? (·.1) = none) :
    ∃ trs, s.issueCmd c u m = (s.numbering c u).enterCmd c u { m.checked s c hs with trs := trs } := by
  have hany : ((s.touched c (m.numbered s c)).any fun t => !(s.cl t.1).engTiles.contains t.2) = false :=
    List.any_eq_false.2 fun e he => by simpa using ht e he
  rw [State.issueCmd_eq, hr]
  dsimp only
  rw [hc, hany, if_neg Bool.false_ne_true, show (m.checked s c hs).op = m.op from rfl]
  by_cases h : m.op = .copy ∨ m.op = .flpush
  · rw [hl h]
    rw [if_pos (by simpa using h)]
    exact ⟨_, rfl⟩
  · rw [if_neg (by simpa using h)]
    exact ⟨m.trs, rfl⟩

theorem commandsAreCheckedAtIssueR145 : CommandsAreCheckedAtIssueR145 := by
  intro s c u m x m1 ts t fails hid hp
  have hfails : ∀ {cz}, s.IssueFails t c u m cz → fails cz := fun h => ⟨h.mem, h.unit, h.fault⟩
  refine ⟨fun hr => hfails (State.issueCmd_badHandle hid hp hr), fun hs hr => ?_⟩
  have refused : ∀ cz, s.issueCheck m1 = some cz → fails cz := fun cz hc => hfails (State.issueCmd_refused hid hp hr hc)
  refine ⟨refused, fun h hb => refused _ (State.issueCheck_chipGroup h hb), fun h hb => refused _ (State.issueCheck_copy h hb),
    fun h hb => refused _ (State.issueCheck_launch h hb), fun h hb => refused _ (State.issueCheck_flopen h hb),
    fun h hw hb => refused _ (State.issueCheck_wopen h hw hb), fun hc ht => hfails (State.issueCmd_notEngine hid hp hr hc ht),
    fun hc ht hl => ?_⟩
  obtain ⟨trs, ht⟩ := State.issueCmd_enters hr hc ht fun h => State.lookups_pass fun k hk => hl k hk h
  refine ⟨State.issueCmd_mem .., (congrArg State.nodes ht).trans rfl, { m.checked s c hs with trs := trs }, ?_, rfl, rfl, rfl, rfl, rfl, rfl, rfl, rfl,
    rfl, rfl, rfl, rfl, rfl, rfl, rfl, rfl⟩
  exact (congrArg (State.unit · c u) ht).trans (State.enterCmd_numbering ..)

/-- Settles O48: the commit's release, its commands in turn, their checks as they enter their units, and the order of their signals. -/
theorem commitsReleaseAndIssueR39 : Obligations.CommitsReleaseAndIssueR39 :=
  ⟨commitsReleaseTogetherR39, commitsIssueInOrderR141, commandsAreCheckedAtIssueR145, commandsSignalInOrderR146⟩

end Sys2Proof.Machine
end

