-- ==== Sys2Proof/Proofs/StrayStreamRegion.lean ====
section
/-!
PROOF. A streaming region in the KV space, where no LDRGN declares one (refutes O27).

Read-ahead reads a granule of the region that its element's LDRGN declared (R91), in one of the spaces .SP, .XP, .SH and .GV (R92).
An access in the KV space goes through the KBTB of its cluster, which keeps the entry of a resident block (R159). The statement
ranges over every state, and a node may list a region in the KV space: the granule read ahead there fills the KBTB, and the
statement says that no cluster changes. No rule of the spec is at stake, for decoding refuses an LDRGN of that space.
-/

namespace Sys2Proof.Machine

/-- Of element 64, in iteration 0: the first 64 bytes of block 0 of KV sequence 0. -/
def strayRegion : Nat × Nat × Asp × Nat × Nat := (64, 0, .kv, 0, 64)

/-- The element's instruction: a streaming LD of the KV space. -/
def strayLoad : MWord :=
  { prd := .always, sz := 3, asp := .kv, mode := .stm, scope := .nd, t0 := .slot 5 .l, dt := 70, seq := 1, prev := 0, next := 0,
    sbw := none }

/-- Node 0 runs, and the start token of its element is there. The sequence's record at CSM offset 0 names one block of 64 bytes a
row, whose entry, at address 0, says that it is resident at address 64. The first die's translation cache has the page of both: a
leaf of level 4 with R at physical address 0, in HBM. -/
def strayStream : State :=
  { State.reset with
    mem := [(0, 64), (7, 0x20), (csmKey 8, 1), (csmKey 16, 1)]
    tlb := [(tlbDie 0, [{ asid := 0, level := 4, vpn := 0, pte := 2 ^ 61 + 2 ^ 57 }])]
    kernels := [(0, { queue := 0, recno := 0, rank := 0, age := 0, part := 0, asid := 0, die := 0, x := 0, y := 0, w := 1, h := 1 })]
    nodes := [(0, { asg := some { kernel := 0, sec := 0, num := 0, part := 0, asid := 0, entry := 0 }
                    invs := [{ n := 0, ws := 0 }], regs := [strayRegion] })]
    clusters := [(0, { ctx := [(64, { word := 0xB01C42148C040000 })]
                       store := [{ pl := 0, ix := 64, pt := .q, ws := 0, it := 0, kd := .data, gn := 0, o := {} }] })] }

theorem live_strayStream : strayStream.live (nkOf 0 0) = true := by decide +kernel

theorem streamStarted_strayStream : strayStream.streamStarted (nkOf 0 0) 64 0 = true := by decide +kernel

theorem ctxInstr_strayStream : ctxInstr (strayStream.cl 0) 0 64 = some (.ld strayLoad) := by decide +kernel

theorem locate_strayStream :
    locate strayStream (strayStream.party (nkOf 0 0)) .kv 0 64 0 permR = .piece [{ key := 64, size := 64, lane := 0, slot := some 0 }] := by
  decide +kernel

/-- The state after the granule was read. -/
def strayStreamNext : State := strayStream.readAhead (nkOf 0 0) 64 0 0

theorem exec_streamReadAhead_strayStream : exec (.streamReadAhead 0 0 64 0 0) strayStream = .next strayStreamNext := by
  show execStreamReadAhead 0 0 64 0 0 strayStream = _
  rw [execStreamReadAhead, if_pos live_strayStream]
  rfl

theorem kbtb_strayStream : (strayStream.cl 0).kbtb.length = 0 := by decide +kernel

theorem kbtb_strayStreamNext : (strayStreamNext.cl 0).kbtb.length = 1 := by decide +kernel

theorem not_streamsReadAheadR91 : ¬ StreamsReadAheadR91 := by
  intro h
  obtain ⟨-, hreads⟩ := h strayStream 0 0 64 0 0 (by decide)
  obtain ⟨t, ht, -, hclusters, -⟩ := hreads live_strayStream streamStarted_strayStream (.ld strayLoad) .ld strayLoad .kv 0 64 _
    ctxInstr_strayStream rfl rfl rfl rfl locate_strayStream rfl rfl rfl
  rw [exec_streamReadAhead_strayStream] at ht
  obtain rfl := Host.Outcome.next.inj ht
  have hlen := congrArg (fun cs => (Tab.get {} cs 0).kbtb.length) hclusters
  change (strayStreamNext.cl 0).kbtb.length = (strayStream.cl 0).kbtb.length at hlen
  rw [kbtb_strayStreamNext, kbtb_strayStream] at hlen
  exact absurd hlen (by decide)

/-- Refutes O27: reading ahead in a region of the KV space, which no LDRGN declares but a node may list, fills the KBTB of its
cluster. -/
theorem not_memoryInstructionsJoinTheChainR106 : ¬ Obligations.MemoryInstructionsJoinTheChainR106 := by
  rintro ⟨-, -, hstreams⟩
  exact not_streamsReadAheadR91 hstreams

end Sys2Proof.Machine
end

