-- ==== Sys2Proof/Proofs/Digits.lean ====
section
/-!
SUPPORT. Numbers by their digits of `w` bits: a digit replaced, and a sum whose terms each fill one digit. The bytes that a load
puts together, its forwarded bytes and the lanes of a bulk atomic are such digits.
-/

namespace Sys2Proof

/-- The digits of a number that is cut into a low part of `j` digits, one digit and a high part. -/
theorem digit_cut (w j k hi b lo : Nat) (hb : b < 2 ^ w) (hlo : lo < 2 ^ (w * j)) :
    ((hi * 2 ^ w + b) * 2 ^ (w * j) + lo) / 2 ^ (w * k) % 2 ^ w =
      if k = j then b else if k < j then lo / 2 ^ (w * k) % 2 ^ w else hi / 2 ^ (w * (k - j - 1)) % 2 ^ w := by
  have hdiv : ((hi * 2 ^ w + b) * 2 ^ (w * j) + lo) / 2 ^ (w * j) = hi * 2 ^ w + b := by
    rw [Nat.mul_comm, Nat.mul_add_div (Nat.two_pow_pos _), Nat.div_eq_of_lt hlo, Nat.add_zero]
  rcases Nat.lt_trichotomy k j with hk | hk | hk
  · obtain ⟨d, rfl⟩ : ∃ d, j = k + 1 + d := ⟨j - (k + 1), by omega⟩
    have hpow : 2 ^ (w * (k + 1 + d)) = 2 ^ (w * k) * (2 ^ w * 2 ^ (w * d)) := by
      rw [← Nat.pow_add, ← Nat.pow_add]; congr 1; ring
    rw [if_neg (by omega), if_pos hk, hpow, Nat.mul_left_comm, Nat.mul_add_div (Nat.two_pow_pos _), Nat.mul_left_comm,
      Nat.mul_add_mod]
  · rw [if_pos hk, hk, hdiv, Nat.mul_comm, Nat.mul_add_mod, Nat.mod_eq_of_lt hb]
  · obtain ⟨d, rfl⟩ : ∃ d, k = j + 1 + d := ⟨k - (j + 1), by omega⟩
    have hpow : 2 ^ (w * (j + 1 + d)) = 2 ^ (w * j) * (2 ^ w * 2 ^ (w * d)) := by
      rw [← Nat.pow_add, ← Nat.pow_add]; congr 1; ring
    rw [if_neg (by omega), if_neg (by omega), hpow, ← Nat.div_div_eq_div_mul, hdiv, ← Nat.div_div_eq_div_mul, Nat.mul_comm,
      Nat.mul_add_div (Nat.two_pow_pos _), Nat.div_eq_of_lt hb, Nat.add_zero, show j + 1 + d - j - 1 = d by omega]

/-- Replacing digit `j` of a number changes that digit alone. -/
theorem digit_replace (w v b j k : Nat) (hb : b < 2 ^ w) :
    (v - v / 2 ^ (w * j) % 2 ^ w * 2 ^ (w * j) + b * 2 ^ (w * j)) / 2 ^ (w * k) % 2 ^ w =
      if k = j then b else v / 2 ^ (w * k) % 2 ^ w := by
  have hlo : v % 2 ^ (w * j) < 2 ^ (w * j) := Nat.mod_lt _ (Nat.two_pow_pos _)
  have hd : v / 2 ^ (w * j) % 2 ^ w < 2 ^ w := Nat.mod_lt _ (Nat.two_pow_pos _)
  have hv : (v / 2 ^ (w * j) / 2 ^ w * 2 ^ w + v / 2 ^ (w * j) % 2 ^ w) * 2 ^ (w * j) + v % 2 ^ (w * j) = v := by
    rw [Nat.div_add_mod', Nat.div_add_mod']
  have hnew : v - v / 2 ^ (w * j) % 2 ^ w * 2 ^ (w * j) + b * 2 ^ (w * j)
      = (v / 2 ^ (w * j) / 2 ^ w * 2 ^ w + b) * 2 ^ (w * j) + v % 2 ^ (w * j) := by
    rw [Nat.add_mul] at hv ⊢
    omega
  have hold := digit_cut w j k (v / 2 ^ (w * j) / 2 ^ w) _ _ hd hlo
  rw [hv] at hold
  rw [hnew, digit_cut w j k _ b _ hb hlo, hold]
  split <;> rfl

/-- A number whose digit `j` is zero takes a digit there. -/
theorem digit_add (w v b j k : Nat) (hb : b < 2 ^ w) (hv : v / 2 ^ (w * j) % 2 ^ w = 0) :
    (v + b * 2 ^ (w * j)) / 2 ^ (w * k) % 2 ^ w = if k = j then b else v / 2 ^ (w * k) % 2 ^ w := by
  have h := digit_replace w v b j k hb
  rwa [hv, Nat.zero_mul, Nat.sub_zero] at h

/-- Bits above a cut do not change the digits below it. -/
theorem mod_digit (v : Nat) {w k n : Nat} (hn : w * (k + 1) ≤ n) :
    v % 2 ^ n / 2 ^ (w * k) % 2 ^ w = v / 2 ^ (w * k) % 2 ^ w := by
  rw [Nat.mul_succ] at hn
  have hcut : 2 ^ n = 2 ^ (w * k) * 2 ^ (n - w * k) := by rw [← Nat.pow_add, Nat.add_sub_cancel' (by omega)]
  rw [hcut, Nat.mod_mul_right_div_self, Nat.mod_mod_of_dvd _ (Nat.pow_dvd_pow 2 (by omega))]

theorem digit_ofNat (v : Nat) {w k n : Nat} (hn : w * (k + 1) ≤ n) :
    (BitVec.ofNat n v).toNat / 2 ^ (w * k) % 2 ^ w = v / 2 ^ (w * k) % 2 ^ w := by
  rw [BitVec.toNat_ofNat, mod_digit v hn]

/-- The digits at the listed places, on top of `v`. -/
def sumDigits (w v : Nat) (l : List (Nat × Nat)) : Nat := l.foldl (fun v e => v + e.2 * 2 ^ (w * e.1)) v

/-- Each place that is listed once, and is zero before, holds its digit. -/
theorem digit_sumDigits (w k : Nat) : ∀ (l : List (Nat × Nat)) (v : Nat), (l.map (·.1)).Nodup → (∀ e ∈ l, e.2 < 2 ^ w) →
    (∀ e ∈ l, v / 2 ^ (w * e.1) % 2 ^ w = 0) →
    sumDigits w v l / 2 ^ (w * k) % 2 ^ w = ((l.find? fun e => e.1 = k).map (·.2)).getD (v / 2 ^ (w * k) % 2 ^ w) := by
  intro l
  induction l with
  | nil => intros; rfl
  | cons e l ih =>
    intro v hnodup hlt hzero
    obtain ⟨hnew, hnodup⟩ := List.nodup_cons.1 hnodup
    have hother : ∀ x ∈ l, x.1 ≠ e.1 := fun x hx h => hnew (List.mem_map.2 ⟨x, hx, h⟩)
    have hput := fun j => digit_add w v e.2 e.1 j (hlt e List.mem_cons_self) (hzero e List.mem_cons_self)
    have hrest := ih (v + e.2 * 2 ^ (w * e.1)) hnodup (fun x hx => hlt x (List.mem_cons_of_mem _ hx)) fun x hx => by
      rw [hput, if_neg (hother x hx), hzero x (List.mem_cons_of_mem _ hx)]
    rw [sumDigits, List.foldl_cons, ← sumDigits, hrest, hput]
    by_cases hk : e.1 = k
    · have hnone : l.find? (fun x => x.1 = k) = none :=
        List.find?_eq_none.2 fun x hx h => hother x hx ((of_decide_eq_true h).trans hk.symm)
      simp [hk, hnone]
    · simp [hk, Ne.symm hk]

/-- The digits of lanes laid side by side. -/
theorem digit_foldl_range (w n k : Nat) (f : Nat → Nat) (hk : k < n) (hf : ∀ i, f i < 2 ^ w) :
    (List.range n).foldl (fun a i => a + f i * 2 ^ (w * i)) 0 / 2 ^ (w * k) % 2 ^ w = f k := by
  have h := digit_sumDigits w k ((List.range n).map fun i => (i, f i)) 0
    (by simpa [List.map_map, Function.comp_def] using List.nodup_range) (by simp [hf]) (by simp)
  rw [sumDigits, List.foldl_map] at h
  rw [h, List.find?_map]
  have hfind : (List.range n).find? ((fun e : Nat × Nat => decide (e.1 = k)) ∘ fun i => (i, f i)) = some k := by
    rw [List.find?_range_eq_some]
    simp only [Function.comp_apply, decide_eq_true_eq, List.mem_range, hk, Bool.not_eq_true', decide_eq_false_iff_not, true_and]
    intro j hj
    omega
  rw [hfind]
  rfl

end Sys2Proof
end

