-- ==== Sys2Proof/Proofs/AtomicValues.lean ====
section
/-!
PROOF. The new value of each read-modify-write (R101 to R103): on bit vectors for an atomic, lane by lane for BRED and BUPD (O29).
-/

namespace Sys2Proof.Machine

/-! ### A rounded result is a pattern of its format -/

theorem FF.nan_lt (f : FF) : f.nan < 2 ^ f.width := by cases f <;> decide

theorem FF.infPat_lt (f : FF) (neg : Bool) : f.infPat neg < 2 ^ f.width := by cases f <;> cases neg <;> decide

theorem FF.max_lt (f : FF) (neg : Bool) : f.max neg < 2 ^ f.width := by cases f <;> cases neg <;> decide

theorem FF.zero_lt (f : FF) (neg : Bool) : f.zero neg < 2 ^ f.width := by cases f <;> cases neg <;> decide

theorem FF.overflow_lt (f : FF) (mode : RM) (sat neg : Bool) : f.overflow mode sat neg < 2 ^ f.width := by
  unfold FF.overflow
  extract_lets toInf
  split
  · exact f.max_lt neg
  · split
    · next hf => subst hf; cases neg <;> decide
    · exact f.infPat_lt neg

theorem FF.round_lt (f : FF) (mode : RM) (sat neg : Bool) (m : Nat) (e : Int) : (f.round mode sat neg m e).1 < 2 ^ f.width := by
  unfold FF.round
  split
  · exact f.zero_lt neg
  · extract_lets top emin q r tiny fl expo pat
    split
    · exact f.overflow_lt mode sat neg
    · split
      · exact f.overflow_lt mode sat neg
      · next hpat =>
        have hmax : neg.toNat * 2 ^ (f.width - 1) + f.maxPat < 2 ^ f.width := f.max_lt neg
        dsimp only
        omega

theorem FF.ofFV_lt (f : FF) (mode : RM) (sat : Bool) (x : FV) : (f.ofFV mode sat x).1 < 2 ^ f.width := by
  cases x with
  | nan s => exact f.nan_lt
  | inf n =>
    cases f with
    | e4m3 =>
      cases sat
      · exact FF.nan_lt .e4m3
      · exact FF.max_lt _ n
    | e5m2 =>
      cases sat
      · exact FF.infPat_lt _ n
      · exact FF.max_lt _ n
    | e2m1 => exact FF.max_lt _ n
    | f64 | f32 | f16 | b16 => exact FF.infPat_lt _ n
  | fin n m e => exact f.round_lt mode sat n m e

theorem FF.add_lt (f : FF) (mode : RM) (sat : Bool) (x y : Nat) : (f.add mode sat x y).1 < 2 ^ f.width := f.ofFV_lt mode sat _

theorem afaddFmt_width {bytes : Nat} (h : bytes = 2 ∨ bytes = 4 ∨ bytes = 8) : (afaddFmt bytes).width = 8 * bytes := by
  rcases h with rfl | rfl | rfl <;> rfl

/-! ### Atomics -/

/-- A number below `2 ^ w` read as two's complement. -/
theorem sInt_toNat {w : Nat} (hw : 0 < w) (x : BitVec w) : sInt w x.toNat = x.toInt := by
  have hp : 2 ^ w = 2 * 2 ^ (w - 1) := by rw [← Nat.pow_succ']; congr 1; omega
  rw [sInt, BitVec.toInt_eq_toNat_cond, Nat.mod_eq_of_lt x.isLt]
  by_cases h : x.toNat < 2 ^ (w - 1)
  · rw [if_pos h, if_pos (by omega)]
  · rw [if_neg h, if_neg (by omega)]; norm_cast

/-- What `rmwNew` gives for an atomic on its own width (R101, R102). -/
theorem rmwNew_atomic {op : Op} {bytes : Nat} (old : BitVec (8 * bytes)) (b c : W64) (hop : opAtomic op = true)
    (hbytes : bytes = 2 ∨ bytes = 4 ∨ bytes = 8) :
    rmwNew op bytes old.toNat b.toNat c.toNat = (atomicNew op bytes old (b.setWidth (8 * bytes)) (c.setWidth (8 * bytes))).toNat := by
  have hw : 0 < 8 * bytes := by omega
  have hx (v : W64) : v.toNat % 2 ^ (8 * bytes) = (v.setWidth (8 * bytes)).toNat := (BitVec.toNat_setWidth ..).symm
  simp only [opAtomic, Bool.or_eq_true, decide_eq_true_eq, or_assoc] at hop
  rcases hop with rfl | rfl | rfl | rfl | rfl | rfl | rfl | rfl | rfl <;> simp only [rmwNew, atomicNew, hx, sInt_toNat hw]
  · exact (BitVec.toNat_add ..).symm
  · split <;> rfl
  · split <;> rfl
  · exact (BitVec.toNat_and ..).symm
  · exact (BitVec.toNat_or ..).symm
  · exact (BitVec.toNat_xor ..).symm
  · simp only [BitVec.toNat_inj]
    split <;> rfl
  · have hlt := (afaddFmt bytes).add_lt .rne false old.toNat (b.setWidth (8 * bytes)).toNat
    rw [afaddFmt_width hbytes] at hlt
    exact (Nat.mod_eq_of_lt hlt).symm.trans (BitVec.toNat_ofNat ..).symm

/-! ### Lanes -/

/-- A lane that lies below the width of a bulk atomic is one of the old bytes. -/
theorem lane_mod_bytes (v : V512) {bytes k : Nat} (hbytes : bytes = 32 ∨ bytes = 64) (hk : 4 * k < bytes) :
    v.toNat % 2 ^ (8 * bytes) / 2 ^ (32 * k) % 2 ^ 32 = (elem 32 k (.vec v)).toNat := by
  rw [elem_toNat, Val.lane, mod_digit v.toNat (by omega)]

/-- BRED adds and BUPD multiplies and adds lane by lane (R103). -/
theorem rmwNew_lanes (old a b : V512) {bytes k : Nat} (hbytes : bytes = 32 ∨ bytes = 64) (hk : 4 * k < bytes) :
    let lane (v : V512) : Nat := (elem 32 k (.vec v)).toNat
    let o := old.toNat % 2 ^ (8 * bytes)
    rmwNew .bred bytes o a.toNat b.toNat / 2 ^ (32 * k) % 2 ^ 32 = (FF.f32.add .rne false (lane old) (lane a)).1
    ∧ rmwNew .bupd bytes o a.toNat b.toNat / 2 ^ (32 * k) % 2 ^ 32
      = (FF.f32.ofFV .rne false (fvFma false (FF.f32.dec (lane a)) (FF.f32.dec (lane old)) (FF.f32.dec (lane b)) .rne).1).1 := by
  intro lane o
  have hn : k < bytes / 4 := by omega
  have hold : o / 2 ^ (32 * k) % 2 ^ 32 = lane old := lane_mod_bytes old hbytes hk
  have hlane (v : V512) : v.toNat / 2 ^ (32 * k) % 2 ^ 32 = lane v := (elem_toNat 32 k (.vec v)).symm
  constructor
  · refine (digit_foldl_range 32 _ k _ hn fun i => FF.f32.add_lt ..).trans ?_
    dsimp only
    rw [hold, hlane]
  · refine (digit_foldl_range 32 _ k _ hn fun i => FF.f32.ofFV_lt ..).trans ?_
    dsimp only
    rw [hold, hlane, hlane]

/-- Settles O29: an atomic's new value on bit vectors, and the lanes of a bulk atomic. -/
theorem atomicsComputeR101 : Obligations.AtomicsComputeR101 :=
  ⟨fun _ _ old _ _ hop hbytes b c hb hc => hb ▸ hc ▸ rmwNew_atomic old b c hop hbytes,
    fun old a b _ _ hbytes hk => rmwNew_lanes old a b hbytes hk⟩

end Sys2Proof.Machine
end

