-- ==== Sys2Proof/Proofs/InterfaceRules.lean ====
section
/-!
SUPPORT. The rules of the memory interface: what one reads of a chain entry after it is changed, what each operation of the interface
leaves as it was, a message on its way, the result of an access, and an access that is performed.
-/

namespace Sys2Proof.Machine

/-! ### Chain entries -/

theorem State.mif_congr {s t : State} (h : partsOf Node.mif t.nodes = partsOf Node.mif s.nodes) (nk : Nat) :
    (t.nd nk).mif = (s.nd nk).mif := congrFun h nk

theorem State.accOf_congr {s t : State} (h : partsOf Node.mif t.nodes = partsOf Node.mif s.nodes) (nk id : Nat) :
    t.accOf nk id = s.accOf nk id := congrArg (List.find? fun a : Acc => a.id = id) (congrFun h nk)

theorem State.part_congr {s t : State} (h : partsOf Node.asg t.nodes = partsOf Node.asg s.nodes) (nk : Nat) :
    (t.nd nk).part = (s.nd nk).part := congrArg (fun o : Option Assign => (o.map Assign.part).getD 0) (congrFun h nk)

/-- An entry is found again after a change that keeps its number. -/
theorem State.accOf_modAcc {f : Acc → Acc} (hf : ∀ a, (f a).id = a.id) (s : State) (nk id : Nat) :
    (s.modAcc nk id f).accOf nk id = (s.accOf nk id).map f := by
  unfold State.accOf State.modAcc
  rw [State.nd_modNd_same]
  exact find?_modFirst (fun a ha => by simpa only [hf] using ha) _

theorem State.accOf_modAcc_entry {f : Acc → Acc} (hf : ∀ a, (f a).id = a.id) {s : State} {nk : Nat} {a : Acc}
    (ha : s.accOf nk a.id = some a) : (s.modAcc nk a.id f).accOf nk a.id = some (f a) := by
  rw [State.accOf_modAcc hf, ha, Option.map_some]

theorem State.id_of_accOf {s : State} {nk id : Nat} {a : Acc} (h : s.accOf nk id = some a) : a.id = id := by
  simpa using List.find?_some h

/-! ### What the operations leave alone -/

@[simp] theorem State.modAcc_memx (s : State) (nk id : Nat) (f : Acc → Acc) : (s.modAcc nk id f).memx = s.memx := rfl
@[simp] theorem State.modAcc_inbox (s : State) (nk id : Nat) (f : Acc → Acc) : (s.modAcc nk id f).inbox = s.inbox := rfl
@[simp] theorem State.modAcc_asgs (s : State) (nk id : Nat) (f : Acc → Acc) :
    partsOf Node.asg (s.modAcc nk id f).nodes = partsOf Node.asg s.nodes := by simp [State.modAcc]

@[simp] theorem State.outAdd_memx (s : State) (nk gn : Nat) : (s.outAdd nk gn).memx = s.memx := rfl
@[simp] theorem State.outAdd_inbox (s : State) (nk gn : Nat) : (s.outAdd nk gn).inbox = s.inbox := rfl
@[simp] theorem State.outAdd_clusters (s : State) (nk gn : Nat) : (s.outAdd nk gn).clusters = s.clusters := rfl
@[simp] theorem State.outAdd_mifs (s : State) (nk gn : Nat) : partsOf Node.mif (s.outAdd nk gn).nodes = partsOf Node.mif s.nodes := by
  simp [State.outAdd]
@[simp] theorem State.outAdd_asgs (s : State) (nk gn : Nat) : partsOf Node.asg (s.outAdd nk gn).nodes = partsOf Node.asg s.nodes := by
  simp [State.outAdd]

@[simp] theorem State.accOf_post (s : State) (m : Parcel) (nk id : Nat) : (s.post m).accOf nk id = s.accOf nk id :=
  State.accOf_congr (congrArg _ (State.post_nodes ..)) nk id
@[simp] theorem State.post_memx (s : State) (m : Parcel) : (s.post m).memx = s.memx := by unfold State.post; split <;> rfl

@[simp] theorem State.sendDone_memx (s : State) (nk : Nat) (a : Acc) : (s.sendDone nk a).memx = s.memx := by
  unfold State.sendDone; split <;> rfl

@[simp] theorem State.accReply_memx (s : State) (nk : Nat) (a : Acc) (v : Val) : (s.accReply nk a v).memx = s.memx := by
  unfold State.accReply
  split
  · dsimp only; split <;> rfl
  · rfl
@[simp] theorem State.accReply_sr (s : State) (nk : Nat) (a : Acc) (v : Val) : (s.accReply nk a v).sr = s.sr := by
  unfold State.accReply
  split
  · dsimp only; split <;> rfl
  · rfl
@[simp] theorem State.accReply_inbox (s : State) (nk : Nat) (a : Acc) (v : Val) : (s.accReply nk a v).inbox = s.inbox := by
  unfold State.accReply
  split
  · dsimp only; split <;> rfl
  · rfl
@[simp] theorem State.accReply_mifs (s : State) (nk : Nat) (a : Acc) (v : Val) :
    partsOf Node.mif (s.accReply nk a v).nodes = partsOf Node.mif s.nodes := by
  unfold State.accReply
  split
  · dsimp only; split <;> simp
  · rfl
@[simp] theorem State.accReply_asgs (s : State) (nk : Nat) (a : Acc) (v : Val) :
    partsOf Node.asg (s.accReply nk a v).nodes = partsOf Node.asg s.nodes := by
  unfold State.accReply
  split
  · dsimp only; split <;> simp
  · rfl

@[simp] theorem State.accDone_memx (s : State) (nk : Nat) (a : Acc) : (s.accDone nk a).memx = s.memx := by
  unfold State.accDone; dsimp only; split <;> simp

/-! ### Messages on their way -/

/-- A message that is on its way stays there while others set out. -/
theorem Posted.post {s : State} {m : Parcel} (h : Posted s m) (m' : Parcel) : Posted (s.post m') m := by
  unfold Posted State.post at *
  split
  · next hm =>
    rw [if_pos hm] at h
    split
    · exact List.mem_append_left _ h
    · exact h
  · next hm =>
    rw [if_neg hm] at h
    split
    · exact h
    · by_cases hs : m.src = m'.src
      · dsimp only
        rw [hs, Tab.get_mod_same]
        exact List.mem_append_left _ (hs ▸ h)
      · rwa [Tab.get_mod_other _ _ _ _ _ hs]

theorem State.posted_post (s : State) (m : Parcel) : Posted (s.post m) m := by
  unfold Posted State.post
  split
  · exact List.mem_append_right _ List.mem_cons_self
  · dsimp only
    rw [Tab.get_mod_same]
    exact List.mem_append_right _ List.mem_cons_self

/-! ### Results -/

/-- The result of an access reaches T0 as one token, under the access's own status but for the error bit that it is given. -/
theorem State.repliesWith_accReply (s : State) (nk : Nat) (a : Acc) (er : Bool) (v : Val) :
    RepliesWith s (s.accReply nk { a with er := er } v) nk a er v := by
  constructor
  · intro ix pt ht
    have ht : Acc.w { a with er := er } = a.w := rfl
    unfold State.accReply
    rw [ht, ‹a.w.t0 = _›]
    dsimp only
    refine ⟨{ pl := nk % 8, ix := ix.toNat, pt := pt, ws := a.ws, it := a.n % 65536, gn := a.gn
              kd := (arriveAs pt .reply { val := v, ns := a.ns, em := a.em, er := er }).1
              o := (arriveAs pt .reply { val := v, ns := a.ns, em := a.em, er := er }).2 }, ?_, ⟨rfl, rfl, rfl, rfl, rfl, rfl⟩, ?_, ?_⟩
    · rw [State.pushTok, State.cl_modCl_same]
      split <;> rfl
    · intro hp; simp [arriveAs, hp]
    · intro hp; simp [arriveAs, hp]
  · intro ht
    have hw : Acc.w { a with er := er } = a.w := rfl
    unfold State.accReply
    rw [hw, ht]

theorem RepliesWith.of_clusters {s t u : State} {nk : Nat} {a : Acc} {er : Bool} {v : Val} (h : RepliesWith s t nk a er v)
    (hu : u.clusters = t.clusters) : RepliesWith s u nk a er v := by
  have hc : u.cl (nk / 8) = t.cl (nk / 8) := congrArg (fun cs => Tab.get ({} : Cluster) cs (nk / 8)) hu
  unfold RepliesWith
  rwa [hc]

/-! ### An access that is performed -/

theorem State.accOf_accDone (s : State) (nk : Nat) (a : Acc) :
    (s.accDone nk a).accOf nk a.id = (s.accOf nk a.id).map fun e => { e with st := .performed } := by
  have h : (s.accDone nk a).nodes = (s.modAcc nk a.id fun e => { e with st := .performed }).nodes := by
    unfold State.accDone; dsimp only; split <;> simp
  exact (State.accOf_congr (congrArg _ h) nk a.id).trans (State.accOf_modAcc (by intro; rfl) ..)

/-- An access that writes nothing gives its done token when it is performed. -/
theorem State.inbox_accDone {s : State} {nk : Nat} {a : Acc} (hw : a.writes = false) :
    (s.accDone nk a).inbox = if a.w.dt.toNat = a.ix then s.inbox else s.inbox ++ [doneParcel s nk a] := by
  have hr : a.doneAtRelease = false := by simp [Acc.doneAtRelease, hw]
  have hp : ((s.modAcc nk a.id fun e => { e with st := .performed }).nd nk).part = (s.nd nk).part := State.part_congr (by simp) nk
  unfold State.accDone
  simp only [hr, Bool.false_eq_true, ↓reduceIte]
  unfold State.sendDone
  rw [hp]
  split <;> rfl

/-- What an operation leaves of a state on the way to performing an access where it stands. -/
structure BeforeDone (s t : State) (nk : Nat) : Prop where
  mem : t.mem = s.mem
  memx : t.memx = s.memx
  sr : t.sr = s.sr
  inbox : t.inbox = s.inbox
  mif : (t.nd nk).mif = (s.nd nk).mif
  part : (t.nd nk).part = (s.nd nk).part

theorem BeforeDone.refl (s : State) (nk : Nat) : BeforeDone s s nk := ⟨rfl, rfl, rfl, rfl, rfl, rfl⟩

theorem BeforeDone.accReply (s : State) (nk : Nat) (a : Acc) (v : Val) : BeforeDone s (s.accReply nk a v) nk :=
  ⟨by simp, by simp, by simp, by simp, State.mif_congr (by simp) nk, State.part_congr (by simp) nk⟩

theorem BeforeDone.modCl (s : State) (nk c : Nat) (f : Cluster → Cluster) : BeforeDone s (s.modCl c f) nk :=
  ⟨rfl, rfl, rfl, rfl, rfl, rfl⟩

theorem BeforeDone.performed {s t : State} {nk : Nat} {a : Acc} (h : BeforeDone s t nk) (ha : s.accOf nk a.id = some a)
    (hw : a.writes = false) : PerformedInPlace s (t.accDone nk a) nk a := by
  have hacc : t.accOf nk a.id = some a := (congrArg (List.find? fun e : Acc => e.id = a.id) h.mif).trans ha
  refine ⟨by rw [State.accOf_accDone, hacc]; rfl, ?_, by rw [State.accDone_mem, h.mem], by rw [State.accDone_memx, h.memx],
    by rw [State.accDone_sr, h.sr]⟩
  have hdone : doneParcel t nk a = doneParcel s nk a := by unfold doneParcel; rw [h.part]
  rw [GivesDone, State.inbox_accDone hw, h.inbox, hdone]

/-- What the node has read ahead is dropped when an access is performed that orders later ones (R110, R128). -/
theorem PerformedInPlace.dropsAhead {s t : State} {nk : Nat} {a : Acc} (h : PerformedInPlace s t nk a) :
    PerformedInPlace s (t.modNd nk fun n => { n with stmBuf := [] }) nk a := by
  obtain ⟨hacc, hdone, hmem, hmemx, hsr⟩ := h
  exact ⟨(State.accOf_congr (State.modNd_parts _ _ _ _ (by intro; rfl)) ..).trans hacc, hdone, hmem, hmemx, hsr⟩

/-! ### How an instruction goes on -/

/-- Every instruction of the chain fires, and goes on, in the one way; an entry that holds it has its operation. -/
theorem memoryOps_forall : ∀ p ∈ memoryOps, ∀ w,
    (∀ s, exec (p.2 w) s = memExec p.1 (p.2 w) w s) ∧ (p.2 w).view = some (p.1, .m w) := by
  simp only [memoryOps, List.forall_mem_cons, List.not_mem_nil, IsEmpty.forall_iff, implies_true, and_true]
  and_intros <;> exact fun w => ⟨fun s => rfl, rfl⟩

theorem exec_memoryOp {op : Op} {ins : MWord → Instr} (h : (op, ins) ∈ memoryOps) (w : MWord) (s : State) :
    exec (ins w) s = memExec op (ins w) w s := (memoryOps_forall _ h w).1 s

theorem Acc.op_of_instr {op : Op} {ins : MWord → Instr} (h : (op, ins) ∈ memoryOps) {a : Acc} {w : MWord} (ha : a.instr = ins w) :
    a.op = op := by
  unfold Acc.op
  rw [ha, (memoryOps_forall _ h w).2]
  rfl

/-- The interface goes on with the entry. -/
theorem Proceeds.exec {s : State} {i : Issue} {a : Acc} {bs : List Acc} (h : Proceeds s i a bs) {op : Op} {ins : MWord → Instr}
    (hop : (op, ins) ∈ memoryOps) (w : MWord) : exec (ins w) s = .next (memPerform i s) := by
  obtain ⟨hcur, hperform, -, -⟩ := h
  rw [exec_memoryOp hop, memExec, hcur]
  simp only [hperform, ↓reduceIte]

theorem Proceeds.entry {s : State} {i : Issue} {a : Acc} {bs : List Acc} (h : Proceeds s i a bs) : s.accOf i.nk a.id = some a := by
  obtain ⟨-, -, hacc, -⟩ := h
  rwa [State.id_of_accOf hacc]

end Sys2Proof.Machine
end

