-- ==== Sys2Proof/Proofs/Synchronisation.lean ====
section
/-!
PROOF. Synchronisation instructions complete or wait where the chain allows them (R128 to R135) (O30).
-/

namespace Sys2Proof.Machine

/-! ### What each instruction does at the interface -/

/-- The writes before a REL that lie in a region of its object and are not yet performed; none where the object cannot be read
(R129). -/
def relCovers (s : State) (nk : Nat) (a : Acc) (bs : List Acc) : List Nat :=
  let ok := !badAt s (csmKey a.va) && (objCheck s (nk / 8) a.va).isNone
  let regs := if ok then objRegions s a.va else []
  (bs.filter fun b => b.writes && !b.done && regs.any fun r => inRegion r b).map (·.id)

section
variable {s : State} {i : Issue} {a : Acc} {bs : List Acc} (h : Proceeds s i a bs)
include h

theorem memPerform_acq_bad (ho : a.op = .acq) (hbad : badAt s (csmKey a.va) = true) :
    memPerform i s = s.accFault i.nk a .uncorrectableError 2 a.va := by
  obtain ⟨-, -, hacc, hopen⟩ := h
  simp only [memPerform, hacc, hopen, ho, hbad, ↓reduceIte]

theorem memPerform_acq_fails (ho : a.op = .acq) (hbad : badAt s (csmKey a.va) = false) (hb : a.bound = none) {c : Cause}
    (hc : objCheck s (i.nk / 8) a.va = some c) : memPerform i s = s.accFault i.nk a c 0 a.va := by
  obtain ⟨-, -, hacc, hopen⟩ := h
  simp only [memPerform, hacc, hopen, ho, hbad, hb, hc, Bool.false_eq_true, ↓reduceIte, Option.isSome_none]

theorem memPerform_acq_passes (ho : a.op = .acq) (hbad : badAt s (csmKey a.va) = false)
    (hc : a.bound ≠ none ∨ objCheck s (i.nk / 8) a.va = none) :
    memPerform i s =
      if a.amount ≤ objWord s a.va 0 then
        ((s.accReply i.nk a (sc64 (objWord s a.va 0))).accDone i.nk a).modNd i.nk fun n => { n with stmBuf := [] }
      else if a.bound.isSome then s else s.modAcc i.nk a.id fun e => { e with bound := some (objRegions s a.va) } := by
  obtain ⟨-, -, hacc, hopen⟩ := h
  have hpass : (if a.bound.isSome then none else objCheck s (i.nk / 8) a.va) = none := by
    rcases hc with hc | hc
    · rw [if_pos (Option.isSome_iff_ne_none.2 hc)]
    · rw [hc, ite_self]
  simp only [memPerform, hacc, hopen, ho, hbad, hpass, Bool.false_eq_true, ↓reduceIte]

theorem memPerform_rel (ho : a.op = .rel) :
    memPerform i s = (s.modAcc i.nk a.id fun e => { e with st := .sent, cov := relCovers s i.nk a bs }).post
      { src := i.nk / 8, dst := placeOf (csmKey a.va), cls := 1, part := (s.nd i.nk).part, n := 64, body := .rel i.nk a.id } := by
  obtain ⟨-, -, hacc, hopen⟩ := h
  simp only [memPerform, hacc, hopen, ho, relCovers]

theorem memPerform_fence (ho : a.op = .fence) :
    memPerform i s = if (s.nd i.nk).oldest a.age && fenceMet a bs then s.accDone i.nk a else s := by
  obtain ⟨-, -, hacc, hopen⟩ := h
  simp only [memPerform, hacc, hopen, ho]

theorem memPerform_seminc (ho : a.op = .seminc) :
    let t := a.semAt (i.nk / 8)
    memPerform i s = if writesMet bs && semTurn i.nk t bs then
        (s.modAcc i.nk a.id fun e => { e with st := .sent }).post
          { src := i.nk / 8, dst := t.1, cls := 3, part := (s.nd i.nk).part
            body := .sem t.1 t.2 a.amount (a.w.sz = 1) (some (i.nk, a.id)) false }
      else s := by
  obtain ⟨-, -, hacc, hopen⟩ := h
  simp only [memPerform, hacc, hopen, ho]

theorem memPerform_semwait (ho : a.op = .semwait) :
    memPerform i s = if a.amount ≤ s.sem (a.semAt (i.nk / 8)).1 (a.semAt (i.nk / 8)).2 then s.semMet i.nk a else s := by
  obtain ⟨-, -, hacc, hopen⟩ := h
  simp only [memPerform, hacc, hopen, ho]

theorem memPerform_semrd (ho : a.op = .semrd) :
    let t := a.semAt (i.nk / 8)
    memPerform i s = (s.accReply i.nk { a with er := a.er || s.semFlag t.1 t.2 } (sc64 (s.sem t.1 t.2))).accDone i.nk a := by
  obtain ⟨-, -, hacc, hopen⟩ := h
  simp only [memPerform, hacc, hopen, ho]

theorem memPerform_sbwait (ho : a.op = .sbwait) :
    memPerform i s = ((s.accReply i.nk a (sc64 1)).accDone i.nk a).modNd i.nk fun n => { n with stmBuf := [] } := by
  obtain ⟨-, -, hacc, hopen⟩ := h
  simp only [memPerform, hacc, hopen, ho]

theorem memPerform_ttake (ho : a.op = .ttake) :
    memPerform i s = if s.tileFree (i.nk / 8) a.tile then
        ((s.modCl (i.nk / 8) fun x => { x with engTiles := x.engTiles.filter (· != a.tile) }).accDone i.nk a).modNd i.nk
          fun n => { n with stmBuf := [] }
      else s := by
  obtain ⟨-, -, hacc, hopen⟩ := h
  simp only [memPerform, hacc, hopen, ho]

theorem memPerform_tgive (ho : a.op = .tgive) : memPerform i s = s := by
  obtain ⟨-, -, hacc, hopen⟩ := h
  simp only [memPerform, hacc, hopen, ho]

end

/-- An access that sends a result and is performed where it stands. -/
theorem State.answers {s : State} {nk : Nat} {a : Acc} (ha : s.accOf nk a.id = some a) (hw : a.writes = false) (er : Bool) (v : Val) :
    PerformedInPlace s ((s.accReply nk { a with er := er } v).accDone nk a) nk a
      ∧ RepliesWith s ((s.accReply nk { a with er := er } v).accDone nk a) nk a er v :=
  ⟨(BeforeDone.accReply ..).performed ha hw, (s.repliesWith_accReply nk a er v).of_clusters (State.accDone_clusters ..)⟩

/-- The same where what the node has read ahead is dropped. -/
theorem State.answersAndDrops {s : State} {nk : Nat} {a : Acc} (ha : s.accOf nk a.id = some a) (hw : a.writes = false) (er : Bool)
    (v : Val) :
    let t := ((s.accReply nk { a with er := er } v).accDone nk a).modNd nk fun n => { n with stmBuf := [] }
    PerformedInPlace s t nk a ∧ RepliesWith s t nk a er v :=
  ⟨(State.answers ha hw er v).1.dropsAhead, (State.answers ha hw er v).2.of_clusters rfl⟩

/-- An operation that is no store and no read-modify-write. -/
theorem Acc.writes_of_op {a : Acc} {op : Op} (ho : a.op = op) (h : (opStore op || opRmw op) = false) : a.writes = false := by
  rw [Acc.writes, ho, h]

theorem mem_relCovers {s : State} {nk : Nat} {a : Acc} (hc : objCheck s (nk / 8) a.va = none) (hbad : badAt s (csmKey a.va) = false)
    (bs : List Acc) (k : Nat) : k ∈ relCovers s nk a bs
      ↔ ∃ b, b ∈ bs ∧ b.id = k ∧ b.writes = true ∧ b.done = false ∧ ∃ r, r ∈ objRegions s a.va ∧ inRegion r b = true := by
  simp only [relCovers, hbad, hc, Option.isNone_none, Bool.not_false, Bool.and_true, ↓reduceIte, List.mem_map, List.mem_filter,
    Bool.and_eq_true, Bool.not_eq_true', List.any_eq_true]
  constructor
  · rintro ⟨b, ⟨hb, ⟨hw, hd⟩, hr⟩, hk⟩; exact ⟨b, hb, hk, hw, hd, hr⟩
  · rintro ⟨b, hb, hk, hw, hd, hr⟩; exact ⟨b, ⟨hb, ⟨hw, hd⟩, hr⟩, hk⟩

theorem relCovers_nil {s : State} {nk : Nat} {a : Acc} (h : objCheck s (nk / 8) a.va ≠ none ∨ badAt s (csmKey a.va) = true)
    (bs : List Acc) : relCovers s nk a bs = [] := by
  have hok : (!badAt s (csmKey a.va) && (objCheck s (nk / 8) a.va).isNone) = false := by
    rw [Bool.and_eq_false_iff, Option.isNone_eq_false_iff, Option.isSome_iff_ne_none, Bool.not_eq_false']
    exact h.symm
  simp [relCovers, hok]

theorem fenceMet_iff (a : Acc) (bs : List Acc) :
    fenceMet a bs = true ↔ ∀ b, b ∈ bs → b.st = .performed
      ∨ (if b.age = a.age then opLoad b.op = false ∧ opAtomic b.op = false else opStore b.op = false ∧ opRmw b.op = false) := by
  simp only [fenceMet, List.all_eq_true, Bool.or_eq_true, Acc.done, decide_eq_true_eq, Acc.writes]
  refine forall₂_congr fun b _ => or_congr Iff.rfl ?_
  split <;> simp

theorem instructionsSynchroniseR128 : SynchronisationCompletesR128 := by
  intro s i a bs w h nk amount sem value sent
  have hent : s.accOf nk a.id = some a := h.entry
  have op (o : Op) (ins : MWord → Instr) (ho : (o, ins) ∈ memoryOps) (ha : a.instr = ins w) :
      a.op = o ∧ exec (ins w) s = .next (memPerform i s) := ⟨Acc.op_of_instr ho ha, h.exec ho w⟩
  refine ⟨fun ha hbad => ?acqBad, fun ha hbad => ?acq, fun ha => ?semwait, fun ha => ?semrd, fun ha => ?sbwait, fun ha => ?fence,
    fun ha => ?ttake, fun ha => ?seminc, fun ha => ?rel, fun ha => ?tgive⟩
  case acqBad =>
    obtain ⟨ho, hx⟩ := op .acq .acq (by simp [memoryOps]) ha
    rw [hx, memPerform_acq_bad h ho hbad]
  case acq =>
    obtain ⟨ho, hx⟩ := op .acq .acq (by simp [memoryOps]) ha
    rw [hx]
    refine ⟨fun c hb hc => by rw [memPerform_acq_fails h ho hbad hb hc], fun hc hle => ?_, fun hb hc hlt => ?_, fun hb hlt => ?_⟩
    · rw [memPerform_acq_passes h ho hbad hc, if_pos (show a.amount ≤ objWord s a.va 0 from hle)]
      exact ⟨_, rfl, State.answersAndDrops hent (Acc.writes_of_op ho rfl) a.er _⟩
    · rw [memPerform_acq_passes h ho hbad (.inr hc), if_neg (show ¬a.amount ≤ objWord s a.va 0 from Nat.not_le.2 hlt), hb]
      rfl
    · rw [memPerform_acq_passes h ho hbad (.inl hb), if_neg (show ¬a.amount ≤ objWord s a.va 0 from Nat.not_le.2 hlt),
        if_pos (Option.isSome_iff_ne_none.2 hb)]
  case semwait =>
    obtain ⟨ho, hx⟩ := op .semwait .semwait (by simp [memoryOps]) ha
    rw [hx, memPerform_semwait h ho]
    refine ⟨fun hle => ?_, fun hlt => by rw [if_neg (show ¬a.amount ≤ value from Nat.not_le.2 hlt)]⟩
    rw [if_pos (show a.amount ≤ value from hle)]
    exact ⟨_, rfl, State.answersAndDrops hent (Acc.writes_of_op ho rfl) _ _⟩
  case semrd =>
    obtain ⟨ho, hx⟩ := op .semrd .semrd (by simp [memoryOps]) ha
    rw [hx, memPerform_semrd h ho]
    exact ⟨_, rfl, State.answers hent (Acc.writes_of_op ho rfl) _ _⟩
  case sbwait =>
    obtain ⟨ho, hx⟩ := op .sbwait .sbwait (by simp [memoryOps]) ha
    rw [hx, memPerform_sbwait h ho]
    exact ⟨_, rfl, State.answersAndDrops hent (Acc.writes_of_op ho rfl) a.er _⟩
  case fence =>
    obtain ⟨ho, hx⟩ := op .fence .fence (by simp [memoryOps]) ha
    rw [hx, memPerform_fence h ho]
    intro met
    have hmet : fenceMet a bs = true ↔ met := fenceMet_iff a bs
    refine ⟨fun hold hm => ?_, fun hwait => ?_⟩
    · rw [if_pos (by rw [hold, hmet.2 hm]; rfl)]
      exact ⟨_, rfl, (BeforeDone.refl ..).performed hent (Acc.writes_of_op ho rfl)⟩
    · rw [if_neg]
      rw [Bool.and_eq_true, hmet]
      rintro ⟨hold, hm⟩
      exact hwait.elim (fun hnot => by rw [hold] at hnot; cases hnot) (· hm)
  case ttake =>
    obtain ⟨ho, hx⟩ := op .ttake .ttake (by simp [memoryOps]) ha
    rw [hx, memPerform_ttake h ho]
    refine ⟨fun hf => ?_, fun hf => by rw [hf]; rfl⟩
    rw [if_pos hf]
    refine ⟨_, rfl, ((BeforeDone.modCl ..).performed hent (Acc.writes_of_op ho rfl)).dropsAhead, fun k => ?_⟩
    rw [State.cl_modNd, State.cl, State.accDone_clusters, ← State.cl, State.cl_modCl_same, List.mem_filter, bne_iff_ne]
  case seminc =>
    obtain ⟨ho, hx⟩ := op .seminc .seminc (by simp [memoryOps]) ha
    rw [hx, memPerform_seminc h ho]
    refine ⟨fun hw hturn => ?_, fun hwait => ?_⟩
    · rw [if_pos (by rw [hw]; exact hturn)]
      exact ⟨_, rfl, ⟨by simp, by simp⟩, (State.accOf_post ..).trans (State.accOf_modAcc_entry (by intro; rfl) hent),
        State.posted_post ..⟩
    · rw [if_neg]
      rw [Bool.and_eq_true]
      rintro ⟨hw, hturn⟩
      exact hwait.elim (fun hnot => by rw [hw] at hnot; cases hnot) fun hnot => by
        have hturn : semTurn nk sem bs = true := hturn
        rw [hturn] at hnot; cases hnot
  case rel =>
    obtain ⟨ho, hx⟩ := op .rel .rel (by simp [memoryOps]) ha
    rw [hx, memPerform_rel h ho]
    exact ⟨_, relCovers s nk a bs, rfl, ⟨by simp, by simp⟩,
      (State.accOf_post ..).trans (State.accOf_modAcc_entry (by intro; rfl) hent), State.posted_post ..,
      fun hc hbad k => mem_relCovers hc hbad bs k, fun h => relCovers_nil h bs⟩
  case tgive =>
    obtain ⟨ho, hx⟩ := op .tgive .tgive (by simp [memoryOps]) ha
    rw [hx, memPerform_tgive h ho]

end Sys2Proof.Machine
end

