-- ==== Sys2Proof/Proofs/Arrivals.lean ====
section
/-!
SUPPORT. A message at the head of its inbox takes effect (R323), and what a write under the key of its granule leaves in memory (R350).
-/

namespace Sys2Proof.Machine

/-- The first message of the inbox takes effect when its kind is asked for. -/
theorem State.arriveAt_first {s u : State} {m : Parcel} {rest : List Parcel} (hin : s.inbox = m :: rest)
    (hdo : (s.picking 0).msgDo m = some u) (kind : Msg → Bool) (hk : kind m.body = true) : s.arriveAt 0 kind = u.kernelsCheck := by
  have hfirst : ∃ l, (s.picking 0).mayArriveFrom kind [] [] (s.picking 0).inbox = m :: l := by
    have hheld : ((s.picking 0).waitsFor m).any ([] : List Nat).contains = false := by cases (s.picking 0).waitsFor m <;> rfl
    rw [show (s.picking 0).inbox = m :: rest from hin, State.mayArriveFrom]
    simp [hdo, hk, hheld]
  obtain ⟨l, hl⟩ := hfirst
  unfold State.arriveAt
  dsimp only
  rw [hl]
  simp only [Nat.zero_mod, List.getElem?_cons_zero]
  rw [hdo]
  rfl

theorem memWrite_mem_congr {s t : State} (h : t.mem = s.mem) (k v n : Nat) : (memWrite t k v n).mem = (memWrite s k v n).mem := by
  induction n generalizing s t k v with
  | zero => exact h
  | succ n ih =>
    rw [memWrite_succ, memWrite_succ]
    exact ih (by rw [memPut_mem, memPut_mem, h]) _ _

/-- The granule of a key is not encrypted, or was written under the slot that is used. -/
def OwnKey (s : State) (k : Nat) (slot : Option Nat) : Prop :=
  ∀ x, slot = some x → Tab.get none s.memx.gkey (granule k) = slotMaterial s x

theorem ownKey_none (s : State) (k : Nat) : OwnKey s k none := fun _ h => by cases h

theorem writeUnder_mem {s : State} {k : Nat} {slot : Option Nat} (h : OwnKey s k slot) (n v : Nat) :
    (writeUnder s k n v slot).mem = (memWrite s k v n).mem := by
  unfold writeUnder
  extract_lets g sz mx t
  have ht : t.mem = s.mem := by dsimp only [t]; split <;> rfl
  cases slot with
  | none => exact memWrite_mem_congr ht k v n
  | some x =>
    have hkey : Tab.get none t.memx.gkey g = slotMaterial t x := by
      dsimp only [t]
      split <;> exact h x rfl
    dsimp only
    rw [if_pos hkey]
    exact memWrite_mem_congr ht k v n

theorem readUnder_snd {s : State} {k : Nat} {slot : Option Nat} (h : OwnKey s k slot) (n : Nat) :
    (readUnder s k n slot).2 = memRead s k n := by
  cases slot with
  | none => rfl
  | some x =>
    unfold readUnder
    dsimp only
    rw [if_pos (h x rfl)]

theorem memGet_congr {s t : State} (h : t.mem = s.mem) (k : Nat) : memGet t k = memGet s k := by rw [memGet, memGet, h]

/-- The bytes written are read again, and no other byte has changed. -/
theorem memRead_of_writeUnder {s t : State} {k n v : Nat} {slot : Option Nat} (h : OwnKey s k slot)
    (ht : t.mem = (writeUnder s k n v slot).mem) :
    memRead t k n = v % 2 ^ (8 * n) ∧ ∀ j, j < k ∨ k + n ≤ j → memGet t j = memGet s j := by
  have hmem := ht.trans (writeUnder_mem h n v)
  exact ⟨by rw [memRead_congr hmem, memRead_memWrite_same, Nat.pow_mul],
    fun j hj => by rw [memGet_congr hmem, memGet_memWrite_other n s k v j hj]⟩

end Sys2Proof.Machine
end

