-- ==== Sys2Proof/Proofs/Signals.lean ====
section
/-!
PROOF. Signals take effect where they arrive: at a semaphore, a sync object and an entry that waits for a done token (R94, R129, R131,
R132) (O30).
-/

namespace Sys2Proof.Machine

/-! ### Semaphores -/

/-- The number of a semaphore after an increment or a setting (R131, R146). -/
def semNext (s : State) (c k amt : Nat) (set : Bool) : Nat := if set then amt % 2 ^ 32 else min (s.sem c k + amt) 0xffffffff

theorem semNext_lt (s : State) (c k amt : Nat) (set : Bool) : semNext s c k amt set < 2 ^ 32 := by unfold semNext; split <;> omega

/-- What waits for a semaphore sends tokens; the semaphore alone changes in the clusters' work. -/
theorem State.semApply_works_eq (s : State) (c k amt : Nat) (set flag : Bool) :
    (s.semApply c k amt set flag).works =
      (s.modCl c fun x => { x with sems := Tab.putD 0 x.sems k (BitVec.ofNat 32 (semNext s c k amt set)) }).works := by
  unfold State.semApply
  extract_lets old v part s1 s2
  have h1 : s1.clusters = s.clusters := by dsimp only [s1]; split <;> simp
  have h2 : (s.modCl c fun x => { x with sems := Tab.putD 0 x.sems k (BitVec.ofNat 32 (semNext s c k amt set)) }).works = s2.works := by
    funext d
    have hcl (e : Nat) : s1.cl e = s.cl e := congrArg (fun cs => Tab.get ({} : Cluster) cs e) h1
    unfold State.works
    by_cases hd : d = c
    · rw [hd, State.cl_modCl_same, State.cl_modCl_same, hcl]; rfl
    · rw [State.cl_modCl_other _ _ _ _ hd, State.cl_modCl_other _ _ _ _ hd, hcl]
  rw [h2]
  refine foldl_keeps State.works _ (fun s e => foldl_keeps State.works _ (fun s a => ?_) _ _) _ _
  split
  · rfl
  · split
    · exact State.semMet_works ..
    · rfl

/-- An increment or a setting changes one number, whatever waits for it. -/
theorem State.semApply_sem (s : State) (c k amt : Nat) (set flag : Bool) (d j : Nat) :
    (s.semApply c k amt set flag).sem d j = if d = c ∧ j = k then semNext s c k amt set else s.sem d j := by
  have hsem (t : State) : t.sem d j = (Tab.get 0 (t.works d).sems j).toNat := rfl
  rw [hsem, State.semApply_works_eq, State.works]
  by_cases hd : d = c
  · subst hd
    rw [State.cl_modCl_same]
    by_cases hj : j = k
    · subst hj
      rw [if_pos ⟨rfl, rfl⟩, Cluster.work, Tab.get_putD_same, BitVec.toNat_ofNat, Nat.mod_eq_of_lt (semNext_lt ..)]
    · rw [if_neg fun h => hj h.2, Cluster.work, Tab.get_putD_other _ _ _ _ _ hj]
      rfl
  · rw [State.cl_modCl_other _ _ _ _ hd, if_neg fun h => hd h.1]
    rfl

theorem State.semArrive_sem {s : State} {m : Parcel} {c : Nat} (h : m.src < 192 ∨ s.holds c m.part = true) (k amt : Nat) (set : Bool)
    (acc : Option (Nat × Nat)) (flag : Bool) (d j : Nat) :
    (s.semArrive m c k amt set acc flag).sem d j = (s.semApply c k amt set flag).sem d j := by
  have hgoes : ¬(decide (192 ≤ m.src) && !s.holds c m.part) = true := by
    rw [Bool.and_eq_true, decide_eq_true_eq, Bool.not_eq_true']
    rintro ⟨hsrc, hnot⟩
    exact h.elim (fun h => by omega) fun h => by rw [h] at hnot; cases hnot
  unfold State.semArrive
  rw [if_neg hgoes]
  dsimp only
  split
  · rfl
  · split
    · rfl
    · next nk _ _ a _ =>
      have hcl : (((s.semApply c k amt set flag).accDone nk a).pruneAccs nk).clusters = (s.semApply c k amt set flag).clusters :=
        State.accDone_clusters ..
      unfold State.sem State.cl
      rw [hcl]

/-! ### Sync objects -/

/-- A REL whose covered writes are performed increments its object (R129). -/
theorem State.relArrive_increments {s : State} {nk : Nat} {a : Acc} (ha : s.accOf nk a.id = some a)
    (hcov : ∀ b, b ∈ (s.nd nk).mif → b.id ∈ a.cov → b.done = true) (hres : reservedBy s (csmKey a.va) nk a.id = false)
    (hbad : badAt s (csmKey a.va) = false) :
    s.relArrive nk a.id = some (((writeUnder s (csmKey a.va) 8 ((objWord s a.va 0 + 1) % 2 ^ 64) none).accDone nk a).pruneAccs nk) := by
  have hdone : s.covering nk a = false := by
    rw [State.covering, List.any_eq_false]
    intro b hb
    rw [Bool.and_eq_true, List.contains_iff_mem, Bool.not_eq_true']
    rintro ⟨hmem, hnot⟩
    rw [hcov b hb hmem] at hnot
    cases hnot
  unfold State.relArrive
  simp only [ha, hdone, hres, hbad, Bool.or_self, Bool.false_eq_true, ↓reduceIte]

/-! ### Done tokens -/

/-- The entry is the one that a done token is for (R94). -/
def Acc.takesDone (a : Acc) (ws it gn ix : Nat) : Bool := a.ix = ix && a.ws = ws && a.n % 65536 = it && a.gn = gn

/-- A done token opens the gate of each entry that it is for, and changes no other. -/
theorem State.doneArrive_mif (s : State) (nk ws it gn ix : Nat) :
    ((s.doneArrive nk ws it gn ix).nd nk).mif =
      (s.nd nk).mif.map fun a => if a.takesDone ws it gn ix then { a with gated := false } else a := by
  unfold State.doneArrive
  extract_lets n hit t
  have ht : (t.nd nk).mif = (s.nd nk).mif := by
    dsimp only [t]
    split
    · rw [State.modInv, State.nd_modNd_same]
    · rfl
  split
  · rw [State.nd_modNd_same, ht]
    rfl
  · next hnone =>
    have hnone : ∀ a, a ∈ (s.nd nk).mif → a.takesDone ws it gn ix = false := by
      intro a ha
      have hmiss : ¬hit a = true := List.any_eq_false.1 (eq_false_of_ne_true hnone) a ha
      exact eq_false_of_ne_true hmiss
    rw [List.map_congr_left fun a ha => by rw [hnone a ha], show (fun a : Acc => if false = true then _ else a) = id from rfl, List.map_id]
    split
    · exact (State.mif_congr (congrArg _ (countEvent_nodes ..)) nk).trans ht
    · split
      · exact ht
      · rw [State.nd_modNd_same]; exact ht

/-! ### The statements -/

theorem signalsTakeEffectR131 : SignalsTakeEffectR131 := by
  intro s m rest hin
  refine ⟨fun c k amt set acc flag hm hsrc => ?sem, fun nk a hm ha hcov hres hbad => ?rel, fun nk ws it gn ix hm => ?done⟩
  case sem =>
    have hdo : (s.picking 0).msgDo m = some (((s.picking 0).unbox m).semArrive m c k amt set acc flag) := by rw [State.msgDo, hm]
    have hsem := State.semArrive_sem (s := (s.picking 0).unbox m) (c := c) hsrc k amt set acc flag
    refine ⟨_, congrArg _ (State.arriveAt_first hin hdo _ (by rw [hm])), hdo, by rw [State.semArrive_mem]; rfl, ?_, fun d j hdj => ?_⟩
    · rw [hsem, State.semApply_sem, if_pos ⟨rfl, rfl⟩]
      rfl
    · rw [hsem, State.semApply_sem, if_neg fun h => hdj.elim (· h.1) (· h.2)]
      rfl
  case rel =>
    have hdo := State.relArrive_increments (s := (s.picking 0).unbox m) ha hcov hres hbad
    have hdo : (s.picking 0).msgDo m = _ := (by rw [State.msgDo, hm] : (s.picking 0).msgDo m = _).trans hdo
    obtain ⟨hread, hother⟩ := memRead_of_writeUnder (t := ((writeUnder ((s.picking 0).unbox m) (csmKey a.va) 8
      ((objWord s a.va 0 + 1) % 2 ^ 64) none).accDone nk a).pruneAccs nk) (ownKey_none _ _) (State.accDone_mem ..)
    exact ⟨_, congrArg _ (State.arriveAt_first hin hdo _ (by rw [hm])), hdo, hread.trans (Nat.mod_mod ..), hother⟩
  case done =>
    have hdo : (s.picking 0).msgDo m = some (((s.picking 0).unbox m).doneArrive nk ws it gn ix) := by rw [State.msgDo, hm]
    refine ⟨_, congrArg _ (State.arriveAt_first hin hdo _ (by rw [hm])), hdo, by rw [State.doneArrive_mem]; rfl,
      fun a ha hix hws hit hgn => ?_, fun a ha hother => ?_⟩
    · rw [State.doneArrive_mif]
      have htakes : a.takesDone ws it gn ix = true := by simp [Acc.takesDone, hix, hws, hit, hgn]
      exact List.mem_map.2 ⟨a, ha, by rw [htakes]; rfl⟩
    · rw [State.doneArrive_mif]
      have htakes : a.takesDone ws it gn ix = false := by
        simpa [Acc.takesDone, or_iff_not_imp_left] using hother
      exact List.mem_map.2 ⟨a, ha, by rw [htakes]; rfl⟩

/-- Settles O30: the instructions where the chain allows them, and the signals where they arrive. -/
theorem synchronisationCompletesR128 : Obligations.SynchronisationCompletesR128 :=
  ⟨instructionsSynchroniseR128, signalsTakeEffectR131⟩

end Sys2Proof.Machine
end

