-- ==== Sys2Proof/Proofs/LeavingTheInterface.lean ====
section
/-!
PROOF. Accesses leave the interface (R90, R91, R96, R97) (O28): what a load or an atomic with a result is found to be, and the messages
that its pieces, or those of a write, become.
-/

namespace Sys2Proof.Machine

/-! ### What a filled cache leaves alone -/

/-- The state of the memory and that of the nodes. -/
def State.memxNodes (s : State) : MemSt × Tab Node := (s.memx, s.nodes)

@[simp] theorem countAt_memxNodes (s : State) (part : Nat) (copies : List Nat) (ev amt : Nat) :
    (countAt s part copies ev amt).memxNodes = s.memxNodes :=
  foldl_keeps State.memxNodes _ (fun s e => by dsimp only; split <;> rfl) _ _

@[simp] theorem countEvent_memxNodes (s : State) (part c ev amt : Nat) : (countEvent s part c ev amt).memxNodes = s.memxNodes :=
  countAt_memxNodes ..

@[simp] theorem State.fillTlb_memxNodes (s : State) (hs : List Nat) (part asid va : Nat) :
    (s.fillTlb hs part asid va).memxNodes = s.memxNodes := by
  unfold State.fillTlb
  split
  · refine foldl_keeps State.memxNodes _ (fun s h => ?_) _ _
    dsimp only
    split
    · rfl
    · split
      · exact countAt_memxNodes ..
      · exact countEvent_memxNodes ..
  · rfl

@[simp] theorem State.fillKbtb_memxNodes (s : State) (c part seq b : Nat) : (s.fillKbtb c part seq b).memxNodes = s.memxNodes := by
  unfold State.fillKbtb State.putKbtb
  split
  · dsimp only; split <;> rfl
  · rfl

@[simp] theorem State.touch_memxNodes (s : State) (p : Party) (asp : Asp) (addr : Nat) :
    (s.touch p asp addr).memxNodes = s.memxNodes := by
  unfold State.touch
  split
  · exact State.fillTlb_memxNodes ..
  · dsimp only
    split
    · rw [State.fillTlb_memxNodes, State.fillKbtb_memxNodes]
    · exact State.fillKbtb_memxNodes ..
  · rfl

@[simp] theorem State.accTouch_memxNodes (s : State) (nk : Nat) (a : Acc) : (s.accTouch nk a).memxNodes = s.memxNodes :=
  foldl_keeps State.memxNodes _ (fun _ _ => State.touch_memxNodes ..) _ _

/-! ### The messages of the pieces -/

/-- The message that asks the place of a piece for its part of an access. -/
def pieceParcel (s : State) (nk : Nat) (a : Acc) (p : Piece) (j : Nat) : Parcel :=
  { src := nk / 8, dst := placeOf p.key, cls := 1, part := (s.nd nk).part, n := p.size, rd := opLoad a.op, body := .acc nk a.id a.gn j }

/-- What the messages of an access leave alone, and the ones already on their way. -/
structure SetsOut (s t : State) : Prop where
  mem : t.mem = s.mem
  memx : t.memx = s.memx
  sr : t.sr = s.sr
  mifs : partsOf Node.mif t.nodes = partsOf Node.mif s.nodes
  asgs : partsOf Node.asg t.nodes = partsOf Node.asg s.nodes
  posted : ∀ m, Posted s m → Posted t m

theorem SetsOut.refl (s : State) : SetsOut s s := ⟨rfl, rfl, rfl, rfl, rfl, fun _ => id⟩

theorem SetsOut.trans {s t u : State} (h : SetsOut s t) (h' : SetsOut t u) : SetsOut s u :=
  ⟨h'.mem.trans h.mem, h'.memx.trans h.memx, h'.sr.trans h.sr, h'.mifs.trans h.mifs, h'.asgs.trans h.asgs,
    fun m hm => h'.posted m (h.posted m hm)⟩

theorem SetsOut.message (s : State) (nk gn : Nat) (m : Parcel) : SetsOut s ((s.outAdd nk gn).post m) :=
  ⟨by simp, by simp, by simp, by simp, by simp, fun _ hm => Posted.post (s := s.outAdd nk gn) hm m⟩

theorem SetsOut.foldl {α : Type} {f : State → α → State} (hf : ∀ u j, SetsOut u (f u j)) (l : List α) (s : State) :
    SetsOut s (l.foldl f s) := by
  induction l generalizing s with
  | nil => exact .refl s
  | cons j l ih => exact (hf s j).trans (ih _)

/-- What a step of a fold sends is on its way after the fold. -/
theorem SetsOut.foldl_posts {α : Type} {f : State → α → State} (hf : ∀ u j, SetsOut u (f u j)) (l : List α) (s : State) :
    SetsOut s (l.foldl f s) ∧ ∀ j m, j ∈ l → (∀ u, SetsOut s u → Posted (f u j) m) → Posted (l.foldl f s) m := by
  refine ⟨.foldl hf l s, fun j m hj hm => ?_⟩
  obtain ⟨before, after, rfl⟩ := List.append_of_mem hj
  rw [List.foldl_append, List.foldl_cons]
  exact (SetsOut.foldl hf after _).posted m (hm _ (.foldl hf before s))

/-- Each piece at this chip is asked of its place. -/
def Asked (s t : State) (nk : Nat) (a : Acc) (ps : List Piece) : Prop :=
  ∀ j p, ps[j]? = some p → isRemote p.key = false → Posted t (pieceParcel s nk a p j)

theorem State.sendPieces_asks (s : State) (nk : Nat) (a : Acc) (ps : List Piece) :
    SetsOut s (s.sendPieces nk a ps) ∧ Asked s (s.sendPieces nk a ps) nk a ps := by
  unfold State.sendPieces
  extract_lets part
  refine (SetsOut.foldl_posts (fun u j => ?_) (List.range ps.length) s).imp_right fun hposts j p hp hnear =>
    hposts j _ (List.mem_range.2 (List.getElem?_eq_some_iff.1 hp).1) fun u _ => ?_
  · split
    · exact .refl u
    · dsimp only; split
      · exact .message ..
      · exact .message ..
  · rw [hp]
    dsimp only
    rw [if_neg (by simp [hnear])]
    exact State.posted_post ..

/-! ### Loads and writes leave -/

section
variable {s : State} {i : Issue} {a : Acc} {bs : List Acc} (h : Proceeds s i a bs)
include h

theorem memPerform_load (ho : opLoad a.op = true) : memPerform i s = s.goRead i.nk a bs := by
  obtain ⟨-, -, hacc, hopen⟩ := h
  simp only [opLoad, Bool.or_eq_true, decide_eq_true_eq] at ho
  obtain (ho | ho) | ho := ho <;> simp only [memPerform, hacc, hopen, ho]

theorem memPerform_atomic (ho : opAtomic a.op = true) : memPerform i s =
    if a.returns then if (s.nd i.nk).oldest a.age then s.goRead i.nk a bs else s else s.goWrite i.nk a := by
  obtain ⟨-, -, hacc, hopen⟩ := h
  simp only [opAtomic, Bool.or_eq_true, decide_eq_true_eq, or_assoc] at ho
  obtain ho | ho | ho | ho | ho | ho | ho | ho | ho := ho <;> simp only [memPerform, hacc, hopen, ho]

theorem memPerform_reads (hr : opLoad a.op = true ∨ (a.returns = true ∧ (s.nd i.nk).oldest a.age = true)) :
    memPerform i s = s.goRead i.nk a bs := by
  rcases hr with hload | ⟨hret, hold⟩
  · exact memPerform_load h hload
  · have hat : opAtomic a.op = true := (Bool.and_eq_true_iff.1 hret).1
    rw [memPerform_atomic h hat, if_pos hret, if_pos hold]

theorem memPerform_writes (hw : opStore a.op = true ∨ (opRmw a.op = true ∧ a.returns = false)) :
    memPerform i s = s.goWrite i.nk a := by
  obtain ⟨-, -, hacc, hopen⟩ := id h
  rcases hw with hst | ⟨hrmw, hret⟩
  · simp only [opStore, Bool.or_eq_true, decide_eq_true_eq] at hst
    obtain (ho | ho) | ho := hst <;> simp only [memPerform, hacc, hopen, ho]
  · simp only [opRmw, Bool.or_eq_true, decide_eq_true_eq] at hrmw
    obtain (hat | ho) | ho := hrmw
    · rw [memPerform_atomic h hat, hret]; rfl
    · simp only [memPerform, hacc, hopen, ho]
    · simp only [memPerform, hacc, hopen, ho]

end

section
variable {s : State} {nk : Nat} {a : Acc} {bs : List Acc}

theorem State.goRead_bad {c : Cause} {x : Nat} (hl : s.accLoc nk a = .bad c x) : s.goRead nk a bs = s.accFault nk a c x a.va := by
  unfold State.goRead; rw [hl]

theorem State.goRead_given {ps : List Piece} (hl : s.accLoc nk a = .piece ps) (hg : givenTile nk bs a = true) :
    s.goRead nk a bs = s.accFault nk a .ownerViolation 0 a.va := by
  unfold State.goRead; rw [hl]; dsimp only; rw [if_pos hg]

/-- The bytes read ahead that a load takes: those that no earlier write of the node gives (R90, R91). -/
def aheadBytes (s : State) (nk : Nat) (a : Acc) (ps : List Piece) (f : List (Nat × Byte)) : List (Nat × Byte) :=
  ((s.nd nk).ahead a ps).filter fun t => !f.any fun u => u.1 = t.1

theorem aheadBytes_nil {ps : List Piece} {f : List (Nat × Byte)} (hm : a.w.mode ≠ .stm) : aheadBytes s nk a ps f = [] := by
  have hahead : (s.nd nk).ahead a ps = [] := by
    unfold Node.ahead
    rw [if_pos (by simp [hm])]
  rw [aheadBytes, hahead, List.filter_nil]

/-- The entry is changed and its pieces are asked for. -/
theorem State.sendPieces_modAcc {t : State} (ha : t.accOf nk a.id = some a) {g : Acc → Acc} (hg : ∀ e, (g e).id = e.id)
    (ps : List Piece) :
    let u := (t.modAcc nk a.id g).sendPieces nk a ps
    u.mem = t.mem ∧ u.memx = t.memx ∧ u.sr = t.sr ∧ Asked t u nk a ps ∧ u.accOf nk a.id = some (g a) := by
  obtain ⟨hout, hasked⟩ := State.sendPieces_asks (t.modAcc nk a.id g) nk a ps
  have hparcel (p : Piece) (j : Nat) : pieceParcel (t.modAcc nk a.id g) nk a p j = pieceParcel t nk a p j := by
    unfold pieceParcel
    rw [State.part_congr (State.modAcc_asgs ..)]
  exact ⟨hout.mem, hout.memx, hout.sr, fun j p hp hnear => hparcel p j ▸ hasked j p hp hnear,
    (State.accOf_congr hout.mifs nk a.id).trans (State.accOf_modAcc_entry hg ha)⟩

/-- A load that nothing stops: caches are filled, and its pieces are asked for. -/
theorem State.goRead_piece {ps : List Piece} {f : List (Nat × Byte)} (hl : s.accLoc nk a = .piece ps)
    (hg : givenTile nk bs a = false) (hf : forwards (s.placed nk bs) ps = some f) (hps : ps ≠ []) :
    ∃ t : State, t.mem = s.mem ∧ t.memxNodes = s.memxNodes ∧
      s.goRead nk a bs = (t.modAcc nk a.id fun e => { e with
        st := .sent, kvw := none, loc := ps, left := List.range ps.length, fwdb := f ++ aheadBytes s nk a ps f }).sendPieces nk a ps := by
  have hempty : ps.isEmpty = false := by rwa [List.isEmpty_eq_false_iff]
  unfold State.goRead
  simp only [hl, hg, hf, hempty, Bool.false_eq_true, ↓reduceIte]
  refine ⟨_, ?_, ?_, rfl⟩
  · rw [State.accTouch_mem]; split <;> simp
  · rw [State.accTouch_memxNodes]; split <;> simp

theorem State.goRead_sends (ha : s.accOf nk a.id = some a) {ps : List Piece} {f : List (Nat × Byte)} (hl : s.accLoc nk a = .piece ps)
    (hg : givenTile nk bs a = false) (hf : forwards (s.placed nk bs) ps = some f) (hps : ps ≠ []) :
    let u := s.goRead nk a bs
    u.mem = s.mem ∧ u.memx = s.memx ∧ Asked s u nk a ps ∧ u.accOf nk a.id = some { a with
      st := .sent, kvw := none, loc := ps, left := List.range ps.length, fwdb := f ++ aheadBytes s nk a ps f } := by
  obtain ⟨t, hmem, hkept, heq⟩ := State.goRead_piece hl hg hf hps
  have hmemx : t.memx = s.memx := congrArg Prod.fst hkept
  have hnd : t.nd nk = s.nd nk := congrArg (Tab.get ({} : Node) · nk) (congrArg Prod.snd hkept : t.nodes = s.nodes)
  have hparcel (p : Piece) (j : Nat) : pieceParcel t nk a p j = pieceParcel s nk a p j := by rw [pieceParcel, hnd, pieceParcel]
  have hat : t.accOf nk a.id = some a := by rw [State.accOf, hnd]; exact ha
  obtain ⟨hum, humx, -, hasked, hentry⟩ := State.sendPieces_modAcc hat (g := fun e => { e with
    st := .sent, kvw := none, loc := ps, left := List.range ps.length, fwdb := f ++ aheadBytes s nk a ps f }) (by intro; rfl) ps
  rw [heq]
  exact ⟨hum.trans hmem, humx.trans hmemx, fun j p hp hnear => hparcel p j ▸ hasked j p hp hnear, hentry⟩

theorem State.goWrite_sends (ha : s.accOf nk a.id = some a) (hl : a.loc ≠ []) :
    let u := s.goWrite nk a
    u.mem = s.mem ∧ u.memx = s.memx ∧ u.sr = s.sr ∧ Asked s u nk a a.loc
      ∧ u.accOf nk a.id = some { a with st := .sent, left := List.range a.loc.length } := by
  have hempty : a.loc.isEmpty = false := by rwa [List.isEmpty_eq_false_iff]
  unfold State.goWrite
  simp only [hempty, Bool.false_eq_true, ↓reduceIte]
  exact State.sendPieces_modAcc ha (by intro; rfl) a.loc

end

/-! ### The statement -/

theorem accessesLeaveTheInterfaceR96 : AccessesLeaveTheInterfaceR96 := by
  intro s i a bs w op ins hop hins h reads writes asked
  obtain rfl : a.op = op := Acc.op_of_instr hop hins
  have hexec : exec (ins w) s = .next (memPerform i s) := h.exec hop w
  refine ⟨fun hr => ⟨fun c x hl => ?bad, fun ps f hl hg hf hps => ?sends⟩, fun hr ps hl hg => ?given, fun hw hl => ?writes⟩
  case bad => rw [hexec, memPerform_reads h hr, State.goRead_bad hl]
  case sends =>
    obtain ⟨hmem, hmemx, hasked, hentry⟩ := State.goRead_sends h.entry hl hg hf hps
    exact ⟨_, _, by rw [hexec, memPerform_reads h hr], hmem, hmemx, hasked, hentry, aheadBytes_nil⟩
  case given => rw [hexec, memPerform_reads h hr, State.goRead_given hl hg]
  case writes => exact ⟨_, by rw [hexec, memPerform_writes h hw], State.goWrite_sends h.entry hl⟩

end Sys2Proof.Machine
end

