-- ==== Sys2Proof/Proofs/PlaceOfAtomicity.lean ====
section
/-!
PROOF. A piece of an access acts at its place of atomicity (R79, R80, R90, R97, R99) (O28): what it reads, writes or reserves there, and
what its chain entry holds afterwards.
-/

namespace Sys2Proof.Machine

/-! ### What the steps of an arrival leave alone -/

@[simp] theorem State.outSub_memx (s : State) (nk gn : Nat) : (s.outSub nk gn).memx = s.memx := rfl
@[simp] theorem State.outSub_mifs (s : State) (nk gn : Nat) : partsOf Node.mif (s.outSub nk gn).nodes = partsOf Node.mif s.nodes := by
  simp [State.outSub]
@[simp] theorem State.accOf_outSub (s : State) (nk gn nj id : Nat) : (s.outSub nk gn).accOf nj id = s.accOf nj id :=
  State.accOf_congr (State.outSub_mifs ..) nj id
@[simp] theorem State.dropAhead_mifs (s : State) (nk k : Nat) : partsOf Node.mif (s.dropAhead nk k).nodes = partsOf Node.mif s.nodes := by
  simp [State.dropAhead]

/-- No committed atomic of the node waits for the end of its reservation. -/
def State.NoneEnding (s : State) (nk : Nat) : Prop := ∀ e ∈ (s.nd nk).mif, e.rel = false

theorem State.NoneEnding.of_mifs {s t : State} {nk : Nat} (h : s.NoneEnding nk)
    (hm : partsOf Node.mif t.nodes = partsOf Node.mif s.nodes) : t.NoneEnding nk := by
  unfold State.NoneEnding
  rw [State.mif_congr hm]
  exact h

theorem forall_modFirst {α : Type} {P : α → Prop} {p : α → Bool} {f : α → α} (hf : ∀ a, P a → P (f a)) {l : List α}
    (h : ∀ a ∈ l, P a) : ∀ a ∈ modFirst p f l, P a := by
  induction l with
  | nil => exact h
  | cons a l ih =>
    rw [List.forall_mem_cons] at h
    obtain ⟨ha, hl⟩ := h
    unfold modFirst
    split
    · exact List.forall_mem_cons.2 ⟨hf a ha, hl⟩
    · exact List.forall_mem_cons.2 ⟨ha, ih hl⟩

theorem State.NoneEnding.modAcc {s : State} {nk : Nat} (h : s.NoneEnding nk) (id : Nat) {f : Acc → Acc}
    (hf : ∀ a, (f a).rel = a.rel) : (s.modAcc nk id f).NoneEnding nk := by
  unfold State.NoneEnding State.modAcc
  rw [State.nd_modNd_same]
  exact forall_modFirst (fun a ha => (hf a).trans ha) h

theorem State.NoneEnding.accDone {s : State} {nk : Nat} (h : s.NoneEnding nk) (a : Acc) : (s.accDone nk a).NoneEnding nk := by
  have hmod := h.modAcc a.id (f := fun e => { e with st := .performed }) (by intro; rfl)
  unfold State.accDone
  dsimp only
  split
  · exact hmod
  · exact hmod.of_mifs (congrArg _ (State.sendDone_nodes ..))

theorem State.NoneEnding.endBlocked {s : State} {nk : Nat} (h : s.NoneEnding nk) : s.endBlocked nk = s := by
  have hnone : (s.nd nk).mif.filter (fun e => e.rel && e.st = .reserved) = [] := by
    rw [List.filter_eq_nil_iff]
    intro e he
    simp [h e he]
  rw [State.endBlocked, hnone, List.foldl_nil]

/-! ### A piece is done -/

/-- The entry of an access with piece `j` done, and what it read. -/
def Acc.withPiece (a : Acc) (j : Nat) (v : Option (Nat × Nat)) : Acc :=
  { a with left := a.left.filter (· != j), got := a.got ++ v.toList }

/-- The state in which the entry has piece `j` done. -/
def State.pieceIn (s : State) (nk : Nat) (a : Acc) (j : Nat) (v : Option (Nat × Nat)) : State :=
  s.modAcc nk a.id fun e => { e with left := (a.withPiece j v).left, got := (a.withPiece j v).got }

theorem State.accOf_pieceIn {s : State} {nk : Nat} {a : Acc} (ha : s.accOf nk a.id = some a) (j : Nat) (v : Option (Nat × Nat)) :
    (s.pieceIn nk a j v).accOf nk a.id = some (a.withPiece j v) :=
  State.accOf_modAcc_entry (by intro; rfl) ha

section
variable (s : State) (nk : Nat) (a : Acc) (j : Nat) (v : Option (Nat × Nat))

theorem State.pieceDone_more (h : (a.withPiece j v).left ≠ []) : s.pieceDone nk a j v = s.pieceIn nk a j v :=
  if_pos (by rw [Bool.not_eq_true', List.isEmpty_eq_false_iff]; exact h)

theorem State.pieceDone_reads (h : (a.withPiece j v).left = []) (hr : opLoad a.op = true ∨ a.returns = true) :
    s.pieceDone nk a j v = (s.pieceIn nk a j v).readDone nk (a.withPiece j v) := by
  have hempty : ¬(!(a.withPiece j v).left.isEmpty) = true := by rw [h]; decide
  exact (if_neg hempty).trans (if_pos (Bool.or_eq_true_iff.2 hr))

theorem State.pieceDone_writes (h : (a.withPiece j v).left = []) (hl : opLoad a.op = false) (hr : a.returns = false) :
    s.pieceDone nk a j v = (s.pieceIn nk a j v).writeDone nk (a.withPiece j v) := by
  have hempty : ¬(!(a.withPiece j v).left.isEmpty) = true := by rw [h]; decide
  exact (if_neg hempty).trans (if_neg (by rw [hl, hr]; decide))

theorem State.readDone_load (h : a.returns = false) : s.readDone nk a = (s.accReply nk a a.value).accDone nk a := by
  unfold State.readDone
  rw [h]; rfl

/-- The number that the pieces of an access, and the earlier writes of its node, make. -/
def Acc.bytesRead (a : Acc) : Nat := overlay (a.got.foldl (fun v t => v + t.2 * 2 ^ (8 * t.1)) 0) a.fwdb

/-- What an atomic with a result will write at its commit (R97). -/
def Acc.newValue (a : Acc) : Nat := rmwNew a.op (szBytes a.w.sz.toNat) a.bytesRead a.payload ((a.q.map (·.val.nat)).getD 0)

theorem State.readDone_returns (h : a.returns = true) : s.readDone nk a =
    (s.modAcc nk a.id fun e => { e with st := .reserved, newv := some a.newValue }).accReply nk a (sc64 a.bytesRead) := by
  unfold State.readDone
  rw [h]; rfl

@[simp] theorem State.readDone_memx : (s.readDone nk a).memx = s.memx := by
  unfold State.readDone
  split <;> simp

end

theorem returns_of_opLoad {a : Acc} (h : opLoad a.op = true) : a.returns = false := by
  have hat : opAtomic a.op = false := by
    simp only [opLoad, Bool.or_eq_true, decide_eq_true_eq] at h
    obtain (ho | ho) | ho := h <;> rw [ho] <;> rfl
  rw [Acc.returns, hat, Bool.false_and]

theorem not_load_store_of_opRmw {o : Op} (h : opRmw o = true) : opLoad o = false ∧ opStore o = false := by
  simp only [opRmw, opAtomic, Bool.or_eq_true, decide_eq_true_eq, or_assoc] at h
  obtain ho | ho | ho | ho | ho | ho | ho | ho | ho | ho | ho := h <;> rw [ho] <;> decide

theorem opRmw_of_returns {a : Acc} (h : a.returns = true) : opRmw a.op = true := by
  rw [opRmw, (Bool.and_eq_true_iff.1 h).1]
  rfl

section
variable {s : State} {nk : Nat} {a : Acc} (j : Nat) (v : Option (Nat × Nat))

/-- A piece read leaves memory, its side state and its reservations as they are. -/
theorem State.pieceDone_read_keeps (hr : opLoad a.op = true ∨ a.returns = true) :
    (s.pieceDone nk a j v).mem = s.mem ∧ (s.pieceDone nk a j v).memx = s.memx := by
  by_cases hleft : (a.withPiece j v).left = []
  · rw [State.pieceDone_reads s nk a j v hleft hr, State.readDone_mem, State.readDone_memx]
    exact ⟨rfl, rfl⟩
  · rw [State.pieceDone_more s nk a j v hleft]
    exact ⟨rfl, rfl⟩

/-- A load's entry holds what the piece read. -/
theorem State.accOf_pieceDone_load (ha : s.accOf nk a.id = some a) (hl : opLoad a.op = true) :
    (s.pieceDone nk a j v).accOf nk a.id = some (if (a.withPiece j v).left = [] then { a.withPiece j v with st := .performed }
      else a.withPiece j v) := by
  have hin := State.accOf_pieceIn ha j v
  split
  next hleft =>
    have hret : (a.withPiece j v).returns = false := returns_of_opLoad hl
    have hreply := State.accOf_congr (State.accReply_mifs (s.pieceIn nk a j v) nk (a.withPiece j v) (a.withPiece j v).value) nk a.id
    rw [State.pieceDone_reads s nk a j v hleft (.inl hl), State.readDone_load _ _ _ hret]
    exact (State.accOf_accDone ..).trans (by rw [show (a.withPiece j v).id = a.id from rfl, hreply, hin]; rfl)
  next hleft => rw [State.pieceDone_more s nk a j v hleft, hin]

/-- A write's piece leaves memory as the write made it, where no reservation ends by it. -/
theorem State.pieceDone_write_mem (hl : opLoad a.op = false) (hr : a.returns = false) (hrel : s.NoneEnding nk) :
    (s.pieceDone nk a j v).mem = s.mem := by
  by_cases hleft : (a.withPiece j v).left = []
  · have hdone : ((s.pieceIn nk a j v).accDone nk (a.withPiece j v)).NoneEnding nk :=
      (hrel.modAcc a.id (by intro; rfl)).accDone _
    rw [State.pieceDone_writes s nk a j v hleft hl hr, State.writeDone, hdone.endBlocked, State.pruneAccs_mem, State.accDone_mem]
    rfl
  · rw [State.pieceDone_more s nk a j v hleft]
    rfl

end

/-! ### At the place -/

/-- A piece of an access may act at its place: as `ArrivesAt` says, of the state in which the message is taken up. -/
structure AtPlace (s : State) (nk j : Nat) (a : Acc) (p : Piece) : Prop where
  entry : s.accOf nk a.id = some a
  sent : a.st = .sent
  piece : a.loc[j]? = some p
  owned : engOwned s p.key = false
  free : keyHeld s p.slot = false
  key : OwnKey s p.key p.slot
  good : badAt s p.key = false

theorem ArrivesAt.atPlace {s : State} {m : Parcel} {rest : List Parcel} {nk j : Nat} {a : Acc} {p : Piece}
    (h : ArrivesAt s m rest nk j a p) : AtPlace ((s.picking 0).unbox m) nk j a p :=
  ⟨h.entry, h.sent, h.piece, h.owned, h.free, h.key, h.good⟩

theorem ArrivesAt.msgDo {s : State} {m : Parcel} {rest : List Parcel} {nk j : Nat} {a : Acc} {p : Piece}
    (h : ArrivesAt s m rest nk j a p) :
    (s.picking 0).msgDo m = (((s.picking 0).unbox m).accPlace nk a.id j).map fun t => t.outSub nk a.gn := by
  rw [State.msgDo, h.body]
  rfl

/-- The granule is reserved for a chain entry. -/
def State.reserveFor (s : State) (nk id k : Nat) : State :=
  { s with memx := { s.memx with resv := s.memx.resv ++ [(granule k, nk, id)] } }

/-- What a write, or an atomic without a result, leaves at a piece. -/
def Acc.leaves (a : Acc) (s : State) (p : Piece) : Nat :=
  if opStore a.op then a.payload / 2 ^ (8 * p.lane)
  else rmwNew a.op p.size (memRead s p.key p.size) a.payload ((a.q.map (·.val.nat)).getD 0)

section
variable {s : State} {nk j : Nat} {a : Acc} {p : Piece} (h : AtPlace s nk j a p)
include h

theorem AtPlace.load (hl : opLoad a.op = true) :
    s.accPlace nk a.id j = some (s.pieceDone nk a j (some (p.lane, memRead s p.key p.size))) := by
  obtain ⟨hentry, hsent, hpiece, howned, hfree, hkey, hgood⟩ := h
  simp [State.accPlace, hentry, hsent, hpiece, howned, hfree, hgood, hl, readUnder_snd hkey]

theorem AtPlace.barred (hl : opLoad a.op = false) (hb : s.barred nk a.id p.key = true) : s.accPlace nk a.id j = none := by
  obtain ⟨hentry, hsent, hpiece, howned, hfree, -, -⟩ := h
  simp [State.accPlace, hentry, hsent, hpiece, howned, hfree, hl, hb]

theorem AtPlace.reserves (hr : a.returns = true) (hb : s.barred nk a.id p.key = false) :
    s.accPlace nk a.id j = some ((s.reserveFor nk a.id p.key).pieceDone nk a j (some (p.lane, memRead s p.key p.size))) := by
  obtain ⟨hentry, hsent, hpiece, howned, hfree, hkey, hgood⟩ := h
  obtain ⟨hl, -⟩ := not_load_store_of_opRmw (opRmw_of_returns hr)
  simp [State.accPlace, hentry, hsent, hpiece, howned, hfree, hgood, hl, hb, hr, readUnder_snd hkey, State.reserveFor]

theorem AtPlace.writes (hl : opLoad a.op = false) (hr : a.returns = false) (hb : s.barred nk a.id p.key = false) :
    s.accPlace nk a.id j =
      some (((writeUnder s p.key p.size (a.leaves s p) p.slot).dropAhead nk p.key).pieceDone nk a j none) := by
  obtain ⟨hentry, hsent, hpiece, howned, hfree, hkey, hgood⟩ := h
  by_cases hst : opStore a.op = true
  · simp [State.accPlace, hentry, hsent, hpiece, howned, hfree, hl, hb, hr, hst, Acc.leaves]
  · simp [State.accPlace, hentry, hsent, hpiece, howned, hfree, hgood, hl, hb, hr, hst, readUnder_snd hkey, Acc.leaves]

/-- The bytes of the piece, and no others, are what the write leaves. -/
theorem AtPlace.written (hl : opLoad a.op = false) (hr : a.returns = false) (hb : s.barred nk a.id p.key = false)
    (hrel : s.NoneEnding nk) :
    ∃ u, s.accPlace nk a.id j = some u ∧ memRead u p.key p.size = a.leaves s p % 2 ^ (8 * p.size)
      ∧ ∀ k, k < p.key ∨ p.key + p.size ≤ k → memGet u k = memGet s k := by
  refine ⟨_, h.writes hl hr hb, memRead_of_writeUnder h.key (State.pieceDone_write_mem j none hl hr ?_)⟩
  exact hrel.of_mifs ((State.dropAhead_mifs ..).trans (congrArg _ (writeUnder_nodes ..)))

end

/-! ### The statement -/

theorem accessesActAtTheirPlaceR99 : AccessesActAtTheirPlaceR99 := by
  intro s m rest nk j a p h old others
  have hat := h.atPlace
  have hdo := h.msgDo
  have hold : memRead ((s.picking 0).unbox m) p.key p.size = old :=
    memRead_congr (s := s) (t := (s.picking 0).unbox m) rfl _ _
  refine ⟨fun u hu => ?arrives, fun hl => ?load, fun hl hb => ?barred, fun hl hb => ⟨fun hr => ?reserves, fun hr hrel => ?writes⟩⟩
  case arrives => exact congrArg _ (State.arriveAt_first h.first hu _ (by rw [h.body]))
  case load =>
    have hplace := hat.load hl
    rw [hold] at hplace
    refine ⟨_, hdo.trans (congrArg _ hplace), (State.pieceDone_read_keeps j _ (.inl hl)).1, fun b hb => ?_⟩
    have hentry := State.accOf_pieceDone_load j (some (p.lane, old)) hat.entry hl
    have hgot : (p.lane, old) ∈ (a.withPiece j (some (p.lane, old))).got := List.mem_append_right _ List.mem_cons_self
    obtain rfl := Option.some.inj (hentry.symm.trans ((State.accOf_outSub ..).symm.trans hb))
    split <;> exact hgot
  case barred => exact hdo.trans (congrArg _ (hat.barred hl hb))
  case reserves =>
    have hplace := hat.reserves hr hb
    rw [hold] at hplace
    obtain ⟨hmem, hmemx⟩ := State.pieceDone_read_keeps (s := ((s.picking 0).unbox m).reserveFor nk a.id p.key) (nk := nk) j
      (some (p.lane, old)) (.inr hr)
    refine ⟨_, hdo.trans (congrArg _ hplace), hmem, ?_⟩
    rw [State.outSub_memx, hmemx]
    exact List.mem_append_right _ List.mem_cons_self
  case writes =>
    obtain ⟨u, hplace, hread, hothers⟩ := hat.written hl hr hb hrel
    have hread : memRead (u.outSub nk a.gn) p.key p.size = _ := (memRead_congr (State.outSub_mem ..) _ _).trans hread
    refine ⟨_, hdo.trans (congrArg _ hplace), hothers, fun hst => ?_, fun hrmw => ?_⟩
    · rw [hread, Acc.leaves, if_pos hst]
    · rw [hread, Acc.leaves, if_neg (by rw [(not_load_store_of_opRmw hrmw).2]; decide), hold]

end Sys2Proof.Machine
end

