-- ==== Sys2Proof/Proofs/LoadedValues.lean ====
section
/-!
PROOF. Loads, and atomics with a result, send what was read (R97, R99, R100) (O28): the bytes of memory with those of the node's
earlier stores laid over them, and the lanes of a gather.
-/

namespace Sys2Proof.Machine

/-! ### The bytes of a number -/

/-- The byte of a number that was read is the byte of memory at its place. -/
theorem memRead_byte (s : State) (k n b : Nat) (hb : b < n) : memRead s k n / 256 ^ b % 256 = (memGet s (k + b)).toNat := by
  induction b generalizing k n with
  | zero =>
    obtain ⟨n, rfl⟩ : ∃ m, n = m + 1 := ⟨n - 1, by omega⟩
    rw [memRead, pow_zero, Nat.div_one, Nat.add_mul_mod_self_left, Nat.mod_eq_of_lt (memGet s k).isLt]
    rfl
  | succ b ih =>
    obtain ⟨n, rfl⟩ : ∃ m, n = m + 1 := ⟨n - 1, by omega⟩
    have hhigh : memRead s k (n + 1) / 256 = memRead s (k + 1) n := by
      rw [memRead, Nat.add_mul_div_left _ _ (by decide), Nat.div_eq_of_lt (memGet s k).isLt, Nat.zero_add]
    rw [Nat.pow_succ', ← Nat.div_div_eq_div_mul, hhigh, ih (k + 1) n (by omega), Nat.add_right_comm, Nat.add_assoc]

theorem overlay_nil (v : Nat) : overlay v [] = v := rfl

/-- Of the bytes laid over a number the last one at a place stands. -/
theorem overlay_byte (v : Nat) (l : List (Nat × Byte)) (b : Nat) : overlay v l / 256 ^ b % 256 =
    ((l.reverse.find? fun e => e.1 = b).map (·.2.toNat)).getD (v / 256 ^ b % 256) := by
  induction l using List.reverseRecOn with
  | nil => rfl
  | append_singleton l e ih =>
    have hstep := digit_replace 8 (overlay v l) e.2.toNat e.1 b e.2.isLt
    have hlast : overlay v (l ++ [e]) = overlay v l - overlay v l / 2 ^ (8 * e.1) % 256 * 2 ^ (8 * e.1) + e.2.toNat * 2 ^ (8 * e.1) := by
      rw [overlay, List.foldl_append]; rfl
    rw [Nat.pow_mul 2 8 b, show 2 ^ 8 = 256 from rfl] at hstep
    rw [hlast, hstep, List.reverse_append, List.reverse_singleton, List.singleton_append]
    by_cases he : e.1 = b
    · simp [he]
    · simpa [he, Ne.symm he] using ih

/-! ### What the pieces make -/

/-- A load whose one piece has arrived has read memory, with the bytes of earlier stores over it. -/
theorem bytesRead_withPiece {a : Acc} {p : Piece} (hgot : a.got = []) (hlane : p.lane = 0) (j x : Nat) :
    (a.withPiece j (some (p.lane, x))).bytesRead = overlay x a.fwdb := by
  simp [Acc.withPiece, Acc.bytesRead, hgot, hlane]

/-- An access whose result is a vector: LDV and GATH (R99, R100). -/
def Acc.loadsVec (a : Acc) : Bool := a.op = .ldv || a.op = .gath

/-- The bytes read, as the payload of a token: a vector or a scalar. -/
def Acc.resultOf (a : Acc) (v : Nat) : Val := if a.loadsVec then .vec (BitVec.ofNat 512 v) else sc64 v

theorem value_eq (a : Acc) : a.value = a.resultOf a.bytesRead := rfl

theorem resultOf_isVec (a : Acc) (v : Nat) : (a.resultOf v).isVec = a.loadsVec := by
  unfold Acc.resultOf
  split
  next h => exact h.symm
  next h => exact (eq_false_of_ne_true h).symm

/-- Only a load has a vector as its result. -/
theorem resultOf_scalar {a : Acc} (hl : opLoad a.op = false) (v : Nat) : a.resultOf v = sc64 v := by
  have hvec : a.loadsVec = false := by
    simp only [opLoad, Bool.or_eq_false_iff] at hl
    obtain ⟨⟨-, hldv⟩, hgath⟩ := hl
    rw [Acc.loadsVec, hldv, hgath]
    rfl
  rw [Acc.resultOf, hvec]
  rfl

/-- The width of a result. -/
def Acc.resultWidth (a : Acc) : Nat := if a.loadsVec then 512 else 64

theorem resultOf_nat (a : Acc) (v : Nat) : (a.resultOf v).nat = v % 2 ^ a.resultWidth := by
  have hbits : (a.resultOf v).nat = (BitVec.ofNat a.resultWidth v).toNat := by
    unfold Acc.resultOf Acc.resultWidth
    cases a.loadsVec <;> simp only [Bool.false_eq_true, ↓reduceIte] <;> rfl
  rw [hbits, BitVec.toNat_ofNat]

/-- Each byte of the result is that of the last earlier store that gives it, or else of memory. -/
theorem resultOf_byte (s : State) (a : Acc) {k n b : Nat} (hn : 8 * n ≤ a.resultWidth) (hb : b < n) :
    (a.resultOf (overlay (memRead s k n) a.fwdb)).nat / 256 ^ b % 256 =
      (((a.fwdb.reverse.find? fun e => e.1 = b).map (·.2)).getD (memGet s (k + b))).toNat := by
  have hcut := mod_digit (overlay (memRead s k n) a.fwdb) (w := 8) (k := b) (n := a.resultWidth) (by omega)
  rw [Nat.pow_mul 2 8 b, show 2 ^ 8 = 256 from rfl] at hcut
  rw [resultOf_nat, hcut, overlay_byte, memRead_byte s k n b hb]
  cases a.fwdb.reverse.find? fun e => e.1 = b <;> rfl

/-! ### With its last piece an access is complete -/

/-- The result goes out under the status of the access, whatever pieces its entry holds. -/
theorem repliesWith_withPiece {s t : State} (h : t.clusters = s.clusters) (nk : Nat) (a : Acc) (j : Nat) (r : Option (Nat × Nat))
    (v : Val) : RepliesWith s (t.accReply nk (a.withPiece j r) v) nk a a.er v := by
  obtain ⟨hslot, hnone⟩ := State.repliesWith_accReply t nk (a.withPiece j r) a.er v
  have hcl : t.cl (nk / 8) = s.cl (nk / 8) := congrArg (Tab.get ({} : Cluster) · (nk / 8)) h
  rw [hcl] at hslot hnone
  refine ⟨fun ix pt ht => ?_, hnone⟩
  obtain ⟨k, hk, hplace, hdata, hpred⟩ := hslot ix pt ht
  exact ⟨k, hk, hplace, hdata, hpred⟩

theorem State.accOf_readDone_returns {s : State} {nk : Nat} {a : Acc} (ha : s.accOf nk a.id = some a) (hr : a.returns = true) :
    (s.readDone nk a).accOf nk a.id = some { a with st := .reserved, newv := some a.newValue } := by
  rw [State.readDone_returns s nk a hr, State.accOf_congr (State.accReply_mifs ..)]
  exact State.accOf_modAcc_entry (by intro; rfl) ha

section
variable {s : State} {nk : Nat} {a : Acc} {p : Piece} {x : Nat}

/-- The one piece of a load: its result is sent, and it is performed. -/
theorem State.pieceDone_load_last (ha : s.accOf nk a.id = some a) (hl : opLoad a.op = true) (hleft : a.left = [0])
    (hgot : a.got = []) (hlane : p.lane = 0) :
    RepliesWith s (s.pieceDone nk a 0 (some (p.lane, x))) nk a a.er (a.resultOf (overlay x a.fwdb))
      ∧ ∃ b, (s.pieceDone nk a 0 (some (p.lane, x))).accOf nk a.id = some b ∧ b.st = .performed := by
  have hlast : (a.withPiece 0 (some (p.lane, x))).left = [] := by simp [Acc.withPiece, hleft]
  constructor
  · have hvalue : (a.withPiece 0 (some (p.lane, x))).value = a.resultOf (overlay x a.fwdb) := by
      rw [value_eq, bytesRead_withPiece hgot hlane]; rfl
    rw [State.pieceDone_reads s nk a 0 _ hlast (.inl hl), State.readDone_load _ _ (a.withPiece 0 _) (returns_of_opLoad hl), hvalue]
    exact (repliesWith_withPiece (t := s.pieceIn nk a 0 (some (p.lane, x))) rfl ..).of_clusters (State.accDone_clusters ..)
  · rw [State.accOf_pieceDone_load 0 _ ha hl, if_pos hlast]
    exact ⟨_, rfl, rfl⟩

/-- The one piece of an atomic with a result: the old value is sent, and the new one is kept to the commit. -/
theorem State.pieceDone_returns_last (ha : s.accOf nk a.id = some a) (hr : a.returns = true) (hleft : a.left = [0])
    (hgot : a.got = []) (hlane : p.lane = 0) :
    RepliesWith s (s.pieceDone nk a 0 (some (p.lane, x))) nk a a.er (sc64 (overlay x a.fwdb))
      ∧ ∃ b, (s.pieceDone nk a 0 (some (p.lane, x))).accOf nk a.id = some b ∧ b.st = .reserved
        ∧ b.newv = some (rmwNew a.op (szBytes a.w.sz.toNat) (overlay x a.fwdb) a.payload ((a.q.map (·.val.nat)).getD 0)) := by
  have hlast : (a.withPiece 0 (some (p.lane, x))).left = [] := by simp [Acc.withPiece, hleft]
  have hbytes := bytesRead_withPiece hgot hlane 0 x
  have hnew : (a.withPiece 0 (some (p.lane, x))).newValue =
      rmwNew a.op (szBytes a.w.sz.toNat) (overlay x a.fwdb) a.payload ((a.q.map (·.val.nat)).getD 0) := by
    rw [Acc.newValue, hbytes]; rfl
  rw [State.pieceDone_reads s nk a 0 _ hlast (.inr hr)]
  refine ⟨?_, _, State.accOf_readDone_returns (State.accOf_pieceIn ha 0 _) hr, rfl, congrArg some hnew⟩
  rw [State.readDone_returns _ _ (a.withPiece 0 _) hr, hbytes]
  exact repliesWith_withPiece rfl ..

end

/-! ### Lanes of a gather -/

/-- The lanes that a gather has read, by their number. -/
def Acc.lanesGot (a : Acc) (bytes : Nat) : List (Nat × Nat) := a.got.map fun e => (e.1 / bytes, e.2)

section
variable {a : Acc} {bytes : Nat} (hpos : 0 < bytes)
  (hgot : ∀ e, e ∈ a.got → e.2 < 2 ^ (8 * bytes) ∧ ∃ k, k < 64 / bytes ∧ e.1 = k * bytes)
include hpos hgot

theorem lane_place {e : Nat × Nat} (he : e ∈ a.got) : e.1 / bytes * bytes = e.1 := by
  obtain ⟨-, k, -, hk⟩ := hgot e he
  rw [hk, Nat.mul_div_cancel _ hpos]

theorem bytesRead_gather (hfwd : a.fwdb = []) : a.bytesRead = sumDigits (8 * bytes) 0 (a.lanesGot bytes) := by
  have hterm : ∀ e ∈ a.got, ∀ v : Nat, v + e.2 * 2 ^ (8 * e.1) = v + e.2 * 2 ^ (8 * bytes * (e.1 / bytes)) := by
    intro e he v
    rw [Nat.mul_assoc, Nat.mul_comm bytes, lane_place hpos hgot he]
  rw [Acc.bytesRead, hfwd, sumDigits, Acc.lanesGot, List.foldl_map]
  exact List.foldl_ext _ _ _ fun v e he => hterm e he v

theorem lanesGot_nodup (hnodup : (a.got.map (·.1)).Nodup) : ((a.lanesGot bytes).map (·.1)).Nodup := by
  have hinj : ∀ e ∈ a.got, ∀ e' ∈ a.got, e.1 / bytes = e'.1 / bytes → e = e' := by
    intro e he e' he' h
    refine List.inj_on_of_nodup_map hnodup he he' ?_
    rw [← lane_place hpos hgot he, h, lane_place hpos hgot he']
  rw [Acc.lanesGot, List.map_map]
  exact (List.Nodup.of_map _ hnodup).map_on hinj

theorem find?_lanesGot (k : Nat) : (a.lanesGot bytes).find? (fun e => e.1 = k) =
    (a.got.find? fun e => e.1 = k * bytes).map fun e => (e.1 / bytes, e.2) := by
  have hplace : ∀ e ∈ a.got, decide (e.1 / bytes = k) = decide (e.1 = k * bytes) := by
    intro e he
    rw [decide_eq_decide, ← Nat.mul_left_inj hpos.ne', lane_place hpos hgot he]
  rw [Acc.lanesGot, List.find?_map]
  exact congrArg _ (List.find?_congr hplace)

/-- Each lane of a gather is what its piece read; a skipped one is zero (R100). -/
theorem lane_bytesRead (hfwd : a.fwdb = []) (hnodup : (a.got.map (·.1)).Nodup) (k : Nat) :
    a.bytesRead / 2 ^ (8 * bytes * k) % 2 ^ (8 * bytes) = ((a.got.find? fun e => e.1 = k * bytes).map (·.2)).getD 0 := by
  rw [bytesRead_gather hpos hgot hfwd, digit_sumDigits _ _ _ _ (lanesGot_nodup hpos hgot hnodup), find?_lanesGot hpos hgot]
  · cases a.got.find? fun e => e.1 = k * bytes <;> simp
  · simp only [Acc.lanesGot, List.forall_mem_map]
    exact fun e he => (hgot e he).1
  · simp

end

/-! ### The statement -/

theorem loadsSendWhatTheyReadR99 : LoadsSendWhatTheyReadR99 := by
  refine ⟨fun s m rest nk a p h hloc hleft hgot hlane hsize hread => ?one, fun a bytes hop hbytes hfwd hnodup hgot k hk => ?gather⟩
  case one =>
    have hat := h.atPlace
    have hold : memRead ((s.picking 0).unbox m) p.key p.size = memRead s p.key p.size :=
      memRead_congr (s := s) (t := (s.picking 0).unbox m) rfl _ _
    have hwidth : 8 * p.size ≤ a.resultWidth := by
      simp only [Acc.resultWidth, Acc.loadsVec, Bool.or_eq_true, decide_eq_true_eq]
      split at hsize
      next hvec => rw [if_pos hvec]; omega
      next hvec => rw [if_neg hvec]; omega
    have hnat (v : Nat) : (a.resultOf v).nat = v % if (a.resultOf v).isVec then 2 ^ 512 else 2 ^ 64 := by
      rw [resultOf_nat, Acc.resultWidth, resultOf_isVec, apply_ite (2 ^ ·)]
    rcases hread with hl | ⟨hr, hb⟩
    · obtain ⟨hreply, hentry⟩ := State.pieceDone_load_last (x := memRead s p.key p.size) hat.entry hl hleft hgot hlane
      have hplace := hat.load hl
      rw [hold] at hplace
      refine ⟨_, a.resultOf (overlay (memRead s p.key p.size) a.fwdb), h.msgDo.trans (congrArg _ hplace), hreply.of_clusters rfl,
        resultOf_isVec .., fun b hb => resultOf_byte s a hwidth hb, fun hfwd => ?_, fun _ => ?_, fun hr => ?_⟩
      · rw [hnat, hfwd, overlay_nil]
      · obtain ⟨b, hb, hst⟩ := hentry
        exact ⟨b, (State.accOf_outSub ..).trans hb, hst⟩
      · rw [returns_of_opLoad hl] at hr
        cases hr
    · obtain ⟨hl, -⟩ := not_load_store_of_opRmw (opRmw_of_returns hr)
      obtain ⟨hreply, b, hentry, hst, hnew⟩ := State.pieceDone_returns_last (s := ((s.picking 0).unbox m).reserveFor nk a.id p.key)
        (x := memRead s p.key p.size) hat.entry hr hleft hgot hlane
      have hplace := hat.reserves hr hb
      rw [hold] at hplace
      rw [← resultOf_scalar hl] at hreply
      refine ⟨_, a.resultOf (overlay (memRead s p.key p.size) a.fwdb), h.msgDo.trans (congrArg _ hplace), hreply.of_clusters rfl,
        resultOf_isVec .., fun b hb => resultOf_byte s a hwidth hb, fun hfwd => ?_, fun hload => ?_, fun _ => ?_⟩
      · rw [hnat, hfwd, overlay_nil]
      · rw [hl] at hload
        cases hload
      · refine ⟨b, _, (State.accOf_outSub ..).trans hentry, hst, hnew, fun hfwd hsz => ?_⟩
        rw [hfwd, overlay_nil, hsz]
  case gather =>
    have hlanes : 8 * bytes * (k + 1) ≤ 512 := by rcases hbytes with rfl | rfl <;> omega
    have hvalue : a.value = .vec (BitVec.ofNat 512 a.bytesRead) := by rw [value_eq, Acc.resultOf, if_pos (by simp [Acc.loadsVec, hop])]
    rw [hvalue, elem_toNat, Val.lane, digit_ofNat _ hlanes, lane_bytesRead (by omega) hgot hfwd hnodup]

/-- Settles O28: accesses leave the interface, act at their place, and send what was read. -/
theorem accessesArePerformedR99 : Obligations.AccessesArePerformedR99 :=
  ⟨accessesLeaveTheInterfaceR96, accessesActAtTheirPlaceR99, loadsSendWhatTheyReadR99⟩

end Sys2Proof.Machine
end
